-- ==== Sys2Proof/Word.lean ====
section
/-! DEFINITION. The machine's words and the sparse tables that hold registers, memories and named objects.
A table is plain data: a list of (key, value) pairs with rising keys. -/

namespace Sys2Proof

/-- One byte (R10: memory is byte addressed and little-endian). -/
abbrev Byte := BitVec 8
/-- A 32-bit register or memory word (R220). -/
abbrev Word := BitVec 32
/-- A 64-bit value: an even-odd register pair, an address, a counter. -/
abbrev DWord := BitVec 64

/-- A finite map with natural keys, held as a list in rising key order. -/
abbrev Table (α : Type) := List (Nat × α)

namespace Table

variable {α : Type}

/-- The entry at a key, if the table lists one. -/
def find? : Table α → Nat → Option α
  | [], _ => none
  | (k, v) :: t, i => if k = i then some v else find? t i

/-- The value at a key, `d` where the table lists none. -/
def get (d : α) (t : Table α) (i : Nat) : α :=
  match find? t i with
  | some v => v
  | none => d

/-- Insert or replace the entry at a key, keeping the keys rising. -/
def put : Table α → Nat → α → Table α
  | [], i, v => [(i, v)]
  | (k, w) :: t, i, v =>
    if i < k then (i, v) :: (k, w) :: t
    else if i = k then (i, v) :: t
    else (k, w) :: put t i v

/-- Drop the entry at a key. -/
def del : Table α → Nat → Table α
  | [], _ => []
  | (k, w) :: t, i => if k = i then del t i else (k, w) :: del t i

/-- Write a value in a table whose unlisted keys read as `d`: writing `d` removes the entry, so equal contents
are equal data. -/
def set [DecidableEq α] (d : α) (t : Table α) (i : Nat) (v : α) : Table α :=
  if v = d then del t i else put t i v

/-- Change the entry at a key, if there is one. -/
def modify (t : Table α) (i : Nat) (f : α → α) : Table α :=
  t.map fun p => if p.1 = i then (p.1, f p.2) else p

/-- All keys lie above `lo`, and rise. -/
def risingFrom : Nat → Table α → Bool
  | _, [] => true
  | lo, (k, _) :: t => decide (lo ≤ k) && risingFrom (k + 1) t

/-- The canonical form: keys strictly rising, no entry equal to what an unlisted key reads as. -/
def wf [DecidableEq α] (d : α) (t : Table α) : Bool :=
  risingFrom 0 t && t.all fun p => decide (p.2 ≠ d)

end Table

end Sys2Proof
end

