-- ==== Sys2Proof/Config.lean ====
section
/-! DEFINITION. What the spec leaves open and an implementation fixes: free values without a body, so that no proof
can see what they are. -/

namespace Sys2Proof.Config

/-- A fresh unspecified value; the argument is the machine's own counter `State.free`, advanced at each use. -/
opaque freeWord : Nat → BitVec 64
/-- A message that a peer device sends to a core of a partition here (R506): its fabric id, the sending core as it numbers
its own, the partition and logical core, tag and payload. -/
structure PeerMessage where
  rdev   : BitVec 32
  sender : Nat
  part   : Nat
  core   : Nat
  tag    : BitVec 16
  data   : List Byte
  deriving DecidableEq, Repr

/-- The message of a peer that comes in at a tick, if any (R506), by the machine's own counter `State.free`. -/
opaque peerMessage : Nat → Option PeerMessage
/-- What the module draws, in watts, by the machine's own counter `State.free`: R5 says only 'at most 2,400 W'. -/
opaque moduleDraw : Nat → Nat
/-- The TLB entry that goes at a tick, by the machine's own counter `State.free`; none where the list is shorter: R484
says an entry stays 'until the entry is evicted' and not when that is. -/
opaque tlbVictim : Nat → Nat
/-- The line of the CSM, by its place in `State.csm`, and the granule of it whose data turns uncorrectable at a tick, if any
(R520), by the same counter. -/
opaque failingLine : Nat → Option (Nat × Nat)
/-- The single-bit error corrected at a tick, if any (R514), by the same counter: of DRAM (0 and a physical address) or of
an SRAM array (its kind and its quad or core). -/
opaque correctedError : Nat → Option (Nat × Nat)
/-- The 32-byte granule of physical memory whose data turns uncorrectable at a tick, if any (R514, R520), by the machine's own counter
`State.free`. -/
opaque failingGranule : Nat → Option Nat
/-- The block, by its place in `State.blocks`, of which an array's parity fails at a tick, and which array, if any (R520). -/
opaque failingBlock : Nat → Option (Nat × Nat)
/-- The partition and virtual core whose turn on the serving core ends or comes at a tick, if any (R523). -/
opaque alternation : Nat → Option (Nat × Nat)
/-- The host's time in nanoseconds at an exchange (R503), by the machine's own counter `State.free`. -/
opaque hostTime : Nat → BitVec 64
/-- What a core's cycle count is ahead of the device's: R19 says the counts are 'not aligned between cores'. -/
opaque clkOffset : Nat → BitVec 64
/-- The home slice of a line: R69 says 'a fixed hash of VA[56:7] and the ASID' and does not give the hash. -/
opaque homeHash : Nat → Nat → Nat
/-- The set of its bank that holds a line of the CSM, by ASID and line number; the spec gives a bank's ways, not its
indexing. -/
opaque csmIndex : Nat → Nat → Nat
/-- The verification of the trusted firmware's ECDSA signature against the ROM's key (R509); the key is not given. -/
opaque firmwareSignatureGood : BitVec 384 → Bool
/-- The trusted firmware image's bytes (R509), which the spec does not give. -/
opaque trustedFirmware : List Byte
/-- The Sextant firmware image of partition p, and of the spare core for p = 8 (R509). -/
opaque sextantFirmware : Nat → List Byte
/-- The configuration bytes measured into M1: 'quad map, context ranges and fuse state' (R509); layout not given. The
argument lists the map's nibbles, the context ranges, and the fuses' variant and enabled quads. -/
opaque configDigestInput : List Nat → List Byte
/-- The Sextant core, 0-3, that serves a partition after boot; the spec does not give the assignment. -/
opaque sextantCore : Nat → Nat
/-- The ECDSA signature (r, s) over a report's bytes under the identity key (R509), which never leaves the core. -/
opaque attestSignature : List Byte → BitVec 768
/-- The identity public key, 96 bytes of (x, y), and the serial number (R508). -/
opaque identityKey : BitVec 768
opaque serialNumber : BitVec 64
/-- The device's own Asterism fabric id (R508). -/
opaque fabricId : BitVec 32
/-- Installed capacities in bytes that R75 names: tier 1, tier 2, CXL memory. -/
opaque cxlCapacity : Nat
/-- The ECC syndrome of an uncorrectable error (R521). -/
opaque eccSyndrome : Nat → BitVec 64
/-- Shadow-pool granules that a template's image takes (R498); its layout is not given. -/
opaque templateGranules : Nat → Nat
/-- The controller's number in a page-fault record (R481); the spec does not number them. -/
opaque controllerOf : Nat → BitVec 8

end Sys2Proof.Config
end

