-- ==== Sys2Proof/Syntax.lean ====
section
/-! DEFINITION. The instruction set as syntax: operand fields, the six instruction formats (R248-R261), and one
constructor per row of the table of operations and events. A constructor of a machine instruction carries its
format's fields; a constructor of an event carries what names the agent that steps or what comes from outside. -/

namespace Sys2Proof

/-- Register types, the TYP field (R220). -/
inductive Ty where
  | b32 | i32 | n32 | f32 | f16x2 | bf16x2 | i16x2 | n16x2
  | i8x4 | n8x4 | f64 | i64 | n64 | b64 | b8 | b16
  deriving DecidableEq, Repr

/-- Register files of a destination (R250) and, with `x` (special or inline), of a source (R251). -/
inductive DFile where
  | v | k | c
  deriving DecidableEq, Repr

inductive SFile where
  | v | k | c | x
  deriving DecidableEq, Repr

/-- Crossbar patterns (R253); code 111 is illegal and has no constructor. -/
inductive Perm where
  | none | rotate | broadcast | butterfly | mirror | left | right
  deriving DecidableEq, Repr

/-- Access ordering (R79). -/
inductive Ord where
  | plain | acq | rel | ar
  deriving DecidableEq, Repr

/-- Scopes (R78), narrowest first; codes 110 and 111 are illegal. -/
inductive Scope where
  | thread | wave | block | cluster | device | system
  deriving DecidableEq, Repr

/-- Retention hints (R71). -/
inductive Ret where
  | short | default | long | bypass
  deriving DecidableEq, Repr

/-- Register counts of a memory access (R259): 1, 2, 4, 8. -/
inductive Cnt where
  | one | two | four | eight
  deriving DecidableEq, Repr

/-- The common head (R248): type and guard. `sel` 15 is "always". -/
structure Head where
  typ : Ty
  inv : Bool
  sel : BitVec 4
  deriving DecidableEq, Repr

/-- A destination field (R250). -/
structure Dst where
  scl  : BitVec 3
  clp  : BitVec 2
  file : DFile
  num  : BitVec 8
  deriving DecidableEq, Repr

/-- A source field (R251). -/
structure Src where
  abs   : Bool
  neg   : Bool
  param : BitVec 5
  perm  : Perm
  file  : SFile
  num   : BitVec 8
  deriving DecidableEq, Repr

/-- R format (R257). -/
structure RForm where
  h   : Head
  dst : Dst
  a   : Src
  b   : Src
  c   : Src
  xf  : BitVec 4
  deriving DecidableEq, Repr

/-- I format (R257). -/
structure IForm where
  h   : Head
  dst : Dst
  a   : Src
  imm : BitVec 32
  xf  : BitVec 4
  deriving DecidableEq, Repr

/-- S format (R257). `cnwait` reads [95:72] as four counts: `xf` and `imm` together. -/
structure SForm where
  h   : Head
  dst : Dst
  a   : Src
  b   : Src
  imm : BitVec 20
  xf  : BitVec 4
  deriving DecidableEq, Repr

/-- M format (R259). -/
structure MForm where
  h    : Head
  dat  : Dst
  base : Src
  ofs  : BitVec 24
  ret  : Ret
  ord  : Ord
  scp  : Scope
  cnt  : Cnt
  xf   : BitVec 4
  deriving DecidableEq, Repr

/-- B format (R260); `lnkK` is the link file, true for k. -/
structure BForm where
  h      : Head
  loff   : BitVec 32
  ts     : BitVec 3
  lnk    : BitVec 8
  lnkK   : Bool
  hint   : BitVec 2
  cond   : Src
  deriving DecidableEq, Repr

/-- MX format (R131, R261). -/
structure MXForm where
  h    : Head
  arr  : Bool
  ar   : BitVec 8
  m    : BitVec 9
  f1   : BitVec 5
  f2   : BitVec 5
  cv   : BitVec 4
  bits : BitVec 3
  sgn  : Bool
  acc  : Bool
  rm   : BitVec 3
  kx   : BitVec 8
  ky   : BitVec 8
  kz   : BitVec 8
  deriving DecidableEq, Repr

/-- The table of operations and events, one constructor per row of the opcode table. -/
inductive Instr where
  /-- R279: Advances the program counter and does nothing else. -/
  | nop (f : RForm)
  /-- R280: Guarded branch to a line-relative target slot, with the TGT check. -/
  | bra (f : BForm)
  /-- R281: Branches to the 64-bit address held in an even register pair. -/
  | brx (f : RForm)
  /-- R280: Guarded branch that writes the return address into a link pair. -/
  | call (f : BForm)
  /-- R281: Returns to the 64-bit address held in a register pair. -/
  | ret (f : RForm)
  /-- R283: Reads a callable table entry through the constant path and calls it. -/
  | callsh (f : RForm)
  /-- R285: Ends each guarded thread: its region is closed, its contexts are released and the R18 end is applied. -/
  | exit (f : RForm)
  /-- R286: Makes the threads not ready for 16 cycles and clears the wave's ageing bonus. -/
  | yield (f : RForm)
  /-- R287: Makes the threads not ready for n to n+64 core cycles. -/
  | sleep (f : IForm)
  /-- R288: Checks up to four condition descriptors and waits until the mode holds or the time-out expires. -/
  | waitc (f : IForm)
  /-- R292: Raises software trap 0x18, deferred to the next slot. -/
  | trap (f : IForm)
  /-- R292: Raises breakpoint trap 0x19, deferred to the next slot. -/
  | brk (f : IForm)
  /-- R284: Branches once per fetch group on a uniform condition. -/
  | ubra (f : BForm)
  /-- R25: Holds the threads until the wave's live threads arrive or n cycles pass. -/
  | join (f : IForm)
  /-- R293: Integer add, wrapping or saturating per element. -/
  | iadd (f : RForm)
  /-- R293: Integer subtract per element. -/
  | isub (f : RForm)
  /-- R293: Integer multiply, low half per element. -/
  | imul (f : RForm)
  /-- R293: Upper half of the integer product per element. -/
  | imulhi (f : RForm)
  /-- R293: Integer multiply-add per element. -/
  | imad (f : RForm)
  /-- R294: 32-bit multiply into a 64-bit sum. -/
  | imadw (f : RForm)
  /-- R293: Integer minimum per element. -/
  | imin (f : RForm)
  /-- R293: Integer maximum per element. -/
  | imax (f : RForm)
  /-- R293: Absolute difference per element. -/
  | iabsd (f : RForm)
  /-- R295: Four-way byte dot product added to an accumulator. -/
  | idot4 (f : RForm)
  /-- R296: Integer compare into a condition bit or a register. -/
  | icmp (f : RForm)
  /-- R297: Selects a or b bitwise on a 32-bit condition. -/
  | isel (f : RForm)
  /-- R299: Adds a sign-extended immediate to a 64-bit address pair. -/
  | lea (f : IForm)
  /-- R298: Add with carry through a condition bit. -/
  | iaddc (f : RForm)
  /-- R300: mov form with XF[0] = 0: writes IMM32, extended per type. -/
  | movImmediate (f : IForm)
  /-- R300: mov form with XF[0] = 1: copies a source after crossbar and modifiers. -/
  | movRegister (f : IForm)
  /-- R301: Copies the lowest lane's value into a k register once per fetch group. -/
  | movk (f : RForm)
  /-- R302: Bitwise AND. -/
  | andd (f : RForm)
  /-- R302: Bitwise OR. -/
  | orr (f : RForm)
  /-- R302: Bitwise XOR. -/
  | xorr (f : RForm)
  /-- R302: Bitwise a AND NOT b. -/
  | andn (f : RForm)
  /-- R303: Logical left shift per element. -/
  | shl (f : RForm)
  /-- R303: Logical right shift per element. -/
  | shr (f : RForm)
  /-- R303: Arithmetic right shift per element. -/
  | sar (f : RForm)
  /-- R303: Left rotation per element. -/
  | rotl (f : RForm)
  /-- R304: Extracts a bit field at an immediate position and length. -/
  | bfx (f : IForm)
  /-- R305: Inserts the low bits of b into a at a field. -/
  | bfi (f : RForm)
  /-- R306: Counts set bits. -/
  | popc (f : RForm)
  /-- R306: Counts leading zero bits. -/
  | clz (f : RForm)
  /-- R306: Reverses the bit order. -/
  | brev (f : RForm)
  /-- R306: Finds the index of the lowest set bit. -/
  | ffs (f : RForm)
  /-- R307: Builds a word from selected bytes of a register pair. -/
  | prmb (f : IForm)
  /-- R308: Keyed 32-bit bijective hash. -/
  | mix32 (f : RForm)
  /-- R312: Float add, rounded once. -/
  | fadd (f : RForm)
  /-- R312: Float subtract, rounded once. -/
  | fsub (f : RForm)
  /-- R312: Float multiply, rounded once. -/
  | fmul (f : RForm)
  /-- R312: Fused float multiply-add, rounded once. -/
  | ffma (f : RForm)
  /-- R313: Float minimum under the NaN and zero rules. -/
  | fmin (f : RForm)
  /-- R313: Float maximum under the NaN and zero rules. -/
  | fmax (f : RForm)
  /-- R314: Correctly rounded division. -/
  | fdiv (f : RForm)
  /-- R314: Correctly rounded square root. -/
  | fsqrt (f : RForm)
  /-- R314: Correctly rounded reciprocal. -/
  | frcp (f : RForm)
  /-- R314: Correctly rounded reciprocal square root. -/
  | frsq (f : RForm)
  /-- R314: Correctly rounded power of two. -/
  | fexp2 (f : RForm)
  /-- R314: Correctly rounded base-2 logarithm. -/
  | flog2 (f : RForm)
  /-- R314: Correctly rounded sine of x turns. -/
  | fsin (f : RForm)
  /-- R314: Correctly rounded cosine of x turns. -/
  | fcos (f : RForm)
  /-- R315: Fractional part of a float. -/
  | ffract (f : RForm)
  /-- R315: Rounds a float to an integral value. -/
  | frnd (f : RForm)
  /-- R316: Float compare into a condition bit or a register. -/
  | fcmp (f : RForm)
  /-- R317: Writes a class mask of each element. -/
  | fclass (f : RForm)
  /-- R319: Converts between float formats. -/
  | cvtf (f : RForm)
  /-- R320: Converts float to integer with saturation. -/
  | cvtfi (f : RForm)
  /-- R321: Converts integer to float. -/
  | cvtif (f : RForm)
  /-- R322: Converts an f32 to a BFP mantissa. -/
  | cvtbfp (f : RForm)
  /-- R323: Computes a shared BFP exponent over the executing threads. -/
  | bfpexp (f : RForm)
  /-- R324: Narrows two registers into one packed register. -/
  | pack (f : RForm)
  /-- R325: Widens one packed element to 32 bits. -/
  | unpack (f : RForm)
  /-- R326: Writes fmode and returns the old value. -/
  | frmset (f : IForm)
  /-- R327: Reads fflags and clears the masked bits. -/
  | fflags (f : IForm)
  /-- R328: Seeds the stochastic-rounding state. -/
  | srseed (f : RForm)
  /-- R332: Interval add with outward rounding. -/
  | ivadd (f : RForm)
  /-- R332: Interval subtract with outward rounding. -/
  | ivsub (f : RForm)
  /-- R332: Interval multiply. -/
  | ivmul (f : RForm)
  /-- R332: Interval square. -/
  | ivsqr (f : RForm)
  /-- R333: Interval square root, writing a domain bit. -/
  | ivsqrt (f : RForm)
  /-- R332: Interval minimum. -/
  | ivmin (f : RForm)
  /-- R332: Interval maximum. -/
  | ivmax (f : RForm)
  /-- R332: Interval absolute value. -/
  | ivabs (f : RForm)
  /-- R334: Interval Euclidean length of two or three operands. -/
  | ivhyp (f : RForm)
  /-- R335: Tests the sign of an interval. -/
  | ivtest (f : RForm)
  /-- R337: Affine add. -/
  | afadd (f : RForm)
  /-- R338: Affine multiply. -/
  | afmul (f : RForm)
  /-- R338: Affine square. -/
  | afsqr (f : RForm)
  /-- R339: Affine square root under the min-range rule. -/
  | afsqrt (f : RForm)
  /-- R340: Affine absolute value. -/
  | afabs (f : RForm)
  /-- R340: Converts an affine form to its interval hull. -/
  | aftoiv (f : RForm)
  /-- R342: Reads a register at a lane chosen at run time. -/
  | shfl (f : RForm)
  /-- R343: Writes the mask of executing lanes with a nonzero value. -/
  | ballot (f : RForm)
  /-- R343: All, any or uniform vote over the executing lanes. -/
  | vote (f : RForm)
  /-- R344: Inclusive or exclusive scan in ascending lane order. -/
  | scan (f : RForm)
  /-- R344: Reduction over the executing lanes. -/
  | redx (f : RForm)
  /-- R343: Writes the mask of lanes holding an equal bit pattern. -/
  | matchx (f : RForm)
  /-- R345: Pushes E onto a mask stack. -/
  | msksave (f : RForm)
  /-- R345: ANDs E with a condition. -/
  | mskand (f : RForm)
  /-- R345: Pops E from a mask stack. -/
  | mskrest (f : RForm)
  /-- R345: Inverts E under the saved bit. -/
  | mskelse (f : RForm)
  /-- R29: Acquires extension blocks for the wave, waiting until all of them fit. -/
  | xacq (f : IForm)
  /-- R346: Releases the wave's extension blocks above n. -/
  | xrel (f : IForm)
  /-- R26: Hard convergence barrier over a lane mask. -/
  | wsync (f : IForm)
  /-- R352: Generic-path load. -/
  | ld (f : MForm)
  /-- R352: Generic-path store. -/
  | st (f : MForm)
  /-- R352: Scratch load. -/
  | ldl (f : MForm)
  /-- R352: Scratch store. -/
  | stl (f : MForm)
  /-- R352: Constant-path load. -/
  | ldc (f : MForm)
  /-- R354: Prefetches a line into the L1 without trapping. -/
  | prf (f : MForm)
  /-- R352: Tile-layout path load. -/
  | ldt (f : MForm)
  /-- R352: Tile-layout path store. -/
  | stt (f : MForm)
  /-- R355: Release, acquire or both at a scope, with no access. -/
  | fence (f : MForm)
  /-- R356: Writes back and invalidates the caches of a path set. -/
  | pfence (f : IForm)
  /-- R357: Invalidates the core's instruction lines. -/
  | ifence (f : RForm)
  /-- R358: Writes back dirty bytes of 1 to 8 lines. -/
  | wb (f : MForm)
  /-- R358: Invalidates clean bytes of 1 to 8 lines. -/
  | inv (f : MForm)
  /-- R359: Sets the core's way mask between scratch and L1. -/
  | wayset (f : IForm)
  /-- R361: Returning atomic read-modify-write at the home bank. -/
  | atom (f : MForm)
  /-- R361: Non-returning atomic, buffered in deterministic mode. -/
  | red (f : MForm)
  /-- R362: Compare and swap at the home bank. -/
  | cas (f : MForm)
  /-- R363: Atomic on scratch. -/
  | atoml (f : MForm)
  /-- R363: Compare and swap on scratch. -/
  | casl (f : MForm)
  /-- R364: Element-wise bank operation over a range of lines. -/
  | bupd (f : MForm)
  /-- R365: Combines lane values into one line at the home bank. -/
  | bred (f : MForm)
  /-- R367: Waits for buffered reductions, or acts as a flush collective in deterministic mode. -/
  | aflush (f : RForm)
  /-- R368: Arrives at a block barrier and waits for the phase. -/
  | bar (f : IForm)
  /-- R368: Arrives at a block barrier without waiting and returns the phase. -/
  | barr (f : IForm)
  /-- R368: Waits for a barrier phase after a token. -/
  | barw (f : IForm)
  /-- R369: Cluster-wide barrier and flush point. -/
  | cbar (f : IForm)
  /-- R369: Launch-wide grid barrier of a cooperative launch. -/
  | gbar (f : IForm)
  /-- R370: Arrives at an arrival object and designates the last arriver. -/
  | larr (f : IForm)
  /-- R371: Waits on a timeline value, as a device-scope acquire. -/
  | tlwait (f : SForm)
  /-- R371: Reads a timeline counter. -/
  | tlread (f : SForm)
  /-- R372: Waits until the outstanding counters fall to the limits. -/
  | cnwait (f : SForm)
  /-- R373: Arms a byte barrier. -/
  | boinit (f : SForm)
  /-- R374: Waits until a byte barrier reaches zero. -/
  | bowait (f : SForm)
  /-- R377: Sends a message to a named core and waits for acceptance. -/
  | msgsend (f : SForm)
  /-- R376: Posts a receive, matched first against the overflow queue. -/
  | msgpost (f : SForm)
  /-- R379: Ends the current idempotent region and begins a new one. -/
  | rgnb (f : RForm)
  /-- R384: Validates copy-request records and hands them to engines with sequence numbers. -/
  | kick (f : SForm)
  /-- R390: Initialises a FIFO descriptor. -/
  | cbinit (f : SForm)
  /-- R391: Waits for a free slot and reserves it. -/
  | cbpushReserve (f : SForm)
  /-- R391: Commits a reserved slot as a cluster-scope release. -/
  | cbpushCommit (f : SForm)
  /-- R392: Pops the head slot, waiting while the FIFO is empty and not ended. -/
  | cbpop (f : SForm)
  /-- R392: Pops the head slot or returns an empty status at once. -/
  | cbpopTry (f : SForm)
  /-- R393: Releases a popped slot, counted in pop order. -/
  | cbrel (f : SForm)
  /-- R394: Reads a FIFO descriptor. -/
  | cbstat (f : SForm)
  /-- R386: Cancels the block's unstarted requests of a context. -/
  | cpcancel (f : SForm)
  /-- R387: Releases at device scope and advances a timeline. -/
  | tlsig (f : SForm)
  /-- R388: Selects the wave's default copy context. -/
  | ctxsel (f : SForm)
  /-- R122: Signs a load of a weight stream into the shadow plane. -/
  | mxwld (f : MXForm)
  /-- R122: Signs an exchange of the active and shadow planes. -/
  | mxwsw (f : MXForm)
  /-- R124: Signs a bit-serial multiply of an activation stream into accumulators. -/
  | mxmul (f : MXForm)
  /-- R126: Signs the clearing of accumulator rows. -/
  | mxzero (f : MXForm)
  /-- R128: Signs a drain of accumulators through the epilogue into a FIFO. -/
  | mxdrn (f : MXForm)
  /-- R122: Signs the building of a permutation plane. -/
  | mxperm (f : MXForm)
  /-- R396: Declares a convergence register's count. -/
  | cvset (f : SForm)
  /-- R397: Reads a convergence register's state. -/
  | cvstat (f : SForm)
  /-- R193: Captures the template, releases it and ends the prologue. -/
  | freeze (f : RForm)
  /-- R201: Makes an item the prologue of a second-level template. -/
  | nest (f : IForm)
  /-- R211: Completes a procedural fill and wakes its waiters. -/
  | fillend (f : RForm)
  /-- R401: Queries, pins, unpins or touches a procedural block. -/
  | fillq (f : SForm)
  /-- R217: Discards an unpinned FILLED block. -/
  | filld (f : SForm)
  /-- R402: Records arrival at a numbered phase boundary. -/
  | phase (f : IForm)
  /-- R407: Samples a texture with derivatives from lane quads. -/
  | tex (f : RForm)
  /-- R407: Samples a texture with explicit derivatives. -/
  | texg (f : RForm)
  /-- R411: Samples a brick grid in point mode. -/
  | brick (f : RForm)
  /-- R410: Returns the size of a texture level. -/
  | texq (f : RForm)
  /-- R413: Writes a colour pixel through the raster path. -/
  | rtw (f : RForm)
  /-- R414: Pair-minimum update of a depth pixel. -/
  | zt (f : RForm)
  /-- R415: Reads a tile's coverage mask against a depth threshold. -/
  | covq (f : RForm)
  /-- R414: Pair-minimum update of a depth pixel from a hit record. -/
  | vbw (f : RForm)
  /-- R416: Appends a record to a task queue. -/
  | emit (f : SForm)
  /-- R417: Pops a task record, waiting for one. -/
  | taskpop (f : SForm)
  /-- R417: Pops a task record or reports an empty queue at once. -/
  | taskpopTry (f : SForm)
  /-- R419: Starts a march of a ray through a scene program. -/
  | march (f : RForm)
  /-- R420: Waits for the march to stop and reads its record. -/
  | mhit (f : RForm)
  /-- R420: Reads the callout words of a march stopped at CALLOUT. -/
  | mhitCo (f : RForm)
  /-- R162: Specialises a scene image for a box into scratch. -/
  | bcprune (f : RForm)
  /-- R421: Answers a callout and resumes the march. -/
  | opqret (f : RForm)
  /-- R423: Starts or resumes a ray traversal. -/
  | trace (f : RForm)
  /-- R424: Waits for the traversal to stop and reads the hit record. -/
  | thit (f : RForm)
  /-- R424: Reads the ray in the candidate leaf's space. -/
  | thitRay (f : RForm)
  /-- R425: Reads the stack and trail state of a CANDIDATE context. -/
  | tstack (f : RForm)
  /-- R426: Hands a beam descriptor to the quad's beam unit. -/
  | beam (f : RForm)
  /-- R427: Reads a thread control and status register. -/
  | csrr (f : IForm)
  /-- R427: Writes a thread control and status register. -/
  | csrw (f : IForm)
  /-- R428: Returns from a trap handler to tepc. -/
  | tret (f : RForm)
  /-- R429: Releases, posts a service call record and waits for the answer. -/
  | svc (f : IForm)
  /-- R430: Writes a trace marker record. -/
  | trc (f : IForm)
  /-- R23: A ready thread that has not issued for 4,096 cycles issues alone. -/
  | starvedIssue (ls : Nat)
  /-- R21: A wave's ageing bonus rises after 512 eligible unchosen cycles. -/
  | ageingBonus (wave : Nat)
  /-- R25: A held thread's join count of n cycles expires and it is released. -/
  | joinTimeout (wave : Nat) (lane : Nat)
  /-- R287: A sleep or yield interval ends and the thread becomes ready. -/
  | sleepExpire (wave : Nat) (lane : Nat)
  /-- R40: A waitc time-out in ticks expires and the result is written with bit 4 set. -/
  | waitcTimeout (wave : Nat) (lane : Nat)
  /-- R42: A waitc's conditions come to satisfy its mode; it wakes and acquires. -/
  | waitcWake (wave : Nat) (lane : Nat)
  /-- R29: Blocks returning to the pool are granted to waiting waves in order. -/
  | extensionBlockGrant (ls : Nat)
  /-- R198: A first write to a mapped register above v63 waits for and acquires its block. -/
  | implicitAcquire (wave : Nat)
  /-- R38: A load's data returns and is written, and LD falls in issue order. -/
  | loadComplete (i : Nat)
  /-- R38: A store is performed at its scope, and ST falls. -/
  | storePerformed (i : Nat)
  /-- R38: An instruction held on a full counter issues once the counter falls. -/
  | counterRoom (wave : Nat) (lane : Nat)
  /-- R77: A request held on a full tracker issues once an entry frees. -/
  | trackerEntryFree (core : Nat) (tracker : Nat)
  /-- R537: A write reaching its home bank is judged for generation and W, and dropped or recorded. -/
  | homeBankWriteJudged (i : Nat)
  /-- R537: The CSM writes a dirty line to DRAM at eviction, judged at its translation. -/
  | csmLineToDram (i : Nat)
  /-- R118: A new holder's first signature clears the matrix state over 256 cycles. -/
  | matrixStateClear (core : Nat)
  /-- R118: A signature waiting on another launch's holder proceeds when the holder ends. -/
  | matrixHolderFree (core : Nat)
  /-- R134: A completed round waiting on a full array queue enters once an entry frees. -/
  | matrixQueueRoom (core : Nat) (arr : Nat)
  /-- R135: An array starts a queued operation once its stream is present and order allows. -/
  | matrixOperationStart (core : Nat) (arr : Nat)
  /-- R136: An array operation completes and each signer's MX counter falls. -/
  | matrixOperationComplete (core : Nat) (arr : Nat)
  /-- R130: A drain waiting on FREE or FILLED continues with its next row. -/
  | drainRow (core : Nat) (arr : Nat)
  /-- R133: An execution-time matrix trap is delivered to every signer before its next issue. -/
  | matrixTrapDelivery (wave : Nat) (lane : Nat)
  /-- R196: A free thread of a template launch is stamped with the next item or sub-item. -/
  | stampItem (wave : Nat) (lane : Nat)
  /-- R201: A second-level freeze waiting on bank entries proceeds once every core has one. -/
  | templateBankEntryFree (core : Nat)
  /-- R210: A queued generator item binds into the generator reserve. -/
  | generatorBind (part : Nat)
  /-- R211: A generator's fill time-out expires; it is halted and its fill fails. -/
  | fillTimeout (gen : Nat)
  /-- R210: No matrix-free reserve core within 4,096 ticks; Sextant pre-empts a holder by save. -/
  | generatorMatrixPreempt (part : Nat)
  /-- R385: An engine starts a request of a context in sequence order. -/
  | copyRequestStart (ctx : Nat)
  /-- R96: A piece of a request is performed; its barrier and FIFO counts advance. -/
  | copyPieceWritten (ctx : Nat)
  /-- R96: A request retires, with or without error, and its timeline advances. -/
  | copyRequestRetire (ctx : Nat)
  /-- R154: The marcher stops with a status and leaves its record. -/
  | marchStop (wave : Nat) (lane : Nat)
  /-- R174: A traversal stops with HIT, MISS, CANDIDATE or ERROR. -/
  | traversalStop (wave : Nat) (lane : Nat)
  /-- R187: A beam's updates and records are performed and its status is written. -/
  | beamComplete (quad : Nat)
  /-- R187: A full task queue retried for 4,096 ticks gives status 1. -/
  | beamQueueRetryExpire (quad : Nat)
  /-- R377: An arriving message is matched to a posted receive or queued for overflow. -/
  | messageArrival (core : Nat)
  /-- R506: An access held 10,000 ticks for a failed peer is refused with trap 0x0B. -/
  | peerAccessTimeout (i : Nat)
  /-- R464: The front-end reads a ring entry and validates the descriptor. -/
  | launchSubmit (part : Nat) (q : Nat)
  /-- R467: A validated launch is admitted once its wait timeline is satisfied. -/
  | launchAdmit (handle : Nat)
  /-- R470: The slot table reserves a record's resources, all or none. -/
  | bindReserve (part : Nat)
  /-- R470: A reservation becomes a binding; a complete coordinate starts. -/
  | bindCommit (part : Nat)
  /-- R470: A matching reservation is freed. -/
  | bindAbandon (part : Nat)
  /-- R469: A record with an unknown op is given status 4. -/
  | bindRecordMalformed (part : Nat)
  /-- R470: An uncommitted reservation lapses after RESEXP ticks. -/
  | reservationLapse (i : Nat)
  /-- R474: A slot joins or leaves the reserve once no wave or generator occupies it. -/
  | reserveSlotChange (part : Nat) (core : Nat) (slot : Nat)
  /-- R479: A fault record is written at FQTAIL, held while the ring is full. -/
  | faultRecordWrite (part : Nat)
  /-- R139: Halted units finish started operations and the save image is written. -/
  | haltComplete (i : Nat)
  /-- R497: A saved image is written back onto newly reserved cores. -/
  | restore (i : Nat)
  /-- R509: At reset the ROM verifies and measures the firmware and starts it. -/
  | boot
  /-- R517: Every 1 ms the trust core checks Sextant heartbeats and takes over after three misses. -/
  | heartbeatCheck
  /-- R534: A sampled memory request writes its record when it completes. -/
  | memorySample (core : Nat)
  /-- R262: A thread issues an unassigned opcode, which raises trap 0x01 at decode. -/
  | illegalInstruction (w0 : BitVec 32) (w1 : BitVec 32)
  /-- R243: A thread's fetch enters a line that fails its line check, and trap 0x02 is raised at the slot it entered. -/
  | illegalLine (failed : BitVec 6)
  /-- R472: The built-in arbiter's back-off wait of 2^k × 128 cycles plus spread, or its 128-cycle retry wait, runs out and the coordinate is attempted again. -/
  | arbiterBackoffExpiry (i : Nat)
  /-- R473: An admitted launch waiting under the built-in arbiter gains +1 ageing for every 1,000 ticks, up to +7. -/
  | arbiterAgeing (handle : Nat)
  /-- R461: A QTAIL or doorbell write rings a queue, or stops it on a bad tail. -/
  | qtailWrite (part : Nat) (q : Nat) (value : BitVec 64)
  /-- R462: Writing RESET clears the queue and drops its unbound launches. -/
  | queueReset (part : Nat) (q : Nat)
  /-- R470: The binder advances BRTAIL, handing records to the slot table. -/
  | bindRingWrite (part : Nat) (tail : Nat)
  /-- R473: A write of MODE changes the partition's binder. -/
  | binderModeWrite (part : Nat) (value : BitVec 64)
  /-- R474: A write of GCORE or GSLOT changes the generator reserve slot by slot. -/
  | generatorReserveWrite (part : Nat) (value : BitVec 64)
  /-- R477: Writing SVANS delivers SVVAL to a waiting call. -/
  | serviceAnswer (part : Nat) (i : Nat)
  /-- R478: A write of SHWAYS and WINWAYS changes the CSM roles or is refused. -/
  | csmDivisionWrite (part : Nat) (value : BitVec 64)
  /-- R489: PGCMD 0x01 retries every requester waiting on a page fault. -/
  | replay (part : Nat)
  /-- R490: PGCMD 0x02 fails every requester waiting on a fault's page. -/
  | unresolvable (part : Nat)
  /-- R484: PGCMD 0x03 invalidates TLB entries over a range. -/
  | tlbInvalidate (part : Nat)
  /-- R488: PGCMD 0x04 writes dirty bytes of a range back to DRAM. -/
  | rangeWriteBack (part : Nat)
  /-- R485: PGCMD 0x05 raises an ASID's generation and invalidates its lines. -/
  | generationBump (part : Nat)
  /-- R493: PGCMD 0x06 queues the generator of a FILLING block. -/
  | fillGo (part : Nat)
  /-- R493: PGCMD 0x07 fails a FILLING block's fill. -/
  | fillFail (part : Nat)
  /-- R500: PGCMD 0x08 discards a launch and writes its completion faulted. -/
  | endLaunch (part : Nat)
  /-- R488: PGCMD 0x09 clears bit 63 of a timeline counter. -/
  | clearTimelineError (part : Nat)
  /-- R499: PGCMD 0x0A halts every core and saves every coordinate. -/
  | partitionSwapOut (part : Nat)
  /-- R499: PGCMD 0x0B restores every saved coordinate. -/
  | partitionSwapIn (part : Nat)
  /-- R488: An unassigned command code gives error 1. -/
  | pgcmdUnknown (part : Nat)
  /-- R492: Writing a descriptor VA to RGDESC registers a procedural region. -/
  | regionRegister (part : Nat) (va : BitVec 64)
  /-- R492: Writing 0 to RGDESC unregisters a region. -/
  | regionUnregister (part : Nat)
  /-- R496: A PRQ request with directive 00 chooses an option by the cost model. -/
  | preemptAutomatic (part : Nat) (value : BitVec 64)
  /-- R497: Directive 01 stops new bindings and lets blocks run to their end. -/
  | preemptDrain (part : Nat) (value : BitVec 64)
  /-- R497: Directive 10 halts the cores, aborts regions and saves images. -/
  | preemptSave (part : Nat) (value : BitVec 64)
  /-- R497: Directive 11 aborts regions and discards the blocks. -/
  | preemptFlush (part : Nat) (value : BitVec 64)
  /-- R508: Mailbox command 0x01 returns the identity record. -/
  | readIdentity (fn : Nat)
  /-- R509: Mailbox command 0x02 returns a signed measurement report. -/
  | attest (fn : Nat)
  /-- R510: Mailbox command 0x03 assigns quads to partitions. -/
  | setQuadMap (fn : Nat)
  /-- R507: Mailbox command 0x04 sets a partition's copy contexts. -/
  | setContexts (fn : Nat)
  /-- R507: Mailbox command 0x05 allocates the lowest free ASID. -/
  | allocateAsid (fn : Nat)
  /-- R507: Mailbox command 0x06 clears an ASID's V bit. -/
  | freeAsid (fn : Nat)
  /-- R507: Mailbox command 0x07 writes an ASID's level-0 table PA. -/
  | setPageTableRoot (fn : Nat)
  /-- R511: Mailbox command 0x08 copies and hashes a new Sextant image. -/
  | updateStage (fn : Nat)
  /-- R511: Mailbox command 0x09 starts the staged image and re-measures. -/
  | updateCommit (fn : Nat)
  /-- R507: An unassigned mailbox command returns status 1. -/
  | mailboxUnknown (fn : Nat)
  /-- R503: Every 1 ms a PTM exchange adjusts the tick counter to host time. -/
  | ptmExchange (host : BitVec 64)
  /-- R503: The host link goes down or up; the tick runs free while it is down. -/
  | linkStateChange (up : Bool)
  /-- R502: A host write through CXL.mem is performed at the line's home bank. -/
  | hostCxlWrite (pa : Nat) (data : BitVec 64) (mask : BitVec 8)
  /-- R5: Draw at the power limit lowers the core clock by 100 MHz. -/
  | clockStepDown
  /-- R5: Draw below the limit raises the core clock by 100 MHz. -/
  | clockStepUp
  /-- R515: A failing quad halts, and its coordinates are saved, moved to a spare and restored. -/
  | quadFailure (quad : Nat) (bad : Bool)
  /-- R516: A failed router is routed around and its quad remapped. -/
  | routerFailure (quad : Nat)
  /-- R518: A failed engine's contexts move to healthy engines. -/
  | copyEngineFailure (engine : Nat) (target : Nat)
  /-- R514: A flit error is resent by the sending router or port. -/
  | linkFlitResend (link : Nat)
  /-- R519: Error counts past the threshold retire a DRAM channel. -/
  | channelRetirement (tier : Nat) (channel : Nat)
  /-- R520: A background scrub reads memory and reports errors without a consumer. -/
  | backgroundScrub (pa : Nat)
  /-- R530: Setting OPEN starts a trace session and writes an open record. -/
  | traceSessionOpen (part : Nat)
  /-- R530: Clearing OPEN flushes records and writes a close record. -/
  | traceSessionClose (part : Nat)
  /-- R459: A write to a privileged register that has no behaviour of its own. -/
  | registerWrite (part : Nat) (csr : Nat) (value : BitVec 64)
  /-- R479: The pager writes FQHEAD, freeing fault-ring slots so that held records and their held sources proceed. -/
  | faultQueueHeadWrite (part : Nat) (value : BitVec 64)
  /-- R468: The binder writes EVHEAD, freeing event-ring slots so that stalled admissions and block ends proceed. -/
  | eventRingHeadWrite (part : Nat) (value : BitVec 64)
  /-- R531: The reader writes THEAD, freeing trace-ring slots so that waiting open, close and cut records are written. -/
  | traceRingHeadWrite (part : Nat) (value : BitVec 64)
  /-- R506: An Asterism port fails, so that accesses to a peer whose PORTS have all failed are held and later refused. -/
  | asterismPortFailure (port : Nat)
  /-- R505: A peer's access arrives over Asterism for this device's tiers, and it is served or refused when beyond the installed capacity. -/
  | peerAccessRequest (pa : Nat) (write : Bool) (data : BitVec 64)
  /-- R502: The host snoops a host line held in the CSM through CXL.cache. -/
  | cxlCacheSnoop (pa : Nat)
  /-- R523: In deterministic mode, blocks of a virtual core and of its serving enabled core alternate on that core by save and restore. -/
  | virtualCoreAlternation (part : Nat) (vcore : Nat)
  deriving DecidableEq, Repr

end Sys2Proof
end

