-- ==== Sys2Proof/Machine/State.lean ====
section
/-! DEFINITION. The state the spec gives the device, as plain data, and the state right after reset. Objects are
grouped as the manual groups them: threads, waves and blocks; a core and its units; the chip's shared memory and
DRAM; launches, partitions and their registers; engines; the trust core, the links and the operator's counters. -/

namespace Sys2Proof.Machine

/-- A fault that stops the machine. Raised by nobody: the spec gives every step an effect (a trap, a record, a wait),
and the model takes it. Safe. -/
inductive Fault where
  | never
  deriving DecidableEq, Repr

/-- A step without a meaning. -/
inductive Refusal where
  /-- Raised by an arm of `exec` that has no meaning yet. Safe: the machine stops. -/
  | notModelled (mnemonic : String)
  deriving DecidableEq, Repr

/-- DRAM and local memories: bytes by address, canonical, an unlisted byte reading as zero (assumption 2). -/
abbrev Memory := List Host.Cell

/-- A thread's place: the wave (core * 16 + lane set * 8 + slot) and the lane. -/
structure TRef where
  wave : Nat
  lane : Nat
  deriving DecidableEq, Repr

/-- A trap about to be taken (R263-R266): cause, values, the deferred bit, and the fault record's extra word (R481). -/
structure Trap where
  code  : BitVec 8
  tval  : BitVec 64
  tval2 : BitVec 64
  defer : Bool
  extra : BitVec 64
  deriving DecidableEq, Repr

/-- What a thread that is not ready waits for (R20). -/
inductive Wait where
  | cycles (left : Nat)                                   -- sleep, yield: core cycles left (R286, R287)
  | join (left : Nat)                                     -- R25
  | wsync (mask : BitVec 32)                              -- R26
  | barrier (b : Nat) (phase : Nat)                       -- bar: arrived, waiting for the phase (R368)
  | cbar (b : Nat)                                        -- R369
  | gbar                                                  -- R369
  | aflush                                                -- deterministic flush collective (R367)
  | larr (dst : Nat) (obj : BitVec 64)                    -- the waiting holder of an arrival object (R370)
  | waitc (dst : Nat) (conds : List (BitVec 64)) (all : Bool) (expires : Option Nat)  -- R40
  | bowait (dst : Nat) (off : Nat)                        -- R374: a byte barrier at an offset of the own scratch
  | recheck                                               -- the instruction tests again: it issues once it can complete
  | retest                                                -- so too, and the wait is kept across a save (R371)
  | ext (need : Nat) (seq : Nat) (implicit : Bool)        -- xacq or an implicit acquire (R29, R198)
  | counterRoom (cls : Nat)                               -- a counter at 63: 0 LD, 1 ST, 2 CP, 3 MX (R38)
  | trackerRoom (k : Nat)                                 -- a full tracker (R77)
  | page (fault : Nat) (holder : BitVec 64)               -- asleep for a page until a replay; the holding PC or address (R106, R490)
  | fill (region : Nat) (block : Nat)                     -- a waiter of a procedural fill (R207)
  | fillReady                                             -- a saved waiter whose fill completed: it wakes at restore (R209)
  | fillFailed (code cause : BitVec 8) (pc : BitVec 64) (va : BitVec 64)  -- a saved waiter whose fill failed (R215, R218)
  | fillFull (region : Nat) (block : Nat)                 -- held outside a full waiter list (R208)
  | evicting (region : Nat) (block : Nat)                 -- held until the block is EMPTY (R206)
  | specRoom                                              -- needs a further speculative line (R110)
  | halted                                                -- halted, its fault record held for a ring slot (R479)
  | service (dst : Nat) (index : Nat)                     -- svc, until the answer (R429)
  | serviceRoom                                           -- svc on a full service ring (R477)
  | message (id : Nat)                                    -- msgsend, until accepted or refused (R377)
  | peer (since : Nat)                                    -- an access to a failed peer (R506)
  | matrixHolder                                          -- another launch holds the matrix state (R118)
  | matrixQueue                                           -- a completed round on a full queue (R134)
  | bankEntry                                             -- a second-level freeze (R201)
  deriving DecidableEq, Repr

/-- A march context stopped at CALLOUT (R158, R159): the ray, the parameter block, the segment stack and the step
count, the segment and mode of the evaluation, and its code position and stacks, newest first. -/
structure MarchCtx where
  ray    : List Word             -- eight registers (R153)
  params : List Word             -- four k registers
  segs   : List (Word × Word)
  steps  : Nat
  a      : Word
  b      : Word
  mode   : Nat
  pos    : Nat
  vals   : List (List Word)
  frames : List (List (List Word))
  deriving DecidableEq, Repr

/-- A march, trace, sample, `brick` or `bcprune` that a fetch holds (R106, R165): the unit (1 march, 2 trace, 3 sampler, 0
another), the operands it was issued with, the values its fetches gave so far, newest first, and those of them that the continued run
has still to pass to come back to where it stood. -/
structure HeldRun where
  unit : Nat
  args : List Word
  seen : List Nat
  todo : List Nat
  deriving DecidableEq, Repr

/-- The march record (R156) and the callout words `mhit.co` reads (R420). -/
structure MarchRec where
  words   : List Word
  callout : List Word
  deriving DecidableEq, Repr

/-- A march run under way: what started it (R160), its region, the record it will leave, the context it will hold
then, and the context it resumed. -/
structure MarchRun where
  pc     : BitVec 64
  region : Nat
  left   : MarchRec
  next   : Option MarchCtx
  back   : Option MarchCtx
  deriving DecidableEq, Repr

/-- The space of a structure (R170): its node and leaf bases, its level, the ray in it, and the instance leaf's id and
flip that led there. -/
structure TravSpace where
  node  : Nat
  leaf  : Nat
  level : Nat
  org   : List Word
  dir   : List Word
  inst  : Option (Nat × Bool)
  deriving DecidableEq, Repr

/-- One entry of the traversal's short stack (R174). -/
structure TravEntry where
  ref   : Nat
  level : Nat
  rank  : Nat
  space : TravSpace
  deriving DecidableEq, Repr

/-- A traversal context stopped at CANDIDATE (R174). -/
structure TravCtx where
  ray      : List Word
  params   : List Word
  tClosest : Word
  best     : Option (List Word)  -- the closest-hit record so far, its restart and step counts 0
  stack    : List TravEntry      -- newest first, at most 8
  trail    : List Nat            -- T[0..63]
  dropped  : Bool
  restarts : Nat
  steps    : Nat
  level    : Nat                 -- current level
  cand     : Nat                 -- the candidate's reference and space
  space    : TravSpace
  epochs   : List (Nat × Word)   -- headers read, with the epoch (R179)
  deriving DecidableEq, Repr

/-- The hit record (R177) and the ray in the candidate's space (`thit.ray`, R424). -/
structure HitRec where
  words : List Word
  ray   : List Word
  deriving DecidableEq, Repr

/-- A traversal run under way, as a march run. -/
structure TravRun where
  pc     : BitVec 64
  region : Nat
  left   : HitRec
  next   : Option TravCtx
  back   : Option TravCtx
  deriving DecidableEq, Repr

/-- What a thread's march and traversal units held before its first run of a region (R160). -/
structure UnitsHeld where
  region   : Nat
  march    : Option MarchCtx
  marchRec : MarchRec
  trav     : Option TravCtx
  hitRec   : HitRec
  deriving DecidableEq, Repr

/-- A trap of a matrix operation, waiting for its signer's next issue (R133). -/
structure MxTrap where
  code : BitVec 8
  pc   : BitVec 64
  cv   : Nat
  seq  : Nat
  deriving DecidableEq, Repr

/-- Where a template launch's thread stands (R192, R195). -/
inductive Stamp where
  | plain            -- not a template launch
  | prologue
  | unstamped
  | item             -- holds a first-level item
  | subitem          -- holds a sub-item of a second-level template
  | free             -- ended an item, waits for the next
  deriving DecidableEq, Repr

/-- A TGT check still owed at the next fetch: of a stage or generator entry (R53, R204), or of a handler whose line
was not resident when the trap was taken (R266). -/
inductive Entry where
  | none | start
  | handler (extra : BitVec 64)  -- with the fault record's extra word should the handler prove no target
  deriving DecidableEq, Repr

/-- One thread (R17, R18, R19, R33, R227, R265, R38, R107). -/
structure Thread where
  ended    : Bool
  pc       : BitVec 64
  e        : Bool
  cond     : BitVec 12
  v        : Table Word
  mapped   : BitVec 256
  ld       : Nat
  st       : Nat
  cp       : Nat
  mx       : Nat
  fmode    : Word
  fflags   : Word
  tvec     : BitVec 64
  tcause   : Word
  tepc     : BitVec 64
  tval     : BitVec 64
  tval2    : BitVec 64
  tscratch : Word
  handler  : Option (BitVec 8)    -- in-handler state, with the cause that entered it (R266)
  wait     : Option Wait
  regionPc  : BitVec 64
  regionSeq : Nat
  readyAt  : Nat                  -- the cycle since which it has been ready without issuing (R23)
  stamp    : Stamp
  item     : BitVec 64
  tlevel   : Nat
  tpl      : Option Nat           -- the template its mapped registers and segment read (R197, R199)
  nest     : Option Nat           -- sub-items of an executed nest (R201)
  taken    : Nat                  -- first-level items taken in deterministic mode (R195)
  granules : Table (BitVec 512)   -- private granules by number (R199)
  march    : Option MarchCtx
  marchRec : MarchRec
  marchRuns : List MarchRun        -- oldest first
  trav     : Option TravCtx
  hitRec   : HitRec
  travRuns : List TravRun
  heldRun  : Option HeldRun
  unitsWere : Option UnitsHeld    -- as the region with the thread's latest runs found them: the model's own
  mxTraps  : List MxTrap
  phase    : Nat                  -- boundaries executed so far (R402)
  entry    : Entry
  mxq      : List (Nat × Bool)    -- signatures in issue order, with whether their operation is complete (R38)
  bupdAt   : Option (BitVec 64 × Nat)  -- a bupd under way: its address and the lines performed (R364)
  staleSt  : Nat                  -- stores, copies and matrix operations of the thread's earlier items still to retire:
  staleCp  : Nat                  -- they lower no counter of the item stamped since (R196)
  staleMx  : Nat
  together : BitVec 32            -- lanes released with it by a `wsync` or `join`, until it issues: one group (R25, R347)
  resample : List (BitVec 64)     -- places of its accesses whose samples a hold or a replay has ended (R534)
  deriving DecidableEq, Repr

/-- One wave: 32 lanes of one slot (R15, R28, R32, R21). Only bound lanes are listed. -/
structure Wave where
  block     : Nat
  index     : Nat
  threads   : Table Thread
  k         : Table Word
  kMask     : Table Word
  kPartial  : BitVec 64
  kLoaded   : Bool                -- a template's k registers have been loaded (R196)
  ext       : Nat
  bonus     : Nat
  waited    : Nat                 -- cycles eligible and not chosen since the last bonus or choice
  chosenAt  : Nat
  lastLane  : Option Nat          -- lowest lane of the group issued last (R22)
  ctxSel    : Option Nat          -- selected copy context (R388)
  sr        : Word                -- stochastic state in deterministic mode (R232)
  seeded    : Option Word         -- the value last written by srseed (R328)
  deriving DecidableEq, Repr

/-- A convergence register (R35). -/
structure Cv where
  declared : Nat
  fields   : Option MXForm        -- latched at the first signature
  opcode   : Nat                  -- 0 mxwld, 1 mxwsw, 2 mxmul, 3 mxzero, 4 mxdrn, 5 mxperm
  kvals    : List Word            -- KX, KY, KZ values
  rm       : BitVec 3             -- dynamic mode of the first signer
  seed     : Word                 -- deterministic drain seed latched at the first signature (R328)
  signers  : List (TRef × BitVec 64 × Nat)  -- who signed this round, with the signing PC and the signature's number
  seq      : BitVec 16            -- issue sequence number
  deriving DecidableEq, Repr

/-- A FIFO descriptor (R64, R65), with its reserved and popped slots. -/
structure Fifo where
  base   : Nat
  slotb  : Nat
  count  : Nat
  head   : Nat
  tail   : Nat
  free   : Nat
  filled : Nat
  eng    : Bool
  mxc    : Bool
  chan   : Bool
  fin    : Bool                   -- END
  resv   : List (Nat × Bool × Option TRef)  -- reserved, in order: slot, complete, reserver
  popped : List (Nat × Bool)      -- popped, in order: slot, released
  deriving DecidableEq, Repr

/-- A block barrier (R368). -/
structure Barrier where
  expected : Nat
  arrived  : List TRef
  phase    : Word
  deriving DecidableEq, Repr

/-- A buffered reduction of deterministic mode (R366). -/
structure BufAtomic where
  t     : TRef
  order : Nat
  pc    : BitVec 64
  va    : BitVec 64
  op    : BitVec 4
  ty    : Ty
  ord   : Ord
  scp   : Scope
  vals  : List (Nat × BitVec 64)  -- byte offset from va, operand
  lines : Nat                     -- whole lines from va that take the one operand in every element (bupd); 0: vals
  ret   : Ret
  fate  : Option Trap             -- refused: the trap it owes at the end of the flush
  deriving DecidableEq, Repr

/-- The work of a generator item (R210, R213): its block's id, the procedural block it fills, the fill's depth and the
recursion limit of its chain. It stays the item's when the fill has ended. -/
structure GenItem where
  id     : Nat
  region : Nat
  block  : Nat
  depth  : Nat
  limit  : Nat
  deriving DecidableEq, Repr

/-- One resident block, or a generator item's wave (R15, R18, R210). -/
structure Block where
  id       : Nat
  launch   : Nat                  -- handle; for a generator the fill's key
  gen      : Bool                 -- a generator item
  part     : Nat
  asid     : Nat
  agen     : Nat                  -- address-space generation
  flags    : BitVec 16            -- descriptor flags (R53); a generator's as R210
  core     : Nat
  lcore    : Nat                  -- logical core index returned by the source (R19, R523)
  coord    : Nat × Nat × Nat
  stage    : Nat
  bid      : Nat
  nthreads : Nat
  waves    : List Nat             -- wave ids, wave 0 first
  scratchOff : Nat
  scratchBytes : Nat
  chanBytes  : Nat
  segBytes   : Nat
  ncv      : Nat
  cvBase   : Nat                  -- its share of the core's convergence registers and FIFOs (R469)
  nfifo    : Nat
  fifoBase : Nat
  cvs      : Table Cv
  fifos    : Table Fifo           -- 31: the incoming stage channel
  barriers : Table Barrier
  detBuf   : List BufAtomic
  detHold  : Option (TRef × Wait) -- a flush under way: what the first entry left waits for, and its thread (R106, R366)
  busy     : Nat                  -- busy cycles since the last boundary (R46)
  busyAt   : Nat                  -- the cycle after the last one counted
  started  : Bool
  faulted  : Bool
  halted   : Bool
  bindTick : Nat
  genItem  : Option GenItem       -- what a generator fills
  fillendAt : Option (Nat × BitVec 32)  -- its `fillend` has issued: the order number then, and the lanes (R400)
  filled   : Bool                 -- its `fillend` has completed
  endPc    : BitVec 64            -- where the thread stood that ended last (R215)
  vecIndex : Option Nat           -- race detector index (R114)
  clocks   : Table Nat
  startSeq : Nat                  -- the number of the regions begun at thread start (R496)
  deriving DecidableEq, Repr

/-- A frozen template (R193, R201). -/
structure Template where
  id      : Nat
  launch  : Nat
  level   : Nat
  range   : Nat                   -- registers in the template range
  v       : Table Word
  cond    : BitVec 12
  e       : Bool
  fmode   : Word
  k       : Table Word
  resume  : BitVec 64
  segment : Table (BitVec 512)    -- template granules
  parent  : Option Nat            -- second level: the first-level template below
  coord   : Nat × Nat × Nat       -- second level: the parent's cluster
  stage   : Nat
  subs    : Nat                   -- second level: sub-items
  next    : Nat                   -- next sub-item to stamp
  live    : Nat                   -- sub-items not ended
  deriving DecidableEq, Repr

/-- Launch descriptor fields (R53). -/
structure Desc where
  flags   : BitVec 16
  stages  : Nat
  prio    : Nat
  entries : List (BitVec 64)
  grid    : Nat × Nat × Nat
  bpc     : Nat                   -- blocks per cluster
  shape   : Nat × Nat × Nat
  waves   : Nat
  pregrant : Nat
  scratch : Nat
  wayMask : BitVec 16
  cvs     : Nat
  fifos   : Nat
  argVa   : BitVec 64
  argBytes : Nat
  latency : Nat
  schedVa : BitVec 64
  segBytes : Nat
  pin     : BitVec 32
  compCtx : Nat
  compVal : BitVec 64
  waitCtx : Nat
  waitVal : BitVec 64
  items   : Nat
  chan    : List Nat
  deriving DecidableEq, Repr

/-- Where a launch stands (R463-R467). -/
inductive LaunchState where
  | validated | admitted | ended
  deriving DecidableEq, Repr

/-- A release record of the race detector (R114): its sequence number, and the snapshot. -/
structure RelRecord where
  seq     : Nat
  coord   : Nat × Nat × Nat
  cluster : Bool                  -- a release at cluster scope: only its coordinate shares it (R78)
  clocks  : Table Nat
  deriving DecidableEq, Repr

/-- A launch (R464-R467, R195, R46). -/
structure Launch where
  handle  : Nat
  part    : Nat
  queue   : Nat
  descVa  : BitVec 64
  d       : Desc
  asid    : Nat
  agen    : Nat
  state   : LaunchState
  prio    : Nat                   -- effective priority
  admSeq  : Nat
  admTick : Nat
  bonus   : Nat                   -- arbiter ageing (R473)
  bound   : List ((Nat × Nat × Nat) × Nat × Nat)  -- committed (coordinate, stage, bid)
  endedBlocks : Nat
  lifeSum : Nat                   -- summed lifetimes of ended blocks, in ticks, and their number (R495)
  lifeCount : Nat
  faulted : Bool
  itemNext : Nat
  itemsLive : Nat                 -- first-level items stamped and not ended
  tpl     : Option Nat            -- first-level template id
  prologueLost : Bool             -- the prologue ended without freeze (R194)
  sched   : Nat                   -- current choice
  shares  : List (List Nat)       -- schedule table
  boundaries : Nat                -- completed boundaries
  busySum : List Nat              -- busy cycles of ended blocks since the boundary, by stage
  epochs  : Table Nat             -- race detector epochs by vector index (R114)
  ring    : List RelRecord
  raced   : List (Nat × Nat)      -- granules reported at the second accessor's epoch (R117)
  deriving DecidableEq, Repr

/-- A race-detector stamp (R115). -/
structure RaceStamp where
  index : Nat
  epoch : Nat
  mask  : BitVec 32
  atomic : Bool
  pc    : BitVec 64
  who   : BitVec 64
  madeBy : Option (TRef × Nat)    -- a plain access: its thread and region, whose abort discards it (R109)
  deriving DecidableEq, Repr

/-- A cache line of a core-side cache (R61, R62): its bytes with validity and dirty masks. -/
structure Line where
  asid  : Nat
  agen  : Nat
  va    : Nat                     -- line address
  way   : Nat
  val   : BitVec 1024
  valid : BitVec 128
  dirty : BitVec 128
  spec  : Option TRef             -- speculative bytes of this thread's region (R63)
  bypass : Bool                   -- allocated for a bypass store of a region (R71)
  ret   : Ret
  writer : Option TRef            -- the line's last writer (R112)
  deriving DecidableEq, Repr

/-- A CSM line (R68, R537); `w` is the page's W bit kept from the translation by which the bank took it. -/
structure CsmLine where
  asid  : Nat
  agen  : Nat
  va    : Nat
  val   : BitVec 1024
  valid : BitVec 128
  dirty : BitVec 128
  w     : Option Bool
  part  : Nat
  ret   : Ret
  bad   : BitVec 4                -- 32-byte granules whose data is uncorrectable (R520)
  deriving DecidableEq, Repr

/-- What the watch of a launch keeps of a line (R83, R114, R115). -/
structure RaceLine where
  launch : Nat
  asid   : Nat
  agen   : Nat
  va     : Nat
  writes : Table RaceStamp        -- write stamp by granule
  reads  : Table (List RaceStamp) -- up to two read stamps by granule, newest first
  rels   : Table (List Nat)       -- by byte: the release records whose chain wrote it
  deriving DecidableEq, Repr

/-- A matrix plane (R119). -/
structure Plane where
  valid : Bool
  nw    : Nat
  sgn   : Bool
  cells : Table Byte              -- by 128 * k + c
  deriving DecidableEq, Repr

/-- A queued or running array operation (R134). -/
structure MxOp where
  opcode : Nat
  f      : MXForm
  kvals  : List Word
  rm     : BitVec 3
  cv     : Nat
  seq    : BitVec 16
  seed   : Word
  signers : List (TRef × BitVec 64 × Nat)
  cycle  : Nat                    -- the cycle in which its round completed (R134)
  held   : Bool                   -- its last signer waits for a queue entry (R134)
  started : Bool
  row    : Nat                    -- drain: rows written
  begun  : Bool                   -- drain: the present row has begun
  col    : Nat                    -- drain: elements of the present row computed
  exps   : List Byte              -- drain: column then row exponents, read when the drain starts
  prior  : List Byte              -- drain: bytes of the present row's prior popped so far
  taken  : List Nat               -- drain: prior slots popped and not released, in order
  freed  : Nat                    -- drain: prior slots of the present row released
  xs     : List (Nat × Word)      -- drain to a block format: the elements of the row, with their rounding words (R129)
  out    : List Byte              -- drain: bytes of the present row still to be written
  sent   : Nat                    -- drain: slots of the present row written
  last   : Option Nat             -- drain: the slot written last
  trap   : BitVec 8               -- the trap owed to the signers, 0 none (R133)
  done   : Bool                   -- effect complete, counters not yet lowered
  deriving DecidableEq, Repr

/-- One array (R118). -/
structure MxArray where
  active : Plane
  shadow : Plane
  acc    : Table (BitVec 40)      -- by 128 * row + entry
  ovf    : Table Bool
  queue  : List MxOp
  gen    : Word                   -- epilogue generator
  deriving DecidableEq, Repr

/-- The core's matrix state (R118). -/
structure Matrix where
  holder : Option Nat             -- block id
  clear  : Bool                   -- the clearing for a new holder is under way
  mul    : Bool                   -- the holder has issued an mxmul (R139)
  arrays : List MxArray
  waiting : List (Nat × MxOp)     -- completed rounds waiting for a queue entry, with the array
  deriving DecidableEq, Repr

/-- A posted receive (R376). -/
structure Receive where
  block   : Nat
  source  : Word
  tag     : BitVec 16
  buf     : Word
  cap     : Nat
  matched : Bool
  order   : Nat
  scope   : Scope                 -- of the message that matched it (R42)
  deriving DecidableEq, Repr

/-- A message in flight or in the overflow queue (R377). -/
structure Message where
  id     : Nat
  sender : Option TRef
  source : Word
  dest   : Nat                    -- physical core
  tag    : BitVec 16
  data   : List Byte
  scope  : Scope
  tick   : Nat                    -- of the send
  deriving DecidableEq, Repr

/-- A core and its units (R2, R59, R72, R231). -/
structure Core where
  wayMask  : BitVec 16
  scratch  : Memory               -- 512 KiB of local memory, by byte
  l1       : List Line            -- most recently used first
  tile     : List Line
  const    : List Line
  tex      : List Line
  brick    : List Line            -- the brick L1 (R73)
  icache   : List Line            -- instruction lines that passed their check
  sr       : Word                 -- core converter (R231)
  seedNext : Option Word          -- what `srseed` wrote in this cycle, in force from the next (R328)
  mx       : Matrix
  receives : Table Receive
  posted   : Nat                  -- posting order counter
  overflow : List Message
  banks    : List (Nat × Nat)     -- template-bank entries held: (launch, second-level template; 0: its first-level one)
  samples  : Nat                  -- memory instructions counted (R534)
  halted   : Bool
  deriving DecidableEq, Repr

/-- A load whose data has not been written (R38, R353). -/
structure PendLoad where
  t      : TRef
  tracker : Nat                   -- 0 L1, 1 constant, 2 sampler, 3 tile, 4 none
  uniform : Bool                  -- the destination is in file k
  regs   : List (Nat × Word)      -- registers still to be written
  live   : Bool                   -- the data has returned and been written, or was discarded: counted out in order
  unit   : Nat                    -- 0 memory, 1 march, 2 trace, 3 beam
  region : Nat                    -- the thread's region at issue
  seq    : Nat                    -- the order number at issue
  lines  : Nat                    -- entries of the tracker that it takes (R77)
  consts : Nat                    -- and of the constant tracker, for the descriptor it missed
  sample : Nat                    -- the sample that its return completes (R534); 0: none
  pc     : BitVec 64              -- of a load that waits on a peer: the load's
  peer   : Option Nat             -- the peer it waits on (R506)
  since  : Option Nat             -- the tick from which it is held, the peer being out of reach
  deriving DecidableEq, Repr

/-- A store not yet performed at its scope (R38). -/
structure PendStore where
  t       : TRef
  tracker : Nat                   -- 4 none, 5 a bypass store, 6 a reduction at a bank, 7 a scratch store
  fin     : Bool
  buffered : Bool                 -- not performed before a flush (R366) or the end of its region (a bypass store, R71)
  seq     : Nat                   -- the order number at issue
  sample  : Nat                   -- the sample that its performance completes (R534); 0: none
  deriving DecidableEq, Repr

/-- A core-side write-back on its way to its home bank (R537). -/
structure WriteBack where
  core : Nat
  part : Nat
  asid : Nat
  agen : Nat
  va   : Nat
  val  : BitVec 1024
  mask : BitVec 128
  ret  : Ret
  alloc : Bool                    -- false: a bypass store, which allocates no CSM line
  owner : Option TRef             -- the thread whose bypass store it is
  order : Nat                     -- the order number at which it set out
  tracker : Nat                   -- the tracker entry it takes (R77): 0 L1, 3 tile, 6 the quad's raster cache
  deriving DecidableEq, Repr

/-- A copy request: its record, who kicked it, and its progress (R382-R385). -/
structure CopyReq where
  seq     : Nat
  order   : Nat                   -- order of acceptance on the device
  raw     : BitVec 512            -- the record as kicked
  recAddr : BitVec 32
  ctx     : Nat
  block   : Nat
  launch  : Nat
  gen     : Bool
  genItem : Option GenItem        -- what the kicking generator fills (R206)
  coord   : Nat × Nat × Nat
  stage   : Nat
  bid     : Nat
  thread  : Nat                   -- linear thread index of the kicking thread
  flags   : BitVec 16             -- the block's launch flags
  asid    : Nat
  agen    : Nat
  part    : Nat
  t       : TRef
  started : Bool
  pos     : Nat                   -- bytes behind the next piece
  written : Nat                   -- bytes performed, but for those of left-out rows
  counted : Nat                   -- bytes of them counted down on the barrier
  fin     : Bool                  -- every byte performed, or given up
  retired : Bool                  -- retired, but an earlier request of the thread is not: CP has not fallen for it
  error   : Option (BitVec 8 × BitVec 64 × BitVec 64)  -- cause, failing address, generator PC
  dead    : Bool                  -- the error stops the request; otherwise only rows were left out
  parked  : Option Wait
  deriving DecidableEq, Repr

/-- A copy-engine context (R96, R384). -/
structure CopyCtx where
  counter : BitVec 64
  issued  : BitVec 48
  reqs    : List CopyReq          -- by sequence
  engine  : Option Nat            -- the engine that took the context over (R518); none: its own
  deriving DecidableEq, Repr

/-- A TLB entry (R484). -/
structure TlbEntry where
  asid : Nat
  va   : Nat
  log2 : Nat
  pa   : Nat
  w    : Bool
  x    : Bool
  deriving DecidableEq, Repr

/-- A page fault waiting for the pager (R487). -/
structure PageFault where
  id   : Nat
  asid : Nat
  page : Nat                      -- the page's number among those of its size
  log2 : Nat                      -- that size: 16, 21 or 30
  deriving DecidableEq, Repr

/-- A procedural region (R204, R205). -/
structure Region where
  desc    : BitVec 512
  asid    : Nat
  fill    : Table Nat             -- state by block: 0 EMPTY, 1 FILLING, 2 FILLED, 3 EVICTING
  pin     : Table Nat
  touch   : Table Nat             -- order of last touch by block (R216)
  overCnt : Word
  deriving DecidableEq, Repr

/-- A requester on a fill's waiter list (R208). -/
inductive Waiter where
  | wave (w : Nat)
  | copy (ctx : Nat) (seq : Nat)
  deriving DecidableEq, Repr

/-- A block in FILLING (R206, R210, R213). -/
structure Fill where
  part    : Nat
  region  : Nat
  block   : Nat
  depth   : Nat
  limit   : Nat                   -- the outermost region's recursion limit
  waiters : List Waiter
  queued  : Bool                  -- its generator is queued
  order   : Nat
  gen     : Option Nat            -- the bound generator's block id
  bindTick : Nat                  -- its time-out counts from here (R207, R211)
  waitTick : Nat                  -- since when a matrix generator has waited for a core
  deriving DecidableEq, Repr

/-- A beam in flight (R187): its thread and block, the register its status goes to, the task records still to be
queued, and since when a full queue has been retried. -/
structure Beam where
  t       : TRef
  block   : Nat
  dst     : Option Nat
  va      : BitVec 64
  pc      : BitVec 64            -- of the `beam`
  bad     : Trap                 -- its trap 0x01
  walked  : Bool                 -- its turn has come, and its descent is done
  queue   : BitVec 64
  asid    : Nat
  agen    : Nat
  part    : Nat
  pending : List (List Byte)
  retry   : Option Nat
  status  : Nat
  fin     : Bool                 -- completed while its block was saved (R426)
  hold    : Option Wait          -- what an access of the unit for it waits for (R106)
  owed    : Option Trap          -- the trap such an access owes its thread
  genItem : Option GenItem       -- the item of the generator that issued it (R206)
  deriving DecidableEq, Repr

/-- A bind record but for its op and status (R469); `core` is the physical core it names. -/
structure BindRec where
  handle : Nat
  core   : Nat
  slots  : BitVec 16
  cvBase : Nat
  fifoBase : Nat
  scratch : Nat
  coord  : Nat × Nat × Nat
  stage  : Nat
  bid    : Nat
  tag    : BitVec 32
  deriving DecidableEq, Repr

/-- A reservation of the slot table (R470): the core that serves the named one, its logical index, and its tick. -/
structure Reservation where
  part : Nat
  r    : BindRec
  core : Nat
  lcore : Nat
  tick : Nat
  deriving DecidableEq, Repr

/-- A saved coordinate (R497, R498). -/
structure Image where
  launch  : Nat
  coord   : Nat × Nat × Nat
  blocks  : List Block
  waves   : List (Nat × Wave)     -- by the ids the waves hold while saved
  scratch : List (Nat × Memory)   -- by block id: its footprint's bytes from 0
  matrix  : List (Nat × Matrix)
  granules : Nat                  -- shadow-pool granules of 64 KiB
  former  : List (Nat × Nat)      -- the wave ids before the save
  written : Bool                  -- HALT_COMPLETE has written the image
  swapped : Bool                  -- saved by a partition swap-out
  stays   : Bool                  -- goes back to the logical cores it left (R515)
  yields  : Bool                  -- gave its cores to the other blocks that they serve (R523)
  deriving DecidableEq, Repr

/-- A queue of a partition (R459, R460). -/
structure Queue where
  base : BitVec 64
  asid : Nat
  err  : Bool
  en   : Bool
  pcap : Nat
  sz   : Nat
  head : BitVec 16
  tail : BitVec 16
  ptr  : Option (BitVec 64)        -- a pointer read whose launch is not validated yet (R463)
  desc : Option (BitVec 2048)      -- its descriptor, read once, that has passed the checks before its table's (R463, R464)
  shares : Option (List (List Nat)) -- it has passed them all, and waits for a handle (R464)
  hold : Option Nat                -- the page fault its validation waits on (R464)
  table : Bool                     -- that page is its schedule table's
  lost : Bool                      -- a page of the entry or the descriptor was declared unresolvable
  lostTable : Bool                 -- one of the schedule table was
  deriving DecidableEq, Repr

/-- A sampled request (R534) or a marker behind one (R533), not yet passed to the ring: the core, the thread and its region,
the place of the access, the access among those outstanding (0: a marker), the queue of its launch, and its record. -/
structure Sample where
  core   : Nat
  t      : TRef
  region : Nat
  pc     : BitVec 64
  num    : Nat
  queue  : Nat
  body   : BitVec 512
  deriving DecidableEq, Repr

/-- A trace unit (R530). -/
structure TraceUnit where
  tqmask : BitVec 64
  tbase  : BitVec 64
  sp     : Nat
  smp    : Bool
  opened : Bool
  tsz    : Nat
  ttail  : Nat
  thead  : Nat
  tdrop  : Word
  tseq   : BitVec 16
  held   : List (BitVec 512)      -- records waiting for a slot
  samples : List Sample           -- in issue order
  deriving DecidableEq, Repr

/-- A coordinate that a pre-emption request covers (R494-R497): option 1 drain, 2 save, 3 flush, and the named cores. -/
structure PreReq where
  handle : Nat
  coord  : Nat × Nat × Nat
  opt    : Nat
  cores  : List Nat
  deriving DecidableEq, Repr

/-- A staged Sextant image: the trust core's copy, and its digest (R511). -/
structure Staged where
  image  : List Byte
  digest : BitVec 384
  deriving DecidableEq, Repr

/-- A partition's registers and rings (R459, R478, R530). -/
structure Part where
  svch   : Bool
  mode   : BitVec 2
  gslot  : Nat
  gcore  : Nat
  reserve : List (Nat × Nat)      -- reserve slots in force: (physical core, lane set * 8 + slot)
  brbase : BitVec 64
  brhead : Nat
  brtail : Nat
  binderOut : List (BitVec 256)   -- the model's own: bind records that the firmware or host binder writes next, in order
  resexp : Nat
  evbase : BitVec 64
  evtail : Nat
  evhead : Nat
  qsel   : Nat
  queues : Table Queue
  svbase : BitVec 64
  svtail : Nat
  svhead : Nat
  svval  : BitVec 64
  calls  : List (Nat × Bool)      -- service ring: records not yet passed, with whether they are answered
  fqbase : BitVec 64
  fqtail : Nat
  fqhead : Nat
  fqdrop : Word
  prhost : Bool
  flhost : Bool
  pghost : Bool
  pgarg  : List (BitVec 64)
  pgerr  : Nat
  pgbusy : Bool
  shways : Nat
  winways : Nat
  shbw   : Nat
  ctxbase : Nat
  ctxcnt : Nat
  prmet  : Bool
  propt  : BitVec 2
  preempts : List PreReq          -- what the last request covers: PRBUSY is set until all of it has taken effect
  rgsel  : Nat
  rgref  : Bool
  rgdesc : Table (BitVec 64)      -- RGDESC by region (R492)
  regions : Table Region
  faults : List (BitVec 512)      -- fault records held for a ring slot (R479)
  events : List (Bool × BitVec 128)  -- event records held for a ring slot, with whether each counts a block's end (R468)
  admitSeq : Nat
  swapped : Bool                  -- between swap out and swap in (R499)
  trace  : TraceUnit
  mgmtAsid : Nat                  -- the ASID of the partition's management context
  sextantDown : Bool              -- its Sextant core has failed and no spare serves it (R517)
  takeover : Option Nat           -- the tick at which the spare core began to take it over
  sextantStopped : Bool           -- its context is stopped by a commit (R511)
  image  : Option (List Byte)     -- the firmware an update has started; none: the image of boot (R509, R511)
  downAt : Option Nat             -- the tick since which that stops its binding, until it is counted (R529)
  updates : Word                  -- firmware update count (R509)
  staged : Option Staged          -- a staged image (R511)
  msix   : BitVec 4               -- vectors raised (R501)
  deriving DecidableEq, Repr

/-- A mailbox window (R507): window 0 is function 0, window p + 1 partition p. -/
structure Mailbox where
  request  : List (BitVec 64)
  pending  : Bool
  status   : Nat
  response : List Byte
  deriving DecidableEq, Repr

/-- A peer-table entry (R504). -/
structure Peer where
  rdev  : BitVec 32
  ports : BitVec 16
  valid : Bool
  deriving DecidableEq, Repr

/-- An access held for a failed peer (R506). -/
structure PeerHold where
  t    : TRef
  tick : Nat
  deriving DecidableEq, Repr

/-- An error of a DRAM channel, as Sextant counts them for R519: the model's own record. -/
structure MemError where
  tier    : Nat
  channel : Nat
  uncor   : Bool
  tick    : Nat
  deriving DecidableEq, Repr

/-- The health block (R536), and the errors of the last 24 h behind it (R519). -/
structure Health where
  sxsp   : Bool
  spq    : Nat
  ret1   : BitVec 48
  ret2   : BitVec 48
  uncor  : Word
  qfail  : Word
  detour : Word
  engmv  : Word
  jif    : Word
  corr   : Table Word
  arrays : Table Word             -- corrected errors of SRAM arrays since reset (R514, R521)
  errors : List MemError
  jobs   : List Nat               -- granules whose uncorrectable error has been counted in `jif` (R529): the model's own
  deriving DecidableEq, Repr

/-- The fetch group that issues (R22): the model's own register between choosing a group and running it. -/
structure Issue where
  wave   : Nat
  lanes  : BitVec 32
  pc     : BitVec 64
  second : Bool                   -- the second instruction of a pair (R247)
  deriving DecidableEq, Repr

/-- An arbiter's back-off for one coordinate (R472). -/
structure Backoff where
  handle : Nat
  coord  : Nat × Nat × Nat
  k      : Nat                    -- consecutive abandons
  waiting : Bool
  untilCycle : Nat
  deriving DecidableEq, Repr

/-- The device. -/
structure State where
  -- the model's own fields: who moves next, fresh values, sequence counters
  agenda   : List Instr           -- what the outside and the asynchronous agents do next, in order
  cur      : Option Issue
  forced   : Option TRef          -- a starved thread to issue next (R23)
  turn     : Nat                  -- the lane set that issued last
  free     : Nat                  -- index of the next free value
  seq      : Nat                  -- order counter for regions, waits, touches
  nextBlock : Nat
  nextTpl  : Nat
  nextFault : Nat
  nextMsg  : Nat
  -- time (R3, R5, R503)
  cycle    : Nat
  tick     : BitVec 64
  tickAcc  : Nat                  -- progress towards the next tick, in parts of `tickParts` (R5)
  clockMHz : Nat
  powerLimit : Nat                -- the operator's limit in watts, 1,500 to 2,400 (R5)
  draw     : Nat                  -- what the module draws in watts, at most 2,400 (R5)
  ptmSlew  : Int                  -- ticks still to gain (positive) or to hold back (negative)
  ptmCount : Nat
  linkUp   : Bool
  -- device identity and map (R1, R510, R512)
  booted   : Bool
  bootOk   : Bool
  variant  : BitVec 16
  enabled  : BitVec 100
  quadMap  : Table Nat            -- quad to partition, 15 none; unlisted: 0
  remap    : Table Nat            -- logical position (quad map index) to physical quad when a spare serves it
  failedQuads : List Nat
  failedRouters : List Nat
  -- work
  waves    : Table Wave
  blocks   : List Block
  launches : Table Launch
  templates : List Template
  parts    : Table Part
  reservations : List Reservation
  backoffs : List Backoff
  images   : List Image
  fills    : List Fill
  -- memory
  cores    : Table Core
  raster   : Table (List (Nat × Line))   -- by quad: lines with the core that wrote them
  csm      : List CsmLine         -- most recently used first
  raceLines : List RaceLine
  mem      : Memory
  tlb      : List TlbEntry
  asidOwner : Table Nat           -- the mailbox window that allocated an ASID (R507); unlisted: 0
  pageFaults : List PageFault
  loads    : List PendLoad
  stores   : List PendStore
  wbs      : List WriteBack
  retired  : List (Nat × Nat)     -- retired channels: (tier, channel)
  closed   : List (Nat × Nat)     -- retired channels that no translation has named since (R519)
  bad      : List Nat             -- 32-byte granules of physical memory (PA / 32) whose data is uncorrectable (R520)
  atBase   : BitVec 64            -- ATBASE (R478, R482)
  -- engines and links
  ctxs     : Table CopyCtx
  failedEngines : List Nat
  beams    : Table (List Beam)    -- by quad, in issue order
  messages : List Message         -- in flight
  peers    : Table Peer
  failedPorts : BitVec 16
  peerHolds : List PeerHold
  -- trust core, mailboxes, operator
  measure  : Table (BitVec 384)   -- M0-M10
  mailbox  : Table Mailbox
  missed   : Table Nat            -- Sextant core heartbeats missed in a row (R517)
  sextantOf : Table Nat           -- partitions that the spare Sextant core, 4, has taken over
  spareUsed : Bool
  health   : Health
  resent   : Nat                  -- flits resent (R514)
  deriving DecidableEq, Repr

/-- The machine right after reset: no launch, no thread, every table empty (an unlisted entry reads at its own reset
value, Machine/Reset.lean), memory listing nothing, and the boot of R509 still to come. -/
def State.reset : State where
  agenda := []
  cur := none
  forced := none
  turn := 0
  free := 0
  seq := 0
  nextBlock := 0
  nextTpl := 0
  nextFault := 0
  nextMsg := 0
  cycle := 0
  tick := 0
  tickAcc := 0
  clockMHz := 3300
  powerLimit := 2400
  draw := 0
  ptmSlew := 0
  ptmCount := 0
  linkUp := true
  booted := false
  bootOk := false
  variant := 0x0370
  enabled := BitVec.ofNat 100 (2 ^ 96 - 1)
  quadMap := []
  remap := []
  failedQuads := []
  failedRouters := []
  waves := []
  blocks := []
  launches := []
  templates := []
  parts := []
  reservations := []
  backoffs := []
  images := []
  fills := []
  cores := []
  raster := []
  csm := []
  raceLines := []
  mem := []
  tlb := []
  asidOwner := []
  pageFaults := []
  loads := []
  stores := []
  wbs := []
  retired := []
  closed := []
  bad := []
  atBase := 0
  ctxs := []
  failedEngines := []
  beams := []
  messages := []
  peers := []
  failedPorts := 0
  peerHolds := []
  measure := []
  mailbox := []
  missed := []
  sextantOf := []
  spareUsed := false
  health := ⟨false, 4, 0, 0, 0, 0, 0, 0, 0, [], [], [], []⟩
  resent := 0

end Sys2Proof.Machine
end

