-- ==== Sys2Proof/Machine/Reset.lean ====
section
/-! DEFINITION. What an entry that no table lists reads as: the reset value of each numbered object. -/

namespace Sys2Proof.Machine

def MarchRec.init : MarchRec := ⟨List.replicate 8 0, List.replicate 16 0⟩
def HitRec.init : HitRec := ⟨List.replicate 8 0, List.replicate 8 0⟩

/-- A thread at its start (R18): E = 1, condition bits clear, registers zero, counters zero, trap registers at their
reset values (R265), fmode at its reset value (R227). -/
def Thread.init : Thread :=
  { ended := false, pc := 0, e := true, cond := 0, v := [], mapped := 0, ld := 0, st := 0, cp := 0, mx := 0
    fmode := 1, fflags := 0, tvec := 0, tcause := 0, tepc := 0, tval := 0, tval2 := 0, tscratch := 0
    handler := none, wait := none, regionPc := 0, regionSeq := 0, readyAt := 0, stamp := .plain, item := 0
    tlevel := 0, tpl := none, nest := none, taken := 0, granules := [], march := none, marchRec := .init, marchRuns := []
    trav := none, hitRec := .init, travRuns := [], heldRun := none, unitsWere := none, mxTraps := [], phase := 0, entry := .none, mxq := [], bupdAt := none
    staleSt := 0, staleCp := 0, staleMx := 0, together := 0, resample := [] }

def Wave.init : Wave :=
  { block := 0, index := 0, threads := [], k := [], kMask := [], kPartial := 0, kLoaded := false, ext := 0
    bonus := 0, waited := 0, chosenAt := 0, lastLane := none, ctxSel := none, sr := 0, seeded := none }

def Plane.init : Plane := ⟨false, 0, false, []⟩
/-- The epilogue generator of an array, at the reset value of R231. -/
def MxArray.init : MxArray :=
  { active := .init, shadow := .init, acc := [], ovf := [], queue := [], gen := 1 }
def Matrix.init : Matrix := ⟨none, false, false, [.init, .init], []⟩

def Core.init : Core :=
  { wayMask := 0, scratch := [], l1 := [], tile := [], const := [], tex := [], brick := [], icache := [], sr := 1, seedNext := none
    mx := .init, receives := [], posted := 0, overflow := [], banks := [], samples := 0, halted := false }

/-- Reset values of CSRs 0x108-0x10B (R459). -/
def Queue.init : Queue := ⟨0, 0, false, false, 7, 4, 0, 0, none, none, none, none, false, false, false⟩

/-- Reset values of the trace unit (R530). -/
def TraceUnit.init : TraceUnit :=
  { tqmask := 0, tbase := 0, sp := 16, smp := false, opened := false, tsz := 14, ttail := 0, thead := 0
    tdrop := 0, tseq := 0, held := [], samples := [] }

/-- The reserve slots of GCORE = 8 and GSLOT = 0 over the cores of `quads` quads (R474): the highest slot of each lane
set of logical cores 0, 48, ..., 336 of 384, or 0, 44, ..., 308 of 352, which at reset are physical cores of the same
number (assumption 4). -/
def resetReserve (quads : Nat) : List (Nat × Nat) :=
  (List.range 8).flatMap fun i => [(i * (4 * quads) / 8, 7), (i * (4 * quads) / 8, 15)]

/-- Reset values of a partition's registers (R459, R478). -/
def Part.init : Part :=
  { svch := false, mode := 1, gslot := 0, gcore := 8, reserve := resetReserve 96, brbase := 0, brhead := 0, brtail := 0, binderOut := []
    resexp := 100, evbase := 0, evtail := 0, evhead := 0, qsel := 0, queues := [], svbase := 0, svtail := 0
    svhead := 0, svval := 0, calls := [], fqbase := 0, fqtail := 0, fqhead := 0, fqdrop := 0
    prhost := false, flhost := false, pghost := false, pgarg := [0, 0, 0], pgerr := 0, pgbusy := false
    shways := 512, winways := 0, shbw := 5632, ctxbase := 0, ctxcnt := 0, prmet := false, propt := 0
    preempts := [], rgsel := 0, rgref := false, rgdesc := [], regions := [], faults := [], events := [], admitSeq := 0
    swapped := false, trace := .init, mgmtAsid := 0, sextantDown := false, takeover := none, sextantStopped := false, image := none
    downAt := none, updates := 0, staged := none, msix := 0 }

/-- The two parts (R1, R8). -/
inductive Variant where
  | relca880 | relca864
  deriving DecidableEq, Repr

/-- What each part reports as its variant (R508), and the quads it enables: 96, or 88 (R1). -/
def Variant.code : Variant → BitVec 16
  | .relca880 => 0x0370
  | .relca864 => 0x0360

def Variant.quads : Variant → Nat
  | .relca880 => 96
  | .relca864 => 88

/-- The machine right after reset, of either part: they differ in the quads enabled, the spares left (R536) and the
cores the generator reserve is spread over (R1, R474). Which 88 of a Relca 864's quads are enabled is fused in the
part; the model takes the first (assumption 106). -/
def State.resetOf (v : Variant) : State :=
  { State.reset with
    variant := v.code, enabled := BitVec.ofNat 100 (2 ^ v.quads - 1)
    health := { State.reset.health with spq := 100 - v.quads }
    parts := match v with
      | .relca880 => []
      | .relca864 => (List.range 8).map fun p => (p, { Part.init with reserve := resetReserve 88 }) }

def CopyCtx.init : CopyCtx := ⟨0, 0, [], none⟩
def Mailbox.init : Mailbox := ⟨List.replicate 8 0, false, 0, []⟩
def Peer.init : Peer := ⟨0, 0, false⟩

end Sys2Proof.Machine
end

