-- ==== Sys2Proof/Machine/Bits.lean ====
section
/-! DEFINITION. Bit-field, byte-order and list helpers that the meanings share. -/

namespace Sys2Proof.Machine

/-- The low 32 bits and the high 32 bits of a 64-bit value: an even-odd pair holds the low word first (R220). -/
def lo32 (x : BitVec 64) : Word := x.extractLsb' 0 32
def hi32 (x : BitVec 64) : Word := x.extractLsb' 32 32
def pair (lo hi : Word) : BitVec 64 := hi ++ lo

/-- Bits [hi:lo] of a number. -/
def fld (x hi lo : Nat) : Nat := (x / 2 ^ lo) % 2 ^ (hi + 1 - lo)

/-- A field of a bit vector as a number. -/
def bits {w : Nat} (x : BitVec w) (hi lo : Nat) : Nat := fld x.toNat hi lo

/-- A value wrapped to 64 bits, and to 32. -/
def q (n : Nat) : BitVec 64 := BitVec.ofNat 64 n
def d (n : Nat) : Word := BitVec.ofNat 32 n

/-- The elements of a list of 32-bit words at an index, 0 past its end. -/
def wAt (l : List Word) (i : Nat) : Word := l.getD i 0

/-- Little-endian bytes of a number, `n` of them (R10). -/
def toBytes : Nat → Nat → List Byte
  | 0, _ => []
  | n + 1, x => BitVec.ofNat 8 x :: toBytes n (x / 256)

/-- Little-endian value of a list of bytes. -/
def ofBytes : List Byte → Nat
  | [] => 0
  | b :: t => b.toNat + 256 * ofBytes t

/-- Big-endian bytes (R508, R509). -/
def toBytesBE (n x : Nat) : List Byte := (toBytes n x).reverse

/-- A list of 32-bit words as one number, first word least significant. -/
def ofWords : List Word → Nat
  | [] => 0
  | w :: t => w.toNat + 2 ^ 32 * ofWords t

/-- `n` 32-bit words of a number. -/
def toWords : Nat → Nat → List Word
  | 0, _ => []
  | n + 1, x => BitVec.ofNat 32 x :: toWords n (x / 2 ^ 32)

/-- The lanes of a mask, ascending. -/
def lanesOf (m : BitVec 32) : List Nat := (List.range 32).filter fun i => m.getLsbD i

def maskOf (l : List Nat) : BitVec 32 := l.foldl (fun m i => m ||| (1#32 <<< i)) 0

/-- Number of set bits of a number below bit n. -/
def popcount (n x : Nat) : Nat := ((List.range n).filter fun i => x.testBit i).length

/-- The address of the slot after a slot (R244): slot 4, at line offset 48, is followed by the next line's slot 0. -/
def nextPc (pc : BitVec 64) : BitVec 64 := if pc.toNat % 64 = 48 then pc + 16 else pc + 12

/-- Line offsets that name a slot (R244). -/
def slotOffset (pc : BitVec 64) : Bool := pc.toNat % 64 ≤ 48 && pc.toNat % 64 % 12 == 0

/-- Each bit of a byte mask widened to a byte. -/
def expandMask (n m : Nat) : Nat :=
  (List.range n).foldl (fun acc i => if m.testBit i then acc + 255 * 256 ^ i else acc) 0

/-- Bytes of `new` where the mask is set, of `old` elsewhere. -/
def mergeBytes (mask : BitVec 128) (new old : BitVec 1024) : BitVec 1024 :=
  let e := BitVec.ofNat 1024 (expandMask 128 mask.toNat)
  (new &&& e) ||| (old &&& ~~~e)

/-- A mask of `n` bytes from offset `o` of a line. -/
def byteMask (o n : Nat) : BitVec 128 := BitVec.ofNat 128 ((2 ^ n - 1) * 2 ^ o)

/-- `n` bytes at offset `o` of a line, as a number. -/
def lineGet (l : BitVec 1024) (o n : Nat) : Nat := (l.toNat / 256 ^ o) % 256 ^ n

/-- A line holding the value `x` at offset `o`. -/
def linePut (o x : Nat) : BitVec 1024 := BitVec.ofNat 1024 (x * 256 ^ o)

def ceilDiv (a b : Nat) : Nat := (a + b - 1) / b

def maxOf (l : List Nat) : Nat := l.foldl max 0
def minOf (dflt : Nat) (l : List Nat) : Nat :=
  match l with
  | [] => dflt
  | x :: t => t.foldl min x
def sumOf (l : List Nat) : Nat := l.foldl (· + ·) 0

/-- The element of a list least by a measure, the first among equals. -/
def argMin {α : Type} (f : α → Nat) : List α → Option α
  | [] => none
  | x :: t =>
    match argMin f t with
    | none => some x
    | some y => if f y < f x then some y else some x

/-- The element greatest by a measure, the first among equals. -/
def argMax {α : Type} (f : α → Nat) : List α → Option α
  | [] => none
  | x :: t =>
    match argMax f t with
    | none => some x
    | some y => if f x < f y then some y else some x

/-- Replace the elements that satisfy a test. -/
def mapIf {α : Type} (p : α → Bool) (f : α → α) (l : List α) : List α := l.map fun x => if p x then f x else x

/-- Remove the first element that satisfies a test. -/
def dropFirst {α : Type} (p : α → Bool) : List α → List α
  | [] => []
  | x :: t => if p x then t else x :: dropFirst p t

/-- Change the first element that satisfies a test. -/
def markFirst {α : Type} (p : α → Bool) (f : α → α) : List α → List α
  | [] => []
  | x :: t => if p x then f x :: t else x :: markFirst p f t

/-- Drop `n` leading elements that satisfy a test, as long as they do. -/
def dropLead {α : Type} (p : α → Bool) : List α → List α
  | [] => []
  | x :: t => if p x then dropLead p t else x :: t

/-- Put an element before the first that satisfies a test, or at the end. -/
def putBefore {α : Type} (p : α → Bool) (x : α) (l : List α) : List α :=
  (l.takeWhile fun y => !p y) ++ x :: l.dropWhile fun y => !p y

/-- Put an element in place of the first that satisfies a test; the others that do go. -/
def putFirst {α : Type} (p : α → Bool) (x : α) (l : List α) : List α :=
  (l.takeWhile fun y => !p y) ++ x :: (l.dropWhile fun y => !p y).filter fun y => !p y

def setAt {α : Type} (l : List α) (i : Nat) (x : α) : List α := l.set i x

/-- Insert into a list sorted by key, ascending, before equal keys. -/
def insertBy {α : Type} (key : α → Nat) (x : α) : List α → List α
  | [] => [x]
  | y :: t => if key x ≤ key y then x :: y :: t else y :: insertBy key x t

/-- A stable sort by key, ascending. -/
def sortBy {α : Type} (key : α → Nat) : List α → List α
  | [] => []
  | x :: t => insertBy key x (sortBy key t)

/-- Iterate a function a fixed number of times. -/
def iter {α : Type} (f : α → α) : Nat → α → α
  | 0, x => x
  | n + 1, x => iter f n (f x)

/-- Iterate while the function answers a new value, at most `n` times. -/
def iterWhile {α : Type} (f : α → Option α) : Nat → α → α
  | 0, x => x
  | n + 1, x =>
    match f x with
    | none => x
    | some y => iterWhile f n y

/-- `later` under the 48-bit rule of R41: `a` is at least `b`. -/
def atLeast48 (a b : Nat) : Bool := (a + 2 ^ 48 - b % 2 ^ 48) % 2 ^ 48 < 2 ^ 47

/-- Two ranges of numbers, by start and length, meet. -/
def rangesMeet (a n b m : Nat) : Bool := n != 0 && m != 0 && a < b + m && b < a + n

end Sys2Proof.Machine
end

