-- ==== Sys2Proof/Machine/Float.lean ====
section
/-! DEFINITION. Floating point: formats, exact values, one rounding, NaN rules, flags, flushing, scaling and clamping
(R223-R231, R237-R240). A value is held as its bit pattern, a natural number below 2^width. -/

namespace Sys2Proof.Machine

/-- The four formats (R223). -/
inductive Fmt where
  | f16 | bf16 | f32 | f64
  deriving DecidableEq, Repr

namespace Fmt
/-- Fraction bits, exponent bits, bias. -/
def frac : Fmt → Nat | .f16 => 10 | .bf16 => 7 | .f32 => 23 | .f64 => 52
def ebits : Fmt → Nat | .f16 => 5 | .bf16 => 8 | .f32 => 8 | .f64 => 11
def bias (f : Fmt) : Nat := 2 ^ (f.ebits - 1) - 1
def width (f : Fmt) : Nat := 1 + f.ebits + f.frac
def signBit (f : Fmt) : Nat := 2 ^ (f.ebits + f.frac)
def inf (f : Fmt) : Nat := (2 ^ f.ebits - 1) * 2 ^ f.frac
def canonical (f : Fmt) : Nat := f.inf + 2 ^ (f.frac - 1)
def maxFinite (f : Fmt) : Nat := f.inf - 1
/-- The exponent of the smallest subnormal's unit. -/
def emin (f : Fmt) : Int := 1 - (f.bias : Int) - f.frac
/-- Discarded bits that stochastic rounding compares (R231). -/
def srBits : Fmt → Nat | .f16 => 16 | .bf16 => 16 | _ => 32
end Fmt

/-- Flag bits of fflags (R227). -/
def flNX : Nat := 1
def flUF : Nat := 2
def flOF : Nat := 4
def flDZ : Nat := 8
def flNV : Nat := 16

/-- An exact magnitude n * 2^exp with a sign; `sticky` says that the true magnitude lies strictly above n and below
n + 1 units, with enough bits in n that no rounding point lies between. -/
structure Fix where
  neg    : Bool
  n      : Nat
  exp    : Int
  sticky : Bool
  deriving DecidableEq, Repr

def Fix.zero (neg : Bool) : Fix := ⟨neg, 0, 0, false⟩
def Fix.ofInt (x : Int) (e : Int) : Fix := ⟨x < 0, x.natAbs, e, false⟩
def Fix.scale (x : Fix) (k : Int) : Fix := { x with exp := x.exp + k }

/-- What a bit pattern stands for. -/
inductive FVal where
  | zero (neg : Bool)
  | fin (neg : Bool) (n : Nat) (exp : Int)
  | inf (neg : Bool)
  | nan (signalling : Bool)
  deriving DecidableEq, Repr

def FVal.isNan : FVal → Bool | .nan _ => true | _ => false

def signOf (f : Fmt) (x : Nat) : Bool := x ≥ f.signBit
def expOf (f : Fmt) (x : Nat) : Nat := x / 2 ^ f.frac % 2 ^ f.ebits
def fracOf (f : Fmt) (x : Nat) : Nat := x % 2 ^ f.frac

def unpackF (f : Fmt) (x : Nat) : FVal :=
  let s := signOf f x
  let e := expOf f x
  let m := fracOf f x
  if e = 2 ^ f.ebits - 1 then
    if m = 0 then .inf s else .nan (m < 2 ^ (f.frac - 1))
  else if e = 0 then (if m = 0 then .zero s else .fin s m f.emin)
  else .fin s (m + 2 ^ f.frac) (f.emin + e - 1)

def FVal.fix : FVal → Fix
  | .zero s => .zero s
  | .fin s n e => ⟨s, n, e, false⟩
  | .inf s => .zero s
  | .nan _ => .zero false

def withSign (f : Fmt) (neg : Bool) (x : Nat) : Nat := if neg then x + f.signBit else x

/-- Truncate n by `sh` bits and round by the mode (R226, R231): 1 RNE, 2 RTZ, 3 RDN, 4 RUP, 5 RNA, 6 SR with the
random word `r` over `w` bits. Answers the rounded value and whether it differs from the exact one. -/
def shiftRound (rm : Nat) (neg : Bool) (n : Nat) (sh : Int) (sticky : Bool) (r w : Nat) : Nat × Bool :=
  if sh ≤ 0 then
    let m := n * 2 ^ (-sh).toNat
    if sticky then ((if (rm = 3 ∧ neg) ∨ (rm = 4 ∧ !neg) then m + 1 else m), true) else (m, false)
  else
    let k := sh.toNat
    let m := n / 2 ^ k
    let rem := n % 2 ^ k
    let half := 2 ^ (k - 1)
    let inexact := rem ≠ 0 || sticky
    let up : Bool :=
      match rm with
      | 1 => half < rem || (rem == half && (sticky || m % 2 == 1))
      | 3 => inexact && neg
      | 4 => inexact && !neg
      | 5 => half ≤ rem
      | 6 => 2 ^ w ≤ rem * 2 ^ w / 2 ^ k + r % 2 ^ w
      | _ => false
    (if up then m + 1 else m, inexact)

/-- Round an exact value once to a format (R226-R229): the pattern and the flags. -/
def roundFix (f : Fmt) (rm r : Nat) (ftz : Bool) (x : Fix) : Nat × Nat :=
  if x.n = 0 ∧ x.sticky = false then (withSign f x.neg 0, 0)
  else
    let top : Int := x.exp + Nat.log2 x.n
    let e := max (top - f.frac) f.emin
    let (m, inexact) := shiftRound rm x.neg x.n (e - x.exp) x.sticky r f.srBits
    -- the encoding of m units of 2^e; a carry out of the fraction raises the exponent field by itself
    let enc := (e - f.emin).toNat * 2 ^ f.frac + m
    let nx := if inexact then flNX else 0
    if enc ≥ f.inf then
      let toMax := rm = 2 ∨ (rm = 3 ∧ x.neg = false) ∨ (rm = 4 ∧ x.neg = true)
      (withSign f x.neg (if toMax then f.maxFinite else f.inf), flOF + flNX)
    else
      -- tininess after rounding with the exponent range unbounded (R228)
      let tiny := inexact && top < f.emin + f.frac &&
        (top < f.emin + f.frac - 1 ||
          (shiftRound rm x.neg x.n (top - f.frac - x.exp) x.sticky r f.srBits).1 < 2 ^ (f.frac + 1))
      if enc < 2 ^ f.frac ∧ enc ≠ 0 ∧ ftz then (withSign f x.neg 0, flUF + flNX)
      else (withSign f x.neg enc, nx + if tiny then flUF else 0)

/-- A subnormal input reads as zero of its sign under flushing (R229). -/
def flushIn (f : Fmt) (ftz : Bool) (x : Nat) : Nat :=
  if ftz ∧ expOf f x = 0 then withSign f (signOf f x) 0 else x

def quiet (f : Fmt) (x : Nat) : Nat := x ||| 2 ^ (f.frac - 1)

def isNanF (f : Fmt) (x : Nat) : Bool := (unpackF f x).isNan
def isSnan (f : Fmt) (x : Nat) : Bool := unpackF f x == .nan true

/-- The first NaN input, quieted, and NV for any signalling one (R224). -/
def nanOf (f : Fmt) (xs : List Nat) : Option (Nat × Nat) :=
  match xs.find? (isNanF f) with
  | none => none
  | some x => some (quiet f x, if xs.any (isSnan f) then flNV else 0)

def invalid (f : Fmt) : Nat × Nat := (f.canonical, flNV)

/-- The sign of an exact zero sum of two terms (R225): a common sign is kept, else downward gives -0. -/
def zeroSign (rm : Nat) (a b : Bool) : Bool := if a = b then a else rm = 3

/-- The exact sum of two magnitudes with sign. -/
def fixAdd (rm : Nat) (a b : Fix) : Fix :=
  let e := min a.exp b.exp
  let v (x : Fix) : Int := (if x.neg then -1 else 1) * ((x.n * 2 ^ (x.exp - e).toNat : Nat) : Int)
  let sum := v a + v b
  if sum = 0 then .zero (zeroSign rm a.neg b.neg) else .ofInt sum e

def fixMul (a b : Fix) : Fix := ⟨a.neg != b.neg, a.n * b.n, a.exp + b.exp, false⟩

/-- The mode an instruction rounds by, its random word, flushing and its scale exponent. -/
structure Rnd where
  rm  : Nat
  r   : Nat
  ftz : Bool
  scl : Int
  deriving DecidableEq, Repr

def Rnd.rne : Rnd := ⟨1, 0, false, 0⟩

def finish (f : Fmt) (m : Rnd) (x : Fix) : Nat × Nat := roundFix f m.rm m.r m.ftz (x.scale m.scl)

def fpAdd (f : Fmt) (m : Rnd) (a0 b0 : Nat) : Nat × Nat :=
  let a := flushIn f m.ftz a0
  let b := flushIn f m.ftz b0
  match nanOf f [a, b] with
  | some r => r
  | none =>
    match unpackF f a, unpackF f b with
    | .inf s, .inf u => if s = u then (withSign f s f.inf, 0) else invalid f
    | .inf s, _ => (withSign f s f.inf, 0)
    | _, .inf s => (withSign f s f.inf, 0)
    | x, y => finish f m (fixAdd m.rm x.fix y.fix)

/-- The sign of a NaN operand is not inverted by a subtraction: -b is added only when b is no NaN. -/
def fpNeg (f : Fmt) (x : Nat) : Nat := if signOf f x then x - f.signBit else x + f.signBit

def fpSub (f : Fmt) (m : Rnd) (a b : Nat) : Nat × Nat :=
  if isNanF f b then fpAdd f m a b else fpAdd f m a (fpNeg f b)

def fpMul (f : Fmt) (m : Rnd) (a0 b0 : Nat) : Nat × Nat :=
  let a := flushIn f m.ftz a0
  let b := flushIn f m.ftz b0
  match nanOf f [a, b] with
  | some r => r
  | none =>
    let s := signOf f a != signOf f b
    match unpackF f a, unpackF f b with
    | .inf _, .zero _ => invalid f
    | .zero _, .inf _ => invalid f
    | .inf _, _ => (withSign f s f.inf, 0)
    | _, .inf _ => (withSign f s f.inf, 0)
    | x, y => finish f m (fixMul x.fix y.fix)

/-- Fused multiply-add (R225, R312): 0 × ∞ sets NV even beside a NaN addend. -/
def fpFma (f : Fmt) (m : Rnd) (a0 b0 c0 : Nat) : Nat × Nat :=
  let a := flushIn f m.ftz a0
  let b := flushIn f m.ftz b0
  let c := flushIn f m.ftz c0
  let va := unpackF f a
  let vb := unpackF f b
  let bad : Bool := match va, vb with
    | .inf _, .zero _ => true
    | .zero _, .inf _ => true
    | _, _ => false
  match nanOf f [a, b, c] with
  | some (r, fl) => (r, if bad then flNV else fl)
  | none =>
    if bad then invalid f
    else
      let s := signOf f a != signOf f b
      let pinf : Bool := match va, vb with | .inf _, _ => true | _, .inf _ => true | _, _ => false
      match pinf, unpackF f c with
      | true, .inf u => if s = u then (withSign f s f.inf, 0) else invalid f
      | true, _ => (withSign f s f.inf, 0)
      | false, .inf u => (withSign f u f.inf, 0)
      | false, z => finish f m (fixAdd m.rm (fixMul va.fix vb.fix) z.fix)

/-- Order of two values that are no NaN: negative, zero or positive, with -0 equal to +0. -/
def fpKey (f : Fmt) (x : Nat) : Int :=
  if signOf f x then -((x - f.signBit : Nat) : Int) else (x : Int)

/-- Order with -0 below +0 (R224). -/
def fpKey0 (f : Fmt) (x : Nat) : Int :=
  if signOf f x then -((x - f.signBit : Nat) : Int) - 1 else (x : Int)

/-- Minimum or maximum (R224, R313): the non-NaN input when one is NaN; the chosen input is scaled and rounded. -/
def fpMinMax (f : Fmt) (m : Rnd) (wantMax : Bool) (a0 b0 : Nat) : Nat × Nat :=
  let a := flushIn f m.ftz a0
  let b := flushIn f m.ftz b0
  let fl := if isSnan f a || isSnan f b then flNV else 0
  let pick (x : Nat) : Nat × Nat :=
    match unpackF f x with
    | .inf _ => (x, fl)
    | v => let (r, g) := finish f m v.fix; (r, g + fl)
  match isNanF f a, isNanF f b with
  | true, true => (quiet f a, fl)
  | true, false => pick b
  | false, true => pick a
  | false, false => if wantMax then (if fpKey0 f a < fpKey0 f b then pick b else pick a)
    else (if fpKey0 f b < fpKey0 f a then pick b else pick a)

/-- Quotient with at least 128 bits, sticky below (R314). -/
def fixDiv (a b : Fix) : Fix :=
  let k := 128 + Nat.log2 b.n
  let num := a.n * 2 ^ k
  ⟨a.neg != b.neg, num / b.n, a.exp - b.exp - k, num % b.n ≠ 0⟩

def fpDiv (f : Fmt) (m : Rnd) (a0 b0 : Nat) : Nat × Nat :=
  let a := flushIn f m.ftz a0
  let b := flushIn f m.ftz b0
  match nanOf f [a, b] with
  | some r => r
  | none =>
    let s := signOf f a != signOf f b
    match unpackF f a, unpackF f b with
    | .inf _, .inf _ => invalid f
    | .zero _, .zero _ => invalid f
    | .inf _, _ => (withSign f s f.inf, 0)
    | _, .inf _ => (withSign f s 0, 0)
    | .zero _, _ => (withSign f s 0, 0)
    | _, .zero _ => (withSign f s f.inf, flDZ)
    | x, y => finish f m (fixDiv x.fix y.fix)

/-- The integer square root, bit by bit from bit k - 1 down. -/
def isqrtFrom (n : Nat) : Nat → Nat → Nat
  | 0, r => r
  | k + 1, r => isqrtFrom n k (if (r + 2 ^ k) * (r + 2 ^ k) ≤ n then r + 2 ^ k else r)

def isqrt (n : Nat) : Nat := isqrtFrom n (Nat.log2 n / 2 + 1) 0

/-- Square root of a positive value, at least 100 bits, sticky below. -/
def fixSqrt (a : Fix) : Fix :=
  let k : Nat := 256
  let odd := a.exp % 2 ≠ 0
  let n := (if odd then 2 * a.n else a.n) * 2 ^ k
  let e := (if odd then a.exp - 1 else a.exp) - k
  let r := isqrt n
  ⟨false, r, e / 2, r * r ≠ n⟩

/-- Reciprocal square root of a positive value. -/
def fixRsqrt (a : Fix) : Fix :=
  let odd := a.exp % 2 ≠ 0
  let n := if odd then 2 * a.n else a.n
  let e := if odd then a.exp - 1 else a.exp
  let k := 256 + 2 * Nat.log2 n
  let quo := 2 ^ k / n
  let r := isqrt quo
  ⟨false, r, -(e / 2) - k / 2, r * r * n ≠ 2 ^ k⟩

def fpSqrt (f : Fmt) (m : Rnd) (a0 : Nat) : Nat × Nat :=
  let a := flushIn f m.ftz a0
  match nanOf f [a] with
  | some r => r
  | none =>
    match unpackF f a with
    | .zero s => (withSign f s 0, 0)
    | .inf false => (f.inf, 0)
    | .inf true => invalid f
    | .fin true _ _ => invalid f
    | v => finish f m (fixSqrt v.fix)

def fpRcp (f : Fmt) (m : Rnd) (a0 : Nat) : Nat × Nat :=
  let a := flushIn f m.ftz a0
  match nanOf f [a] with
  | some r => r
  | none =>
    let s := signOf f a
    match unpackF f a with
    | .zero _ => (withSign f s f.inf, flDZ)
    | .inf _ => (withSign f s 0, 0)
    | v => finish f m (fixDiv ⟨false, 1, 0, false⟩ v.fix)

def fpRsq (f : Fmt) (m : Rnd) (a0 : Nat) : Nat × Nat :=
  let a := flushIn f m.ftz a0
  match nanOf f [a] with
  | some r => r
  | none =>
    match unpackF f a with
    | .zero s => (withSign f s f.inf, flDZ)
    | .inf false => (0, 0)
    | .inf true => invalid f
    | .fin true _ _ => invalid f
    | v => finish f m (fixRsqrt v.fix)

/-- The fractional part of R315 works on exact values; an exact value x - floor(x). -/
def fixFloor (a : Fix) : Int :=
  let v : Int := if a.neg then -(a.n : Int) else a.n
  if a.exp ≥ 0 then v * 2 ^ a.exp.toNat else v / 2 ^ (-a.exp).toNat

/-- A value rounded to an integer by a mode: magnitude and whether inexact (R315, R320, R235). -/
def fixToInt (rm r w : Nat) (a : Fix) : Int × Bool :=
  let (m, ix) := shiftRound rm a.neg a.n (-a.exp) a.sticky r w
  (if a.neg then -(m : Int) else m, ix)

/-- A NaN carried between formats (R224): the top fraction bits, quieted. -/
def nanConvert (src dst : Fmt) (x : Nat) : Nat :=
  let fr := fracOf src x
  let fr' := if dst.frac ≤ src.frac then fr / 2 ^ (src.frac - dst.frac) else fr * 2 ^ (dst.frac - src.frac)
  withSign dst (signOf src x) (quiet dst (dst.inf + fr'))

/-- Conversion between float formats (R319). -/
def fpConvert (src dst : Fmt) (m : Rnd) (x0 : Nat) : Nat × Nat :=
  let x := flushIn src m.ftz x0
  match unpackF src x with
  | .nan sig => (nanConvert src dst x, if sig then flNV else 0)
  | .inf s => (withSign dst s dst.inf, 0)
  | v => finish dst m v.fix

/-- CLP on a float result (R230). -/
def fpClamp (f : Fmt) (clp x : Nat) : Nat :=
  let one := f.bias * 2 ^ f.frac
  match clp with
  | 1 => if isNanF f x ∨ signOf f x then 0 else if one < x then one else x
  | 2 => if isNanF f x then 0
    else if one < x % f.signBit then withSign f (signOf f x) one else x
  | _ => x

/-- The SCL factor's exponent (R230). -/
def sclExp (scl : Nat) : Int :=
  match scl with
  | 1 => 1 | 2 => 2 | 3 => 3 | 4 => -4 | 5 => -3 | 6 => -2 | 7 => -1 | _ => 0

/-- One step of the xorshift generator (R231). -/
def xorshift (s : Word) : Word :=
  let a := s ^^^ (s <<< 13)
  let b := a ^^^ (a >>> 17)
  b ^^^ (b <<< 5)

/-- A lane's random word, and a packed element's (R231). -/
def srWord (s : Word) (lane : Nat) : Word := s.rotateLeft lane
def srElement (r : Word) (packed : Bool) (j : Nat) : Nat :=
  if packed then (if j = 0 then (r.extractLsb' 0 16).toNat else (r.extractLsb' 16 16).toNat) else r.toNat

end Sys2Proof.Machine
end

