-- ==== Sys2Proof/Machine/Access.lean ====
section
/-! DEFINITION. Named access to the parts of the state, and the records every unit writes: the one home of reads and
writes of threads, waves, blocks, cores, launches, partitions and contexts. -/

namespace Sys2Proof

/-- Change the entry at a key, which reads as `d` where none is listed. -/
def Table.upd {α : Type} (d : α) (t : Table α) (i : Nat) (f : α → α) : Table α := t.put i (f (t.get d i))

end Sys2Proof

namespace Sys2Proof.Machine

/-- The outcome type of a meaning. -/
abbrev Out := Host.Outcome State Fault Refusal

/-- Core, lane set and slot of a wave number (core * 16 + lane set * 8 + slot). -/
def waveCore (w : Nat) : Nat := w / 16
def waveLs (w : Nat) : Nat := w / 8 % 2
def waveSlot (w : Nat) : Nat := w % 8
/-- The lane set as one number over the device. -/
def waveLaneSet (w : Nat) : Nat := w / 8
def coreQuad (c : Nat) : Nat := c / 4

namespace State

def wave (s : State) (w : Nat) : Wave := s.waves.get .init w
def setWave (s : State) (w : Nat) (x : Wave) : State := { s with waves := s.waves.put w x }
def modWave (s : State) (w : Nat) (f : Wave → Wave) : State := s.setWave w (f (s.wave w))

def thread (s : State) (t : TRef) : Thread := (s.wave t.wave).threads.get .init t.lane
def setThread (s : State) (t : TRef) (x : Thread) : State :=
  s.modWave t.wave fun w => { w with threads := w.threads.put t.lane x }
def modThread (s : State) (t : TRef) (f : Thread → Thread) : State := s.setThread t (f (s.thread t))

/-- A lane is bound when its wave lists it (R17). -/
def bound (s : State) (t : TRef) : Bool :=
  match s.waves.find? t.wave with
  | none => false
  | some w => (w.threads.find? t.lane).isSome

/-- A bound thread that has not ended. -/
def alive (s : State) (t : TRef) : Bool := s.bound t && !(s.thread t).ended

def block? (s : State) (id : Nat) : Option Block := s.blocks.find? fun b => b.id == id
def modBlock (s : State) (id : Nat) (f : Block → Block) : State :=
  { s with blocks := mapIf (fun b => b.id == id) f s.blocks }

def core (s : State) (c : Nat) : Core := s.cores.get .init c
def modCore (s : State) (c : Nat) (f : Core → Core) : State := { s with cores := s.cores.upd .init c f }

def launch? (s : State) (h : Nat) : Option Launch := s.launches.find? h
def modLaunch (s : State) (h : Nat) (f : Launch → Launch) : State := { s with launches := s.launches.modify h f }

def part (s : State) (p : Nat) : Part := s.parts.get .init p
def modPart (s : State) (p : Nat) (f : Part → Part) : State := { s with parts := s.parts.upd .init p f }

def ctx (s : State) (c : Nat) : CopyCtx := s.ctxs.get .init c
def modCtx (s : State) (c : Nat) (f : CopyCtx → CopyCtx) : State := { s with ctxs := s.ctxs.upd .init c f }

def tpl? (s : State) (id : Nat) : Option Template := s.templates.find? fun t => t.id == id
def modTpl (s : State) (id : Nat) (f : Template → Template) : State :=
  { s with templates := mapIf (fun t => t.id == id) f s.templates }

/-- The block a wave belongs to. -/
def waveBlock? (s : State) (w : Nat) : Option Block :=
  match s.waves.find? w with
  | none => none
  | some x => s.block? x.block

def threadBlock? (s : State) (t : TRef) : Option Block := s.waveBlock? t.wave

/-- A fresh order number. -/
def tickSeq (s : State) : Nat × State := (s.seq, { s with seq := s.seq + 1 })

/-- A fresh free value (assumption 1): nothing constrains it. -/
def fresh (s : State) : BitVec 64 × State := (Config.freeWord s.free, { s with free := s.free + 1 })

end State

/-- The bound threads of a wave, ascending by lane. -/
def waveThreads (s : State) (w : Nat) : List TRef := (s.wave w).threads.map fun p => ⟨w, p.1⟩

/-- The bound threads of a block, by wave index and lane. -/
def blockThreads (s : State) (b : Block) : List TRef := b.waves.flatMap (waveThreads s)

def blockAlive (s : State) (b : Block) : List TRef := (blockThreads s b).filter fun t => !(s.thread t).ended

/-- Launch flags (R53); a generator item's flags are those R210 and R55 give it. -/
def Block.cooperative (b : Block) : Bool := b.flags.getLsbD 0
def Block.deterministic (b : Block) : Bool := b.flags.getLsbD 1
def Block.template (b : Block) : Bool := b.flags.getLsbD 2
def Block.forerunner (b : Block) : Bool := b.flags.getLsbD 3
def Block.graphics (b : Block) : Bool := b.flags.getLsbD 4
/-- Race mode: 0 off, 1 report, 2 trap. -/
def Block.raceMode (b : Block) : Nat := bits b.flags 6 5
def Block.checked (b : Block) : Bool := b.flags.getLsbD 7
def Block.matrix (b : Block) : Bool := b.flags.getLsbD 8

/-- The linear thread index of a lane of a block (R17). -/
def threadIndex (s : State) (t : TRef) : Nat := (s.wave t.wave).index * 32 + t.lane

/-- Block-thread shape of a block: its launch's, or one wave of 32 for a generator item (R210). -/
def blockShape (s : State) (b : Block) : Nat × Nat × Nat :=
  match s.launch? b.launch with
  | some l => if b.gen then (32, 1, 1) else l.d.shape
  | none => (32, 1, 1)

/-- Packed logical thread (R480). -/
def packLogical (coord : Nat × Nat × Nat) (bid thread stage : Nat) : BitVec 64 :=
  q (coord.1 + 2 ^ 16 * coord.2.1 + 2 ^ 32 * coord.2.2 + 2 ^ 48 * bid + 2 ^ 52 * thread + 2 ^ 61 * stage)

def logicalThread (s : State) (t : TRef) : BitVec 64 :=
  match s.threadBlock? t with
  | none => 0
  | some b => packLogical b.coord b.bid (threadIndex s t) b.stage

/-- A 64-byte record from its eight doublewords. -/
def record (ws : List (BitVec 64)) : BitVec 512 :=
  BitVec.ofNat 512 (ws.foldr (fun w acc => w.toNat + 2 ^ 64 * acc) 0)

/-- The 24-byte header of R480 as three doublewords. -/
def header (s : State) (kind flags handle asid core : Nat) (logical : BitVec 64) : List (BitVec 64) :=
  [ q (kind + 2 ^ 8 * flags + 2 ^ 16 * handle + 2 ^ 32 * asid + 2 ^ 48 * core), logical, s.tick ]

/-- Header flags of a block: [1] deterministic, [3] template (R480). -/
def headFlags (b : Block) : Nat := (if b.deterministic then 2 else 0) + (if b.template then 8 else 0)

/-- A generator item is no launch: its records carry handle 0xFFFF (R480). -/
def blockHandle (b : Block) : Nat := if b.gen then 0xFFFF else b.launch

/-- A record named after a thread. -/
def threadRecord (s : State) (t : TRef) (kind extraFlags : Nat) (payload : List (BitVec 64)) : BitVec 512 :=
  match s.threadBlock? t with
  | none => record (header s kind extraFlags 0xFFFF 0 (waveCore t.wave) 0 ++ payload)
  | some b =>
    record (header s kind (headFlags b + extraFlags) (blockHandle b) b.asid (waveCore t.wave) (logicalThread s t) ++ payload)

/-- Hand a fault record to the partition's fault ring; it is written by the fault-record step, or held (R479). -/
def postFault (s : State) (p : Nat) (r : BitVec 512) : State := s.modPart p fun x => { x with faults := x.faults ++ [r] }

/-- The partition of a thread. -/
def threadPart (s : State) (t : TRef) : Nat := match s.threadBlock? t with | some b => b.part | none => 0

/-- The partition that owns a quad (R510). Nibble 15 is none. -/
def quadPart (s : State) (quad : Nat) : Nat := s.quadMap.get 0 quad

/-- The quads a partition's map names, in nibble order: logical quad numbers are positions in this list (R512). -/
def partQuads (s : State) (p : Nat) : List Nat := (List.range 100).filter fun i => quadPart s i == p

/-- The physical quad that serves a named quad: itself, or the spare that took its place (R515). -/
def physQuad (s : State) (i : Nat) : Nat := s.remap.get i i

/-- A named quad is enabled when a working physical quad serves it. -/
def quadEnabled (s : State) (i : Nat) : Bool :=
  match s.remap.find? i with
  | some _ => true
  | none => s.enabled.getLsbD i && !s.failedQuads.contains i

/-- Enabled logical cores of a partition, ascending (R512). -/
def enabledCores (s : State) (p : Nat) : List Nat :=
  let qs := partQuads s p
  (List.range qs.length).flatMap fun i =>
    if quadEnabled s (qs.getD i 0) then [4 * i, 4 * i + 1, 4 * i + 2, 4 * i + 3] else []

/-- The physical core of a logical core of an enabled quad. -/
def physCore (s : State) (p logical : Nat) : Nat :=
  4 * physQuad s ((partQuads s p).getD (logical / 4) 0) + logical % 4

/-- The logical core of a physical core of a partition, if it serves one. -/
def logicalCore? (s : State) (p core : Nat) : Option Nat :=
  (enabledCores s p).find? fun l => physCore s p l == core

/-! ### Scratch bytes -/

def scratchRead (s : State) (core a n : Nat) : Nat :=
  (s.core core).scratch.foldl (fun acc c => if a ≤ c.1 ∧ c.1 < a + n then acc + c.2.toNat * 256 ^ (c.1 - a) else acc) 0

def scratchPut (m : Memory) (a : Nat) (bs : List Byte) : Memory :=
  (bs.foldl (fun (r : Memory × Nat) b => (Table.set 0 r.1 r.2 b, r.2 + 1)) (m, a)).1

def scratchWrite (s : State) (core a : Nat) (bs : List Byte) : State :=
  s.modCore core fun c => { c with scratch := scratchPut c.scratch a bs }

/-- A word of a block's own scratch. -/
def ownWord (s : State) (b : Block) (off : Nat) : Word := d (scratchRead s b.core (b.scratchOff + off) 4)
def setOwnWord (s : State) (b : Block) (off : Nat) (w : Word) : State :=
  scratchWrite s b.core (b.scratchOff + off) (toBytes 4 w.toNat)

end Sys2Proof.Machine
end

