-- ==== Sys2Proof/Machine/Translate.lean ====
section
/-! DEFINITION. Physical memory, page walks, TLBs, the ASID table and the aliasing check (R75, R482-R486), and the
page-fault records a miss leaves (R487). -/

namespace Sys2Proof.Machine

/-- Who asks for a line: the thread or copy request, its core, address space and generation, the access code of a
kind-2 record (R481), and how it waits. -/
structure Req where
  t      : Option TRef
  core   : Nat
  part   : Nat
  asid   : Nat
  agen   : Nat
  access : Nat
  aborts : Bool              -- a plain access inside a region: a page fault aborts the region (R106, R109)
  waiter : Option Waiter
  gen    : Option GenItem    -- the generator that makes the access, if it is one
  deriving DecidableEq, Repr

/-- Where uncorrectable data stands: at a physical address, or in a slice of the CSM, whose quad and, for a page of the
window, physical address it names (R521). -/
inductive ErrorPlace where
  | memory (pa : Nat)
  | slice (quad pa : Nat)
  deriving DecidableEq, Repr

/-- The fates of a line request that misses every cache (R106, R486, R482, R506, R520). -/
inductive Miss where
  | stale
  | protection
  | aliased
  | page (fault : Nat)
  | unresolvable
  | fill (region : Nat) (block : Nat)
  | fillFull (region : Nat) (block : Nat)
  | evicting (region : Nat) (block : Nat)
  | recursion (region : Nat) (block : Nat)
  | csmFull
  | specRoom
  | trackerRoom (k : Nat)
  | peer
  | race (va : Nat) (pc : BitVec 64) (who : BitVec 64)
  | uncorrectable (va : Nat) (place : ErrorPlace)
  deriving DecidableEq, Repr

/-- A step over the memory system: the state it leaves, and its value or the fate it met. -/
abbrev Mem (α : Type) := State × Except Miss α

def Mem.bind {α β : Type} (r : Mem α) (f : State → α → Mem β) : Mem β :=
  match r.2 with
  | .ok a => f r.1 a
  | .error e => (r.1, .error e)

def Mem.ok {α : Type} (s : State) (a : α) : Mem α := (s, .ok a)
def Mem.fail {α : Type} (s : State) (e : Miss) : Mem α := (s, .error e)

/-- The canonical form of a memory: addresses strictly rising, no listed byte equal to what an unlisted one reads as. -/
def Memory.wf (m : Memory) : Bool := Table.wf (0 : Byte) m

/-- One byte of a memory. -/
def Memory.byte (m : Memory) (a : Nat) : Byte := Table.get 0 m a

/-- Bytes of DRAM and the window: the 128 bytes from a physical address. -/
def dramLine (s : State) (pa : Nat) : BitVec 1024 :=
  BitVec.ofNat 1024 (s.mem.foldl (fun acc c =>
    if pa ≤ c.1 ∧ c.1 < pa + 128 then acc + c.2.toNat * 256 ^ (c.1 - pa) else acc) 0)

/-- An 8-byte physical read, as the walker makes (R483). -/
def physRead64 (s : State) (pa : Nat) : BitVec 64 :=
  q (s.mem.foldl (fun acc c =>
    if pa ≤ c.1 ∧ c.1 < pa + 8 then acc + c.2.toNat * 256 ^ (c.1 - pa) else acc) 0)

/-- Write the masked bytes of a line at a physical address; memory keeps its canonical form. -/
def memWriteLine (m : Memory) (pa : Nat) (mask : BitVec 128) (val : BitVec 1024) : Memory :=
  (List.range 128).foldl (fun m i =>
    if mask.getLsbD i then Table.set 0 m (pa + i) (BitVec.ofNat 8 (lineGet val i 1)) else m) m

/-- Number of ways in a partition's window, over the device (R68, R75). -/
def windowWays (s : State) : Nat := sumOf ((List.range 8).map fun p => (s.part p).winways)

/-- Kinds of physical address (R75, R505). -/
inductive PaKind where
  | tier1 | tier2 | cxl | window | shadow | peer (p : Nat) | none
  deriving DecidableEq, Repr

def tier1Bytes : Nat := 192 * 10 ^ 9
def tier2Bytes : Nat := 3072 * 10 ^ 9

/-- The kind of a physical address (R75). Where the shadow pool's ways stand the map does not say: they are taken as what
follows the window, up to every way of 100 slices (R68; the model's choice, assumption 97). -/
def paKind (s : State) (pa : Nat) : PaKind :=
  if pa < tier1Bytes then .tier1
  else if pa < 0x100000000000 then .none
  else if pa < 0x100000000000 + tier2Bytes then .tier2
  else if pa < 0x200000000000 then .none
  else if pa < 0x300000000000 then (if pa < 0x200000000000 + Config.cxlCapacity then .cxl else .none)
  else if pa < 0x300000000000 + windowWays s * 131072 then .window
  else if pa < 0x300000000000 + 100 * 20 * 131072 then .shadow
  else if pa < 0x8000000000000 then .none
  else .peer ((pa - 0x8000000000000) / 0x80000000000)

/-- The channel of a DRAM frame (R519): (tier, channel). -/
def paChannel (s : State) (pa : Nat) : Option (Nat × Nat) :=
  match paKind s pa with
  | .tier1 => some (1, pa / 65536 % 48)
  | .tier2 => some (2, (pa - 0x100000000000) / 65536 % 48)
  | _ => none

/-- Whether a live peer entry names the aperture of an address (R505). -/
def peerLive (s : State) (p : Nat) : Bool := p < 255 && (s.peers.get .init p).valid

/-- A peer whose entry is live but whose ports have all failed, or whose entry was cleared (R506). -/
def peerReachable (s : State) (p : Nat) : Bool :=
  peerLive s p && ((s.peers.get .init p).ports &&& ~~~s.failedPorts) != 0

/-- Whether an offset lies beyond the capacity of the tier that a peer's aperture selects: a peer is a Relca, with R8's
capacities (R505). -/
def peerBeyond (pa : Nat) : Bool :=
  let off := (pa - 0x8000000000000) % 2 ^ 43
  if off / 2 ^ 42 = 0 then tier1Bytes ≤ off % 2 ^ 42 else tier2Bytes ≤ off % 2 ^ 42

/-- What a walk finds (R483). -/
inductive Walk where
  | leaf (pa : Nat) (log2 : Nat) (w x : Bool)
  | absent (level : Nat) (entry : BitVec 64)
  deriving DecidableEq, Repr

/-- The index of a virtual address at a level, and the page size of a leaf there. -/
def walkIndex (level va : Nat) : Nat :=
  match level with
  | 0 => fld va 56 48 | 1 => fld va 47 39 | 2 => fld va 38 30 | 3 => fld va 29 21 | _ => fld va 20 16

def leafLog2 (level : Nat) : Nat := match level with | 2 => 30 | 3 => 21 | _ => 16

/-- A physical address that R75 refuses: one of its table's last row, or of an aperture that no live peer owns (R505). -/
def refusedPa (s : State) (pa : Nat) : Bool :=
  match paKind s pa with
  | .none => true
  | .peer p => !peerLive s p
  | _ => false

/-- Where an entry of a level points, when it is a well-formed pointer to a next table. -/
def tablePointer (s : State) (level : Nat) (e : BitVec 64) : Option Nat :=
  let addr := 256 * bits e 51 8
  if e.getLsbD 0 = false ∨ e.getLsbD 7 ∨ bits e 63 52 ≠ 0 ∨ bits e 6 4 ≠ 0 ∨ e.getLsbD 1 ∨ level = 4 then none
  else if (level < 3 ∧ addr % 4096 ≠ 0) ∨ refusedPa s addr then none
  else some addr

/-- The level that a walk reaches, and the entry found there (R481, R483). -/
def walkReach (s : State) (va : Nat) : Nat → Nat → Nat → Nat × BitVec 64
  | 0, level, _ => (level, 0)
  | n + 1, level, table =>
    let e := physRead64 s (table + 8 * walkIndex level va)
    match tablePointer s level e with
    | some addr => walkReach s va n (level + 1) addr
    | none => (level, e)

/-- What a walk makes of the entry at which it ends (R483). A malformed entry is treated as not resident; so is one any of
whose addresses R75 refuses: what R75 admits ends within no aligned page but at its last byte. -/
def leafAt (s : State) (va : Nat) (r : Nat × BitVec 64) : Walk :=
  let (level, e) := r
  let addr := 256 * bits e 51 8
  if e.getLsbD 0 = false ∨ e.getLsbD 1 = false ∨ e.getLsbD 7 ∨ bits e 63 52 ≠ 0 ∨ bits e 6 4 ≠ 0 then .absent level e
  else if level < 2 ∨ addr % 2 ^ leafLog2 level ≠ 0 ∨ refusedPa s addr ∨ refusedPa s (addr + 2 ^ leafLog2 level - 1) then
    .absent level e
  else .leaf (addr + va % 2 ^ leafLog2 level) (leafLog2 level) (e.getLsbD 2) (e.getLsbD 3)

/-- Byte `i` of the ASID table's 16-byte entry: the table stands in DRAM at ATBASE (R482). -/
def asidByte (s : State) (asid i : Nat) : Byte := Memory.byte s.mem (s.atBase.toNat + 16 * asid + i)
/-- The entry (R482): word 0 in bits [63:0], word 1 above it. -/
def asidEntry (s : State) (asid : Nat) : BitVec 128 := BitVec.ofNat 128 (ofBytes ((List.range 16).map (asidByte s asid)))
def asidLive (s : State) (asid : Nat) : Bool := (asidByte s asid 0).getLsbD 0
def asidGen (s : State) (asid : Nat) : Nat := (asidByte s asid 8).toNat
/-- The trust core writes an entry. -/
def setAsid (s : State) (asid : Nat) (e : BitVec 128) : State :=
  { s with mem := (List.range 16).foldl (fun m i =>
      Table.set 0 m (s.atBase.toNat + 16 * asid + i) (e.extractLsb' (8 * i) 8)) s.mem }
def asidRoot (s : State) (asid : Nat) : Nat := 4096 * bits (asidEntry s asid) 51 12

def walkEnd (s : State) (asid va : Nat) : Nat × BitVec 64 := walkReach s va 5 0 (asidRoot s asid)
def walk (s : State) (asid va : Nat) : Walk := leafAt s va (walkEnd s asid va)

/-- A TLB entry that covers an address. -/
def tlbFind (s : State) (asid va : Nat) : Option TlbEntry :=
  s.tlb.find? fun e => e.asid == asid && va / 2 ^ e.log2 == e.va / 2 ^ e.log2

/-- The translation in force, without installing it: the TLB's entry before the tables' (R484). -/
def peekWalk (s : State) (asid va : Nat) : Walk :=
  match tlbFind s asid va with
  | some e => .leaf (e.pa + va % 2 ^ e.log2) e.log2 e.w e.x
  | none => walk s asid va

/-- The window address behind a virtual line, with its W bit, if its page is a window page (R68). -/
def windowPa (s : State) (asid va : Nat) : Option (Nat × Bool) :=
  match peekWalk s asid va with
  | .leaf pa _ w _ => if paKind s pa = .window then some (pa, w) else none
  | .absent _ _ => none

/-- The translation of a whole page that shares a 64 KiB frame with a new one under another name, when either is writable (R486). -/
def aliasOf (s : State) (asid va pa log2 : Nat) (w : Bool) : Option TlbEntry :=
  s.tlb.find? fun e =>
    let lo := max (pa / 2 ^ log2 * 2 ^ log2 / 65536) (e.pa / 65536)
    let hi := min ((pa / 2 ^ log2 * 2 ^ log2 + 2 ^ log2) / 65536) ((e.pa + 2 ^ e.log2) / 65536)
    lo < hi && (w || e.w) && !(e.asid == asid && (e.va + (lo * 65536 - e.pa)) / 65536
      == (va / 2 ^ log2 * 2 ^ log2 + (lo * 65536 - pa / 2 ^ log2 * 2 ^ log2)) / 65536)

/-- The record of a page fault or of a refused access (R481, kinds 2 and 3), with the level a walk reached and the entry
found. -/
def missRecord (s : State) (r : Req) (kind va fid level : Nat) (entry : BitVec 64) (aborted : Bool) : BitVec 512 :=
  let pay := [ q va, q (fid + 2 ^ 32 * r.access + 2 ^ 48 * level) + (BitVec.zeroExtend 64 (Config.controllerOf va) <<< 40)
             , entry, 0, 0 ]
  let fl := if aborted then 4 else 0
  match r.t with
  | some t => threadRecord s t kind fl pay
  | none => record (header s kind fl 0xFFFF r.asid (if r.access = 5 then 0xFFFF else r.core) 0 ++ pay)

/-- The record of kind 3: an access that its page refuses (R481). -/
def refusedRecord (s : State) (r : Req) (va : Nat) : BitVec 512 :=
  let (level, e) := walkEnd s r.asid va
  missRecord s r 3 va 0 level e false

/-- Whether a fault's page covers an address. -/
def PageFault.covers (f : PageFault) (asid va : Nat) : Bool := f.asid == asid && va / 2 ^ f.log2 == f.page

/-- The size of a page that is not resident: a leaf's that is being migrated, else 64 KiB. -/
def absentLog2 (level : Nat) (entry : BitVec 64) : Nat :=
  if entry.getLsbD 0 ∧ entry.getLsbD 1 then leafLog2 level else 16

/-- A requester meets a not-resident page: one record per (ASID, page) until the next replay (R487). -/
def pageFault (s : State) (r : Req) (va level : Nat) (entry : BitVec 64) : State × Nat :=
  match s.pageFaults.find? fun f => f.covers r.asid va with
  | some f => (s, f.id)
  | none =>
    let fid := s.nextFault
    let size := absentLog2 level entry
    let s1 := { s with nextFault := fid + 1, pageFaults := s.pageFaults ++ [⟨fid, r.asid, va / 2 ^ size, size⟩] }
    (postFault s1 r.part (missRecord s r 2 va fid level entry r.aborts), fid)

/-- Whether a translation of some size names a frame of a channel. -/
def leafOn (s : State) (ch : Nat × Nat) (e : Nat × Nat) : Bool :=
  (List.range (min 48 (2 ^ (e.2 - 16)))).any fun i => paChannel s (e.1 + 65536 * i) == some ch

/-- Whether a page has a frame on a closed channel (R519). -/
def pageClosed (s : State) (pa log2 : Nat) : Bool := s.closed.any fun c => leafOn s c (pa / 2 ^ log2 * 2 ^ log2, log2)

/-- A translation as the controller makes it: from its TLB, else by a walk that the aliasing check admits. The value is
(PA, W, X). -/
def translate (s : State) (r : Req) (va : Nat) : Mem (Nat × Bool × Bool) :=
  if !asidLive s r.asid then .fail s .unresolvable
  else
    match peekWalk s r.asid va with
    | .absent level e =>
      let (s1, fid) := pageFault s r va level e
      .fail s1 (.page fid)
    | .leaf pa log2 w x =>
      match paKind s pa with
      | .none | .shadow => .fail s .protection
      | .peer p =>
        if !peerLive s p then .fail s .protection
        else if !peerReachable s p then .fail s .peer
        else if peerBeyond pa then .fail s .protection
        else .ok { s with tlb := if (tlbFind s r.asid va).isSome then s.tlb else
            s.tlb ++ [⟨r.asid, va / 2 ^ log2 * 2 ^ log2, log2, pa / 2 ^ log2 * 2 ^ log2, w, x⟩] } (pa, w, x)
      | k =>
        if pageClosed s pa log2 then .fail s .protection
        else if (tlbFind s r.asid va).isSome then .ok s (pa, w, x)
        else
          match (if k = .window then none else aliasOf s r.asid va pa log2 w) with
          | some o =>
            let pay := [q va, q pa, q o.asid, q o.va, 0]
            let rec4 := match r.t with
              | some t => threadRecord s t 4 0 pay
              | none => record (header s 4 0 0xFFFF r.asid (if r.access = 5 then 0xFFFF else r.core) 0 ++ pay)
            .fail (postFault s r.part rec4) .aliased
          | none =>
            .ok { s with tlb := s.tlb ++ [⟨r.asid, va / 2 ^ log2 * 2 ^ log2, log2, pa / 2 ^ log2 * 2 ^ log2, w, x⟩] }
              (pa, w, x)

/-! ### Retired channels (R519) -/

/-- Leaves below a table, as (PA, log2 of size). -/
def tableLeaves (s : State) : Nat → Nat → Nat → List (Nat × Nat)
  | 0, _, _ => []
  | n + 1, level, table =>
    (List.range (if level = 4 then 32 else 512)).flatMap fun i =>
      let e := physRead64 s (table + 8 * i)
      let addr := 256 * bits e 51 8
      if !e.getLsbD 0 then []
      else if e.getLsbD 1 then [(addr, leafLog2 level)]
      else tableLeaves s n (level + 1) addr

/-- The live ASIDs: entries of the table with V set. -/
def liveAsids (s : State) : List Nat :=
  let base := s.atBase.toNat
  (List.filter (fun c : Host.Cell => base ≤ c.1 && c.1 < base + 1048576 && (c.1 - base) % 16 == 0 && c.2.getLsbD 0) s.mem).map
    fun c => (c.1 - base) / 16

/-- Whether any translation, of a TLB or of the tables of a live ASID, names a frame of a channel (R519). -/
def channelNamed (s : State) (ch : Nat × Nat) : Bool :=
  (s.tlb.any fun e => leafOn s ch (e.pa, e.log2))
    || ((liveAsids s).any fun a => (tableLeaves s 5 0 (asidRoot s a)).any (leafOn s ch))

/-- Retired channels that no translation names any more are closed. -/
def closeChannels (s : State) : State :=
  { s with closed := s.closed ++ s.retired.filter fun c => !s.closed.contains c && !channelNamed s c }

end Sys2Proof.Machine
end

