-- ==== Sys2Proof/Machine/Procedural.lean ====
section
/-! DEFINITION. Procedural regions: descriptor fields (R204), the fill and pin tables (R205), touches (R206-R208),
recursion limits (R213) and eviction over budget (R216). -/

namespace Sys2Proof.Machine

/-- Fields of a region descriptor (R204), held as its 64 bytes. -/
def Region.base (r : Region) : Nat := bits r.desc 63 0
def Region.length (r : Region) : Nat := bits r.desc 127 64
def Region.log2 (r : Region) : Nat := bits r.desc 135 128
def Region.prio (r : Region) : Nat := bits r.desc 143 136
def Region.limit (r : Region) : Nat := bits r.desc 151 144
def Region.matrix (r : Region) : Bool := r.desc.getLsbD 152
def Region.scratch (r : Region) : Nat := bits r.desc 191 160
def Region.entry (r : Region) : Nat := bits r.desc 255 192
def Region.argVa (r : Region) : Nat := bits r.desc 319 256
def Region.argBytes (r : Region) : Nat := bits r.desc 351 320
def Region.budget (r : Region) : Nat := bits r.desc 383 352
def Region.capacity (r : Region) : Nat := bits r.desc 399 384
def Region.timeout (r : Region) : Nat := bits r.desc 447 416
def Region.table (r : Region) : Nat := bits r.desc 511 448
def Region.blocks (r : Region) : Nat := r.length / 2 ^ r.log2
/-- The pin table follows the fill table, on the next multiple of 64 (R205). -/
def Region.pinTable (r : Region) : Nat := r.table + ceilDiv (ceilDiv r.blocks 4) 64 * 64
def Region.blockVa (r : Region) (b : Nat) : Nat := r.base + b * 2 ^ r.log2

/-- The region of a partition's address space that holds an address, with the block's index. -/
def regionAt (s : State) (p asid va : Nat) : Option (Nat × Region × Nat) :=
  (List.find? (fun e : Nat × Region => e.2.asid == asid && e.2.base ≤ va && va < e.2.base + e.2.length) (s.part p).regions).map
    fun e => (e.1, e.2, (va - e.2.base) / 2 ^ e.2.log2)

/-- Fill states (R205): 0 EMPTY, 1 FILLING, 2 FILLED, 3 EVICTING. -/
def Region.state (r : Region) (b : Nat) : Nat := r.fill.get 0 b
def Region.pins (r : Region) (b : Nat) : Nat := r.pin.get 0 b

def region? (s : State) (p i : Nat) : Option Region := (s.part p).regions.find? i

def modRegion (s : State) (p i : Nat) (f : Region → Region) : State :=
  s.modPart p fun x => { x with regions := x.regions.modify i f }

/-- The engine's byte writes into the tables: they land in the window page behind the table's address. -/
def mirrorByte (s : State) (p va : Nat) (b : Byte) : State :=
  match windowPa s (s.part p).mgmtAsid va with
  | some (pa, _) => { s with mem := Table.set 0 s.mem pa b }
  | none => s

/-- Set a block's fill state, in the engine's table and in the byte of the fill table that holds it. -/
def setFill (s : State) (p i b code : Nat) : State :=
  let s1 := modRegion s p i fun r => { r with fill := r.fill.set 0 b code }
  match region? s1 p i with
  | none => s1
  | some r =>
    let byte := sumOf ((List.range 4).map fun j => 4 ^ j * r.state (b / 4 * 4 + j))
    mirrorByte s1 p (r.table + b / 4) (BitVec.ofNat 8 byte)

def setPin (s : State) (p i b n : Nat) : State :=
  let s1 := modRegion s p i fun r => { r with pin := r.pin.set 0 b n }
  match region? s1 p i with
  | none => s1
  | some r => mirrorByte s1 p (r.pinTable + b) (BitVec.ofNat 8 n)

/-- Discard a FILLED block: through EVICTING, its CSM lines invalidated without write-back, to EMPTY (R216). -/
def evictBlock (s : State) (p i b : Nat) : State :=
  match region? s p i with
  | none => s
  | some r =>
    let lo := r.blockVa b
    let s1 := setFill s p i b 3
    let s2 := { s1 with csm := s1.csm.filter fun l => !(l.asid == r.asid && lo ≤ l.va && l.va < lo + 2 ^ r.log2) }
    setFill s2 p i b 0

/-- Room for a starting fill: evict the least recently touched unpinned block when over budget, or count it (R216). -/
def makeRoom (s : State) (p i : Nat) : State :=
  match region? s p i with
  | none => s
  | some r =>
    let resident := (r.fill.filter fun e => e.2 == 1 || e.2 == 2).length
    if r.budget = 0 ∨ resident < r.budget then s
    else
      match argMin (fun e => r.touch.get 0 e.1) (r.fill.filter fun e => e.2 == 2 && r.pins e.1 == 0) with
      | some e => evictBlock s p i e.1
      | none => modRegion s p i fun x => { x with overCnt := if x.overCnt = 0xFFFFFFFF then x.overCnt else x.overCnt + 1 }

def fillOf (s : State) (p i b : Nat) : Option Fill := s.fills.find? fun f => f.part == p && f.region == i && f.block == b
def fillOfGen (s : State) (g : Nat) : Option Fill := s.fills.find? fun f => f.gen == some g
def modFill (s : State) (p i b : Nat) (g : Fill → Fill) : State :=
  { s with fills := mapIf (fun f => f.part == p && f.region == i && f.block == b) g s.fills }

/-- The generators that wait on a fill. -/
def waitingGens (s : State) (f : Fill) : List Nat :=
  (f.waiters.flatMap fun w => match w with
    | .wave w =>
      (match s.waveBlock? w with
       | some b =>
         let on (x : Option Wait) : Bool := x == some (.fill f.region f.block)
         let beam : Bool := s.beams.any fun e => e.2.any fun x => x.block == b.id && !x.fin && on x.hold
         if b.gen && (beam || (waveThreads s w).any fun t => on (s.thread t).wait) then [b.id] else []
       | none => [])
    | .copy c n =>
      ((s.ctx c).reqs.filter fun r => r.seq == n && r.gen && !r.retired && r.parked == some (.fill f.region f.block)).map
        fun r => r.block).eraseDups

/-- Some fills, with those that wait on one of them. -/
def chainStep (s : State) (fs : List Fill) : List Fill :=
  (fs ++ (fs.flatMap (waitingGens s)).filterMap (fillOfGen s)).eraseDups

/-- The chain of a generator's fill: that fill and every fill that waits on it, directly or through generators, by their
threads or their copies (R213). -/
def chainOf (s : State) (g : Nat) : List Fill := iter (chainStep s) s.fills.length (fillOfGen s g).toList

/-- Join a waiter list: one entry per wave or per copy request, up to the capacity (R208). -/
def joinWaiters (s : State) (p i b : Nat) (cap : Nat) (w : Option Waiter) : Mem Unit :=
  match fillOf s p i b, w with
  | some f, some x =>
    if f.waiters.contains x then .fail s (.fill i b)
    else if f.waiters.length < cap then
      .fail (modFill s p i b fun f => { f with waiters := f.waiters ++ [x] }) (.fill i b)
    else .fail s (.fillFull i b)
  | _, _ => .fail s (.fill i b)

/-- Start a fill (R206, R213, R216, R493): the block goes to FILLING and its generator is queued, or the host asked. -/
def startFill (s : State) (r : Req) (i b : Nat) (depth limit : Nat) : State :=
  let s1 := makeRoom s r.part i
  let s2 := setFill s1 r.part i b 1
  let host := (s2.part r.part).flhost
  let f : Fill := { part := r.part, region := i, block := b, depth := depth, limit := limit
                    waiters := match r.waiter with | some w => [w] | none => []
                    queued := !host, order := s2.seq, gen := none, bindTick := 0, waitTick := s2.tick.toNat }
  let s3 := { s2 with fills := s2.fills ++ [f], seq := s2.seq + 1 }
  if host then
    let va := match region? s3 r.part i with | some x => x.blockVa b | none => 0
    let pay := [q va, q (i + 256 * depth), q b, 0, 0]
    postFault s3 r.part (match r.t with
      | some t => threadRecord s3 t 12 0 pay
      | none => record (header s3 12 0 0xFFFF r.asid 0xFFFF 0 ++ pay))
  else s3

/-- A touch of the block holding an address (R206). A generator's access to the block it fills, and one of a copy it kicked,
is none. -/
def touch (s : State) (r : Req) (va : Nat) : Mem Unit :=
  match regionAt s r.part r.asid va with
  | none => .ok s ()
  | some (i, reg, b) =>
    let own := r.gen.any fun g => g.region == i && g.block == b
    if own then .ok s ()
    else
      match reg.state b with
      | 2 => .ok { modRegion s r.part i (fun x => { x with touch := x.touch.put b s.seq }) with seq := s.seq + 1 } ()
      | 3 => .fail s (.evicting i b)
      | 1 =>
        let inChain := match r.gen with
          | some g => (chainOf s g.id).any fun f => f.region == i && f.block == b
          | none => false
        if inChain then .fail s (.recursion i b) else joinWaiters s r.part i b reg.capacity r.waiter
      | _ =>
        match r.gen with
        | some g =>
          if g.depth + 1 > g.limit then .fail s (.recursion i b)
          else .fail (startFill s r i b (g.depth + 1) g.limit) (.fill i b)
        | none => .fail (startFill s r i b 1 reg.limit) (.fill i b)

end Sys2Proof.Machine
end

