-- ==== Sys2Proof/Machine/Race.lean ====
section
/-! DEFINITION. The race detector (R113-R117): vector clocks of blocks, release records, and what it keeps of each line:
its stamps, and the releases behind its bytes. -/

namespace Sys2Proof.Machine

def Scope.wide : Scope → Bool
  | .cluster | .device | .system => true
  | _ => false

/-- The clock a block runs under, when the unit watches it (R114). -/
def watched (s : State) (b : Block) : Option (Nat × Launch) :=
  if b.raceMode = 0 ∨ b.gen then none
  else
    match b.vecIndex, s.launch? b.launch with
    | some i, some l => some (i, l)
    | _, _ => none

/-- A release record as a write carries it: the launch whose ring holds it, and its number. -/
abbrev RelTag := Nat × Nat

/-- A release's snapshot (R114): the block's clock, its own entry at its epoch, into the ring of 4,096 records; its epoch
then rises. Answers the record (assumption 110). -/
def raceRelease (s : State) (bid : Nat) (scope : Scope) : State × Option RelTag :=
  match (s.block? bid).bind fun b => (watched s b).map fun w => (b, w.1, w.2) with
  | none => (s, none)
  | some (b, i, l) =>
    let n := match l.ring with | [] => 1 | e :: _ => e.seq + 1
    let epoch := l.epochs.get 0 i
    let clocks := b.clocks.put i epoch
    let s1 := s.modBlock bid fun b => { b with clocks := clocks }
    (s1.modLaunch b.launch fun l =>
      { l with ring := (⟨n, b.coord, scope == .cluster, clocks⟩ :: l.ring).take 4096
               epochs := l.epochs.put i ((epoch + 1) % 2 ^ 32) }, some (b.launch, n))

/-- An acquire edge that merges conservatively: every entry to its index's current epoch (R114). -/
def raceAcquireAll (s : State) (bid : Nat) : State :=
  match (s.block? bid).bind fun b => (watched s b).map Prod.snd with
  | none => s
  | some l => s.modBlock bid fun b => { b with clocks := l.epochs }

/-- One acquire edge from a release record: merged while the ring holds it, else conservatively; a release and an
acquire that share no scope make no edge (R78, R83, R114). -/
def raceEdge (l : Launch) (scope : Scope) (b : Block) (n : Nat) : Block :=
  match l.ring.find? fun e => e.seq == n with
  | none => { b with clocks := l.epochs }
  | some e =>
    if (e.cluster || scope == .cluster) && e.coord != b.coord then b
    else { b with clocks := e.clocks.foldl (fun c x => if c.get 0 x.1 < x.2 then c.put x.1 x.2 else c) b.clocks }

/-- A block's clock after an acquire that synchronises with the releases of some records (R83, R114). -/
def acquireClock (l : Launch) (scope : Scope) (rels : List Nat) (b : Block) : Block := rels.foldl (raceEdge l scope) b

def raceAcquire (s : State) (bid : Nat) (scope : Scope) (rels : List Nat) : State :=
  match (s.block? bid).bind fun b => (watched s b).map Prod.snd with
  | none => s
  | some l => s.modBlock bid (acquireClock l scope rels)

/-! ### What the unit keeps of a line -/

def RaceLine.of (l : RaceLine) (asid agen va : Nat) : Bool := l.asid == asid && l.agen == agen && l.va == va

/-- What a launch's watch holds of a line. -/
def raceLine (s : State) (h asid agen va : Nat) : RaceLine :=
  match s.raceLines.find? fun l => l.launch == h && l.of asid agen va with
  | some l => l
  | none => ⟨h, asid, agen, va, [], [], []⟩

def putRaceLine (s : State) (l : RaceLine) : State :=
  { s with raceLines := l :: s.raceLines.filter fun x => !(x.launch == l.launch && x.of l.asid l.agen l.va) }

/-- A plain write leaves no release behind on its bytes (R83). -/
def clearRels (s : State) (asid agen va : Nat) (mask : BitVec 128) : State :=
  match s.raceLines with
  | [] => s
  | ls =>
    let clear (l : RaceLine) : RaceLine := { l with rels := l.rels.filter fun e => !mask.getLsbD e.1 }
    { s with raceLines := mapIf (·.of asid agen va) clear ls }

/-- Bytes that a release's own write wrote; an atomic's bytes keep the records of the chain it continues (R83). -/
def markRel (s : State) (asid agen va : Nat) (mask : BitVec 128) (rel : Option RelTag) : State :=
  match rel with
  | none => s
  | some (h, n) =>
    let l := raceLine s h asid agen va
    let rels := (List.range 128).foldl (fun m i => if mask.getLsbD i then Table.put m i (n :: Table.get [] m i) else m) l.rels
    putRaceLine s { l with rels := rels }

/-- The release records of a thread's launch behind every masked byte (R83). -/
def relOf (s : State) (t : TRef) (asid agen va : Nat) (mask : BitVec 128) : List Nat :=
  match s.raceLines with
  | [] => []
  | _ =>
    let l := raceLine s (((s.threadBlock? t).map fun b => b.launch).getD 4096) asid agen va
    match (List.range 128).filter (mask.getLsbD ·) with
    | [] => []
    | i :: rest => (Table.get [] l.rels i).filter fun n => rest.all fun j => (Table.get [] l.rels j).contains n

/-- The same for a read that takes some bytes from its own core. -/
def relRead (s : State) (t : TRef) (asid agen va : Nat) (mask own : BitVec 128) : List Nat :=
  if mask &&& own = 0 then relOf s t asid agen va mask else []

/-- The conflicting stamp of a granule, if any (R115): another block's, overlapping, one of the two a write, at an
epoch the clock has not reached, not two atomics (R113). -/
def raceConflict (l : RaceLine) (g : Nat) (b : Block) (i : Nat) (mask : BitVec 32) (write atomic : Bool) :
    Option RaceStamp :=
  let ws := match l.writes.find? g with | some x => [x] | none => []
  let rs := if write then l.reads.get [] g else []
  (ws ++ rs).find? fun x =>
    x.index != i && (x.mask &&& mask) != 0 && b.clocks.get 0 x.index < x.epoch && !(x.atomic && atomic)

/-- Stamp an access on a granule (R115). -/
def raceStamp (l : RaceLine) (g : Nat) (x : RaceStamp) (write : Bool) : RaceLine :=
  if write then { l with writes := l.writes.put g x, reads := l.reads.del g }
  else
    let old := l.reads.get [] g
    let new := match old with
      | [] => [x]
      | n :: rest => if n.index = x.index then x :: rest else [x, n]
    { l with reads := l.reads.put g new }

/-- How the unit sees an access: where it stands, whether it writes and is an atomic, the scope of its acquire, if it is
one, whether it is the own access of a release, made before the epoch rose, and its region. -/
structure RaceKind where
  pc       : BitVec 64
  write    : Bool
  atomic   : Bool
  acquire  : Option Scope
  released : Bool
  own      : BitVec 128          -- bytes it reads from its own core, which no release has written (R83)
  region   : Nat
  deriving DecidableEq, Repr

/-- The stamp that an access to one granule of a line conflicts with, if any (R115). The access of an acquire is ordered
after the releases it reads. -/
def raceClash (s : State) (t : TRef) (k : RaceKind) (b : Block) (line g : Nat) (full : BitVec 128) : Option RaceStamp :=
  match watched s b with
  | none => none
  | some (i, l) =>
    let b1 := match k.acquire with
      | some sc => if Scope.wide sc then acquireClock l sc (relRead s t b.asid b.agen line full k.own) b else b
      | none => b
    raceConflict (raceLine s b.launch b.asid b.agen line) g b1 i (full.extractLsb' (32 * g) 32) k.write k.atomic

/-- One granule of an access that is made: its stamp, and in report mode the record of a conflict, whose mask is of the
bytes both touch (R115-R117, R528). -/
def raceGranule (s : State) (t : TRef) (k : RaceKind) (b : Block) (line g : Nat) (full : BitVec 128) : State :=
  match watched s b with
  | none => s
  | some (i, l) =>
    let mask : BitVec 32 := full.extractLsb' (32 * g) 32
    let epoch := if k.released then b.clocks.get 0 i else l.epochs.get 0 i
    let va := line + 32 * g
    let x : RaceStamp := { index := i, epoch := epoch, mask := mask, atomic := k.atomic, pc := k.pc, who := logicalThread s t
                           madeBy := if k.atomic then none else some (t, k.region) }
    let put (s : State) : State := putRaceLine s (raceStamp (raceLine s b.launch b.asid b.agen line) g x k.write)
    match raceClash s t k b line g full with
    | none => put s
    | some old =>
      let key := (va, i * 2 ^ 32 + epoch)
      if l.raced.contains key then put s
      else
        let s1 := s.modLaunch b.launch fun l => { l with raced := key :: l.raced }
        let pay := [q va, q (old.mask &&& mask).toNat, old.pc, k.pc, old.who]
        put (postFault s1 b.part (threadRecord s1 t 7 0 pay))

/-- A generic-path access to the masked bytes of a line, seen by the unit (R113). In trap mode one that conflicts anywhere is
not made, and leaves no stamp (R117). -/
def raceAccess (s : State) (t : TRef) (k : RaceKind) (line : Nat) (mask : BitVec 128) : Mem Unit :=
  match s.threadBlock? t with
  | none => .ok s ()
  | some b =>
    if b.raceMode = 0 then .ok s ()
    else
      let gs := [0, 1, 2, 3].filter fun g => mask.extractLsb' (32 * g) 32 != 0
      let clash (g : Nat) : Option Miss := (raceClash s t k b line g mask).map fun x => .race (line + 32 * g) x.pc x.who
      match (if b.raceMode = 2 then gs.findSome? clash else none) with
      | some m => .fail s m
      | none => .ok (gs.foldl (fun s g => raceGranule s t k b line g mask) s) ()

/-- The stamps of a region's plain accesses go with the region: they were never made (R109, R116). -/
def dropStamps (s : State) (t : TRef) (region : Nat) : State :=
  match s.raceLines with
  | [] => s
  | ls =>
    let keep (x : RaceStamp) : Bool := x.madeBy != some (t, region)
    let line (l : RaceLine) : RaceLine :=
      { l with writes := l.writes.filter fun e => keep e.2, reads := l.reads.map fun e => (e.1, e.2.filter keep) }
    { s with raceLines := ls.map line }

/-- An access of an instruction under way: plain, or an atomic. -/
def raceKind (s : State) (t : TRef) (write atomic : Bool) (acquire : Option Scope) (released : Bool) : RaceKind :=
  ⟨(s.thread t).pc, write, atomic, acquire, released, 0, (s.thread t).regionSeq⟩

/-- The watch of a launch ends with it (R113). -/
def forgetRaces (s : State) (h : Nat) : State := { s with raceLines := s.raceLines.filter fun l => l.launch != h }

end Sys2Proof.Machine
end

