-- ==== Sys2Proof/Machine/Memory.lean ====
section
/-! DEFINITION. The CSM banks, the core-side caches and the steps a release and an acquire take on them (R61-R63,
R68-R72, R77, R80-R82, R92, R105, R107-R110, R112, R537). -/

namespace Sys2Proof.Machine

/-! ### The CSM and DRAM -/

def CsmLine.is (l : CsmLine) (asid agen va : Nat) : Bool := l.asid == asid && l.agen == agen && l.va == va
def csmFind (s : State) (asid agen va : Nat) : Option CsmLine := s.csm.find? fun l => l.is asid agen va

def fullMask : BitVec 128 := BitVec.allOnes 128

/-- A dropped write's record (R481, kinds 8 and 9). -/
def dropRecord (s : State) (kind part core asid agen va : Nat) (mask : BitVec 128) : State :=
  postFault s part (record (header s kind 0 0xFFFF asid core 0 ++
    [q va, mask.extractLsb' 0 64, mask.extractLsb' 64 64, q agen, 0]))

/-- Ticks in an hour. -/
def hourTicks : Nat := 360000000000

/-- An error of a DRAM channel is remembered for 24 h (R519). -/
def noteError (s : State) (pa : Nat) (uncor : Bool) : State :=
  match paChannel s pa with
  | some (tier, c) =>
    let h := s.health
    let kept := h.errors.filter fun e => s.tick.toNat < e.tick + 24 * hourTicks
    { s with health := { h with errors := ⟨tier, c, uncor, s.tick.toNat⟩ :: kept } }
  | none => s

/-- Whether Sextant retires a channel (R519): 2 uncorrectable errors within 24 h, or 10,000 corrected ones within 1 h. -/
def retirementDue (s : State) (tier c : Nat) : Bool :=
  let mine := s.health.errors.filter fun e => e.tier == tier && e.channel == c
  let within (hours : Nat) (e : MemError) : Bool := s.tick.toNat < e.tick + hours * hourTicks
  2 ≤ (mine.filter fun e => e.uncor && within 24 e).length || 10000 ≤ (mine.filter fun e => !e.uncor && within 1 e).length

/-- A counter that stays at its greatest value. -/
def satInc (w : Word) : Word := if w = 0xFFFFFFFF then w else w + 1

/-- Whether a launch, as it stands, will end faulted (R466). -/
def endsFaulted (s : State) (h : Nat) : Bool :=
  match s.launch? h with
  | some l => l.faulted || (s.blocks ++ s.images.flatMap fun i => i.blocks).any fun b => b.launch == h && !b.gen && b.faulted
  | none => true

/-- A hardware failure makes the device end some launches faulted: one interruption, however many they are (R529). -/
def interrupted (s : State) (hs : List Nat) : State :=
  if hs.all (endsFaulted s) then s else { s with health := { s.health with jif := satInc s.health.jif } }

/-- The granule of memory, or the line of the CSM, at which an error stands. -/
def ErrorPlace.key (va : Nat) : ErrorPlace → Nat
  | .memory pa => pa / 32
  | .slice _ _ => 2 ^ 52 + va / 128

/-- An uncorrectable error halts a thread: it interrupts the thread's launch, once for a granule's error (R529). -/
def jobError (s : State) (t : TRef) (key : Nat) : State :=
  match s.threadBlock? t with
  | some b =>
    if b.gen ∨ s.health.jobs.contains key ∨ endsFaulted s b.launch then s
    else
      let s1 := interrupted s [b.launch]
      { s1 with health := { s1.health with jobs := key :: s1.health.jobs } }
  | none => s

/-- An SRAM array, by the source of its errors (R521) and its quad or core: 3 a quad's CSM slice, 4 a core's local memory,
5 its register file, 6 its accumulators. -/
def arrayOf (source unit : Nat) : Nat := 400 * source + unit % 400

/-- An array's corrected errors since reset (R514, R521). -/
def arrayCount (s : State) (source unit : Nat) : Nat := (s.health.arrays.get 0 (arrayOf source unit)).toNat

/-- A kind-11 record's source and channel, its count of corrected errors, and its physical address or 0 (R521). -/
def ErrorPlace.fields (s : State) : ErrorPlace → Nat × Nat × Nat × Nat
  | .slice quad pa => (3, 0xFF, arrayCount s 3 quad, pa)
  | .memory pa =>
    match paChannel s pa with
    | some (tier, c) => (tier - 1, c, (s.health.corr.get 0 (48 * (tier - 1) + c)).toNat, pa)
    | none => (match paKind s pa with | .cxl => 2 | _ => 7, 0xFF, 0, pa)

/-- A kind-11 record (R521). Source, channel and count follow the place. -/
def errorRecord (s : State) (part consumer action va : Nat) (place : ErrorPlace) (pc : BitVec 64) (t : Option TRef) : State :=
  let (src, chan, cnt, pa) := place.fields s
  let pay := [ q (src + 2 ^ 8 * consumer + 2 ^ 16 * chan + 2 ^ 24 * action + 2 ^ 32 * cnt), q va, q pa, pc
             , Config.eccSyndrome pa ]
  let s1 := match t with | some t => jobError s t (place.key va) | none => s
  let s0 := match place with | .memory pa => noteError s1 pa true | .slice _ _ => s1
  let s2 := { s0 with health := { s0.health with uncor := satInc s0.health.uncor } }
  postFault s2 part (match t with
    | some t => threadRecord s t 11 0 pay
    | none => record (header s 11 0 0xFFFF 0 0xFFFF 0 ++ pay))

/-- The granule of an uncorrectable error among the masked bytes of a physical line (R520). -/
def badGranule (s : State) (pa : Nat) (mask : BitVec 128) : Option Nat :=
  ([0, 1, 2, 3].map fun g => pa / 32 + g).find? fun g =>
    s.bad.contains g && mask.extractLsb' (32 * (g - pa / 32)) 32 != 0

/-- A granule's share of a line's mask. -/
def granuleMask (mask : BitVec 128) (g : Nat) : BitVec 32 := mask.extractLsb' (32 * g) 32

/-- A granule takes its bytes: an uncorrectable one that is written whole gets fresh check bits, and its error is gone (R520).
A peer's bytes are forwarded to their owning agent. -/
def granuleTake (s : State) (part va pa : Nat) (place : ErrorPlace) (mask : BitVec 128) (val : BitVec 1024) (g : Nat) : State :=
  let s1 := if s.bad.contains (pa / 32 + g) then errorRecord s part 3 0 va place 0 none else s
  let s2 := { s1 with bad := s1.bad.filter (· != pa / 32 + g) }
  match paKind s pa with
  | .peer _ => s2
  | _ => { s2 with mem := memWriteLine s1.mem pa (mask &&& byteMask (32 * g) 32) val }

/-- Write masked bytes to a physical line, whose granules stand at the places given; part of an uncorrectable granule is
dropped. Either meeting of one has its record (R520). -/
def granulesWrite (s : State) (part va pa : Nat) (place : Nat → ErrorPlace) (mask : BitVec 128) (val : BitVec 1024) : State :=
  [0, 1, 2, 3].foldl (fun s g =>
    let m := granuleMask mask g
    let here := place (pa + 32 * g)
    if m = 0 then s
    else if s.bad.contains (pa / 32 + g) ∧ m ≠ BitVec.allOnes 32 then errorRecord s part 3 1 va here 0 none
    else granuleTake s part va pa here mask val g) s

/-- Write masked bytes to a line of a tier, of CXL memory or of a peer. -/
def dramWrite (s : State) (part pa va : Nat) (mask : BitVec 128) (val : BitVec 1024) : State :=
  granulesWrite s part va pa .memory mask val

/-- A share of a total over `n` slices, for slice `i`. -/
def sliceShare (total n i : Nat) : Nat := if i < total % n then ceilDiv total n else total / n

/-- Slices of a partition: its enabled quads. -/
def sliceCount (s : State) (p : Nat) : Nat := (enabledCores s p).length / 4

/-- A line's home slice among its partition's: a hash over the enabled ones (R69). -/
def homeSlice (s : State) (p asid va : Nat) : Nat := Config.homeHash asid (va / 128) % sliceCount s p

/-- The quad whose slice is the home of a line. -/
def sliceQuad (s : State) (p asid va : Nat) : Nat :=
  let qs := (partQuads s p).filter (quadEnabled s)
  physQuad s (qs.getD (homeSlice s p asid va) 0)

def homeQuad (s : State) (l : CsmLine) : Nat := sliceQuad s l.part l.asid l.va

/-- Write masked bytes to a page of the window, in its slice. -/
def windowWrite (s : State) (part asid pa va : Nat) (mask : BitVec 128) (val : BitVec 1024) : State :=
  granulesWrite s part va pa (.slice (sliceQuad s part asid va)) mask val

/-- How the home bank judges a write (R537); one whose ASID is no longer live is dropped as for a page that the pager
declared unresolvable (R482, R490). -/
inductive Judge where
  | accepted | stale | readonly | dead
  deriving DecidableEq, Repr

/-- Bytes of a present line replaced. -/
def CsmLine.take (l : CsmLine) (mask : BitVec 128) (val : BitVec 1024) (ret : Option Ret) : CsmLine :=
  { l with val := mergeBytes mask val l.val, valid := l.valid ||| mask, dirty := l.dirty ||| mask, ret := ret.getD l.ret }

/-- The granules that a mask touches. -/
def touched (mask : BitVec 128) : BitVec 4 :=
  [0, 1, 2, 3].foldl (fun m g => if granuleMask mask g = 0 then m else m ||| 1#4 <<< g) 0

/-- Some bytes of uncorrectable granules of a line, granule by granule: whether it is touched whole, and its number. -/
def CsmLine.badParts (l : CsmLine) (mask : BitVec 128) : List (Bool × Nat) :=
  ([0, 1, 2, 3].filter fun g => l.bad.getLsbD g && granuleMask mask g != 0).map fun g =>
    (granuleMask mask g == BitVec.allOnes 32, g)

/-- The records of a write that meets uncorrectable granules of a line of the CSM (R520). -/
def badWriteRecords (s : State) (l : CsmLine) (mask : BitVec 128) : State :=
  (l.badParts mask).foldl (fun s e => errorRecord s l.part 3 (if e.1 then 0 else 1) l.va (.slice (homeQuad s l) 0) 0 none) s

/-- The bytes of a mask in parts of uncorrectable granules: a write of them is dropped (R520). -/
def CsmLine.droppedBytes (l : CsmLine) (mask : BitVec 128) : BitVec 128 :=
  (l.badParts mask).foldl (fun m e => if e.1 then m else m ||| byteMask (32 * e.2) 32) 0

/-- The uncorrectable granules that a write covers: they get fresh check bits (R520). -/
def CsmLine.mended (l : CsmLine) (mask : BitVec 128) : BitVec 4 :=
  (l.badParts mask).foldl (fun m e => if e.1 then m ||| 1#4 <<< e.2 else m) 0

/-- A line of the CSM takes masked bytes, but part of an uncorrectable granule (R520). -/
def takeIn (s : State) (l : CsmLine) (mask : BitVec 128) (val : BitVec 1024) (ret : Option Ret) : State × CsmLine :=
  (badWriteRecords s l mask,
   { l with bad := l.bad &&& ~~~l.mended mask }.take (mask &&& ~~~l.droppedBytes mask) val ret)

def newCsmLine (part asid agen va : Nat) (w : Option Bool) (ret : Ret) : CsmLine :=
  { asid := asid, agen := agen, va := va, val := 0, valid := 0, dirty := 0, w := w, part := part, ret := ret, bad := 0 }

def csmDrop (s : State) (asid agen va : Nat) : State := { s with csm := s.csm.filter fun x => !x.is asid agen va }
/-- A line of the CSM, now the most recently used. -/
def csmPut (s : State) (l : CsmLine) : State := { s with csm := l :: s.csm.filter fun x => !x.is l.asid l.agen l.va }
/-- A line changed in its place: a bypass access leaves its hint and age (R71). -/
def csmMod (s : State) (asid agen va : Nat) (f : CsmLine → CsmLine) : State :=
  { s with csm := mapIf (·.is asid agen va) f s.csm }

/-- The request by which the CSM or a home bank writes to memory. -/
def writeReq (part asid agen : Nat) : Req :=
  { t := none, core := 0xFFFF, part := part, asid := asid, agen := agen, access := 3, aborts := false, waiter := none, gen := none }

/-- Sixteen fresh doublewords: a line whose bytes nothing here fixes. -/
def freshLine (s : State) : State × BitVec 1024 :=
  (List.range 16).foldl (fun (r : State × BitVec 1024) i =>
    let (v, s1) := r.1.fresh
    (s1, r.2 ||| (BitVec.zeroExtend 1024 v <<< (64 * i)))) (s, 0)

/-- What a line of the CSM writes back of uncorrectable granules of its own (R520): a whole granule leaves with fresh check
bits, its data open; part of one is dropped. -/
def soundLine (s : State) (l : CsmLine) : State × CsmLine :=
  if l.badParts l.dirty = [] then (s, l)
  else
    let lost := l.droppedBytes l.dirty
    let whole := (l.badParts l.dirty).foldl (fun m e => if e.1 then m ||| byteMask (32 * e.2) 32 else m) (0 : BitVec 128)
    let (s1, v) := freshLine (badWriteRecords s l l.dirty)
    (s1, { l with val := mergeBytes whole v l.val, valid := l.valid &&& ~~~lost, dirty := l.dirty &&& ~~~lost
                  bad := l.bad &&& ~~~touched l.dirty })

/-- The CSM writes one dirty line to memory (R482, R487, R537): stale or unwritable bytes, and those of an ASID no longer
live, are dropped with a record; bytes of a page that is not resident stay. Answers whether the line is clean now. -/
def writeLineBack (s : State) (l : CsmLine) : State × Bool :=
  let lose (s : State) (kind : Nat) : State × Bool :=
    (csmDrop (dropRecord s kind l.part 0xFFFF l.asid l.agen l.va l.dirty) l.asid l.agen l.va, true)
  if l.dirty = 0 then (s, true)
  else if l.agen ≠ asidGen s l.asid then lose s 8
  else if !asidLive s l.asid then lose s 9
  else
    match translate s (writeReq l.part l.asid l.agen) l.va with
    | (s1, .ok (pa, w, _)) =>
      if w then
        let (s2, l1) := soundLine s1 l
        (csmMod (dramWrite s2 l.part pa l.va l1.dirty l1.val) l.asid l.agen l.va fun _ => { l1 with dirty := 0, w := some true }
          , true)
      else lose s1 9
    | (s1, .error _) => (s1, false)

/-- A line leaves the CSM, its dirty bytes written to memory first; one that waits for its page stays (R487). -/
def leaveCsm (s : State) (l : CsmLine) : State :=
  let (s1, clean) := writeLineBack s l
  if clean then csmDrop s1 l.asid l.agen l.va else s1

/-! ### Slices, ways and banks (R68, R69, R478) -/

/-- Where a line stands in the CSM: the quad of its home slice, its bank VA[10:7], and its set there. A way of 128 KiB has
64 lines in each of the 16 banks. -/
structure CsmPlace where
  quad  : Nat
  bank  : Nat
  set   : Nat
  deriving DecidableEq, Repr

def csmPlace (s : State) (l : CsmLine) : CsmPlace :=
  ⟨homeQuad s l, l.va / 128 % 16, Config.csmIndex l.asid (l.va / 128) % 64⟩

/-- Ways of a slice that serve as last-level cache: those of its 20 that are neither shadow pool nor window. -/
def cacheWays (s : State) (p i : Nat) : Nat :=
  let n := sliceCount s p
  20 - sliceShare (s.part p).shways n i - sliceShare (s.part p).winways n i

def retClass : Ret → Nat | .short => 0 | .default => 1 | .long => 2 | .bypass => 0

/-- Evict the first of some lines that can go: one that waits for its page stays, and another is picked (R487). -/
def evictFirst : List CsmLine → State → State × Bool
  | [], s => (s, false)
  | l :: rest, s =>
    match writeLineBack s l with
    | (s1, true) => (csmDrop s1 l.asid l.agen l.va, true)
    | (s1, false) => evictFirst rest s1

/-- The lines of a set, the first to be evicted first: from the lowest class present, least recently used (R71). -/
def setVictims (s : State) (l : CsmLine) : List CsmLine :=
  let place := csmPlace s l
  sortBy (fun x => retClass x.ret) (s.csm.filter fun x => csmPlace s x == place).reverse

/-- Room for a new line in its set: a free way, or that of a victim (R71). No set has fewer than 4 cache ways (R478). -/
def csmRoom (s : State) (p asid va : Nat) : State × Bool :=
  if s.csm.length < 4 then (s, true)
  else
    let here := setVictims s (newCsmLine p asid 0 va none .short)
    if here.length < cacheWays s p (homeSlice s p asid va) then (s, true) else evictFirst here s

/-- A partition's sets give up the lines beyond their cache ways when these have become fewer (R68, R478). -/
def trimCsm (s : State) (p : Nat) : State :=
  (s.csm.filter fun l => l.part == p).foldl (fun s l =>
    let here := setVictims s l
    if here.length ≤ cacheWays s p (homeSlice s p l.asid l.va) then s else (evictFirst here s).1) s

/-! ### The home bank -/

/-- A plain write at the line's home bank: the generation first, then a present line's W, then the window page in
place; a missing line is taken without a translation, or written through by a bypass store, under the checks of any
translation: what they refuse is dropped as a page with W clear drops it (R71, R75, R486, R505, R537). A write-back
that finds its set full of lines waiting for their pages is written through too, or stands beside them where its own page
is not resident (assumption 111). -/
def bankWrite (s : State) (part asid agen va : Nat) (mask : BitVec 128) (val : BitVec 1024) (ret : Ret) (alloc : Bool) :
    State × Judge :=
  let took (s : State) : State × Judge := (clearRels s asid agen va mask, .accepted)
  if agen ≠ asidGen s asid then (s, .stale)
  else if !asidLive s asid then (s, .dead)
  else
    match csmFind s asid agen va with
    | some l =>
      if l.w = some false then (s, .readonly)
      else if alloc then
        let (s1, l1) := takeIn s l mask val (some ret)
        took (csmPut s1 l1)
      else
        let (s1, l1) := takeIn s l mask val none
        took (csmMod s1 asid agen va fun _ => l1)
    | none =>
      match windowPa s asid va with
      | some (pa, w) => if w then took (windowWrite s part asid pa va mask val) else (s, .readonly)
      | none =>
        let held (s : State) : State × Judge := took (csmPut s ((newCsmLine part asid agen va none ret).take mask val none))
        let through (s : State) : State × Judge :=
          match peekWalk s asid va with
          | .absent _ _ => held s
          | .leaf _ _ _ _ =>
            match translate s (writeReq part asid agen) va with
            | (s1, .ok (pa, w, _)) => if w then took (dramWrite s1 part pa va mask val) else (s1, .readonly)
            | (s1, .error .peer) => held s1
            | (s1, .error _) => (s1, .readonly)
        if alloc then
          match csmRoom s part asid va with
          | (s1, true) => held s1
          | (s1, false) => through s1
        else through s

/-- Stores that a thread's bypass bytes, sent by an order number, held back may be counted out once none of them is left
(R71). -/
def settleOwner (s : State) (t : TRef) (order : Nat) : State :=
  if s.wbs.any fun x => x.owner == some t && x.order ≤ order then s
  else
    { s with stores := mapIf (fun p => p.t == t && p.tracker == 5 && p.seq ≤ order) (fun p => { p with buffered := false })
               s.stores }

/-- A write-back judged at its bank, with the record of a dropped one (R105, R482, R537). A bypass store's bytes are
performed now, and its thread's count may fall. -/
def judgeOf (s : State) (b : WriteBack) : State × Judge :=
  let (s1, j) := bankWrite s b.part b.asid b.agen b.va b.mask b.val b.ret b.alloc
  let s2 := match j with
    | .accepted => s1
    | .stale => dropRecord s1 8 b.part b.core b.asid b.agen b.va b.mask
    | .readonly | .dead => dropRecord s1 9 b.part b.core b.asid b.agen b.va b.mask
  match b.owner with
  | none => (s2, j)
  | some t => (settleOwner s2 t b.order, j)

def judgeWb (s : State) (b : WriteBack) : State := (judgeOf s b).1

/-- Perform the write-backs that satisfy a test, oldest first. -/
def drainWbs (s : State) (p : WriteBack → Bool) : State :=
  let now := s.wbs.filter p
  now.foldl judgeWb { s with wbs := s.wbs.filter fun b => !p b }

/-- Bytes of a physical line whose data is uncorrectable (R520). -/
def badMask (s : State) (pa : Nat) : BitVec 128 :=
  ([0, 1, 2, 3].filter fun g => s.bad.contains (pa / 32 + g)).foldl (fun m g => m ||| byteMask (32 * g) 32) 0

/-- A line fetched from memory, with its dirty bytes kept over it; a page with W clear drops them (R537). Bytes that are
uncorrectable are not taken (R520). -/
def fetchInto (s : State) (r : Req) (va : Nat) (old : Option CsmLine) (pa : Nat) (w : Bool) (ret : Ret) (alloc : Bool) :
    State × CsmLine :=
  let base := match old with | some l => l | none => newCsmLine r.part r.asid r.agen va (some w) ret
  let lost := base.dirty ≠ 0 ∧ w = false
  let s1 := if lost then dropRecord s 9 r.part r.core r.asid r.agen va base.dirty else s
  let keep : BitVec 128 := if lost then 0 else base.dirty
  let (s2, back) := match paKind s1 pa with
    | .peer _ => freshLine s1
    | _ => (s1, dramLine s1 pa)
  (s2, { base with val := mergeBytes keep base.val back, valid := keep ||| ~~~badMask s2 pa, dirty := keep, w := some w
                   bad := base.bad &&& touched keep, ret := if alloc then ret else base.ret })

/-- A read at the home bank of a line, needing the masked bytes (R68, R69, R105, R106, R537). `alloc` false is a bypass
access (R71). A fetch whose set is full of lines waiting for their pages waits (R487). -/
def bankRead (s : State) (r : Req) (va : Nat) (mask : BitVec 128) (ret : Ret) (alloc : Bool) : Mem (BitVec 1024) :=
  let s := drainWbs s fun b => b.core == r.core && b.asid == r.asid && b.agen == r.agen && b.va == va
  if r.agen ≠ asidGen s r.asid then .fail s .stale
  else if !asidLive s r.asid then .fail s .unresolvable
  else
    Mem.bind (touch s r va) fun s _ =>
      let old := csmFind s r.asid r.agen va
      let hit := match old with | some l => mask &&& ~~~l.valid == 0 | none => false
      match old.filter fun l => l.bad &&& touched mask != 0, old, hit with
      | some l, _, _ => .fail s (.uncorrectable va (.slice (homeQuad s l) 0))
      | _, some l, true => .ok (if alloc then csmPut s { l with ret := ret } else s) l.val
      | _, _, _ =>
        Mem.bind (translate s r va) fun s tr =>
          let (pa, w, x) := tr
          if r.access = 4 ∧ !x then .fail (postFault s r.part (refusedRecord s r va)) .protection
          else
            match badGranule s pa mask with
            | some g =>
              .fail s (.uncorrectable va (if paKind s pa = .window then .slice (sliceQuad s r.part r.asid va) (32 * g) else .memory (32 * g)))
            | none =>
              if paKind s pa = .window then
                -- bytes that the CSM holds of it reach the page, or are dropped where it is not writable
                let s1 := match old with
                  | none => s
                  | some l =>
                    if w then windowWrite s r.part r.asid pa va l.dirty l.val
                    else if l.dirty = 0 then s else dropRecord s 9 r.part r.core r.asid r.agen va l.dirty
                .ok (csmDrop s1 r.asid r.agen va) (dramLine s1 pa)
              else if old.isSome then
                let (s1, ln) := fetchInto s r va old pa w ret alloc
                .ok (if alloc then csmPut s1 ln else csmMod s1 r.asid r.agen va fun _ => ln) ln.val
              else if !alloc then
                let (s1, ln) := fetchInto s r va none pa w ret false
                .ok s1 ln.val
              else
                match csmRoom s r.part r.asid va with
                | (s1, true) => let (s2, ln) := fetchInto s1 r va none pa w ret true; .ok (csmPut s2 ln) ln.val
                | (s1, false) =>
                  -- the device's own agents wait for nothing: they are served without a line
                  if r.t.isNone && r.waiter.isNone then let (s2, ln) := fetchInto s1 r va none pa w ret false; .ok s2 ln.val
                  else .fail s1 .csmFull

/-- The W bit that an operation on a line at its bank meets. -/
def lineWritable (s : State) (asid agen va : Nat) : Bool :=
  match csmFind s asid agen va with
  | some l => l.w.getD true
  | none => match peekWalk s asid va with | .leaf _ _ w _ => w | .absent _ _ => true

/-- Open a line for an operation performed at its bank: translated and writable, else the fates of R537. A bypass access
takes no line for it (R71); `need` are the bytes it uses. -/
def bankOpen (s : State) (r : Req) (va : Nat) (need : BitVec 128) (ret : Ret) : Mem (BitVec 1024) :=
  let valid (s : State) (m : BitVec 128) : State := csmMod s r.asid r.agen va fun l => { l with valid := m }
  let judged (res : Mem (BitVec 1024)) : Mem (BitVec 1024) := Mem.bind res fun s v =>
    if lineWritable s r.asid r.agen va then .ok s v
    else .fail (postFault s r.part (refusedRecord s r va)) .protection
  match (csmFind s r.asid r.agen va).filter fun l => l.w.isNone with
  | some l =>
    -- a line taken without a translation is judged now, at its fetch; one that cannot be fetched stays as it is
    match bankRead (valid s 0) r va need ret (ret != .bypass) with
    | (s1, .error e) => .fail (valid s1 l.valid) e
    | res => judged res
  | none => judged (bankRead s r va need ret (ret != .bypass))

/-- Store masked bytes of an opened line, or of the memory behind it where no line stands; `rel` is the release record
the write carries, `keep` that an atomic continues the release chain of the bytes it changes (R83). -/
def bankStore (s : State) (r : Req) (va : Nat) (mask : BitVec 128) (val : BitVec 1024) (rel : Option RelTag) (keep : Bool) :
    State :=
  let s1 := match csmFind s r.asid r.agen va with
    | some l => let (s1, l1) := takeIn s l mask val none; csmMod s1 r.asid r.agen va fun _ => l1
    | none =>
      match peekWalk s r.asid va with
      | .leaf pa _ _ _ =>
        if paKind s pa = .window then windowWrite s r.part r.asid pa va mask val else dramWrite s r.part pa va mask val
      | .absent _ _ => s
  markRel (if keep then s1 else clearRels s1 r.asid r.agen va mask) r.asid r.agen va mask rel

/-! ### Core-side caches -/

/-- The core-side caches of R72, the brick L1 of R73, and the instruction lines. -/
inductive Cache where
  | l1 | tile | const | tex | brick | icache
  deriving DecidableEq, Repr

def Core.lines (c : Core) : Cache → List Line
  | .l1 => c.l1 | .tile => c.tile | .const => c.const | .tex => c.tex | .brick => c.brick | .icache => c.icache

def Core.setLines (c : Core) (k : Cache) (l : List Line) : Core :=
  match k with
  | .l1 => { c with l1 := l } | .tile => { c with tile := l } | .const => { c with const := l }
  | .tex => { c with tex := l } | .brick => { c with brick := l } | .icache => { c with icache := l }

def lines (s : State) (core : Nat) (k : Cache) : List Line := (s.core core).lines k
def setLines (s : State) (core : Nat) (k : Cache) (l : List Line) : State := s.modCore core (·.setLines k l)

def Line.is (l : Line) (asid agen va : Nat) (sp : Option TRef) : Bool :=
  l.asid == asid && l.agen == agen && l.va == va && l.spec == sp

/-- Two lines of one address. -/
def Line.at (l : Line) (asid agen va : Nat) : Bool := l.asid == asid && l.agen == agen && l.va == va

def newLine (asid agen va : Nat) : Line :=
  { asid := asid, agen := agen, va := va, way := 0, val := 0, valid := 0, dirty := 0, spec := none, bypass := false
    ret := .short, writer := none }

/-- Ways the mask gives the L1, and the set of an address (R59, R61). -/
def l1Ways (c : Core) : List Nat := (List.range 16).filter fun i => !c.wayMask.getLsbD i
def l1Set (va : Nat) : Nat := fld va 14 7

/-- Entries of each tracker (R77): 0 L1, 1 constant, 2 sampler, 3 tile of a core, 6 the raster cache of a quad. -/
def trackerCap (k : Nat) : Nat := match k with | 0 => 256 | 1 => 32 | 2 => 128 | 3 => 32 | _ => 64
def cacheTracker : Cache → Nat | .l1 => 0 | .const => 1 | .tex | .brick => 2 | .tile => 3 | .icache => 4

/-- The write-back of a line's dirty bytes on its way to the home bank. -/
def lineWb (core part : Nat) (k : Nat) (l : Line) : WriteBack :=
  { core := core, part := part, asid := l.asid, agen := l.agen, va := l.va, val := l.val, mask := l.dirty
    ret := l.ret, alloc := true, owner := none, order := 0, tracker := k }

def corePart (s : State) (core : Nat) : Nat :=
  match (List.range 100).find? fun i => physQuad s i == core / 4 with
  | some i => quadPart s i
  | none => quadPart s (core / 4)

/-- Lines a cache of a core holds (R72, R73): 16 KiB constant, 16 KiB tile, 32 KiB texture, 512 lines of bricks; the L1
has its ways and sets, and the spec gives the instruction lines no size. -/
def cacheCap : Cache → Option Nat
  | .const | .tile => some 128
  | .tex => some 256
  | .brick => some 512
  | .l1 | .icache => none

/-- Where a line of an address would stand: in a free way, or in that of a line that goes for it. -/
inductive Slot where
  | way (w : Nat)
  | evict (v : Line)
  | full
  deriving DecidableEq, Repr

/-- The place of a new line. In the L1 the lines of one address, the threads' speculative bytes over it among them, stand
in one way (DEDUCED; assumption 27); a new address takes a free way of its set, or that of the least recently used line of
the lowest retention class whose way holds no speculative line (R61, R71). The other caches replace the least recently
used line without speculative bytes over it: their replacement is not architectural (R72; assumption 112). -/
def slotFor (s : State) (core : Nat) (k : Cache) (asid agen va : Nat) : Slot :=
  let ls := lines s core k
  let none? (v : Option Line) : Slot := match v with | some v => .evict v | none => .full
  match k, ls.find? fun x => x.at asid agen va with
  | _, some x => .way x.way
  | .l1, none =>
    let c := s.core core
    let peers := ls.filter fun x => l1Set x.va == l1Set va
    (match (l1Ways c).find? fun w => !peers.any fun x => x.way == w with
     | some w => .way w
     | none => none? (argMin (fun x => retClass x.ret) (peers.filter fun x => !peers.any fun y => y.way == x.way && y.spec.isSome).reverse))
  | _, none =>
    match cacheCap k with
    | none => .way 0
    | some n =>
      if ls.length < n ∨ ((ls.map fun x => (x.asid, x.agen, x.va)).eraseDups).length < n then .way 0
      else none? (ls.reverse.find? fun x => !ls.any fun y => y.at x.asid x.agen x.va && y.spec.isSome)

/-- An access with a hint makes a line, every thread's bytes over it with it, the most recently used, with that hint; a bypass
access changes neither its age nor its hint (R61, R71). -/
def useLine (s : State) (core : Nat) (k : Cache) (asid agen va : Nat) (ret : Ret) : State :=
  if ret = .bypass then s
  else
    let ls := lines s core k
    let here := (ls.filter fun x => x.at asid agen va).map fun x => { x with ret := ret }
    setLines s core k (here ++ ls.filter fun x => !x.at asid agen va)

/-- Allocate a line where `slotFor` says; a dirty victim is written back. Without a place nothing is allocated. -/
def placeLine (s : State) (core : Nat) (k : Cache) (l : Line) : State :=
  match slotFor s core k l.asid l.agen l.va with
  | .full => s
  | .way w => setLines s core k ({ l with way := w } :: lines s core k)
  | .evict v =>
    let rest := (lines s core k).filter fun x => !x.is v.asid v.agen v.va none
    let s1 := setLines s core k ({ l with way := v.way } :: rest)
    if v.dirty = 0 then s1 else { s1 with wbs := s1.wbs ++ [lineWb core (corePart s core) (cacheTracker k) v] }

/-- The place of an access: the core, its cache, the thread's own view and the retention hint. -/
structure Path where
  core  : Nat
  cache : Cache
  t     : TRef
  ret   : Ret
  deriving DecidableEq, Repr

/-- Entries of a tracker in use: loads under way, write-backs, and the bypass bytes that open regions will send (R71,
R77). -/
def trackerUsed (s : State) (core k : Nat) : Nat :=
  let here (c : Nat) : Bool := if k = 6 then coreQuad c == coreQuad core else c == core
  let held (c : Cache) : Nat := ((lines s core c).filter fun l => l.bypass && l.spec.isSome).length
  let load (p : PendLoad) : Nat := (if p.tracker = k then p.lines else 0) + if k = 1 then p.consts else 0
  sumOf ((s.loads.filter fun p => !p.live && waveCore p.t.wave == core).map load)
    + (s.wbs.filter fun b => b.tracker == k && here b.core).length
    + (match k with | 0 => held .l1 | 3 => held .tile | _ => 0)

/-- Whether a tracker has `n` entries free. -/
def trackerRoom (s : State) (core k n : Nat) : Bool := (4 ≤ k && k != 6) || trackerUsed s core k + n ≤ trackerCap k

def trackerFull (s : State) (core k : Nat) : Bool := !trackerRoom s core k 1

/-- Tracker entries that a new line of an address takes for the write-back of its victim. -/
def victimEntry (s : State) (core : Nat) (k : Cache) (asid agen va : Nat) : Nat :=
  match slotFor s core k asid agen va with
  | .evict v => if v.dirty = 0 then 0 else 1
  | _ => 0

/-- A window line: the bank's memory is the page itself, so that no clean copy of it stays in an L1 (R68, R81, R85;
assumption 113). -/
def isWindow (s : State) (asid va : Nat) : Bool := (windowPa s asid va).isSome

/-- Read masked bytes through a core-side cache: the thread's own speculative bytes over the line's valid bytes, and
on a miss the line fetched and merged under its dirty bytes (R62, R72, R107). Answers the line and whether it hit. -/
def cacheRead (s : State) (p : Path) (r : Req) (va : Nat) (mask : BitVec 128) : Mem (BitVec 1024 × Bool) :=
  let ls := lines s p.core p.cache
  let laid := ls.find? fun l => l.is r.asid r.agen va (some p.t)
  let base := ls.find? fun l => l.is r.asid r.agen va none
  let od : BitVec 128 := match laid with | some l => l.dirty | none => 0
  let ov : BitVec 1024 := match laid with | some l => l.val | none => 0
  let bv : BitVec 128 := match base with | some l => l.valid | none => 0
  let bl : BitVec 1024 := match base with | some l => l.val | none => 0
  if mask &&& ~~~(od ||| bv) = 0 then
    .ok (useLine s p.core p.cache r.asid r.agen va p.ret) (mergeBytes od ov bl, true)
  else
    let alloc := p.ret != .bypass
    let entries := 1 + if alloc && base.isNone then victimEntry s p.core p.cache r.asid r.agen va else 0
    if !trackerRoom s p.core (cacheTracker p.cache) entries then .fail s (.trackerRoom (cacheTracker p.cache))
    else
      Mem.bind (bankRead s r va (mask &&& ~~~(od ||| bv)) p.ret alloc) fun s back =>
        let keep : BitVec 128 := match base with | some l => l.dirty | none => 0
        let got : BitVec 128 := match csmFind s r.asid r.agen va with | some l => l.valid | none => mask
        let v := mergeBytes keep bl back
        let s1 :=
          if p.cache = .l1 ∧ isWindow s r.asid va then s
          else
            match base with
            | some l =>
              let l1 := { l with val := mergeBytes (keep ||| (bv &&& ~~~got)) bl back, valid := l.valid ||| got }
              setLines s p.core p.cache (mapIf (·.is r.asid r.agen va none) (fun _ => l1) (lines s p.core p.cache))
            | none =>
              if alloc then placeLine s p.core p.cache { newLine r.asid r.agen va with val := v, valid := got, ret := p.ret }
              else s
        .ok (useLine s1 p.core p.cache r.asid r.agen va p.ret) (mergeBytes od ov v, false)

/-- Room for a further speculative line of a block: the lines at whose addresses its threads hold speculative bytes
take at most half of its L1 ways, rounded down, and a line at a new address needs a way without a speculative line
(R61, R63, R110; assumption 27). -/
def specRoom (s : State) (p : Path) (r : Req) (va : Nat) : Bool :=
  match p.cache with
  | .l1 =>
    let c := s.core p.core
    let held := c.l1.filter fun x => l1Set x.va == l1Set va && x.spec.isSome
    let mine := held.filter fun x => (match x.spec with
      | some t => (s.wave t.wave).block == (s.wave p.t.wave).block
      | none => false)
    let here (x : Line) : Bool := x.at r.asid r.agen va
    let others := (mine.filter fun x => !here x).map (·.way)
    others.eraseDups.length + 1 ≤ (l1Ways c).length / 2 &&
      (held.any here || (held.map (·.way)).eraseDups.length < (l1Ways c).length)
  | k => slotFor s p.core k r.asid r.agen va != .full

/-- A line with a store's bytes; a bypass store leaves a line's hint (R71). -/
def Line.store (l : Line) (p : Path) (mask : BitVec 128) (val : BitVec 1024) : Line :=
  { l with val := mergeBytes mask val l.val, valid := l.valid ||| mask, dirty := l.dirty ||| mask
           ret := if p.ret = .bypass then l.ret else p.ret, writer := some p.t }

/-- A bypass store that misses: its bytes leave for the home bank when its region ends (R71). -/
def leavesCore (s : State) (p : Path) (r : Req) (va : Nat) : Bool :=
  let ls := lines s p.core p.cache
  p.ret == .bypass && match ls.find? fun l => l.is r.asid r.agen va (some p.t) with
    | some l => l.bypass
    | none => !ls.any fun l => l.at r.asid r.agen va && !l.bypass

/-- Hold a store's bytes as speculative dirty bytes of its region (R62, R63, R71, R107). Bytes of a bypass store that
misses take the tracker entry at once with which the end of the region sends them (R77); those of one that hits stand with
the line that is there, at its age and with its hint. -/
def cacheWrite (s : State) (p : Path) (r : Req) (va : Nat) (mask : BitVec 128) (val : BitVec 1024) : Mem Unit :=
  let ls := lines s p.core p.cache
  match ls.find? fun l => l.is r.asid r.agen va (some p.t) with
  | some l =>
    let l1 := { l.store p mask val with bypass := l.bypass && p.ret == .bypass }
    let s1 := setLines s p.core p.cache (mapIf (·.is r.asid r.agen va (some p.t)) (fun _ => l1) ls)
    .ok (useLine s1 p.core p.cache r.asid r.agen va p.ret) ()
  | none =>
    let there := ls.find? fun l => l.at r.asid r.agen va && !l.bypass
    let away := leavesCore s p r va
    let entries := victimEntry s p.core p.cache r.asid r.agen va + if away then 1 else 0
    if !specRoom s p r va then .fail s .specRoom
    else if entries != 0 && !trackerRoom s p.core (cacheTracker p.cache) entries then .fail s (.trackerRoom (cacheTracker p.cache))
    else
      let l : Line := { newLine r.asid r.agen va with ret := p.ret, spec := some p.t, bypass := away }
      match p.ret, there with
      | .bypass, some b =>
        let l1 := { l.store p mask val with way := b.way, ret := b.ret }
        .ok (setLines s p.core p.cache (putBefore (·.at r.asid r.agen va) l1 ls)) ()
      | _, _ =>
        let s1 := placeLine s p.core p.cache (l.store p mask val)
        .ok (useLine s1 p.core p.cache r.asid r.agen va p.ret) ()

/-- Room in the tracker for what `cacheStore` may send. -/
def storeRoom (s : State) (p : Path) (r : Req) (va : Nat) : Bool :=
  if (lines s p.core p.cache).any fun l => l.is r.asid r.agen va none then true
  else
    match (if p.ret = .bypass then .full else slotFor s p.core p.cache r.asid r.agen va) with
    | .way _ => true
    | .evict v => v.dirty == 0 || trackerRoom s p.core (cacheTracker p.cache) 1
    | .full => trackerRoom s p.core (cacheTracker p.cache) 1

/-- A store by a side-effecting instruction: its bytes are ordinary dirty bytes at once; a bypass miss, or a set
without a victim, sends them to the home bank (R62, R71, R108). Answers whether they were sent. -/
def cacheStore (s : State) (p : Path) (part : Nat) (r : Req) (va : Nat) (mask : BitVec 128) (val : BitVec 1024) :
    State × Bool :=
  let ls := lines s p.core p.cache
  let fresh := (newLine r.asid r.agen va).store p mask val
  match ls.find? fun l => l.is r.asid r.agen va none with
  | some l =>
    let s1 := setLines s p.core p.cache (mapIf (·.is r.asid r.agen va none) (fun _ => l.store p mask val) ls)
    (useLine s1 p.core p.cache r.asid r.agen va p.ret, false)
  | none =>
    let s1 := if p.ret = .bypass then s
      else useLine (placeLine s p.core p.cache fresh) p.core p.cache r.asid r.agen va p.ret
    if (lines s1 p.core p.cache).any fun l => l.is r.asid r.agen va none then (s1, false)
    else
      let b := { lineWb p.core part (cacheTracker p.cache) fresh with
                 ret := p.ret, alloc := p.ret != .bypass, owner := some p.t, order := s1.seq }
      ({ s1 with wbs := s1.wbs ++ [b] }, true)

/-- Bytes written at the home bank by the core itself: a present line of its cache takes them as clean bytes. -/
def cachePatch (s : State) (core : Nat) (k : Cache) (asid agen va : Nat) (mask : BitVec 128) (val : BitVec 1024) : State :=
  setLines s core k (mapIf (·.is asid agen va none)
    (fun l => { l with val := mergeBytes mask val l.val, valid := l.valid ||| mask, dirty := l.dirty &&& ~~~mask }) (lines s core k))

/-- One speculative line becomes ordinary dirty bytes of the line beneath, or a line of its own, with the age and the hint of
its last access; or it leaves for its home bank where a bypass store has found none (R61, R71, R108). -/
def commitLine (core part : Nat) (k : Cache) (s : State) (l : Line) : State :=
  let ls := lines s core k
  let same (x : Line) : Bool := x.is l.asid l.agen l.va l.spec || x.is l.asid l.agen l.va none
  match ls.find? fun x => x.is l.asid l.agen l.va none with
  | some b =>
    let b1 := { b with val := mergeBytes l.dirty l.val b.val, valid := b.valid ||| l.dirty, dirty := b.dirty ||| l.dirty
                       writer := l.writer }
    setLines s core k (putFirst same b1 ls)
  | none =>
    if l.bypass then
      let b := { lineWb core part (cacheTracker k) l with alloc := false, owner := l.spec, order := s.seq }
      { setLines s core k (ls.filter fun x => !same x) with wbs := s.wbs ++ [b] }
    else setLines s core k (putFirst same { l with spec := none } ls)

def specLines (s : State) (core : Nat) (k : Cache) (t : TRef) : List Line :=
  (lines s core k).filter fun l => l.spec == some t

/-- The end of a thread's region on the caches (R108). -/
def commitSpec (s : State) (t : TRef) : State :=
  let core := waveCore t.wave
  let part := threadPart s t
  let s1 := (specLines s core .l1 t).foldl (commitLine core part .l1) s
  let s2 := (specLines s1 core .tile t).foldl (commitLine core part .tile) s1
  settleOwner s2 t s2.seq

/-- Discard a thread's speculative bytes (R109). -/
def discardSpec (s : State) (t : TRef) : State :=
  let core := waveCore t.wave
  let s1 := setLines s core .l1 ((lines s core .l1).filter fun l => l.spec != some t)
  setLines s1 core .tile ((lines s1 core .tile).filter fun l => l.spec != some t)

/-! ### Write-back (R62, R80, R92, R105, R358, R537) -/

/-- What a line keeps of bytes that its bank has judged: accepted ones become clean; a dropped write's bytes are no longer
valid anywhere (R86, R105), and the L1 keeps no clean byte of a window line. -/
def Line.sent (l : Line) (mask : BitVec 128) (stays : Bool) : Line :=
  { l with dirty := l.dirty &&& ~~~mask, valid := if stays then l.valid else l.valid &&& ~~~mask }

def settleSent (core : Nat) (k : Cache) (s : State) (l : Line) (mask : BitVec 128) (j : Judge) : State :=
  let stays := j == .accepted && !(k == .l1 && isWindow s l.asid l.va)
  setLines s core k ((mapIf (·.is l.asid l.agen l.va none) (fun x => x.sent mask stays) (lines s core k)).filter
    fun x => x.spec.isSome || x.valid != 0)

/-- Older write-backs of a core's line reach the bank before a newer one of it. -/
def drainLine (s : State) (core : Nat) (l : Line) : State :=
  drainWbs s fun b => b.core == core && b.asid == l.asid && b.agen == l.agen && b.va == l.va

/-- Dirty bytes of a line are written back now and judged, with the record of a drop. -/
def sendLine (core part : Nat) (k : Cache) (s : State) (l : Line) (mask : BitVec 128) : State :=
  let (s1, j) := judgeOf (drainLine s core l) { lineWb core part (cacheTracker k) l with mask := mask }
  settleSent core k s1 l mask j

/-- Write back some ordinary dirty lines of a core's cache. -/
def writeBack (s : State) (core : Nat) (k : Cache) (p : Line → Bool) : State :=
  let hit (l : Line) : Bool := l.spec.isNone && l.dirty != 0 && p l
  ((lines s core k).filter hit).foldl (fun s l => sendLine core (corePart s core) k s l l.dirty) s

/-- A release's write-back fault (R112): the values of trap 0x1A (R481). -/
structure WbFault where
  va    : Nat
  mask  : BitVec 64
  extra : BitVec 64
  deriving DecidableEq, Repr

/-- The packed name of a line's last writer (R481). -/
def writerName (l : Line) : BitVec 64 :=
  match l.writer with
  | none => 0
  | some t => q (t.lane + 2 ^ 5 * waveSlot t.wave + 2 ^ 8 * waveLs t.wave + 2 ^ 9 * waveCore t.wave)

/-- Write one line's dirty bytes to its bank for a release and wait for the acknowledgement; refused ones stay dirty. -/
def flushLine (core part : Nat) (k : Cache) (r : State × Option WbFault) (l : Line) : State × Option WbFault :=
  match r.2 with
  | some _ => r
  | none =>
    let s := drainLine r.1 core l
    match bankWrite s part l.asid l.agen l.va l.dirty l.val l.ret true with
    | (s1, .accepted) => (settleSent core k s1 l l.dirty .accepted, none)
    | (s1, .stale) => (settleSent core k (dropRecord s1 8 part core l.asid l.agen l.va l.dirty) l l.dirty .stale, none)
    | (s1, .dead) => (settleSent core k (dropRecord s1 9 part core l.asid l.agen l.va l.dirty) l l.dirty .dead, none)
    | (s1, .readonly) =>
      let low : BitVec 64 := l.dirty.extractLsb' 0 64
      (s1, some ⟨if low ≠ 0 then l.va else l.va + 64, if low ≠ 0 then low else l.dirty.extractLsb' 64 64, writerName l⟩)

/-- Write back the ordinary dirty bytes of a core's cache (R80 step 3). -/
def flushCache (core part : Nat) (k : Cache) (r : State × Option WbFault) : State × Option WbFault :=
  ((lines r.1 core k).filter fun l => l.spec.isNone && l.dirty != 0).foldl (flushLine core part k) r

/-- A line of a peer's memory (R505). -/
def peerLine (s : State) (l : CsmLine) : Bool :=
  match peekWalk s l.asid l.va with
  | .leaf pa _ _ _ => (match paKind s pa with | .peer _ => true | _ => false)
  | _ => false

/-- Step 4 of a release at system scope (R80): the bytes of peer lines reach their owners. -/
def forwardPeers (s : State) : State :=
  (s.csm.filter fun l => l.dirty != 0 && peerLine s l).foldl (fun s l => (writeLineBack s l).1) s

/-- Bytes of an address space that no peer has taken: the peer's ports have failed, or its entry was cleared (R506). -/
def peerStuck (s : State) (asid : Nat) : Bool := s.csm.any fun l => l.dirty != 0 && l.asid == asid && peerLine s l

/-- Steps 3 and 4 of a release at cluster scope or wider (R80): the write-backs under way are performed, every dirty
byte of the L1 and the tile cache reaches its bank, and at system scope the bytes of peer lines reach their owners. -/
def releaseCaches (s : State) (core : Nat) (scope : Scope) : State × Option WbFault :=
  let part := corePart s core
  let s1 := drainWbs s fun b => b.core == core
  let r := flushCache core part .tile (flushCache core part .l1 (s1, none))
  match r.2, scope with
  | none, .system => (forwardPeers r.1, none)
  | _, _ => r

/-! ### Invalidation (R81, R84, R92) -/

/-- Invalidate the clean bytes of a core's cache; window lines of the L1 stay (R81). -/
def invalidateClean (s : State) (core : Nat) (k : Cache) (keepWindow : Bool) : State :=
  let keep (l : Line) : Bool := l.spec.isSome || (keepWindow && isWindow s l.asid l.va)
  setLines s core k (((lines s core k).map fun l => if keep l then l else { l with valid := l.dirty }).filter
    fun l => keep l || l.dirty != 0)

/-- The generic invalidation of an acquire (R81), with a peer's clean CSM lines at system scope. -/
def acquireGeneric (s : State) (core : Nat) (scope : Scope) : State :=
  match scope with
  | .cluster | .device => invalidateClean s core .l1 true
  | .system =>
    let s1 := invalidateClean s core .l1 true
    { s1 with csm := s1.csm.filter fun l => l.dirty != 0 || !peerLine s1 l }
  | _ => s

/-! ### The raster cache of a quad (R72, R77, R92) -/

/-- Lines of a raster cache by address: 64 KiB. -/
def rasterAddresses (s : State) (quad : Nat) : List (Nat × Nat × Nat) :=
  ((s.raster.get [] quad).map fun e => (e.2.asid, e.2.agen, e.2.va)).eraseDups

/-- What a new line of the raster cache displaces: the least recently written address, as entries of the cores that wrote
it (assumption 112). -/
def rasterVictims (s : State) (quad asid agen va : Nat) : List (Nat × Line) :=
  let all := s.raster.get [] quad
  if all.length < 512 ∨ all.any (fun e => e.2.at asid agen va) ∨ (rasterAddresses s quad).length < 512 then []
  else
    match all.reverse with
    | [] => []
    | v :: _ => all.filter fun e => e.2.at v.2.asid v.2.agen v.2.va

/-- Requests that a raster write sends: 64 at a time in a quad (R77). -/
def rasterRoom (s : State) (core asid agen va : Nat) : Bool :=
  let n := ((rasterVictims s (coreQuad core) asid agen va).filter fun e => e.2.dirty != 0).length
  n == 0 || trackerRoom s core 6 n

/-- Write bytes into the quad's raster cache, as bytes of the writing core: the one copy of them there (R72, R92). -/
def rasterWrite (s : State) (t : TRef) (r : Req) (line : Nat) (mask : BitVec 128) (val : BitVec 1024) : State :=
  let core := waveCore t.wave
  let quad := coreQuad core
  let gone := rasterVictims s quad r.asid r.agen line
  let sent := (gone.filter fun e => e.2.dirty != 0).map fun e => lineWb e.1 (corePart s e.1) 6 e.2
  let old := (s.raster.get [] quad).filter fun e => !gone.contains e
  let mine (e : Nat × Line) : Bool := e.1 == core && e.2.is r.asid r.agen line none
  let base := match old.find? mine with | some e => e.2 | none => newLine r.asid r.agen line
  let ln := { base with val := mergeBytes mask val base.val, valid := base.valid ||| mask, dirty := base.dirty ||| mask
                        writer := some t }
  let others := (mapIf (fun e => e.2.at r.asid r.agen line) (fun e => (e.1, e.2.sent mask false))
    (old.filter fun e => !mine e)).filter fun e => e.2.valid != 0
  { s with raster := s.raster.put quad ((core, ln) :: others), wbs := s.wbs ++ sent }

/-- Clean raster-cache bytes that a core wrote (R84, R92). -/
def invalidateRaster (s : State) (core : Nat) : State :=
  let f (l : List (Nat × Line)) : List (Nat × Line) :=
    (l.map fun e => if e.1 = core then (e.1, { e.2 with valid := e.2.dirty }) else e).filter
      fun e => e.1 != core || e.2.dirty != 0
  { s with raster := s.raster.modify (coreQuad core) f }

/-- Raster bytes of a core are written back now and judged. -/
def sendRaster (core part : Nat) (s : State) (l : Line) (mask : BitVec 128) : State :=
  let (s1, j) := judgeOf (drainLine s core l) { lineWb core part 6 l with mask := mask }
  let f (es : List (Nat × Line)) : List (Nat × Line) :=
    (mapIf (fun e => e.1 == core && e.2.is l.asid l.agen l.va none) (fun e => (e.1, e.2.sent mask (j == .accepted))) es).filter
      fun e => e.2.valid != 0
  { s1 with raster := s1.raster.modify (coreQuad core) f }

/-- Write back the raster-cache bytes that a core wrote (R92). -/
def flushRaster (s : State) (core part : Nat) : State :=
  let mine := ((s.raster.get [] (coreQuad core)).filter fun e => e.1 == core && e.2.dirty != 0).map Prod.snd
  mine.foldl (fun s l => sendRaster core part s l l.dirty) (drainWbs s fun b => b.core == core && b.tracker == 6)

/-- An acquire over every path (R84). -/
def acquireAll (s : State) (core : Nat) (scope : Scope) : State :=
  let s1 := acquireGeneric s core scope
  let s2 := [Cache.const, .tex, .brick, .tile].foldl (fun s k => invalidateClean s core k false) s1
  invalidateRaster s2 core

/-! ### Lines the race detector watches -/

/-- The stamps of a line live with it (R115): while the CSM or the window holds it, or a core has bytes on their way. -/
def lineHeld (s : State) (asid agen va : Nat) : Bool :=
  let dirty (l : Line) : Bool := l.at asid agen va && l.dirty != 0
  (csmFind s asid agen va).isSome || isWindow s asid va
    || s.cores.any (fun e => e.2.l1.any dirty) || s.wbs.any fun b => b.asid == asid && b.agen == agen && b.va == va

/-- The stamps of lines that have left are lost (R115). -/
def loseStamps (s : State) : State :=
  match s.raceLines with
  | [] => s
  | ls =>
    let lose (l : RaceLine) : RaceLine := if lineHeld s l.asid l.agen l.va then l else { l with writes := [], reads := [] }
    { s with raceLines := (ls.map lose).filter fun l => l.writes != [] || l.reads != [] || l.rels != [] }

/-! ### Engine-path and device-side access to virtual memory, of any length -/

/-- Bytes from a virtual address, read at their home banks, line by line (the engine path of R72). -/
def vread (ret : Ret) (s : State) (r : Req) : Nat → Nat → Nat → Mem (List Byte)
  | 0, _, _ => .ok s []
  | _, _, 0 => .ok s []
  | fuel + 1, va, n =>
    let line := va / 128 * 128
    let o := va % 128
    let m := min n (128 - o)
    Mem.bind (bankRead s r line (byteMask o m) ret (ret != .bypass)) fun s v =>
      Mem.bind (vread ret s r fuel (va + m) (n - m)) fun s rest => .ok s (toBytes m (lineGet v o m) ++ rest)

/-- With a retention hint, as copy records carry one (R71). -/
def readHinted (ret : Ret) (s : State) (r : Req) (va n : Nat) : Mem (List Byte) := vread ret s r (n / 128 + 2) va n
def readBytes (s : State) (r : Req) (va n : Nat) : Mem (List Byte) := readHinted .default s r va n
/-- A little-endian value of `n` bytes. -/
def readVal (s : State) (r : Req) (va n : Nat) : Mem Nat := Mem.bind (readBytes s r va n) fun s b => .ok s (ofBytes b)

/-- Write bytes at their home banks as a copy engine does: an open bank refuses as R537 says. -/
def vwrite (ret : Ret) (s : State) (r : Req) : Nat → Nat → List Byte → Mem Unit
  | 0, _, _ => .ok s ()
  | _, _, [] => .ok s ()
  | fuel + 1, va, bs =>
    let line := va / 128 * 128
    let o := va % 128
    let m := min bs.length (128 - o)
    if r.agen ≠ asidGen s r.asid then .fail s .stale
    else if !asidLive s r.asid then .fail s .unresolvable
    else
      Mem.bind (touch s r line) fun s _ =>
        match csmFind s r.asid r.agen line with
        | some l =>
          if l.w = some false then .fail s .protection
          else
            let (s1, _) := bankWrite s r.part r.asid r.agen line (byteMask o m) (linePut o (ofBytes (bs.take m))) ret (ret != .bypass)
            vwrite ret s1 r fuel (va + m) (bs.drop m)
        | none =>
          Mem.bind (translate s r line) fun s tr =>
            if tr.2.1 = false then .fail s .protection
            else
              let (s1, _) := bankWrite s r.part r.asid r.agen line (byteMask o m) (linePut o (ofBytes (bs.take m))) ret (ret != .bypass)
              vwrite ret s1 r fuel (va + m) (bs.drop m)

def writeHinted (ret : Ret) (s : State) (r : Req) (va : Nat) (bs : List Byte) : Mem Unit :=
  vwrite ret s r (bs.length / 128 + 2) va bs
def writeBytes (s : State) (r : Req) (va : Nat) (bs : List Byte) : Mem Unit := writeHinted .default s r va bs

/-- The request of the device's own agents in an address space (front-end, slot table, trust core). -/
def agentReq (s : State) (part asid access : Nat) : Req :=
  { t := none, core := 0xFFFF, part := part, asid := asid, agen := asidGen s asid, access := access
    aborts := false, waiter := none, gen := none }

/-- A ring record written in the CSM window of the partition's management context; an unmapped window drops it. -/
def ringWrite (s : State) (p : Nat) (va : Nat) (bs : List Byte) : State :=
  match writeBytes s (agentReq s p (s.part p).mgmtAsid 1) va bs with
  | (s1, .ok _) => s1
  | (_, .error _) => s

def ringRead (s : State) (p va n : Nat) : Nat :=
  match readVal s (agentReq s p (s.part p).mgmtAsid 0) va n with
  | (_, .ok v) => v
  | (_, .error _) => 0

end Sys2Proof.Machine
end

