-- ==== Sys2Proof/WellFormed.lean ====
section
/-! DEFINITION. Well-formedness of an instruction as syntax: the trap-0x01 checks of R248-R263 step 2 that its fields
alone decide, each with a name. `Instr.uses` is the spec's encoding tables (R275, R309, R329, R348, R380, R403) as
data: which fields an instruction reads, at which type, width and alignment. -/

namespace Sys2Proof

/-- Why an instruction is ill formed; each raises trap 0x01 at decode (R263 step 2). -/
inductive WfError where
  | unassignedOpcode | reservedBits | unusedField | guard | typ | file | regNumber | oddPair
  | misaligned | modifier | permField | clamp | xf | imm | ordering | scope | count | uniform
  deriving DecidableEq, Repr

/-- One register or value operand that an instruction reads: its field, the type it is read at (R222, R238), how
many consecutive registers it covers, the alignment of its number, the files it may stand in, whether NEG and ABS
and the crossbar may act on it. -/
structure SrcUse where
  s     : Src
  ty    : Ty
  n     : Nat
  align : Nat
  files : List SFile
  mods  : Bool
  xbar  : Bool
  deriving DecidableEq, Repr

/-- Which CLP and SCL codes a destination takes (R230). -/
inductive ClampRule where
  | arith     -- R230 for the type
  | clampOnly -- R230 for CLP, SCL zero (R277)
  | zero      -- both zero
  deriving DecidableEq, Repr

/-- The destination an instruction writes. -/
structure DstUse where
  d     : Dst
  ty    : Ty
  n     : Nat
  align : Nat
  files : List DFile
  clamp : ClampRule
  deriving DecidableEq, Repr

/-- Whose registers the first source is read in: the thread's own or its crossbar's; those of a lane that an operand names
(R342); or those of the thread and of its quad (R409). -/
inductive LaneUse where
  | own
  | pick (lane : Src)
  | quad
  deriving DecidableEq, Repr

/-- What an instruction's encoding row says of its fields. -/
structure Uses where
  typs   : List Ty
  unused : Bool
  srcs   : List SrcUse
  dst    : Option DstUse
  extra  : List (Bool × WfError)
  lanes  : LaneUse := .own
  deriving DecidableEq, Repr

/-- Types that take two registers (R220). -/
def Ty.is64 : Ty → Bool
  | .f64 | .i64 | .n64 | .b64 => true
  | _ => false

def Ty.isFloat : Ty → Bool
  | .f32 | .f64 | .f16x2 | .bf16x2 => true
  | _ => false

/-- Types 'without arithmetic meaning' (R220, R222). -/
def Ty.isBits : Ty → Bool
  | .b32 | .b64 | .b8 | .b16 => true
  | _ => false

def Ty.regs (t : Ty) : Nat := if t.is64 then 2 else 1

def Dst.zero : Dst := ⟨0, 0, .v, 0⟩
def Src.zero : Src := ⟨false, false, 0, .none, .v, 0⟩

/-- A source that is plain: no crossbar, no modifiers. -/
def Src.plain (s : Src) : Bool := !s.abs && !s.neg && s.param == 0 && s.perm == .none

def Cnt.val : Cnt → Nat
  | .one => 1 | .two => 2 | .four => 4 | .eight => 8

def allFiles : List SFile := [.v, .k, .c, .x]

/-- An ordinary operand at type `t`. -/
def SrcUse.at (s : Src) (t : Ty) : SrcUse := ⟨s, t, t.regs, t.regs, allFiles, !t.isBits, true⟩
/-- An operand of `n` consecutive registers without modifiers or crossbar (R404). -/
def SrcUse.block (s : Src) (files : List SFile) (n align : Nat) : SrcUse := ⟨s, .b32, n, align, files, false, false⟩
/-- An even pair in file v or k, holding an address or a 64-bit value. -/
def SrcUse.pair (s : Src) : SrcUse := ⟨s, .b64, 2, 2, [.v, .k], false, true⟩
/-- An interval or affine operand (R331): aligned, NEG allowed, ABS not. -/
def SrcUse.bound (s : Src) (n : Nat) : SrcUse := ⟨s, .f32, n, if n = 3 then 4 else 2, [.v, .k, .x], true, true⟩

def DstUse.at (d : Dst) (t : Ty) (c : ClampRule) : DstUse := ⟨d, t, t.regs, t.regs, [.v, .k], c⟩
def DstUse.vec (d : Dst) (n align : Nat) : DstUse := ⟨d, .b32, n, align, [.v], .zero⟩

def tyInt : List Ty := [.i32, .n32, .i16x2, .n16x2, .i8x4, .n8x4, .i64, .n64]
def tyBit : List Ty := [.b32, .b64]
def tyFlt : List Ty := [.f32, .f16x2, .bf16x2, .f64]
def tyHalf : List Ty := [.f32, .f16x2, .bf16x2]
def tyPk : List Ty := [.i16x2, .n16x2, .i8x4, .n8x4]
def tyMem : List Ty := [.b32, .b64, .b8, .b16]
def tyCmp : List Ty := [.i32, .n32, .i64, .n64]

def Ty.ofBits (b : BitVec 4) : Ty :=
  match b.toNat with
  | 0 => .b32 | 1 => .i32 | 2 => .n32 | 3 => .f32 | 4 => .f16x2 | 5 => .bf16x2 | 6 => .i16x2 | 7 => .n16x2
  | 8 => .i8x4 | 9 => .n8x4 | 10 => .f64 | 11 => .i64 | 12 => .n64 | 13 => .b64 | 14 => .b8 | _ => .b16

def Ty.toBits : Ty → BitVec 4
  | .b32 => 0 | .i32 => 1 | .n32 => 2 | .f32 => 3 | .f16x2 => 4 | .bf16x2 => 5 | .i16x2 => 6 | .n16x2 => 7
  | .i8x4 => 8 | .n8x4 => 9 | .f64 => 10 | .i64 => 11 | .n64 => 12 | .b64 => 13 | .b8 => 14 | .b16 => 15

/-- The source type that SRC B of a conversion names (R318). -/
def convSource (b : Src) : Option Ty :=
  if b.file = .x ∧ b.plain ∧ 0xA0 ≤ b.num.toNat ∧ b.num.toNat ≤ 0xAF then
    some (Ty.ofBits (BitVec.ofNat 4 (b.num.toNat - 0xA0)))
  else none

/-- SRC C as the inline element selector 0 or 1 (R318). -/
def Src.selector (c : Src) : Bool := c.file == .x && c.plain && (c.num == 0xA0 || c.num == 0xA1)

/-- The shift amount's own type: 32 bits for 32- and 64-bit TYP (R276), else the packing of TYP (R303). -/
def Ty.shiftAmount : Ty → Ty
  | .i64 => .i32 | .n64 => .n32 | .b64 => .b32 | t => t

/-- Types each atomic operation accepts (R360), by XF. -/
def atomTypes (xf : BitVec 4) : List Ty :=
  match xf.toNat with
  | 0 | 1 | 2 | 3 => [.i32, .n32, .i64, .n64]
  | 4 | 5 | 6 => [.b32, .b64, .i32, .n32, .i64, .n64]
  | 7 => [.b32, .b64, .i32, .n32, .i64, .n64, .f32]
  | 8 | 9 => [.n32, .n64]
  | 10 | 11 | 12 => [.f32, .f16x2, .bf16x2]
  | _ => []

/-- Types each scan or reduction operation accepts (R344), by XF[2:0]. -/
def scanTypes (op : BitVec 3) : List Ty :=
  match op.toNat with
  | 0 | 1 | 2 => [.i32, .n32, .i64, .n64]
  | 3 | 4 | 5 => [.b32, .b64]
  | 6 => [.f32]
  | _ => []

namespace Uses

/-- R-format row: accepted types, which of DST, A, B, C are read, the XF bits in use, and the operands. -/
def r (f : RForm) (typs : List Ty) (d a b c : Bool) (xfMask : BitVec 4) (dst : Option DstUse) (srcs : List SrcUse)
    (extra : List (Bool × WfError) := []) : Uses :=
  { typs := typs
    unused := (d || f.dst == .zero) && (a || f.a == .zero) && (b || f.b == .zero) && (c || f.c == .zero)
      && (f.xf &&& ~~~xfMask) == 0
    srcs := srcs, dst := dst, extra := extra }

/-- I-format row. -/
def i (f : IForm) (typs : List Ty) (d a imm : Bool) (xfMask : BitVec 4) (dst : Option DstUse) (srcs : List SrcUse)
    (extra : List (Bool × WfError) := []) : Uses :=
  { typs := typs
    unused := (d || f.dst == .zero) && (a || f.a == .zero) && (imm || f.imm == 0) && (f.xf &&& ~~~xfMask) == 0
    srcs := srcs, dst := dst, extra := extra }

/-- S-format row; `immMask` is the part of IMM20 in use. -/
def sf (f : SForm) (d a b : Bool) (immMask : BitVec 20) (xfMask : BitVec 4) (dst : Option DstUse)
    (srcs : List SrcUse) (extra : List (Bool × WfError) := []) : Uses :=
  { typs := [.b32]
    unused := (d || f.dst == .zero) && (a || f.a == .zero) && (b || f.b == .zero)
      && (f.imm &&& ~~~immMask) == 0 && (f.xf &&& ~~~xfMask) == 0
    srcs := srcs, dst := dst, extra := extra }

/-- The BASE operand: an even pair for a generic address, one register for a local one (R259). -/
def base (f : MForm) (isLocal : Bool) : SrcUse :=
  ⟨f.base, if isLocal then .b32 else .b64, if isLocal then 1 else 2, if isLocal then 1 else 2, [.v, .k], false, false⟩

/-- The part of a memory row that bounds TYP, CNT and DAT: registers moved and their alignment (R259, R351). -/
def memRegs (f : MForm) : Nat := f.cnt.val

def memCount (f : MForm) : Bool :=
  match f.h.typ with
  | .b8 | .b16 => f.cnt == .one
  | .b64 => f.cnt != .one
  | _ => true

def loadDst (f : MForm) : DstUse := ⟨f.dat, .b32, memRegs f, memRegs f, [.v, .k], .zero⟩

/-- DAT as a store source, in file v or k. -/
def datSrc (f : MForm) (n : Nat) : SrcUse :=
  ⟨⟨false, false, 0, .none, (match f.dat.file with | .v => .v | .k => .k | .c => .c), f.dat.num⟩,
    .b32, n, n, [.v, .k], false, false⟩

def datPlain (f : MForm) : Bool × WfError := (f.dat.clp == 0 && f.dat.scl == 0, .clamp)

end Uses

open Uses

def ordIn (o : Ord) (l : List Ord) : Bool × WfError := (l.contains o, .ordering)
def localScope (s : Scope) : Bool × WfError := (s != .device && s != .system, .scope)

/-- The rows for loads and stores (R348, R352). -/
def memUses (f : MForm) (isLocal load : Bool) (typs : List Ty) (ret : Bool) (ords : List Ord) (scp : Bool × WfError) :
    Uses :=
  { typs := typs
    unused := f.xf == 0 && (ret || f.ret == .short)
    srcs := base f isLocal :: if load then [] else [datSrc f (memRegs f)]
    dst := if load then some (loadDst f) else none
    extra := [datPlain f, (memCount f, .count), ordIn f.ord ords, scp] }

/-- The rows for atomics (R360-R365): `n` registers of DAT, which must be in file v where the old value returns to it. -/
def atomUses (f : MForm) (isLocal ret xf : Bool) (n : Nat) (vOnly : Bool) (typs : List Ty) (cnt : Bool) : Uses :=
  { typs := typs
    unused := (ret || f.ret == .short) && (xf || f.xf == 0)
    srcs := [base f isLocal, datSrc f n]
    dst := if vOnly then some ⟨f.dat, .b32, f.h.typ.regs, f.h.typ.regs, [.v], .zero⟩ else none
    extra := [datPlain f, (cnt, .count), (!vOnly || f.dat.file == .v, .file)] }

/-- FP arithmetic rows (R309): rounding code 111 is illegal (R226). -/
def fltUses (f : RForm) (typs : List Ty) (nsrc : Nat) : Uses :=
  r f typs true true (nsrc ≥ 2) (nsrc ≥ 3) 0xF (some (.at f.dst f.h.typ .arith))
    ((if nsrc ≥ 1 then [SrcUse.at f.a f.h.typ] else []) ++ (if nsrc ≥ 2 then [SrcUse.at f.b f.h.typ] else [])
      ++ (if nsrc ≥ 3 then [SrcUse.at f.c f.h.typ] else []))
    [((f.xf &&& 7) != 7, .xf)]

/-- Integer rows (R275). -/
def intUses (f : RForm) (typs : List Ty) (nsrc : Nat) : Uses :=
  r f typs true true (nsrc ≥ 2) (nsrc ≥ 3) 0 (some (.at f.dst f.h.typ .arith))
    ([SrcUse.at f.a f.h.typ] ++ (if nsrc ≥ 2 then [SrcUse.at f.b f.h.typ] else [])
      ++ (if nsrc ≥ 3 then [SrcUse.at f.c f.h.typ] else []))

/-- Logic rows: a c destination needs b32 (R277). -/
def logicUses (f : RForm) : Uses :=
  r f tyBit true true true false 0 (some ⟨f.dst, f.h.typ, f.h.typ.regs, f.h.typ.regs, [.v, .k, .c], .zero⟩)
    [.at f.a f.h.typ, .at f.b f.h.typ] [(f.dst.file != .c || f.h.typ == .b32, .typ)]

/-- A bound operand takes no ABS, and of file 11 only inline constants (R331). -/
def boundOk (s : Src) : List (Bool × WfError) := [(!s.abs, .modifier), (s.file != .x || 0x80 ≤ s.num.toNat, .file)]

/-- Interval and affine rows (R329): `nd` and `ns` registers of destination and sources. -/
def boundUses (f : RForm) (nd ns nsrc : Nat) : Uses :=
  r f [.f32] true true (nsrc ≥ 2) (nsrc ≥ 3) 0 (some (.vec f.dst nd (if nd = 3 then 4 else 2)))
    ([SrcUse.bound f.a ns] ++ (if nsrc ≥ 2 then [SrcUse.bound f.b ns] else [])
      ++ (if nsrc ≥ 3 then [SrcUse.bound f.c ns] else []))
    (boundOk f.a ++ (if nsrc ≥ 2 then boundOk f.b else []) ++ (if nsrc ≥ 3 then boundOk f.c else []))

/-- The two roots, whose SRC B names the condition bit that receives the domain bit (R333, R339). -/
def rootUses (f : RForm) (n : Nat) : Uses :=
  r f [.f32] true true true false 0 (some (.vec f.dst n (if n = 3 then 4 else 2)))
    [.bound f.a n, ⟨f.b, .b32, 1, 1, [.c], false, false⟩] (boundOk f.a)

/-- Descriptor block of four k registers (R404). -/
def kBlock (s : Src) : SrcUse := .block s [.k] 4 4

def timelineUses (f : SForm) (d a : Bool) (dst : Option DstUse) (srcs : List SrcUse) : Uses :=
  if f.xf = 1 then sf f d a true 0 1 dst (srcs ++ [.at f.b .b32])
  else sf f d a false 0x3FF 1 dst srcs

/-- A source that R255 accepts beside a k destination: k, inline, or a special source marked uniform in R19. -/
def Src.uniform (s : Src) : Bool :=
  match s.file with
  | .k => true
  | .x => 0x80 ≤ s.num.toNat || [1, 2, 3, 7, 8, 9, 10, 11, 14, 15, 16, 17, 20].contains s.num.toNat
  | _ => false

/-- Matrix rows: only the format's own checks are made at decode (R131, R263); the operands are the k registers that a
drain names (R36, R127). -/
def mxUses (f : MXForm) (ks : List (BitVec 8)) : Uses :=
  { typs := [f.h.typ], unused := true, dst := none
    srcs := ks.map fun n => ⟨⟨false, false, 0, .none, .k, n⟩, .b32, 1, 1, [.k], false, false⟩
    extra := [(f.kx.toNat < 64 && f.ky.toNat < 64 && f.kz.toNat < 64, .regNumber), (f.m.toNat ≤ 256, .count)] }

/-- Branch rows (R260). -/
def branchUses (f : BForm) (lnk cond : Bool) : Uses :=
  { typs := [.b32]
    unused := (lnk || (f.lnk == 0 && !f.lnkK)) && (cond || f.cond == .zero)
    srcs := if cond then [⟨f.cond, .b32, 1, 1, [.k, .x], false, false⟩] else []
    dst := if lnk then some ⟨⟨0, 0, if f.lnkK then .k else .v, f.lnk⟩, .b64, 2, 2, [.v, .k], .zero⟩ else none
    extra := [(f.ts.toNat ≤ 4, .imm), (!cond || f.cond.uniform, .uniform)] }

def bfxOk (t : Ty) (imm : BitVec 32) : Bool :=
  let w := if t.is64 then 64 else 32
  let pos := (imm &&& 0x3F).toNat
  let len := ((imm >>> 8) &&& 0x3F).toNat + 1
  (imm >>> 14) == 0 && (imm &&& 0xC0) == 0 && pos < w && pos + len ≤ w

def prmbOk (imm : BitVec 32) : Bool := (imm &&& 0xE0E0E0E0) == 0

/-- Conversion rows (R319): the operands of each legal pair of types. -/
def cvtfSrcs (f : RForm) : Option (List SrcUse × Bool) :=
  match f.h.typ, convSource f.b with
  | .f32, some .f64 => some ([.at f.a .f64], f.c == .zero)
  | .f64, some .f32 => some ([.at f.a .f32], f.c == .zero)
  | .f32, some .f16x2 | .f64, some .f16x2 => some ([.at f.a .f16x2], f.c.selector)
  | .f32, some .bf16x2 | .f64, some .bf16x2 => some ([.at f.a .bf16x2], f.c.selector)
  | .f16x2, some .f32 | .bf16x2, some .f32 => some ([.at f.a .f32, .at f.c .f32], true)
  | .f16x2, some .f64 | .bf16x2, some .f64 => some ([.at f.a .f64, .at f.c .f64], true)
  | .f16x2, some .bf16x2 => some ([.at f.a .bf16x2], f.c == .zero)
  | .bf16x2, some .f16x2 => some ([.at f.a .f16x2], f.c == .zero)
  | _, _ => none

def cvtfiSrc (f : RForm) : Option Ty :=
  match f.h.typ, convSource f.b with
  | .i32, some .f32 | .n32, some .f32 | .i64, some .f32 | .n64, some .f32 => some .f32
  | .i32, some .f64 | .n32, some .f64 | .i64, some .f64 | .n64, some .f64 => some .f64
  | .i16x2, some .f16x2 | .n16x2, some .f16x2 => some .f16x2
  | .i16x2, some .bf16x2 | .n16x2, some .bf16x2 => some .bf16x2
  | _, _ => none

def cvtifSrc (f : RForm) : Option Ty :=
  match f.h.typ, convSource f.b with
  | .f32, some .i32 | .f64, some .i32 => some .i32
  | .f32, some .n32 | .f64, some .n32 => some .n32
  | .f32, some .i64 | .f64, some .i64 => some .i64
  | .f32, some .n64 | .f64, some .n64 => some .n64
  | .f16x2, some .i16x2 | .bf16x2, some .i16x2 => some .i16x2
  | .f16x2, some .n16x2 | .bf16x2, some .n16x2 => some .n16x2
  | _, _ => none

/-- The types `pack` reads its sources at (R324). -/
def packSource : Ty → Ty
  | .i8x4 => .i16x2 | .n8x4 => .n16x2 | .i16x2 => .i32 | _ => .n32

def opqretRegs (xf : BitVec 4) : Nat × Nat :=
  match xf.toNat with
  | 0 => (4, 4) | 1 => (2, 2) | _ => (3, 4)

/-- The encoding tables. -/
def Instr.uses : Instr → Uses
  -- R275
  | .nop f => r f [.b32] false false false false 0 none []
  | .bra f => branchUses f false false
  | .brx f => r f [.b64] false true false false 0 none [⟨f.a, .b64, 2, 2, [.v, .k], false, false⟩]
  | .call f => branchUses f true false
  | .ret f => r f [.b64] false true false false 0 none [⟨f.a, .b64, 2, 2, [.v, .k], false, false⟩]
  | .callsh f => r f [.b64] true true true false 0 (some (.at f.dst .b64 .zero)) [.pair f.a, .at f.b .n32]
  | .exit f => r f [.b32] false false false false 0 none []
  | .yield f => r f [.b32] false false false false 0 none []
  | .sleep f => i f [.b32] false false true 0 none []
  | .waitc f =>
    let n := 2 * (((f.xf >>> 1) &&& 3).toNat + 1)
    i f [.b32] true true true 7 (some (.vec f.dst 1 1)) [.block f.a [.k] n 2]
  | .trap f => i f [.b32] false false true 0 none []
  | .brk f => i f [.b32] false false true 0 none []
  | .ubra f => branchUses f false true
  | .join f => i f [.b32] false false true 0 none [] [(f.imm.toNat < 4096, .imm)]
  | .iadd f | .isub f | .imul f | .imulhi f | .imin f | .imax f | .iabsd f => intUses f tyInt 2
  | .imad f => intUses f tyInt 3
  | .imadw f =>
    let w : Ty := if f.h.typ = .i32 then .i64 else .n64
    r f [.i32, .n32] true true true true 0 (some (.at f.dst w .arith)) [.at f.a f.h.typ, .at f.b f.h.typ, .at f.c w]
  | .idot4 f =>
    let w : Ty := if f.h.typ = .i8x4 then .i32 else .n32
    r f [.i8x4, .n8x4] true true true true 0 (some (.at f.dst w .arith)) [.at f.a f.h.typ, .at f.b f.h.typ, .at f.c w]
  | .icmp f =>
    r f tyCmp true true true false 0xF (some ⟨f.dst, .b32, 1, 1, [.v, .k, .c], .zero⟩)
      [.at f.a f.h.typ, .at f.b f.h.typ] [(f.xf.toNat < 6, .xf)]
  | .isel f => r f tyBit true true true true 0 (some (.at f.dst f.h.typ .zero))
      [.at f.a f.h.typ, .at f.b f.h.typ, .at f.c .b32]
  | .lea f => i f [.b64] true true true 0 (some (.at f.dst .b64 .zero)) [.pair f.a]
  | .iaddc f => r f [.n32, .n64] true true true true 0 (some (.at f.dst f.h.typ .zero))
      [.at f.a f.h.typ, .at f.b f.h.typ, ⟨f.c, .b32, 1, 1, [.c], false, false⟩]
  | .movImmediate f =>
    i f (tyInt ++ tyFlt ++ tyBit) true false true 0
      (some ⟨f.dst, f.h.typ, f.h.typ.regs, f.h.typ.regs, [.v, .k, .c], .clampOnly⟩) []
      [(f.dst.file != .c || f.h.typ == .b32 || tyCmp.contains f.h.typ, .typ)]
  | .movRegister f =>
    i f (tyInt ++ tyFlt ++ tyBit) true true false 1
      (some ⟨f.dst, f.h.typ, f.h.typ.regs, f.h.typ.regs, [.v, .k, .c], .clampOnly⟩) [.at f.a f.h.typ]
      [(f.dst.file != .c || f.h.typ == .b32 || tyCmp.contains f.h.typ, .typ), (f.xf == 1, .xf)]
  | .movk f => r f tyBit true true false false 0
      (some ⟨f.dst, f.h.typ, f.h.typ.regs, f.h.typ.regs, [.k], .zero⟩) [.at f.a f.h.typ]
  | .andd f | .orr f | .xorr f | .andn f => logicUses f
  | .shl f | .shr f | .rotl f => r f [.b32, .b64, .n16x2, .n8x4] true true true false 0
      (some (.at f.dst f.h.typ .zero)) [.at f.a f.h.typ, .at f.b f.h.typ.shiftAmount]
  | .sar f => r f [.i32, .i16x2, .i8x4, .i64] true true true false 0
      (some (.at f.dst f.h.typ .zero)) [.at f.a f.h.typ, .at f.b f.h.typ.shiftAmount]
  | .bfx f => i f tyCmp true true true 0 (some (.at f.dst f.h.typ .arith)) [.at f.a f.h.typ] [(bfxOk f.h.typ f.imm, .imm)]
  | .bfi f => r f tyBit true true true true 0 (some (.at f.dst f.h.typ .zero))
      [.at f.a f.h.typ, .at f.b f.h.typ, .at f.c .b32]
  | .popc f | .clz f | .ffs f => r f tyBit true true false false 0 (some (.at f.dst .b32 .zero)) [.at f.a f.h.typ]
  | .brev f => r f tyBit true true false false 0 (some (.at f.dst f.h.typ .zero)) [.at f.a f.h.typ]
  | .prmb f => i f [.b32] true true true 0 (some (.at f.dst .b32 .zero)) [.pair f.a] [(prmbOk f.imm, .imm)]
  | .mix32 f => r f [.b32] true true true false 0 (some (.at f.dst .b32 .zero)) [.at f.a .b32, .at f.b .b32]
  -- R309
  | .fadd f | .fsub f | .fmul f => fltUses f tyFlt 2
  | .ffma f => fltUses f tyFlt 3
  | .fmin f | .fmax f => r f tyFlt true true true false 8 (some (.at f.dst f.h.typ .arith))
      [.at f.a f.h.typ, .at f.b f.h.typ]
  | .fdiv f => fltUses f tyFlt 2
  | .fsqrt f | .frcp f | .frsq f => fltUses f tyFlt 1
  | .fexp2 f | .flog2 f | .fsin f | .fcos f => fltUses f tyHalf 1
  | .ffract f | .frnd f => fltUses f tyFlt 1
  | .fcmp f => r f tyFlt true true true false 0xF (some ⟨f.dst, .b32, 1, 1, [.v, .k, .c], .zero⟩)
      [.at f.a f.h.typ, .at f.b f.h.typ]
      [(f.xf.toNat < 8, .xf), (f.dst.file != .c || f.h.typ == .f32 || f.h.typ == .f64, .file)]
  | .fclass f => r f tyFlt true true false false 0 (some (.at f.dst .b32 .zero)) [.at f.a f.h.typ]
  | .cvtf f => r f tyFlt true true true true 0xF (some (.at f.dst f.h.typ .arith))
      (match cvtfSrcs f with | some (l, _) => l | none => [])
      [((match cvtfSrcs f with | some (_, ok) => ok | none => false), .typ), ((f.xf &&& 7) != 7, .xf)]
  | .cvtfi f => r f [.i32, .n32, .i16x2, .n16x2, .i64, .n64] true true true false 0xF (some (.at f.dst f.h.typ .zero))
      (match cvtfiSrc f with | some t => [.at f.a t] | none => []) [((cvtfiSrc f).isSome, .typ), ((f.xf &&& 7) != 7, .xf)]
  | .cvtif f => r f tyFlt true true true false 0xF (some (.at f.dst f.h.typ .arith))
      (match cvtifSrc f with | some t => [.at f.a t] | none => []) [((cvtifSrc f).isSome, .typ), ((f.xf &&& 7) != 7, .xf)]
  | .cvtbfp f => r f [.i32, .n32] true true true true 0xF (some (.at f.dst .b32 .zero)) [.at f.a .f32, .at f.b f.h.typ]
      [(f.c.file == .x && f.c.plain && 0xA2 ≤ f.c.num.toNat && f.c.num.toNat ≤ 0xA8, .imm), ((f.xf &&& 7) != 7, .xf)]
  | .bfpexp f => r f [.f32] true true false false 8 (some (.at f.dst .b32 .zero)) [.at f.a .f32]
  | .pack f => r f tyPk true true true false 0 (some (.at f.dst f.h.typ .arith))
      [.at f.a (packSource f.h.typ), .at f.b (packSource f.h.typ)]
  | .unpack f => r f tyPk true true true false 0 (some (.at f.dst .b32 .zero)) [.at f.a f.h.typ, .at f.b .n32]
  | .frmset f => i f [.b32] true false true 0 (some (.vec f.dst 1 1)) []
      [((f.imm >>> 4) == 0 && (f.imm &&& 7) != 0 && (f.imm &&& 7) != 7, .imm)]
  | .fflags f => i f [.b32] true false true 0 (some (.vec f.dst 1 1)) [] [((f.imm >>> 5) == 0, .imm)]
  | .srseed f => r f [.b32] false true false false 0 none [.at f.a .b32]
  -- R329
  | .ivadd f | .ivsub f | .ivmul f | .ivmin f | .ivmax f => boundUses f 2 2 2
  | .ivsqr f | .ivabs f => boundUses f 2 2 1
  | .ivsqrt f => rootUses f 2
  | .ivhyp f => if f.xf = 1 then { boundUses { f with xf := 0 } 2 2 3 with } else boundUses f 2 2 2
  | .ivtest f => r f [.f32] true true false false 3 (some ⟨f.dst, .b32, 1, 1, [.v, .c], .zero⟩) [.bound f.a 2]
      ((if f.dst.file = .c then f.xf.toNat < 3 else f.xf == 0, .xf) :: boundOk f.a)
  | .afadd f | .afmul f => boundUses f 3 3 2
  | .afsqr f | .afabs f => boundUses f 3 3 1
  | .afsqrt f => rootUses f 3
  | .aftoiv f => boundUses f 2 3 1
  | .shfl f => { r f tyBit true true true false 0 (some (.vec f.dst f.h.typ.regs f.h.typ.regs))
      [⟨f.a, f.h.typ, f.h.typ.regs, f.h.typ.regs, [.v], false, false⟩, .at f.b .n32] with lanes := .pick f.b }
  | .ballot f => r f [.b32] true true false false 0 (some (.vec f.dst 1 1)) [.at f.a .b32]
  | .vote f => r f tyBit true true false false 3 (some ⟨f.dst, .b32, 1, 1, [.v, .c], .zero⟩) [.at f.a f.h.typ]
      [(f.xf.toNat < 3, .xf)]
  | .scan f => r f [.b32, .i32, .n32, .f32, .i64, .n64, .b64] true true false false 0xF
      (some (.vec f.dst f.h.typ.regs f.h.typ.regs)) [.at f.a f.h.typ]
      [((scanTypes (f.xf.truncate 3)).contains f.h.typ, .xf)]
  | .redx f => r f [.b32, .i32, .n32, .f32, .i64, .n64, .b64] true true false false 7
      (some (.vec f.dst f.h.typ.regs f.h.typ.regs)) [.at f.a f.h.typ]
      [((scanTypes (f.xf.truncate 3)).contains f.h.typ, .xf)]
  | .matchx f => r f tyBit true true false false 0 (some (.vec f.dst 1 1)) [.at f.a f.h.typ]
  | .msksave f | .mskrest f => r f [.b32] true true false false 0 (some (.vec f.dst 1 1)) [.block f.a [.v] 1 1]
  | .mskand f => r f [.b32] false true false false 0 none [.at f.a .b32]
  | .mskelse f => r f [.b32] false true false false 0 none [.block f.a [.v] 1 1]
  | .xacq f => i f [.b32] false false true 0 none [] [(1 ≤ f.imm.toNat && f.imm.toNat ≤ 3, .imm)]
  | .xrel f => i f [.b32] false false true 0 none [] [(f.imm.toNat ≤ 3, .imm)]
  | .wsync f => i f [.b32] false false true 0 none []
  -- R348
  | .ld f => memUses f false true tyMem true [.plain, .acq] (true, .scope)
  | .st f => memUses f false false tyMem true [.plain, .rel] (true, .scope)
  | .ldl f => memUses f true true tyBit false [.plain, .acq] (localScope f.scp)
  | .stl f => memUses f true false tyBit false [.plain, .rel] (localScope f.scp)
  | .ldc f => memUses f false true tyMem true [.plain] (f.scp == .thread, .scope)
  | .prf f =>
    { typs := [.b32], srcs := [base f false], dst := none, extra := []
      unused := f.dat == .zero && f.ord == .plain && f.scp == .thread && f.cnt == .one && f.xf == 0 }
  | .ldt f => memUses f false true tyMem true [.plain] (f.scp == .thread, .scope)
  | .stt f => memUses f false false tyMem true [.plain, .rel] (true, .scope)
  | .fence f =>
    { typs := [.b32], srcs := [], dst := none, extra := [(f.ord != .plain, .ordering)]
      unused := f.dat == .zero && f.base == .zero && f.ofs == 0 && f.ret == .short && f.cnt == .one && f.xf == 0 }
  | .pfence f => i f [.b32] false false true 0 none [] [(f.imm != 0 && f.imm.toNat < 64, .imm)]
  | .ifence f => r f [.b32] false false false false 0 none []
  | .wb f | .inv f =>
    { typs := [.b32], srcs := [base f false], dst := none, extra := []
      unused := f.dat == .zero && f.ord == .plain && f.scp == .thread && f.ret == .short && f.xf == 0 }
  | .wayset f => i f [.b32] false false true 0 none [] [((f.imm >>> 16) == 0, .imm)]
  | .atom f => atomUses f false true true f.h.typ.regs true (atomTypes f.xf) (f.cnt == .one)
  | .red f => atomUses f false true true f.h.typ.regs false (atomTypes f.xf) (f.cnt == .one)
  | .cas f => atomUses f false true false f.cnt.val true tyBit (f.cnt == if f.h.typ = .b64 then .four else .two)
  | .atoml f => atomUses f true false true f.h.typ.regs true (atomTypes f.xf) (f.cnt == .one)
  | .casl f => atomUses f true false false f.cnt.val true tyBit (f.cnt == if f.h.typ = .b64 then .four else .two)
  | .bupd f => atomUses f false true true f.cnt.val false (atomTypes f.xf) (f.cnt == if f.h.typ.is64 then .four else .two)
  | .bred f =>
    let u := atomUses f false true true f.h.typ.regs false (atomTypes f.xf) (f.cnt == .one)
    { u with extra := u.extra ++ [(f.base.file == .k, .file)] }
  | .aflush f => r f [.b32] false false false false 0 none []
  | .bar f => i f [.b32] false false true 0 none [] [((f.imm >>> 14) == 0, .imm)]
  | .barr f => i f [.b32] true false true 0 (some (.vec f.dst 1 1)) [] [((f.imm >>> 14) == 0, .imm)]
  | .barw f => i f [.b32] false true true 0 none [.at f.a .b32] [((f.imm >>> 14) == 0, .imm)]
  | .cbar f => i f [.b32] false false true 0 none [] [(f.imm.toNat < 4, .imm)]
  | .gbar f => i f [.b32] false false false 0 none []
  | .larr f => i f [.b32] true true true 0 (some (.vec f.dst 1 1)) [.block f.a [.k] 2 2]
      [((f.imm >>> 24) == 0 && f.imm != 0, .imm)]
  | .tlwait f => timelineUses f false true none [.pair f.a]
  | .tlread f => timelineUses f true false (some (.vec f.dst 2 2)) []
  | .cnwait f => sf f false false false 0xFFFFF 0xF none []
  | .boinit f => sf f false true true 0 0 none [.at f.a .b32, .at f.b .n32]
  | .bowait f => sf f true true false 0 0 (some (.vec f.dst 1 1)) [.at f.a .b32]
  | .msgsend f => sf f false true true 0xFFFF 0 none [.pair f.a, .at f.b .b32]
      [((f.imm &&& 0x1FFF).toNat ≤ 4096 && (f.imm &&& 3) == 0, .imm),
       (3 ≤ ((f.imm >>> 13) &&& 7).toNat && ((f.imm >>> 13) &&& 7).toNat ≤ 5, .scope)]
  | .msgpost f => sf f true true true 0x1FFF 0 (some (.vec f.dst 1 1)) [.pair f.a, .at f.b .b32]
      [((f.imm &&& 0x1FFF).toNat ≤ 4096, .imm)]
  | .rgnb f => r f [.b32] false false false false 0 none []
  -- R380
  | .kick f => sf f true true false 0x3F 0 (some (.vec f.dst 2 2)) [.at f.a .b32]
      [(1 ≤ f.imm.toNat && f.imm.toNat ≤ 32, .imm)]
  | .cbinit f => sf f false true true 0x7F 0 none [.at f.a .b32, .at f.b .b32] [((f.imm &&& 0x60) != 0x60, .imm)]
  | .cbpushReserve f => sf f true false false 0x1F 0 (some (.vec f.dst 1 1)) []
  | .cbpushCommit f => sf f false true false 0x1F 1 none [.at f.a .b32] [(f.xf == 1, .xf)]
  | .cbpop f => sf f true false false 0x1F 0 (some (.vec f.dst 1 1)) []
  | .cbpopTry f => sf f true false false 0x1F 1 (some (.vec f.dst 1 1)) [] [(f.xf == 1, .xf)]
  | .cbrel f => sf f false true false 0x1F 0 none [.at f.a .b32]
  | .cbstat f => sf f true false false 0x1F 0 (some (.vec f.dst 4 4)) []
  | .cpcancel f => sf f true true false 0 0 (some (.vec f.dst 1 1)) [.at f.a .b32] [(f.a.uniform, .uniform)]
  | .tlsig f => timelineUses f false true none [.pair f.a]
  | .ctxsel f => sf f true true false 0 0 (some (.vec f.dst 2 2)) [.at f.a .b32] [(f.a.uniform, .uniform)]
  | .mxdrn f => mxUses f [f.kx, f.ky, f.kz]
  | .mxwld f | .mxwsw f | .mxmul f | .mxzero f | .mxperm f => mxUses f []
  | .cvset f => sf f false false false 0x3FFF 0 none []
      [(1 ≤ (f.imm >>> 4).toNat && (f.imm >>> 4).toNat ≤ 512, .imm)]
  | .cvstat f => sf f true false false 0xF 0 (some (.vec f.dst 2 2)) []
  | .freeze f => r f [.b32] false false false false 0 none []
  | .nest f => i f [.b32] false false true 0 none [] [((f.imm >>> 16) == 0, .imm)]
  | .fillend f => r f [.b32] false false false false 0 none []
  | .fillq f => sf f true true false 0 7 (some (.vec f.dst 1 1)) [.pair f.a] [((f.xf &&& 3) != 3, .xf)]
  | .filld f => sf f true true false 0 0 (some (.vec f.dst 1 1)) [.pair f.a]
  | .phase f => i f [.b32] false false true 0 none [] [((f.imm >>> 16) == 0, .imm)]
  -- R403, R404
  | .tex f => { r f [.f32] true true true true 0 (some (.vec f.dst 4 4))
      [.block f.a [.v] 2 2, kBlock f.b, .block f.c allFiles 1 1] with lanes := .quad }
  | .texg f => r f [.f32] true true true true 0 (some (.vec f.dst 4 4))
      [.block f.a [.v] 2 2, kBlock f.b, .block f.c [.v] 4 4]
  | .brick f => r f [.f32] true true true false 0 (some (.vec f.dst 4 4)) [.block f.a [.v] 3 4, .block f.b [.k] 2 2]
  | .texq f => r f [.b32] true true true false 0 (some (.vec f.dst 1 1)) [.block f.a allFiles 1 1, kBlock f.b]
  | .rtw f => r f [.b32] false true true true 0 none [.block f.a [.v] 2 2, .block f.b [.v] 4 4, kBlock f.c]
  | .zt f => r f [.b32] false true true true 0 none [.block f.a [.v] 2 2, .block f.b [.v] 2 2, kBlock f.c]
  | .covq f => r f [.b32] true true true true 0 (some (.vec f.dst 2 2))
      [.block f.a [.v] 2 2, .block f.b allFiles 1 1, kBlock f.c]
  | .vbw f => r f [.b32] false true true true 0 none [.block f.a [.v] 2 2, .block f.b [.v] 8 8, kBlock f.c]
  | .emit f => sf f true true true 0 0 (some (.vec f.dst 1 1)) [.block f.a [.v, .k] 2 2, .block f.b [.v] 16 16]
  | .taskpop f => sf f true true false 0 0 (some (.vec f.dst 16 16)) [.block f.a [.v, .k] 2 2]
  | .taskpopTry f => sf f true true true 0 1 (some (.vec f.dst 16 16))
      [.block f.a [.v, .k] 2 2, .block f.b [.c] 1 1] [(f.xf == 1, .xf)]
  | .march f | .trace f => r f [.b32] true true true false 0 (some (.vec f.dst 1 1)) [.block f.a [.v] 8 8, kBlock f.b]
  | .mhit f => r f [.b32] true false false false 0 (some (.vec f.dst 8 8)) []
  | .mhitCo f => r f [.b32] true false false false 1 (some (.vec f.dst 16 16)) [] [(f.xf == 1, .xf)]
  | .bcprune f => r f [.b32] true true true false 0 (some (.vec f.dst 2 2)) [kBlock f.a, .block f.b [.v] 6 8]
  | .opqret f => r f [.b32] true true false false 3 (some (.vec f.dst 1 1))
      [.block f.a [.v] (opqretRegs f.xf).1 (opqretRegs f.xf).2] [(f.xf.toNat < 3, .xf)]
  | .thit f => r f [.b32] true false false false 0 (some (.vec f.dst 8 8)) []
  | .thitRay f => r f [.b32] true false false false 1 (some (.vec f.dst 8 8)) [] [(f.xf == 1, .xf)]
  | .tstack f => r f [.b32] true true false false 0 (some (.vec f.dst 2 2)) [.block f.a [.k, .x] 1 1]
      [(f.a.file != .x || 0x80 ≤ f.a.num.toNat, .file)]
  | .beam f => r f [.b32] true true false false 0 (some (.vec f.dst 1 1)) [.block f.a [.v, .k] 2 2]
  | .csrr f => i f tyBit true false true 0 (some (.vec f.dst f.h.typ.regs f.h.typ.regs)) [] [((f.imm >>> 12) == 0, .imm)]
  | .csrw f => i f tyBit false true true 0 none
      [⟨f.a, f.h.typ, f.h.typ.regs, f.h.typ.regs, [.v, .k, .x], false, false⟩]
      [((f.imm >>> 12) == 0, .imm), (f.a.file != .x || 0x80 ≤ f.a.num.toNat, .file)]
  | .tret f => r f [.b32] false false false false 0 none []
  | .svc f => i f [.b32] true true true 0 (some (.vec f.dst 2 2)) [.block f.a [.v, .k] 2 2] [((f.imm >>> 16) == 0, .imm)]
  | .trc f => i f [.b32] false true true 0 none [.block f.a allFiles 1 1] [((f.imm >>> 16) == 0, .imm)]
  -- events have no encoding
  | _ => { typs := [.b32], unused := true, srcs := [], dst := none, extra := [] }

/-- The head of a machine instruction; an event carries none and reads as an unguarded head of type b32. -/
def Instr.head : Instr → Head
  | .nop f | .brx f | .ret f | .callsh f | .exit f | .yield f | .movk f | .iadd f | .isub f | .imul f | .imulhi f
  | .imad f | .imadw f | .imin f | .imax f | .iabsd f | .idot4 f | .icmp f | .isel f | .iaddc f | .andd f | .orr f
  | .xorr f | .andn f | .shl f | .shr f | .sar f | .rotl f | .bfi f | .popc f | .clz f | .brev f | .ffs f | .mix32 f
  | .fadd f | .fsub f | .fmul f | .ffma f | .fmin f | .fmax f | .fdiv f | .fsqrt f | .frcp f | .frsq f | .fexp2 f
  | .flog2 f | .fsin f | .fcos f | .ffract f | .frnd f | .fcmp f | .fclass f | .cvtf f | .cvtfi f | .cvtif f
  | .cvtbfp f | .bfpexp f | .pack f | .unpack f | .srseed f | .ivadd f | .ivsub f | .ivmul f | .ivsqr f | .ivsqrt f
  | .ivmin f | .ivmax f | .ivabs f | .ivhyp f | .ivtest f | .afadd f | .afmul f | .afsqr f | .afsqrt f | .afabs f
  | .aftoiv f | .shfl f | .ballot f | .vote f | .scan f | .redx f | .matchx f | .msksave f | .mskand f | .mskrest f
  | .mskelse f | .ifence f | .aflush f | .rgnb f | .freeze f | .fillend f | .tex f | .texg f | .brick f | .texq f
  | .rtw f | .zt f | .covq f | .vbw f | .march f | .mhit f | .mhitCo f | .bcprune f | .opqret f | .trace f | .thit f
  | .thitRay f | .tstack f | .beam f | .tret f => f.h
  | .sleep f | .waitc f | .trap f | .brk f | .join f | .lea f | .movImmediate f | .movRegister f | .bfx f | .prmb f
  | .frmset f | .fflags f | .xacq f | .xrel f | .wsync f | .pfence f | .wayset f | .bar f | .barr f | .barw f
  | .cbar f | .gbar f | .larr f | .nest f | .phase f | .csrr f | .csrw f | .svc f | .trc f => f.h
  | .tlwait f | .tlread f | .cnwait f | .boinit f | .bowait f | .msgsend f | .msgpost f | .kick f | .cbinit f
  | .cbpushReserve f | .cbpushCommit f | .cbpop f | .cbpopTry f | .cbrel f | .cbstat f | .cpcancel f | .tlsig f
  | .ctxsel f | .cvset f | .cvstat f | .fillq f | .filld f | .emit f | .taskpop f | .taskpopTry f => f.h
  | .ld f | .st f | .ldl f | .stl f | .ldc f | .prf f | .ldt f | .stt f | .fence f | .wb f | .inv f | .atom f | .red f
  | .cas f | .atoml f | .casl f | .bupd f | .bred f => f.h
  | .bra f | .call f | .ubra f => f.h
  | .mxwld f | .mxwsw f | .mxmul f | .mxzero f | .mxdrn f | .mxperm f => f.h
  | _ => ⟨.b32, false, 15⟩

/-- The first failing check of a list. -/
def firstError : List (Bool × WfError) → Option WfError
  | [] => none
  | (ok, e) :: t => if ok then firstError t else some e

/-- Number limits of R252 (files k, c and special; v is judged against the wave's range, trap 0x04). -/
def SrcUse.numberOk (u : SrcUse) : Bool :=
  match u.s.file with
  | .v => true
  | .k => u.s.num.toNat + u.n ≤ 64
  | .c => u.s.num.toNat < 12
  | .x => u.s.num.toNat ≤ 0x15 || (0x80 ≤ u.s.num.toNat && u.s.num.toNat ≤ 0xCF)

/-- Crossbar field rules (R251, R253). -/
def Src.permOk (s : Src) : Bool :=
  match s.perm with
  | .none => s.param == 0
  | .mirror => s.param.toNat ≤ 4
  | .left | .right => s.param.toNat < 4
  | _ => true

/-- The checks of one source operand. -/
def SrcUse.checks (u : SrcUse) : List (Bool × WfError) :=
  [ (u.files.contains u.s.file, .file)
  , (u.numberOk, .regNumber)
  , (!(u.s.file == .v || u.s.file == .k) || u.s.num.toNat % u.align == 0, .misaligned)
  , (u.s.permOk && (u.s.perm == .none || (u.s.file == .v && u.xbar)), .permField)
  , (u.mods || (!u.s.abs && !u.s.neg), .modifier) ]

/-- CLP and SCL rules of R230. -/
def DstUse.clampOk (u : DstUse) : Bool :=
  match u.clamp with
  | .zero => u.d.clp == 0 && u.d.scl == 0
  | .clampOnly | .arith =>
    (u.d.scl == 0 || (u.ty.isFloat && u.clamp == .arith))
      && (if u.ty.isFloat then u.d.clp != 3 else if u.ty.isBits then u.d.clp == 0 else u.d.clp == 0 || u.d.clp == 3)

/-- The checks of the destination, with R255 for a uniform one. -/
def Uses.dstChecks (u : Uses) : List (Bool × WfError) :=
  match u.dst with
  | none => []
  | some d =>
    [ (d.files.contains d.d.file, .file)
    , ((match d.d.file with | .v => true | .k => d.d.num.toNat + d.n ≤ 64 | .c => d.d.num.toNat < 12), .regNumber)
    , (d.d.file == .c || d.d.num.toNat % d.align == 0, .misaligned)
    , (d.clampOk, .clamp)
    , (d.d.file != .k || d.files == [.k] || u.srcs.all (fun s => s.s.uniform), .uniform) ]

/-- GRD rules that the encoding alone decides (R248). -/
def Head.grdOk (h : Head) : Bool := h.sel.toNat ≤ 11 || (h.sel == 15 && !h.inv)

/-- The well-formedness check: `none`, or the name of the first failing check. -/
def Instr.wfError (i : Instr) : Option WfError :=
  let u := i.uses
  firstError ([(u.unused, .unusedField), (i.head.grdOk, .guard), (u.typs.contains i.head.typ, .typ)]
    ++ (u.srcs.flatMap SrcUse.checks) ++ u.dstChecks ++ u.extra)

def Instr.wf (i : Instr) : Bool := i.wfError.isNone

end Sys2Proof
end

