-- ==== Sys2Proof/Machine/BankAlu.lean ====
section
/-! DEFINITION. The bank ALU's operations (R70, R360): one read-modify-write value, the same at home banks and in
scratch. -/

namespace Sys2Proof.Machine

/-- The float formats of packed and single types, and the element count. -/
def tyFmt : Ty → Option (Fmt × Nat)
  | .f32 => some (.f32, 1) | .f64 => some (.f64, 1) | .f16x2 => some (.f16, 2) | .bf16x2 => some (.bf16, 2)
  | _ => none

/-- A signed reading of a value of w bits. -/
def sgn (w x : Nat) : Int := if x % 2 ^ w < 2 ^ (w - 1) then (x % 2 ^ w : Nat) else ((x % 2 ^ w : Nat) : Int) - 2 ^ w

def wrap (w : Nat) (x : Int) : Nat := (x % (2 ^ w : Nat)).toNat

def tySigned : Ty → Bool
  | .i32 | .i64 | .i16x2 | .i8x4 => true
  | _ => false

/-- Elements of a float operation applied one by one (R360): RNE, subnormals honoured, memory first, no flag. -/
def bankFloat (ty : Ty) (op : Fmt → Nat → Nat → Nat) (m a : Nat) : Nat :=
  match tyFmt ty with
  | none => m
  | some (f, n) =>
    sumOf ((List.range n).map fun j =>
      let sh := 2 ^ (f.width * j)
      sh * op f (m / sh % 2 ^ f.width) (a / sh % 2 ^ f.width))

/-- m' of R360. -/
def bankOp (op : BitVec 4) (ty : Ty) (m a : Nat) : Nat :=
  let w := if ty.is64 then 64 else 32
  match op.toNat with
  | 0 => (m + a) % 2 ^ w
  | 1 => wrap w ((m : Int) - a)
  | 2 => if tySigned ty then (if sgn w a < sgn w m then a else m) else min m a
  | 3 => if tySigned ty then (if sgn w m < sgn w a then a else m) else max m a
  | 4 => m &&& a
  | 5 => m ||| a
  | 6 => m ^^^ a
  | 7 => a
  | 8 => if m ≥ a then 0 else m + 1
  | 9 => if m = 0 ∨ m > a then a else m - 1
  | 10 => bankFloat ty (fun f x y => (fpAdd f .rne x y).1) m a
  | 11 => bankFloat ty (fun f x y => (fpMinMax f .rne false x y).1) m a
  | 12 => bankFloat ty (fun f x y => (fpMinMax f .rne true x y).1) m a
  | _ => m

/-- One operation of several operands on a line, in order: each is (byte offset, operand) (R70, R364, R365). -/
def lineOp (op : BitVec 4) (ty : Ty) (v : BitVec 1024) (l : List (Nat × Nat)) : BitVec 128 × BitVec 1024 :=
  let n := if ty.is64 then 8 else 4
  l.foldl (fun (r : BitVec 128 × BitVec 1024) e =>
    let m := byteMask e.1 n
    (r.1 ||| m, mergeBytes m (linePut e.1 (bankOp op ty (lineGet r.2 e.1 n) e.2)) r.2)) (0, v)

end Sys2Proof.Machine
end

