-- ==== Sys2Proof/Decode.lean ====
section
/-! DEFINITION. The decoder: from the 96 bits of a slot (R241) to an instruction or a named refusal, and the encoder
written from the same tables (R248-R262). Reserved encodings are refused by name, never read as a neighbour. -/

namespace Sys2Proof

def DFile.ofBits (b : BitVec 2) : Option DFile :=
  match b.toNat with | 0 => some .v | 1 => some .k | 2 => some .c | _ => none

def DFile.toBits : DFile → BitVec 2
  | .v => 0 | .k => 1 | .c => 2

def SFile.ofBits (b : BitVec 2) : SFile :=
  match b.toNat with | 0 => .v | 1 => .k | 2 => .c | _ => .x

def SFile.toBits : SFile → BitVec 2
  | .v => 0 | .k => 1 | .c => 2 | .x => 3

def Perm.ofBits (b : BitVec 3) : Option Perm :=
  match b.toNat with
  | 0 => some .none | 1 => some .rotate | 2 => some .broadcast | 3 => some .butterfly
  | 4 => some .mirror | 5 => some .left | 6 => some .right | _ => Option.none

def Perm.toBits : Perm → BitVec 3
  | .none => 0 | .rotate => 1 | .broadcast => 2 | .butterfly => 3 | .mirror => 4 | .left => 5 | .right => 6

def Ord.ofBits (b : BitVec 2) : Ord :=
  match b.toNat with | 0 => .plain | 1 => .acq | 2 => .rel | _ => .ar

def Ord.toBits : Ord → BitVec 2
  | .plain => 0 | .acq => 1 | .rel => 2 | .ar => 3

def Scope.ofBits (b : BitVec 3) : Option Scope :=
  match b.toNat with
  | 0 => some .thread | 1 => some .wave | 2 => some .block | 3 => some .cluster
  | 4 => some .device | 5 => some .system | _ => none

def Scope.toBits : Scope → BitVec 3
  | .thread => 0 | .wave => 1 | .block => 2 | .cluster => 3 | .device => 4 | .system => 5

def Ret.ofBits (b : BitVec 2) : Ret :=
  match b.toNat with | 0 => .short | 1 => .default | 2 => .long | _ => .bypass

def Ret.toBits : Ret → BitVec 2
  | .short => 0 | .default => 1 | .long => 2 | .bypass => 3

def Cnt.ofBits (b : BitVec 2) : Cnt :=
  match b.toNat with | 0 => .one | 1 => .two | 2 => .four | _ => .eight

def Cnt.toBits : Cnt → BitVec 2
  | .one => 0 | .two => 1 | .four => 2 | .eight => 3

/-- Bits [16:0] of every format (R248), less the opcode. -/
def decHead (w : BitVec 96) : Head :=
  ⟨Ty.ofBits (w.extractLsb' 13 4), w.getLsbD 12, w.extractLsb' 8 4⟩

/-- A destination field of 15 bits (R250). -/
def decDst (b : BitVec 15) : Option Dst :=
  (DFile.ofBits (b.extractLsb' 8 2)).map fun f => ⟨b.extractLsb' 12 3, b.extractLsb' 10 2, f, b.extractLsb' 0 8⟩

/-- A source field of 20 bits (R251). -/
def decSrc (b : BitVec 20) : Option Src :=
  (Perm.ofBits (b.extractLsb' 10 3)).map fun p =>
    ⟨b.getLsbD 19, b.getLsbD 18, b.extractLsb' 13 5, p, SFile.ofBits (b.extractLsb' 8 2), b.extractLsb' 0 8⟩

def decR (w : BitVec 96) : Option RForm := do
  let dst ← decDst (w.extractLsb' 17 15)
  let a ← decSrc (w.extractLsb' 32 20)
  let b ← decSrc (w.extractLsb' 52 20)
  let c ← decSrc (w.extractLsb' 72 20)
  some ⟨decHead w, dst, a, b, c, w.extractLsb' 92 4⟩

def decI (w : BitVec 96) : Option IForm := do
  let dst ← decDst (w.extractLsb' 17 15)
  let a ← decSrc (w.extractLsb' 32 20)
  if w.extractLsb' 88 8 = 0 then some ⟨decHead w, dst, a, w.extractLsb' 52 32, w.extractLsb' 84 4⟩ else none

def decS (w : BitVec 96) : Option SForm := do
  let dst ← decDst (w.extractLsb' 17 15)
  let a ← decSrc (w.extractLsb' 32 20)
  let b ← decSrc (w.extractLsb' 52 20)
  some ⟨decHead w, dst, a, b, w.extractLsb' 72 20, w.extractLsb' 92 4⟩

def decM (w : BitVec 96) : Option MForm := do
  let dat ← decDst (w.extractLsb' 17 15)
  let base ← decSrc (w.extractLsb' 32 20)
  let scp ← Scope.ofBits (w.extractLsb' 80 3)
  if w.extractLsb' 89 7 = 0 then
    some ⟨decHead w, dat, base, w.extractLsb' 52 24, Ret.ofBits (w.extractLsb' 76 2), Ord.ofBits (w.extractLsb' 78 2),
      scp, Cnt.ofBits (w.extractLsb' 83 2), w.extractLsb' 85 4⟩
  else none

def decB (w : BitVec 96) : Option BForm := do
  let cond ← decSrc (w.extractLsb' 64 20)
  if w.extractLsb' 84 12 = 0 ∧ w.getLsbD 61 = false then
    some ⟨decHead w, w.extractLsb' 17 32, w.extractLsb' 49 3, w.extractLsb' 52 8, w.getLsbD 60, w.extractLsb' 62 2, cond⟩
  else none

def decX (w : BitVec 96) : Option MXForm :=
  if w.extractLsb' 84 12 = 0 ∧ w.extractLsb' 57 3 = 0 then
    some ⟨decHead w, w.getLsbD 17, w.extractLsb' 18 8, w.extractLsb' 26 9, w.extractLsb' 35 5, w.extractLsb' 40 5,
      w.extractLsb' 45 4, w.extractLsb' 49 3, w.getLsbD 52, w.getLsbD 53, w.extractLsb' 54 3,
      w.extractLsb' 60 8, w.extractLsb' 68 8, w.extractLsb' 76 8⟩
  else none

/-- The opcode map (R262): the fields of a slot, before the checks of R263. -/
def decodeFields (w : BitVec 96) : Option Instr :=
  match (w.extractLsb' 0 8).toNat with
  | 0x00 => (decR w).map Instr.nop
  | 0x01 => (decB w).map Instr.bra
  | 0x02 => (decR w).map Instr.brx
  | 0x03 => (decB w).map Instr.call
  | 0x04 => (decR w).map Instr.ret
  | 0x05 => (decR w).map Instr.callsh
  | 0x06 => (decR w).map Instr.exit
  | 0x07 => (decR w).map Instr.yield
  | 0x08 => (decI w).map Instr.sleep
  | 0x09 => (decI w).map Instr.waitc
  | 0x0A => (decI w).map Instr.trap
  | 0x0B => (decI w).map Instr.brk
  | 0x0C => (decB w).map Instr.ubra
  | 0x0D => (decI w).map Instr.join
  | 0x10 => (decR w).map Instr.iadd
  | 0x11 => (decR w).map Instr.isub
  | 0x12 => (decR w).map Instr.imul
  | 0x13 => (decR w).map Instr.imulhi
  | 0x14 => (decR w).map Instr.imad
  | 0x15 => (decR w).map Instr.imadw
  | 0x16 => (decR w).map Instr.imin
  | 0x17 => (decR w).map Instr.imax
  | 0x18 => (decR w).map Instr.iabsd
  | 0x19 => (decR w).map Instr.idot4
  | 0x1A => (decR w).map Instr.icmp
  | 0x1B => (decR w).map Instr.isel
  | 0x1C => (decI w).map Instr.lea
  | 0x1D => (decR w).map Instr.iaddc
  | 0x1E => (decI w).map fun f => if f.xf.getLsbD 0 then Instr.movRegister f else Instr.movImmediate f
  | 0x1F => (decR w).map Instr.movk
  | 0x20 => (decR w).map Instr.andd
  | 0x21 => (decR w).map Instr.orr
  | 0x22 => (decR w).map Instr.xorr
  | 0x23 => (decR w).map Instr.andn
  | 0x24 => (decR w).map Instr.shl
  | 0x25 => (decR w).map Instr.shr
  | 0x26 => (decR w).map Instr.sar
  | 0x27 => (decR w).map Instr.rotl
  | 0x28 => (decI w).map Instr.bfx
  | 0x29 => (decR w).map Instr.bfi
  | 0x2A => (decR w).map Instr.popc
  | 0x2B => (decR w).map Instr.clz
  | 0x2C => (decR w).map Instr.brev
  | 0x2D => (decR w).map Instr.ffs
  | 0x2E => (decI w).map Instr.prmb
  | 0x2F => (decR w).map Instr.mix32
  | 0x30 => (decR w).map Instr.fadd
  | 0x31 => (decR w).map Instr.fsub
  | 0x32 => (decR w).map Instr.fmul
  | 0x33 => (decR w).map Instr.ffma
  | 0x34 => (decR w).map Instr.fmin
  | 0x35 => (decR w).map Instr.fmax
  | 0x36 => (decR w).map Instr.fdiv
  | 0x37 => (decR w).map Instr.fsqrt
  | 0x38 => (decR w).map Instr.frcp
  | 0x39 => (decR w).map Instr.frsq
  | 0x3A => (decR w).map Instr.fexp2
  | 0x3B => (decR w).map Instr.flog2
  | 0x3C => (decR w).map Instr.fsin
  | 0x3D => (decR w).map Instr.fcos
  | 0x3E => (decR w).map Instr.ffract
  | 0x3F => (decR w).map Instr.frnd
  | 0x40 => (decR w).map Instr.fcmp
  | 0x41 => (decR w).map Instr.fclass
  | 0x42 => (decR w).map Instr.cvtf
  | 0x43 => (decR w).map Instr.cvtfi
  | 0x44 => (decR w).map Instr.cvtif
  | 0x45 => (decR w).map Instr.cvtbfp
  | 0x46 => (decR w).map Instr.bfpexp
  | 0x47 => (decR w).map Instr.pack
  | 0x48 => (decR w).map Instr.unpack
  | 0x49 => (decI w).map Instr.frmset
  | 0x4A => (decI w).map Instr.fflags
  | 0x4B => (decR w).map Instr.srseed
  | 0x50 => (decR w).map Instr.ivadd
  | 0x51 => (decR w).map Instr.ivsub
  | 0x52 => (decR w).map Instr.ivmul
  | 0x53 => (decR w).map Instr.ivsqr
  | 0x54 => (decR w).map Instr.ivsqrt
  | 0x55 => (decR w).map Instr.ivmin
  | 0x56 => (decR w).map Instr.ivmax
  | 0x57 => (decR w).map Instr.ivabs
  | 0x58 => (decR w).map Instr.ivhyp
  | 0x59 => (decR w).map Instr.ivtest
  | 0x5A => (decR w).map Instr.afadd
  | 0x5B => (decR w).map Instr.afmul
  | 0x5C => (decR w).map Instr.afsqr
  | 0x5D => (decR w).map Instr.afsqrt
  | 0x5E => (decR w).map Instr.afabs
  | 0x5F => (decR w).map Instr.aftoiv
  | 0x60 => (decR w).map Instr.shfl
  | 0x61 => (decR w).map Instr.ballot
  | 0x62 => (decR w).map Instr.vote
  | 0x63 => (decR w).map Instr.scan
  | 0x64 => (decR w).map Instr.redx
  | 0x65 => (decR w).map Instr.matchx
  | 0x66 => (decR w).map Instr.msksave
  | 0x67 => (decR w).map Instr.mskand
  | 0x68 => (decR w).map Instr.mskrest
  | 0x69 => (decR w).map Instr.mskelse
  | 0x6A => (decI w).map Instr.xacq
  | 0x6B => (decI w).map Instr.xrel
  | 0x6C => (decI w).map Instr.wsync
  | 0x70 => (decM w).map Instr.ld
  | 0x71 => (decM w).map Instr.st
  | 0x72 => (decM w).map Instr.ldl
  | 0x73 => (decM w).map Instr.stl
  | 0x74 => (decM w).map Instr.ldc
  | 0x75 => (decM w).map Instr.prf
  | 0x76 => (decM w).map Instr.ldt
  | 0x77 => (decM w).map Instr.stt
  | 0x78 => (decM w).map Instr.fence
  | 0x79 => (decI w).map Instr.pfence
  | 0x7A => (decR w).map Instr.ifence
  | 0x7B => (decM w).map Instr.wb
  | 0x7C => (decM w).map Instr.inv
  | 0x7D => (decI w).map Instr.wayset
  | 0x80 => (decM w).map Instr.atom
  | 0x81 => (decM w).map Instr.red
  | 0x82 => (decM w).map Instr.cas
  | 0x83 => (decM w).map Instr.atoml
  | 0x84 => (decM w).map Instr.casl
  | 0x85 => (decM w).map Instr.bupd
  | 0x86 => (decM w).map Instr.bred
  | 0x87 => (decR w).map Instr.aflush
  | 0x90 => (decI w).map Instr.bar
  | 0x91 => (decI w).map Instr.barr
  | 0x92 => (decI w).map Instr.barw
  | 0x93 => (decI w).map Instr.cbar
  | 0x94 => (decI w).map Instr.gbar
  | 0x95 => (decI w).map Instr.larr
  | 0x96 => (decS w).map Instr.tlwait
  | 0x97 => (decS w).map Instr.tlread
  | 0x98 => (decS w).map Instr.cnwait
  | 0x99 => (decS w).map Instr.boinit
  | 0x9A => (decS w).map Instr.bowait
  | 0x9B => (decS w).map Instr.msgsend
  | 0x9C => (decS w).map Instr.msgpost
  | 0x9D => (decR w).map Instr.rgnb
  | 0xA0 => (decS w).map Instr.kick
  | 0xA1 => (decS w).map Instr.cbinit
  | 0xA2 => (decS w).map fun f => if f.xf.getLsbD 0 then Instr.cbpushCommit f else Instr.cbpushReserve f
  | 0xA3 => (decS w).map fun f => if f.xf.getLsbD 0 then Instr.cbpopTry f else Instr.cbpop f
  | 0xA4 => (decS w).map Instr.cbrel
  | 0xA5 => (decS w).map Instr.cbstat
  | 0xA6 => (decS w).map Instr.cpcancel
  | 0xA7 => (decS w).map Instr.tlsig
  | 0xA8 => (decS w).map Instr.ctxsel
  | 0xB0 => (decX w).map Instr.mxwld
  | 0xB1 => (decX w).map Instr.mxwsw
  | 0xB2 => (decX w).map Instr.mxmul
  | 0xB3 => (decX w).map Instr.mxzero
  | 0xB4 => (decX w).map Instr.mxdrn
  | 0xB5 => (decX w).map Instr.mxperm
  | 0xB6 => (decS w).map Instr.cvset
  | 0xB7 => (decS w).map Instr.cvstat
  | 0xC0 => (decR w).map Instr.tex
  | 0xC1 => (decR w).map Instr.texg
  | 0xC2 => (decR w).map Instr.brick
  | 0xC3 => (decR w).map Instr.texq
  | 0xC4 => (decR w).map Instr.rtw
  | 0xC5 => (decR w).map Instr.zt
  | 0xC6 => (decR w).map Instr.covq
  | 0xC7 => (decR w).map Instr.vbw
  | 0xC8 => (decS w).map Instr.emit
  | 0xC9 => (decS w).map fun f => if f.xf.getLsbD 0 then Instr.taskpopTry f else Instr.taskpop f
  | 0xD0 => (decR w).map Instr.march
  | 0xD1 => (decR w).map fun f => if f.xf.getLsbD 0 then Instr.mhitCo f else Instr.mhit f
  | 0xD2 => (decR w).map Instr.bcprune
  | 0xD3 => (decR w).map Instr.opqret
  | 0xD4 => (decR w).map Instr.trace
  | 0xD5 => (decR w).map fun f => if f.xf.getLsbD 0 then Instr.thitRay f else Instr.thit f
  | 0xD6 => (decR w).map Instr.tstack
  | 0xD7 => (decR w).map Instr.beam
  | 0xE0 => (decR w).map Instr.freeze
  | 0xE1 => (decI w).map Instr.nest
  | 0xE2 => (decR w).map Instr.fillend
  | 0xE3 => (decS w).map Instr.fillq
  | 0xE4 => (decS w).map Instr.filld
  | 0xE5 => (decI w).map Instr.phase
  | 0xF0 => (decI w).map Instr.csrr
  | 0xF1 => (decI w).map Instr.csrw
  | 0xF2 => (decR w).map Instr.tret
  | 0xF3 => (decI w).map Instr.svc
  | 0xF4 => (decI w).map Instr.trc
  | _ => none

/-- Whether an opcode is assigned (R262). -/
def opcodeAssigned (op : Nat) : Bool :=
  op ≤ 0x0D || (0x10 ≤ op && op ≤ 0x4B) || (0x50 ≤ op && op ≤ 0x6C) || (0x70 ≤ op && op ≤ 0x7D)
    || (0x80 ≤ op && op ≤ 0x87) || (0x90 ≤ op && op ≤ 0x9D) || (0xA0 ≤ op && op ≤ 0xA8) || (0xB0 ≤ op && op ≤ 0xB7)
    || (0xC0 ≤ op && op ≤ 0xC9) || (0xD0 ≤ op && op ≤ 0xD7) || (0xE0 ≤ op && op ≤ 0xE5) || (0xF0 ≤ op && op ≤ 0xF4)

/-- The decoder of one slot: total, refusing by name. -/
def decodeSlot (w : BitVec 96) : Except WfError Instr :=
  match decodeFields w with
  | none => .error (if opcodeAssigned (w.extractLsb' 0 8).toNat then .reservedBits else .unassignedOpcode)
  | some i =>
    match i.wfError with
    | none => .ok i
    | some e => .error e

/-- A decoder that reads a byte list: the slot's 12 bytes little-endian (R10, R241), and the rest. -/
def decodeBytes : List Byte → Except WfError (Instr × List Byte)
  | b0 :: b1 :: b2 :: b3 :: b4 :: b5 :: b6 :: b7 :: b8 :: b9 :: b10 :: b11 :: rest =>
    (decodeSlot (b11 ++ b10 ++ b9 ++ b8 ++ b7 ++ b6 ++ b5 ++ b4 ++ b3 ++ b2 ++ b1 ++ b0)).map fun i => (i, rest)
  | _ => .error .reservedBits

/-- The instruction read from an instruction whose bits are `w` (every bit above `nbits` is zero). -/
def decodeTableWord (_nbits w : Nat) : Option Instr :=
  match decodeSlot (BitVec.ofNat 96 w) with
  | .ok i => some i
  | .error _ => none

def bit (b : Bool) : BitVec 1 := if b then 1 else 0

def encHead (op : BitVec 8) (h : Head) : BitVec 17 := h.typ.toBits ++ bit h.inv ++ h.sel ++ op
def encDst (d : Dst) : BitVec 15 := d.scl ++ d.clp ++ d.file.toBits ++ d.num
def encSrc (s : Src) : BitVec 20 := bit s.abs ++ bit s.neg ++ s.param ++ s.perm.toBits ++ s.file.toBits ++ s.num

def encR (op : BitVec 8) (f : RForm) : BitVec 96 :=
  f.xf ++ encSrc f.c ++ encSrc f.b ++ encSrc f.a ++ encDst f.dst ++ encHead op f.h

def encI (op : BitVec 8) (f : IForm) : BitVec 96 :=
  (0 : BitVec 8) ++ f.xf ++ f.imm ++ encSrc f.a ++ encDst f.dst ++ encHead op f.h

def encS (op : BitVec 8) (f : SForm) : BitVec 96 :=
  f.xf ++ f.imm ++ encSrc f.b ++ encSrc f.a ++ encDst f.dst ++ encHead op f.h

def encM (op : BitVec 8) (f : MForm) : BitVec 96 :=
  (0 : BitVec 7) ++ f.xf ++ f.cnt.toBits ++ f.scp.toBits ++ f.ord.toBits ++ f.ret.toBits ++ f.ofs ++ encSrc f.base
    ++ encDst f.dat ++ encHead op f.h

def encB (op : BitVec 8) (f : BForm) : BitVec 96 :=
  (0 : BitVec 12) ++ encSrc f.cond ++ f.hint ++ (0 : BitVec 1) ++ bit f.lnkK ++ f.lnk ++ f.ts ++ f.loff ++ encHead op f.h

def encX (op : BitVec 8) (f : MXForm) : BitVec 96 :=
  (0 : BitVec 12) ++ f.kz ++ f.ky ++ f.kx ++ (0 : BitVec 3) ++ f.rm ++ bit f.acc ++ bit f.sgn ++ f.bits ++ f.cv
    ++ f.f2 ++ f.f1 ++ f.m ++ f.ar ++ bit f.arr ++ encHead op f.h

/-- The encoder, from the tables of R248-R262; an event has no encoding. -/
def encode : Instr → Option (BitVec 96)
  | .nop f => some (encR 0x00 f)
  | .bra f => some (encB 0x01 f)
  | .brx f => some (encR 0x02 f)
  | .call f => some (encB 0x03 f)
  | .ret f => some (encR 0x04 f)
  | .callsh f => some (encR 0x05 f)
  | .exit f => some (encR 0x06 f)
  | .yield f => some (encR 0x07 f)
  | .sleep f => some (encI 0x08 f)
  | .waitc f => some (encI 0x09 f)
  | .trap f => some (encI 0x0A f)
  | .brk f => some (encI 0x0B f)
  | .ubra f => some (encB 0x0C f)
  | .join f => some (encI 0x0D f)
  | .iadd f => some (encR 0x10 f)
  | .isub f => some (encR 0x11 f)
  | .imul f => some (encR 0x12 f)
  | .imulhi f => some (encR 0x13 f)
  | .imad f => some (encR 0x14 f)
  | .imadw f => some (encR 0x15 f)
  | .imin f => some (encR 0x16 f)
  | .imax f => some (encR 0x17 f)
  | .iabsd f => some (encR 0x18 f)
  | .idot4 f => some (encR 0x19 f)
  | .icmp f => some (encR 0x1A f)
  | .isel f => some (encR 0x1B f)
  | .lea f => some (encI 0x1C f)
  | .iaddc f => some (encR 0x1D f)
  | .movImmediate f => some (encI 0x1E f)
  | .movRegister f => some (encI 0x1E f)
  | .movk f => some (encR 0x1F f)
  | .andd f => some (encR 0x20 f)
  | .orr f => some (encR 0x21 f)
  | .xorr f => some (encR 0x22 f)
  | .andn f => some (encR 0x23 f)
  | .shl f => some (encR 0x24 f)
  | .shr f => some (encR 0x25 f)
  | .sar f => some (encR 0x26 f)
  | .rotl f => some (encR 0x27 f)
  | .bfx f => some (encI 0x28 f)
  | .bfi f => some (encR 0x29 f)
  | .popc f => some (encR 0x2A f)
  | .clz f => some (encR 0x2B f)
  | .brev f => some (encR 0x2C f)
  | .ffs f => some (encR 0x2D f)
  | .prmb f => some (encI 0x2E f)
  | .mix32 f => some (encR 0x2F f)
  | .fadd f => some (encR 0x30 f)
  | .fsub f => some (encR 0x31 f)
  | .fmul f => some (encR 0x32 f)
  | .ffma f => some (encR 0x33 f)
  | .fmin f => some (encR 0x34 f)
  | .fmax f => some (encR 0x35 f)
  | .fdiv f => some (encR 0x36 f)
  | .fsqrt f => some (encR 0x37 f)
  | .frcp f => some (encR 0x38 f)
  | .frsq f => some (encR 0x39 f)
  | .fexp2 f => some (encR 0x3A f)
  | .flog2 f => some (encR 0x3B f)
  | .fsin f => some (encR 0x3C f)
  | .fcos f => some (encR 0x3D f)
  | .ffract f => some (encR 0x3E f)
  | .frnd f => some (encR 0x3F f)
  | .fcmp f => some (encR 0x40 f)
  | .fclass f => some (encR 0x41 f)
  | .cvtf f => some (encR 0x42 f)
  | .cvtfi f => some (encR 0x43 f)
  | .cvtif f => some (encR 0x44 f)
  | .cvtbfp f => some (encR 0x45 f)
  | .bfpexp f => some (encR 0x46 f)
  | .pack f => some (encR 0x47 f)
  | .unpack f => some (encR 0x48 f)
  | .frmset f => some (encI 0x49 f)
  | .fflags f => some (encI 0x4A f)
  | .srseed f => some (encR 0x4B f)
  | .ivadd f => some (encR 0x50 f)
  | .ivsub f => some (encR 0x51 f)
  | .ivmul f => some (encR 0x52 f)
  | .ivsqr f => some (encR 0x53 f)
  | .ivsqrt f => some (encR 0x54 f)
  | .ivmin f => some (encR 0x55 f)
  | .ivmax f => some (encR 0x56 f)
  | .ivabs f => some (encR 0x57 f)
  | .ivhyp f => some (encR 0x58 f)
  | .ivtest f => some (encR 0x59 f)
  | .afadd f => some (encR 0x5A f)
  | .afmul f => some (encR 0x5B f)
  | .afsqr f => some (encR 0x5C f)
  | .afsqrt f => some (encR 0x5D f)
  | .afabs f => some (encR 0x5E f)
  | .aftoiv f => some (encR 0x5F f)
  | .shfl f => some (encR 0x60 f)
  | .ballot f => some (encR 0x61 f)
  | .vote f => some (encR 0x62 f)
  | .scan f => some (encR 0x63 f)
  | .redx f => some (encR 0x64 f)
  | .matchx f => some (encR 0x65 f)
  | .msksave f => some (encR 0x66 f)
  | .mskand f => some (encR 0x67 f)
  | .mskrest f => some (encR 0x68 f)
  | .mskelse f => some (encR 0x69 f)
  | .xacq f => some (encI 0x6A f)
  | .xrel f => some (encI 0x6B f)
  | .wsync f => some (encI 0x6C f)
  | .ld f => some (encM 0x70 f)
  | .st f => some (encM 0x71 f)
  | .ldl f => some (encM 0x72 f)
  | .stl f => some (encM 0x73 f)
  | .ldc f => some (encM 0x74 f)
  | .prf f => some (encM 0x75 f)
  | .ldt f => some (encM 0x76 f)
  | .stt f => some (encM 0x77 f)
  | .fence f => some (encM 0x78 f)
  | .pfence f => some (encI 0x79 f)
  | .ifence f => some (encR 0x7A f)
  | .wb f => some (encM 0x7B f)
  | .inv f => some (encM 0x7C f)
  | .wayset f => some (encI 0x7D f)
  | .atom f => some (encM 0x80 f)
  | .red f => some (encM 0x81 f)
  | .cas f => some (encM 0x82 f)
  | .atoml f => some (encM 0x83 f)
  | .casl f => some (encM 0x84 f)
  | .bupd f => some (encM 0x85 f)
  | .bred f => some (encM 0x86 f)
  | .aflush f => some (encR 0x87 f)
  | .bar f => some (encI 0x90 f)
  | .barr f => some (encI 0x91 f)
  | .barw f => some (encI 0x92 f)
  | .cbar f => some (encI 0x93 f)
  | .gbar f => some (encI 0x94 f)
  | .larr f => some (encI 0x95 f)
  | .tlwait f => some (encS 0x96 f)
  | .tlread f => some (encS 0x97 f)
  | .cnwait f => some (encS 0x98 f)
  | .boinit f => some (encS 0x99 f)
  | .bowait f => some (encS 0x9A f)
  | .msgsend f => some (encS 0x9B f)
  | .msgpost f => some (encS 0x9C f)
  | .rgnb f => some (encR 0x9D f)
  | .kick f => some (encS 0xA0 f)
  | .cbinit f => some (encS 0xA1 f)
  | .cbpushReserve f => some (encS 0xA2 f)
  | .cbpushCommit f => some (encS 0xA2 f)
  | .cbpop f => some (encS 0xA3 f)
  | .cbpopTry f => some (encS 0xA3 f)
  | .cbrel f => some (encS 0xA4 f)
  | .cbstat f => some (encS 0xA5 f)
  | .cpcancel f => some (encS 0xA6 f)
  | .tlsig f => some (encS 0xA7 f)
  | .ctxsel f => some (encS 0xA8 f)
  | .mxwld f => some (encX 0xB0 f)
  | .mxwsw f => some (encX 0xB1 f)
  | .mxmul f => some (encX 0xB2 f)
  | .mxzero f => some (encX 0xB3 f)
  | .mxdrn f => some (encX 0xB4 f)
  | .mxperm f => some (encX 0xB5 f)
  | .cvset f => some (encS 0xB6 f)
  | .cvstat f => some (encS 0xB7 f)
  | .tex f => some (encR 0xC0 f)
  | .texg f => some (encR 0xC1 f)
  | .brick f => some (encR 0xC2 f)
  | .texq f => some (encR 0xC3 f)
  | .rtw f => some (encR 0xC4 f)
  | .zt f => some (encR 0xC5 f)
  | .covq f => some (encR 0xC6 f)
  | .vbw f => some (encR 0xC7 f)
  | .emit f => some (encS 0xC8 f)
  | .taskpop f => some (encS 0xC9 f)
  | .taskpopTry f => some (encS 0xC9 f)
  | .march f => some (encR 0xD0 f)
  | .mhit f => some (encR 0xD1 f)
  | .mhitCo f => some (encR 0xD1 f)
  | .bcprune f => some (encR 0xD2 f)
  | .opqret f => some (encR 0xD3 f)
  | .trace f => some (encR 0xD4 f)
  | .thit f => some (encR 0xD5 f)
  | .thitRay f => some (encR 0xD5 f)
  | .tstack f => some (encR 0xD6 f)
  | .beam f => some (encR 0xD7 f)
  | .freeze f => some (encR 0xE0 f)
  | .nest f => some (encI 0xE1 f)
  | .fillend f => some (encR 0xE2 f)
  | .fillq f => some (encS 0xE3 f)
  | .filld f => some (encS 0xE4 f)
  | .phase f => some (encI 0xE5 f)
  | .csrr f => some (encI 0xF0 f)
  | .csrw f => some (encI 0xF1 f)
  | .tret f => some (encR 0xF2 f)
  | .svc f => some (encI 0xF3 f)
  | .trc f => some (encI 0xF4 f)
  | _ => none

end Sys2Proof
end

