-- ==== Sys2Proof/Machine/Line.lean ====
section
/-! DEFINITION. Code lines: the line word, the line check with the pairing rules (R241-R243, R246), and the fetch of a
line through the core's instruction lines (R104, R243, R245). -/

namespace Sys2Proof.Machine

/-- A code line is 512 bits: five slots of 96 and the line word (R241). -/
def slotBits (l : BitVec 512) (j : Nat) : BitVec 96 := l.extractLsb' (96 * j) 96
def lineWord (l : BitVec 512) : BitVec 32 := l.extractLsb' 480 32
def lineTgt (l : BitVec 512) (j : Nat) : Bool := (lineWord l).getLsbD (12 + j)
def linePair (l : BitVec 512) (j : Nat) : Bool := j < 4 && (lineWord l).getLsbD (8 + j)

/-- PAR (R242): bit i is the parity of a 60-bit chunk. -/
def lineParity (l : BitVec 512) : Nat :=
  sumOf ((List.range 8).map fun i => 2 ^ i * (popcount 60 (bits l (60 * i + 59) (60 * i)) % 2))

/-- The pairable set and the multiplier set (R246). -/
def pairable (op : Nat) : Bool :=
  (0x10 ≤ op && op ≤ 0x2F) || (0x30 ≤ op && op ≤ 0x35) || (0x3E ≤ op && op ≤ 0x3F) || (0x40 ≤ op && op ≤ 0x41)
def multiplier (op : Nat) : Bool := [0x12, 0x13, 0x14, 0x15, 0x19, 0x32, 0x33].contains op

/-- Registers of a file that a list of uses reads: v as (0, n), k as (1, n), c as (2, n), special as (3, n). -/
def useRegs (u : SrcUse) : List (Nat × Nat) :=
  match u.s.file with
  | .v => (List.range u.n).map fun i => (0, u.s.num.toNat + i)
  | .k => (List.range u.n).map fun i => (1, u.s.num.toNat + i)
  | .c => [(2, u.s.num.toNat)]
  | .x => if u.s.num.toNat < 0x80 then [(3, u.s.num.toNat)] else []

/-- Whether an instruction writes a condition bit as a compare does (R34, R335, R343). -/
def compares (i : Instr) : Bool :=
  match i with
  | .icmp _ | .fcmp _ | .ivtest _ | .vote _ => true
  | _ => false

/-- Registers an instruction writes: its destination, in forerunner mode a compare's complement (R34), and the condition
bit that `iaddc` writes beside it. -/
def writeRegs (fore : Bool) (i : Instr) : List (Nat × Nat) :=
  let d := match i.uses.dst with
    | none => []
    | some d =>
      match d.d.file with
      | .v => (List.range d.n).map fun j => (0, d.d.num.toNat + j)
      | .k => (List.range d.n).map fun j => (1, d.d.num.toNat + j)
      | .c => (2, d.d.num.toNat) :: if fore && compares i then [(2, d.d.num.toNat ^^^ 1)] else []
  match i with
  | .iaddc f => (2, f.c.num.toNat) :: d
  | _ => d

def readRegs (i : Instr) : List (Nat × Nat) := (i.uses.srcs.flatMap useRegs).eraseDups

/-- The condition bit that an instruction's guard reads. -/
def guardRegs (i : Instr) : List (Nat × Nat) := if i.head.sel.toNat < 12 then [(2, i.head.sel.toNat)] else []

/-- The reserved values of a pairable slot, which name no register: a destination's FILE 11, a source's PERM 111, and bits
[95:88] of the immediate format (R248-R251). -/
def slotReserved (w : BitVec 96) : Bool × List Nat × Bool :=
  let imm := [0x1C, 0x1E, 0x28, 0x2E].contains (bits w 7 0)
  (w.extractLsb' 25 2 == 3, (if imm then [42] else [42, 62, 82]).filter fun p => w.extractLsb' p 3 == 7, imm)

/-- A pairable slot with 0 for its reserved values, and whether it names no destination. -/
def mendSlot (w : BitVec 96) : BitVec 96 × Bool :=
  let (noDst, perms, imm) := slotReserved w
  let w1 := if noDst then w &&& ~~~(3#96 <<< 25) else w
  let w2 := perms.foldl (fun w p => w &&& ~~~(7#96 <<< p)) w1
  (if imm then w2 &&& ~~~(0xFF#96 <<< 88) else w2, noDst)

/-- What a slot names, for the pairing rules: registers written, registers read, its guard. A reserved value names nothing,
and the slot's other fields still name what they name (assumption 122). -/
def pairRegs (fore : Bool) (w : BitVec 96) : List (Nat × Nat) × List (Nat × Nat) × List (Nat × Nat) :=
  let (w1, noDst) := mendSlot w
  match decodeFields w1 with
  | some i => ((writeRegs fore i).filter fun r => !noDst || r.1 == 2, readRegs i, guardRegs i)
  | none => ([], [], [])

/-- The pairing rules (R246) on two slots, in forerunner mode or not. -/
def pairOk (fore : Bool) (w1 w2 : BitVec 96) : Bool :=
  let op1 := bits w1 7 0
  let op2 := bits w2 7 0
  let (wa, ra, _) := pairRegs fore w1
  let (wb, rb, gb) := pairRegs fore w2
  let reads := (ra ++ rb).eraseDups
  let vs := reads.filter fun r => r.1 == 0
  let us := reads.filter fun r => r.1 == 1 || r.1 == 3
  pairable op1 && pairable op2 && !(multiplier op1 && multiplier op2)
    && !(wa.any fun r => wb.contains r) && !(rb ++ gb).any (fun r => wa.contains r) && vs.length ≤ 4
    && ((vs.map fun r => r.2 % 4).eraseDups).length == vs.length && us.length ≤ 1

/-- The failed checks of a line (R243): [0] parity, [1] PAIR, [2] KIND, [3] reserved bits, [4] pairing restriction,
[5] TGT on a second slot. In forerunner mode a compare writes two bits (R34). -/
def lineCheck (fore : Bool) (l : BitVec 512) : BitVec 6 :=
  let w := lineWord l
  let pairs := (List.range 4).filter (linePair l)
  let par := lineParity l ≠ bits w 7 0
  let adj := pairs.any fun j => linePair l (j + 1)
  let kind := bits w 18 17 ≠ 0
  let resv := bits w 31 19 ≠ 0
  let restr := pairs.any fun j => !pairOk fore (slotBits l j) (slotBits l (j + 1))
  let tgt := pairs.any fun j => lineTgt l (j + 1)
  BitVec.ofNat 6 ((if par then 1 else 0) + (if adj then 2 else 0) + (if kind then 4 else 0) + (if resv then 8 else 0)
    + (if restr then 16 else 0) + (if tgt then 32 else 0))

/-- A fetched code line: its 512 bits, or the checks it failed with those bits (it is then not cached). -/
abbrev Code := Except (BitVec 6 × BitVec 512) (BitVec 512)

def Code.raw (c : Code) : BitVec 512 :=
  match c with
  | .ok l => l
  | .error e => e.2

/-- The request of a thread's fetch; it holds no waiter entry beyond its wave. -/
def fetchReq (s : State) (t : TRef) : Req :=
  match s.threadBlock? t with
  | some b => { t := some t, core := waveCore t.wave, part := b.part, asid := b.asid, agen := b.agen, access := 4
                aborts := false, waiter := some (.wave t.wave), gen := b.genItem }
  | none => { t := some t, core := waveCore t.wave, part := 0, asid := 0, agen := 0, access := 4
              aborts := false, waiter := some (.wave t.wave), gen := none }

/-- Fetch the code line at a 64-byte-aligned address: from the core's instruction lines, else from the CSM, checked
as it is entered and cached only when it passes (R104, R243). -/
def fetchLine (s : State) (t : TRef) (base : Nat) : Mem Code :=
  let core := waveCore t.wave
  let r := fetchReq s t
  let fore := match s.threadBlock? t with | some b => b.forerunner | none => false
  let line := base / 128 * 128
  let o := base % 128
  let part (v : BitVec 1024) : BitVec 512 := v.extractLsb' (8 * o) 512
  match (lines s core .icache).find? fun l => l.is r.asid r.agen base none with
  | some l =>
    let c := l.val.extractLsb' 0 512
    -- a line that passed for a native kernel has not been checked for a forerunner one
    if fore && lineCheck true c ≠ 0 then .ok s (.error (lineCheck true c, c)) else .ok s (.ok c)
  | none =>
    Mem.bind (bankRead s r line (byteMask o 64) .default true) fun s v =>
      let c := part v
      let bad := lineCheck fore c
      if bad ≠ 0 then .ok s (.error (bad, c))
      else
        let ln := { newLine r.asid r.agen base with val := c.zeroExtend 1024, valid := byteMask 0 64 }
        .ok (placeLine s core .icache ln) (.ok c)

/-- The slot number of a program counter within its line. -/
def slotOf (pc : Nat) : Nat := pc % 64 / 12

end Sys2Proof.Machine
end

