-- ==== Sys2Proof/Machine/Ops.lean ====
section
/-! DEFINITION. The shared operations: regions (R107-R111), releases and acquires (R80-R82), taking a trap and
halting (R264-R266), the end of a thread, a block and a launch (R18, R285, R466), collectives that an arrival or an end
completes (R25, R26, R368, R369), fill failure (R215), and the fates of a miss (R106). Consequences run from one
worklist, so that each is written once. -/

namespace Sys2Proof.Machine

/-! ### Regions -/

/-- A new region begins at an address (R107). -/
def beginRegion (s : State) (t : TRef) (pc : BitVec 64) : State :=
  let (n, s1) := s.tickSeq
  s1.modThread t fun x => { x with regionPc := pc, regionSeq := n }

/-- A side-effecting operation is issued: the region ends, its bytes become ordinary dirty bytes, and the region of
the operation itself begins at it (R107, R108). -/
def endRegion (s : State) (t : TRef) : State := beginRegion (commitSpec s t) t (s.thread t).pc

/-- Loads of a thread that satisfy a test are forgotten, and LD falls by as many (R109). -/
def dropLoads (s : State) (t : TRef) (p : PendLoad → Bool) : State :=
  let gone := (s.loads.filter fun l => l.t == t && p l).length
  let s1 := { s with loads := s.loads.filter fun l => !(l.t == t && p l) }
  s1.modThread t fun x => { x with ld := x.ld - gone }

/-- A thread without march and traversal contexts, its units' runs dropped (R159). -/
def Thread.noContexts (x : Thread) : Thread := 
  { x with march := none, marchRuns := [], trav := none, travRuns := [], heldRun := none, unitsWere := none }

/-- Whether a fetch holds a run of this unit in the thread. -/
def Thread.holds (x : Thread) (unit : Nat) : Bool := x.heldRun.any fun h => h.unit == unit

/-- Cancel the march and traversal runs that satisfy a test; the context the first of them resumed is held again. -/
def Thread.cancelRuns (x : Thread) (p : Nat → Bool) : Thread :=
  let m := x.marchRuns.filter fun r => p r.region
  let t := x.travRuns.filter fun r => p r.region
  { x with marchRuns := x.marchRuns.filter fun r => !p r.region
           march := match m with | r :: _ => r.back | [] => x.march
           travRuns := x.travRuns.filter fun r => !p r.region
           trav := match t with | r :: _ => r.back | [] => x.trav, heldRun := none }

/-- A run of a march or traversal unit starts: the first of its region notes what the units held before it, `march` and `trav`
being the contexts. -/
def Thread.notesUnits (x : Thread) (march : Option MarchCtx) (trav : Option TravCtx) : Thread :=
  if x.unitsWere.any fun u => u.region == x.regionSeq then x
  else { x with unitsWere := some ⟨x.regionSeq, march, x.marchRec, trav, x.hitRec⟩ }

/-- The thread's present region replays: its runs are cancelled, and the units hold again what the region found, so that the
replay meets the callout that the first attempt met (R160, R442; assumption 125). -/
def Thread.replaysUnits (x : Thread) : Thread :=
  let y := x.cancelRuns (· == x.regionSeq)
  match x.unitsWere with
  | some u => if u.region = x.regionSeq then { y with march := u.march, marchRec := u.marchRec, trav := u.trav, hitRec := u.hitRec } else y
  | none => y

/-- A waiting `bowait` that does not go on: the waiters word falls (R374). -/
def leaveBowait (s : State) (t : TRef) : State :=
  match (s.thread t).wait, s.threadBlock? t with
  | some (.bowait _ off), some b => setOwnWord s b (off + 8) (ownWord s b (off + 8) - 1)
  | _, _ => s

/-- Whether a sampled access is still outstanding (R534). -/
def Sample.waits (s : State) (e : Sample) : Bool :=
  e.num != 0 && (s.loads.any (fun l => l.sample == e.num && !l.live) || s.stores.any fun p => p.sample == e.num && !p.fin)

/-- The samples of a region's outstanding accesses end, and the retried accesses start fresh ones (R534). -/
def endSamples (s : State) (t : TRef) (region : Nat) : State :=
  let p := threadPart s t
  let gone (e : Sample) : Bool := e.t == t && e.region == region && e.waits s
  match (s.part p).trace.samples.filter gone with
  | [] => s
  | es =>
    (s.modPart p fun x => { x with trace := { x.trace with samples := x.trace.samples.filter fun e => !gone e } }).modThread t
      fun x => { x with resample := x.resample ++ es.map Sample.pc }

/-- Abort a region (R109): speculative bytes and load results are discarded, the runs it started are cancelled, and the
thread is back at its start. -/
def abortRegion (s : State) (t : TRef) : State :=
  let n := (s.thread t).regionSeq
  let s := dropStamps (endSamples s t n) t n
  let s1 := dropLoads (discardSpec (leaveBowait s t) t) t fun l => l.region == n
  s1.modThread t fun x => { x.replaysUnits with pc := x.regionPc, wait := none, together := 0 }

def setWait (s : State) (t : TRef) (w : Wait) : State := s.modThread t fun x => { x with wait := some w }
def clearWait (s : State) (t : TRef) : State := s.modThread t fun x => { x with wait := none, readyAt := s.cycle }
def setPc (s : State) (t : TRef) (pc : BitVec 64) : State := s.modThread t fun x => { x with pc := pc }
/-- The thread goes on at the next slot (R244). -/
def advance (s : State) (t : TRef) : State := s.modThread t fun x => { x with pc := nextPc x.pc }

/-- A wait that ends inside another thread's step: the waiting instruction completes and its region's successor
begins. -/
def release1 (s : State) (t : TRef) : State :=
  let s1 := advance (clearWait s t) t
  beginRegion s1 t (s1.thread t).pc

/-! ### Releases and acquires -/

/-- What stops an operation or a release at a bank or at an owning agent. -/
inductive Stop where
  | trap (x : Trap)
  | miss (m : Miss)
  deriving DecidableEq, Repr

/-- The steps of a release by a thread whose region has ended (R80, R112, R114): the release record, a trap 0x1A, or the
wait for a failed peer (R506). -/
def doRelease (s : State) (t : TRef) (scope : Scope) : State × Except Stop (Option RelTag) :=
  if Scope.wide scope then
    match releaseCaches s (waveCore t.wave) scope with
    | (s1, some f) => (s1, .error (.trap ⟨0x1A, q f.va, f.mask, false, f.extra⟩))
    | (s1, none) =>
      match s1.threadBlock? t with
      | none => (s1, .ok none)
      | some b =>
        if scope = .system ∧ peerStuck s1 b.asid then (s1, .error (.miss .peer))
        else let (s2, n) := raceRelease s1 b.id scope; (s2, .ok n)
  else (s, .ok none)

/-- The steps of an acquire (R81); `rel` names the releases it synchronises with. -/
def doAcquire (s : State) (t : TRef) (scope : Scope) (rel : List Nat) : State :=
  let s1 := acquireGeneric s (waveCore t.wave) scope
  match s1.threadBlock? t with
  | some b => if Scope.wide scope then raceAcquire s1 b.id scope rel else s1
  | none => s1

/-- An acquire edge without a release record of its own: a barrier's, a byte barrier's, a message's (R84, R114). -/
def edgeAcquire (s : State) (t : TRef) (scope : Scope) : State :=
  raceAcquireAll (acquireGeneric s (waveCore t.wave) scope) (s.wave t.wave).block

/-- An edge that covers every path at device scope (R84, R97). -/
def doAcquireAll (s : State) (t : TRef) : State :=
  raceAcquireAll (acquireAll s (waveCore t.wave) .device) (s.wave t.wave).block

/-! ### Rings and completions -/

/-- The later of a counter and a value under the 48-bit rule, with the error bit (R465, R466). -/
def moveTimeline (s : State) (ctx : Nat) (value : Nat) (err : Bool) : State :=
  if ctx ≥ 1024 then s
  else s.modCtx ctx fun c =>
    let low := bits c.counter 47 0
    let low' := if atLeast48 low (value % 2 ^ 48) then low else value % 2 ^ 48
    { c with counter := q (c.counter.toNat / 2 ^ 48 * 2 ^ 48 + low') ||| (if err then q (2 ^ 63) else 0) }

def Part.eventsFull (p : Part) : Bool := (p.evtail + 1) % 256 == p.evhead

/-- Ticks in a millisecond. -/
def milliTicks : Nat := 100000

/-- A partition binds nothing while its Sextant core has failed (R517): in mode 01, until the spare has taken it over; with
none left to take it over, until MODE, PGHOST and SVCH name the built-in agents or the host. -/
def bindsNothing (s : State) (p : Nat) : Bool :=
  let x := s.part p
  (x.mode == 1 && (x.takeover.isSome || x.sextantStopped)) || (x.sextantDown && !(x.mode != 1 && x.pghost && x.svch))

/-- An MSI-X vector, unless the event's agent is Sextant or hardware (R501). -/
def raiseMsix (s : State) (p : Nat) (vec : Nat) (host : Bool) : State :=
  if host then s.modPart p fun x => { x with msix := x.msix ||| (1#4 <<< vec) } else s

/-- Write one event record at EVTAIL (R468). -/
def writeEvent (s : State) (p : Nat) (r : BitVec 128) : State :=
  let x := s.part p
  let s1 := ringWrite s p (x.evbase.toNat + 16 * x.evtail) (toBytes 16 r.toNat)
  let s2 := s1.modPart p fun x => { x with evtail := (x.evtail + 1) % 256 }
  raiseMsix s2 p 1 ((s2.part p).mode == 2)

def eventRecord (kind queue handle detail : Nat) (va : BitVec 64) : BitVec 128 :=
  BitVec.ofNat 128 (kind + 2 ^ 8 * queue + 2 ^ 16 * handle + 2 ^ 32 * detail + 2 ^ 64 * va.toNat)

/-- Blocks of a launch's whole grid (R15, R16). -/
def Desc.blocks (d : Desc) : Nat := d.stages * d.bpc * (d.grid.1 * d.grid.2.1 * d.grid.2.2)

/-- The release that ends a launch (R84, R466): every core's dirty bytes and raster bytes reach their banks, and those of
peer lines their owners; bytes a bank refuses are dropped with a record. -/
def systemRelease (s : State) : State :=
  let every (_ : Line) : Bool := true
  let core (s : State) (c : Nat) : State :=
    flushRaster (writeBack (writeBack (drainWbs s fun b => b.core == c) c .l1 every) c .tile every) c (corePart s c)
  forwardPeers ((s.cores.map Prod.fst).foldl core s)

/-- The end of a launch (R466): the release, the completion counter, the event record, the handle freed. -/
def endLaunchNow (s : State) (h : Nat) : State :=
  match s.launch? h with
  | none => s
  | some l =>
    let s1 := systemRelease s
    let s2 := moveTimeline s1 l.d.compCtx (l.d.compVal.toNat) l.faulted
    let settle (x : Part) : Part := { x with preempts := x.preempts.filter fun r => r.handle != h }
    let s3 : State := { forgetRaces s2 h with
                        launches := s2.launches.del h
                        parts := s2.parts.map fun e => (e.1, settle e.2)
                        templates := s2.templates.filter fun t => t.launch != h }
    if (s3.part l.part).mode = 0 then s3
    else
      let r := eventRecord 3 l.queue h (if l.faulted then 1 else 0) 0
      if (s3.part l.part).events = [] ∧ !(s3.part l.part).eventsFull then writeEvent s3 l.part r
      else s3.modPart l.part fun p => { p with events := p.events ++ [(false, r)] }

/-- Whether every block or item of a launch that will run has ended (R195, R466). -/
def launchDone (s : State) (h : Nat) (l : Launch) : Bool :=
  let resident := s.blocks.any (fun b => b.launch == h && !b.gen) || s.images.any (fun i => i.launch == h)
  let blocks := l.endedBlocks == l.d.blocks
  let items := l.d.flags.getLsbD 2 && (l.prologueLost || (l.tpl.isSome && l.itemNext ≥ l.d.items && l.itemsLive == 0))
    && l.endedBlocks > 0
  !resident && (blocks || items)

/-- A block's end has been reported: count it, and end the launch with its last block (R466, R468). -/
def countBlockEnd (s : State) (h : Nat) : State :=
  let s1 := s.modLaunch h fun l => { l with endedBlocks := l.endedBlocks + 1 }
  match s1.launch? h with
  | some l => if launchDone s1 h l then endLaunchNow s1 h else s1
  | none => s1

/-- Write held event records while the ring has room; a written block-end record lets its launch go on (R468). -/
def flushEvents (s : State) (p : Nat) : Nat → State
  | 0 => s
  | n + 1 =>
    match (s.part p).events with
    | [] => s
    | (ends, r) :: rest =>
      if (s.part p).eventsFull then s
      else
        let s1 := writeEvent (s.modPart p fun x => { x with events := rest }) p r
        let s2 := if ends then countBlockEnd s1 (bits r 31 16) else s1
        flushEvents s2 p n

/-- Held event records of a partition whose binder is now the built-in arbiter: its ring is not written, and the ends they
report are counted (R468). -/
def dropEvents (s : State) (p : Nat) : State :=
  (s.part p).events.foldl (fun s e => if e.1 then countBlockEnd s (bits e.2 31 16) else s)
    (s.modPart p fun x => { x with events := [] })

/-- Queue an event record and write what the ring has room for. -/
def postEvent (s : State) (p : Nat) (ends : Bool) (r : BitVec 128) : State :=
  let s1 := s.modPart p fun x => { x with events := x.events ++ [(ends, r)] }
  flushEvents s1 p ((s1.part p).events.length + 1)

/-- Report a block's end (R468); a pre-empted block's does not count towards the launch's. In built-in mode the ring
is not written. -/
def reportBlock (s : State) (b : Block) (faulted ends : Bool) : State :=
  match s.launch? b.launch with
  | none => s
  | some l =>
    if (s.part b.part).mode = 0 then (if ends then countBlockEnd s b.launch else s)
    else
      let detail := b.core + 2 ^ 16 * b.bid + 2 ^ 24 * b.stage + (if faulted then 2 ^ 26 else 0)
      postEvent s b.part ends (eventRecord 2 l.queue b.launch detail 0)

def reportBlockEnd (s : State) (b : Block) (faulted : Bool) : State := reportBlock s b faulted true

/-! ### Extension blocks (R28-R31) -/

/-- A saved coordinate (R497), and a block of it. -/
def imageOf (s : State) (h : Nat) (coord : Nat × Nat × Nat) : Option Image :=
  s.images.find? fun i => i.written && i.launch == h && i.coord == coord
def savedBlock? (s : State) (h : Nat) (coord : Nat × Nat × Nat) (stage bid : Nat) : Option (Image × Block) :=
  (imageOf s h coord).bind fun i => (i.blocks.find? fun b => b.stage == stage && b.bid == bid).map fun b => (i, b)

/-- The slots a bind record names, wave 0's first, as lane set * 8 + slot. -/
def BindRec.slotList (r : BindRec) : List Nat := (List.range 16).filter (r.slots.getLsbD ·)

/-- Extension blocks that the waves of a record hold when bound: the launch's pre-granted count, or what they held when
they were saved (R30, R139). -/
def recordExts (s : State) (r : BindRec) : List Nat :=
  match savedBlock? s r.handle r.coord r.stage r.bid with
  | some (i, b) => b.waves.map fun w => ((i.waves.find? fun e => e.1 == w).map fun e => e.2.ext).getD 0
  | none =>
    match s.launch? r.handle with
    | some l => List.replicate l.d.waves l.d.pregrant
    | none => []

/-- Extension blocks that a record takes from lane set 0 or 1 of its core. -/
def recordExt (s : State) (r : BindRec) (ls : Nat) : Nat :=
  sumOf ((r.slotList.zip (recordExts s r)).map fun e => if e.1 / 8 = ls then e.2 else 0)

/-- Reservations that have not lapsed (R470). -/
def liveReservations (s : State) : List Reservation :=
  s.reservations.filter fun x => s.tick.toNat < x.tick + (s.part x.part).resexp

def Desc.isTemplate (d : Desc) : Bool := d.flags.getLsbD 2

/-- Second-level templates of a cluster (R203). -/
def clusterTemplates (s : State) (h : Nat) (coord : Nat × Nat × Nat) (stage : Nat) : List Nat :=
  (s.templates.filter fun y => y.launch == h && y.level == 2 && y.coord == coord && y.stage == stage).map fun y => y.id

/-- Template-bank entries a record needs (R203): the launch's own, and those of a saved cluster. -/
def bankWant (s : State) (r : BindRec) (d : Desc) : List (Nat × Nat) :=
  if !d.isTemplate then []
  else
    (r.handle, 0) :: if (imageOf s r.handle r.coord).isSome then
      (clusterTemplates s r.handle r.coord r.stage).map fun y => (r.handle, y) else []

/-- Template-bank entries of a core that are held there or reserved (R203). -/
def heldBanks (s : State) (core : Nat) : List (Nat × Nat) :=
  let want (x : Reservation) : List (Nat × Nat) := match s.launch? x.r.handle with | some l => bankWant s x.r l.d | none => []
  ((s.core core).banks ++ ((liveReservations s).filter fun x => x.core == core).flatMap want).eraseDups

/-- Extension blocks of a lane set (core * 2 + lane set) that no bound wave holds. -/
def poolUnbound (s : State) (ls : Nat) : Nat :=
  8 - sumOf ((List.filter (fun e : Nat × Wave => waveLaneSet e.1 == ls) s.waves).map fun e => e.2.ext)

/-- Free extension blocks of a lane set (core * 2 + lane set). -/
def poolFree (s : State) (ls : Nat) : Nat :=
  poolUnbound s ls - sumOf ((liveReservations s).map fun x => if x.core = ls / 2 then recordExt s x.r (ls % 2) else 0)

/-- The extension-block wait of a wave: what it needs in all, and since when. Groups of one wave that wait with different
counts make one request here, of the greatest count, since the earliest arrival (R29; the model's choice, assumption 96). -/
def extWait (s : State) (w : Nat) : Option (Nat × Nat) :=
  match (waveThreads s w).filterMap fun t => match (s.thread t).wait with | some (.ext n q _) => some (n, q) | _ => none with
  | [] => none
  | e :: rest => some (rest.foldl (fun a b => (max a.1 b.1, min a.2 b.2)) e)

/-- The waves of a lane set. -/
def laneSetWaves (s : State) (ls : Nat) : List Nat :=
  (List.filter (fun e : Nat × Wave => waveLaneSet e.1 == ls) s.waves).map Prod.fst

/-- Grant waiting requests in the order of R29: waves that hold none first, each in arrival order, whoever fits. -/
def grantExt (s : State) (ls : Nat) : State :=
  let waiting := (laneSetWaves s ls).filterMap fun w => (extWait s w).map fun e => (w, e.1, e.2)
  let order := sortBy (fun e => e.2.2 + if (s.wave e.1).ext = 0 then 0 else 2 ^ 80) waiting
  order.foldl (fun s e =>
    let (w, need, _) := e
    if need ≤ (s.wave w).ext + poolFree s ls then
      let s1 := s.modWave w fun x => { x with ext := max x.ext need }
      -- an xacq completes; an implicit acquire lets its write issue again
      (waveThreads s1 w).foldl (fun s t =>
        match (s.thread t).wait with
        | some (.ext n _ imp) => if n ≤ need then (if imp then clearWait s t else advance (clearWait s t) t) else s
        | _ => s) s1
    else s) s

/-! ### The worklist of consequences -/

/-- A consequence still to be run. -/
inductive Eff where
  | trap (t : TRef) (x : Trap) (epc : BitVec 64)
  | ended (t : TRef)
  | settle (block : Nat)
  | failFill (part region block : Nat) (code cause : BitVec 8) (pc : BitVec 64)
  | failChain (gen : Nat) (pc : BitVec 64)
  | deadlock (ls : Nat)
  | blockEnd (block : Nat)
  | halt (t : TRef)
  deriving DecidableEq, Repr

/-- Whether a consequence is a trap or the halt of a thread. -/
def Eff.hits (e : Eff) (t : TRef) : Bool :=
  match e with
  | .trap u _ _ | .halt u => u == t
  | _ => false

/-- A fault record of kind 1 (R481). -/
def trapRecord (s : State) (t : TRef) (second : BitVec 8) (extra : BitVec 64) : BitVec 512 :=
  let x := s.thread t
  threadRecord s t 1 (if second = 0 then 0 else 1)
    [x.tepc, x.tval, x.tval2, q (x.tcause.toNat + 2 ^ 32 * second.toNat), extra]

/-- Whether a trap is raised by the second instruction of a pair (R247). -/
def inSecond (s : State) (t : TRef) : Bool :=
  match s.cur with
  | some g => g.second && g.wave == t.wave && g.lanes.getLsbD t.lane
  | none => false

/-- A fault record names a thread as the one it halted, by its launch and its packed logical thread (R480). -/
def haltedBy (s : State) (t : TRef) (r : BitVec 512) : Bool :=
  match s.threadBlock? t with
  | some b => (bits r 7 0 == 1 || bits r 7 0 == 11) && bits r 31 16 == blockHandle b && r.extractLsb' 64 64 == logicalThread s t
  | none => false

/-- A thread whose record has been handed over ends, or stays halted while the record is held for a ring slot (R479). -/
def endOrHold (s : State) (t : TRef) (p : Nat) : State × List Eff :=
  let x := s.part p
  if (x.fqhead + 255 - x.fqtail) % 256 < x.faults.length then (s.modThread t fun y => { y with wait := some .halted }, [])
  else (s, [.ended t])

/-- The thread halts: its block is marked faulted (R18, R266); without a record here, one has been posted. A generator's trap writes no record of its own; before
`fillend` it fails the fill with its cause and PC, and the item is over (R211, R215). -/
def haltThread (s : State) (t : TRef) (rec : Option (BitVec 512)) : State × List Eff :=
  match s.threadBlock? t with
  | none => (s, [])
  | some b =>
    let s1 := s.modBlock b.id fun x => { x with faulted := true }
    match fillOfGen s1 b.id, rec with
    | some f, some _ =>
      let x := s.thread t
      (s1, .failFill f.part f.region f.block 0x0E (x.tcause.extractLsb' 0 8) x.tepc :: (blockAlive s1 b).map Eff.ended)
    | some f, none => (s1, .failFill f.part f.region f.block 0x0E 0 (s.thread t).pc :: (blockAlive s1 b).map Eff.ended)
    | none, some r => if b.gen then (s1, [.ended t]) else endOrHold (postFault s1 b.part r) t b.part
    | none, none => if b.gen then (s1, [.ended t]) else endOrHold s1 t b.part

/-- Trap entry (R266), one step: the registers, then the handler or the halt. -/
def enterTrap (s : State) (t : TRef) (x : Trap) (epc : BitVec 64) : State × List Eff :=
  if !s.alive t then (s, [])
  else
    let th := s.thread t
    let cause : Word := BitVec.zeroExtend 32 x.code ||| (if x.defer then 0x100 else 0) ||| (if inSecond s t then 0x200 else 0)
    let s1 := (leaveBowait s t).modThread t fun y =>
      { y with tepc := epc, tcause := cause, tval := x.tval, tval2 := x.tval2, wait := none, heldRun := none, together := 0 }
    match th.handler with
    | some first => haltThread s1 t (some (trapRecord s1 t first x.extra))
    | none =>
      if th.tvec = 0 then haltThread s1 t (some (trapRecord s1 t 0 x.extra))
      else if bits th.tvec 63 57 ≠ 0 then haltThread s1 t (some (trapRecord s1 t 0x0B x.extra))
      else if !slotOffset th.tvec then haltThread s1 t (some (trapRecord s1 t 0x03 x.extra))
      else
        let enter (s : State) (e : Entry) : State :=
          s.modThread t fun y => { y with tcause := if y.e then y.tcause ||| 0x80000000 else y.tcause, e := true
                                          handler := some x.code, pc := y.tvec, entry := e }
        match fetchLine s1 t (th.tvec.toNat / 64 * 64) with
        | (s2, .ok (.ok c)) =>
          if lineTgt c (slotOf th.tvec.toNat) then (enter s2 .none, [])
          else haltThread s2 t (some (trapRecord s2 t 0x03 x.extra))
        | (s2, .ok (.error e)) =>
          haltThread s2 t (some (trapRecord s2 t (if lineTgt e.2 (slotOf th.tvec.toNat) then 0x02 else 0x03) x.extra))
        | (_, .error _) => (enter s1 (.handler x.extra), [])

/-- Whether a block's matrix operations have all completed, so that its resources may go (R285). -/
def matrixIdle (s : State) (b : Block) : Bool :=
  let m := (s.core b.core).mx
  m.holder != some b.id || (m.arrays.all fun a => a.queue == []) && m.waiting == []

/-- One operation at a line's home bank by a thread (R70, R361, R364, R365): the line opened and judged, the access seen by
the race detector (R113), computed and stored. Answers the line before it and the release records its bytes carried. -/
def bankUpdate (s : State) (rq : Req) (t : TRef) (k : RaceKind) (ret : Ret) (line : Nat)
    (upd : BitVec 1024 → BitVec 128 × BitVec 1024) (rel : Option RelTag) : Mem (BitVec 1024 × List Nat) :=
  let m := (upd 0).1
  Mem.bind (bankOpen s rq line m ret) fun s v =>
    Mem.bind (raceAccess s t k line m) fun s _ =>
      .ok (bankStore s rq line m (upd v).2 rel true) (v, relOf s t rq.asid rq.agen line m)

/-- Every element of a line takes one operand (R364). -/
def wholeLine (ty : Ty) (a : Nat) : List (Nat × Nat) :=
  let n := if ty.is64 then 8 else 4
  (List.range (128 / n)).map fun i => (n * i, a)

/-- What becomes of a buffered reduction at a flush point (R366): applied, refused with the trap it owes, or stopped, with
what it waits for and what of it remains. -/
inductive Fate where
  | applied
  | owed (x : Trap)
  | held (w : Wait) (rest : BufAtomic)
  deriving DecidableEq, Repr

/-- A buffered reduction of a block meets the fate of a side-effecting access (R106, R486, R490, R506, R520, R537). -/
def bufferMeet (s : State) (b : Block) (e : BufAtomic) (m : Miss) : State × Fate :=
  match m with
  | .page f => (s, .held (.page f (s.thread e.t).pc) e)
  | .fill i k => (s, .held (.fill i k) e)
  | .fillFull i k => (s, .held (.fillFull i k) e)
  | .evicting i k => (s, .held (.evicting i k) e)
  | .csmFull | .specRoom | .trackerRoom _ => (s, .held .recheck e)
  | .peer =>
    let since := match b.detHold with | some (_, .peer n) => n | _ => s.tick.toNat
    if since + 10000 ≤ s.tick.toNat then (s, .owed ⟨0x0B, 0, 0, false, 0⟩) else (s, .held (.peer since) e)
  | .stale => (s, .owed ⟨0x0C, 0, 0, false, 0⟩)
  | .protection => (s, .owed ⟨0x0B, 0, 0, false, 0⟩)
  | .aliased => (s, .owed ⟨0x0D, 0, 0, false, 0⟩)
  | .unresolvable => (s, .owed ⟨0x0A, 0, 0, false, 0⟩)
  | .race va pc who => (s, .owed ⟨0x09, q va, pc, false, who⟩)
  | .recursion _ _ => (s, .owed ⟨0x0F, 0, 0, false, 0⟩)
  | .uncorrectable va place => (errorRecord s b.part 0 0 va place (s.thread e.t).pc (some e.t), .owed ⟨0x20, 0, 0, false, 0⟩)

/-- The lines of an entry: one, with its operands, or a range of whole lines in ascending order, of which a fault leaves
the earlier ones performed (R364). Answers the release records read; a stop names what is left. -/
def applyLines (s : State) (rq : Req) (b : Block) (k : RaceKind) (rel : Option RelTag) (was : List Nat) :
    Nat → BufAtomic → State × Fate × List Nat
  | 0, _ => (s, .applied, was)
  | n + 1, e =>
    let line := e.va.toNat / 128 * 128
    let vals := if e.lines = 0 then e.vals.map fun p => (e.va.toNat % 128 + p.1, p.2.toNat)
      else wholeLine e.ty (e.vals.headD (0, 0)).2.toNat
    if 2 ^ 57 ≤ line then (s, .owed ⟨0x0B, 0, 0, false, 0⟩, was)
    else
      match bankUpdate s rq e.t k e.ret line (fun v => lineOp e.op e.ty v vals) rel with
      | (s1, .ok v) => applyLines s1 rq b k rel (was ++ v.2) n { e with va := e.va + 128, lines := e.lines - 1 }
      | (s1, .error m) => let (s2, f) := bufferMeet s1 b e m; (s2, f, was)

/-- One buffered reduction is applied at a flush point, its ORD steps with it (R366). -/
def applyEntry (s : State) (b : Block) (e : BufAtomic) : State × Fate :=
  let acq := match e.ord with | .acq | .ar => true | _ => false
  let (s1, res) := match e.ord with | .rel | .ar => doRelease s e.t e.scp | _ => (s, .ok none)
  match res with
  | .error (.trap x) => (s1, .owed x)
  | .error (.miss m) => bufferMeet s1 b e m
  | .ok rel =>
    let rq : Req := { t := some e.t, core := b.core, part := b.part, asid := b.asid, agen := b.agen, access := 2
                      aborts := false, waiter := some (.wave e.t.wave), gen := b.genItem }
    let k : RaceKind := { pc := e.pc, write := true, atomic := true, acquire := if acq then some e.scp else none
                          released := rel.isSome, own := 0, region := e.order }
    match applyLines s1 rq b k rel [] (max 1 e.lines) e with
    | (s2, .applied, was) => (if acq then doAcquire s2 e.t e.scp was else s2, .applied)
    | (s2, f, _) => (s2, f)

/-- Entries of a block's buffer applied in order; refused ones stay, with what they owe, until the flush is complete. One
that waits for its page or its fill keeps itself and the later ones there (R106). Answers whether the flush is complete. -/
def applyEntries (b : Block) : List BufAtomic → List BufAtomic → State → State × Bool
  | kept, [], s => (s.modBlock b.id fun x => { x with detBuf := kept, detHold := none }, true)
  | kept, e :: rest, s =>
    match (if e.fate.isSome then (s, .owed (e.fate.getD ⟨0, 0, 0, false, 0⟩)) else applyEntry s b e) with
    | (s1, .applied) => applyEntries b kept rest s1
    | (s1, .owed x) => applyEntries b (kept ++ [{ e with fate := some x }]) rest s1
    | (s1, .held w e1) =>
      (s1.modBlock b.id fun x => { x with detBuf := kept ++ e1 :: rest, detHold := some (e.t, w) }, false)

/-- Apply the buffered reductions of a block in (wave, lane, issue) order (R366). -/
def applyBuffered (s : State) (b : Block) : State × Bool :=
  let order := sortBy (fun e => e.order) b.detBuf
  applyEntries b [] (sortBy (fun e => (s.wave e.t.wave).index * 32 + e.t.lane) order) s

/-- What a completed flush of a block owes to its threads. -/
def Block.owed (b : Block) : List (TRef × Trap) := b.detBuf.filterMap fun e => e.fate.map fun x => (e.t, x)

/-- A flush that was stopped and may be tried again, and one that still waits. -/
def Block.flushDue (b : Block) : Bool := match b.detHold with | some (_, .recheck) | some (_, .peer _) => true | _ => false
def Block.flushHeld (b : Block) : Bool := b.detHold.isSome && !b.flushDue

/-- The first entry that is still to be applied is refused. -/
def refuseFirst (x : Trap) : List BufAtomic → List BufAtomic
  | [] => []
  | e :: rest => if e.fate.isNone then { e with fate := some x } :: rest else e :: refuseFirst x rest

/-- A block whose flush waits for something that has now come is tried again; `x` is the trap of an entry whose wait has
failed. -/
def freeHold (p : Block → TRef → Wait → Bool) (x : Option Trap) (b : Block) : Block :=
  match b.detHold with
  | none => b
  | some (t, w) =>
    if p b t w then
      { b with detHold := some (t, .recheck)
               detBuf := match x with | some x => refuseFirst x b.detBuf | none => b.detBuf }
    else b

/-- A beam that waits for something that has now come is tried again, or owes its thread the trap of what has failed. -/
def freeBeam (s : State) (p : Block → TRef → Wait → Bool) (x : Option Trap) (e : Beam) : Beam :=
  match e.hold, (s.blocks ++ s.images.flatMap fun i => i.blocks).find? fun b => b.id == e.block with
  | none, _ => e
  | some w, some b => if p b e.t w then { e with hold := none, owed := e.owed.orElse fun _ => x } else e
  | some _, none => { e with hold := none }

/-- What waits for a page or a fill beside the threads and the copies: the flushes of blocks, and the beams. -/
def freeHolds (s : State) (p : Block → TRef → Wait → Bool) (x : Option Trap) : State :=
  { s with blocks := s.blocks.map (freeHold p x)
           images := s.images.map fun i => { i with blocks := i.blocks.map (freeHold p x) }
           beams := s.beams.map fun e => (e.1, e.2.map (freeBeam s p x)) }

/-- Stores of a block's buffered reductions may now be counted out (R366). -/
def unbuffer (s : State) (b : Block) : State :=
  let held (p : PendStore) : Bool := p.buffered && p.tracker != 5 && b.waves.contains p.t.wave
  { s with stores := mapIf held (fun p => { p with buffered := false }) s.stores }

/-- The consumer of a block's outgoing stage channel (R43). -/
def consumerOf (s : State) (b : Block) : Option Block :=
  s.blocks.find? fun x => x.launch == b.launch && !x.gen && x.coord == b.coord && x.stage == b.stage + 1 && x.bid == b.bid

/-- The dirty bytes of a line that no thread is left to trap for are dropped with their record (R366). -/
def dropLine (s : State) (b : Block) (va : Nat) : State :=
  [Cache.l1, Cache.tile].foldl (fun s k =>
    match (lines s b.core k).find? fun l => l.is b.asid b.agen va none && l.dirty != 0 with
    | none => s
    | some l => sendLine b.core b.part k s l l.dirty) s

/-- The matrix state of a holder that goes: free, nothing queued (R118). -/
def Matrix.freed (m : Matrix) : Matrix :=
  { m with holder := none, mul := false, arrays := m.arrays.map fun a => { a with queue := [] }, waiting := [] }

/-- A block's slots, registers, scratch and everything outstanding go (R18): the core is as if it had never been bound,
but for what it wrote. -/
def removeBlock (s : State) (b : Block) : State :=
  let mine (t : TRef) : Bool := b.waves.contains t.wave
  let orphan (m : Message) : Message := if m.sender.any mine then { m with sender := none } else m
  let waits (w : Waiter) : Bool := match w with | .wave w => b.waves.contains w | .copy _ _ => false
  let deaf (f : Fill) : Fill := { f with waiters := f.waiters.filter fun w => !waits w }
  let s1 := { s with
    blocks := s.blocks.filter fun x => x.id != b.id
    waves := s.waves.filter fun e => !b.waves.contains e.1
    loads := s.loads.filter fun l => !mine l.t
    stores := s.stores.filter fun l => !mine l.t
    fills := s.fills.map deaf
    peerHolds := s.peerHolds.filter fun h => !mine h.t
    messages := s.messages.map orphan }
  let last := !s1.blocks.any fun x => x.launch == b.launch && x.gen == b.gen && x.core == b.core
  s1.modCore b.core fun c =>
    { c with banks := if last && !b.gen then c.banks.filter fun e => !(e.1 == b.launch && e.2 == 0) else c.banks
             mx := if c.mx.holder = some b.id then c.mx.freed else c.mx }

/-- Posted receives of a block are gone (R378). -/
def forgetReceives (s : State) (id : Nat) : State :=
  { s with cores := s.cores.map fun e => (e.1, { e.2 with receives := e.2.receives.filter fun x => x.2.block != id }) }

/-- No thread is left to run the sub-items of a cluster whose last block has ended: its second-level templates and their
bank entries go (R202, R203). A generator item runs none. -/
def closeTemplates (s : State) (b : Block) : State :=
  if b.gen ∨ s.blocks.any (fun x => x.launch == b.launch && !x.gen && x.coord == b.coord && x.stage == b.stage) ∨
      (imageOf s b.launch b.coord).isSome then s
  else
    let ys := clusterTemplates s b.launch b.coord b.stage
    { s with templates := s.templates.filter fun y => !ys.contains y.id
             cores := s.cores.map fun e => (e.1, { e.2 with banks := e.2.banks.filter fun k => !ys.contains k.2 }) }

/-- A block whose buffer has been flushed ends (R18, R366): its channel is marked ended, its resources released; a generator
without `fillend` fails its fill; the end is reported. -/
def blockEnd (s : State) (b : Block) : State × List Eff :=
  let lost := b.owed
  let faulted := b.faulted || lost != []
  let s2 := (lost.filter fun e => e.2.code == 0x1A).foldl (fun s e => dropLine s b (e.2.tval.toNat / 128 * 128)) s
  let s3 := match consumerOf s2 b with
    | some c => s2.modBlock c.id fun x => { x with fifos := x.fifos.modify 31 fun f => { f with fin := true } }
    | none => s2
  let age := s3.tick.toNat - b.bindTick
  let s4 := (closeTemplates (forgetReceives (removeBlock s3 b) b.id) b).modLaunch b.launch fun l => if b.gen then l else
    { l with faulted := l.faulted || faulted, lifeSum := l.lifeSum + age, lifeCount := l.lifeCount + 1
             busySum := setAt l.busySum b.stage (l.busySum.getD b.stage 0 + b.busy) }
  if b.gen then
    match fillOfGen s4 b.id with
    | some f => (s4, [.failFill f.part f.region f.block 0x0E 0 b.endPc])
    | none => (s4, [])
  else (reportBlockEnd s4 b faulted, [])

/-- Fold a state change with consequences over a list. -/
def foldEff {α : Type} (f : State → α → State × List Eff) (s : State) (l : List α) : State × List Eff :=
  l.foldl (fun r a => let (s1, e) := f r.1 a; (s1, r.2 ++ e)) (s, [])

/-- The threads that a `wsync` or a `join` releases continue together: they issue their next instruction as one group
(R25, R26, R347). -/
def releaseTogether (s : State) (ts : List TRef) : State :=
  let lanes := maskOf (ts.map TRef.lane)
  ts.foldl (fun s t => (advance (clearWait s t) t).modThread t fun x => { x with together := lanes }) s

/-- `join`: every bound, not-ended thread of the wave waits at one join address (R25). -/
def settleJoin (s : State) (w : Nat) : State :=
  let live := (waveThreads s w).filter fun t => !(s.thread t).ended
  let at? (t : TRef) : Option (BitVec 64) := match (s.thread t).wait with | some (.join _) => some (s.thread t).pc | _ => none
  match live with
  | [] => s
  | t0 :: _ =>
    match at? t0 with
    | none => s
    | some pc =>
      if live.all fun t => at? t == some pc then
        releaseTogether s live
      else s

/-- What a thread waits for at a `wsync`: its address and mask. -/
def wsyncAt (s : State) (t : TRef) : Option (BitVec 64 × BitVec 32) :=
  match (s.thread t).wait with
  | some (.wsync m) => some ((s.thread t).pc, m)
  | _ => none

/-- `wsync` (R26): an incomplete set with a named thread at another one raises trap 0x06 in every thread waiting in
either; other complete sets continue together. -/
def settleWsync (s : State) (w : Nat) : State × List Eff :=
  let live := (waveThreads s w).filter fun t => !(s.thread t).ended
  let sets := (live.filterMap (wsyncAt s)).eraseDups
  let members (set : BitVec 64 × BitVec 32) : List TRef := live.filter fun t => set.2.getLsbD t.lane
  let done (set : BitVec 64 × BitVec 32) : Bool := (members set).all fun t => wsyncAt s t == some set
  let others (set : BitVec 64 × BitVec 32) : List (BitVec 64 × BitVec 32) :=
    ((members set).filterMap (wsyncAt s)).filter (· != set)
  let bad := ((sets.filter fun x => !done x).flatMap fun x => if others x = [] then [] else x :: others x).eraseDups
  let s1 := (sets.filter fun x => done x && !bad.contains x).foldl (fun s x => releaseTogether s (members x)) s
  let hit := live.filter fun t => match wsyncAt s t with | some x => bad.contains x | none => false
  (s1, hit.map fun t => .trap t ⟨0x06, 0, 0, false, 0⟩ (s.thread t).pc)

/-- A barrier whose phase is complete (R368). -/
def settleBarrier (s : State) (bid : Nat) (n : Nat) : State :=
  match s.block? bid with
  | none => s
  | some b =>
    match b.barriers.find? n with
    | none => s
    | some x =>
      let done := x.arrived != [] && (if x.expected = 0 then
          (blockAlive s b).all fun t => x.arrived.contains t
        else x.expected ≤ x.arrived.length)
      if done then
        let s1 := s.modBlock bid fun b => { b with barriers := b.barriers.put n ⟨0, [], x.phase + 1⟩ }
        (blockThreads s1 b).foldl (fun s t =>
          match (s.thread t).wait with
          | some (.barrier m _) => if m = n then release1 (edgeAcquire s t .block) t else s
          | _ => s) s1
      else s

/-- Blocks of one coordinate and stage (a cluster), and of a launch. -/
def clusterBlocks (s : State) (b : Block) : List Block :=
  s.blocks.filter fun x => x.launch == b.launch && x.gen == b.gen && x.coord == b.coord && x.stage == b.stage
def launchBlocks (s : State) (b : Block) : List Block := s.blocks.filter fun x => x.launch == b.launch && x.gen == b.gen

/-- Merge the clocks of the participants of a wide barrier (R114). -/
def mergeClocks (s : State) (bs : List Block) : State :=
  let all := bs.foldl (fun m b => b.clocks.foldl (fun m e => if Table.get 0 m e.1 < e.2 then Table.put m e.1 e.2 else m) m) ([] : Table Nat)
  bs.foldl (fun s b => s.modBlock b.id fun x => { x with clocks := all }) s

/-- A flush point's traps, each at its thread's flushing instruction (R366); a recursion failure takes its chain (R213),
an uncorrectable line halts the thread (R520). -/
def flushTraps (s : State) (b : Block) : List Eff :=
  b.owed.map fun e =>
    if e.2.code = 0x0F then .failChain b.id (s.thread e.1).pc
    else if e.2.code = 0x20 then .halt e.1
    else .trap e.1 e.2 (s.thread e.1).pc

/-- The buffer of a block whose flush is complete is empty. -/
def emptyBuffer (s : State) (b : Block) : State × List Eff :=
  match s.block? b.id with
  | none => (s, [])
  | some x => (unbuffer (s.modBlock x.id fun y => { y with detBuf := [] }) x, flushTraps s x)

/-- Apply the buffers of some blocks at a flush point; no answer while one of them waits (R106, R366). -/
def flushBlocks (s : State) (bs : List Block) : State × Option (List Eff) :=
  let live := bs.filter fun b => blockAlive s b != []
  let (s1, whole) := live.foldl (fun (r : State × Bool) b =>
    match r.1.block? b.id with
    | none => r
    | some x =>
      if x.flushHeld then (r.1, false)
      else let (s1, whole) := applyBuffered r.1 x; (s1, r.2 && whole)) (s, true)
  if whole then let (s2, e) := foldEff emptyBuffer s1 live; (s2, some e) else (s1, none)

/-- The logical block index (R232, R370). -/
def logicalBlock (s : State) (b : Block) : Nat :=
  match s.launch? b.launch with
  | none => b.bid
  | some l => (b.coord.1 + l.d.grid.1 * (b.coord.2.1 + l.d.grid.2.1 * b.coord.2.2)) * l.d.bpc + b.bid

/-- The bound threads of a launch, Q, and a thread's position among them, q (R195). -/
def itemOrder (s : State) (b : Block) (t : TRef) : Nat × Nat :=
  let (x, y, z) := blockShape s b
  let per := x * y * z
  let blocks := match s.launch? b.launch with | some l => l.d.blocks | none => 1
  (blocks * per, logicalBlock s b * per + threadIndex s t)

/-- The next first-level item of a free thread, if one remains for it. -/
def nextItem (s : State) (b : Block) (l : Launch) (t : TRef) : Option Nat :=
  let i := if b.deterministic then (itemOrder s b t).2 + (s.thread t).taken * (itemOrder s b t).1 else l.itemNext
  if i < l.d.items then some i else none

/-- Whether a template launch has no item or sub-item left to stamp (R195, R202). -/
def itemsTaken (s : State) (b : Block) : Bool :=
  (match s.launch? b.launch with
   | some l => l.tpl.isSome && (launchBlocks s b).all fun x => (blockAlive s x).all fun t => nextItem s x l t == none
   | none => false)
    && !s.templates.any fun y => y.launch == b.launch && y.level == 2 && y.next < y.subs

/-- A barrier over several blocks completes when every live thread has arrived (R369). At `gbar` a template launch stands
still while items are left, and its free threads count as arrived once none is (R369, R451). -/
def settleWide (s : State) (b : Block) (bs : List Block) (isAt : Wait → Bool) (scope : Scope) (freeArrive : Bool) :
    State × List Eff :=
  let live := bs.flatMap (blockAlive s)
  let arrived (t : TRef) : Bool := match (s.thread t).wait with | some w => isAt w | none => false
  let spare (t : TRef) : Bool := freeArrive && (s.thread t).stamp == .free
  let still := freeArrive && b.template && !itemsTaken s b
  if !still && live.any arrived && live.all (fun t => arrived t || spare t) then
    match flushBlocks s bs with
    | (s1, none) => (s1, [])
    | (s1, some effs) =>
      ((live.filter fun t => arrived t && !effs.any (·.hits t)).foldl (fun s t =>
        release1 (acquireGeneric s (waveCore t.wave) scope) t) (mergeClocks s1 bs), effs)
  else (s, [])

/-- The deterministic flush collective (R367). -/
def settleFlush (s : State) (b : Block) : State × List Eff :=
  let live := blockAlive s b
  let waits (t : TRef) : Bool := (s.thread t).wait == some .aflush
  if live != [] && live.all waits then
    match flushBlocks s [b] with
    | (s1, none) => (s1, [])
    | (s1, some effs) => ((live.filter fun t => !effs.any (·.hits t)).foldl release1 s1, effs)
  else (s, [])

/-- The rounding of Lodestar's quotient (R476): the product exact, the quotient rounded once to f64, as an integer
measure that orders as the f64 values do. -/
def lodestarTerm (busy num den : Nat) : Nat :=
  if busy * num = 0 then 0
  else (roundFix .f64 1 0 false (fixDiv ⟨false, busy * num, 0, false⟩ ⟨false, den, 0, false⟩)).1

/-- The blocks of a launch that are bound or saved, each with its threads that have not ended; a place that is held for a
saved block counts through the image. -/
def launchParts (s : State) (h : Nat) : List (Block × List Thread) :=
  let held (b : Block) : Bool := !b.started && (savedBlock? s h b.coord b.stage b.bid).isSome
  let here := (s.blocks.filter fun b => b.launch == h && !b.gen && !held b).map fun b => (b, (blockAlive s b).map s.thread)
  let saved := (s.images.filter fun i => i.written && i.launch == h).flatMap fun i => i.blocks.map fun b =>
    (b, (b.waves.flatMap fun w => (Table.get .init i.waves w).threads.map Prod.snd).filter fun x => !x.ended)
  here ++ saved

/-- Busy time of a stage since the last boundary (R46). -/
def stageBusy (s : State) (h : Nat) (l : Launch) (i : Nat) : Nat :=
  l.busySum.getD i 0 + sumOf (((launchParts s h).filter fun e => e.1.stage == i).map fun e => e.1.busy)

/-- Lodestar's choice at one boundary (R46, R476): busy time starts anew. -/
def passBoundary (h : Nat) (s : State) : State :=
  match s.launch? h with
  | none => s
  | some l =>
    let cost (k : Nat) : Nat := maxOf ((List.range l.d.stages).map fun i =>
      lodestarTerm (stageBusy s h l i) ((l.shares.getD l.sched []).getD i 1) ((l.shares.getD k []).getD i 1))
    let pick := if l.d.pin = 0xFFFFFFFF then (argMin cost (List.range l.shares.length)).getD 0 else l.sched
    let s1 := s.modLaunch h fun l =>
      { l with boundaries := l.boundaries + 1, sched := pick, busySum := List.replicate l.d.stages 0 }
    let idle (bs : List Block) : List Block := mapIf (fun b => b.launch == h && !b.gen) (fun b => { b with busy := 0 }) bs
    { s1 with blocks := idle s1.blocks, images := s1.images.map fun i => { i with blocks := idle i.blocks } }

/-- Every boundary at which every block has now arrived is passed, in order (R46, R402). A block arrives when all its
threads that have not ended have; an ended block has arrived everywhere, and a saved one where it had. -/
def settlePhase (s : State) (h : Nat) : State :=
  match s.launch? h with
  | none => s
  | some l =>
    let parts := launchParts s h
    let phases := parts.flatMap fun e => e.2.map fun x => x.phase
    if l.shares = [] ∨ parts.length + l.lifeCount ≠ l.d.blocks then s
    else iter (passBoundary h) (minOf 0 phases - l.boundaries) s

/-- Whether every block of a launch is bound or has ended, so that all its live threads are here to arrive (R369). -/
def wholeGrid (s : State) (b : Block) : Bool :=
  match s.launch? b.launch with
  | some l => l.bound.length == l.d.blocks && !s.images.any fun i => i.written && i.launch == b.launch
  | none => false

/-- Everything an arrival or an end in a block may complete. -/
def settleBlock (s : State) (bid : Nat) : State × List Eff :=
  match s.block? bid with
  | none => (s, [])
  | some b =>
    let s1 := b.waves.foldl settleJoin s
    let (s2, e2) := foldEff settleWsync s1 b.waves
    let s3 := (List.range 16).foldl (fun s n => settleBarrier s bid n) s2
    let (s4, e4) := foldEff (fun s n => settleWide s b (clusterBlocks s b) (fun w => w == .cbar n) .cluster false) s3 (List.range 4)
    let (s5, e5) := if wholeGrid s4 b then settleWide s4 b (launchBlocks s4 b) (fun w => w == .gbar) .device true else (s4, [])
    let (s6, e6) := settleFlush s5 b
    (settlePhase s6 b.launch, e2 ++ e4 ++ e5 ++ e6)

/-- A sub-item or item of a template launch has ended (R195, R202): counts, granules, the bank entry of a finished
second-level template. -/
def endItem (s : State) (t : TRef) : State :=
  let x := s.thread t
  match s.threadBlock? t with
  | none => s
  | some b =>
    match x.stamp with
    | .item => (s.modLaunch b.launch fun l => { l with itemsLive := l.itemsLive - 1 })
    | .subitem =>
      match x.tpl with
      | none => s
      | some id =>
        let s1 := s.modTpl id fun y => { y with live := y.live - 1 }
        let s2 := s1.modLaunch b.launch fun l => { l with itemsLive := l.itemsLive - 1 }
        match s2.tpl? id with
        | some y =>
          if y.next ≥ y.subs ∧ y.live = 0 then
            { s2 with templates := s2.templates.filter fun z => z.id != id
                      cores := s2.cores.map fun e => (e.1, { e.2 with banks := e.2.banks.filter fun k => k.2 != id || id == 0 }) }
          else s2
        | none => s2
    | _ => s

/-- The prologue is lost without `freeze`: every unstamped thread of the launch ends (R194). -/
def losePrologue (s : State) (b : Block) : State × List Eff :=
  let s1 := s.modLaunch b.launch fun l => { l with prologueLost := true }
  (s1, (launchBlocks s1 b).flatMap fun x => ((blockAlive s1 x).filter fun t => (s1.thread t).stamp == .unstamped).map Eff.ended)

/-- A block without a thread left and without a matrix operation left ends (R18, R285), once its buffer has been flushed
(R366); none while it may not. -/
def tryBlockEnd (s : State) (id : Nat) : Option (State × List Eff) :=
  (s.block? id).bind fun b =>
    if blockAlive s b = [] ∧ matrixIdle s b ∧ b.flushHeld = false then
      let (s0, whole) := applyBuffered s b
      let flushed := (s0.block? id).getD b
      let (s1, e1) := if whole then blockEnd s0 flushed else (s0, [])
      let others := (clusterBlocks s1 b).map fun x => Eff.settle x.id
      some ([0, 1].foldl (fun s i => grantExt s (2 * b.core + i)) s1,
        e1 ++ others ++ [.deadlock (2 * b.core), .deadlock (2 * b.core + 1)])
    else none

/-- A thread ends (R18, R285): its region closes, its outstanding loads are discarded, its contexts and granules go;
then the collectives that awaited it, and its block when it was the last. -/
def threadEnd (s : State) (t : TRef) : State × List Eff :=
  if !s.alive t then (s, [])
  else
    match s.threadBlock? t with
    | none => (s, [])
    | some b =>
      let prologue := (s.thread t).stamp == .prologue
      let s1 := endItem (dropLoads (commitSpec (leaveBowait s t) t) t fun _ => true) t
      let s2 := (s1.modBlock b.id fun x => { x with endPc := (s.thread t).pc }).modThread t fun x =>
        { x.noContexts with ended := true, wait := none, granules := [], stamp := .plain, mxTraps := [] }
      let (s3, e3) := if prologue then losePrologue s2 b else (s2, [])
      let (s4, e4) := settleBlock s3 b.id
      match tryBlockEnd s4 b.id with
      | some (s5, e5) => (s5, e3 ++ e4 ++ e5)
      | none =>
        let others := ((clusterBlocks s4 b).filter (fun x => x.id != b.id)).map fun x => Eff.settle x.id
        (s4, e3 ++ e4 ++ others)

/-- Waiting threads of a failed fill's waiter entries (R208, R215). -/
def fillWaiters (s : State) (f : Fill) : List TRef :=
  f.waiters.flatMap fun w => match w with
    | .wave w => (waveThreads s w).filter fun t => (s.thread t).wait == some (.fill f.region f.block)
    | .copy _ _ => []

/-- Requesters held outside a full waiter list, or for an EVICTING block, touch again (R206, R208). -/
def wakeHeld (s : State) (p i b : Nat) : State :=
  let s := freeHolds s (fun x _ w => x.part == p && (w == .fillFull i b || w == .evicting i b)) none
  (s.waves.map Prod.fst).foldl (fun s w =>
    if (match s.waveBlock? w with | some x => x.part == p | none => false) then
      (waveThreads s w).foldl (fun s t =>
        match (s.thread t).wait with
        | some (.fillFull i' b') => if i' = i ∧ b' = b then clearWait s t else s
        | some (.evicting i' b') => if i' = i ∧ b' = b then clearWait s t else s
        | _ => s) s
    else s) s

/-- A copy request parked on a fill meets its failure (R215, R385). -/
def failCopy (s : State) (ctx seq : Nat) (cause : BitVec 8) (va pc : BitVec 64) : State :=
  s.modCtx ctx fun c => { c with reqs := mapIf (fun r => r.seq == seq) (fun r =>
    { r with error := r.error.orElse fun _ => some (cause, va, pc), dead := true, parked := none }) c.reqs }

/-- A saved waiter of a failed fill keeps the trap it is owed (R215, R218). -/
def failSaved (i b : Nat) (code cause : BitVec 8) (pc va : BitVec 64) (x : Thread) : Thread :=
  if x.wait = some (.fill i b) then { x with wait := some (.fillFailed code cause pc va) } else x

/-- Change the threads of a saved wave. -/
def mapSaved (g : Thread → Thread) (w : Nat) (s : State) : State :=
  let mark (e : Nat × Wave) : Nat × Wave :=
    if e.1 = w then (w, { e.2 with threads := e.2.threads.map fun t => (t.1, g t.2) }) else e
  { s with images := s.images.map fun m => { m with waves := m.waves.map mark } }

/-- A fill fails (R215): EMPTY again, each waiter trapped or retired with an error; its generator, if any, is gone. -/
def failFill (s : State) (p i b : Nat) (code cause : BitVec 8) (pc : BitVec 64) (skip : List Nat) : State × List Eff :=
  match fillOf s p i b with
  | none => (s, [])
  | some f =>
    let s1 := setFill { s with fills := s.fills.filter fun x => !(x.part == p && x.region == i && x.block == b) } p i b 0
    let va := match region? s1 p i with | some r => q (r.blockVa b) | none => 0
    let ts := (fillWaiters s1 f).filter fun t => !skip.contains (s1.wave t.wave).block
    let s2 := f.waiters.foldl (fun s w => match w with
      | .copy c n => failCopy s c n code va pc
      | .wave w => mapSaved (failSaved i b code cause pc va) w s) s1
    let hold (x : Block) (t : TRef) (w : Wait) : Bool := x.part == p && w == .fill i b && f.waiters.contains (.wave t.wave)
    (wakeHeld (freeHolds s2 hold (some ⟨code, BitVec.zeroExtend 64 cause, pc, false, va⟩)) p i b,
      ts.map fun t => .trap t ⟨code, BitVec.zeroExtend 64 cause, pc, false, va⟩ (s2.thread t).pc)

/-- End every thread of a generator block (R211, R213). -/
def endBlockThreads (s : State) (id : Nat) : List Eff :=
  match s.block? id with
  | some b => (blockAlive s b).map Eff.ended
  | none => []

/-- A recursion failure (R213) at a generator's touch: every fill of the chain returns to EMPTY; waiters that are no
generator of the chain trap 0x0F with the PC of the touch; the chain's generators end, the touching one with them. -/
def failChain (s : State) (g : Nat) (pc : BitVec 64) : State × List Eff :=
  let chain := chainOf s g
  let gens := (g :: chain.filterMap fun f => f.gen).eraseDups
  let (s1, e1) := foldEff (fun s (f : Fill) => failFill s f.part f.region f.block 0x0F 0x0F pc gens) s chain
  (s1, e1 ++ gens.flatMap (endBlockThreads s1))

/-- Register deadlock of a lane set (R31): the wave that began to wait last, when no holder can go on. -/
def deadlocked (s : State) (ls : Nat) : Option Nat :=
  let ws := (laneSetWaves s ls).filterMap fun w => (extWait s w).map fun e => (w, e.1 - (s.wave w).ext, e.2)
  match ws with
  | [] => none
  | _ =>
    let need := minOf 0 (ws.map fun e => e.2.1)
    let stuck := (laneSetWaves s ls).all fun w => (s.wave w).ext == 0 || (extWait s w).isSome
    if poolFree s ls < need && stuck then (argMax (fun e => e.2.2) ws).map (·.1) else none

/-- Run one consequence. -/
def runEff (s : State) (e : Eff) : State × List Eff :=
  match e with
  | .trap t x epc => enterTrap s t x epc
  | .ended t => threadEnd s t
  | .settle b => settleBlock s b
  | .failFill p i b code cause pc => failFill s p i b code cause pc []
  | .failChain g pc => failChain s g pc
  | .blockEnd b => (tryBlockEnd s b).getD (s, [])
  | .halt t => haltThread s t none
  | .deadlock ls =>
    match deadlocked s ls with
    | none => (s, [])
    | some w =>
      let ts := (waveThreads s w).filter fun t => match (s.thread t).wait with | some (.ext _ _ _) => true | _ => false
      (s, ts.map (fun t => .trap t ⟨0x11, 0, 0, false, 0⟩ (s.thread t).pc) ++ [.deadlock ls])

/-- Run consequences, each before those it was queued ahead of. -/
def runEffs : Nat → State → List Eff → State
  | 0, s, _ => s
  | _, s, [] => s
  | n + 1, s, e :: rest => let (s1, more) := runEff s e; runEffs n s1 (more ++ rest)

def effFuel : Nat := 100000
def effects (s : State) (l : List Eff) : State := runEffs effFuel s l

/-- Blocks have returned to a core's pools: they are granted, and register deadlock is judged again (R29, R31). -/
def regrant (s : State) (core : Nat) : State :=
  [0, 1].foldl (fun s i => effects (grantExt s (2 * core + i)) [.deadlock (2 * core + i)]) s

/-- Raise a trap precisely at a thread's instruction. -/
def trapAt (s : State) (t : TRef) (x : Trap) : State := effects s [.trap t x (s.thread t).pc]
def simpleTrap (code : BitVec 8) : Trap := ⟨code, 0, 0, false, 0⟩
/-- Trap 0x16 with the PC and the reason (R525). -/
def detTrap (pc : BitVec 64) (why : Nat) : Trap := ⟨0x16, pc, q why, false, 0⟩
def endThread (s : State) (t : TRef) : State := effects s [.ended t]

/-- `exit` (R285): an item's thread becomes free (R195) with its granules and contexts released, and what it still has
in flight lowers no counter of a later item; any other thread ends under R18. -/
def exitThread (s : State) (t : TRef) : State :=
  let stamp := (s.thread t).stamp
  if stamp == .item || stamp == .subitem then
    let s1 := endItem (dropLoads (commitSpec s t) t fun _ => true) t
    let s2 := s1.modThread t fun x =>
      { x.noContexts with stamp := .free, wait := none, granules := [], nest := none, mxTraps := [] }
    effects s2 [.settle (s2.wave t.wave).block]
  else endThread s t
def settle (s : State) (b : Nat) : State := effects s [.settle b]
/-- The flushes of blocks that may go on are tried again, with the end of a block that waited for its own. -/
def resumeFlushes (s : State) : State :=
  (s.blocks.filter Block.flushDue).foldl (fun s b => effects s [.settle b.id, .blockEnd b.id]) s
def settleOf (s : State) (t : TRef) : State := settle s (s.wave t.wave).block

/-! ### The fates of a miss (R106) -/

/-- Threads of a core that hold speculative lines, and whether all wait for a further one (R110). -/
def specHolders (s : State) (core : Nat) : List TRef :=
  ((lines s core .l1 ++ lines s core .tile).filterMap fun l => l.spec).eraseDups

def specDeadlock (s : State) (core : Nat) : State :=
  let hs := specHolders s core
  if hs != [] && hs.all fun t => (s.thread t).wait == some .specRoom then
    match argMax (fun t => (s.thread t).regionSeq) hs with
    | some t => abortRegion s t
    | none => s
  else s

/-- A thread's access met a fate (R106, R109, R110, R117, R213, R490, R506, R520); `plain` is an access inside a
region that aborts it on a page fault. -/
def meet (s : State) (t : TRef) (plain : Bool) (m : Miss) : State :=
  match m with
  | .stale => trapAt s t (simpleTrap 0x0C)
  | .protection => trapAt s t (simpleTrap 0x0B)
  | .aliased => trapAt s t (simpleTrap 0x0D)
  | .unresolvable => trapAt s t (simpleTrap 0x0A)
  | .page f => setWait (if plain then abortRegion s t else s) t (.page f (s.thread t).pc)
  | .fill i b => setWait s t (.fill i b)
  | .fillFull i b => setWait s t (.fillFull i b)
  | .evicting i b => setWait s t (.evicting i b)
  | .csmFull => setWait s t .recheck
  | .recursion _ _ => effects s [.failChain (s.wave t.wave).block (s.thread t).pc]
  | .specRoom => specDeadlock (setWait s t .specRoom) (waveCore t.wave)
  | .trackerRoom k => setWait s t (.trackerRoom k)
  | .peer =>
    match s.peerHolds.find? fun h => h.t == t with
    | some h => setWait s t (.peer h.tick)
    | none => { setWait s t (.peer s.tick.toNat) with peerHolds := s.peerHolds ++ [⟨t, s.tick.toNat⟩] }
  | .race va pc who => trapAt s t ⟨0x09, q va, pc, false, who⟩
  | .uncorrectable va place =>
    effects (errorRecord s (threadPart s t) 0 0 va place (s.thread t).pc (some t)) [.halt t]

end Sys2Proof.Machine
end

