-- ==== Sys2Proof/Machine/Operands.lean ====
section
/-! DEFINITION. Reading and writing operands: register files, special sources, inline constants, the crossbar and
source modifiers (R19, R27, R28, R32, R197, R222, R238, R239, R250-R255), and the issue of one instruction to a fetch
group: who executes it, the checks of R263, and what each executing thread then does. -/

namespace Sys2Proof.Machine

/-! ### Registers -/

/-- A v register: the template value while it is mapped (R197). -/
def vreg (s : State) (t : TRef) (n : Nat) : Word :=
  let x := s.thread t
  if x.mapped.getLsbD n then
    match x.tpl.bind s.tpl? with
    | some y => y.v.get 0 n
    | none => 0
  else x.v.get 0 n

def kreg (s : State) (w : Nat) (n : Nat) : Word := (s.wave w).k.get 0 n
def creg (s : State) (t : TRef) (n : Nat) : Bool := (s.thread t).cond.getLsbD n

/-- Write a v register: its mapped bit clears (R197), and an outstanding load's data for it is discarded (R353). -/
def setV (s : State) (t : TRef) (n : Nat) (w : Word) : State :=
  let s1 := s.modThread t fun x => { x with v := x.v.set 0 n w, mapped := x.mapped &&& ~~~(1#256 <<< n) }
  let drop (l : PendLoad) : PendLoad :=
    if l.t == t && !l.uniform then { l with regs := l.regs.filter fun r => r.1 != n } else l
  { s1 with loads := s1.loads.map drop }

def setVs (s : State) (t : TRef) (n : Nat) (ws : List Word) : State :=
  (ws.foldl (fun (r : State × Nat) w => (setV r.1 t r.2 w, r.2 + 1)) (s, n)).1

/-- Whether a fetch group holds every bound, not-ended thread of its wave (R32). -/
def groupWhole (s : State) (g : Issue) : Bool :=
  (waveThreads s g.wave).all fun t => (s.thread t).ended || g.lanes.getLsbD t.lane

/-- Every thread of a group that stood at its instruction: those it acts on, and those that only moved past it. -/
def wholeGroup (s : State) (g : Issue) (ts : List TRef) : List TRef :=
  ((lanesOf g.lanes).map fun l => (⟨g.wave, l⟩ : TRef)).filter fun t =>
    ts.contains t || (s.alive t && (s.thread t).wait.isNone && (s.thread t).pc == nextPc g.pc)

/-- A trap of every thread of a group, at its instruction, those that had moved past it among them (R301, R328). -/
def trapWhole (s : State) (g : Issue) (all : List TRef) (code : BitVec 8) : State :=
  all.foldl (fun s t => trapAt (setPc s t g.pc) t (simpleTrap code)) s

/-- The lowest lane of a fetch group. -/
def lowLane (g : Issue) : TRef := ⟨g.wave, (lanesOf g.lanes).headD 0⟩

/-- Write a k register once for the group, with its writer mask and partial flag (R32). -/
def setK (s : State) (g : Issue) (n : Nat) (v : Word) : State :=
  let whole := groupWhole s g
  let s1 := s.modWave g.wave fun x =>
    { x with k := x.k.set 0 n v, kMask := x.kMask.set 0 n g.lanes
             kPartial := if whole then x.kPartial &&& ~~~(1#64 <<< n) else x.kPartial ||| (1#64 <<< n) }
  let drop (l : PendLoad) : PendLoad :=
    if l.t.wave == g.wave && l.uniform then { l with regs := l.regs.filter fun r => r.1 != n } else l
  { s1 with loads := s1.loads.map drop }

def setKs (s : State) (g : Issue) (n : Nat) (ws : List Word) : State :=
  (ws.foldl (fun (r : State × Nat) w => (setK r.1 g r.2 w, r.2 + 1)) (s, n)).1

/-- Write a condition bit; in forerunner mode a compare's complement goes to the bit's partner (R34). -/
def setC (s : State) (t : TRef) (n : Nat) (b : Bool) : State :=
  s.modThread t fun x => { x with cond := if b then x.cond ||| (1#12 <<< n) else x.cond &&& ~~~(1#12 <<< n) }

/-- Thread coordinates within a block (R17). -/
def tidOf (s : State) (t : TRef) : Nat × Nat × Nat :=
  match s.threadBlock? t with
  | none => (0, 0, 0)
  | some b =>
    let (x, y, _) := blockShape s b
    let i := threadIndex s t
    (i % x, i / x % y, i / (x * y))

/-- A core's cycle count (R19): all run at one clock (R5), each from a start of its own. -/
def clkOf (s : State) (core : Nat) : BitVec 64 := q s.cycle + Config.clkOffset core

/-- Special sources (R19, R254). -/
def special (s : State) (t : TRef) (n : Nat) : Word :=
  let x := s.thread t
  match s.threadBlock? t with
  | none => 0
  | some b =>
    match n with
    | 0x00 => d t.lane
    | 0x01 => d (waveSlot t.wave)
    | 0x02 => d (s.wave t.wave).index
    | 0x03 => d b.lcore
    | 0x04 => d (tidOf s t).1
    | 0x05 => d (tidOf s t).2.1
    | 0x06 => d (tidOf s t).2.2
    | 0x07 => d b.bid
    | 0x08 => d b.coord.1
    | 0x09 => d b.coord.2.1
    | 0x0A => d b.coord.2.2
    | 0x0B => d b.stage
    | 0x0C => lo32 x.item
    | 0x0D => hi32 x.item
    | 0x0E => lo32 (clkOf s b.core)
    | 0x0F => hi32 (clkOf s b.core)
    | 0x10 => lo32 s.tick
    | 0x11 => hi32 s.tick
    | 0x12 => if x.e then 1 else 0
    | 0x13 => x.cond.zeroExtend 32
    | 0x14 => (match s.launch? b.launch with | some l => if b.gen then 0 else d l.sched | none => 0)
    | 0x15 => d x.tlevel
    | _ => 0

/-! ### Values of a source -/

/-- A pattern repeated in the elements of a register: w bits each, n of them. -/
def replicate (w n x : Nat) : Nat := sumOf ((List.range n).map fun j => 2 ^ (w * j) * (x % 2 ^ w))

/-- Elements of a type: width and count (R220). -/
def tyElems : Ty → Nat × Nat
  | .f16x2 | .bf16x2 | .i16x2 | .n16x2 => (16, 2)
  | .i8x4 | .n8x4 => (8, 4)
  | .f64 | .i64 | .n64 | .b64 => (64, 1)
  | _ => (32, 1)

/-- An integer constant in a float format, exactly (R238). -/
def fpOfInt (f : Fmt) (v : Int) : Nat := (roundFix f 1 0 false (Fix.ofInt v 0)).1

/-- Float constants 0xC0-0xCF in a format (R239). -/
def fpConst (f : Fmt) (n : Nat) : Nat :=
  let half (k : Int) : Nat := (roundFix f 1 0 false (Fix.ofInt k (-2))).1
  match n - 0xC0 with
  | 0 => 0
  | 1 => half 2 | 2 => half 4 | 3 => half 8 | 4 => half 16
  | 5 => half (-2) | 6 => half (-4) | 7 => half (-8) | 8 => half (-16)
  | 9 => half 1
  | 10 => (match f with | .f32 => 0x3EA2F983 | .f16 => 0x3518 | .bf16 => 0x3EA3 | .f64 => 0x3FD45F306DC9C883)
  | 11 => (match f with | .f32 => 0x3F317218 | .f16 => 0x398C | .bf16 => 0x3F31 | .f64 => 0x3FE62E42FEFA39EF)
  | 12 => f.inf
  | 13 => withSign f true f.inf
  | 14 => f.maxFinite
  | _ => half 32

/-- An inline constant read at a type (R238, R239). -/
def inlineVal (ty : Ty) (n : Nat) : Nat :=
  let v : Int := (n : Int) - 0xA0
  let (w, c) := tyElems ty
  if n < 0xC0 then
    match tyFmt ty with
    | some (f, k) => replicate f.width k (fpOfInt f v)
    | none => replicate w c (wrap w v)
  else
    match tyFmt ty with
    | some (f, k) => replicate f.width k (fpConst f n)
    | none => fpConst .f32 n

/-- ABS then NEG on one element (R222). -/
def modElem (ty : Ty) (w : Nat) (neg abs : Bool) (x : Nat) : Nat :=
  if ty.isFloat then
    let a := if abs then x % 2 ^ (w - 1) else x
    if neg then (if a < 2 ^ (w - 1) then a + 2 ^ (w - 1) else a - 2 ^ (w - 1)) else a
  else
    let a := if abs ∧ tySigned ty then wrap w (sgn w x).natAbs else x
    if neg then wrap w (-(a : Int)) else a

/-- ABS then NEG on every element of a value (R222). -/
def modVal (ty : Ty) (neg abs : Bool) (x : Nat) : Nat :=
  if neg ∨ abs then
    let (w, n) := tyElems ty
    sumOf ((List.range n).map fun j => 2 ^ (w * j) * modElem ty w neg abs (x / 2 ^ (w * j) % 2 ^ w))
  else x

/-- The crossbar (R253): the source lane, or the value 0 at a zero edge. -/
def xbar (p : Perm) (param lane : Nat) : Option Nat :=
  let x := lane % 8
  let b := lane / 8 * 8
  match p with
  | .none => some lane
  | .rotate => some ((lane + param) % 32)
  | .broadcast => some param
  | .butterfly => some (lane ^^^ param)
  | .mirror => some (lane ^^^ (2 ^ (param + 1) - 1))
  | .left =>
    match param with
    | 1 => some ((lane + 31) % 32)
    | 0 => if x = 0 then none else some (lane - 1)
    | 2 => some (if x = 0 then lane else lane - 1)
    | _ => some (if x = 0 then b + 7 else lane - 1)
  | .right =>
    match param with
    | 1 => some ((lane + 1) % 32)
    | 0 => if x = 7 then none else some (lane + 1)
    | 2 => some (if x = 7 then lane else lane + 1)
    | _ => some (if x = 7 then b else lane + 1)

/-- A source's raw value at a type: one register, or a pair for a 64-bit type (R251-R254). -/
def rawSrc (s : State) (t : TRef) (ty : Ty) (x : Src) : Nat :=
  let n := x.num.toNat
  match x.file with
  | .v =>
    match xbar x.perm x.param.toNat t.lane with
    | none => 0
    | some l =>
      let u : TRef := ⟨t.wave, l⟩
      if s.bound u then
        (if ty.is64 then (pair (vreg s u n) (vreg s u (n + 1))).toNat else (vreg s u n).toNat)
      else 0
  | .k => if ty.is64 then (pair (kreg s t.wave n) (kreg s t.wave (n + 1))).toNat else (kreg s t.wave n).toNat
  | .c => if creg s t n then 1 else 0
  | .x => if n < 0x80 then (special s t n).toNat else inlineVal ty n

/-- A source operand's value: crossbar, then absolute, then negate (R222, R253). -/
def srcVal (s : State) (t : TRef) (ty : Ty) (x : Src) : Nat := modVal ty x.neg x.abs (rawSrc s t ty x)

/-- `n` consecutive registers of a v or k source, or one value of another file. -/
def srcRegs (s : State) (t : TRef) (x : Src) (n : Nat) : List Word :=
  match x.file with
  | .v => (List.range n).map fun i => vreg s t (x.num.toNat + i)
  | .k => (List.range n).map fun i => kreg s t.wave (x.num.toNat + i)
  | _ => (List.range n).map fun i => if i = 0 then d (rawSrc s t .b32 x) else 0

def srcWord (s : State) (t : TRef) (x : Src) : Word := d (srcVal s t .b32 x)
def srcPair (s : State) (t : TRef) (x : Src) : BitVec 64 := q (srcVal s t .b64 x)

/-! ### The issue of an instruction -/

/-- A guard's value in a thread (R248): sel 15 is always, and 12-14, which name no condition bit, stop no thread from
meeting trap 0x01. -/
def guardHolds (s : State) (t : TRef) (h : Head) : Bool :=
  12 ≤ h.sel.toNat || (creg s t h.sel.toNat != h.inv)

/-- How E and the guard decide who executes (R33, R34, R131, R345). -/
inductive Who where
  | normal     -- native: E; forerunner: the guard
  | guarded    -- bra, brx, call, ret, exit: the guard in both modes
  | all        -- the mask instructions in native mode: whatever E
  | matrix     -- matrix instructions: native E, no guard in forerunner mode
  deriving DecidableEq, Repr

def executes (s : State) (b : Block) (h : Head) (who : Who) (t : TRef) : Bool :=
  match who with
  | .guarded => guardHolds s t h
  | .normal => if b.forerunner then guardHolds s t h else (s.thread t).e
  | .all => if b.forerunner then guardHolds s t h else true
  | .matrix => if b.forerunner then true else (s.thread t).e

/-- Trap 0x01's values (R263): instruction bits [31:0] and [63:32]. -/
def illegal (i : Instr) : Trap :=
  match encode i with
  | some w => ⟨0x01, w.extractLsb' 0 32 |>.zeroExtend 64, w.extractLsb' 32 32 |>.zeroExtend 64, false, 0⟩
  | none => simpleTrap 0x01

/-- The checks of trap 0x01 that need the launch's mode (R34, R55, R249). -/
def modeOk (b : Block) (i : Instr) (who : Who) : Bool :=
  (who == .guarded || who == .matrix || b.forerunner || i.head.sel == 15)
    && (match i with
      | .icmp f | .fcmp f | .ivtest f | .vote f => !b.forerunner || f.dst.file != .c || f.dst.num.toNat % 2 == 0
      | .tex _ | .texg _ | .brick _ | .texq _ | .rtw _ | .zt _ | .covq _ | .vbw _ | .emit _ | .taskpop _
      | .taskpopTry _ | .march _ | .mhit _ | .mhitCo _ | .bcprune _ | .opqret _ | .trace _ | .thit _ | .thitRay _
      | .tstack _ | .beam _ => b.graphics || b.gen
      | .msksave _ | .mskand _ | .mskrest _ | .mskelse _ => !b.forerunner
      | _ => true)

/-- The wave's v range (R28). -/
def vRange (s : State) (w : Nat) : Nat := 64 * (1 + (s.wave w).ext)

/-- The lane whose register `shfl` reads: the one its operand names, or its own (R342). -/
def pickedLane (s : State) (t : TRef) (x : Src) : Nat :=
  let i := srcVal s t .n32 x
  if i ≤ 31 then i else t.lane

/-- The threads in which a source is read (R253, R342, R409); none at a zero edge of the crossbar. The first source is the one a
lane operand or a quad is for. -/
def sourceThreads (s : State) (t : TRef) (u : Uses) (first : Bool) (x : Src) : List (Option TRef) :=
  match first, u.lanes with
  | true, .pick l => [some ⟨t.wave, pickedLane s t l⟩]
  | true, .quad =>
    let right := t.lane ||| 1
    let down := t.lane ||| 8
    some t :: (([right, right - 1, down, down - 8].map fun l => (⟨t.wave, l⟩ : TRef)).filter s.bound).map some
  | _, _ => [(xbar x.perm x.param.toNat t.lane).map fun l => ⟨t.wave, l⟩]

/-- Trap 0x04 (R28, R197, R450): a read above the range of a register that is not mapped in the thread it is read in, or a write
of one that is not mapped. -/
def rangeTrap (s : State) (t : TRef) (u : Uses) : Bool :=
  let top := vRange s t.wave
  let bad (w : Option TRef) (n : Nat) : Bool := top ≤ n && !w.any fun w => (s.thread w).mapped.getLsbD n
  let srcs := u.srcs.zipIdx.any fun e => e.1.s.file == .v && (sourceThreads s t u (e.2 == 0) e.1.s).any fun w =>
    (List.range e.1.n).any fun i => bad w (e.1.s.num.toNat + i)
  let dst := match u.dst with
    | some x => x.d.file == .v && (List.range x.n).any fun i => bad (some t) (x.d.num.toNat + i)
    | none => false
  srcs || dst || (match u.dst with | some x => x.d.file == .v && x.d.num.toNat + x.n > 256 | none => false)
    || u.srcs.any fun x => x.s.file == .v && x.s.num.toNat + x.n > 256

/-- Checked mode's trap 0x05: a k source with its partial flag set, read outside its writer mask (R32). -/
def uniformTrap (s : State) (g : Issue) (u : Uses) : Bool :=
  let w := s.wave g.wave
  u.srcs.any fun x => x.s.file == .k && (List.range x.n).any fun i =>
    let n := x.s.num.toNat + i
    w.kPartial.getLsbD n && (g.lanes &&& ~~~(w.kMask.get 0 n)) != 0

/-- Checked mode's trap 0x17: a crossbar source outside the group, or of an unbound lane (R27, R253). -/
def laneTrap (s : State) (g : Issue) (t : TRef) (u : Uses) : Bool :=
  u.srcs.any fun x => x.s.file == .v && x.s.perm != .none &&
    match xbar x.s.perm x.s.param.toNat t.lane with
    | none => false
    | some l => !g.lanes.getLsbD l || !s.bound ⟨t.wave, l⟩

/-- The operand traps of one executing thread, in the order of R263. -/
def operandTrap (s : State) (b : Block) (g : Issue) (u : Uses) (t : TRef) : Option Trap :=
  if rangeTrap s t u then some (simpleTrap 0x04)
  else if b.checked ∧ uniformTrap s g u then some (simpleTrap 0x05)
  else if b.checked ∧ laneTrap s g t u then some (simpleTrap 0x17)
  else none

/-- The extension block a first write to a mapped register needs (R198), 0 when none is missing. -/
def implicitNeed (s : State) (t : TRef) (u : Uses) : Nat :=
  match u.dst with
  | some x =>
    if x.d.file = .v then
      let j := (x.d.num.toNat + x.n - 1) / 64
      if (s.wave t.wave).ext < j then j else 0
    else 0
  | none => 0

/-- What a thread's part of an instruction comes to. -/
inductive Lane where
  | done               -- completed: the next slot
  | jump (pc : BitVec 64)
  | stay (w : Wait)    -- does not complete: the thread waits at the instruction
  | trap (x : Trap)
  | moved              -- the effect has placed the thread itself
  deriving DecidableEq, Repr

/-- A thread whose operation was stopped: its trap, or the fate of the miss as a side-effecting access (R106). -/
def stopLane (s : State) (t : TRef) (x : Stop) : State × Lane :=
  match x with
  | .trap x => (s, .trap x)
  | .miss m => (meet s t false m, .moved)

def finishLane (s : State) (t : TRef) (l : Lane) : State :=
  match l with
  | .done => advance s t
  | .jump pc => setPc s t pc
  | .stay w => setWait s t w
  | .trap x => trapAt s t x
  | .moved => s

/-- A thread that still stands at the instruction and may go on with it. -/
def standing (s : State) (g : Issue) (t : TRef) : Bool :=
  s.alive t && (s.thread t).pc == g.pc && (s.thread t).wait.isNone

/-- One thread after another, in ascending lane order. -/
def eachLane (g : Issue) (f : State → TRef → State × Lane) (s : State) (ts : List TRef) : State :=
  ts.foldl (fun s t => if standing s g t then (let (s1, l) := f s t; finishLane s1 t l) else s) s

/-- The threads of a fetch group that stand at its address. -/
def groupThreads (s : State) (g : Issue) : List TRef :=
  ((lanesOf g.lanes).map fun l => (⟨g.wave, l⟩ : TRef)).filter (standing s g)

/-- An order number for an extension request; register deadlock is judged at once (R29, R31). -/
def requestExt (s : State) (ts : List TRef) (need : Nat) (imp : Bool) : State :=
  match ts with
  | [] => s
  | t :: _ =>
    let since := match extWait s t.wave with | some e => e.2 | none => s.seq
    let s1 := { s with seq := s.seq + 1 }
    let s2 := ts.foldl (fun s t => setWait s t (.ext need since imp)) s1
    let s3 := grantExt s2 (waveLaneSet t.wave)
    effects s3 [.deadlock (waveLaneSet t.wave)]

/-- Issue an instruction to the current fetch group: threads that do not execute it only advance (R33, R34); trap
0x01 is raised in every executing thread; then each thread's operand traps, the implicit acquire of R198, and the
instruction's own effect on the rest. -/
def issue (i : Instr) (who : Who) (body : State → Issue → Block → List TRef → State) (s : State) : State :=
  match s.cur with
  | none => s
  | some g =>
    match s.waveBlock? g.wave with
    | none => s
    | some b =>
      let ts := groupThreads s g
      let ex := ts.filter (executes s b i.head who)
      let s1 := (ts.filter fun t => !executes s b i.head who t).foldl advance s
      if !i.wf ∨ !modeOk b i who then ex.foldl (fun s t => trapAt s t (illegal i)) s1
      else
        let u := i.uses
        let s2 := ex.foldl (fun s t => match operandTrap s1 b g u t with | some x => trapAt s t x | none => s) s1
        let ok := ex.filter fun t => (operandTrap s1 b g u t).isNone
        let need := maxOf (ok.map fun t => implicitNeed s1 t u)
        match ok with
        | [] => s2
        | _ => if need > 0 then requestExt s2 ok need true else body s2 g b ok

/-! ### Results -/

/-- What an arithmetic instruction leaves in a thread: the destination's value, condition bits, flags raised. -/
structure Res where
  val   : Nat
  conds : List (Nat × Bool)
  flags : Nat
  deriving DecidableEq, Repr

def Res.of (v : Nat) : Res := ⟨v, [], 0⟩

def raiseFlags (s : State) (t : TRef) (fl : Nat) : State :=
  if fl = 0 then s else s.modThread t fun x => { x with fflags := x.fflags ||| d fl }

/-- Write a value to a v or c destination of one thread, with its flags and condition bits. -/
def writeRes (b : Block) (dst : Dst) (regs : Nat) (compare : Bool) (s : State) (t : TRef) (r : Res) : State :=
  let s1 := match dst.file with
    | .v => setVs s t dst.num.toNat (toWords regs r.val)
    | .k => s
    | .c =>
      let bit := r.val % 2 == 1
      let s1 := setC s t dst.num.toNat bit
      if b.forerunner ∧ compare then setC s1 t (dst.num.toNat ^^^ 1) (!bit) else s1
  let s2 := r.conds.foldl (fun s c => setC s t c.1 c.2) s1
  raiseFlags s2 t r.flags

/-- Write what the executing threads computed, all operands having been read before: each its own destination, or a k
destination once, from the lowest executing lane, with its flags to every thread of the group (R32, R255, R310). -/
def finishRes (dst : Dst) (regs : Nat) (cmp : Bool) (f : TRef → Res) (s : State) (g : Issue) (b : Block) (ts : List TRef) :
    State :=
  match dst.file, ts with
  | .k, t0 :: _ =>
    let r := f t0
    let s1 := setKs s g dst.num.toNat (toWords regs r.val)
    ts.foldl (fun s t => advance (raiseFlags s t r.flags) t) s1
  | _, _ =>
    let rs := ts.map fun t => (t, f t)
    rs.foldl (fun s e => advance (writeRes b dst regs cmp s e.1 e.2) e.1) s

/-- An instruction that computes registers from registers. -/
def compute (i : Instr) (dst : Dst) (regs : Nat) (cmp : Bool) (f : State → Issue → TRef → Res) (s : State) : State :=
  issue i .normal (fun s g b ts => finishRes dst regs cmp (f s g) s g b ts) s

end Sys2Proof.Machine
end

