-- ==== Sys2Proof/Machine/Local.lean ====
section
/-! DEFINITION. Local addresses and scratch (R57-R59, R90), the template segment (R199), FIFO references (R43, R64,
R65) and byte barriers (R67). -/

namespace Sys2Proof.Machine

/-! ### Local addresses -/

/-- Where a local address lies: bytes of a core's local memory, or of the thread's template segment. -/
inductive Place where
  | scratch (core : Nat) (a : Nat) (owner : Nat)   -- `owner`: the block whose scratch it is
  | segment (off : Nat)
  deriving DecidableEq, Repr

def segmentBase : Nat := 0xF0000

/-- The block a local address names (R57): BID in the own cluster, or in the next stage's with NXT. -/
def localBlock (s : State) (b : Block) (addr : Word) : Option Block :=
  let bid := bits addr 23 20
  let stage := b.stage + if addr.getLsbD 24 then 1 else 0
  if bid = b.bid ∧ stage = b.stage then some b
  else s.blocks.find? fun x => x.launch == b.launch && x.gen == b.gen && x.coord == b.coord && x.stage == stage && x.bid == bid

/-- The checks of R57 and R58 on an access of `n` bytes; none is trap 0x15. -/
def localPlace (s : State) (b : Block) (addr : Word) (n : Nat) : Option Place :=
  let ofs := bits addr 19 0
  if bits addr 31 25 ≠ 0 then none
  else
    match localBlock s b addr with
    | none => none
    | some o =>
      let place : Place := .scratch o.core (o.scratchOff + ofs) o.id
      if addr.getLsbD 24 then
        (if o.scratchBytes ≤ ofs ∧ ofs + n ≤ o.scratchBytes + o.chanBytes then some place else none)
      else if ofs + n ≤ o.scratchBytes + o.chanBytes then some place
      else if b.template ∧ o.id = b.id ∧ segmentBase ≤ ofs ∧ ofs + n ≤ segmentBase + b.segBytes then
        some (.segment (ofs - segmentBase))
      else none

/-! ### The template segment -/

/-- A 64-byte granule as the thread reads it: its private copy, else the template's (R199, R202). -/
def granule (s : State) (t : TRef) (g : Nat) : BitVec 512 :=
  let x := s.thread t
  match x.granules.find? g with
  | some v => v
  | none =>
    match x.tpl.bind s.tpl? with
    | some y => y.segment.get 0 g
    | none => 0

def segmentRead (s : State) (t : TRef) (off n : Nat) : Nat :=
  let byte (i : Nat) : Nat := (granule s t (i / 64)).toNat / 256 ^ (i % 64) % 256
  sumOf ((List.range n).map fun i => byte (off + i) * 256 ^ i)

/-- The granules an access touches that the thread does not hold privately. -/
def missingGranules (s : State) (t : TRef) (off n : Nat) : List Nat :=
  (((List.range n).map fun i => (off + i) / 64).eraseDups).filter fun g => ((s.thread t).granules.find? g).isNone

/-- A ninth private granule of an item (R199); the prologue writes the segment itself (R193). -/
def segmentOverflow (s : State) (t : TRef) (off n : Nat) : Bool :=
  (s.thread t).stamp != .prologue && (s.thread t).granules.length + (missingGranules s t off n).length > 8

def segmentPut (s : State) (t : TRef) (off : Nat) (b : Byte) : State :=
  let g := granule s t (off / 64)
  let m : BitVec 512 := 255#512 <<< (8 * (off % 64))
  let v := (g &&& ~~~m) ||| (BitVec.zeroExtend 512 b <<< (8 * (off % 64)))
  s.modThread t fun x => { x with granules := x.granules.put (off / 64) v }

/-- Copy the touched granules, then store the bytes. -/
def segmentWrite (s : State) (t : TRef) (off : Nat) (bs : List Byte) : State :=
  (bs.foldl (fun (r : State × Nat) b => (segmentPut r.1 t r.2 b, r.2 + 1)) (s, off)).1

def placeRead (s : State) (t : TRef) (p : Place) (n : Nat) : Nat :=
  match p with
  | .scratch c a _ => scratchRead s c a n
  | .segment o => segmentRead s t o n

/-! ### Byte barriers (R67) -/

/-- A wait on a byte barrier ends: the waiters word falls, DST takes the phase word, and the wake is a block-scope
acquire (R67, R374). -/
def wakeBowait (s : State) (b : Block) (t : TRef) (dst off : Nat) : State :=
  let s1 := setOwnWord s b (off + 8) (ownWord s b (off + 8) - 1)
  let s2 := setV s1 t dst (ownWord s1 b (off + 4))
  edgeAcquire (advance (clearWait s2 t) t) t .block

/-- Wake the waiters of a block whose barrier holds zero. -/
def wakeBarriers (s : State) (bid : Nat) : State :=
  match s.block? bid with
  | none => s
  | some b =>
    (blockThreads s b).foldl (fun s t =>
      match (s.thread t).wait with
      | some (.bowait dst off) => if ownWord s b off = 0 then wakeBowait s b t dst off else s
      | _ => s) s

/-- Remaining bytes and phase word after a subtraction (R67). -/
def barrierNext (rem : Nat) (phase : Word) (n : Nat) : Nat × Word :=
  if n = 0 then (rem, phase)
  else if rem = 0 then (0, phase ||| 0x80000000)
  else if n < rem then (rem - n, phase)
  else
    let done := ((phase + 1) &&& 0x7FFFFFFF) ||| (phase &&& 0x80000000)
    (0, if rem < n then done ||| 0x80000000 else done)

/-- Subtract performed bytes from a barrier at its home (R67, R96); the waiters of a completed phase wake. -/
def barrierSub (s : State) (b : Block) (off n : Nat) : State :=
  let rem := (ownWord s b off).toNat
  let (rem', phase') := barrierNext rem (ownWord s b (off + 4)) n
  let s1 := setOwnWord (setOwnWord s b off (d rem')) b (off + 4) phase'
  if rem ≠ 0 ∧ rem' = 0 then wakeBarriers s1 b.id else s1

/-! ### FIFO references (R43, R389) -/

/-- What a FIFO number names in a block. -/
inductive FifoRef where
  | absent                              -- not held by the block
  | blank                               -- held, not initialised
  | held (block : Nat) (index : Nat) (f : Fifo)
  deriving DecidableEq, Repr

def Block.stages (s : State) (b : Block) : Nat := match s.launch? b.launch with | some l => if b.gen then 1 else l.d.stages | none => 1

def fifoRef (s : State) (b0 : Block) (n : Nat) : FifoRef :=
  let b := (s.block? b0.id).getD b0
  let ofBlock (x : Block) (i : Nat) : FifoRef :=
    match x.fifos.find? i with
    | some f => if f.count = 0 then .blank else .held x.id i f
    | none => .blank
  if n < b.nfifo then ofBlock b n
  else if Block.stages s b = 1 then .absent
  else if n = 31 then (if b.stage = 0 then .absent else ofBlock b 31)
  else if n = 30 then (match consumerOf s b with | some c => ofBlock c 31 | none => .absent)
  else .absent

/-- Slot bytes (R64). -/
def Fifo.slotBytes (f : Fifo) : Nat := 64 * (f.slotb + 1)

/-- A producer reserves slot TAIL (R65). -/
def Fifo.reserve (f : Fifo) (who : Option TRef) : Fifo :=
  { f with free := f.free - 1, tail := (f.tail + 1) % f.count, resv := f.resv ++ [(f.tail, false, who)] }

/-- A reserved slot's data is complete; FILLED rises in slot order (R65). -/
def Fifo.commit (f : Fifo) (slot : Nat) : Fifo :=
  let marked := f.resv.map fun e => if e.1 = slot then (e.1, true, e.2.2) else e
  let rest := dropLead (fun e => e.2.1) marked
  { f with resv := rest, filled := f.filled + (marked.length - rest.length) }

/-- A consumer pops slot HEAD (R65). -/
def Fifo.pop (f : Fifo) : Fifo :=
  { f with filled := f.filled - 1, head := (f.head + 1) % f.count, popped := f.popped ++ [(f.head, false)] }

/-- A popped slot is released; FREE rises in pop order (R65, R393). -/
def Fifo.release (f : Fifo) (slot : Nat) : Fifo :=
  let marked := f.popped.map fun e => if e.1 = slot then (e.1, true) else e
  let rest := dropLead (fun e => e.2) marked
  { f with popped := rest, free := f.free + (marked.length - rest.length) }

def modFifo (s : State) (block index : Nat) (f : Fifo → Fifo) : State :=
  s.modBlock block fun b => { b with fifos := b.fifos.modify index f }

/-! ### What a drain's begun row keeps of its FIFOs (R130, R139) -/

/-- The packing of a drain's rows (R127). -/
def kzP (kz : Word) : Nat := 2 ^ bits kz 13 12

/-- Bytes of an output row of N columns (R129). -/
def rowBytes (ty : Ty) (n : Nat) : Nat := match ty with | .f32 => 4 * n | .i8x4 => n + 64 | _ => 2 * n

/-- Columns of a drain, and bytes of its output row (R128, R129). -/
def MxOp.cols (op : MxOp) : Nat := 128 * kzP (wAt op.kvals 2)
def MxOp.rowLen (op : MxOp) : Nat := rowBytes op.f.h.typ op.cols

/-- Slots of `k` bytes that a begun row has still to write into F1, and those it has still to pop from F2. -/
def MxOp.owes (op : MxOp) (k : Nat) : Nat := if op.begun && op.opcode == 4 then op.rowLen / k - op.sent else 0
def MxOp.wants (op : MxOp) (k : Nat) : Nat :=
  if op.begun && op.opcode == 4 && op.f.acc then op.rowLen / k - (op.freed + op.taken.length) else 0

/-- The operations at the heads of a block's arrays, while it holds the matrix state. -/
def Block.drains (s : State) (b : Block) : List MxOp :=
  let m := (s.core b.core).mx
  if m.holder = some b.id then m.arrays.filterMap fun a => a.queue.head? else []

/-- Slots of FIFO `i` of block `o` that begun rows keep: free ones for their output (`out`), or filled ones as their prior; no
other producer or consumer takes these, so a row that has begun need not wait (assumption 115). -/
def drainKeeps (out : Bool) (s : State) (o i : Nat) : Nat :=
  let slots (b : Block) (op : MxOp) : Nat :=
    match fifoRef s b (if out then op.f.f1.toNat else op.f.f2.toNat) with
    | .held o1 i1 x => if o1 = o ∧ i1 = i then (if out then op.owes x.slotBytes else op.wants x.slotBytes) else 0
    | _ => 0
  ((s.blocks.filter fun b => b.matrix).flatMap fun b => (b.drains s).map (slots b)).sum

end Sys2Proof.Machine
end

