-- ==== Sys2Proof/Machine/Control.lean ====
section
/-! DEFINITION. Control flow, waiting and software traps: opcodes 0x00-0x0D (R279-R292). -/

namespace Sys2Proof.Machine

/-- A thread's request for a line of its address space. -/
def threadReq (s : State) (t : TRef) (access : Nat) (aborts : Bool) : Req :=
  { fetchReq s t with access := access, aborts := aborts }

/-- A transfer of control to a 64-bit target (R245, R280, R282): its address checks in order, then the TGT bit. -/
def transfer (s : State) (t : TRef) (target : BitVec 64) : State × Lane :=
  if bits target 63 57 ≠ 0 then (s, .trap ⟨0x0B, target, 0, false, 0⟩)
  else if !slotOffset target then (s, .trap ⟨0x03, target, 0, false, 0⟩)
  else
    match fetchLine s t (target.toNat / 64 * 64) with
    | (s1, .ok c) =>
      if lineTgt c.raw (slotOf target.toNat) then (s1, .jump target) else (s1, .trap ⟨0x03, target, 0, false, 0⟩)
    | (s1, .error m) => (meet s1 t false m, .moved)

/-- The target of a line-relative branch (R260, R280). -/
def branchTarget (pc : BitVec 64) (f : BForm) : BitVec 64 :=
  q (pc.toNat / 64 * 64) + (BitVec.signExtend 64 f.loff <<< 6) + q (12 * f.ts.toNat)

/-- Write a link pair: in file k once for the group, which repeating the same write is. -/
def writeLink (s : State) (g : Issue) (t : TRef) (k : Bool) (n : Nat) (v : BitVec 64) : State :=
  if k then setKs s g n [lo32 v, hi32 v] else setVs s t n [lo32 v, hi32 v]

/-- A taken transfer writes its link, an untaken one does not (R280, R283). -/
def linked (g : Issue) (t : TRef) (k : Bool) (n : Nat) (r : State × Lane) : State × Lane :=
  match r.2 with
  | .jump target => (writeLink r.1 g t k n (nextPc g.pc), .jump target)
  | _ => r

/-- R279. -/
def execNop (f : RForm) (s : State) : Out :=
  .next (issue (.nop f) .normal (fun s g _ ts => eachLane g (fun s _ => (s, .done)) s ts) s)

/-- R280. -/
def execBra (f : BForm) (s : State) : Out :=
  .next (issue (.bra f) .guarded (fun s g _ ts =>
    eachLane g (fun s t => transfer s t (branchTarget g.pc f)) s ts) s)

/-- R281. -/
def execBrx (f : RForm) (s : State) : Out :=
  .next (issue (.brx f) .guarded (fun s g _ ts =>
    eachLane g (fun s t => transfer s t (q (rawSrc s t .b64 f.a))) s ts) s)

/-- R280: `call` also writes the link pair. -/
def execCall (f : BForm) (s : State) : Out :=
  .next (issue (.call f) .guarded (fun s g _ ts =>
    eachLane g (fun s t => linked g t f.lnkK f.lnk.toNat (transfer s t (branchTarget g.pc f))) s ts) s)

/-- R281: as `brx`; the return hint changes only timing. -/
def execRet (f : RForm) (s : State) : Out :=
  .next (issue (.ret f) .guarded (fun s g _ ts =>
    eachLane g (fun s t => transfer s t (q (rawSrc s t .b64 f.a))) s ts) s)

/-- The table entry's address (R283). -/
def callEntry (s : State) (t : TRef) (f : RForm) : BitVec 64 := srcPair s t f.a + q (8 * srcVal s t .n32 f.b)

/-- R283: the table entry is read through the constant path, then the call. -/
def callTable (s : State) (g : Issue) (t : TRef) (f : RForm) (ea : BitVec 64) : State × Lane :=
  if bits ea 2 0 ≠ 0 then (s, .trap ⟨0x12, ea, 0, false, 0⟩)
  else if bits ea 63 57 ≠ 0 then (s, .trap ⟨0x0B, ea, 0, false, 0⟩)
  else
    let line := ea.toNat / 128 * 128
    let o := ea.toNat % 128
    let p : Path := ⟨waveCore t.wave, .const, t, .default⟩
    match cacheRead s p (threadReq s t 0 true) line (byteMask o 8) with
    | (s1, .error m) => (meet s1 t true m, .moved)
    | (s1, .ok v) =>
      let target := q (lineGet v.1 o 8)
      if target = 0 then (s1, .trap ⟨0x03, 0, 0, false, 0⟩)
      else linked g t (f.dst.file == .k) f.dst.num.toNat (transfer s1 t target)

/-- Every thread's table and index are read before any link is written (R255). -/
def execCallsh (f : RForm) (s : State) : Out :=
  .next (issue (.callsh f) .normal (fun s0 g _ ts =>
    eachLane g (fun s t => callTable s g t f (callEntry s0 t f)) s0 ts) s)

/-- R285. -/
def execExit (f : RForm) (s : State) : Out :=
  .next (issue (.exit f) .guarded (fun s g _ ts => eachLane g (fun s t => (exitThread s t, .moved)) s ts) s)

/-- R286: not ready for the next 16 cycles; the wave's ageing bonus returns to 0. The end of the issuing cycle counts one
down already. -/
def execYield (f : RForm) (s : State) : Out :=
  .next (issue (.yield f) .normal (fun s g _ ts =>
    let s1 := s.modWave g.wave fun w => { w with bonus := 0, waited := 0 }
    eachLane g (fun s _ => (s, .stay (.cycles 17))) s1 ts) s)

/-- R287: not ready for n cycles after this one; `sleep 0` behaves as `nop`. -/
def execSleep (f : IForm) (s : State) : Out :=
  .next (issue (.sleep f) .normal (fun s g _ ts =>
    eachLane g (fun s _ => (s, if f.imm = 0 then .done else .stay (.cycles (f.imm.toNat + 1)))) s ts) s)

/-! ### waitc (R40-R42, R288) -/

def condKind (c : BitVec 64) : Nat := bits c 63 60

/-- Bits of a descriptor that its kind does not name (R41). -/
def condReserved (c : BitVec 64) : BitVec 64 :=
  let named : BitVec 64 := match condKind c with
    | 7 => 0x0FFFFFFFFFFFFFFF | 6 => 0xFFFF000F | 5 => 0x3F3 | 4 => 0x01FFFFFFFFFFFFFF
    | 3 => 0x3F | 2 => 0x11F000001FF | 1 => 0xFFFFFFFF | _ => 0x03FFFFFFFFFFFFFF
  c &&& 0x0FFFFFFFFFFFFFFF &&& ~~~named

/-- The trap a descriptor raises at issue (R41). -/
def condTrap (s : State) (i : Instr) (b : Block) (c : BitVec 64) : Option Trap :=
  let bad : Option Trap := some (illegal i)
  if 8 ≤ condKind c ∨ condReserved c ≠ 0 then bad
  else
    match condKind c with
    | 7 => if (localPlace s b (d (4 * bits c 59 32)) 4).isNone then some (simpleTrap 0x15) else none
    | 6 => if bits c 3 0 < b.ncv then none else bad
    | 4 => if (regionAt s b.part b.asid (bits c 56 0)).isNone then some (simpleTrap 0x0B) else none
    | 2 =>
      if bits c 8 0 = 0 ∨ 256 < bits c 8 0 then bad
      else (match fifoRef s b (bits c 36 32) with | .held _ _ _ => none | _ => bad)
    | 1 =>
      if bits c 3 0 ≠ 0 then bad
      else if (localPlace s b (d (bits c 31 0)) 16).isNone then some (simpleTrap 0x15) else none
    | _ => none

/-- A posted receive by its index, as a block names it: on the core where the block posted it, which forwards to it
after a restore, else on the block's own core (R378). -/
def receiveOf (s : State) (b : Block) (i : Nat) : Option Receive :=
  let posted := s.cores.filterMap fun e => (e.2.receives.find? i).bind fun r => if r.block = b.id then some r else none
  match posted with
  | r :: _ => some r
  | [] => (s.core b.core).receives.find? i

/-- Whether a condition holds in a thread (R41). -/
def condHolds (s : State) (t : TRef) (b : Block) (c : BitVec 64) : Bool :=
  let x := s.thread t
  match condKind c with
  | 7 =>
    (match localPlace s b (d (4 * bits c 59 32)) 4 with
     | some p => placeRead s t p 4 != bits c 31 0
     | none => false)
  | 6 => (((b.cvs.find? (bits c 3 0)).map fun v => v.seq.toNat).getD 0 + 65536 - bits c 31 16) % 65536 < 32768
  | 5 =>
    let n := match bits c 1 0 with | 0 => x.ld | 1 => x.st | 2 => x.cp | _ => x.mx
    n ≤ bits c 9 4
  | 4 => (match regionAt s b.part b.asid (bits c 56 0) with | some (_, r, k) => r.state k == 2 | none => false)
  | 3 => (match receiveOf s b (bits c 5 0) with | some r => r.matched | none => false)
  | 2 =>
    (match fifoRef s b (bits c 36 32) with
     | .held _ _ f => bits c 8 0 ≤ (if c.getLsbD 40 then f.filled else f.free)
     | _ => false)
  | 1 => (match localPlace s b (d (bits c 31 0)) 4 with | some p => placeRead s t p 4 == 0 | none => false)
  | _ => atLeast48 (bits (s.ctx (bits c 57 48)).counter 47 0) (bits c 47 0)

/-- The acquire of a condition that held (R42). -/
def condAcquire (s : State) (t : TRef) (b : Block) (c : BitVec 64) : State :=
  match condKind c with
  | 4 | 0 => doAcquireAll s t
  | 3 => (match receiveOf s b (bits c 5 0) with | some r => edgeAcquire s t r.scope | none => s)
  | 1 => edgeAcquire s t .block
  | _ => s

def condBits (s : State) (t : TRef) (b : Block) (cs : List (BitVec 64)) : Nat :=
  sumOf (cs.zipIdx.map fun e => if condHolds s t b e.1 then 2 ^ e.2 else 0)

/-- Whether the mode is satisfied: all-of, or any-of. -/
def condMet (n : Nat) (all : Bool) (held : Nat) : Bool := if all then held == 2 ^ n - 1 else held != 0

/-- The wait is over (R40, R42): the acquires of the conditions that hold, the result, and the next slot. -/
def finishWaitc (s : State) (t : TRef) (b : Block) (dst : Nat) (cs : List (BitVec 64)) (expired : Bool) : State :=
  let held := condBits s t b cs
  let s1 := (cs.filter (condHolds s t b)).foldl (fun s c => condAcquire s t b c) s
  setV s1 t dst (d (held + if expired then 16 else 0))

def waitcLane (i : Instr) (f : IForm) (s : State) (t : TRef) (b : Block) : State × Lane :=
  let n := bits f.xf 2 1 + 1
  let all := f.xf.getLsbD 0
  let cs := (List.range n).map fun j =>
    pair (kreg s t.wave (f.a.num.toNat + 2 * j)) (kreg s t.wave (f.a.num.toNat + 2 * j + 1))
  match cs.filterMap (condTrap s i b) with
  | x :: _ => (s, .trap x)
  | [] =>
    if condMet n all (condBits s t b cs) then (finishWaitc s t b f.dst.num.toNat cs false, .done)
    else if f.imm = 0 then (finishWaitc s t b f.dst.num.toNat cs true, .done)
    else (s, .stay (.waitc f.dst.num.toNat cs all
      (if f.imm = 0xFFFFFFFF then none else some (s.tick.toNat + f.imm.toNat))))

def execWaitc (f : IForm) (s : State) : Out :=
  .next (issue (.waitc f) .normal (fun s g b ts =>
    eachLane g (fun s t => waitcLane (.waitc f) f s t b) s ts) s)

/-! ### Traps, ubra and join -/

/-- R292: a deferred trap of the instruction, with the next slot as tepc. -/
def deferTrap (code : BitVec 8) (imm : Word) (s : State) (g : Issue) (t : TRef) : State × Lane :=
  (effects s [.trap t ⟨code, g.pc, imm.zeroExtend 64, true, 0⟩ (nextPc g.pc)], .moved)

def execTrap (f : IForm) (s : State) : Out :=
  .next (issue (.trap f) .normal (fun s g _ ts => eachLane g (fun s t => deferTrap 0x18 f.imm s g t) s ts) s)

def execBrk (f : IForm) (s : State) : Out :=
  .next (issue (.brk f) .normal (fun s g _ ts => eachLane g (fun s t => deferTrap 0x19 f.imm s g t) s ts) s)

/-- R284. -/
def execUbra (f : BForm) (s : State) : Out :=
  .next (issue (.ubra f) .normal (fun s g _ ts =>
    eachLane g (fun s t =>
      if rawSrc s t .b32 f.cond ≠ 0 then transfer s t (branchTarget g.pc f) else (s, .done)) s ts) s)

/-- R25, R289: the threads are held until n cycles after this one have passed; the group's own arrival may complete the
join. -/
def execJoin (f : IForm) (s : State) : Out :=
  .next (issue (.join f) .normal (fun s g b ts =>
    settle (eachLane g (fun s _ => (s, .stay (.join (f.imm.toNat + 1)))) s ts) b.id) s)

end Sys2Proof.Machine
end

