-- ==== Sys2Proof/Machine/TraceUnit.lean ====
section
/-! DEFINITION. The trace unit (R530-R535): the ring, the records of sessions, markers and sampled memory requests. -/

namespace Sys2Proof.Machine

def modTrace (s : State) (p : Nat) (f : TraceUnit → TraceUnit) : State := s.modPart p fun x => { x with trace := f x.trace }

def TraceUnit.full (u : TraceUnit) : Bool := (u.ttail + 1) % 2 ^ u.tsz == u.thead % 2 ^ u.tsz

/-- Write one record at TTAIL. -/
def writeTrace (s : State) (p : Nat) (r : BitVec 512) : State :=
  let u := (s.part p).trace
  let s1 := ringWrite s p (u.tbase.toNat + 64 * u.ttail) (toBytes 64 r.toNat)
  modTrace s1 p fun u => { u with ttail := (u.ttail + 1) % 2 ^ u.tsz }

/-- A marker or a sample: dropped and counted on a full ring, also behind a record that waits for a slot (R531). -/
def postTrace (s : State) (p : Nat) (r : BitVec 512) : State :=
  let u := (s.part p).trace
  if u.full || u.held != [] then
    modTrace s p fun u => { u with tdrop := if u.tdrop = 0xFFFFFFFF then u.tdrop else u.tdrop + 1 }
  else writeTrace s p r

/-- An open, close or cut record waits until a slot frees (R531). -/
def holdTrace (s : State) (p : Nat) (r : BitVec 512) : State :=
  let u := (s.part p).trace
  if u.full || u.held != [] then modTrace s p fun u => { u with held := u.held ++ [r] } else writeTrace s p r

/-- Write waiting records while the ring has room. -/
def drainTrace (p : Nat) : Nat → State → State
  | 0, s => s
  | n + 1, s =>
    match (s.part p).trace.held with
    | [] => s
    | r :: rest =>
      if (s.part p).trace.full then s
      else drainTrace p n (writeTrace (modTrace s p fun u => { u with held := rest }) p r)

/-- Whether a launch is traced: the session is open on its queue; a generator item is no launch of a queue. -/
def traced (s : State) (b : Block) : Bool :=
  let u := (s.part b.part).trace
  match s.launch? b.launch with
  | some l => !b.gen && u.opened && u.tqmask.getLsbD l.queue
  | none => false

/-- The queue of a block's launch. -/
def blockQueue (s : State) (b : Block) : Nat := match s.launch? b.launch with | some l => l.queue | none => 0

/-- A marker of a core, in issue order: it waits behind the core's samples that are not complete (R533). -/
def passTrace (s : State) (t : TRef) (b : Block) (r : BitVec 512) : State :=
  if (s.part b.part).trace.samples.any fun e => e.core == b.core then
    let e : Sample := ⟨b.core, t, 0, 0, 0, blockQueue s b, r⟩
    modTrace s b.part fun u => { u with samples := u.samples ++ [e] }
  else postTrace s b.part r

/-- A marker (R430, R532). -/
def traceMarker (s : State) (t : TRef) (b : Block) (id : Nat) (v : Word) : State :=
  if traced s b then
    let x := s.thread t
    passTrace s t b (threadRecord s t 1 0 [q (id + 2 ^ 32 * v.toNat), x.pc, x.item, q x.tlevel, 0])
  else s

/-! ### Sampled memory requests (R534) -/

/-- The memory behind the CSM at a line. -/
def memoryTier (s : State) (r : Req) (line : Nat) : Nat :=
  match peekWalk s r.asid line with
  | .leaf pa _ _ _ => (match paKind s pa with | .tier1 => 3 | .tier2 => 4 | .cxl => 5 | .peer _ => 6 | _ => 2)
  | .absent _ _ => 2

/-- Where the home bank of a line has the bytes of a request from. -/
def bankServes (s : State) (r : Req) (line : Nat) (mask : BitVec 128) : Nat :=
  match csmFind s r.asid r.agen line with
  | some l => if mask &&& ~~~l.valid = 0 then 2 else memoryTier s r line
  | none => memoryTier s r line

/-- Where a load through a core's cache is served, before it is made; an acquire takes no clean byte of the L1 (R81). -/
def loadServes (s : State) (t : TRef) (k : Cache) (line : Nat) (mask : BitVec 128) (acquires : Bool) : Nat :=
  let r := fetchReq s t
  let has (l : Line) : BitVec 128 :=
    if l.is r.asid r.agen line (some t) then l.dirty
    else if l.is r.asid r.agen line none then (if acquires then l.dirty else l.valid)
    else 0
  let left := (lines s (waveCore t.wave) k).foldl (fun m l => m &&& ~~~has l) mask
  if left = 0 then 0 else bankServes s r line left

/-- Where a store through a core's cache is served: the cache takes it, but for a bypass store that misses and for the own
store of a wide release, which the home bank takes, or the memory behind it (R71, R80). -/
def storeServes (s : State) (t : TRef) (k : Cache) (line : Nat) (ret : Ret) (releases : Bool) : Nat :=
  let r := fetchReq s t
  if !releases && !leavesCore s ⟨waveCore t.wave, k, t, ret⟩ r line then 0
  else if ret == .bypass && (csmFind s r.asid r.agen line).isNone then memoryTier s r line
  else 2

/-- Waits of an access that has issued, is held, and is made again: each ends its sample (R106, R109, R506). -/
def Wait.retried : Wait → Bool
  | .page _ _ | .fill _ _ | .fillFull _ _ | .evicting _ _ | .peer _ => true
  | _ => false

/-- Waits of an instruction that has not issued yet (R38, R77, R110). -/
def Wait.turnedAway : Wait → Bool
  | .counterRoom _ | .trackerRoom _ | .specRoom | .recheck => true
  | _ => false

/-- A number for a sampled access that no other one has. -/
def nextSample (s : State) : Nat :=
  1 + maxOf (s.loads.map PendLoad.sample ++ s.stores.map PendStore.sample
    ++ s.parts.flatMap fun e => e.2.trace.samples.map Sample.num)

/-- Change the last element that satisfies a test. -/
def modLast {α : Type} (p : α → Bool) (f : α → α) (l : List α) : List α :=
  match l.reverse.findIdx? p with
  | some i => l.modify (l.length - 1 - i) f
  | none => l

/-- The sample of one thread's access from `s` to `r`: while it is outstanding, its number stands with it; one that is held
ends it, and the retried access starts a fresh one (R534). An access that trapped completes nothing. -/
def startSample (access : Nat) (place : State → TRef → BitVec 64 × Nat) (s : State) (g : Issue) (b : Block) (r : State)
    (t : TRef) : State :=
  let old := s.thread t
  let x := r.thread t
  let others := x.resample.filter (· != g.pc)
  if x.wait.any Wait.retried then r.modThread t fun x => { x with resample := g.pc :: others }
  else
    let n := nextSample r
    let loaded := x.ld = old.ld + 1
    let stored := x.st = old.st + 1
    let r1 := r.modThread t fun x => { x with resample := others }
    if loaded ∨ stored then
      let (va, served) := place s t
      let e : Sample := { core := b.core, t := t, region := old.regionSeq, pc := g.pc, num := n, queue := blockQueue s b
                          body := threadRecord s t 2 0 [g.pc, va, q (access + 2 ^ 8 * served), 0, 0] }
      let r2 : State := if loaded then { r1 with loads := modLast (fun l => l.t == t) (fun l => { l with sample := n }) r1.loads }
        else { r1 with stores := modLast (fun p => p.t == t) (fun p => { p with sample := n }) r1.stores }
      modTrace r2 b.part fun u => { u with samples := u.samples ++ [e] }
    else r1

/-- The peer on which an access waits, by its place before it is made (R505). -/
def peerAsked (s : State) (t : TRef) (place : BitVec 64 × Nat) : Option Nat :=
  if place.2 ≠ 6 then none
  else
    match peekWalk s (fetchReq s t).asid (place.1.toNat / 128 * 128) with
    | .leaf pa _ _ _ => (match paKind s pa with | .peer p => some p | _ => none)
    | .absent _ _ => none

/-- Loads that went out to a peer, from `s` to `r`, are known by it and by their instruction (R506). -/
def askPeers (place : State → TRef → BitVec 64 × Nat) (s : State) (g : Issue) (ts : List TRef) (r : State) : State :=
  if s.peers.isEmpty then r
  else
    ts.foldl (fun r t =>
      match if (r.thread t).ld = (s.thread t).ld + 1 then peerAsked s t (place s t) else none with
      | some p => { r with loads := modLast (fun l => l.t == t) (fun l => { l with pc := g.pc, peer := some p }) r.loads }
      | none => r) r

/-- A memory instruction that issues at a sampling core is counted, and every 2^SP-th is sampled at its lowest executing
lane (R534); so is an access of any of its lanes whose sample a hold or a replay has ended. Its meaning `body` leaves `r`. -/
def sampled (access : Nat) (place : State → TRef → BitVec 64 × Nat) (body : State → Issue → Block → List TRef → State)
    (s : State) (g : Issue) (b : Block) (ts : List TRef) : State :=
  let r := askPeers place s g ts (body s g b ts)
  let u := (s.part b.part).trace
  let again (t : TRef) : Bool := (s.thread t).resample.contains g.pc
  -- an access held for a peer tests again and is no new issue (R506)
  let issued (t : TRef) : Bool :=
    !((r.thread t).pc == g.pc && (r.thread t).wait.any Wait.turnedAway) && !s.peerHolds.any fun h => h.t == t
  if !u.smp then r
  else
    let counted := ts.filter issued
    let n := (r.core b.core).samples + if counted = [] then 0 else 1
    let r1 := r.modCore b.core fun c => { c with samples := n % 2 ^ 24 }
    let mine := (if n % 2 ^ u.sp = 0 then counted.take 1 else []) ++ ts.filter again
    if traced s b then mine.eraseDups.foldl (startSample access place s g b) r1 else r1

/-- A sample's record as its access completes, with the times, which the spec leaves to the machine; a marker behind a
sample (R533) stands as it was made. -/
def finishSample (s : State) (r : BitVec 512) : State × BitVec 512 :=
  if bits r 7 0 ≠ 2 then (s, r)
  else
    let (a, s1) := s.fresh
    let (b, s2) := s1.fresh
    let (c, s3) := s2.fresh
    let times := bits a 7 0 * 2 ^ 336 + bits a 63 32 * 2 ^ 352 + b.toNat * 2 ^ 384 + bits c 31 0 * 2 ^ 448
    (s3, r ||| BitVec.ofNat 512 times)

/-- The oldest record of a core, once its access is complete. -/
def sampleDue (s : State) (core : Nat) : Option Sample :=
  ((s.part (corePart s core)).trace.samples.find? fun e => e.core == core).filter fun e => !e.waits s

/-- R534: the oldest sampled request of a core has completed, or a marker behind one is passed on. -/
def execMemorySample (core : Nat) (s : State) : Out :=
  .next (
    let p := corePart s core
    match sampleDue s core with
    | none => s
    | some e =>
      let s1 := modTrace s p fun u => { u with samples := dropFirst (fun x => x.core == core) u.samples }
      let (s2, r) := finishSample s1 e.body
      if (s2.part p).trace.opened then postTrace s2 p r else s2)

/-! ### Sessions (R530, R535) -/

/-- A record without a thread (R532). -/
def traceSessionRecord (s : State) (kind : Nat) (payload : List (BitVec 64)) : BitVec 512 :=
  record (header s kind 0 0xFFFF 0 0xFFFF 0 ++ payload)

/-- Whether a partition has a live Sextant context, which alone has sessions (R530). -/
def sextantLive (s : State) (part : Nat) : Bool := 
  let x := s.part part
  s.booted && s.bootOk && !x.sextantDown && x.takeover.isNone && !x.sextantStopped

/-- What waits is written while the ring has room (R531). -/
def drainHeld (s : State) (part : Nat) : State := drainTrace part ((s.part part).trace.held.length + 1) s

/-- R530: OPEN is set; what still waits from an earlier session comes first in the emptied ring. -/
def execTraceSessionOpen (part : Nat) (s : State) : Out :=
  .next (
    if (s.part part).trace.opened ∨ !sextantLive s part then s
    else
      let s1 := drainHeld (modTrace s part fun u => { u with opened := true, tseq := u.tseq + 1, thead := 0, ttail := 0 }) part
      let u := (s1.part part).trace
      holdTrace s1 part (traceSessionRecord s1 3 [q u.tseq.toNat, u.tqmask, 0, 0, 0]))

/-- The records that leave the cores when those that satisfy a test do, and those that stay: what a core holds before such
a record leaves with it (R533). -/
def flushed (mine : Sample → Bool) : List Sample → List Sample × List Sample
  | [] => ([], [])
  | e :: rest =>
    let (go, stay) := flushed mine rest
    if mine e || rest.any (fun x => x.core == e.core && mine x) then (e :: go, stay) else (go, e :: stay)

/-- Every record still held at some cores is written. -/
def flushSamples (p : Nat) (mine : Sample → Bool) (s : State) : State :=
  let (es, stay) := flushed mine (s.part p).trace.samples
  let s1 := modTrace s p fun u => { u with samples := stay }
  es.foldl (fun s e => let (s1, r) := finishSample s e.body; postTrace s1 p r) s1

/-- An open session ends: what the cores still hold is written, then the close record. -/
def closeSession (part : Nat) (s : State) : State :=
  if (s.part part).trace.opened then
    let s1 := flushSamples part (fun _ => true) s
    let u := (s1.part part).trace
    let s2 := holdTrace s1 part (traceSessionRecord s1 4 [q (u.tseq.toNat + 2 ^ 32 * u.tdrop.toNat), 0, 0, 0, 0])
    modTrace s2 part fun u => { u with opened := false }
  else s

/-- R530: OPEN is cleared. -/
def execTraceSessionClose (part : Nat) (s : State) : Out := .next (closeSession part s)

/-- R531: the reader frees ring slots. -/
def execTraceRingHeadWrite (part : Nat) (value : BitVec 64) (s : State) : Out :=
  .next (drainHeld (modTrace s part fun u => { u with thead := bits value 23 0 }) part)

/-- A queue is cut from the open session (R535): reason 1 for a reset, 2 for a bad tail. -/
def cutQueue (s : State) (p queue reason : Nat) : State :=
  let u := (s.part p).trace
  if u.opened && u.tqmask.getLsbD queue then
    let s1 := flushSamples p (fun e => e.queue == queue) s
    let s2 := holdTrace s1 p (traceSessionRecord s1 5 [q (queue + 2 ^ 8 * reason), 0, 0, 0, 0])
    modTrace s2 p fun u => { u with tqmask := u.tqmask &&& ~~~(1#64 <<< queue) }
  else s

end Sys2Proof.Machine
end

