-- ==== Sys2Proof/Machine/Mem.lean ====
section
/-! DEFINITION. Loads, stores, prefetch, fences and cache control: opcodes 0x70-0x7C (R348-R358). -/

namespace Sys2Proof.Machine

/-! ### Addresses (R56, R259, R351) -/

def genericAddr (s : State) (t : TRef) (f : MForm) : BitVec 64 :=
  q (rawSrc s t .b64 f.base) + BitVec.signExtend 64 f.ofs
def localAddr (s : State) (t : TRef) (f : MForm) : Word :=
  d (rawSrc s t .b32 f.base) + BitVec.signExtend 32 f.ofs

/-- Bytes an access moves (R351). -/
def accSize (f : MForm) : Nat := match f.h.typ with | .b8 => 1 | .b16 => 2 | _ => 4 * f.cnt.val

/-- The address checks of a generic access, in order (R351): the form, then the alignment. -/
def genericTrap (ea : BitVec 64) (align : Nat) : Option Trap :=
  if bits ea 63 57 ≠ 0 then some (simpleTrap 0x0B)
  else if ea.toNat % align ≠ 0 then some ⟨0x12, ea, 0, false, 0⟩
  else none

/-- The place of a local access after its checks (R57, R351). -/
def localCheck (s : State) (b : Block) (ea : Word) (n align : Nat) : Except Trap Place :=
  match localPlace s b ea n with
  | none => .error (simpleTrap 0x15)
  | some p => if ea.toNat % align ≠ 0 then .error ⟨0x12, ea.zeroExtend 64, 0, false, 0⟩ else .ok p

/-! ### Outstanding accesses (R38, R349) -/

/-- A later write of registers takes them from the loads still outstanding (R353). -/
def claimRegs (s : State) (t : TRef) (uniform : Bool) (ns : List Nat) : State :=
  let mine (l : PendLoad) : Bool := if uniform then l.uniform && l.t.wave == t.wave else !l.uniform && l.t == t
  { s with loads := mapIf mine (fun l => { l with regs := l.regs.filter fun r => !ns.contains r.1 }) s.loads }

/-- A load is outstanding until its data is written, and counted on LD until then; it takes `n` entries of its tracker, and
`m` of the constant one. -/
def pendLines (n m : Nat) (s : State) (t : TRef) (tracker unit : Nat) (uniform : Bool) (regs : List (Nat × Word)) : State :=
  let s1 := s.modThread t fun x => { x with ld := x.ld + 1 }
  { s1 with loads := s1.loads ++ [{ t := t, tracker := tracker, uniform := uniform, regs := regs, live := false
                                    unit := unit, region := (s1.thread t).regionSeq, seq := s1.seq, lines := n, consts := m
                                    sample := 0, pc := 0, peer := none, since := none }] }

def pendLoad (s : State) (t : TRef) (tracker unit : Nat) (uniform : Bool) (regs : List (Nat × Word)) : State :=
  pendLines 1 0 s t tracker unit uniform regs

/-- A result that is outstanding on LD until it is written, with `n` entries of its tracker and `m` of the constant one. -/
def loadLines (n m : Nat) (s : State) (t : TRef) (trk unit dst : Nat) (ws : List Word) : State :=
  let regs := ws.zipIdx.map fun e => (dst + e.2, e.1)
  pendLines n m (claimRegs s t false (regs.map Prod.fst)) t trk unit false regs

def loadResult (s : State) (t : TRef) (trk unit dst : Nat) (ws : List Word) : State := loadLines 1 0 s t trk unit dst ws

/-- A store is counted on ST until it is performed at its scope. -/
def pendStore (s : State) (t : TRef) (tracker : Nat) (buffered : Bool) : State :=
  let s1 := s.modThread t fun x => { x with st := x.st + 1 }
  { s1 with stores := s1.stores ++ [{ t := t, tracker := tracker, fin := false, buffered := buffered, seq := s1.seq
                                      sample := 0 }] }

/-- A thread's completed loads at the head of its issue order are counted out (R38). -/
def retireLoads (s : State) (t : TRef) : State :=
  let mine := s.loads.filter fun l => l.t == t
  let n := mine.length - (dropLead (·.live) mine).length
  let drop (l : List PendLoad) : List PendLoad := iter (dropFirst fun x => x.t == t) n l
  ({ s with loads := drop s.loads } : State).modThread t fun x => { x with ld := x.ld - n }

def counterFull (n : Nat) : Bool := n ≥ 63

/-- Destination registers of a load with their words (R352). -/
def loadRegs (f : MForm) (v : Nat) : List (Nat × Word) :=
  ((List.range f.cnt.val).zip (toWords f.cnt.val v)).map fun e => (f.dat.num.toNat + e.1, e.2)

/-- The bytes a store takes from its DAT registers. -/
def storeVal (s : State) (t : TRef) (f : MForm) : Nat :=
  let x := (Uses.datSrc f 1).s
  ofWords (srcRegs s t x f.cnt.val) % 256 ^ accSize f

/-- What reading a location gives: the bytes and the tracker that a miss occupies. -/
abbrev Read := State × Except Lane (Nat × Nat)

/-- A load by each executing thread, or once for the group into k registers (R255, R352). -/
def loadBody (f : MForm) (read : State → TRef → Read) (s : State) (g : Issue) (ts : List TRef) : State :=
  match f.dat.file, ts with
  | .k, t0 :: rest =>
    if ts.any fun t => counterFull (s.thread t).ld then ts.foldl (fun s t => setWait s t (.counterRoom 0)) s
    else
      match read s t0 with
      | (s1, .ok (v, trk)) =>
        -- the last issued write wins: mask and partial flag are the issue's (R32)
        let s2 := setKs s1 g f.dat.num.toNat ((List.range f.cnt.val).map fun i => kreg s1 g.wave (f.dat.num.toNat + i))
        -- one access for the group: one entry of the tracker (R77)
        ts.foldl (fun s t => advance (pendLoad s t (if t = t0 then trk else 4) 0 true (loadRegs f v)) t) s2
      | (s1, .error l) =>
        rest.foldl (fun s t =>
          match read s t with
          | (s2, .error l) => finishLane s2 t l
          | (s2, .ok _) => setWait s2 t .recheck) (finishLane s1 t0 l)
  | _, _ =>
    eachLane g (fun s t =>
      if counterFull (s.thread t).ld then (s, .stay (.counterRoom 0))
      else
        match read s t with
        | (s1, .error l) => (s1, l)
        | (s1, .ok (v, trk)) =>
          let regs := loadRegs f v
          (pendLoad (claimRegs s1 t false (regs.map Prod.fst)) t trk 0 false regs, .done)) s ts

/-- A side-effecting instruction is complete: the region after it begins at the next slot (R107). -/
def begun (t : TRef) (r : State × Lane) : State × Lane :=
  match r.2 with
  | .done => (beginRegion r.1 t (nextPc (r.1.thread t).pc), .done)
  | _ => r

/-! ### Generic-path, constant and tile-layout accesses -/

def isAcquire (o : Ord) : Bool := match o with | .acq | .ar => true | _ => false
def isRelease (o : Ord) : Bool := match o with | .rel | .ar => true | _ => false

/-- An acquiring load at cluster scope or wider reads no clean byte of its core's L1 (R78, R81). -/
def dropClean (s : State) (core : Nat) (asid agen va : Nat) : State :=
  setLines s core .l1 ((mapIf (·.is asid agen va none) (fun l => { l with valid := l.dirty }) (lines s core .l1)).filter
    fun l => l.valid != 0)

/-- The bytes of a line that a thread reads from its own core's dirty ones. -/
def ownBytes (s : State) (t : TRef) (k : Cache) (asid agen line : Nat) : BitVec 128 :=
  (lines s (waveCore t.wave) k).foldl (fun m l =>
    if l.is asid agen line none || l.is asid agen line (some t) then m ||| l.dirty else m) 0

/-- The race detector watches the generic path (R113). -/
def raceOn (k : Cache) (s : State) (t : TRef) (write : Bool) (acquire : Option Scope) (released : Bool) (line : Nat)
    (mask : BitVec 128) : Mem Unit :=
  let r := fetchReq s t
  let own : BitVec 128 := if acquire.isSome then ownBytes s t k r.asid r.agen line else 0
  if k = .l1 then raceAccess s t { raceKind s t write false acquire released with own := own } line mask else .ok s ()

/-- Read through a path (R352): the checks, the race detector on the generic path, the acquire's steps. -/
def pathRead (k : Cache) (f : MForm) (s : State) (t : TRef) : Read :=
  let ea := genericAddr s t f
  let n := accSize f
  match genericTrap ea n with
  | some x => (s, .error (.trap x))
  | none =>
    let line := ea.toNat / 128 * 128
    let o := ea.toNat % 128
    let r := threadReq s t 0 true
    let acq := isAcquire f.ord
    let s0 := if acq && Scope.wide f.scp then dropClean s (waveCore t.wave) r.asid r.agen line else s
    match cacheRead s0 ⟨waveCore t.wave, k, t, f.ret⟩ r line (byteMask o n) with
    | (s1, .error m) => (meet s1 t true m, .error .moved)
    | (s1, .ok (v, hit)) =>
      match raceOn k s1 t false (if acq then some f.scp else none) false line (byteMask o n) with
      | (s2, .error m) => (meet s2 t true m, .error .moved)
      | (s2, .ok _) =>
        let own := ownBytes s2 t k r.asid r.agen line
        let s3 := if acq then doAcquire s2 t f.scp (relRead s2 t r.asid r.agen line (byteMask o n) own) else s2
        (s3, .ok (lineGet v o n, if hit then 4 else cacheTracker k))

/-- A store that misses the core-side cache touches its procedural block (R206). -/
def storeTouch (s : State) (core : Nat) (k : Cache) (t : TRef) (r : Req) (line : Nat) : Mem Unit :=
  let present := (lines s core k).any fun l => l.asid == r.asid && l.agen == r.agen && l.va == line
    && (l.spec.isNone || l.spec == some t)
  if present ∨ r.agen ≠ asidGen s r.asid then .ok s () else touch s r line

/-- A plain store: speculative bytes of the thread's region (R62, R107). A bypass miss is performed only when its
region has ended and its home bank has taken it (R71). -/
def plainStore (k : Cache) (s : State) (t : TRef) (ea : Nat) (n v : Nat) (ret : Ret) : State × Lane :=
  let core := waveCore t.wave
  let r := threadReq s t 1 true
  let line := ea / 128 * 128
  let m := byteMask (ea % 128) n
  let away := leavesCore s ⟨core, k, t, ret⟩ r line
  let res := Mem.bind (storeTouch s core k t r line) fun s _ =>
    Mem.bind (cacheWrite s ⟨core, k, t, ret⟩ r line m (linePut (ea % 128) v)) fun made _ =>
      -- a conflict of trap mode leaves the store unmade (R117)
      match raceOn k made t true none false line m with
      | (_, .error e) => .fail s e
      | res => res
  match res with
  | (s1, .error e) => (meet s1 t true e, .moved)
  | (s1, .ok _) => (pendStore s1 t (if away then 5 else 4) away, .done)

/-- The own store of a wide release, performed at its home bank once the release is complete (R80): a page not
resident is met as a side-effecting access meets it (R106), a refused write is dropped with its record (R537). -/
def homeStore (k : Cache) (s : State) (t : TRef) (r : Req) (line : Nat) (m : BitVec 128) (val : BitVec 1024) (ret : Ret)
    (rel : Option RelTag) : Mem Unit :=
  let stale := r.agen ≠ asidGen s r.asid
  let opened : Mem Unit :=
    if stale then .ok s ()
    else
      Mem.bind (touch s r line) fun s _ =>
        if (csmFind s r.asid r.agen line).isSome then .ok s ()
        else Mem.bind (translate s r line) fun s _ => .ok s ()
  Mem.bind opened fun s _ =>
    Mem.bind (raceOn k s t true none rel.isSome line m) fun s _ =>
      match bankWrite s r.part r.asid r.agen line m val ret (ret != .bypass) with
      | (s1, .accepted) => .ok (markRel (cachePatch s1 r.core k r.asid r.agen line m val) r.asid r.agen line m rel) ()
      | (s1, .stale) => .ok (dropRecord s1 8 r.part r.core r.asid r.agen line m) ()
      | (s1, _) => .ok (dropRecord s1 9 r.part r.core r.asid r.agen line m) ()

/-- A releasing store (R80, R107): the region ends, the release completes, then the store is performed at its scope. -/
def releaseStore (k : Cache) (s : State) (t : TRef) (ea n v : Nat) (ret : Ret) (scp : Scope) : State × Lane :=
  let s1 := endRegion s t
  match doRelease s1 t scp with
  | (s2, .error x) => stopLane s2 t x
  | (s2, .ok rel) =>
    let core := waveCore t.wave
    let r := threadReq s2 t 1 false
    let line := ea / 128 * 128
    let m := byteMask (ea % 128) n
    let val := linePut (ea % 128) v
    if Scope.wide scp then
      match homeStore k s2 t r line m val ret rel with
      | (s3, .error e) => (meet s3 t false e, .moved)
      | (s3, .ok _) => begun t (pendStore s3 t 4 false, .done)
    else
      let p : Path := ⟨core, k, t, ret⟩
      let res := Mem.bind (storeTouch s2 core k t r line) fun s _ =>
        if storeRoom s p r line then raceOn k s t true none false line m else .fail s (.trackerRoom (cacheTracker k))
      match res with
      | (s3, .error e) => (meet s3 t false e, .moved)
      | (s3, .ok _) =>
        let (s4, away) := cacheStore s3 p r.part r line m val
        begun t (pendStore s4 t (if away then 5 else 4) away, .done)

def pathWrite (k : Cache) (f : MForm) (s : State) (t : TRef) : State × Lane :=
  let ea := genericAddr s t f
  let n := accSize f
  if counterFull (s.thread t).st then (s, .stay (.counterRoom 1))
  else
    match genericTrap ea n with
    | some x => (s, .trap x)
    | none =>
      if isRelease f.ord then releaseStore k s t ea.toNat n (storeVal s t f) f.ret f.scp
      else plainStore k s t ea.toNat n (storeVal s t f) f.ret

/-- The place of a sampled access and where it is served: a load of a path, a store of one, an operation on `n` bytes at
their home bank. -/
def loadPlace (k : Cache) (f : MForm) (s : State) (t : TRef) : BitVec 64 × Nat :=
  let ea := genericAddr s t f
  (ea, loadServes s t k (ea.toNat / 128 * 128) (byteMask (ea.toNat % 128) (accSize f)) (isAcquire f.ord && Scope.wide f.scp))

def storePlace (k : Cache) (f : MForm) (s : State) (t : TRef) : BitVec 64 × Nat :=
  let ea := genericAddr s t f
  (ea, storeServes s t k (ea.toNat / 128 * 128) f.ret (isRelease f.ord && Scope.wide f.scp))

def bankPlace (n : Nat) (f : MForm) (s : State) (t : TRef) : BitVec 64 × Nat :=
  let ea := genericAddr s t f
  (ea, bankServes s (fetchReq s t) (ea.toNat / 128 * 128) (byteMask (ea.toNat % 128) n))

def localSample (f : MForm) (s : State) (t : TRef) : BitVec 64 × Nat := ((localAddr s t f).zeroExtend 64, 1)

/-- R352. -/
def execLd (f : MForm) (s : State) : Out :=
  .next (issue (.ld f) .normal (sampled 0 (loadPlace .l1 f) fun s g _ ts => loadBody f (pathRead .l1 f) s g ts) s)
def execSt (f : MForm) (s : State) : Out :=
  .next (issue (.st f) .normal (sampled 1 (storePlace .l1 f) fun s g _ ts => eachLane g (pathWrite .l1 f) s ts) s)
def execLdc (f : MForm) (s : State) : Out :=
  .next (issue (.ldc f) .normal (sampled 0 (loadPlace .const f) fun s g _ ts => loadBody f (pathRead .const f) s g ts) s)
def execLdt (f : MForm) (s : State) : Out :=
  .next (issue (.ldt f) .normal (sampled 0 (loadPlace .tile f) fun s g _ ts => loadBody f (pathRead .tile f) s g ts) s)
def execStt (f : MForm) (s : State) : Out :=
  .next (issue (.stt f) .normal (sampled 1 (storePlace .tile f) fun s g _ ts => eachLane g (pathWrite .tile f) s ts) s)

/-! ### Scratch -/

/-- An acquire on scratch (R90): no invalidation below cluster scope; the race detector's clock takes every epoch. -/
def scratchAcquire (s : State) (t : TRef) (scp : Scope) : State :=
  let s1 := doAcquire s t scp []
  if Scope.wide scp then raceAcquireAll s1 (s1.wave t.wave).block else s1

def localRead (b : Block) (f : MForm) (s : State) (t : TRef) : Read :=
  let n := accSize f
  match localCheck s b (localAddr s t f) n n with
  | .error x => (s, .error (.trap x))
  | .ok p =>
    let v := placeRead s t p n
    (if isAcquire f.ord then scratchAcquire s t f.scp else s, .ok (v, 4))

/-- Store bytes at a place; a ninth private granule is trap 0x10 (R199). -/
def placeWrite (s : State) (t : TRef) (p : Place) (bs : List Byte) : State × Option Trap :=
  match p with
  | .scratch c a owner => (wakeBarriers (scratchWrite s c a bs) owner, none)
  | .segment o =>
    if segmentOverflow s t o bs.length then (s, some (simpleTrap 0x10)) else (segmentWrite s t o bs, none)

def localWrite (b : Block) (f : MForm) (s : State) (t : TRef) : State × Lane :=
  let n := accSize f
  if counterFull (s.thread t).st then (s, .stay (.counterRoom 1))
  else
    match localCheck s b (localAddr s t f) n n with
    | .error x => (s, .trap x)
    | .ok p =>
      let v := storeVal s t f
      let s1 := endRegion s t
      let (s2, rel) := if isRelease f.ord then doRelease s1 t f.scp else (s1, .ok none)
      match rel with
      | .error x => stopLane s2 t x
      | .ok _ =>
        match placeWrite s2 t p (toBytes n v) with
        | (s3, some x) => (s3, .trap x)
        | (s3, none) => begun t (pendStore s3 t 7 false, .done)

def execLdl (f : MForm) (s : State) : Out :=
  .next (issue (.ldl f) .normal (fun s g b ts => loadBody f (localRead b f) s g ts) s)
def execStl (f : MForm) (s : State) : Out :=
  .next (issue (.stl f) .normal (fun s g b ts => eachLane g (localWrite b f) s ts) s)

/-! ### Prefetch and fences -/

/-- R354: never a trap, never a fill, never a touch. -/
def prefetch (f : MForm) (s : State) (t : TRef) : State :=
  let ea := genericAddr s t f
  let line := ea.toNat / 128 * 128
  let r := threadReq s t 0 false
  let filled := match regionAt s r.part r.asid line with | some (_, x, k) => x.state k == 2 | none => true
  let resident := match peekWalk s r.asid line with | .leaf _ _ _ _ => true | .absent _ _ => false
  if bits ea 63 57 ≠ 0 ∨ !filled ∨ !resident ∨ !asidLive s r.asid ∨ r.agen ≠ asidGen s r.asid then s
  else
    match cacheRead s ⟨waveCore t.wave, .l1, t, f.ret⟩ r line fullMask with
    | (s1, .ok _) => s1.modPart r.part fun p => { p with regions := (s.part r.part).regions }
    | (_, .error _) => s

def execPrf (f : MForm) (s : State) : Out :=
  .next (issue (.prf f) .normal (fun s g _ ts => eachLane g (fun s t => (prefetch f s t, .done)) s ts) s)

/-- R355: the steps of R82; an acquire waits for the thread's earlier loads. -/
def fenceLane (f : MForm) (s : State) (t : TRef) : State × Lane :=
  if isAcquire f.ord ∧ (s.thread t).ld ≠ 0 then (s, .stay .recheck)
  else
    let (s1, rel) := if isRelease f.ord then doRelease (endRegion s t) t f.scp else (s, .ok none)
    match rel with
    | .error x => stopLane s1 t x
    | .ok _ =>
      let s2 := if isAcquire f.ord then scratchAcquire s1 t f.scp else s1
      if isRelease f.ord then begun t (s2, .done) else (s2, .done)

def execFence (f : MForm) (s : State) : Out :=
  .next (issue (.fence f) .normal (fun s g _ ts => eachLane g (fenceLane f) s ts) s)

/-- Invalidate the clean bytes of some ordinary lines. -/
def invalidate (s : State) (core : Nat) (k : Cache) (p : Line → Bool) : State :=
  let hit (l : Line) : Bool := l.spec.isNone && p l
  setLines s core k (((lines s core k).map fun l => if hit l then { l with valid := l.dirty } else l).filter
    fun l => !hit l || l.dirty != 0)

/-- R92, R356. -/
def pathFence (s : State) (core : Nat) (set : Nat) : State :=
  let every (_ : Line) : Bool := true
  let s1 := if set.testBit 0 then writeBack (drainWbs s fun b => b.core == core) core .l1 every else s
  let s2 := if set.testBit 3 then writeBack (drainWbs s1 fun b => b.core == core && b.tracker == 3) core .tile every else s1
  let s3 := if set.testBit 4 then flushRaster s2 core (corePart s2 core) else s2
  let s4 := if set.testBit 0 then invalidate s3 core .l1 every else s3
  let s5 := if set.testBit 1 then invalidate s4 core .const every else s4
  let s6 := if set.testBit 2 then invalidate (invalidate s5 core .tex every) core .brick every else s5
  let s7 := if set.testBit 3 then invalidate s6 core .tile every else s6
  if set.testBit 4 then invalidateRaster s7 core else s7

def execPfence (f : IForm) (s : State) : Out :=
  .next (issue (.pfence f) .normal (fun s g _ ts =>
    eachLane g (fun s t => (pathFence s (waveCore t.wave) f.imm.toNat, .done)) s ts) s)

/-- Accesses of a thread that are not performed yet (R357). A bypass store of the region that the thread is still in is
performed only at the region's end, and is no access that a wait inside the region awaits (assumption 114). -/
def unperformed (s : State) (t : TRef) : Bool :=
  let inside (p : PendStore) : Bool := p.buffered && p.tracker == 5 && (s.thread t).regionSeq < p.seq
  s.loads.any (fun l => l.t == t && !l.live) || s.stores.any fun p => p.t == t && !p.fin && !inside p

/-- R357. -/
def execIfence (f : RForm) (s : State) : Out :=
  .next (issue (.ifence f) .normal (fun s g _ ts =>
    eachLane g (fun s t =>
      if unperformed s t then (s, .stay .recheck) else (setLines s (waveCore t.wave) .icache [], .done)) s ts) s)

/-- The lines a `wb` or `inv` names (R358). -/
def inRange (r : Req) (first n : Nat) (l : Line) : Bool :=
  l.asid == r.asid && l.agen == r.agen && first ≤ l.va && l.va < first + 128 * n

def wbLane (f : MForm) (s : State) (t : TRef) : State × Lane :=
  let ea := genericAddr s t f
  if counterFull (s.thread t).st then (s, .stay (.counterRoom 1))
  else if bits ea 63 57 ≠ 0 then (s, .trap (simpleTrap 0x0B))
  else
    let core := waveCore t.wave
    let hit := inRange (threadReq s t 1 false) (ea.toNat / 128 * 128) f.cnt.val
    let closes := (lines s core .l1 ++ lines s core .tile).any fun l => l.spec == some t && hit l
    let s1 := if closes then endRegion s t else s
    let s2 := writeBack (writeBack s1 core .l1 hit) core .tile hit
    let r := (pendStore s2 t 4 false, Lane.done)
    if closes then begun t r else r

def execWb (f : MForm) (s : State) : Out :=
  .next (issue (.wb f) .normal (fun s g _ ts => eachLane g (wbLane f) s ts) s)

def execInv (f : MForm) (s : State) : Out :=
  .next (issue (.inv f) .normal (fun s g _ ts =>
    eachLane g (fun s t =>
      let ea := genericAddr s t f
      if bits ea 63 57 ≠ 0 then (s, .trap (simpleTrap 0x0B))
      else
        let core := waveCore t.wave
        let hit := inRange (threadReq s t 0 false) (ea.toNat / 128 * 128) f.cnt.val
        (invalidate (invalidate s core .l1 hit) core .tile hit, .done)) s ts) s)

end Sys2Proof.Machine
end

