-- ==== Sys2Proof/Machine/Atomics.lean ====
section
/-! DEFINITION. Atomics and reductions: opcodes 0x80-0x87 (R360-R367). -/

namespace Sys2Proof.Machine

/-- One operation at a line's home bank by a thread whose region has ended and whose release, if any, is complete (R81,
R89, R361): the update in one step, then the acquire. Answers the line before the update. -/
def homeUpd (s : State) (t : TRef) (f : MForm) (line : Nat) (upd : BitVec 1024 → BitVec 128 × BitVec 1024)
    (rel : Option RelTag) : State × Except Stop (BitVec 1024) :=
  let acq := isAcquire f.ord
  let k := raceKind s t true true (if acq then some f.scp else none) rel.isSome
  match bankUpdate s (threadReq s t 2 false) t k f.ret line upd rel with
  | (s1, .error m) => (s1, .error (.miss m))
  | (s1, .ok (v, was)) => (if acq then doAcquire s1 t f.scp was else s1, .ok v)

/-- The same with its release before it (R80, R82). -/
def homeOp (s : State) (t : TRef) (f : MForm) (line : Nat) (upd : BitVec 1024 → BitVec 128 × BitVec 1024) :
    State × Except Stop (BitVec 1024) :=
  match (if isRelease f.ord then doRelease s t f.scp else (s, .ok none)) with
  | (s1, .error x) => (s1, .error x)
  | (s1, .ok rel) => homeUpd s1 t f line upd rel

/-- Operand bytes of an atomic: `n` registers of DAT from the i-th. -/
def datVal (s : State) (t : TRef) (f : MForm) (i n : Nat) : Nat :=
  ofWords (((srcRegs s t (Uses.datSrc f 1).s (i + n)).drop i))

def atomSize (f : MForm) : Nat := if f.h.typ.is64 then 8 else 4

/-- A returning atomic leaves the old value to its DAT registers as a load does (R38, R361). -/
def returnOld (s : State) (t : TRef) (f : MForm) (v : Nat) : State × Lane :=
  let n := f.h.typ.regs
  let regs := ((List.range n).zip (toWords n v)).map fun e => (f.dat.num.toNat + e.1, e.2)
  begun t (pendLoad (claimRegs s t false (regs.map Prod.fst)) t 4 0 false regs, .done)

/-- A returning operation on virtual memory; `upd` maps the memory value to the new one. -/
def returning (f : MForm) (upd : State → TRef → Nat → Nat) (s : State) (t : TRef) : State × Lane :=
  let ea := genericAddr s t f
  let n := atomSize f
  match genericTrap ea n with
  | some x => (s, .trap x)
  | none =>
    if counterFull (s.thread t).ld then (s, .stay (.counterRoom 0))
    else
      let o := ea.toNat % 128
      match homeOp (endRegion s t) t f (ea.toNat / 128 * 128) fun v =>
        (byteMask o n, linePut o (upd s t (lineGet v o n))) with
      | (s1, .error x) => stopLane s1 t x
      | (s1, .ok v) => returnOld s1 t f (lineGet v o n)

def atomUpd (f : MForm) (s : State) (t : TRef) (m : Nat) : Nat := bankOp f.xf f.h.typ m (datVal s t f 0 f.h.typ.regs)

/-- R362: bitwise compare and swap. -/
def casUpd (f : MForm) (s : State) (t : TRef) (m : Nat) : Nat :=
  let n := f.h.typ.regs
  if m = datVal s t f 0 n then datVal s t f n n else m

/-- R361, R362: a returning global atomic raises trap 0x16 in deterministic mode. -/
def globalReturning (f : MForm) (upd : State → TRef → Nat → Nat) (s : State) (g : Issue) (b : Block) (ts : List TRef) : State :=
  if b.deterministic then ts.foldl (fun s t => trapAt s t (detTrap (s.thread t).pc 0)) s
  else eachLane g (returning f upd) s ts

def execAtom (f : MForm) (s : State) : Out := .next (issue (.atom f) .normal (sampled 2 (bankPlace (atomSize f) f) (globalReturning f (atomUpd f))) s)
def execCas (f : MForm) (s : State) : Out := .next (issue (.cas f) .normal (sampled 2 (bankPlace (atomSize f) f) (globalReturning f (casUpd f))) s)

/-- R363: the same on scratch, in the owning core's local memory. -/
def localReturning (b : Block) (f : MForm) (upd : State → TRef → Nat → Nat) (s : State) (t : TRef) : State × Lane :=
  let n := atomSize f
  match localCheck s b (localAddr s t f) n n with
  | .error x => (s, .trap x)
  | .ok p =>
    if counterFull (s.thread t).ld then (s, .stay (.counterRoom 0))
    else
      let s1 := endRegion s t
      let (s2, rel) := if isRelease f.ord then doRelease s1 t f.scp else (s1, .ok none)
      match rel with
      | .error x => stopLane s2 t x
      | .ok _ =>
        let m := placeRead s2 t p n
        match placeWrite s2 t p (toBytes n (upd s t m)) with
        | (s3, some x) => (s3, .trap x)
        | (s3, none) =>
          returnOld (if isAcquire f.ord then scratchAcquire s3 t f.scp else s3) t f m

def execAtoml (f : MForm) (s : State) : Out :=
  .next (issue (.atoml f) .normal (sampled 2 (localSample f) fun s g b ts => eachLane g (localReturning b f (atomUpd f)) s ts) s)
def execCasl (f : MForm) (s : State) : Out :=
  .next (issue (.casl f) .normal (sampled 2 (localSample f) fun s g b ts => eachLane g (localReturning b f (casUpd f)) s ts) s)

/-! ### Reductions -/

/-- A reduction's operand errors at issue. -/
def redTrap (align : Nat) (f : MForm) (s : State) (t : TRef) : Option Trap := genericTrap (genericAddr s t f) align

/-- R366: an issue enters the block's buffer, one entry for each thread, or raises trap 0x16 when it would overfill it. -/
def bufferAll (f : MForm) (trap : State → TRef → Option Trap) (vals : State → TRef → List (Nat × BitVec 64) × Nat)
    (s : State) (g : Issue) (b : Block) (ts : List TRef) : State :=
  let good := (ts.filter fun t => (trap s t).isNone && !counterFull (s.thread t).st).length
  let spills : Bool := 512 < b.detBuf.length + good
  eachLane g (fun s t =>
    match trap s t with
    | some x => (s, .trap x)
    | none =>
      if counterFull (s.thread t).st then (s, .stay (.counterRoom 1))
      else if spills then (s, .trap (detTrap g.pc 2))
      else
        let (v, lines) := vals s t
        let (n, s1) := (endRegion s t).tickSeq
        let e : BufAtomic :=
          { t := t, order := n, pc := g.pc, va := genericAddr s t f, op := f.xf, ty := f.h.typ, ord := f.ord, scp := f.scp
            vals := v, lines := lines, ret := f.ret, fate := none }
        begun t (pendStore (s1.modBlock b.id fun x => { x with detBuf := x.detBuf ++ [e] }) t 6 true, .done)) s ts

def redLane (f : MForm) (s : State) (t : TRef) : State × Lane :=
  let ea := genericAddr s t f
  let n := atomSize f
  match redTrap n f s t with
  | some x => (s, .trap x)
  | none =>
    if counterFull (s.thread t).st then (s, .stay (.counterRoom 1))
    else
      let o := ea.toNat % 128
      match homeOp (endRegion s t) t f (ea.toNat / 128 * 128) fun v =>
        (byteMask o n, linePut o (atomUpd f s t (lineGet v o n))) with
      | (s1, .error x) => stopLane s1 t x
      | (s1, .ok _) => begun t (pendStore s1 t 6 false, .done)

def execRed (f : MForm) (s : State) : Out :=
  .next (issue (.red f) .normal (sampled 2 (bankPlace (atomSize f) f) fun s g b ts =>
    if b.deterministic then
      bufferAll f (redTrap (atomSize f) f) (fun s t => ([(0, q (datVal s t f 0 f.h.typ.regs))], 0)) s g b ts
    else eachLane g (redLane f) s ts) s)

/-- Line count of a `bupd`: the register after the operand (R364). -/
def bupdCount (f : MForm) (s : State) (t : TRef) : Nat := datVal s t f f.h.typ.regs 1

def bupdTrap (i : Instr) (f : MForm) (s : State) (t : TRef) : Option Trap :=
  match redTrap 128 f s t with
  | some x => some x
  | none => if 1 ≤ bupdCount f s t ∧ bupdCount f s t ≤ 65536 then none else some (illegal i)

/-- The lines of a `bupd` from the first that is not performed; a fault leaves the earlier lines performed, and the
thread executes the instruction again for the rest (R364). The count of lines left falls with each line. -/
def bupdLines (f : MForm) (a : Nat) (t : TRef) (rel : Option RelTag) : Nat → Nat → State → State × Except Stop Unit
  | 0, _, s => (s, .ok ())
  | n + 1, line, s =>
    if 2 ^ 57 ≤ line then (s, .error (.trap (simpleTrap 0x0B)))
    else
    match homeUpd s t f line (fun v => lineOp f.xf f.h.typ v (wholeLine f.h.typ a)) rel with
    | (s1, .error x) => (s1, .error x)
    | (s1, .ok _) =>
      let pc := (s1.thread t).pc
      let count (x : Thread) : Thread := { x with bupdAt := some (pc, (match x.bupdAt with | some p => p.2 | none => 0) + 1) }
      bupdLines f a t rel n (line + 128) (s1.modThread t count)

def bupdLane (f : MForm) (s : State) (t : TRef) : State × Lane :=
  match bupdTrap (.bupd f) f s t with
  | some x => (s, .trap x)
  | none =>
    if counterFull (s.thread t).st then (s, .stay (.counterRoom 1))
    else
      let pc := (s.thread t).pc
      let past := match (s.thread t).bupdAt with | some p => if p.1 = pc then p.2 else 0 | none => 0
      let s1 := (endRegion s t).modThread t fun x => { x with bupdAt := some (pc, past) }
      let (s2, rel) := if isRelease f.ord then doRelease s1 t f.scp else (s1, .ok none)
      match rel with
      | .error x => stopLane s2 t x
      | .ok tag =>
        let first := (genericAddr s t f).toNat + 128 * past
        match bupdLines f (datVal s t f 0 f.h.typ.regs) t tag (bupdCount f s t - past) first s2 with
        | (s3, .error x) => stopLane s3 t x
        | (s3, .ok _) => begun t (pendStore (s3.modThread t fun x => { x with bupdAt := none }) t 6 false, .done)

def execBupd (f : MForm) (s : State) : Out :=
  .next (issue (.bupd f) .normal (sampled 2 (bankPlace 128 f) fun s g b ts =>
    if b.deterministic then
      bufferAll f (bupdTrap (.bupd f) f) (fun s t => ([(0, q (datVal s t f 0 f.h.typ.regs))], bupdCount f s t)) s g b ts
    else eachLane g (bupdLane f) s ts) s)

/-- The element of the line that a lane combines into (R365). -/
def bredOffset (f : MForm) (lane : Nat) : Nat := if f.h.typ.is64 then 8 * (lane % 16) else 4 * lane

/-- One operation for the whole group: every executing thread's region ends, the lowest lane makes the access. -/
def bredGroup (f : MForm) (s : State) (g : Issue) (ts : List TRef) : State :=
  match ts with
  | [] => s
  | t0 :: _ =>
    match redTrap 128 f s t0 with
    | some x => ts.foldl (fun s t => trapAt s t x) s
    | none =>
      if ts.any fun t => counterFull (s.thread t).st then ts.foldl (fun s t => setWait s t (.counterRoom 1)) s
      else
        let vals := ts.map fun t => (bredOffset f t.lane, datVal s t f 0 f.h.typ.regs)
        let s1 := ts.foldl endRegion s
        match homeOp s1 t0 f (genericAddr s t0 f).toNat fun v => lineOp f.xf f.h.typ v vals with
        | (s2, .error x) => eachLane g (fun s t => stopLane s t x) s2 ts
        | (s2, .ok _) => eachLane g (fun s t => begun t (pendStore s t 6 false, .done)) s2 ts

def execBred (f : MForm) (s : State) : Out :=
  .next (issue (.bred f) .normal (sampled 2 (bankPlace 128 f) fun s g b ts =>
    if b.deterministic then
      bufferAll f (redTrap 128 f) (fun s t => ([(bredOffset f t.lane, q (datVal s t f 0 f.h.typ.regs))], 0)) s g b ts
    else bredGroup f s g ts) s)

/-- R367: a wait for the thread's own reductions, or the block's flush collective. -/
def execAflush (f : RForm) (s : State) : Out :=
  .next (issue (.aflush f) .normal (fun s g b ts =>
    if b.deterministic then
      settle (eachLane g (fun s t => (endRegion s t, .stay .aflush)) s ts) b.id
    else
      eachLane g (fun s t =>
        let s1 := endRegion s t
        if s.stores.any fun p => p.t == t && p.tracker == 6 && !p.fin then (s1, .stay .recheck)
        else begun t (s1, .done)) s ts) s)

end Sys2Proof.Machine
end

