-- ==== Sys2Proof/Machine/Copy.lean ====
section
/-! DEFINITION. The copy engines: the copy-request record and its checks (R382, R383), and the run of a request piece by
piece to its retirement (R96, R385). -/

namespace Sys2Proof.Machine

/-! ### The record (R382) -/

def recNat (x : BitVec 512) (off n : Nat) : Nat := bits x (8 * (off + n) - 1) (8 * off)

def CopyReq.op (r : CopyReq) : Nat := recNat r.raw 0x00 1
def CopyReq.ordered (r : CopyReq) : Bool := r.raw.getLsbD 15
def CopyReq.bytes (r : CopyReq) : Nat := recNat r.raw 0x04 4
def CopyReq.src (r : CopyReq) : BitVec 64 := q (recNat r.raw 0x08 8)
def CopyReq.dst (r : CopyReq) : BitVec 64 := q (recNat r.raw 0x10 8)
def CopyReq.rows (r : CopyReq) : Nat := recNat r.raw 0x18 4
def CopyReq.srcStride (r : CopyReq) : Nat := recNat r.raw 0x1C 4
def CopyReq.dstStride (r : CopyReq) : Nat := recNat r.raw 0x20 4
def CopyReq.barrier (r : CopyReq) : Word := d (recNat r.raw 0x24 4)
def CopyReq.mask (r : CopyReq) : Nat := recNat r.raw 0x28 2
def CopyReq.fillValue (r : CopyReq) : Nat := recNat r.raw 0x2C 4
def CopyReq.index (r : CopyReq) : Nat := recNat r.raw 0x30 8

/-- The retention hint of the flags byte (R71). -/
def CopyReq.ret (r : CopyReq) : Ret := match bits r.raw 9 8 with | 0 => .short | 1 => .default | 2 => .long | _ => .bypass

def CopyReq.rowOp (r : CopyReq) : Bool := 1 ≤ r.op && r.op ≤ 3
/-- Bytes in all: those of its rows, or its own. -/
def CopyReq.total (r : CopyReq) : Nat := if r.rowOp then r.rows * r.bytes else r.bytes

/-- The request of an engine access (R106, R481). -/
def CopyReq.req (r : CopyReq) : Req :=
  { t := none, core := 0xFFFF, part := r.part, asid := r.asid, agen := r.agen, access := 5, aborts := false
    waiter := some (.copy r.ctx r.seq), gen := r.genItem }

def isLocalAddr (a : BitVec 64) : Bool := a.getLsbD 63

/-! ### Blocks, resident or saved (R98) -/

def imageBlock? (s : State) (p : Block → Bool) : Option Block := (s.images.flatMap (·.blocks)).find? p

/-- A block of the kicking coordinate, in some stage's cluster. -/
def stageBlock? (s : State) (r : CopyReq) (stage bid : Nat) : Option Block :=
  let p (x : Block) : Bool := x.launch == r.launch && x.gen == r.gen && x.coord == r.coord && x.stage == stage && x.bid == bid
    && (!r.gen || x.id == r.block)
  match s.blocks.find? p with
  | some b => some b
  | none => imageBlock? s p

/-- A block of the kicking cluster. -/
def clusterBlock? (s : State) (r : CopyReq) (bid : Nat) : Option Block := stageBlock? s r r.stage bid

/-- The block that a local address of a record names, with the first and the last offset it may reach there: of the next
stage's block only the incoming channel (R57, R382). -/
def localHome (s : State) (r : CopyReq) (a : Word) : Option (Block × Nat × Nat) :=
  if bits a 31 25 ≠ 0 then none
  else
    let nxt := bits a 24 24
    (stageBlock? s r (r.stage + nxt) (bits a 23 20)).map fun b =>
      (b, if nxt = 0 then 0 else b.scratchBytes, b.scratchBytes + b.chanBytes)

def imageScratch (i : Image) (id : Nat) : Memory := ((i.scratch.find? fun e => e.1 == id).map Prod.snd).getD []

/-- Bytes of a block's footprint, in local memory or in its image. -/
def homeRead (s : State) (b : Block) (off n : Nat) : List Byte :=
  if (s.block? b.id).isSome then toBytes n (scratchRead s b.core (b.scratchOff + off) n)
  else
    match s.images.find? fun i => i.blocks.any fun x => x.id == b.id with
    | none => List.replicate n 0
    | some i =>
      let m := imageScratch i b.id
      (List.range n).map fun j => Table.get 0 m (off + j)

def homeWrite (s : State) (b : Block) (off : Nat) (bs : List Byte) : State :=
  if (s.block? b.id).isSome then wakeBarriers (scratchWrite s b.core (b.scratchOff + off) bs) b.id
  else
    let put (e : Nat × Memory) : Nat × Memory := if e.1 = b.id then (e.1, scratchPut e.2 off bs) else e
    let all (i : Image) : List (Nat × Memory) :=
      if i.scratch.any (fun e => e.1 == b.id) then i.scratch else (b.id, []) :: i.scratch
    let images := mapIf (fun i : Image => i.blocks.any fun x => x.id == b.id)
      (fun i => { i with scratch := (all i).map put }) s.images
    { s with images := images }

def homeBarrier (s : State) (b : Block) (off n : Nat) : State :=
  if (s.block? b.id).isSome then barrierSub s b off n
  else
    let w (o : Nat) : Nat := ofBytes (homeRead s b (off + o) 4)
    let (rem, phase) := barrierNext (w 0) (d (w 4)) n
    homeWrite s b off (toBytes 4 rem ++ toBytes 4 phase.toNat)

def modHome (s : State) (id : Nat) (f : Block → Block) : State :=
  let s1 := s.modBlock id f
  { s1 with images := s1.images.map fun i => { i with blocks := mapIf (·.id == id) f i.blocks } }

/-! ### Checks at the kick (R382, R383) -/

/-- The FIFO a FIFO id names: the holding block and the index, if that block holds it, initialised and no channel. -/
def recFifo (s : State) (r : CopyReq) (id : BitVec 64) : Option (Block × Nat × Fifo) :=
  if bits id 63 9 ≠ 0 then none
  else
    match clusterBlock? s r (bits id 8 5) with
    | none => none
    | some b =>
      if b.nfifo ≤ bits id 4 0 then none
      else
        match b.fifos.find? (bits id 4 0) with
        | some f => if f.count = 0 ∨ f.chan then none else some (b, bits id 4 0, f)
        | none => none

/-- The fate of `n` bytes from an address field, with `span` bytes from the first to the last row's start. -/
def rangeFate (s : State) (r : CopyReq) (a : BitVec 64) (span n : Nat) : Option (BitVec 8) :=
  if isLocalAddr a then
    if bits a 62 32 ≠ 0 then some 0x01
    else
      match localHome s r (lo32 a) with
      | none => some 0x15
      | some (_, lo, hi) => if lo ≤ bits a 19 0 ∧ bits a 19 0 + span + n ≤ hi then none else some 0x15
  else if bits a 62 57 ≠ 0 ∨ 2 ^ 57 < a.toNat + span + n then some 0x0B
  else none

/-- Context allocation of a partition (R371, R507). -/
def ctxAllowed (s : State) (part ctx : Nat) : Bool :=
  (s.part part).ctxbase ≤ ctx && ctx < (s.part part).ctxbase + (s.part part).ctxcnt

/-- The context a record names, or its fate; `sel` is the wave's selected context. -/
def recCtx (s : State) (part : Nat) (sel : Option Nat) (x : BitVec 512) : Except (BitVec 8) Nat :=
  let c := recNat x 0x02 2
  if c = 0xFFFF then
    match sel with
    | none => .error 0x01
    | some n => if ctxAllowed s part n then .ok n else .error 0x0B
  else if 1024 ≤ c then .error 0x01
  else if ctxAllowed s part c then .ok c
  else .error 0x0B

/-- A failing check when its condition holds. -/
def bad (c : Bool) (code : BitVec 8) : Option (BitVec 8) := if c then some code else none

/-- The first failing field of a record, by its offset, with the trap it raises. -/
def recCheck (s : State) (r : CopyReq) : Option (Nat × BitVec 8) :=
  let op := r.op
  let rowed := r.rowOp
  let indexed := op == 2 || op == 3
  let fifo := if op = 6 then recFifo s r r.dst else if op = 7 then recFifo s r r.src else none
  let whole : Bool := match fifo with | some (_, _, f) => r.bytes % f.slotBytes == 0 | none => true
  let last := r.rows - 1
  let blocks := (List.range 16).filter fun i => r.mask.testBit i
  let wait := r.barrier
  let checks : List (Nat × Option (BitVec 8)) :=
    [ (0x00, bad (8 ≤ op) 0x01)
    , (0x01, bad (6 ≤ bits r.raw 12 10 || bits r.raw 14 13 != 0) 0x01)
    , (0x04, if r.bytes = 0 then (if op = 0 ∨ op = 4 then none else if op ≥ 6 then some 0x07 else some 0x01)
             else bad (!whole) 0x07)
    , (0x08, match op with
        | 4 => bad (r.src != 0) 0x01
        | 7 => bad (match fifo with | some (_, _, f) => f.mxc || f.eng | none => true) 0x07
        | 2 => rangeFate s r r.src 0 0
        | _ => rangeFate s r r.src (if rowed then last * r.srcStride else 0) r.bytes)
    , (0x10, match op with
        | 6 => bad (match fifo with | some (_, _, f) => !f.eng | none => true) 0x07
        | 3 => rangeFate s r r.dst 0 0
        | 5 =>
          if !isLocalAddr r.dst ∨ bits r.dst 62 32 ≠ 0 then some 0x01
          else if bits r.dst 31 25 ≠ 0 ∨ (r.dst.getLsbD 24 ∧ (stageBlock? s r (r.stage + 1) r.bid).isNone) then some 0x15
          else bad (blocks.any fun i => match clusterBlock? s r i with
            | some b => b.scratchBytes + b.chanBytes < bits r.dst 19 0 + r.bytes
            | none => false) 0x15
        | _ => rangeFate s r r.dst (if rowed then last * r.dstStride else 0) r.bytes)
    , (0x18, bad (if rowed then r.rows == 0 else r.rows != 0) 0x01)
    , (0x1C, bad (!rowed && r.srcStride != 0) 0x01)
    , (0x20, bad (!rowed && r.dstStride != 0) 0x01)
    , (0x24, if wait = 0 then none
             else
               let within : Bool := match localHome s r wait with
                 | some (_, lo, hi) => lo ≤ bits wait 19 0 && bits wait 19 0 + 16 ≤ hi
                 | none => false
               let misses (i : Nat) : Bool := match clusterBlock? s r i with
                 | some b => b.scratchBytes + b.chanBytes < bits wait 19 0 + 16
                 | none => false
               if !within ∨ (op = 5 ∧ blocks.any misses) then some 0x15
               else bad (wait.toNat % 16 != 0) 0x12)
    , (0x28, if op = 5 then bad (r.mask == 0 || blocks.any fun i => (clusterBlock? s r i).isNone) 0x15
             else bad (r.mask != 0) 0x01)
    , (0x2A, bad (recNat r.raw 0x2A 2 != 0) 0x01)
    , (0x2C, bad (op != 4 && r.fillValue != 0) 0x01)
    , (0x30, if indexed then
               (if r.index % 4 ≠ 0 then some 0x12 else bad (2 ^ 57 < r.index + 4 * r.rows) 0x0B)
             else bad (r.index != 0) 0x01)
    , (0x38, bad (recNat r.raw 0x38 8 != 0) 0x01) ]
  (checks.filterMap fun e => e.2.map fun c => (e.1, c)).head?

/-! ### Retirement (R96, R385, R386) -/

def modReq (s : State) (ctx seq : Nat) (f : CopyReq → CopyReq) : State :=
  s.modCtx ctx fun c => { c with reqs := mapIf (fun r => r.seq == seq && !r.retired) f c.reqs }

/-- Every request the table holds. -/
def allReqs (s : State) : List CopyReq := s.ctxs.flatMap fun e => e.2.reqs

/-- A retired request is counted out. -/
def fallCp (x : Thread) : Thread := if 0 < x.staleCp then { x with staleCp := x.staleCp - 1 } else { x with cp := x.cp - 1 }

/-- Change a thread of a block that is resident or saved. -/
def modHomeThread (s : State) (block : Nat) (t : TRef) (f : Thread → Thread) : State :=
  if s.bound t ∧ (s.wave t.wave).block = block then s.modThread t f
  else
    let wave (w : Wave) : Wave := { w with threads := w.threads.modify t.lane f }
    let mine (i : Image) : Bool := i.blocks.any fun b => b.id == block
    { s with images := mapIf mine (fun i =>
        { i with waves := i.waves.map fun e => if e.1 = t.wave then (e.1, wave e.2) else e }) s.images }

/-- CP falls in issue order (R38): retired requests leave once every earlier one of the thread has retired. -/
def settleCp (s : State) (t : TRef) (block : Nat) : State :=
  let mine := sortBy (fun r => r.order) ((allReqs s).filter fun r => r.t == t && r.block == block)
  let out := mine.takeWhile fun r => r.retired
  let orders := out.map fun r => r.order
  let s1 := { s with ctxs := s.ctxs.map fun e =>
    (e.1, { e.2 with reqs := e.2.reqs.filter fun r => !(r.t == t && orders.contains r.order) }) }
  out.foldl (fun s _ => modHomeThread s block t fallCp) s1

/-- The physical core of a record that names a request's thread: none while its block is saved (R480). -/
def CopyReq.homeCore (r : CopyReq) : Nat := if waveCore r.t.wave < 400 then waveCore r.t.wave else 0xFFFF

/-- The kind-5 record of a request that retired with an error (R481). -/
def copyRecord (s : State) (r : CopyReq) (e : BitVec 8 × BitVec 64 × BitVec 64) : BitVec 512 :=
  let fl := (if r.flags.getLsbD 1 then 2 else 0) + (if r.flags.getLsbD 2 then 8 else 0)
  record (header s 5 fl (if r.gen then 0xFFFF else r.launch) r.asid r.homeCore
      (packLogical r.coord r.bid r.thread r.stage) ++
    [q (r.ctx + 2 ^ 16 * r.op + 2 ^ 24 * e.1.toNat), q r.seq, e.2.1, BitVec.zeroExtend 64 r.recAddr, e.2.2])

/-- Retire finished requests of a context in sequence order: the counter reaches each one's number; an error sets bit
63 and sends its record. -/
def retireCtx (s : State) (ctx : Nat) : Nat → State
  | 0 => s
  | n + 1 =>
    match (s.ctx ctx).reqs.find? fun r => !r.retired with
    | none => s
    | some r =>
      if !r.fin then s
      else
        let s1 := match r.error with
          | some e => postFault s r.part (copyRecord s r e)
          | none => s
        let s2 := moveTimeline s1 ctx r.seq r.error.isSome
        let s3 := modReq s2 ctx r.seq fun x => { x with retired := true }
        retireCtx (settleCp s3 r.t r.block) ctx n

/-! ### The run of a request -/

/-- Count a request's barrier down, in each receiving block of a multicast (R96, R383). -/
def countDown (s : State) (r : CopyReq) (n : Nat) : State :=
  let s1 := modReq s r.ctx r.seq fun x => { x with counted := x.counted + n }
  if r.barrier = 0 then s1
  else
    let homes := if r.op = 5 then ((List.range 16).filter (fun i => r.mask.testBit i)).filterMap (clusterBlock? s r)
      else ((localHome s r r.barrier).map Prod.fst).toList
    homes.foldl (fun s b => homeBarrier s b (bits r.barrier 19 0) n) s1

/-- Every byte is performed or given up: the barrier takes what was never counted (R385). -/
def finishReq (s : State) (r : CopyReq) : State :=
  let s1 := countDown s r (r.total - r.counted)
  modReq s1 r.ctx r.seq fun x => { x with fin := true }

/-- An access of a request: the state it leaves, and its value or its fate with the failing address. -/
abbrev Acc (α : Type) := State × Except (Miss × BitVec 64) α

def Acc.bind {α β : Type} (r : Acc α) (f : State → α → Acc β) : Acc β :=
  match r.2 with
  | .ok a => f r.1 a
  | .error e => (r.1, .error e)

def Acc.ok {α : Type} (s : State) (a : α) : Acc α := (s, .ok a)
def Acc.of {α : Type} (va : BitVec 64) (r : Mem α) : Acc α :=
  match r with
  | (s, .ok a) => (s, .ok a)
  | (s, .error m) => (s, .error (m, va))

/-- Bytes read from an address field's form, at a byte distance; address arithmetic is modulo 2^64 (R383). -/
def copyRead (s : State) (r : CopyReq) (a : BitVec 64) (dist n : Nat) : Acc (List Byte) :=
  let x := a + q dist
  if isLocalAddr a then
    match localHome s r (lo32 x) with
    | some (b, _, _) => Acc.ok s (homeRead s b (bits x 19 0) n)
    | none => Acc.ok s (List.replicate n 0)
  else Acc.of x (readHinted r.ret s r.req x.toNat n)

/-- Bytes just written behind a peer's aperture reach their owning agent before they count as performed (R96). -/
def sendPeers (s : State) (r : CopyReq) (va n : Nat) : Mem Unit :=
  let mine (s : State) : List CsmLine := s.csm.filter fun l =>
    l.dirty != 0 && l.asid == r.asid && l.agen == r.agen && rangesMeet va n l.va 128 && peerLine s l
  let s1 := (mine s).foldl (fun s l => (writeLineBack s l).1) s
  if mine s1 = [] then .ok s1 () else .fail s1 .peer

def copyWrite (s : State) (r : CopyReq) (a : BitVec 64) (dist : Nat) (bs : List Byte) : Acc Unit :=
  let x := a + q dist
  if isLocalAddr a then
    match localHome s r (lo32 x) with
    | some (b, _, _) => Acc.ok (homeWrite s b (bits x 19 0) bs) ()
    | none => Acc.ok s ()
  else Acc.of x (Mem.bind (writeHinted r.ret s r.req x.toNat bs) fun s _ => sendPeers s r x.toNat bs.length)

/-- The distance of row `row` from an address field: its index's, or its own, times the stride. -/
def rowDist (s : State) (r : CopyReq) (indexed : Bool) (stride row : Nat) : Acc Nat :=
  if indexed then Acc.bind (Acc.of (q (r.index + 4 * row)) (readVal s r.req (r.index + 4 * row) 4)) fun s i => Acc.ok s (i * stride)
  else Acc.ok s (row * stride)

/-- The cause of an index-formed row that the kick could not check (R383): the address is formed modulo 2^64. -/
def rowFate (s : State) (r : CopyReq) (a : BitVec 64) (dist : Nat) : Option (BitVec 8) :=
  let x := a + q dist
  if isLocalAddr a then
    match localHome s r (lo32 a) with
    | some (_, lo, hi) =>
      if bits x 63 20 = bits a 63 20 ∧ lo ≤ bits x 19 0 ∧ bits x 19 0 + r.bytes ≤ hi then none else some 0x15
    | none => some 0x15
  else if 2 ^ 57 < x.toNat + r.bytes then some 0x0B
  else none

/-- Bytes of a segment, whose bytes count as performed together (R518). -/
def segmentBytes : Nat := 4096

/-- A piece lies within one 128-byte line of the destination, and in one segment of the request. -/
def pieceLen (addr pos left : Nat) : Nat := min left (min (128 - addr % 128) (segmentBytes - pos % segmentBytes))

/-- One piece of a row op: the bytes moved, 0 for a row left out with its cause. -/
def rowPiece (s : State) (r : CopyReq) : Acc (Nat × Option (BitVec 8 × BitVec 64)) :=
  let row := r.pos / r.bytes
  let off := r.pos % r.bytes
  Acc.bind (rowDist s r (r.op == 2) r.srcStride row) fun s sd =>
    Acc.bind (rowDist s r (r.op == 3) r.dstStride row) fun s dd =>
      match (if r.op = 2 then rowFate s r r.src sd else none), (if r.op = 3 then rowFate s r r.dst dd else none) with
      | some c, _ => Acc.ok s (0, some (c, r.src + q sd))
      | _, some c => Acc.ok s (0, some (c, r.dst + q dd))
      | none, none =>
        let n := pieceLen (r.dst + q (dd + off)).toNat r.pos (r.bytes - off)
        Acc.bind (copyRead s r r.src (sd + off) n) fun s bs =>
          Acc.bind (copyWrite s r r.dst (dd + off) bs) fun s _ => Acc.ok s (n, none)

/-- The repeated pattern of a fill, from byte `pos`. -/
def fillBytes (v pos n : Nat) : List Byte := (List.range n).map fun i => BitVec.ofNat 8 (v / 256 ^ ((pos + i) % 4))

/-- One piece of a copy, a fill or a multicast. -/
def flatPiece (s : State) (r : CopyReq) : Acc Nat :=
  let n := pieceLen (r.dst.toNat + r.pos) r.pos (r.bytes - r.pos)
  match r.op with
  | 4 => Acc.bind (copyWrite s r r.dst r.pos (fillBytes r.fillValue r.pos n)) fun s _ => Acc.ok s n
  | 5 =>
    Acc.bind (copyRead s r r.src r.pos n) fun s bs =>
      Acc.ok (((List.range 16).filter fun i => r.mask.testBit i).foldl (fun s i => match clusterBlock? s r i with
        | some b => homeWrite s b (bits r.dst 19 0 + r.pos) bs
        | none => s) s) n
  | _ => Acc.bind (copyRead s r r.src r.pos n) fun s bs => Acc.bind (copyWrite s r r.dst r.pos bs) fun s _ => Acc.ok s n

/-- The FIFO of a to-FIFO or from-FIFO request as it stands. -/
def reqFifo (s : State) (r : CopyReq) : Option (Block × Nat × Fifo) := recFifo s r (if r.op = 6 then r.dst else r.src)

/-- `n` unspecified bytes (R385). -/
def freshBytes (s : State) : Nat → State × List Byte
  | 0 => (s, [])
  | n + 1 =>
    let (v, s1) := s.fresh
    let (s2, rest) := freshBytes s1 n
    (s2, v.extractLsb' 0 8 :: rest)

def setHomeFifo (s : State) (b : Block) (i : Nat) (f : Fifo) : State :=
  modHome s b.id fun x => { x with fifos := x.fifos.put i f }

/-- One slot of a FIFO request: reserved, filled and counted, or popped, written and released (R383). After an error the
slots of a to-FIFO request are counted with unspecified contents. -/
def slotPiece (s : State) (r : CopyReq) (b : Block) (i : Nat) (f : Fifo) : Acc Nat :=
  let n := f.slotBytes
  if r.op = 6 then
    Acc.bind (if r.dead then let (s1, bs) := freshBytes s n; Acc.ok s1 bs else copyRead s r r.src r.pos n) fun s bs =>
      let slot := f.tail
      let s1 := homeWrite s b (f.base + n * slot) bs
      Acc.ok (setHomeFifo s1 b i ((f.reserve none).commit slot)) n
  else
    Acc.bind (copyWrite s r r.dst r.pos (homeRead s b (f.base + n * f.head) n)) fun s _ =>
      Acc.ok (setHomeFifo s b i (f.pop.release f.head)) n

/-- Whether a started request can go on now. -/
def canMove (s : State) (r : CopyReq) : Bool :=
  r.started && !r.fin && !r.retired && (match r.parked with
    | none | some (.fillFull _ _) | some (.evicting _ _) | some (.peer _) => true
    | _ => false)
  && (match r.op with
    | 6 => (match reqFifo s r with | some (_, _, f) => 0 < f.free | none => true)
    | 7 => r.dead || (match reqFifo s r with | some (b, i, f) => drainKeeps false s b.id i < f.filled | none => true)
    | _ => true)

/-- A request's error: of two, the first stands, which is that of the first failing row (R383). -/
def CopyReq.failed (r : CopyReq) (code : BitVec 8) (va pc : BitVec 64) : CopyReq :=
  { r with error := r.error.orElse fun _ => some (code, va, pc), dead := true, parked := none }

/-- A request meets the fate of an access (R106, R385, R506, R520). -/
def copyMeet (s : State) (r : CopyReq) (m : Miss) (at? : BitVec 64) : State :=
  let park (w : Wait) : State := modReq s r.ctx r.seq fun x => { x with parked := some w }
  let stop (s : State) (c : BitVec 8) (va : BitVec 64) : State := modReq s r.ctx r.seq fun x => x.failed c va 0
  match m with
  | .page f => park (.page f at?)
  | .fill i b => park (.fill i b)
  | .fillFull i b => park (.fillFull i b)
  | .evicting i b => park (.evicting i b)
  | .csmFull => s
  | .recursion _ _ =>
    let pc := (s.thread r.t).pc
    effects (modReq s r.ctx r.seq fun x => x.failed 0x0F at? pc) [.failChain r.block pc]
  | .peer =>
    (match r.parked with
     | some (.peer since) => if since + 10000 ≤ s.tick.toNat then stop s 0x0B at? else s
     | _ => park (.peer s.tick.toNat))
  | .stale => stop s 0x0C at?
  | .aliased => stop s 0x0D at?
  | .unresolvable => stop s 0x0A at?
  | .uncorrectable va place => stop (errorRecord s r.part 2 0 va place 0 none) 0x20 (q va)
  | _ => stop s 0x0B at?

/-- A piece is done: progress, and the end of the request with its last byte. The barrier takes the bytes of a segment once
the whole of it is performed, and those of a FIFO slot with the slot (R96, R383, R518). -/
def pieceDone (s : State) (r : CopyReq) (n skipped : Nat) (e : Option (BitVec 8 × BitVec 64)) : State :=
  let s1 := modReq s r.ctx r.seq fun x =>
    { x with pos := x.pos + n + skipped, written := x.written + n, parked := none
             error := match x.error, e with | none, some (c, a) => some (c, a, 0) | old, _ => old }
  let committed : Bool := 6 ≤ r.op || r.pos / segmentBytes < (r.pos + n + skipped) / segmentBytes
  let s2 := if committed then countDown s1 r (r.written + n - r.counted) else s1
  match (s2.ctx r.ctx).reqs.find? fun x => x.seq == r.seq && !x.retired with
  | some x => if x.total ≤ x.pos then finishReq s2 x else s2
  | none => s2

/-- The next piece of a request is performed. -/
def pieceStep (s : State) (r : CopyReq) : State :=
  if r.total ≤ r.pos then finishReq s r
  else if r.op ≥ 6 then
    match reqFifo s r with
    | none => finishReq s r
    | some (b, i, f) =>
      if r.dead ∧ r.op = 7 then finishReq s r
      else
        match slotPiece s r b i f with
        | (s1, .ok n) => pieceDone s1 r n 0 none
        | (s1, .error m) => copyMeet s1 r m.1 m.2
  else if r.dead then finishReq s r
  else if r.rowOp then
    match rowPiece s r with
    | (s1, .ok (n, none)) => pieceDone s1 r n 0 none
    | (s1, .ok (_, some e)) => pieceDone s1 r 0 (r.bytes - r.pos % r.bytes) (some e)
    | (s1, .error m) => copyMeet s1 r m.1 m.2
  else
    match flatPiece s r with
    | (s1, .ok n) => pieceDone s1 r n 0 none
    | (s1, .error m) => copyMeet s1 r m.1 m.2

/-- The engine that serves a context (R518). -/
def ctxEngine (s : State) (ctx : Nat) : Nat := (s.ctx ctx).engine.getD (ctx / 64)

/-- The request a context may start next (R385): the first not started in sequence order, once everything before an ordered
one has retired. -/
def startable (s : State) (ctx : Nat) : Option CopyReq :=
  match (s.ctx ctx).reqs.find? fun r => !r.retired && !r.started && !r.fin with
  | none => none
  | some r =>
    if s.failedEngines.contains (ctxEngine s ctx) then none
    else if r.ordered && ((s.ctx ctx).reqs.takeWhile fun x => x.seq != r.seq).any fun x => !x.retired then none
    else some r

def execCopyRequestStart (ctx : Nat) (s : State) : Out :=
  .next (match startable s ctx with
    | some r => modReq s ctx r.seq fun x => { x with started := true }
    | none => s)

def execCopyPieceWritten (ctx : Nat) (s : State) : Out :=
  .next (match (s.ctx ctx).reqs.find? (canMove s) with
    | some r => if s.failedEngines.contains (ctxEngine s ctx) then s else pieceStep s r
    | none => s)

def execCopyRequestRetire (ctx : Nat) (s : State) : Out := .next (retireCtx s ctx 1)

end Sys2Proof.Machine
end

