-- ==== Sys2Proof/Machine/Sync.lean ====
section
/-! DEFINITION. Barriers, arrival objects, timelines, counters, byte barriers, messages and region boundaries: opcodes
0x90-0x9D (R367-R379). -/

namespace Sys2Proof.Machine

/-- Leave the instruction from inside its own effect, a new region beginning at the next slot. -/
def leave (s : State) (t : TRef) : State × Lane :=
  (advance (beginRegion s t (nextPc (s.thread t).pc)) t, .moved)

/-- The unit's release record of an arrival (R114). -/
def arriveRace (s : State) (t : TRef) (scope : Scope) : State := (raceRelease s (s.wave t.wave).block scope).1

/-! ### Block barriers (R368) -/

def barNumber (f : IForm) : Nat := bits f.imm 3 0
def barExpected (f : IForm) : Nat := bits f.imm 13 4

/-- An expected count above the block's bound threads. -/
def barTooMany (s : State) (b : Block) (f : IForm) : Bool := (blockThreads s b).length < barExpected f

def barrierOf (s : State) (b : Block) (n : Nat) : Barrier :=
  match s.block? b.id with
  | some x => x.barriers.get ⟨0, [], 0⟩ n
  | none => ⟨0, [], 0⟩

/-- One thread arrives; `go` says what it does then, before the phase is judged. -/
def arrive (b : Block) (f : IForm) (go : State → TRef → Word → State) (s : State) (t : TRef) : State × Lane :=
  let n := barNumber f
  let x := barrierOf s b n
  if x.arrived.contains t ∨ (x.arrived ≠ [] ∧ x.expected ≠ barExpected f) then (s, .trap (simpleTrap 0x06))
  else
    let s1 := arriveRace (endRegion s t) t .block
    let s2 := s1.modBlock b.id fun y => { y with barriers := y.barriers.put n ⟨barExpected f, x.arrived ++ [t], x.phase⟩ }
    (settleBarrier (go s2 t x.phase) b.id n, .moved)

def execBar (f : IForm) (s : State) : Out :=
  .next (issue (.bar f) .normal (fun s g b ts =>
    if barTooMany s b f then ts.foldl (fun s t => trapAt s t (illegal (.bar f))) s
    else eachLane g (arrive b f fun s t p => setWait s t (.barrier (barNumber f) p.toNat)) s ts) s)

def execBarr (f : IForm) (s : State) : Out :=
  .next (issue (.barr f) .normal (fun s g b ts =>
    if barTooMany s b f then ts.foldl (fun s t => trapAt s t (illegal (.barr f))) s
    else eachLane g (arrive b f fun s t p => (leave (setV s t f.dst.num.toNat p) t).1) s ts) s)

/-- Whether the phase of a token has completed. -/
def tokenPassed (phase token : Word) : Bool := 1 ≤ (phase - token).toNat && (phase - token).toNat < 2 ^ 31

def execBarw (f : IForm) (s : State) : Out :=
  .next (issue (.barw f) .normal (fun s g b ts =>
    if barTooMany s b f then ts.foldl (fun s t => trapAt s t (illegal (.barw f))) s
    else
      eachLane g (fun s t =>
        if tokenPassed (barrierOf s b (barNumber f)).phase (srcWord s t f.a) then (edgeAcquire s t .block, .done)
        else (s, .stay .recheck)) s ts) s)

/-! ### Cluster and grid barriers (R369) -/

/-- An arrival: the region ends, the release at the barrier's scope, the wait. -/
def arriveWide (scope : Scope) (w : Wait) (s : State) (t : TRef) : State × Lane :=
  match doRelease (endRegion s t) t scope with
  | (s1, .error x) => stopLane s1 t x
  | (s1, .ok _) => (s1, .stay w)

def execCbar (f : IForm) (s : State) : Out :=
  .next (issue (.cbar f) .normal (fun s g b ts =>
    settle (eachLane g (arriveWide .cluster (.cbar f.imm.toNat)) s ts) b.id) s)

def execGbar (f : IForm) (s : State) : Out :=
  .next (issue (.gbar f) .normal (fun s g b ts =>
    if !b.cooperative then ts.foldl (fun s t => trapAt s t (illegal (.gbar f))) s
    else settle (eachLane g (arriveWide .device .gbar) s ts) b.id) s)

/-! ### Arrival objects (R370) -/

/-- The object after an arrival: remaining, phase, holder; `idx` is the arriving block's index in deterministic mode. -/
def larrNext (count : Nat) (det : Bool) (idx rem phase holder : Nat) : Nat × Nat × Nat :=
  let rem' := if rem = 0 then count - 1 else rem - 1
  let holder' := if det ∧ (rem = 0 ∨ holder < idx) then idx else holder
  (rem', (if rem' = 0 then phase + 1 else phase) % 2 ^ 32, holder')

/-- The waiting holder of an object gets its answer. -/
def larrAnswer (s : State) (b : Block) (ea : BitVec 64) (v : Word) : State :=
  let waits (t : TRef) : Option Nat := match (s.thread t).wait with
    | some (.larr dst o) => if o = ea then some dst else none
    | _ => none
  let save (x : Thread) : Thread :=
    match x.wait with
    | some (.larr n o) =>
      if o = ea then { x with v := x.v.set 0 n v, wait := none, pc := nextPc x.pc, regionPc := nextPc x.pc
                              mapped := x.mapped &&& ~~~(1#256 <<< n) } else x
    | _ => x
  let saveWave (e : Nat × Wave) : Nat × Wave := (e.1, { e.2 with threads := e.2.threads.map fun t => (t.1, save t.2) })
  let s1 := { s with images := mapIf (·.launch == b.launch) (fun i => { i with waves := i.waves.map saveWave }) s.images }
  ((launchBlocks s b).flatMap (blockAlive s)).foldl (fun s t =>
    match waits t with
    | some dst => release1 (setV (doAcquireAll s t) t dst v) t
    | none => s) s1

/-- One arrival of the group. -/
def larrGroup (f : IForm) (s : State) (g : Issue) (b : Block) (ts : List TRef) : State :=
  match ts with
  | [] => s
  | t0 :: _ =>
    let ea := q (rawSrc s t0 .b64 f.a)
    if b.deterministic ∧ !b.cooperative then ts.foldl (fun s t => trapAt s t (detTrap g.pc 0)) s
    else
      match genericTrap ea 16 with
      | some x => ts.foldl (fun s t => trapAt s t x) s
      | none =>
        let m : MForm := { h := f.h, dat := f.dst, base := f.a, ofs := 0, ret := .default, ord := .ar, scp := .device
                           cnt := .one, xf := 0 }
        let o := ea.toNat % 128
        let idx := logicalBlock s b
        let next (v : BitVec 1024) : Nat × Nat × Nat :=
          larrNext f.imm.toNat b.deterministic idx (lineGet v o 4) (lineGet v (o + 4) 4) (lineGet v (o + 8) 4)
        let upd (v : BitVec 1024) : BitVec 128 × BitVec 1024 :=
          let (r, p, h) := next v
          (byteMask o 12, linePut o (r + 2 ^ 32 * p + 2 ^ 64 * h))
        match homeOp (ts.foldl endRegion s) t0 m (ea.toNat / 128 * 128) upd with
        | (s1, .error x) => eachLane g (fun s t => stopLane s t x) s1 ts
        | (s1, .ok v) =>
          let last := (next v).1 == 0
          let answer (s : State) (w : Word) : State :=
            eachLane g (fun s t => leave (setV s t f.dst.num.toNat w) t) s ts
          if !b.deterministic then answer s1 (if last then 1 else 0)
          else
            let top : Bool := lineGet v o 4 = 0 || lineGet v (o + 8) 4 < idx
            if !top then answer (if last then larrAnswer s1 b ea 1 else s1) 0
            else
              let s2 := larrAnswer s1 b ea 0
              if last then answer s2 1
              else eachLane g (fun s _ => (s, .stay (.larr f.dst.num.toNat ea))) s2 ts

def execLarr (f : IForm) (s : State) : Out := .next (issue (.larr f) .normal (larrGroup f) s)

/-! ### Timelines and counters (R371, R372) -/

/-- The context an instruction names, if the partition's allocation holds it. -/
def timelineOf (s : State) (t : TRef) (b : Block) (f : SForm) : Option Nat :=
  let c := if f.xf = 0 then bits f.imm 9 0 else bits (srcWord s t f.b) 9 0
  let p := s.part b.part
  if p.ctxbase ≤ c ∧ c < p.ctxbase + p.ctxcnt then some c else none

def execTlwait (f : SForm) (s : State) : Out :=
  .next (issue (.tlwait f) .normal (fun s g b ts =>
    eachLane g (fun s t =>
      match timelineOf s t b f with
      | none => (s, .trap (simpleTrap 0x0B))
      | some c =>
        if atLeast48 (bits (s.ctx c).counter 47 0) (bits (srcPair s t f.a) 47 0) then (doAcquireAll s t, .done)
        else (s, .stay .retest)) s ts) s)

/-- R371; counted on LD (R349). -/
def execTlread (f : SForm) (s : State) : Out :=
  .next (issue (.tlread f) .normal (fun s g b ts =>
    eachLane g (fun s t =>
      match timelineOf s t b f with
      | none => (s, .trap (simpleTrap 0x0B))
      | some c =>
        if counterFull (s.thread t).ld then (s, .stay (.counterRoom 0))
        else (loadResult s t 4 0 f.dst.num.toNat [lo32 (s.ctx c).counter, hi32 (s.ctx c).counter], .done)) s ts) s)

/-- R39, R372. -/
def execCnwait (f : SForm) (s : State) : Out :=
  .next (issue (.cnwait f) .normal (fun s g _ ts =>
    let v := f.imm.toNat + 2 ^ 20 * f.xf.toNat
    let under (n field : Nat) : Bool := field == 63 || n ≤ field
    eachLane g (fun s t =>
      let x := s.thread t
      if under x.ld (fld v 5 0) && under x.st (fld v 11 6) && under x.cp (fld v 17 12) && under x.mx (fld v 23 18) then
        (s, .done)
      else (s, .stay .recheck)) s ts) s)

/-! ### Byte barriers (R67, R373, R374) -/

/-- An offset in the block's own scratch: `n` bytes within its footprint, else trap 0x15, aligned, else 0x12. -/
def ownOffset (b : Block) (addr : Word) (n align : Nat) : Except Trap Nat :=
  let ofs := bits addr 19 0
  if bits addr 31 24 ≠ 0 ∨ bits addr 23 20 ≠ b.bid ∨ b.scratchBytes + b.chanBytes < ofs + n then .error (simpleTrap 0x15)
  else if addr.toNat % align ≠ 0 then .error ⟨0x12, addr.zeroExtend 64, 0, false, 0⟩
  else .ok ofs

/-- A barrier's offset; a nonzero reserved word is trap 0x01. -/
def barrierAt (s : State) (b : Block) (i : Instr) (addr : Word) : Except Trap Nat :=
  match ownOffset b addr 16 16 with
  | .error x => .error x
  | .ok o => if ownWord s b (o + 12) ≠ 0 then .error (illegal i) else .ok o

def execBoinit (f : SForm) (s : State) : Out :=
  .next (issue (.boinit f) .normal (fun s g b ts =>
    eachLane g (fun s t =>
      match barrierAt s b (.boinit f) (srcWord s t f.a) with
      | .error x => (s, .trap x)
      | .ok o =>
        if counterFull (s.thread t).st then (s, .stay (.counterRoom 1))
        else
          let n := d (srcVal s t .n32 f.b)
          let s1 := setOwnWord (endRegion s t) b o n
          let s2 := setOwnWord s1 b (o + 4) (ownWord s1 b (o + 4) &&& 0x7FFFFFFF)
          let s3 := setOwnWord s2 b (o + 8) 0
          begun t (pendStore (wakeBarriers s3 b.id) t 7 false, .done)) s ts) s)

def execBowait (f : SForm) (s : State) : Out :=
  .next (issue (.bowait f) .normal (fun s g b ts =>
    eachLane g (fun s t =>
      match barrierAt s b (.bowait f) (srcWord s t f.a) with
      | .error x => (s, .trap x)
      | .ok o =>
        if ownWord s b o = 0 then (edgeAcquire (setV s t f.dst.num.toNat (ownWord s b (o + 4))) t .block, .done)
        else (setOwnWord s b (o + 8) (ownWord s b (o + 8) + 1), .stay (.bowait f.dst.num.toNat o))) s ts) s)

/-! ### Messages (R375-R377) -/

/-- The destination a name stands for: a physical core here, or a peer (65,536 + its index). -/
def nameTarget (s : State) (part : Nat) (i : Instr) (name : Word) : Except Trap Nat :=
  let dev := bits name 31 24
  if bits name 23 9 ≠ 0 then .error (illegal i)
  else if dev ≠ 0xFF then (if peerLive s dev then .ok (65536 + dev) else .error (simpleTrap 0x0B))
  else if (enabledCores s part).contains (bits name 8 0) then .ok (physCore s part (bits name 8 0))
  else .error (simpleTrap 0x0B)

/-- A thread's own core as its receivers on this device name it. -/
def senderName (b : Block) : Word := d (0xFF000000 + b.lcore)

def wildcard : Word := 0xFFFFFFFF

def Receive.takes (r : Receive) (m : Message) : Bool :=
  !r.matched && (r.source == wildcard || r.source == m.source) && r.tag == m.tag

/-- The header of a delivered message (R377). -/
def messageHeader (m : Message) (cap : Nat) : List Byte :=
  let n := min m.data.length cap
  toBytes 4 m.source.toNat ++ toBytes 2 m.tag.toNat ++ toBytes 2 (n + if cap < m.data.length then 2 ^ 15 else 0)
    ++ List.replicate 8 0

/-- Write bytes at an offset of a block's scratch, or of its shadow image while it is saved (R98, R378). -/
def blockScratchPut (s : State) (id off : Nat) (bs : List Byte) : State :=
  match s.block? id with
  | some b => wakeBarriers (scratchWrite s b.core (b.scratchOff + off) bs) id
  | none =>
    { s with images := s.images.map fun m =>
        { m with scratch := m.scratch.map fun e => if e.1 = id then (id, scratchPut e.2 off bs) else e } }

/-- Deliver a message into a posted receive of a core. -/
def deliver (s : State) (core index : Nat) (r : Receive) (m : Message) : State :=
  let bytes := messageHeader m r.cap ++ m.data.take r.cap
  let s1 := blockScratchPut s r.block (bits r.buf 19 0) bytes
  s1.modCore core fun c => { c with receives := c.receives.put index { r with matched := true, scope := m.scope } }

/-- The lowest receive index that holds no unmatched receive. -/
def freeReceive (c : Core) : Option Nat :=
  (List.range 64).find? fun i => match c.receives.find? i with | some r => r.matched | none => true

def msgpostLane (f : SForm) (b : Block) (s : State) (t : TRef) : State × Lane :=
  let i : Instr := .msgpost f
  let p := srcPair s t f.a
  let src := lo32 p
  let cap := bits f.imm 12 0
  let buf := srcWord s t f.b
  let bad := if src = wildcard then none else (match nameTarget s b.part i src with | .error x => some x | .ok _ => none)
  if bits p 63 48 ≠ 0 then (s, .trap (illegal i))
  else
    match bad with
    | some x => (s, .trap x)
    | none =>
      if b.deterministic ∧ src = wildcard then (s, .trap (detTrap (s.thread t).pc 1))
      else
        match ownOffset b buf (16 + cap) 16 with
        | .error x => (s, .trap x)
        | .ok _ =>
          let s1 := endRegion s t
          match freeReceive (s1.core b.core) with
          | none => (s1, .stay .recheck)
          | some n =>
            let r : Receive := { block := b.id, source := src, tag := BitVec.ofNat 16 (bits p 47 32), buf := buf, cap := cap
                                 matched := false, order := (s1.core b.core).posted, scope := .thread }
            let s2 := s1.modCore b.core fun c => { c with receives := c.receives.put n r, posted := c.posted + 1 }
            let s3 := match (s2.core b.core).overflow.find? r.takes with
              | none => s2
              | some m => deliver (s2.modCore b.core fun c => { c with overflow := dropFirst (·.id == m.id) c.overflow }) b.core n r m
            begun t (setV s3 t f.dst.num.toNat (d n), .done)

def execMsgpost (f : SForm) (s : State) : Out :=
  .next (issue (.msgpost f) .normal (fun s g b ts => eachLane g (msgpostLane f b) s ts) s)

/-- The send: the release, then the message is on its way and the thread waits for the destination's answer. -/
def msgsendLane (f : SForm) (b : Block) (s : State) (t : TRef) : State × Lane :=
  let i : Instr := .msgsend f
  let p := srcPair s t f.a
  let size := bits f.imm 12 0
  let scope : Scope := match bits f.imm 15 13 with | 3 => .cluster | 4 => .device | _ => .system
  if bits p 63 48 ≠ 0 then (s, .trap (illegal i))
  else
    match nameTarget s b.part i (lo32 p) with
    | .error x => (s, .trap x)
    | .ok dest =>
      if 65536 ≤ dest ∧ scope ≠ .system then (s, .trap (illegal i))
      else
        match ownOffset b (srcWord s t f.b) size 4 with
        | .error x => (s, .trap x)
        | .ok o =>
          match doRelease (endRegion s t) t scope with
          | (s1, .error x) => stopLane s1 t x
          | (s1, .ok _) =>
            let m : Message :=
              { id := s1.nextMsg, sender := some t, source := senderName b, dest := dest
                tag := BitVec.ofNat 16 (bits p 47 32), data := toBytes size (scratchRead s1 b.core (b.scratchOff + o) size)
                scope := scope, tick := s1.tick.toNat }
            ({ s1 with messages := s1.messages ++ [m], nextMsg := s1.nextMsg + 1 }, .stay (.message m.id))

def execMsgsend (f : SForm) (s : State) : Out :=
  .next (issue (.msgsend f) .normal (fun s g b ts => eachLane g (msgsendLane f b) s ts) s)

/-- The sender that waits for a message's answer, if it is resident. -/
def waitingSender (s : State) (m : Message) : Option TRef :=
  m.sender.bind fun t => if s.alive t && (s.thread t).wait == some (.message m.id) then some t else none

/-- Whether the sender waits in a shadow image. -/
def savedSender (s : State) (m : Message) : Bool :=
  s.images.any fun i => i.waves.any fun w => w.2.threads.any fun e => e.2.wait == some (.message m.id)

/-- A saved sender's message was accepted: it goes on at the next slot. -/
def acceptSaved (id : Nat) (x : Thread) : Thread :=
  if x.wait = some (.message id) then { x with wait := none, pc := nextPc x.pc, regionPc := nextPc x.pc } else x

/-- The message is accepted, and its sender goes on. -/
def acceptMessage (s : State) (m : Message) : State :=
  match waitingSender s m with
  | some t => release1 s t
  | none =>
    let save (w : Wave) : Wave := { w with threads := w.threads.map fun e => (e.1, acceptSaved m.id e.2) }
    { s with images := s.images.map fun i => { i with waves := i.waves.map fun w => (w.1, save w.2) } }

/-- The message is refused: nothing is delivered, and the sender traps. -/
def refuseMessage (s : State) (m : Message) (code : BitVec 8) : State :=
  match waitingSender s m with
  | some t => trapAt s t (simpleTrap code)
  | none => s

/-- The posted receive that takes a message: the first in posting order (R377). -/
def receiveFor (c : Core) (m : Message) : Option (Nat × Receive) :=
  argMin (fun e => e.2.order) (List.filter (fun e : Nat × Receive => e.2.takes m) c.receives)

/-- R377: the oldest message for a destination arrives. A peer's answer is not this device's to say (assumption 1); for a
peer that cannot be reached it is held for 10,000 ticks from the send (R506); a refusal waits for a saved sender. -/
def execMessageArrival (core : Nat) (s : State) : Out :=
  .next (
    match s.messages.find? fun m => m.dest == core with
    | none => s
    | some m =>
      let s1 := { s with messages := dropFirst (fun x => x.id == m.id) s.messages }
      if 65536 ≤ core then
        if !peerReachable s (core - 65536) then
          if s.tick.toNat < m.tick + 10000 ∨ savedSender s m then s else refuseMessage s1 m 0x0B
        else
          let (v, s2) := s1.fresh
          let refuse (c : BitVec 8) : State := if savedSender s m then s else refuseMessage s2 m c
          match v.toNat % 3 with
          | 0 => acceptMessage s2 m
          | 1 => refuse 0x13
          | _ => refuse 0x0B
      else
        match receiveFor (s1.core core) m with
        | some (i, r) => acceptMessage (deliver s1 core i r m) m
        | none =>
          if (s1.core core).overflow.length < 32 then
            acceptMessage (s1.modCore core fun c => { c with overflow := c.overflow ++ [m] }) m
          else if savedSender s m then s
          else refuseMessage s1 m 0x13)

/-- R506: the i-th access held for a failed peer is refused once 10,000 ticks have passed. -/
def execPeerAccessTimeout (i : Nat) (s : State) : Out :=
  .next (
    match s.peerHolds[i]? with
    | some h =>
      if h.tick + 10000 ≤ s.tick.toNat then
        let s1 := { s with peerHolds := s.peerHolds.eraseIdx i }
        (match (s1.thread h.t).wait with
         | some (.peer _) => if s1.alive h.t then trapAt s1 h.t (simpleTrap 0x0B) else s1
         | _ => s1)
      else s
    | none => s)

/-- R379: the new region begins at the `rgnb` itself (R107, R441). -/
def execRgnb (f : RForm) (s : State) : Out :=
  .next (issue (.rgnb f) .normal (fun s g _ ts => eachLane g (fun s t => (endRegion s t, .done)) s ts) s)

end Sys2Proof.Machine
end

