-- ==== Sys2Proof/Machine/Engines.lean ====
section
/-! DEFINITION. The way mask, kicks, contexts, timelines' signals and FIFOs: opcodes 0x7D and 0xA0-0xA8 (R359,
R384-R394). -/

namespace Sys2Proof.Machine

/-! ### The way mask (R59, R359) -/

def wayBytes : Nat := 32768

/-- Bytes of the bound scratch range of a block: its footprint, then its private granules (R200). -/
def boundScratch (s : State) (b : Block) : Nat :=
  b.scratchBytes + b.chanBytes + if b.template then 512 * (blockThreads s b).length else 0

/-- Reserved template ways: the highest-numbered scratch ways (R59). -/
def templateWays (mask : BitVec 16) (segBytes : Nat) : List Nat :=
  (((List.range 16).reverse.filter fun i => mask.getLsbD i)).take (ceilDiv segBytes wayBytes)

/-- Ways that hold part of a resident block's scratch, or template storage. -/
def heldWays (s : State) (core : Nat) : List Nat :=
  let mask := (s.core core).wayMask
  (s.blocks.filter fun b => b.core == core).flatMap fun b =>
    let n := boundScratch s b
    (if n = 0 then [] else (List.range 16).filter fun i => i * wayBytes < b.scratchOff + n && b.scratchOff < (i + 1) * wayBytes)
      ++ templateWays mask b.segBytes

/-- Local memory that a request may still write: of each block it names, the whole footprint. -/
def reqTargets (s : State) (r : CopyReq) : List Block :=
  let of (i : Nat) : List Block := match clusterBlock? s r i with | some b => [b] | none => []
  match r.op with
  | 5 => ((List.range 16).filter fun i => r.mask.testBit i).flatMap of
  | 6 => of (bits r.dst 8 5)
  | _ => if isLocalAddr r.dst then ((localHome s r (lo32 r.dst)).map Prod.fst).toList else []

/-- Whether an unretired request writes into a way. -/
def wayBusy (s : State) (core way : Nat) : Bool :=
  (allReqs s).any fun r => !r.fin && !r.retired && (reqTargets s r).any fun b =>
    b.core == core && (s.block? b.id).isSome && b.scratchOff < (way + 1) * wayBytes
      && way * wayBytes < b.scratchOff + b.scratchBytes + b.chanBytes

/-- A way turns to scratch: regions with speculative lines in it abort, its dirty bytes are written back, it is
invalidated. -/
def wayToScratch (core : Nat) (s : State) (way : Nat) : State :=
  let owners := ((lines s core .l1).filterMap fun l => if l.way = way then l.spec else none).eraseDups
  let s1 := owners.foldl abortRegion s
  let s2 := writeBack s1 core .l1 fun l => l.way == way
  setLines s2 core .l1 ((lines s2 core .l1).filter fun l => l.way != way)

/-- A way turns to the L1: it is emptied. -/
def wayToL1 (core : Nat) (s : State) (way : Nat) : State :=
  s.modCore core fun c =>
    { c with scratch := c.scratch.filter fun e => e.1 < way * wayBytes || (way + 1) * wayBytes ≤ e.1 }

def waysetGroup (f : IForm) (s : State) (g : Issue) (b : Block) (ts : List TRef) : State :=
  let mask : BitVec 16 := f.imm.extractLsb' 0 16
  let old := (s.core b.core).wayMask
  let up := (List.range 16).filter fun i => mask.getLsbD i && !old.getLsbD i
  let down := (List.range 16).filter fun i => old.getLsbD i && !mask.getLsbD i
  let other := s.blocks.any fun x => x.core == b.core && !(x.launch == b.launch && x.gen == b.gen)
  if 14 < popcount 16 mask.toNat then ts.foldl (fun s t => trapAt s t (illegal (.wayset f))) s
  else if other ∨ down.any fun i => (heldWays s b.core).contains i then
    ts.foldl (fun s t => trapAt s t (simpleTrap 0x15)) s
  else
    let s0 := ts.foldl endRegion s
    if down.any (wayBusy s b.core) then ts.foldl (fun s t => setWait s t .recheck) s0
    else
      let s1 := up.foldl (wayToScratch b.core) s0
      let s2 := (down.foldl (wayToL1 b.core) s1).modCore b.core fun c => { c with wayMask := mask }
      eachLane g (fun s t => begun t (s, .done)) s2 ts

def execWayset (f : IForm) (s : State) : Out := .next (issue (.wayset f) .normal (waysetGroup f) s)

/-! ### kick (R384) -/

/-- The scope of a record's flags, narrowest first; reserved codes name none. -/
def recScope (x : BitVec 512) : Nat := let c := bits x 12 10; if c < 6 then c else 0

def scopeOfCode (n : Nat) : Scope :=
  match n with | 0 => .thread | 1 => .wave | 2 => .block | 3 => .cluster | 4 => .device | _ => .system

/-- Requests of a core that its request engine holds (R77). -/
def heldRecords (s : State) (core : Nat) : Nat := ((allReqs s).filter fun r => !r.fin && waveCore r.t.wave == core).length

/-- The later of the issued count and the counter, the first on a tie (R384, R388). -/
def issuedCount (s : State) (ctx : Nat) : Nat :=
  let c := s.ctx ctx
  let low := bits c.counter 47 0
  if atLeast48 c.issued.toNat low then c.issued.toNat else low

/-- A record as a request of a thread, before its number is known. -/
def newReq (s : State) (t : TRef) (b : Block) (raw : BitVec 512) (addr : BitVec 32) (ctx seq : Nat) : CopyReq :=
  { seq := seq, order := s.seq, raw := raw, recAddr := addr, ctx := ctx, block := b.id, launch := b.launch, gen := b.gen, genItem := b.genItem
    coord := b.coord, stage := b.stage, bid := b.bid, thread := threadIndex s t, flags := b.flags, asid := b.asid
    agen := b.agen, part := b.part, t := t, started := false, pos := 0, written := 0, counted := 0, fin := false, retired := false
    error := none, dead := false, parked := none }

/-- One record: accepted under the next number of its context, or the offset and the trap of its first failing field. -/
def submit (s : State) (t : TRef) (b : Block) (addr : BitVec 32) : State × Except (Nat × BitVec 8) Nat :=
  let raw := BitVec.ofNat 512 (ofBytes (homeRead s b (bits addr 19 0) 64))
  let r0 := newReq s t b raw addr 0 0
  let ctx := recCtx s b.part (s.wave t.wave).ctxSel raw
  let fault : Option (Nat × BitVec 8) := match recCheck s r0, ctx with
    | some (o, c), .error e => if o < 2 then some (o, c) else some (2, e)
    | some x, .ok _ => some x
    | none, .error e => some (2, e)
    | none, .ok _ => none
  match fault, ctx with
  | some x, _ => (s, .error x)
  | none, .error e => (s, .error (2, e))
  | none, .ok c =>
    let n := (issuedCount s c + 1) % 2 ^ 48
    let s1 := s.modCtx c fun x => { x with issued := BitVec.ofNat 48 n, reqs := x.reqs ++ [newReq s t b raw addr c n] }
    ({ s1 with seq := s1.seq + 1 }.modThread t fun x => { x with cp := x.cp + 1 }, .ok n)

/-- The records of one thread, in order, until one fails. -/
def submitAll (t : TRef) (b : Block) : Nat → BitVec 32 → Nat → State → State × Except (BitVec 32 × Nat × BitVec 8) Nat
  | 0, _, last, s => (s, .ok last)
  | n + 1, addr, _, s =>
    match submit s t b addr with
    | (s1, .error (o, c)) => (s1, .error (addr, o, c))
    | (s1, .ok seq) => submitAll t b n (addr + 64) seq s1

def kickLane (f : SForm) (b : Block) (s : State) (t : TRef) : State × Lane :=
  let n := f.imm.toNat
  let addr := srcWord s t f.a
  match ownOffset b addr (64 * n) 64 with
  | .error x => (s, .trap x)
  | .ok o =>
    let s0 := endRegion s t
    if 64 < heldRecords s b.core + n ∨ 63 < (s.thread t).cp + n then (s0, .stay .retest)
    else
      let scopes := (List.range n).map fun j => recScope (BitVec.ofNat 512 (ofBytes (homeRead s b (o + 64 * j) 64)))
      let scope := scopeOfCode (maxOf scopes)
      match doRelease s0 t scope with
      | (s1, .error x) => stopLane s1 t x
      | (s1, .ok _) =>
        -- a narrower release takes its snapshot here (R114)
        match submitAll t b n addr 0 (if Scope.wide scope then s1 else arriveRace s1 t scope) with
        | (s2, .error (a, off, c)) => (s2, .trap ⟨c, a.zeroExtend 64, q off, false, 0⟩)
        | (s2, .ok seq) => begun t (setVs s2 t f.dst.num.toNat [lo32 (q seq), hi32 (q seq)], .done)

def execKick (f : SForm) (s : State) : Out :=
  .next (issue (.kick f) .normal (fun s g b ts => eachLane g (kickLane f b) s ts) s)

/-! ### Contexts and timelines (R386-R388) -/

/-- A context read from a uniform source once for the group (R386). -/
def groupCtx (s : State) (i : Instr) (b : Block) (a : Src) (ts : List TRef) : Except Trap Nat :=
  match ts with
  | [] => .error (illegal i)
  | t0 :: _ =>
    let c := (srcWord s t0 a).toNat
    if 1024 ≤ c then .error (illegal i)
    else if ctxAllowed s b.part c then .ok c
    else .error (simpleTrap 0x0B)

/-- Cancelled requests write nothing, count their barrier down, and retire in sequence order. -/
def cancelAll (s : State) (ctx : Nat) (rs : List CopyReq) : State :=
  let s1 := rs.foldl finishReq s
  retireCtx s1 ctx (s1.ctx ctx).reqs.length

def execCpcancel (f : SForm) (s : State) : Out :=
  .next (issue (.cpcancel f) .normal (fun s g b ts =>
    match groupCtx s (.cpcancel f) b f.a ts with
    | .error x => ts.foldl (fun s t => trapAt s t x) s
    | .ok c =>
      let s0 := ts.foldl endRegion s
      let rs := (s.ctx c).reqs.filter fun r => r.block == b.id && !r.started && !r.fin
      eachLane g (fun s t => begun t (setV s t f.dst.num.toNat (d rs.length), .done)) (cancelAll s0 c rs) ts) s)

def execTlsig (f : SForm) (s : State) : Out :=
  .next (issue (.tlsig f) .normal (fun s g b ts =>
    eachLane g (fun s t =>
      match timelineOf s t b f with
      | none => (s, .trap (simpleTrap 0x0B))
      | some c =>
        let v := bits (srcPair s t f.a) 47 0
        match doRelease (endRegion s t) t .device with
        | (s1, .error x) => stopLane s1 t x
        | (s1, .ok _) =>
          let raise (x : CopyCtx) : CopyCtx :=
            { x with counter := q (x.counter.toNat / 2 ^ 48 * 2 ^ 48 + max (bits x.counter 47 0) v) }
          begun t (s1.modCtx c raise, .done)) s ts) s)

def execCtxsel (f : SForm) (s : State) : Out :=
  .next (issue (.ctxsel f) .normal (fun s g b ts =>
    match groupCtx s (.ctxsel f) b f.a ts with
    | .error x => ts.foldl (fun s t => trapAt s t x) s
    | .ok c =>
      let n := q (issuedCount s c)
      eachLane g (fun s t => (setVs s t f.dst.num.toNat [lo32 n, hi32 n], .done))
        (s.modWave g.wave fun w => { w with ctxSel := some c }) ts) s)

/-! ### FIFOs (R64-R66, R389-R394) -/

def fifoNum (f : SForm) : Nat := bits f.imm 4 0

/-- The local-address prefix of a FIFO's slots: the own `bid`, and NXT for the outgoing channel (R389). -/
def slotPrefix (s : State) (b : Block) (n : Nat) : Nat :=
  b.bid * 2 ^ 20 + if n = 30 ∧ 1 < Block.stages s b then 2 ^ 24 else 0

def slotAddr (s : State) (b : Block) (n : Nat) (f : Fifo) (slot : Nat) : Word :=
  d (slotPrefix s b n + f.base + slot * f.slotBytes)

/-- The slot that an address names. -/
def slotAt (s : State) (b : Block) (n : Nat) (f : Fifo) (a : Word) : Option Nat :=
  (List.range f.count).find? fun j => slotAddr s b n f j == a

/-- The FIFO of a push, pop or release, if the instruction may act on it. -/
def fifoFor (s : State) (b : Block) (n : Nat) (ok : Fifo → Bool) : Option (Nat × Nat × Fifo) :=
  match fifoRef s b n with
  | .held o i f => if ok f then some (o, i, f) else none
  | _ => none

/-- A record that is accepted and not retired names a FIFO. -/
def fifoNamed (s : State) (b : Block) (n : Nat) : Bool :=
  (allReqs s).any fun r => !r.retired && r.op ≥ 6 &&
    match reqFifo s r with
    | some (o, i, _) => o.id == b.id && i == n
    | none => false

def cbinitGroup (f : SForm) (s : State) (g : Issue) (b : Block) (ts : List TRef) : State :=
  let n := fifoNum f
  let i : Instr := .cbinit f
  match ts with
  | [] => s
  | t0 :: _ =>
    let a := srcWord s t0 f.a
    let c := srcWord s t0 f.b
    let count := bits c 8 0
    let slotb := bits c 15 9
    let stuck := match b.fifos.find? n with | some x => x.free != x.count | none => false
    let illegalUse : Bool := bits a 31 20 ≠ 0 || bits c 31 16 ≠ 0 || count = 0 || 256 < count || b.nfifo ≤ n
      || (1 < Block.stages s b && (n == 30 || n == 31)) || stuck || fifoNamed s b n
    let fate : Option Trap :=
      if illegalUse then some (illegal i)
      else if bits a 19 0 % 128 ≠ 0 then some ⟨0x12, a.zeroExtend 64, 0, false, 0⟩
      else if b.scratchBytes < bits a 19 0 + count * (64 * (slotb + 1)) then some (simpleTrap 0x15)
      else none
    match fate with
    | some x => ts.foldl (fun s t => trapAt s t x) s
    | none =>
      let x : Fifo := { base := bits a 19 0, slotb := slotb, count := count, head := 0, tail := 0, free := count, filled := 0
                        eng := f.imm.getLsbD 5, mxc := f.imm.getLsbD 6, chan := false, fin := false, resv := [], popped := [] }
      let s1 := (ts.foldl endRegion s).modBlock b.id fun y => { y with fifos := y.fifos.put n x }
      eachLane g (fun s t => begun t (s, .done)) s1 ts

def execCbinit (f : SForm) (s : State) : Out := .next (issue (.cbinit f) .normal (cbinitGroup f) s)

/-- R391: reserve slot TAIL, as an acquire of the release that freed it. The slots that a drain's begun row still has to write
are not free to others (assumption 115). -/
def reserveLane (f : SForm) (b : Block) (s : State) (t : TRef) : State × Lane :=
  let n := fifoNum f
  match fifoFor s b n fun x => !x.eng with
  | none => (s, .trap (illegal (.cbpushReserve f)))
  | some (o, i, x) =>
    let s1 := endRegion s t
    if x.free ≤ drainKeeps true s o i then (s1, .stay .retest)
    else
      let s2 := modFifo s1 o i fun x => x.reserve (some t)
      begun t (scratchAcquire (setV s2 t f.dst.num.toNat (slotAddr s b n x x.tail)) t .cluster, .done)

def execCbpushReserve (f : SForm) (s : State) : Out :=
  .next (issue (.cbpushReserve f) .normal (fun s g b ts => eachLane g (reserveLane f b) s ts) s)

/-- R391: commit a slot the thread reserved, as a cluster-scope release. -/
def commitLane (f : SForm) (b : Block) (s : State) (t : TRef) : State × Lane :=
  let n := fifoNum f
  match fifoFor s b n fun x => !x.eng with
  | none => (s, .trap (illegal (.cbpushCommit f)))
  | some (o, i, x) =>
    match slotAt s b n x (srcWord s t f.a) with
    | none => (s, .trap (illegal (.cbpushCommit f)))
    | some j =>
      if x.resv.any fun e => e.1 == j && !e.2.1 && e.2.2 == some t then
        match doRelease (endRegion s t) t .cluster with
        | (s1, .error e) => stopLane s1 t e
        | (s1, .ok _) => begun t (modFifo s1 o i fun x => x.commit j, .done)
      else (s, .trap (illegal (.cbpushCommit f)))

def execCbpushCommit (f : SForm) (s : State) : Out :=
  .next (issue (.cbpushCommit f) .normal (fun s g b ts => eachLane g (commitLane f b) s ts) s)

/-- R392: pop slot HEAD as a cluster-scope acquire; an empty, ended channel answers at once, and so does `.try`.
The slots that a drain's begun row still has to pop are not there for others (assumption 115). -/
def popLane (i : Instr) (f : SForm) (try? : Bool) (b : Block) (s : State) (t : TRef) : State × Lane :=
  let n := fifoNum f
  match fifoFor s b n fun x => !x.mxc with
  | none => (s, .trap (illegal i))
  | some (o, k, x) =>
    let s1 := endRegion s t
    let v := f.dst.num.toNat
    if drainKeeps false s o k < x.filled then
      begun t (scratchAcquire (setV (modFifo s1 o k Fifo.pop) t v (slotAddr s b n x x.head)) t .cluster, .done)
    else if x.fin ∧ x.filled = 0 then begun t (setV s1 t v 0xFFFFFFFF, .done)
    else if try? then begun t (setV s1 t v 0xFFFFFFFE, .done)
    else (s1, .stay .retest)

def execCbpop (f : SForm) (s : State) : Out :=
  .next (issue (.cbpop f) .normal (fun s g b ts => eachLane g (popLane (.cbpop f) f false b) s ts) s)

def execCbpopTry (f : SForm) (s : State) : Out :=
  .next (issue (.cbpopTry f) .normal (fun s g b ts => eachLane g (popLane (.cbpopTry f) f true b) s ts) s)

/-- R393: release a popped slot, counted in pop order. -/
def relLane (f : SForm) (b : Block) (s : State) (t : TRef) : State × Lane :=
  let n := fifoNum f
  match fifoFor s b n fun x => !x.mxc with
  | none => (s, .trap (illegal (.cbrel f)))
  | some (o, i, x) =>
    match slotAt s b n x (srcWord s t f.a) with
    | none => (s, .trap (illegal (.cbrel f)))
    | some j =>
      if x.popped.any fun e => e.1 == j && !e.2 then
        match doRelease (endRegion s t) t .cluster with
        | (s1, .error e) => stopLane s1 t e
        | (s1, .ok _) => begun t (modFifo s1 o i fun x => x.release j, .done)
      else (s, .trap (illegal (.cbrel f)))

def execCbrel (f : SForm) (s : State) : Out :=
  .next (issue (.cbrel f) .normal (fun s g b ts => eachLane g (relLane f b) s ts) s)

/-- The 128-bit descriptor (R64). -/
def Fifo.words (f : Fifo) : List Word :=
  let bit (b : Bool) (n : Nat) : Nat := if b then 2 ^ n else 0
  toWords 4 (f.base + 2 ^ 32 * f.slotb + 2 ^ 48 * f.count + 2 ^ 64 * f.head + 2 ^ 72 * f.tail + 2 ^ 80 * f.free
    + 2 ^ 96 * f.filled + bit f.eng 112 + bit f.mxc 113 + bit f.chan 114 + bit f.fin 115)

def execCbstat (f : SForm) (s : State) : Out :=
  .next (issue (.cbstat f) .normal (fun s g b ts =>
    eachLane g (fun s t =>
      match fifoRef s b (fifoNum f) with
      | .absent => (s, .trap (illegal (.cbstat f)))
      | .blank => (setVs s t f.dst.num.toNat [0, 0, 0, 0], .done)
      | .held _ _ x => (setVs s t f.dst.num.toNat x.words, .done)) s ts) s)

end Sys2Proof.Machine
end

