-- ==== Sys2Proof/Machine/Bounds.lean ====
section
/-! DEFINITION. Interval and affine bounds on binary32 patterns (R144, R146, R236, R331-R340): the one arithmetic that
the vector instructions and the scene evaluator share. -/

namespace Sys2Proof.Machine

/-! ### Single-rounded binary32 steps -/

def rneMode : Nat := 1
def rdnMode : Nat := 3
def rupMode : Nat := 4

def b32Inf : Nat := 0x7F800000
def b32NegInf : Nat := 0xFF800000

def b32Neg (x : Nat) : Nat := fpNeg .f32 x
def b32Abs (x : Nat) : Nat := x % 2 ^ 31
def b32Nan (x : Nat) : Bool := isNanF .f32 x
def b32Fin (x : Nat) : Bool := expOf .f32 x != 255
def b32Zero (x : Nat) : Bool := x % 2 ^ 31 == 0
/-- Order of values: false on a NaN, -0 equal to +0. -/
def b32Lt (a b : Nat) : Bool := !b32Nan a && !b32Nan b && decide (fpKey .f32 a < fpKey .f32 b)
def b32Le (a b : Nat) : Bool := !b32Nan a && !b32Nan b && decide (fpKey .f32 a ≤ fpKey .f32 b)
/-- Minimum and maximum with -0 below +0 (R224, R332). -/
def b32Min (a b : Nat) : Nat := (fpMinMax .f32 .rne false a b).1
def b32Max (a b : Nat) : Nat := (fpMinMax .f32 .rne true a b).1

def by32 (rm : Nat) (scl : Int) : Rnd := ⟨rm, 0, false, scl⟩
def b32Add (rm : Nat) (a b : Nat) : Nat := (fpAdd .f32 (by32 rm 0) a b).1
def b32Sub (rm : Nat) (a b : Nat) : Nat := (fpSub .f32 (by32 rm 0) a b).1
/-- (a + b) * 2^scl, rounded once. -/
def b32AddScl (rm : Nat) (scl : Int) (a b : Nat) : Nat := (fpAdd .f32 (by32 rm scl) a b).1

def zeroTimesInf (a b : Nat) : Bool := (b32Zero a && b % 2 ^ 31 == b32Inf) || (b32Zero b && a % 2 ^ 31 == b32Inf)

/-- A product in a bound, times 2^scl: 0 * ∞ is 0 (R144, R331). -/
def b32Mul (rm : Nat) (scl : Int) (a b : Nat) : Nat :=
  if zeroTimesInf a b then 0 else (fpMul .f32 (by32 rm scl) a b).1
/-- A fused step in a bound. -/
def b32Fma (rm : Nat) (a b c : Nat) : Nat :=
  if zeroTimesInf a b then b32Add rm 0 c else (fpFma .f32 (by32 rm 0) a b c).1
def b32Sqrt (rm : Nat) (a : Nat) : Nat := (fpSqrt .f32 (by32 rm 0) a).1

/-- q := RNE(x) with err(x) (R336): the spacing of the two values around x, 0 when x is representable. -/
def b32Err (f : Nat → Nat) : Nat × Nat :=
  let lo := f rdnMode
  let hi := f rupMode
  (f rneMode, if lo = hi then 0 else b32Sub rupMode hi lo)

/-- A chain of terms into e (R336). -/
def b32Chain (l : List Nat) : Nat :=
  match l with
  | [] => 0
  | e :: t => t.foldl (b32Add rupMode) e

/-! ### Intervals -/

structure Iv where
  lo : Nat
  hi : Nat
  deriving DecidableEq, Repr

def Iv.entire : Iv := ⟨b32NegInf, b32Inf⟩

/-- The read rule (R236, R331). -/
def Iv.read (a : Iv) : Iv := if b32Nan a.lo ∨ b32Nan a.hi ∨ b32Lt a.hi a.lo then .entire else a
/-- A result with a NaN endpoint becomes the entire interval (R332). -/
def Iv.result (a : Iv) : Iv := if b32Nan a.lo ∨ b32Nan a.hi then .entire else a

def Iv.neg (a : Iv) : Iv := ⟨b32Neg a.hi, b32Neg a.lo⟩
def Iv.add (a b : Iv) : Iv := Iv.result ⟨b32Add rdnMode a.lo b.lo, b32Add rupMode a.hi b.hi⟩
def Iv.sub (a b : Iv) : Iv := Iv.result ⟨b32Sub rdnMode a.lo b.hi, b32Sub rupMode a.hi b.lo⟩

def Iv.mul (a b : Iv) : Iv :=
  let p (rm : Nat) : List Nat := [b32Mul rm 0 a.lo b.lo, b32Mul rm 0 a.lo b.hi, b32Mul rm 0 a.hi b.lo, b32Mul rm 0 a.hi b.hi]
  let pick (f : Nat → Nat → Nat) (l : List Nat) : Nat := match l with | [] => 0 | x :: t => t.foldl f x
  Iv.result ⟨pick b32Min (p rdnMode), pick b32Max (p rupMode)⟩

def Iv.abs (a : Iv) : Iv :=
  if !b32Lt a.lo 0 then a else if !b32Lt 0 a.hi then a.neg else ⟨0, b32Max (b32Neg a.lo) a.hi⟩

def Iv.sqr (a : Iv) : Iv :=
  let m := a.abs
  Iv.result ⟨b32Mul rdnMode 0 m.lo m.lo, b32Mul rupMode 0 m.hi m.hi⟩

def Iv.min (a b : Iv) : Iv := ⟨b32Min a.lo b.lo, b32Min a.hi b.hi⟩
def Iv.max (a b : Iv) : Iv := ⟨b32Max a.lo b.lo, b32Max a.hi b.hi⟩

/-- Whether the operand of a root reaches below zero (R333). -/
def Iv.domain (a : Iv) : Bool := b32Lt a.lo 0
def Iv.sqrt (a : Iv) : Iv :=
  if b32Lt a.hi 0 then .entire
  else ⟨b32Sqrt rdnMode (b32Max a.lo 0), b32Sqrt rupMode a.hi⟩

/-- The code word of a sign test (R335). -/
def Iv.signCode (a : Iv) : Nat :=
  (if b32Lt 0 a.lo then 1 else 0) + (if b32Lt a.hi 0 then 2 else 0) + (if b32Le a.lo 0 ∧ b32Le 0 a.hi then 4 else 0)
    + (if a = .entire then 8 else 0)

/-! ### Affine forms -/

structure Af where
  c : Nat
  w : Nat
  e : Nat
  deriving DecidableEq, Repr

def Af.top : Af := ⟨0, 0, b32Inf⟩

/-- The read rule (R236, R331). -/
def Af.read (a : Af) : Af :=
  if b32Nan a.c ∨ b32Nan a.w ∨ b32Nan a.e ∨ signOf .f32 a.e then .top else a

/-- Normalisation of a result (R336); a value with e < 0, which the bounds of a side entry with min > max give, becomes
(0, 0, +∞) as well (R144). -/
def Af.norm (a : Af) : Af := if !b32Fin a.c ∨ !b32Fin a.w ∨ b32Nan a.e ∨ b32Lt a.e 0 then .top else a

def Af.neg (a : Af) : Af := ⟨b32Neg a.c, b32Neg a.w, a.e⟩

/-- The hull (R340); a NaN endpoint makes it the entire interval (R144). -/
def Af.hull (a : Af) : Iv :=
  Iv.result ⟨b32Sub rdnMode (b32Sub rdnMode a.c (b32Abs a.w)) a.e, b32Add rupMode (b32Add rupMode a.c (b32Abs a.w)) a.e⟩

/-- An interval as an affine form (R146). -/
def Af.ofIv (v : Iv) : Af :=
  let c := b32AddScl rneMode (-1) v.lo v.hi
  Af.norm ⟨c, 0, b32Max (b32Sub rupMode v.hi c) (b32Sub rupMode c v.lo)⟩

/-- R337. -/
def Af.add (a b : Af) : Af :=
  let (c, ec) := b32Err fun rm => b32Add rm a.c b.c
  let (w, ew) := b32Err fun rm => b32Add rm a.w b.w
  Af.norm ⟨c, w, b32Chain [a.e, b.e, ec, ew]⟩

def Af.sub (a b : Af) : Af := a.add b.neg

/-- R338. -/
def Af.mul (a b : Af) : Af :=
  let (c, ec) := b32Err fun rm => b32Mul rm 0 a.c b.c
  let (p, ep) := b32Err fun rm => b32Mul rm 0 b.c a.w
  let (w, ew) := b32Err fun rm => b32Fma rm a.c b.w p
  let up (x y : Nat) : Nat := b32Mul rupMode 0 (b32Abs x) (b32Abs y)
  Af.norm ⟨c, w, b32Chain [up a.w b.w, up a.c b.e, up b.c a.e, up a.w b.e, up b.w a.e, up a.e b.e, ec, ep, ew]⟩

def Af.sqr (a : Af) : Af :=
  let (h, eh) := b32Err fun rm => b32Mul rm (-1) a.w a.w
  let (c, ec) := b32Err fun rm => b32Fma rm a.c a.c h
  let (w, ew) := b32Err fun rm => b32Mul rm 1 a.c a.w
  let up (scl : Int) (x y : Nat) : Nat := b32Mul rupMode scl (b32Abs x) (b32Abs y)
  Af.norm ⟨c, w, b32Chain [up (-1) a.w a.w, up 1 a.c a.e, up 1 a.w a.e, up 0 a.e a.e, eh, ec, ew]⟩

/-- R340. -/
def Af.abs (a : Af) : Af :=
  let v := a.hull
  if !b32Lt v.lo 0 then a.norm
  else if !b32Lt 0 v.hi then a.neg.norm
  else Af.ofIv ⟨0, b32Max (b32Neg v.lo) v.hi⟩

/-- √x - αx, rounded once from the exact value (R339): the root is taken to 2^-420, below every rounding point. -/
def rootMinus (rm : Nat) (x alpha : Nat) : Nat :=
  let vx := (unpackF .f32 x).fix
  let va := (unpackF .f32 alpha).fix
  let v := vx.n * 2 ^ (vx.exp + 840).toNat
  let r := isqrt v
  let ax := fixMul va vx
  let scaled : Int := ((ax.n * 2 ^ (ax.exp + 420).toNat : Nat) : Int)
  let big : Int := (r : Int) - scaled
  if r * r = v then (roundFix .f32 rm 0 false (fixAdd rm ⟨false, r, -420, false⟩ { ax with neg := true })).1
  else (roundFix .f32 rm 0 false (Fix.ofInt (2 * big + 1) (-421))).1

/-- Whether the hull reaches below zero, the domain bit of R339. -/
def Af.domain (a : Af) : Bool := b32Lt a.hull.lo 0

/-- R339. -/
def Af.sqrt (a : Af) : Af :=
  let v := a.hull
  if b32Lt v.hi 0 then .top
  else
    let l := b32Max v.lo 0
    let u := v.hi
    if b32Zero u then ⟨0, 0, 0⟩
    else if u = b32Inf then .top
    else
      let alpha := (fpRsq .f32 (by32 rneMode (-1)) u).1
      let d1 := rootMinus rdnMode l alpha
      let d2 := rootMinus rupMode u alpha
      let m := b32AddScl rneMode (-1) d1 d2
      let (c, ec) := b32Err fun rm => b32Fma rm alpha a.c m
      let (w, ew) := b32Err fun rm => b32Mul rm 0 alpha a.w
      let t := b32Max (b32Sub rupMode d2 m) (b32Sub rupMode m d1)
      Af.norm ⟨c, w, b32Chain [b32Mul rupMode 0 alpha a.e, t, ec, ew]⟩

/-- MIN and MAX by the hull rule (R146). -/
def Af.minMax (wantMax : Bool) (a b : Af) : Af :=
  let x := a.hull
  let y := b.hull
  let (aWins, bWins) := if wantMax then (b32Le y.hi x.lo, b32Le x.hi y.lo) else (b32Le x.hi y.lo, b32Le y.hi x.lo)
  if aWins then a else if bWins then b
  else Af.ofIv (if wantMax then x.max y else x.min y)

/-! ### Bounds the evaluator adds (R146) -/

/-- ±b * 2^sh as an exact term. -/
def exactTerm (neg : Bool) (b : Nat) (sh : Int) : Fix :=
  let x := (unpackF .f32 b).fix
  { x with neg := x.neg != neg, exp := x.exp + sh }

/-- One rounding of a + s*b*2^sh; an infinite or NaN operand falls back on the plain step. -/
def b32Lin (rm : Nat) (a : Nat) (neg : Bool) (b : Nat) (sh : Int) : Nat :=
  if b32Fin a ∧ b32Fin b then (roundFix .f32 rm 0 false (fixAdd rm (exactTerm false a 0) (exactTerm neg b sh))).1
  else b32Add rm a (if neg then b32Neg b else b)

/-- Whether x.hi lies below y.lo by more than r, exactly. -/
def apart (xhi ylo r : Nat) : Bool :=
  if b32Fin xhi ∧ b32Fin ylo then
    let v := fixAdd 1 (fixAdd 1 (exactTerm false ylo 0) (exactTerm true r 0)) (exactTerm true xhi 0)
    v.n != 0 && !v.neg
  else b32Lt xhi ylo

def positiveRadius (r : Nat) : Bool := b32Fin r && !b32Zero r && !signOf .f32 r

def Iv.smin (a b : Iv) (r : Nat) : Iv :=
  if !positiveRadius r ∨ apart a.hi b.lo r ∨ apart b.hi a.lo r then a.min b
  else Iv.result ⟨b32Lin rdnMode (b32Min a.lo b.lo) true r (-2), b32Min a.hi b.hi⟩

/-- SMIN (R146): MIN, then c - r/8 and e + r/8, each rounding of c charged to e. -/
def Af.smin (a b : Af) (r : Nat) : Af :=
  let m := Af.minMax false a b
  let x := a.hull
  let y := b.hull
  if !positiveRadius r ∨ apart x.hi y.lo r ∨ apart y.hi x.lo r then m
  else
    let (c, ec) := b32Err fun rm => b32Lin rm m.c true r (-3)
    Af.norm ⟨c, m.w, b32Chain [m.e, b32AddScl rupMode (-3) r 0, ec]⟩

end Sys2Proof.Machine
end

