-- ==== Sys2Proof/Machine/Flags.lean ====
section
/-! DEFINITION. Rounding modes, flushing, stochastic rounding and flags of float instructions (R226-R232, R310): how
an issue finds its mode, advances the generator, and combines element results. -/

namespace Sys2Proof.Machine

/-- The mode a thread rounds in (R226): XF[2:0], or its fmode when that is 000. -/
def rmOf (s : State) (t : TRef) (xf : BitVec 4) : Nat :=
  let c := bits xf 2 0
  if c = 0 then bits (s.thread t).fmode 2 0 else c

/-- Flushing in force (R229). -/
def ftzOf (s : State) (t : TRef) (ftz : Bool) : Bool := ftz || (s.thread t).fmode.getLsbD 3

/-- Advance the stochastic state: the core's, or the wave's in deterministic mode (R231, R232). -/
def advanceSr (s : State) (g : Issue) (b : Block) : State × Word :=
  if b.deterministic then
    let w := xorshift (s.wave g.wave).sr
    (s.modWave g.wave fun x => { x with sr := w }, w)
  else
    let w := xorshift (s.core b.core).sr
    (s.modCore b.core fun x => { x with sr := w }, w)

/-- How a float instruction rounds: the mode field, whether XF[3] flushes, whether this instruction rounds at all. -/
structure RoundBy where
  xf     : BitVec 4
  ftz    : Bool
  rounds : Bool
  deriving DecidableEq, Repr

/-- The thread whose mode and lane count: itself, or the group's lowest lane for a k destination (R310). -/
def modeThread (g : Issue) (dst : Dst) (t : TRef) : TRef :=
  if dst.file = .k then lowLane g else t

/-- A lane's mode, random word and scale for element `j`. -/
def rndAt (s : State) (g : Issue) (dst : Dst) (m : RoundBy) (word : Word) (t : TRef) (packed : Bool) (j : Nat) : Rnd :=
  let u := modeThread g dst t
  { rm := rmOf s u m.xf, r := srElement (srWord word u.lane) packed j, ftz := ftzOf s u m.ftz
    scl := sclExp dst.scl.toNat }

/-- Whether an issue rounds stochastically in some executing thread, and so advances the generator (R231). -/
def issueSr (s : State) (g : Issue) (dst : Dst) (m : RoundBy) (ts : List TRef) : Bool :=
  m.rounds && ts.any fun t => rmOf s (modeThread g dst t) m.xf == 6

/-- Element results as one value with the flags of all (R228). -/
def joinElems (w : Nat) (l : List (Nat × Nat)) : Res :=
  (l.zipIdx.foldl (fun (r : Res) e => { r with val := r.val + 2 ^ (w * e.2) * e.1.1, flags := r.flags ||| e.1.2 }) (Res.of 0))

/-- An instruction that reads registers and rounds: `f` computes a thread's result from the state at issue, given the
rounding for each element (packed?, index). -/
def computeRound (i : Instr) (dst : Dst) (regs : Nat) (m : RoundBy) (cmp : Bool)
    (f : State → Issue → TRef → (Bool → Nat → Rnd) → Res) (s : State) : State :=
  issue i .normal (fun s g b ts =>
    let (s1, w) := if issueSr s g dst m ts then advanceSr s g b else (s, 0)
    finishRes dst regs cmp (fun t => f s1 g t (rndAt s1 g dst m w t)) s1 g b ts) s

/-- A float instruction element by element at one type, clamped (R230 step 3). -/
def floatElems (ty : Ty) (dst : Dst) (args : List Nat) (rnd : Bool → Nat → Rnd)
    (op : Fmt → Rnd → List Nat → Nat × Nat) : Res :=
  match tyFmt ty with
  | none => Res.of 0
  | some (f, n) =>
    joinElems f.width ((List.range n).map fun j =>
      let xs := args.map fun a => a / 2 ^ (f.width * j) % 2 ^ f.width
      let (v, fl) := op f (rnd (n == 2) j) xs
      (fpClamp f dst.clp.toNat v, fl))

/-- The R-format float instructions of one type with `n` sources. -/
def floatOp (i : Instr) (f : RForm) (n : Nat) (m : RoundBy) (op : Fmt → Rnd → List Nat → Nat × Nat) (s : State) : State :=
  let ty := f.h.typ
  let srcs := [f.a, f.b, f.c].take n
  computeRound i f.dst ty.regs m false
    (fun s _ t rnd => floatElems ty f.dst (srcs.map (srcVal s t ty)) rnd op) s

/-- Rounding by XF, flushing by XF[3]. -/
def byXf (xf : BitVec 4) : RoundBy := ⟨xf, xf.getLsbD 3, true⟩

end Sys2Proof.Machine
end

