-- ==== Sys2Proof/Machine/FloatFn.lean ====
section
/-! DEFINITION. The correctly rounded functions exp2, log2, sin and cos of turns (R237, R314): series in fixed point
with 256 fraction bits, far below any rounding point of the formats they serve. -/

namespace Sys2Proof.Machine

/-- Fraction bits of the fixed-point work. -/
def fxBits : Nat := 256
def fxOne : Nat := 2 ^ fxBits
/-- ln 2 and 2π in that fixed point. -/
def fxLn2 : Nat := 0xb17217f7d1cf79abc9e3b39803f2f6af40f343267298b62d8a0d175b8baafa2b
def fxTwoPi : Nat := 0x6487ed5110b4611a62633145c06e0e68948127044533e63a0105df531d89cd912

/-- The sum of t, t*x/k1, t*x^2/(k1*k2), ...: a Taylor series whose next term is the last one times x over `den i`. -/
def fxSeries (x : Nat) (den : Nat → Nat) (alternate : Bool) : Nat → Nat → Int → Int → Int
  | 0, _, _, acc => acc
  | fuel + 1, i, term, acc =>
    let next := (term * x / fxOne / den i) * (if alternate then -1 else 1)
    fxSeries x den alternate fuel (i + 1) next (acc + next)

/-- e^x for 0 ≤ x < 1. -/
def fxExp (x : Nat) : Nat := (fxSeries x (fun i => i + 1) false 64 0 fxOne fxOne).toNat

/-- sin(u)/u and cos(u) from v = u^2, for u at most π/4. -/
def fxSinc (v : Nat) : Nat := (fxSeries v (fun i => (2 * i + 2) * (2 * i + 3)) true 40 0 fxOne fxOne).toNat
def fxCos (v : Nat) : Nat := (fxSeries v (fun i => (2 * i + 1) * (2 * i + 2)) true 40 0 fxOne fxOne).toNat

/-- z + z^3/3 + z^5/5 + ... from the power z^(2i+1). -/
def fxAtanhFrom (z2 : Nat) : Nat → Nat → Nat → Nat → Nat
  | 0, _, _, acc => acc
  | fuel + 1, i, pow, acc => fxAtanhFrom z2 fuel (i + 1) (pow * z2 / fxOne) (acc + pow / (2 * i + 1))

/-- 2^x for a finite x (R237): exact for an integer, else sticky. An exponent beyond every format is cut. -/
def fixExp2 (a : Fix) : Fix :=
  let i := max (-4000) (min 4000 (fixFloor a))
  if i = 4000 ∨ i = -4000 then ⟨false, 2 ^ 130, i - 130, true⟩
  else
    let v : Int := if a.neg then -(a.n : Int) else a.n
    -- the fraction of x in fixed point, truncated; inputs far below one unit still count through `sticky`
    let fr : Int := if a.exp + fxBits ≥ 0 then v * 2 ^ (a.exp + fxBits).toNat else v / 2 ^ (-(a.exp + fxBits)).toNat
    let f := (fr - i * fxOne).toNat
    let exact : Bool := a.n = 0 || (decide (a.exp ≥ 0) || a.n % 2 ^ (-a.exp).toNat == 0)
    if exact then ⟨false, 1, i, false⟩
    else
      let y := fxExp (f * fxLn2 / fxOne)
      -- just above 1, or just below 2, when the fraction vanished in the fixed point
      ⟨false, if y ≥ 2 * fxOne then 2 * fxOne - 1 else y, i - fxBits, true⟩

/-- log2 of a positive finite value (R237). -/
def fixLog2 (a : Fix) : Fix :=
  let lg := Nat.log2 a.n
  let e : Int := a.exp + lg
  if a.n = 2 ^ lg then Fix.ofInt e 0
  else
    let z := (a.n - 2 ^ lg) * fxOne / (a.n + 2 ^ lg)
    let t := 2 * fxAtanhFrom (z * z / fxOne) 90 0 z 0
    let sum : Int := e * fxOne + t * fxOne / fxLn2
    if sum < 0 then ⟨true, sum.natAbs - 1, -fxBits, true⟩ else ⟨false, sum.toNat, -fxBits, true⟩

/-- x reduced to turns: the octant of x mod 1 and what it lies above that octant's start, as an exact value. -/
def octant (a : Fix) : Nat × Fix :=
  -- 8|x| as a fixed value with exponent exp + 3
  if a.exp + 3 ≥ 0 then ((a.n * 2 ^ (a.exp + 3).toNat) % 8, ⟨false, 0, 0, false⟩)
  else
    let k := (-(a.exp + 3)).toNat
    (a.n / 2 ^ k % 8, ⟨false, a.n % 2 ^ k, a.exp, false⟩)

/-- sin of r turns, 0 ≤ r ≤ 1/8, relative precision kept. -/
def fixSinTurn (r : Fix) : Fix :=
  if r.n = 0 then .zero false
  else
    let u := r.n * fxTwoPi
    let ue := r.exp - fxBits
    let sq := u * u
    let se := 2 * ue + fxBits
    let v : Nat := if se ≥ 0 then sq * 2 ^ se.toNat else sq / 2 ^ (-se).toNat
    let s := fxSinc v
    if v = 0 then ⟨false, u * fxOne - 1, ue - fxBits, true⟩
    else ⟨false, u * s, ue - fxBits, true⟩

/-- cos of r turns, 0 ≤ r ≤ 1/8: below 1 but at r = 0, however near. -/
def fixCosTurn (r : Fix) : Fix :=
  if r.n = 0 then ⟨false, 1, 0, false⟩
  else
    let u := r.n * fxTwoPi
    let se := 2 * (r.exp - fxBits) + fxBits
    let v : Nat := if se ≥ 0 then u * u * 2 ^ se.toNat else u * u / 2 ^ (-se).toNat
    ⟨false, min (fxCos v) (fxOne - 1), -fxBits, true⟩

/-- The rest of an octant above r: 1/8 turn minus r, exactly. -/
def eighthMinus (r : Fix) : Fix :=
  if r.exp ≥ -3 then ⟨false, 1, -3, false⟩ else ⟨false, 2 ^ (-3 - r.exp).toNat - r.n, r.exp, false⟩

/-- sin of |x| turns from its octant: sin is symmetric about a quarter and odd about a half. -/
def fixSinAbs (a : Fix) : Fix :=
  let (o, r) := octant a
  let neg (x : Fix) : Fix := { x with neg := true }
  match o with
  | 0 => fixSinTurn r
  | 1 => fixCosTurn (eighthMinus r)
  | 2 => fixCosTurn r
  | 3 => fixSinTurn (eighthMinus r)
  | 4 => neg (fixSinTurn r)
  | 5 => neg (fixCosTurn (eighthMinus r))
  | 6 => neg (fixCosTurn r)
  | _ => neg (fixSinTurn (eighthMinus r))

def fixCosAbs (a : Fix) : Fix :=
  let (o, r) := octant a
  let neg (x : Fix) : Fix := { x with neg := true }
  match o with
  | 0 => fixCosTurn r
  | 1 => fixSinTurn (eighthMinus r)
  | 2 => neg (fixSinTurn r)
  | 3 => neg (fixCosTurn (eighthMinus r))
  | 4 => neg (fixCosTurn r)
  | 5 => neg (fixSinTurn (eighthMinus r))
  | 6 => fixSinTurn r
  | _ => fixCosTurn (eighthMinus r)

def fpExp2 (f : Fmt) (m : Rnd) (a0 : Nat) : Nat × Nat :=
  let a := flushIn f m.ftz a0
  match nanOf f [a] with
  | some r => r
  | none =>
    match unpackF f a with
    | .inf true => (0, 0)
    | .inf false => (f.inf, 0)
    | v => finish f m (fixExp2 v.fix)

def fpLog2 (f : Fmt) (m : Rnd) (a0 : Nat) : Nat × Nat :=
  let a := flushIn f m.ftz a0
  match nanOf f [a] with
  | some r => r
  | none =>
    match unpackF f a with
    | .zero _ => (withSign f true f.inf, flDZ)
    | .inf false => (f.inf, 0)
    | .inf true => invalid f
    | .fin true _ _ => invalid f
    | v => finish f m (fixLog2 v.fix)

/-- sin(2πx): ±0 gives itself, a nonzero multiple of 1/2 gives +0 (R237). -/
def fpSin (f : Fmt) (m : Rnd) (a0 : Nat) : Nat × Nat :=
  let a := flushIn f m.ftz a0
  match nanOf f [a] with
  | some r => r
  | none =>
    match unpackF f a with
    | .zero s => (withSign f s 0, 0)
    | .inf _ => invalid f
    | v =>
      let y := fixSinAbs v.fix
      if y.n = 0 then (0, 0) else finish f m { y with neg := y.neg != v.fix.neg }

def fpCos (f : Fmt) (m : Rnd) (a0 : Nat) : Nat × Nat :=
  let a := flushIn f m.ftz a0
  match nanOf f [a] with
  | some r => r
  | none =>
    match unpackF f a with
    | .inf _ => invalid f
    | v =>
      let y := fixCosAbs v.fix
      if y.n = 0 then (0, 0) else finish f m y

end Sys2Proof.Machine
end

