-- ==== Sys2Proof/Machine/Integer.lean ====
section
/-! DEFINITION. Integer arithmetic, compares and moves: opcodes 0x10-0x1F (R293-R301). -/

namespace Sys2Proof.Machine

/-- An element as an exact integer, signed or not by its type (R293). -/
def elemInt (ty : Ty) (w x : Nat) : Int := if tySigned ty then sgn w x else ((x % 2 ^ w : Nat) : Int)

/-- Clamp to a type's range (R230), as a w-bit pattern. -/
def saturate (signed : Bool) (w : Nat) (x : Int) : Nat :=
  let lo : Int := if signed then -(2 ^ (w - 1) : Nat) else 0
  let hi : Int := if signed then (2 ^ (w - 1) : Nat) - 1 else (2 ^ w : Nat) - 1
  wrap w (max lo (min hi x))

/-- The destination of an exact integer: saturated under CLP 11, else modulo 2^w (R293). -/
def narrow (ty : Ty) (clp : BitVec 2) (w : Nat) (x : Int) : Nat :=
  if clp = 3 then saturate (tySigned ty) w x else wrap w x

/-- Element-wise integer arithmetic. -/
def intElems (ty : Ty) (clp : BitVec 2) (args : List Nat) (op : Nat → List Int → Int) : Nat :=
  let (w, n) := tyElems ty
  sumOf ((List.range n).map fun j =>
    2 ^ (w * j) * narrow ty clp w (op w (args.map fun a => elemInt ty w (a / 2 ^ (w * j) % 2 ^ w))))

/-- The body R293 gives to the integer instructions. -/
def intOp (i : Instr) (f : RForm) (n : Nat) (op : Nat → List Int → Int) (s : State) : State :=
  let ty := f.h.typ
  let srcs := [f.a, f.b, f.c].take n
  compute i f.dst ty.regs false
    (fun s _ t => Res.of (intElems ty f.dst.clp (srcs.map (srcVal s t ty)) op)) s

def argAt (l : List Int) (j : Nat) : Int := l.getD j 0

/-- R293. -/
def execIadd (f : RForm) (s : State) : Out := .next (intOp (.iadd f) f 2 (fun _ l => argAt l 0 + argAt l 1) s)
def execIsub (f : RForm) (s : State) : Out := .next (intOp (.isub f) f 2 (fun _ l => argAt l 0 - argAt l 1) s)
def execImul (f : RForm) (s : State) : Out := .next (intOp (.imul f) f 2 (fun _ l => argAt l 0 * argAt l 1) s)
def execImulhi (f : RForm) (s : State) : Out :=
  .next (intOp (.imulhi f) f 2 (fun w l => argAt l 0 * argAt l 1 / ((2 ^ w : Nat) : Int)) s)
def execImad (f : RForm) (s : State) : Out :=
  .next (intOp (.imad f) f 3 (fun _ l => argAt l 0 * argAt l 1 + argAt l 2) s)
def execImin (f : RForm) (s : State) : Out := .next (intOp (.imin f) f 2 (fun _ l => min (argAt l 0) (argAt l 1)) s)
def execImax (f : RForm) (s : State) : Out := .next (intOp (.imax f) f 2 (fun _ l => max (argAt l 0) (argAt l 1)) s)
def execIabsd (f : RForm) (s : State) : Out :=
  .next (intOp (.iabsd f) f 2 (fun _ l => ((argAt l 0 - argAt l 1).natAbs : Int)) s)

/-- R294: 32-bit product into a 64-bit sum. -/
def execImadw (f : RForm) (s : State) : Out :=
  let w : Ty := if f.h.typ = .i32 then .i64 else .n64
  .next (compute (.imadw f) f.dst 2 false (fun s _ t =>
    let a := elemInt f.h.typ 32 (srcVal s t f.h.typ f.a)
    let b := elemInt f.h.typ 32 (srcVal s t f.h.typ f.b)
    let c := elemInt w 64 (srcVal s t w f.c)
    Res.of (narrow w f.dst.clp 64 (a * b + c))) s)

/-- R295: four byte products added to a 32-bit accumulator. -/
def execIdot4 (f : RForm) (s : State) : Out :=
  let w : Ty := if f.h.typ = .i8x4 then .i32 else .n32
  .next (compute (.idot4 f) f.dst 1 false (fun s _ t =>
    let a := srcVal s t f.h.typ f.a
    let b := srcVal s t f.h.typ f.b
    let c := elemInt w 32 (srcVal s t w f.c)
    let byte (x j : Nat) : Int := elemInt f.h.typ 8 (x / 256 ^ j % 256)
    Res.of (narrow w f.dst.clp 32 (c + byte a 0 * byte b 0 + byte a 1 * byte b 1 + byte a 2 * byte b 2 + byte a 3 * byte b 3))) s)

/-- The compare codes of R258 on two ordered values. -/
def compareInt (xf : BitVec 4) (a b : Int) : Bool :=
  match xf.toNat with
  | 0 => a == b | 1 => a != b | 2 => decide (a < b) | 3 => decide (a ≤ b) | 4 => decide (b < a) | _ => decide (b ≤ a)

/-- R296. -/
def execIcmp (f : RForm) (s : State) : Out :=
  .next (compute (.icmp f) f.dst 1 true (fun s _ t =>
    let w := if f.h.typ.is64 then 64 else 32
    let a := elemInt f.h.typ w (srcVal s t f.h.typ f.a)
    let b := elemInt f.h.typ w (srcVal s t f.h.typ f.b)
    Res.of (if compareInt f.xf a b then 1 else 0)) s)

/-- R297. -/
def execIsel (f : RForm) (s : State) : Out :=
  .next (compute (.isel f) f.dst f.h.typ.regs false (fun s _ t =>
    Res.of (if srcVal s t .b32 f.c ≠ 0 then srcVal s t f.h.typ f.a else srcVal s t f.h.typ f.b)) s)

/-- R299. -/
def execLea (f : IForm) (s : State) : Out :=
  .next (compute (.lea f) f.dst 2 false (fun s _ t => Res.of (srcPair s t f.a + BitVec.signExtend 64 f.imm).toNat) s)

/-- R298: the carry goes to the condition bit that SRC C names. -/
def execIaddc (f : RForm) (s : State) : Out :=
  .next (compute (.iaddc f) f.dst f.h.typ.regs false (fun s _ t =>
    let w := if f.h.typ.is64 then 64 else 32
    let x := srcVal s t f.h.typ f.a + srcVal s t f.h.typ f.b + (if creg s t f.c.num.toNat then 1 else 0)
    { val := x % 2 ^ w, conds := [(f.c.num.toNat, decide (2 ^ w ≤ x))], flags := 0 }) s)

/-- The immediate of `mov` at a type (R300); a binary32 is widened exactly, a NaN or infinity by appending zeros. -/
def movValue (ty : Ty) (imm : Word) : Nat :=
  match ty with
  | .f64 =>
    if expOf .f32 imm.toNat = 255 then withSign .f64 (signOf .f32 imm.toNat) (Fmt.f64.inf + fracOf .f32 imm.toNat * 2 ^ 29)
    else (fpConvert .f32 .f64 .rne imm.toNat).1
  | .i64 | .n64 | .b64 => (BitVec.signExtend 64 imm).toNat
  | _ => imm.toNat

/-- The clamp of a `mov` on a float type (R230, R300); it raises no flag. -/
def movClamp (ty : Ty) (clp : BitVec 2) (x : Nat) : Nat :=
  match tyFmt ty with
  | some (f, n) =>
    sumOf ((List.range n).map fun j => 2 ^ (f.width * j) * fpClamp f clp.toNat (x / 2 ^ (f.width * j) % 2 ^ f.width))
  | none => x

/-- R300, the immediate form. -/
def execMovImmediate (f : IForm) (s : State) : Out :=
  .next (compute (.movImmediate f) f.dst f.h.typ.regs false (fun _ _ _ =>
    Res.of (movClamp f.h.typ f.dst.clp (movValue f.h.typ f.imm))) s)

/-- R300, the register form. -/
def execMovRegister (f : IForm) (s : State) : Out :=
  .next (compute (.movRegister f) f.dst f.h.typ.regs false (fun s _ t =>
    Res.of (movClamp f.h.typ f.dst.clp (srcVal s t f.h.typ f.a))) s)

/-- R301: the group's lowest lane's value, once; in checked mode differing values among the group's lanes trap 0x05 at every
thread of the group. -/
def execMovk (f : RForm) (s : State) : Out :=
  .next (issue (.movk f) .normal (fun s g b ts =>
    let v := srcVal s (lowLane g) f.h.typ f.a
    let all := wholeGroup s g ts
    if b.checked ∧ all.any (fun t => srcVal s t f.h.typ f.a != v) then
      trapWhole s g all 0x05
    else
      let s1 := setKs s g f.dst.num.toNat (toWords f.h.typ.regs v)
      ts.foldl advance s1) s)

end Sys2Proof.Machine
end

