-- ==== Sys2Proof/Machine/FloatInstr.lean ====
section
/-! DEFINITION. Float arithmetic, functions, fractions, compares and classes: opcodes 0x30-0x41 (R312-R317). -/

namespace Sys2Proof.Machine

def nAt (l : List Nat) (j : Nat) : Nat := l.getD j 0

/-- R312. -/
def execFadd (f : RForm) (s : State) : Out :=
  .next (floatOp (.fadd f) f 2 (byXf f.xf) (fun k m l => fpAdd k m (nAt l 0) (nAt l 1)) s)
def execFsub (f : RForm) (s : State) : Out :=
  .next (floatOp (.fsub f) f 2 (byXf f.xf) (fun k m l => fpSub k m (nAt l 0) (nAt l 1)) s)
def execFmul (f : RForm) (s : State) : Out :=
  .next (floatOp (.fmul f) f 2 (byXf f.xf) (fun k m l => fpMul k m (nAt l 0) (nAt l 1)) s)
def execFfma (f : RForm) (s : State) : Out :=
  .next (floatOp (.ffma f) f 3 (byXf f.xf) (fun k m l => fpFma k m (nAt l 0) (nAt l 1) (nAt l 2)) s)

/-- Only the SCL step of a minimum or maximum rounds, in the thread's fmode (R313). -/
def byFmode (f : RForm) : RoundBy := ⟨0, f.xf.getLsbD 3, f.dst.scl != 0⟩

/-- R313. -/
def execFmin (f : RForm) (s : State) : Out :=
  .next (floatOp (.fmin f) f 2 (byFmode f) (fun k m l => fpMinMax k m false (nAt l 0) (nAt l 1)) s)
def execFmax (f : RForm) (s : State) : Out :=
  .next (floatOp (.fmax f) f 2 (byFmode f) (fun k m l => fpMinMax k m true (nAt l 0) (nAt l 1)) s)

/-- R314. -/
def execFdiv (f : RForm) (s : State) : Out :=
  .next (floatOp (.fdiv f) f 2 (byXf f.xf) (fun k m l => fpDiv k m (nAt l 0) (nAt l 1)) s)
def execFsqrt (f : RForm) (s : State) : Out := .next (floatOp (.fsqrt f) f 1 (byXf f.xf) (fun k m l => fpSqrt k m (nAt l 0)) s)
def execFrcp (f : RForm) (s : State) : Out := .next (floatOp (.frcp f) f 1 (byXf f.xf) (fun k m l => fpRcp k m (nAt l 0)) s)
def execFrsq (f : RForm) (s : State) : Out := .next (floatOp (.frsq f) f 1 (byXf f.xf) (fun k m l => fpRsq k m (nAt l 0)) s)
def execFexp2 (f : RForm) (s : State) : Out := .next (floatOp (.fexp2 f) f 1 (byXf f.xf) (fun k m l => fpExp2 k m (nAt l 0)) s)
def execFlog2 (f : RForm) (s : State) : Out := .next (floatOp (.flog2 f) f 1 (byXf f.xf) (fun k m l => fpLog2 k m (nAt l 0)) s)
def execFsin (f : RForm) (s : State) : Out := .next (floatOp (.fsin f) f 1 (byXf f.xf) (fun k m l => fpSin k m (nAt l 0)) s)
def execFcos (f : RForm) (s : State) : Out := .next (floatOp (.fcos f) f 1 (byXf f.xf) (fun k m l => fpCos k m (nAt l 0)) s)

/-- The step that SCL and CLP follow: the value as it stands, scaled and rounded again when SCL is set (R315). -/
def rescale (k : Fmt) (m : Rnd) (r : Nat × Nat) : Nat × Nat :=
  if m.scl = 0 then r
  else
    match unpackF k r.1 with
    | .nan _ | .inf _ => r
    | v => let (x, fl) := finish k m v.fix; (x, fl ||| r.2)

/-- The fractional part (R315): rounded once, 1.0 replaced by the largest value below it. -/
def fpFract (k : Fmt) (m : Rnd) (a0 : Nat) : Nat × Nat :=
  let a := flushIn k m.ftz a0
  match nanOf k [a] with
  | some r => r
  | none =>
    match unpackF k a with
    | .inf _ => invalid k
    | .zero _ => (0, 0)
    | v =>
      let x := v.fix
      let fl := fixAdd m.rm x (Fix.ofInt (-(fixFloor x)) 0)
      let (r, g) := roundFix k m.rm m.r m.ftz fl
      rescale k m (if r = k.bias * 2 ^ k.frac then r - 1 else r, g)

/-- Rounding to an integral value (R315): a zero result keeps the sign. -/
def fpRound (k : Fmt) (m : Rnd) (a0 : Nat) : Nat × Nat :=
  let a := flushIn k m.ftz a0
  match nanOf k [a] with
  | some r => r
  | none =>
    match unpackF k a with
    | .inf u => (withSign k u k.inf, 0)
    | .zero u => (withSign k u 0, 0)
    | v =>
      let (n, ix) := fixToInt m.rm m.r k.srBits v.fix
      let g := if ix then flNX else 0
      if n = 0 then (withSign k v.fix.neg 0, g) else rescale k m ((roundFix k 1 0 false (Fix.ofInt n 0)).1, g)

/-- R315. -/
def execFfract (f : RForm) (s : State) : Out := .next (floatOp (.ffract f) f 1 (byXf f.xf) (fun k m l => fpFract k m (nAt l 0)) s)
def execFrnd (f : RForm) (s : State) : Out := .next (floatOp (.frnd f) f 1 (byXf f.xf) (fun k m l => fpRound k m (nAt l 0)) s)

/-- A compare of two elements with its flag (R224, R258, R316). -/
def fpCompare (k : Fmt) (ftz : Bool) (xf : BitVec 4) (a0 b0 : Nat) : Bool × Nat :=
  let a := flushIn k ftz a0
  let b := flushIn k ftz b0
  let nan := isNanF k a || isNanF k b
  let snan := isSnan k a || isSnan k b
  let x := fpKey k a
  let y := fpKey k b
  let order := 2 ≤ xf.toNat && xf.toNat ≤ 5
  let fl := if (if order then nan else snan) then flNV else 0
  let r : Bool := match xf.toNat with
    | 0 => !nan && x == y
    | 1 => nan || x != y
    | 2 => !nan && decide (x < y)
    | 3 => !nan && decide (x ≤ y)
    | 4 => !nan && decide (y < x)
    | 5 => !nan && decide (y ≤ x)
    | 6 => !nan
    | _ => nan
  (r, fl)

/-- R316: flushing comes from fmode alone. -/
def execFcmp (f : RForm) (s : State) : Out :=
  .next (compute (.fcmp f) f.dst 1 true (fun s g t =>
    match tyFmt f.h.typ with
    | none => Res.of 0
    | some (k, n) =>
      let ftz := ftzOf s (modeThread g f.dst t) false
      let a := srcVal s t f.h.typ f.a
      let b := srcVal s t f.h.typ f.b
      joinElems 1 ((List.range n).map fun j =>
        let sh := 2 ^ (k.width * j)
        let (r, fl) := fpCompare k ftz f.xf (a / sh % 2 ^ k.width) (b / sh % 2 ^ k.width)
        (if r then 1 else 0, fl))) s)

/-- The class bit of an element (R317). -/
def fpClass (k : Fmt) (x : Nat) : Nat :=
  let neg := signOf k x
  match unpackF k x with
  | .nan sig => if sig then 2 ^ 8 else 2 ^ 9
  | .inf _ => if neg then 2 ^ 0 else 2 ^ 7
  | .zero _ => if neg then 2 ^ 3 else 2 ^ 4
  | .fin _ _ _ =>
    if expOf k x = 0 then (if neg then 2 ^ 2 else 2 ^ 5) else (if neg then 2 ^ 1 else 2 ^ 6)

/-- R317. -/
def execFclass (f : RForm) (s : State) : Out :=
  .next (compute (.fclass f) f.dst 1 false (fun s _ t =>
    match tyFmt f.h.typ with
    | none => Res.of 0
    | some (k, n) =>
      let a := srcVal s t f.h.typ f.a
      joinElems 16 ((List.range n).map fun j => (fpClass k (a / 2 ^ (k.width * j) % 2 ^ k.width), 0))) s)

end Sys2Proof.Machine
end

