-- ==== Sys2Proof/Machine/Convert.lean ====
section
/-! DEFINITION. Conversions, packing and the float mode, flags and seed: opcodes 0x42-0x4B (R318-R328). -/

namespace Sys2Proof.Machine

/-- The element width and format of a float type, binary32 for any other. -/
def fmtOf (ty : Ty) : Fmt := match tyFmt ty with | some (f, _) => f | none => .f32

/-- Element `j` of a value of a float type. -/
def elemOf (ty : Ty) (x j : Nat) : Nat := x / 2 ^ ((fmtOf ty).width * j) % 2 ^ (fmtOf ty).width

/-- The source elements of `cvtf`, in destination order (R319). -/
def cvtfArgs (s : State) (t : TRef) (f : RForm) (src : Ty) : List Nat :=
  let a := srcVal s t src f.a
  match f.h.typ, src with
  | .f32, .f64 | .f64, .f32 => [a]
  | .f32, _ | .f64, _ => [elemOf src a (f.c.num.toNat % 2)]
  | _, .f32 | _, .f64 => [a, srcVal s t src f.c]
  | _, _ => [elemOf src a 0, elemOf src a 1]

/-- R319. -/
def execCvtf (f : RForm) (s : State) : Out :=
  let src := (convSource f.b).getD .f32
  let dst := fmtOf f.h.typ
  .next (computeRound (.cvtf f) f.dst f.h.typ.regs (byXf f.xf) false (fun s _ t rnd =>
    let xs := cvtfArgs s t f src
    joinElems dst.width (xs.zipIdx.map fun e =>
      let (v, fl) := fpConvert (fmtOf src) dst (rnd (xs.length == 2) e.2) e.1
      (fpClamp dst f.dst.clp.toNat v, fl))) s)

/-- A float element to an integer of `w` bits, saturating (R320). -/
def fpToInt (k : Fmt) (m : Rnd) (signed : Bool) (w : Nat) (x0 : Nat) : Nat × Nat :=
  let x := flushIn k m.ftz x0
  let lo : Int := if signed then -(2 ^ (w - 1) : Nat) else 0
  let hi : Int := if signed then (2 ^ (w - 1) : Nat) - 1 else (2 ^ w : Nat) - 1
  match unpackF k x with
  | .nan _ => (0, flNV)
  | .inf neg => (wrap w (if neg then lo else hi), flNV)
  | v =>
    let (y, ix) := fixToInt m.rm m.r k.srBits v.fix
    if hi < y then (wrap w hi, flNV) else if y < lo then (wrap w lo, flNV)
    else (wrap w y, if ix then flNX else 0)

/-- R320. -/
def execCvtfi (f : RForm) (s : State) : Out :=
  let src := (convSource f.b).getD .f32
  let (w, n) := tyElems f.h.typ
  .next (computeRound (.cvtfi f) f.dst f.h.typ.regs (byXf f.xf) false (fun s _ t rnd =>
    let a := srcVal s t src f.a
    joinElems w ((List.range n).map fun j =>
      fpToInt (fmtOf src) (rnd (n == 2) j) (tySigned f.h.typ) w (elemOf src a j))) s)

/-- R321. -/
def execCvtif (f : RForm) (s : State) : Out :=
  let src := (convSource f.b).getD .i32
  let (w, n) := tyElems src
  let dst := fmtOf f.h.typ
  .next (computeRound (.cvtif f) f.dst f.h.typ.regs (byXf f.xf) false (fun s _ t rnd =>
    let a := srcVal s t src f.a
    joinElems dst.width ((List.range n).map fun j =>
      let x := elemInt src w (a / 2 ^ (w * j) % 2 ^ w)
      let (v, fl) := finish dst (rnd (n == 2) j) (Fix.ofInt x 0)
      (fpClamp dst f.dst.clp.toNat v, fl))) s)

/-- One BFP mantissa under a shared exponent (R235, R322): the 32-bit result and the flags. Under E = 255 only a signalling
NaN sets NV (R224; assumption 123). -/
def bfpMantissa (m : Rnd) (signed : Bool) (n e : Nat) (x0 : Nat) : Nat × Nat :=
  let x := flushIn .f32 m.ftz x0
  let lo : Int := if signed then -(2 ^ (n - 1) : Nat) else 0
  let hi : Int := if signed then (2 ^ (n - 1) : Nat) - 1 else (2 ^ n : Nat) - 1
  if e = 255 then (0, match unpackF .f32 x with | .nan true => flNV | _ => 0)
  else
    match unpackF .f32 x with
    | .nan _ => (0, flNV)
    | .inf neg => (wrap 32 (if neg then lo else hi), flNX)
    | v =>
      let (y, ix) := fixToInt m.rm m.r 32 (v.fix.scale (127 - (e : Int) + (n - 1)))
      let c := max lo (min hi y)
      (wrap 32 c, if ix ∨ c ≠ y then flNX else 0)

/-- R322. -/
def execCvtbfp (f : RForm) (s : State) : Out :=
  .next (computeRound (.cvtbfp f) f.dst 1 (byXf f.xf) false (fun s _ t rnd =>
    let (v, fl) := bfpMantissa (rnd false 0) (f.h.typ == .i32) (f.c.num.toNat - 0xA0)
      (srcVal s t f.h.typ f.b % 256) (srcVal s t .f32 f.a)
    ⟨v, [], fl⟩) s)

/-- The shared exponent of a set of values already flushed (R234). -/
def bfpExponent (xs : List Nat) : Nat :=
  if xs.any (isNanF .f32) then 255
  else
    let mag := maxOf (xs.map fun x => x % 2 ^ 31)
    if mag = 0 then 0
    else
      match unpackF .f32 mag with
      | .fin _ n e => (max 0 (min 254 (e + Nat.log2 n + 128))).toNat
      | _ => 254

/-- R323: one exponent over the executing threads; a signalling NaN sets NV in the thread that supplied it. -/
def execBfpexp (f : RForm) (s : State) : Out :=
  .next (issue (.bfpexp f) .normal (fun s g b ts =>
    let read (t : TRef) : Nat :=
      flushIn .f32 (ftzOf s (modeThread g f.dst t) (f.xf.getLsbD 3)) (srcVal s t .f32 f.a)
    let e := bfpExponent (ts.map read)
    let flagged (t : TRef) : Nat := if isSnan .f32 (read t) then flNV else 0
    if f.dst.file = .k then
      let all := if ts.any fun t => flagged t != 0 then flNV else 0
      finishRes f.dst 1 false (fun _ => ⟨e, [], all⟩) s g b ts
    else finishRes f.dst 1 false (fun t => ⟨e, [], flagged t⟩) s g b ts) s)

/-- R324. -/
def execPack (f : RForm) (s : State) : Out :=
  let ty := f.h.typ
  let (sw, sn) := tyElems (packSource ty)
  let (w, _) := tyElems ty
  .next (compute (.pack f) f.dst 1 false (fun s _ t =>
    let elems (x : Nat) : List Int :=
      (List.range sn).map fun j => elemInt (packSource ty) sw (x / 2 ^ (sw * j) % 2 ^ sw)
    let l := elems (srcVal s t (packSource ty) f.a) ++ elems (srcVal s t (packSource ty) f.b)
    Res.of (sumOf (l.zipIdx.map fun e => 2 ^ (w * e.2) * narrow ty f.dst.clp w e.1))) s)

/-- R325. -/
def execUnpack (f : RForm) (s : State) : Out :=
  let (w, n) := tyElems f.h.typ
  .next (compute (.unpack f) f.dst 1 false (fun s _ t =>
    let j := srcVal s t .n32 f.b % n
    Res.of (wrap 32 (elemInt f.h.typ w (srcVal s t f.h.typ f.a / 2 ^ (w * j) % 2 ^ w)))) s)

/-- R326: write fmode and return its old value. -/
def execFrmset (f : IForm) (s : State) : Out :=
  .next (issue (.frmset f) .normal (fun s g _ ts =>
    eachLane g (fun s t =>
      let old := (s.thread t).fmode
      (setV (s.modThread t fun x => { x with fmode := f.imm }) t f.dst.num.toNat old, .done)) s ts) s)

/-- R327: read fflags, then clear the masked bits. -/
def execFflags (f : IForm) (s : State) : Out :=
  .next (issue (.fflags f) .normal (fun s g _ ts =>
    eachLane g (fun s t =>
      let old := (s.thread t).fflags
      (setV (s.modThread t fun x => { x with fflags := old &&& ~~~f.imm }) t f.dst.num.toNat old, .done)) s ts) s)

/-- R328: the lowest lane's value, 0 stored as 1, into the wave's state, or at the end of the cycle into the core's three
states. In checked mode differing values among the group's lanes trap every thread of the group. -/
def execSrseed (f : RForm) (s : State) : Out :=
  .next (issue (.srseed f) .normal (fun s g b ts =>
    let v := srcWord s (lowLane g) f.a
    let all := wholeGroup s g ts
    if b.checked ∧ all.any (fun t => srcWord s t f.a != v) then
      trapWhole s g all 0x05
    else
      let seed : Word := if v = 0 then 1 else v
      let s1 := if b.deterministic then s.modWave g.wave fun w => { w with sr := seed, seeded := some seed }
        else s.modCore b.core fun c => { c with seedNext := some seed }
      ts.foldl advance s1) s)

end Sys2Proof.Machine
end

