-- ==== Sys2Proof/Machine/Matrix.lean ====
section
/-! DEFINITION. Convergence signing, the matrix arrays and the epilogue: opcodes 0xB0-0xB7 and the arrays' own steps
(R35-R37, R118-R137, R395-R397). -/

namespace Sys2Proof.Machine

/-! ### Formats and shapes -/

/-- Activation rows M; 0 stands for 256 (R131). -/
def mxRows (f : MXForm) : Nat := if f.m = 0 then 256 else f.m.toNat

/-- The packing factor of a weight width (R119). -/
def packing (nw : Nat) : Nat := match nw with | 4 => 2 | 2 => 4 | _ => 1

/-- Fields of KZ (R127). -/
def kzNw (kz : Word) : Nat := bits kz 6 4 + 1
def kzNa (kz : Word) : Nat := bits kz 2 0 + 1
def kzOvt (kz : Word) : Bool := kz.getLsbD 8

/-- Bytes of an operand stream (R121, R123): 0 for an operation that reads none when it starts. -/
def streamBytes (op : Nat) (f : MXForm) : Nat :=
  match op with
  | 0 => 16384
  | 5 => 128
  | 2 => 16 * (f.bits.toNat + 1) * mxRows f
  | _ => 0

/-! ### The first signature's checks (R131, R132) -/

/-- The field rules of R131: the TYP, the fields that must be zero, the widths, the guard. Operations: 0 mxwld, 1 mxwsw,
2 mxmul, 3 mxzero, 4 mxdrn, 5 mxperm. -/
def mxFieldsOk (op : Nat) (f : MXForm) : Bool :=
  let drn := op == 4
  (if drn then f.h.typ == .f32 || f.h.typ == .f16x2 || f.h.typ == .bf16x2 || f.h.typ == .i8x4 else f.h.typ == .b32)
    && ([2, 3, 4].contains op || (f.ar == 0 && f.m == 0))
    && ([0, 2, 4, 5].contains op || f.f1 == 0)
    && ((drn && f.acc) || f.f2 == 0)
    && ([0, 2].contains op || (drn && f.h.typ == .i8x4) || f.bits == 0)
    && ([0, 2].contains op || !f.sgn)
    && ([2, 4].contains op || !f.acc)
    && (drn || (f.rm == 0 && f.kx == 0 && f.ky == 0 && f.kz == 0))
    && (!(drn && f.h.typ == .i8x4) || !f.acc) && f.rm != 7
    && (!([0, 2].contains op || (drn && f.h.typ == .i8x4)) || f.bits != 0)
    && f.h.sel == 15 && !f.h.inv

/-- The k values of a drain (R127). -/
def mxKOk (k : List Word) : Bool :=
  let kz := wAt k 2
  bits (wAt k 0) 31 20 == 0 && bits (wAt k 1) 31 20 == 0 && bits kz 31 14 == 0 && bits kz 13 12 != 3 && bits kz 11 9 == 0
    && !kz.getLsbD 7 && bits kz 6 4 != 0 && !kz.getLsbD 3 && bits kz 2 0 != 0

/-- A FIFO that an operation may use, its shape fitting a length. -/
def mxFifoOk (s : State) (b : Block) (n : BitVec 5) (len : Nat) (ok : Fifo → Bool) : Bool :=
  match fifoRef s b n.toNat with
  | .held _ _ x => ok x && len % x.slotBytes == 0
  | _ => false

/-- Stream shapes and accumulator limits (R126, R132). -/
def mxShapeOk (s : State) (b : Block) (op : Nat) (f : MXForm) (k : List Word) : Bool :=
  let m := mxRows f
  match op with
  | 0 | 2 | 5 => mxFifoOk s b f.f1 (streamBytes op f) fun x => x.mxc
  | 3 => f.ar.toNat + m ≤ 256
  | 4 =>
    let p := kzP (wAt k 2)
    let row := rowBytes f.h.typ (128 * p)
    let plain (x : Fifo) : Bool := !x.mxc && !x.eng
    mxFifoOk s b f.f1 row plain && (!f.acc || mxFifoOk s b f.f2 row plain) && f.ar.toNat % p == 0 && f.ar.toNat + p * m ≤ 256
  | _ => true

/-- The trap of a failing first signature. -/
def mxCheck (s : State) (b : Block) (i : Instr) (op : Nat) (f : MXForm) (k : List Word) : Option Trap :=
  let room := b.scratchBytes + b.chanBytes
  if !mxFieldsOk op f then some (illegal i)
  else if op = 4 ∧ !mxKOk k then some (illegal i)
  else if !mxShapeOk s b op f k then some (simpleTrap 0x07)
  else if op = 4 ∧ (room < (wAt k 0).toNat + 128 * kzP (wAt k 2) ∨ room < (wAt k 1).toNat + mxRows f) then
    some (simpleTrap 0x15)
  else none

/-! ### Signing (R36, R118, R134) -/

def modMatrix (s : State) (core : Nat) (f : Matrix → Matrix) : State := s.modCore core fun c => { c with mx := f c.mx }
def mxArray (s : State) (core arr : Nat) : MxArray := ((s.core core).mx.arrays[arr]?).getD .init
def modArray (s : State) (core arr : Nat) (f : MxArray → MxArray) : State :=
  modMatrix s core fun m => { m with arrays := setAt m.arrays arr (f ((m.arrays[arr]?).getD .init)) }

/-- The seed that a drain of deterministic mode latches (R328). -/
def drainSeed (s : State) (b : Block) : Word :=
  match b.waves with
  | w :: _ => (s.wave w).seeded.getD 0x6A09E667
  | [] => 0x6A09E667

/-- Rounds that complete in one cycle enter in ascending register order (R134). -/
def insertOp {α : Type} (op : α → Option MxOp) (y : MxOp) (e : α) (q : List α) : List α :=
  let early (x : α) : Bool := match op x with
    | some x => !(x.cycle == y.cycle && y.cv < x.cv && !x.started)
    | none => true
  q.takeWhile early ++ e :: dropLead early q

/-- An operation enters its array's queue: it issues, and the register's sequence number rises (R36, R134). -/
def enterQueue (s : State) (b : Block) (arr : Nat) (op : MxOp) : State :=
  match (s.block? b.id).bind fun x => x.cvs.find? op.cv with
  | none => s
  | some v =>
    let seq := v.seq + 1
    let s1 := s.modBlock b.id fun x => { x with cvs := x.cvs.modify op.cv fun v => { v with seq := seq } }
    let s2 := modMatrix s1 b.core fun m => { m with mul := m.mul || op.opcode == 2 }
    modArray s2 b.core arr fun a => { a with queue := insertOp some op { op with seq := seq } a.queue }

/-- A round's operation, before it issues. -/
def roundOp (s : State) (v : Cv) (cv : Nat) (f : MXForm) : MxOp :=
  { opcode := v.opcode, f := f, kvals := v.kvals, rm := v.rm, cv := cv, seq := 0, seed := v.seed, signers := v.signers
    cycle := s.cycle, held := false, started := false, row := 0, begun := false, col := 0, exps := [], prior := []
    taken := [], freed := 0, xs := [], out := [], sent := 0, last := none, trap := 0, done := false }

/-- Operations of an array that are queued or wait to enter. -/
def roundsAhead (s : State) (core arr : Nat) : Nat :=
  (mxArray s core arr).queue.length + ((s.core core).mx.waiting.filter fun e => e.1 == arr).length

/-- A round of a register whose last signature waits outside a full queue: it is open, and no other signature is taken. -/
def heldRound (s : State) (core cv : Nat) : Bool := (s.core core).mx.waiting.any fun e => e.2.held && e.2.cv == cv

/-- A round joins those of its array that wait to enter. -/
def addWaiting (s : State) (core arr : Nat) (op : MxOp) : State :=
  let mine (e : Nat × MxOp) : Option MxOp := if e.1 = arr then some e.2 else none
  modMatrix s core fun m => { m with waiting := insertOp mine op (arr, op) m.waiting }

/-- The last signature of a round waits outside a full queue with its thread: it is not taken, and the round stays open (R36,
R134). -/
def holdRound (s : State) (core arr : Nat) (op : MxOp) (t : TRef) : State :=
  setWait (addWaiting s core arr { op with held := true }) t .matrixQueue

/-- A round that has entered in this cycle, and whose last signature can still be taken back: its operation has not started,
its signer has not gone on, and no signature of the next round is there. -/
def takenBack (s : State) (b : Block) (op : MxOp) : Option (TRef × BitVec 64 × Nat) :=
  let open? : Bool := ((s.block? b.id).bind fun x => x.cvs.find? op.cv).any fun v => v.signers == []
  op.signers.getLast?.filter fun e =>
    op.cycle == s.cycle && !op.started && open? && s.alive e.1 && (s.thread e.1).wait.isNone
      && (s.thread e.1).pc == nextPc e.2.1

/-- The round that a lower register's displaces from a full queue, both completing in this cycle: the highest register's
(R134). -/
def displacedRound (s : State) (b : Block) (arr cv : Nat) : Option MxOp :=
  argMax (fun x => x.cv) ((mxArray s b.core arr).queue.filter fun x => cv < x.cv && (takenBack s b x).isSome)

/-- A round's last signature is taken back and waits: the operation leaves the queue and its number is free again. -/
def takeBack (s : State) (b : Block) (arr : Nat) (op : MxOp) : State :=
  match takenBack s b op with
  | none => s
  | some (t, pc, n) =>
    let s1 := modArray s b.core arr fun a => { a with queue := dropFirst (fun x => x.cv == op.cv && x.seq == op.seq) a.queue }
    let cv (v : Cv) : Cv :=
      { v with fields := some op.f, opcode := op.opcode, kvals := op.kvals, rm := op.rm, seed := op.seed
               signers := op.signers.dropLast, seq := v.seq - 1 }
    let s2 := s1.modBlock b.id fun x => { x with cvs := x.cvs.modify op.cv cv }
    let s3 := s2.modThread t fun x =>
      { x with pc := pc, regionPc := pc, mx := x.mx - 1, mxq := x.mxq.filter fun e => e.1 != n }
    holdRound s3 b.core arr op t

/-- Room for a round whose last signature is about to be taken: a full queue gives it that of a round of a higher register of
the same cycle, or none (R134). -/
def queueRoom (s : State) (b : Block) (arr cv : Nat) : Option State :=
  if roundsAhead s b.core arr < 8 then some s
  else (displacedRound s b arr cv).map fun x => takeBack s b arr x

/-- The signatures have reached the declared count: the operation issues; while the clearing for a new holder is under way
it waits for that, and behind those that wait (R118, R134). -/
def completeRound (s : State) (b : Block) (v : Cv) (cv : Nat) (f : MXForm) (t : TRef) : State × Lane :=
  let op := roundOp s v cv f
  let arr := if f.arr then 1 else 0
  let s1 := s.modBlock b.id fun x => { x with cvs := x.cvs.modify cv fun v => { v with signers := [], fields := none } }
  let m := (s1.core b.core).mx
  if m.clear ∨ m.waiting.any fun e => e.1 == arr && !e.2.held then begun t (addWaiting s1 b.core arr op, .done)
  else begun t (enterQueue s1 b arr op, .done)

/-- The matrix state has a new holder: it is about to be cleared, and the epilogue generators hold 1 (R118, R130). -/
def Matrix.taken (m : Matrix) (b : Nat) : Matrix :=
  { m with holder := some b, clear := true, mul := false, arrays := m.arrays.map fun a => { a with gen := 1 } }

/-- Scratch stores of a thread that are not performed yet (R136). -/
def scratchBusy (s : State) (t : TRef) : Bool := s.stores.any fun p => p.t == t && p.tracker == 7 && !p.fin

/-- One thread signs, once its earlier scratch stores are performed (R136). Its block becomes the holder with the first
signature that passes its checks; whether one that fails them takes the state too the rule does not say (R118, R132; the
model's choice, assumption 99). -/
def sign (i : Instr) (op : Nat) (f : MXForm) (b : Block) (s : State) (t : TRef) : State × Lane :=
  let cv := f.cv.toNat
  let s0 := endRegion s t
  let m := (s.core b.core).mx
  let v := (((s.block? b.id).bind fun x => x.cvs.find? cv)).getD ⟨0, none, 0, [], 0, 0, [], 0⟩
  let k := if op = 4 then [kreg s t.wave f.kx.toNat, kreg s t.wave f.ky.toNat, kreg s t.wave f.kz.toNat] else []
  if b.ncv ≤ cv ∨ !b.matrix then (s, .trap (illegal i))
  else if m.holder.isSome ∧ m.holder ≠ some b.id then (s0, .stay .matrixHolder)
  else if heldRound s b.core cv then (s0, .stay .recheck)
  else if v.declared = 0 ∨ v.signers.any fun e => e.1 == t then (s0, .trap (simpleTrap 0x06))
  else
    let fate := if v.fields.isNone then mxCheck s b i op f k
      else if v.fields = some f ∧ v.opcode = op ∧ v.kvals = k then none else some (simpleTrap 0x06)
    match fate with
    | some x => (s0, .trap x)
    | none =>
      if counterFull (s.thread t).mx then (s0, .stay (.counterRoom 3))
      else if scratchBusy s t then (s0, .stay .recheck)
      else
        let rm := if f.rm = 0 then (s.thread t).fmode.extractLsb' 0 3 else f.rm
        let first := v.fields.isNone
        let signed (n : Nat) : Cv :=
          { v with fields := some f, opcode := op, kvals := k, rm := if first then rm else v.rm
                   seed := if first then drainSeed s b else v.seed, signers := v.signers ++ [(t, (s.thread t).pc, n)] }
        let last := v.signers.length + 1 = v.declared
        let arr := if f.arr then 1 else 0
        match (if last then queueRoom s0 b arr cv else some s0) with
        | none => (holdRound s0 b.core arr (roundOp s0 (signed 0) cv f) t, .moved)
        | some s1 =>
          let (n, s2) := (if m.holder.isNone then modMatrix s1 b.core (·.taken b.id) else s1).tickSeq
          let s3 := s2.modThread t fun x => { x with mx := x.mx + 1, mxq := x.mxq ++ [(n, false)] }
          let s4 := s3.modBlock b.id fun x => { x with cvs := x.cvs.put cv (signed n) }
          if last then completeRound s4 b (signed n) cv f t else begun t (s4, .done)

def signAll (i : Instr) (op : Nat) (f : MXForm) (s : State) : State :=
  issue i .matrix (fun s g b ts => eachLane g (sign i op f b) s ts) s

def execMxwld (f : MXForm) (s : State) : Out := .next (signAll (.mxwld f) 0 f s)
def execMxwsw (f : MXForm) (s : State) : Out := .next (signAll (.mxwsw f) 1 f s)
def execMxmul (f : MXForm) (s : State) : Out := .next (signAll (.mxmul f) 2 f s)
def execMxzero (f : MXForm) (s : State) : Out := .next (signAll (.mxzero f) 3 f s)
def execMxdrn (f : MXForm) (s : State) : Out := .next (signAll (.mxdrn f) 4 f s)
def execMxperm (f : MXForm) (s : State) : Out := .next (signAll (.mxperm f) 5 f s)

/-- R396: once for the group. -/
def execCvset (f : SForm) (s : State) : Out :=
  .next (issue (.cvset f) .normal (fun s g b ts =>
    let n := bits f.imm 3 0
    let count := bits f.imm 13 4
    let v := (b.cvs.find? n).getD ⟨0, none, 0, [], 0, 0, [], 0⟩
    if b.ncv ≤ n ∨ (blockThreads s b).length < count then ts.foldl (fun s t => trapAt s t (illegal (.cvset f))) s
    else if v.signers ≠ [] then ts.foldl (fun s t => trapAt s t (simpleTrap 0x06)) s
    else
      let s1 := (ts.foldl endRegion s).modBlock b.id fun x => { x with cvs := x.cvs.put n { v with declared := count } }
      eachLane g (fun s t => begun t (s, .done)) s1 ts) s)

/-- R397. -/
def execCvstat (f : SForm) (s : State) : Out :=
  .next (issue (.cvstat f) .normal (fun s g b ts =>
    let n := bits f.imm 3 0
    if b.ncv ≤ n then ts.foldl (fun s t => trapAt s t (illegal (.cvstat f))) s
    else
      let v := (b.cvs.find? n).getD ⟨0, none, 0, [], 0, 0, [], 0⟩
      eachLane g (fun s t =>
        let signed := if v.signers.any fun e => e.1 == t then 2 ^ 10 else 0
        (setVs s t f.dst.num.toNat [d (v.seq.toNat * 2 ^ 16 + v.signers.length), d (v.declared + signed)], .done)) s ts) s)

/-! ### Operations on the arrays -/

/-- A weight of output column `n` in K row `k` of a plane (R119). -/
def planeWeight (p : Plane) (k n : Nat) : Int :=
  let w := 8 / packing p.nw
  let v := (p.cells.get 0 (128 * k + n % 128)).toNat / 2 ^ (w * (n / 128)) % 2 ^ w
  if p.sgn then sgn w v else v

/-- Mantissa `k` of activation row `m` in a stream of width `a` (R123). -/
def activation (bs : List Byte) (a : Nat) (signed : Bool) (m k : Nat) : Int :=
  let v := sumOf ((List.range a).map fun b =>
    if (bs.getD (16 * a * m + 16 * b + k / 8) 0).getLsbD (k % 8) then 2 ^ b else 0)
  if signed then sgn a v else v

def accMax : Int := 2 ^ 39 - 1

/-- One accumulator takes a row sum, with saturation (R124). -/
def accumulate (add : Bool) (a : MxArray) (row e : Nat) (x : Int) : MxArray :=
  let v := if add then (a.acc.get 0 (128 * row + e)).toInt + x else x
  let c := max (-accMax) (min accMax v)
  { a with acc := a.acc.set 0 (128 * row + e) (BitVec.ofInt 40 c), ovf := if c ≠ v then a.ovf.set false row true else a.ovf }

/-- The multiply (R124). -/
def multiply (a : MxArray) (f : MXForm) (bs : List Byte) : MxArray :=
  let p := packing a.active.nw
  let width := f.bits.toNat + 1
  (List.range (mxRows f)).foldl (fun arr m =>
    let acts := (List.range 128).map (activation bs width f.sgn m)
    (List.range (128 * p)).foldl (fun arr n =>
      let s := (acts.zipIdx).foldl (fun s e => s + e.1 * planeWeight a.active e.2 n) 0
      accumulate f.acc arr (f.ar.toNat + p * m + n / 128) (n % 128) s) arr) a

/-- A plane's cells from its bytes. -/
def cellsOf (bs : List Byte) : Table Byte := (bs.zipIdx.filter fun e => e.1 != 0).map fun e => (e.2, e.1)

/-- A permutation plane's cells (R122). -/
def permCells (bs : List Byte) : Table Byte := bs.zipIdx.foldl (fun c e => c.put (128 * e.1.toNat + e.2) 1) []

/-- Pop a slot of a FIFO: its number and its bytes (R65). -/
def popSlot (s : State) (b : Block) (num : Nat) : Option (State × Nat × List Byte) :=
  match fifoRef s b num with
  | .held o i x =>
    let home := (s.block? o).getD b
    some (modFifo s o i Fifo.pop, x.head,
      toBytes x.slotBytes (scratchRead s home.core (home.scratchOff + x.base + x.slotBytes * x.head) x.slotBytes))
  | _ => none

/-- Release a popped slot of a FIFO. -/
def freeSlot (b : Block) (num : Nat) (s : State) (slot : Nat) : State :=
  match fifoRef s b num with
  | .held o i _ => modFifo s o i fun x => x.release slot
  | _ => s

/-- Pop and release whole slots of a FIFO, `n` of them, with their bytes (R65, R66). -/
def takeSlots (s : State) (b : Block) (num : Nat) : Nat → State × List Byte
  | 0 => (s, [])
  | n + 1 =>
    match popSlot s b num with
    | some (s1, slot, bs) => let (s2, rest) := takeSlots (freeSlot b num s1 slot) b num n; (s2, bs ++ rest)
    | none => (s, [])

/-- Slots a stream occupies in its FIFO, if all of them are FILLED. -/
def streamReady (s : State) (b : Block) (op : MxOp) : Option Nat :=
  let len := streamBytes op.opcode op.f
  if len = 0 then some 0
  else
    match fifoRef s b op.f.f1.toNat with
    | .held _ _ x => if len ≤ x.filled * x.slotBytes then some (len / x.slotBytes) else none
    | _ => none

/-- The rows of an operation under a packing lie in the accumulator file (R126). -/
def rowsFit (ar p m : Nat) : Bool := ar % p == 0 && ar + p * m ≤ 256

/-- An operation's effect when it starts; a drain only reads its exponents (R122, R124, R126, R127, R130). -/
def startOp (s : State) (b : Block) (arr : Nat) (op : MxOp) (slots : Nat) : State × MxOp :=
  let (s1, bs) := takeSlots s b op.f.f1.toNat slots
  let a := mxArray s1 b.core arr
  let f := op.f
  let fin : MxOp := { op with started := true, done := true }
  let set (x : MxArray) : State := modArray s1 b.core arr fun y => { x with queue := y.queue }
  match op.opcode with
  | 0 => (set { a with shadow := ⟨true, f.bits.toNat + 1, f.sgn, cellsOf bs⟩ }, fin)
  | 1 => (set { a with active := a.shadow, shadow := a.active }, fin)
  | 2 =>
    if !a.active.valid || !rowsFit f.ar.toNat (packing a.active.nw) (mxRows f) then (s1, { fin with trap := 0x07 })
    else (set (multiply a f bs), fin)
  | 3 =>
    let inside (r : Nat) : Bool := f.ar.toNat ≤ r && r < f.ar.toNat + mxRows f
    (set { a with acc := a.acc.filter fun e => !inside (e.1 / 128), ovf := a.ovf.filter fun e => !inside e.1 }, fin)
  | 4 =>
    let n := 128 * kzP (wAt op.kvals 2)
    let rd (off len : Nat) : List Byte := toBytes len (scratchRead s1 b.core (b.scratchOff + off) len)
    let exps := rd (bits (wAt op.kvals 0) 19 0) n ++ rd (bits (wAt op.kvals 1) 19 0) (mxRows f)
    let g := op.seed ^^^ d (op.cv * 2 ^ 16 + op.seq.toNat)
    let s2 := if b.deterministic then modArray s1 b.core arr fun a => { a with gen := if g = 0 then 1 else g } else s1
    (s2, { op with started := true, exps := exps })
  | _ =>
    if bs.any fun x => x.getLsbD 7 then (s1, { fin with trap := 0x08 })
    else (set { a with shadow := ⟨true, 8, true, permCells bs⟩ }, fin)

/-! ### The epilogue (R128-R130) -/

/-- The prior of an element, widened to f32. -/
def priorAt (ty : Ty) (bs : List Byte) (n : Nat) : Nat :=
  match ty with
  | .f32 => ofBytes ((bs.drop (4 * n)).take 4)
  | .f16x2 => (fpConvert .f16 .f32 .rne (ofBytes ((bs.drop (2 * n)).take 2))).1
  | _ => (fpConvert .bf16 .f32 .rne (ofBytes ((bs.drop (2 * n)).take 2))).1

/-- x of one element (R128): `a` the accumulator, `e` the exponents, `m` the rounding. -/
def drainElem (m : Rnd) (a : Int) (ea ew na nw : Nat) (prior : Option Nat) : Nat :=
  if ea = 255 ∨ ew = 255 then 0x7FC00002
  else
    let t1 := (finish .f32 m (Fix.ofInt a ((ea : Int) + ew - 254 - (na - 1) - (nw - 1)))).1
    match prior with
    | none => t1
    | some p =>
      if isNanF .f32 p then 0x7FC00001
      else
        match unpackF .f32 t1, unpackF .f32 p with
        | .inf x, .inf y => if x = y then t1 else 0x7FC00003
        | _, _ => (fpAdd .f32 m t1 p).1

/-- An output element's bytes (R129, R240). -/
def drainOut (ty : Ty) (m : Rnd) (x : Nat) : List Byte :=
  let half (f : Fmt) : List Byte :=
    let cause := if isNanF .f32 x then x % 4 else 0
    toBytes 2 ((if isNanF .f32 x then f.canonical else (fpConvert .f32 f { m with r := srElement (d m.r) true 0 } x).1) ||| cause)
  match ty with
  | .f32 => toBytes 4 x
  | .f16x2 => half .f16
  | _ => half .bf16

/-- The holder of a core's matrix state. -/
def mxHolder (s : State) (core : Nat) : Option Block := (s.core core).mx.holder.bind s.block?

def MxOp.rnd (op : MxOp) (w : Word) : Rnd := { rm := op.rm.toNat, r := w.toNat, ftz := false, scl := 0 }

/-- The next 64 elements of a drain's row (R128, R130): the generator advances once before them; each with its word. -/
def drainCycle (a : MxArray) (op : MxOp) : Word × List (Nat × Word) :=
  let kz := wAt op.kvals 2
  let g := xorshift a.gen
  let ea := (op.exps.getD (op.cols + op.row) 0).toNat
  let elem (i : Nat) : Nat × Word :=
    let j := op.col + i
    let w := g.rotateLeft (i % 32)
    let acc := (a.acc.get 0 (128 * (op.f.ar.toNat + kzP kz * op.row + j / 128) + j % 128)).toInt
    (drainElem (op.rnd w) acc ea (op.exps.getD j 0).toNat (kzNa kz) (kzNw kz)
      (if op.f.acc then some (priorAt op.f.h.typ op.prior j) else none), w)
  (g, (List.range 64).map elem)

/-- A block-format row of its elements (R129). -/
def bfpRow (op : MxOp) (xs : List (Nat × Word)) : List Byte :=
  let e := bfpExponent (xs.map Prod.fst)
  xs.map (fun x => BitVec.ofNat 8 (bfpMantissa (op.rnd x.2) true (op.f.bits.toNat + 1) e x.1).1)
    ++ [BitVec.ofNat 8 e] ++ List.replicate 63 0

/-- A drain with 64 further elements of its row. -/
def MxOp.add (op : MxOp) (xs : List (Nat × Word)) : MxOp :=
  let col := op.col + 64
  if op.f.h.typ = .i8x4 then
    { op with col := col, xs := op.xs ++ xs, out := if op.cols ≤ col then bfpRow op (op.xs ++ xs) else [] }
  else { op with col := col, out := op.out ++ xs.flatMap fun x => drainOut op.f.h.typ (op.rnd x.2) x.1 }

/-- Whether a row may begin (R130): its output has room, and its prior stands in F2, as far as the rings hold a row
(DEDUCED; assumption 115): what waits, waits at an output-row boundary (R139). -/
def rowReady (s : State) (b : Block) (op : MxOp) : Bool :=
  (match fifoRef s b op.f.f1.toNat with
   | .held o i x => min (op.rowLen / x.slotBytes) x.count + drainKeeps true s o i ≤ x.free
   | _ => false)
  && (!op.f.acc || match fifoRef s b op.f.f2.toNat with
      | .held o i x => min (op.rowLen / x.slotBytes) x.count + drainKeeps false s o i ≤ x.filled
      | _ => false)

/-- Pop `n` prior slots of a drain. -/
def takePriors (b : Block) (n : Nat) (r : State × MxOp) : State × MxOp :=
  (List.range n).foldl (fun r _ =>
    match popSlot r.1 b r.2.f.f2.toNat with
    | some p => (p.1, { r.2 with prior := r.2.prior ++ p.2.2, taken := r.2.taken ++ [p.2.1] })
    | none => r) r

/-- A row begins: the prior row is popped from F2 with it, as far as the ring holds it (R130). -/
def beginRow (s : State) (b : Block) (op : MxOp) : State × MxOp :=
  let n := match fifoRef s b op.f.f2.toNat with
    | .held _ _ x => if op.f.acc then min (op.rowLen / x.slotBytes) x.count else 0
    | _ => 0
  takePriors b n (s, { op with begun := true })

/-- Prior slots that every element reading them has passed are released (R130). -/
def freePriors (s : State) (b : Block) (op : MxOp) : State × MxOp :=
  match fifoRef s b op.f.f2.toNat with
  | .held _ _ x =>
    let n := op.col * (op.rowLen / op.cols) / x.slotBytes - op.freed
    ((op.taken.take n).foldl (freeSlot b op.f.f2.toNat) s, { op with taken := op.taken.drop n, freed := op.freed + n })
  | _ => (s, op)

/-- Whether a whole output slot of a drain is computed. -/
def slotReady (s : State) (core : Nat) (op : MxOp) : Bool :=
  match (mxHolder s core).map fun b => fifoRef s b op.f.f1.toNat with
  | some (.held _ _ x) => op.out != [] && x.slotBytes ≤ op.out.length
  | _ => false

/-- A step of a drain within its row: the row begun, with its prior; a further prior slot of a ring smaller than a row; or a
cycle of 64 elements; none while it waits. -/
def drainStep (core arr : Nat) (r : State × MxOp) : Option (State × MxOp) :=
  let (s, op) := r
  match mxHolder s core with
  | none => none
  | some b =>
    if op.done ∨ mxRows op.f ≤ op.row ∨ slotReady s core op then none
    else if !op.begun then if rowReady s b op then some (beginRow s b op) else none
    else if op.cols ≤ op.col then none
    else if op.f.acc ∧ op.prior.length < (op.col + 64) * (op.rowLen / op.cols) then
      match fifoRef s b op.f.f2.toNat with
      | .held _ _ x =>
        if x.filled = 0 then none else some (takePriors b 1 (s, op))
      | _ => none
    else
      let (g, xs) := drainCycle (mxArray s core arr) op
      let s1 := modArray s core arr fun a => { a with gen := g }
      some (if op.f.acc then freePriors s1 b (op.add xs) else (s1, op.add xs))

/-- One output slot is reserved, written and committed as a `cbpush` is: a cluster-scope release before it (R130, R136). -/
def drainSlot (s : State) (core : Nat) (op : MxOp) : Option (State × MxOp) :=
  match (mxHolder s core).map fun b => (b, fifoRef s b op.f.f1.toNat) with
  | some (b, .held o i x) =>
    if x.free = 0 ∨ !slotReady s core op then none
    else
      let home := (s.block? o).getD b
      let k := x.slotBytes
      let s1 := wakeBarriers (scratchWrite s home.core (home.scratchOff + x.base + k * x.tail) (op.out.take k)) o
      let s2 := (raceRelease (releaseCaches s1 core .cluster).1 b.id .cluster).1
      let s3 := modFifo s2 o i fun y => (y.reserve none).commit x.tail
      let op1 := { op with out := op.out.drop k, sent := op.sent + 1, last := some x.tail }
      let whole : Bool := op.cols ≤ op1.col && op1.out == []
      some (s3, if whole then { op1 with row := op.row + 1, begun := false, col := 0, prior := [], taken := [], freed := 0
                                         xs := [], sent := 0 } else op1)
  | _ => none

/-- Whether the last slot of a drain has been counted FILLED (R65, R136). -/
def lastCounted (s : State) (b : Block) (op : MxOp) : Bool :=
  match fifoRef s b op.f.f1.toNat with
  | .held _ _ x => !x.resv.any fun e => op.last == some e.1 && e.2.1 && e.2.2.isNone
  | _ => true

/-- Whether any accumulator row a drain read overflowed (R128). -/
def drainOverflow (a : MxArray) (op : MxOp) : Bool :=
  let p := kzP (wAt op.kvals 2)
  (List.range (p * mxRows op.f)).any fun i => a.ovf.get false (op.f.ar.toNat + i)

def setHead (s : State) (core arr : Nat) (op : MxOp) : State :=
  modArray s core arr fun a => { a with queue := op :: a.queue.drop 1 }

/-! ### The arrays' steps -/

/-- R118: every accumulator, overflow bit and plane is cleared. -/
def execMatrixStateClear (core : Nat) (s : State) : Out :=
  .next (if (s.core core).mx.clear then
      modMatrix s core fun m =>
        { m with clear := false
                 arrays := m.arrays.map fun a => { MxArray.init with queue := a.queue, gen := a.gen } }
    else s)

/-- R118: the state is free, and signatures waiting on another holder go on. -/
def execMatrixHolderFree (core : Nat) (s : State) : Out :=
  .next (if (s.core core).mx.holder.isNone then
      let ts := (s.blocks.filter fun b => b.core == core).flatMap (blockAlive s)
      ts.foldl (fun s t => if (s.thread t).wait = some .matrixHolder then clearWait s t else s) s
    else s)

/-- A round whose last signature waited issues with it: the signature is taken, MX rises, and the signer goes on (R36,
R134). -/
def lastSigns (s : State) (b : Block) (arr : Nat) (op : MxOp) (t : TRef) (pc : BitVec 64) : State :=
  let (n, s1) := s.tickSeq
  let s2 := s1.modThread t fun x => { x with mx := x.mx + 1, mxq := x.mxq ++ [(n, false)] }
  let s3 := s2.modBlock b.id fun x => { x with cvs := x.cvs.modify op.cv fun v => { v with signers := [], fields := none } }
  release1 (enterQueue s3 b arr { op with held := false, cycle := s.cycle, signers := op.signers.dropLast ++ [(t, pc, n)] }) t

/-- R118, R134: once the state is cleared, a completed round enters the queue that has room; one whose last signature waited
takes it, unless its signer waits no more. -/
def execMatrixQueueRoom (core arr : Nat) (s : State) : Out :=
  .next (
    let m := (s.core core).mx
    match m.waiting.find? (fun e => e.1 == arr), mxHolder s core with
    | some e, some b =>
      if m.clear ∨ 8 ≤ (mxArray s core arr).queue.length then s
      else
        let s1 := modMatrix s core fun m => { m with waiting := dropFirst (fun x => x.1 == arr) m.waiting }
        if !e.2.held then enterQueue s1 b arr e.2
        else
          match e.2.signers.getLast? with
          | some (t, pc, _) =>
            if s1.alive t ∧ (s1.thread t).wait = some .matrixQueue then lastSigns s1 b arr e.2 t pc else s1
          | none => s1
    | _, _ => s)

/-- R135: the oldest operation starts once its stream is present; rounds of the cycle in which its own completed may still
enter before it (R134). -/
def execMatrixOperationStart (core arr : Nat) (s : State) : Out :=
  .next (
    match (mxArray s core arr).queue, mxHolder s core with
    | op :: _, some b =>
      if op.started ∨ (s.core core).mx.clear ∨ b.halted ∨ s.cycle ≤ op.cycle then s
      else
        match streamReady s b op with
        | none => s
        | some n => let (s1, op1) := startOp s b arr op n; setHead s1 core arr op1
    | _, _ => s)

/-- R130: a started drain goes on, to its next output slot at most; with its last row written its effect is complete. -/
def drainForward (core arr : Nat) (s : State) : State :=
    match (mxArray s core arr).queue with
    | op :: _ =>
      if !op.started ∨ op.opcode ≠ 4 ∨ op.done then s
      else
        let r := iterWhile (drainStep core arr) (rowBytes op.f.h.typ 512 + 2) (s, op)
        let (s1, op1) := (drainSlot r.1 core r.2).getD r
        let fin : Bool := mxRows op1.f ≤ op1.row
        let owed : BitVec 8 := if kzOvt (wAt op1.kvals 2) && drainOverflow (mxArray s1 core arr) op1 then 0x1B else 0
        setHead s1 core arr (if fin then { op1 with done := true, trap := owed } else op1)
    | [] => s

def execDrainRow (core arr : Nat) (s : State) : Out := .next (drainForward core arr s)

/-- One signer's counter falls in issue order, and the trap of a failed operation is owed to it (R38, R133, R136). A
signature of an earlier item is none of the present item's (R196). -/
def countMatrix (op : MxOp) (s : State) (e : TRef × BitVec 64 × Nat) : State :=
  let (t, pc, n) := e
  if !s.alive t then s
  else
    let x := s.thread t
    let stale := (x.mxq.take x.staleMx).any fun q => q.1 == n
    let q := x.mxq.map fun q => if q.1 = n then (n, true) else q
    let rest := dropLead (fun q => q.2) q
    let fell := q.length - rest.length
    let fromStale := min fell x.staleMx
    s.modThread t fun x =>
      { x with mxq := rest, staleMx := x.staleMx - fromStale, mx := x.mx - (fell - fromStale)
               mxTraps := if op.trap = 0 ∨ stale then x.mxTraps else x.mxTraps ++ [⟨op.trap, pc, op.cv, op.seq.toNat⟩] }

/-- Whether the oldest operation of an array is complete: its effect, and for a drain its last slot counted (R136). -/
def headComplete (s : State) (core arr : Nat) : Bool :=
  match (mxArray s core arr).queue, mxHolder s core with
  | op :: _, some b => op.done && (op.opcode != 4 || lastCounted s b op)
  | op :: _, none => op.done
  | [], _ => false

/-- R135, R136: the oldest operation completes, and its queue entry frees; that a started operation holds its entry until
then the spec does not say (R134; the model's choice, assumption 98). -/
def completeOp (core arr : Nat) (s : State) : State :=
    match (mxArray s core arr).queue with
    | op :: _ =>
      if !headComplete s core arr then s
      else
        let s1 := modArray s core arr fun a => { a with queue := a.queue.drop 1 }
        let s2 := op.signers.foldl (countMatrix op) s1
        match (s2.core core).mx.holder.bind (tryBlockEnd s2) with
        | some (s3, e) => effects s3 e
        | none => s2
    | [] => s

def execMatrixOperationComplete (core arr : Nat) (s : State) : Out := .next (completeOp core arr s)

/-- R133: taken before the thread's next issue, as a deferred trap. -/
def execMatrixTrapDelivery (wave lane : Nat) (s : State) : Out :=
  .next (
    let t : TRef := ⟨wave, lane⟩
    if !s.alive t then s
    else
      match (s.thread t).mxTraps with
      | [] => s
      | x :: rest =>
        let s1 := s.modThread t fun y => { y with mxTraps := rest }
        effects s1 [.trap t ⟨x.code, x.pc, q (x.cv + 2 ^ 16 * x.seq), true, 0⟩ (s.thread t).pc])

end Sys2Proof.Machine
end

