-- ==== Sys2Proof/Machine/Template.lean ====
section
/-! DEFINITION. Frozen templates, procedural fills and phase boundaries: opcodes 0xE0-0xE5 and the stamping of items
(R191-R202, R206-R217, R398-R402). -/

namespace Sys2Proof.Machine

/-! ### freeze and nest (R193, R201, R398, R399) -/

/-- The program counter of the slot after, where items begin (R193). -/
def resumePoint (s : State) (t : TRef) : BitVec 64 := nextPc (s.thread t).pc

/-- The template a thread's context makes: its registers below a top, condition bits, E, fmode, its wave's k registers
(R193, R201, R227). -/
def capture (s : State) (t : TRef) (b : Block) (level top id : Nat) (segment : Table (BitVec 512)) (subs : Nat) : Template :=
  let x := s.thread t
  let regs : Table Word := ((List.range top).map fun n => (n, vreg s t n)).filter fun e => e.2 != 0
  { id := id, launch := b.launch, level := level, range := top, v := regs, cond := x.cond, e := x.e, fmode := x.fmode
    k := (s.wave t.wave).k, resume := resumePoint s t, segment := segment
    parent := if level = 1 then none else x.tpl, coord := b.coord, stage := b.stage, subs := subs, next := 0, live := 0 }

/-- A thread that has ended its item, or its part as prologue, is free (R195): contexts and private granules go. -/
def freeThread (s : State) (t : TRef) : State :=
  s.modThread t fun x =>
    { x.noContexts with stamp := .free, wait := none, granules := [], nest := none, mxTraps := [] }

/-- The first-level `freeze` (R193): the launch has its template, and its unstamped threads are free. -/
def freezeFirst (s : State) (t : TRef) (b : Block) : State :=
  let id := s.nextTpl + 1
  let y := capture s t b 1 (vRange s t.wave) id (s.thread t).granules 0
  let s1 := { s with templates := s.templates ++ [y], nextTpl := id }
  let s2 := s1.modLaunch b.launch fun l => { l with tpl := some id }
  let ts := (launchBlocks s2 b).flatMap fun x => (blockAlive s2 x).filter fun u => (s2.thread u).stamp == .unstamped
  ts.foldl freeThread (freeThread s2 t)

/-- The cores of a thread's cluster. -/
def clusterCores (s : State) (b : Block) : List Nat := ((clusterBlocks s b).map fun x => x.core).eraseDups

/-- The second-level `freeze` (R201): one bank entry on every core of the cluster, and the parent item ends. -/
def freezeSecond (s : State) (t : TRef) (b : Block) (n : Nat) : State :=
  let id := s.nextTpl + 1
  let below := (s.thread t).tpl.bind s.tpl?
  let top := max (vRange s t.wave) ((below.map fun y => y.range).getD 0)
  let segment := (s.thread t).granules.foldl (fun m e => Table.put m e.1 e.2) ((below.map fun y => y.segment).getD [])
  let y := capture s t b 2 top id segment n
  let s1 := { s with templates := s.templates ++ [y], nextTpl := id }
  let s2 := (clusterCores s1 b).foldl (fun s c => s.modCore c fun x => { x with banks := x.banks ++ [(b.launch, id)] }) s1
  freeThread (endItem s2 t) t

/-- An entry that is neither held nor reserved (R203). -/
def bankFree (s : State) (core : Nat) : Bool := (heldBanks s core).length < 8

def freezeLane (f : RForm) (b : Block) (s : State) (t : TRef) : State × Lane :=
  let x := s.thread t
  let first := x.stamp == .prologue
  if b.gen ∨ !(first || (x.stamp == .item && x.tlevel == 1 && x.nest.isSome)) then (s, .trap (illegal (.freeze f)))
  else
    let s1 := endRegion s t
    if x.ld ≠ 0 ∨ x.st ≠ 0 ∨ x.cp ≠ 0 ∨ x.mx ≠ 0 then (s1, .stay .recheck)
    else
      let s2 := s1.modThread t Thread.noContexts
      if !first && !((clusterCores s2 b).all (bankFree s2)) then (s2, .stay .bankEntry) else
      match doRelease s2 t .device with
      | (s3, .error e) => stopLane s3 t e
      | (s3, .ok _) =>
        let s4 := if first then freezeFirst s3 t b else freezeSecond s3 t b (x.nest.getD 0)
        (settleOf s4 t, .moved)

def execFreeze (f : RForm) (s : State) : Out :=
  .next (issue (.freeze f) .normal (fun s g b ts => eachLane g (freezeLane f b) s ts) s)

def nestLane (f : IForm) (b : Block) (s : State) (t : TRef) : State × Lane :=
  let x := s.thread t
  if b.gen ∨ x.stamp ≠ .item ∨ x.tlevel ≠ 1 ∨ x.nest.isSome ∨ f.imm = 0 then (s, .trap (illegal (.nest f)))
  else (s.modThread t fun x => { x with nest := some f.imm.toNat }, .done)

def execNest (f : IForm) (s : State) : Out :=
  .next (issue (.nest f) .normal (fun s g b ts => eachLane g (nestLane f b) s ts) s)

/-! ### Stamping (R195, R196, R202) -/

/-- The first frozen second-level template of a cluster with a sub-item left. -/
def openSecond (s : State) (b : Block) : Option Template :=
  s.templates.find? fun y => y.launch == b.launch && y.level == 2 && y.coord == b.coord && y.stage == b.stage && y.next < y.subs

/-- Stamp a thread from a template (R196, R227): what its earlier items still have in flight lowers no counter. -/
def stampThread (s : State) (t : TRef) (y : Template) (item : Nat) : State :=
  let s0 := doAcquireAll s t
  let s1 := s0.modThread t fun x =>
    { x with stamp := if y.level = 1 then .item else .subitem
             pc := y.resume, e := y.e, cond := y.cond, fmode := y.fmode, fflags := 0
             mapped := BitVec.ofNat 256 (2 ^ y.range - 1), tpl := some y.id, item := q item, tlevel := y.level
             nest := none, granules := [], wait := none, readyAt := s.cycle, entry := .none
             ld := 0, st := 0, cp := 0, mx := 0
             staleSt := x.staleSt + x.st, staleCp := x.staleCp + x.cp, staleMx := x.staleMx + x.mx }
  let s2 := if (s1.wave t.wave).kLoaded then s1
    else s1.modWave t.wave fun w => { w with k := y.k, kMask := [], kPartial := 0, kLoaded := true }
  beginRegion s2 t y.resume

/-- A free thread takes a sub-item of its cluster, else the next item, else it ends (R195, R202). -/
def execStampItem (wave lane : Nat) (s : State) : Out :=
  .next (
    let t : TRef := ⟨wave, lane⟩
    match s.threadBlock? t with
    | none => s
    | some b =>
      if !s.alive t ∨ (s.thread t).stamp ≠ .free ∨ b.halted then s
      else
        match openSecond s b, s.launch? b.launch with
        | some y, _ =>
          let s1 := s.modTpl y.id fun y => { y with next := y.next + 1, live := y.live + 1 }
          let s2 := s1.modLaunch b.launch fun l => { l with itemsLive := l.itemsLive + 1 }
          stampThread s2 t y y.next
        | none, some l =>
          (match nextItem s b l t, l.tpl.bind s.tpl? with
           | some i, some y =>
             let s1 := s.modLaunch b.launch fun l => { l with itemNext := l.itemNext + 1, itemsLive := l.itemsLive + 1 }
             stampThread (s1.modThread t fun x => { x with taken := x.taken + 1 }) t y i
           | _, _ => endThread s t)
        | none, none => endThread s t)

/-- R201: an entry of a core is free, and a second-level `freeze` waiting for one tests again. -/
def execTemplateBankEntryFree (core : Nat) (s : State) : Out :=
  .next (if bankFree s core then
      let ts := s.blocks.flatMap fun b => if (clusterCores s b).contains core then blockAlive s b else []
      ts.foldl (fun s t => if (s.thread t).wait = some .bankEntry then clearWait s t else s) s
    else s)

/-! ### Procedural fills (R209, R211, R217, R400, R401) -/

/-- A saved waiter of a completed fill wakes at restore (R209). -/
def readySaved (i b : Nat) (x : Thread) : Thread := if x.wait = some (.fill i b) then { x with wait := some .fillReady } else x

/-- A waiter of a completed fill wakes with an acquire over all paths and touches again (R101, R209). -/
def wakeWaiter (i b : Nat) (s : State) (w : Waiter) : State :=
  match w with
  | .wave w =>
    let s1 := (waveThreads s w).foldl (fun s t =>
      if (s.thread t).wait = some (.fill i b) then clearWait (doAcquireAll s t) t else s) s
    mapSaved (readySaved i b) w s1
  | .copy c n =>
    let waits (r : CopyReq) : Bool := r.seq == n && r.parked == some (.fill i b)
    s.modCtx c fun x => { x with reqs := mapIf waits (fun r => { r with parked := none }) x.reqs }

/-- A fill completes: FILLED, and every waiter wakes; a flush held for it goes on (R366). -/
def completeFill (s : State) (f : Fill) : State :=
  let s1 := { s with fills := s.fills.filter fun x => !(x.part == f.part && x.region == f.region && x.block == f.block) }
  let hold (x : Block) (t : TRef) (w : Wait) : Bool :=
    x.part == f.part && w == .fill f.region f.block && f.waiters.contains (.wave t.wave)
  let s2 := freeHolds (setFill s1 f.part f.region f.block 2) hold none
  wakeHeld (f.waiters.foldl (wakeWaiter f.region f.block) s2) f.part f.region f.block

/-- Accesses of a generator's threads that had issued at an order number and are not performed, and copies they had kicked
that have not retired (R400). -/
def itemBusy (s : State) (b : Block) (n : Nat) : Bool :=
  s.loads.any (fun l => b.waves.contains l.t.wave && !l.live && l.seq ≤ n)
    || s.stores.any (fun p => b.waves.contains p.t.wave && !p.fin && p.seq ≤ n)
    || (allReqs s).any fun r => r.block == b.id && !r.retired && r.order ≤ n

/-- `fillend` issues: every write of the item so far, its other threads' open regions included, is the release's. Answers
the order number of its issue. -/
def fillendStart (s : State) (b : Block) (ts : List TRef) : Nat × State :=
  let s1 := (blockAlive s b).foldl commitSpec (ts.foldl endRegion s)
  let (n, s2) := s1.tickSeq
  (n, s2.modBlock b.id fun x => { x with fillendAt := some (n, maskOf (ts.map TRef.lane)) })

/-- Threads go on past their `fillend`: another one of theirs is a second. -/
def fillendLeave (s : State) (g : Issue) (b : Block) (ts : List TRef) : State :=
  let leave (e : Nat × BitVec 32) : Nat × BitVec 32 := (e.1, e.2 &&& ~~~maskOf (ts.map TRef.lane))
  let s1 := s.modBlock b.id fun x => { x with filled := true, fillendAt := x.fillendAt.map leave }
  eachLane g (fun s t => begun t (s, .done)) s1 ts

/-- It completes once all of that is performed: the release, then the fill (R211). -/
def fillendDone (s : State) (g : Issue) (b : Block) (n : Nat) (ts : List TRef) : State :=
  if itemBusy s b n then eachLane g (fun s _ => (s, .stay .recheck)) s ts
  else
    match doRelease s (lowLane g) .device with
    | (s1, .error x) => eachLane g (fun s t => stopLane s t x) s1 ts
    | (s1, .ok _) =>
      fillendLeave (match fillOfGen s1 b.id with | some f => completeFill s1 f | none => s1) g b ts

def fillendGroup (f : RForm) (s : State) (g : Issue) (b : Block) (ts : List TRef) : State :=
  match b.fillendAt with
  | none =>
    if !b.gen then ts.foldl (fun s t => trapAt s t (illegal (.fillend f))) s
    else
      let (n, s1) := fillendStart s b ts
      fillendDone s1 g b n ts
  | some (n, lanes) =>
    -- only the group that issued it goes on with it
    let mine := ts.filter fun t => lanes.getLsbD t.lane
    let s1 := (ts.filter fun t => !lanes.getLsbD t.lane).foldl (fun s t => trapAt s t (illegal (.fillend f))) s
    if mine = [] then s1
    else if b.filled then fillendLeave s1 g b mine
    else fillendDone s1 g b n mine

def execFillend (f : RForm) (s : State) : Out := .next (issue (.fillend f) .normal (fillendGroup f) s)

/-- The result word of `fillq` and `filld` (R401). -/
def fillWord (s : State) (part i b : Nat) (started refused : Bool) : Word :=
  match region? s part i with
  | some r => d (r.state b + (if refused then 4 else 0) + (if started then 8 else 0) + 2 ^ 8 * r.pins b)
  | none => 0

/-- A pin count after a pin or unpin, with its refusal (R217). -/
def pinStep (n : Nat) (pin unpin : Bool) : Nat × Bool :=
  if pin then (if n = 255 then (n, true) else (n + 1, false))
  else if unpin then (if n = 0 then (n, true) else (n - 1, false))
  else (n, false)

def fillqLane (f : SForm) (b : Block) (s : State) (t : TRef) : State × Lane :=
  let va := q (rawSrc s t .b64 f.a)
  match regionAt s b.part b.asid va.toNat with
  | none => (s, .trap (simpleTrap 0x0B))
  | some (i, r, k) =>
    let pinned := f.xf.getLsbD 0 || f.xf.getLsbD 1
    let s1 := if pinned then endRegion s t else s
    let (n, refused) := pinStep (r.pins k) (f.xf.getLsbD 0) (f.xf.getLsbD 1)
    let s2 := if pinned then setPin s1 b.part i k n else s1
    let (s3, fate) := if f.xf.getLsbD 2 then touch s2 { threadReq s2 t 0 false with waiter := none } va.toNat else (s2, .ok ())
    let started : Bool := f.xf.getLsbD 2 && r.state k == 0 &&
      (match region? s3 b.part i with | some x => x.state k == 1 | none => false)
    match fate with
    | .error (.recursion x y) => (meet s3 t false (.recursion x y), .moved)
    | _ =>
      let s4 := setV s3 t f.dst.num.toNat (fillWord s3 b.part i k started refused)
      if pinned then begun t (s4, .done) else (s4, .done)

def execFillq (f : SForm) (s : State) : Out :=
  .next (issue (.fillq f) .normal (fun s g b ts => eachLane g (fillqLane f b) s ts) s)

def filldLane (f : SForm) (b : Block) (s : State) (t : TRef) : State × Lane :=
  let va := q (rawSrc s t .b64 f.a)
  match regionAt s b.part b.asid va.toNat with
  | none => (s, .trap (simpleTrap 0x0B))
  | some (i, r, k) =>
    let s1 := endRegion s t
    let go := r.state k = 2 ∧ r.pins k = 0
    let s2 := if go then wakeHeld (evictBlock s1 b.part i k) b.part i k else s1
    begun t (setV s2 t f.dst.num.toNat (fillWord s2 b.part i k false (!(decide go))), .done)

def execFilld (f : SForm) (s : State) : Out :=
  .next (issue (.filld f) .normal (fun s g b ts => eachLane g (filldLane f b) s ts) s)

/-! ### Phase boundaries (R402) -/

def phaseLane (f : IForm) (b : Block) (s : State) (t : TRef) : State × Lane :=
  let x := s.thread t
  if b.gen ∨ f.imm.toNat ≠ x.phase % 65536 then (s, .trap (illegal (.phase f)))
  else
    let s1 := (endRegion s t).modThread t fun x => { x with phase := x.phase + 1 }
    begun t (settlePhase s1 b.launch, .done)

def execPhase (f : IForm) (s : State) : Out :=
  .next (issue (.phase f) .normal (fun s g b ts => eachLane g (phaseLane f b) s ts) s)

end Sys2Proof.Machine
end

