-- ==== Sys2Proof/Machine/Scene.lean ====
section
/-! DEFINITION. Distance bricks (R73, R148-R152, R438), scene images and the bytecode evaluator in point, interval and
affine mode (R140-R147), shared by `brick`, the marcher and the tile pre-pass. -/

namespace Sys2Proof.Machine

/-! ### Reads by a unit for a thread -/

/-- A step of a unit that reads memory for a thread: its value, or the trap or fate that holds the thread. -/
abbrev Fetch (α : Type) := State × Except Stop α

def Fetch.bind {α β : Type} (r : Fetch α) (f : State → α → Fetch β) : Fetch β :=
  match r.2 with
  | .ok a => f r.1 a
  | .error e => (r.1, .error e)
def Fetch.ok {α : Type} (s : State) (a : α) : Fetch α := (s, .ok a)
def Fetch.trap {α : Type} (s : State) (x : Trap) : Fetch α := (s, .error (.trap x))
def Fetch.of {α : Type} (r : Mem α) : Fetch α :=
  match r with
  | (s, .ok a) => (s, .ok a)
  | (s, .error m) => (s, .error (.miss m))

/-- A little-endian value of some bytes at an address. -/
abbrev Reader := State → Nat → Nat → Fetch Nat

/-- A request of a unit for a thread: a missing page holds the thread and aborts no region (R106). -/
def unitReq (s : State) (t : TRef) : Req := threadReq s t 0 false

/-- The engine path (R72): the CSM, no core-side cache. -/
def reqRead (r : Req) : Reader := fun s va n =>
  if 2 ^ 57 < va + n then .trap s (simpleTrap 0x0B) else Fetch.of (readVal s r va n)
def engineRead (t : TRef) : Reader := fun s va n => reqRead (unitReq s t) s va n

/-- A path with a core-side cache, within one line (R72). -/
def cachedRead (k : Cache) (t : TRef) : Reader := fun s va n =>
  if 2 ^ 57 < va + n then .trap s (simpleTrap 0x0B)
  else
    Fetch.bind (Fetch.of (cacheRead s ⟨waveCore t.wave, k, t, .default⟩ (unitReq s t) (va / 128 * 128) (byteMask (va % 128) n)))
      fun s v => .ok s (lineGet v.1 (va % 128) n)

/-- The unit's run of a thread begins with some operands, or continues where a fetch held it (R165). -/
def beginRun (s : State) (t : TRef) (unit : Nat) (args : List Word) : State :=
  s.modThread t fun x =>
    { x with heldRun := match x.heldRun with
        | some h => some { h with seen := [], todo := h.seen.reverse }
        | none => some ⟨unit, args, [], []⟩ }

def endRun (s : State) (t : TRef) : State := s.modThread t fun x => { x with heldRun := none }

/-- The operands of a run: those it was issued with. -/
def runArgs (s : State) (t : TRef) (args : List Word) : List Word :=
  match (s.thread t).heldRun with | some h => h.args | none => args

/-- A run's fetch: what it gave before the hold is not fetched again. -/
def logged (t : TRef) (read : Reader) : Reader := fun s a n =>
  match (s.thread t).heldRun with
  | none => read s a n
  | some h =>
    match h.todo with
    | v :: rest => .ok (s.modThread t fun x => { x with heldRun := some { h with seen := v :: h.seen, todo := rest } }) v
    | [] =>
      Fetch.bind (read s a n) fun s v =>
        .ok (s.modThread t fun x => { x with heldRun := x.heldRun.map fun h => { h with seen := v :: h.seen } }) v

/-- Local memory through a local address (R57, R140). -/
def scratchReader (b : Block) (t : TRef) : Reader := fun s a n =>
  match localPlace s b (d a) n with
  | some p => .ok s (placeRead s t p n)
  | none => .trap s (simpleTrap 0x15)

/-- A list of values read one after another. -/
def readAll (read : Reader) (n : Nat) : List Nat → State → Fetch (List Nat)
  | [], s => .ok s []
  | a :: rest, s => Fetch.bind (read s a n) fun s v => Fetch.bind (readAll read n rest s) fun s vs => .ok s (v :: vs)

/-! ### Single-rounded steps of point mode (R144): the ordinary rules of each operation -/

def pAdd (a b : Nat) : Nat := (fpAdd .f32 .rne a b).1
def pSub (a b : Nat) : Nat := (fpSub .f32 .rne a b).1
def pMul (a b : Nat) : Nat := (fpMul .f32 .rne a b).1
def pFma (a b c : Nat) : Nat := (fpFma .f32 .rne a b c).1
def pDiv (a b : Nat) : Nat := (fpDiv .f32 .rne a b).1
def pSqrt (a : Nat) : Nat := (fpSqrt .f32 .rne a).1

/-- A sum of three products in order: a rounded product, then two fused steps. -/
def pDot (c x : List Nat) : Nat :=
  pFma (c.getD 2 0) (x.getD 2 0) (pFma (c.getD 1 0) (x.getD 1 0) (pMul (c.getD 0 0) (x.getD 0 0)))

/-- One rounding of an exact quotient of finite values. -/
def pQuot (a b : Fix) : Nat := if a.n = 0 then 0 else (roundFix .f32 1 0 false (fixDiv a b)).1

def fixOf (x : Nat) : Fix := (unpackF .f32 x).fix
def oneF : Nat := 0x3F800000

/-! ### Grids and bricks -/

/-- A grid descriptor (R149), with rh := 1/h (R150). -/
structure Grid where
  origin : List Nat
  rh     : Nat
  dims   : List Nat
  far    : Nat
  table  : Nat
  pool   : Nat
  side   : Nat
  deriving DecidableEq, Repr

/-- A descriptor's 64 bytes checked in the order of R149; `off` is what a kind-10 fault names. -/
def gridOf (v : Nat) (off : Nat) : Except Trap Grid :=
  let at? (o n : Nat) : Nat := v / 256 ^ o % 256 ^ n
  let origin := [at? 0 4, at? 4 4, at? 8 4]
  let h := at? 12 4
  let dims := [at? 16 2, at? 18 2, at? 20 2]
  let far := at? 24 4
  let bad : Trap := ⟨0x14, q off, 10, false, 0⟩
  let off12 (a : Nat) : Trap := ⟨0x12, q a, 0, false, 0⟩
  if !(origin.all b32Fin) || !positiveRadius h || dims.contains 0 || at? 22 2 != 0 || !b32Fin far || at? 28 4 != 0 then .error bad
  else if at? 32 8 % 4 ≠ 0 then .error (off12 (at? 32 8))
  else if at? 40 8 % 1024 ≠ 0 then .error (off12 (at? 40 8))
  else if at? 48 8 % 4 ≠ 0 then .error (off12 (at? 48 8))
  else if at? 56 8 ≠ 0 then .error bad
  else .ok { origin := origin, rh := (fpRcp .f32 .rne h).1, dims := dims, far := far, table := at? 32 8, pool := at? 40 8, side := at? 48 8 }

/-- A coordinate in voxels (R150, R438). -/
def gridU (g : Grid) (axis p : Nat) : Nat := pMul (pSub p (g.origin.getD axis 0)) g.rh

/-- floor(u / 7), exactly; none for a NaN. -/
def gridIndex (u : Nat) : Option Int :=
  match unpackF .f32 u with
  | .nan _ => none
  | .zero _ => some 0
  | .inf s => some (if s then -1 else 2 ^ 40)
  | .fin true _ _ => some (-1)
  | .fin false n e => some (if e ≥ 0 then (n * 2 ^ e.toNat / 7 : Nat) else (n / (7 * 2 ^ (-e).toNat) : Nat))

/-- The pointer-table entry of a brick. -/
def gridEntry (g : Grid) (read : Reader) (s : State) (x y z : Nat) : Fetch Nat :=
  read s (g.table + 4 * (x + g.dims.getD 0 0 * (y + g.dims.getD 1 0 * z))) 4

def emptyBrick : Nat := 0xFFFFFFFF

/-- Byte offset of a sample in its brick (R73). -/
def sampleOffset (i j k : Nat) : Nat :=
  128 * (i / 4 + 2 * (j / 4) + 4 * (k / 4)) + 2 * (i % 4 + 4 * (j % 4) + 16 * (k % 4))

/-- L(p, q, f) of R151. -/
def lerp (p q f : Nat) : Nat := pFma f (pSub q p) p

/-- The cell on an axis and the fraction within it (R150). -/
def gridCell (u : Nat) (index : Int) : Nat × Nat :=
  let s := pSub u (fpOfInt .f32 (7 * index))
  let i := min (fixFloor (fixOf s)).toNat 6
  (i, b32Min (pSub s (fpOfInt .f32 i)) oneF)

/-- Value and gradient from the eight samples, S(α, β, γ) at 4α + 2β + γ, and the fractions (R151). -/
def trilinear (rh : Nat) (S f : List Nat) : Nat × List Nat :=
  let v (a b c : Nat) : Nat := S.getD (4 * a + 2 * b + c) 0
  let fx := f.getD 0 0
  let fy := f.getD 1 0
  let fz := f.getD 2 0
  let x (b c : Nat) : Nat := lerp (v 0 b c) (v 1 b c) fx
  let dx (b c : Nat) : Nat := pSub (v 1 b c) (v 0 b c)
  let dy (a c : Nat) : Nat := pSub (v a 1 c) (v a 0 c)
  let dz (a b : Nat) : Nat := pSub (v a b 1) (v a b 0)
  (lerp (lerp (x 0 0) (x 1 0) fy) (lerp (x 0 1) (x 1 1) fy) fz,
   [ pMul (lerp (lerp (dx 0 0) (dx 1 0) fy) (lerp (dx 0 1) (dx 1 1) fy) fz) rh
   , pMul (lerp (lerp (dy 0 0) (dy 1 0) fx) (lerp (dy 0 1) (dy 1 1) fx) fz) rh
   , pMul (lerp (lerp (dz 0 0) (dz 1 0) fx) (lerp (dz 0 1) (dz 1 1) fx) fy) rh ])

/-- BRICK in point mode (R150, R151): `read` the pointer table, `pool` the samples. -/
def brickPoint (g : Grid) (read pool : Reader) (s : State) (p : List Nat) : Fetch (Nat × List Nat) :=
  let us := (List.range 3).map fun i => gridU g i (p.getD i 0)
  match us.filterMap gridIndex with
  | [bx, by', bz] =>
    let inside (b : Int) (axis : Nat) : Bool := 0 ≤ b && b < (g.dims.getD axis 0 : Int)
    if !(inside bx 0 && inside by' 1 && inside bz 2) then .ok s (g.far, [0, 0, 0])
    else
      Fetch.bind (gridEntry g read s bx.toNat by'.toNat bz.toNat) fun s e =>
        if e = emptyBrick then .ok s (g.far, [0, 0, 0])
        else
          let (i, fx) := gridCell (us.getD 0 0) bx
          let (j, fy) := gridCell (us.getD 1 0) by'
          let (k, fz) := gridCell (us.getD 2 0) bz
          let spots := (List.range 8).map fun c =>
            g.pool + 1024 * e + sampleOffset (i + c / 4) (j + c / 2 % 2) (k + c % 2)
          Fetch.bind (readAll pool 2 spots s) fun s hs =>
            .ok s (trilinear g.rh (hs.map fun h => (fpConvert .f16 .f32 .rne h).1) [fx, fy, fz])
  | _ => .ok s (0x7FC00000, [0, 0, 0])

/-- The next binary32 value upwards, and downwards. -/
def b32Up (x : Nat) : Nat :=
  if b32Nan x ∨ x = b32Inf then x
  else if signOf .f32 x then (if x = 0x80000000 then 1 else x - 1) else x + 1
def b32Down (x : Nat) : Nat := b32Neg (b32Up (b32Neg x))

/-- The union of contributions (R152). -/
def Iv.union (l : List Iv) : Iv :=
  match l with
  | [] => .entire
  | a :: t => t.foldl (fun a b => ⟨b32Min a.lo b.lo, b32Max a.hi b.hi⟩) a

/-- One overlapped brick's contribution. -/
def brickRange (g : Grid) (read : Reader) (s : State) (x y z : Nat) : Fetch Iv :=
  Fetch.bind (gridEntry g read s x y z) fun s e =>
    if e = emptyBrick then .ok s ⟨g.far, g.far⟩
    else Fetch.bind (read s (g.side + 4 * e) 4) fun s w =>
      let wide (h : Nat) : Nat := (fpConvert .f16 .f32 .rne h).1
      .ok s (Iv.result ⟨b32Down (wide (w % 65536)), b32Up (wide (w / 65536))⟩)

def brickRanges (g : Grid) (read : Reader) : List (Nat × Nat × Nat) → State → Fetch (List Iv)
  | [], s => .ok s []
  | (x, y, z) :: rest, s =>
    Fetch.bind (brickRange g read s x y z) fun s v => Fetch.bind (brickRanges g read rest s) fun s vs => .ok s (v :: vs)

/-- BRICK over a box (R152, R438). -/
def brickBound (g : Grid) (read : Reader) (s : State) (box : List Iv) : Fetch Iv :=
  let ends := box.zipIdx.map fun e => (gridIndex (gridU g e.2 e.1.lo), gridIndex (gridU g e.2 e.1.hi), g.dims.getD e.2 0)
  if ends.any fun e => e.1.isNone || e.2.1.isNone then .ok s .entire
  else
    let spans := ends.map fun e =>
      let lo : Nat := (max 0 (e.1.getD 0)).toNat
      let hi := min (e.2.1.getD 0) ((e.2.2 : Int) - 1)
      (List.range (hi + 1 - lo).toNat).map (· + lo)
    let outside := ends.any fun e => e.1.getD 0 < 0 || (e.2.2 : Int) ≤ e.2.1.getD 0
    let xs := spans.getD 0 []
    let ys := spans.getD 1 []
    let zs := spans.getD 2 []
    if 8 < xs.length * ys.length * zs.length then .ok s .entire
    else
      let bricks := zs.flatMap fun z => ys.flatMap fun y => xs.map fun x => (x, y, z)
      Fetch.bind (brickRanges g read bricks s) fun s vs =>
        .ok s (Iv.union ((if outside then [⟨g.far, g.far⟩] else []) ++ vs))

/-! ### Scene images (R140, R141) -/

/-- A checked header. -/
structure Scene where
  length : Nat
  coff   : Nat
  need   : Nat
  flags  : Nat
  count  : Nat
  deriving DecidableEq, Repr

/-- What an evaluation reads through: the image by its byte offsets, the grid tables, the pool. -/
structure SceneIO where
  image : Reader
  table : Reader
  pool  : Reader

def sceneHead (io : SceneIO) (s : State) : Fetch Scene :=
  Fetch.bind (io.image s 0 16) fun s v =>
    let at? (o n : Nat) : Nat := v / 256 ^ o % 256 ^ n
    let h : Scene := ⟨at? 4 4, at? 8 4, at? 12 1, at? 13 1, at? 14 2⟩
    if at? 0 4 ≠ 0x53424331 ∨ h.length < 17 ∨ 65536 < h.length ∨ h.coff % 16 ≠ 0 ∨ h.coff < h.length ∨ h.need = 0 ∨ 16 < h.need
        ∨ 8 ≤ h.flags ∨ 4096 < h.count ∨ 131072 < h.coff + 16 * h.count then
      .trap s ⟨0x14, 0, 1, false, 0⟩
    else .ok s h

/-- The scalar of a constant entry. -/
def sceneConst (io : SceneIO) (h : Scene) (s : State) (k : Nat) : Fetch Nat := io.image s (h.coff + 16 * k) 4

/-! ### Stack values (R144-R147) -/

/-- A stack value in point, interval or affine mode. -/
inductive SVal where
  | pt (v : Nat) (g : List Nat)
  | iv (a : Iv)
  | af (a : Af)
  deriving DecidableEq, Repr

/-- Modes by their callout codes (R156): 0 point, 1 interval, 2 affine. -/
def SVal.const (mode k : Nat) : SVal :=
  match mode with
  | 0 => .pt k [0, 0, 0]
  | 1 => .iv (Iv.read ⟨k, k⟩)
  | _ => .af (Af.read ⟨k, 0, 0⟩)

/-- The value a bound takes when nothing is known. -/
def SVal.top (mode : Nat) : SVal := if mode = 1 then .iv .entire else .af .top

def zipG (f : Nat → Nat → Nat) (a b : List Nat) : List Nat := (a.zip b).map fun e => f e.1 e.2

def SVal.add : SVal → SVal → SVal
  | .pt a g, .pt b h => .pt (pAdd a b) (zipG pAdd g h)
  | .iv a, .iv b => .iv (a.add b)
  | .af a, .af b => .af (a.add b)
  | a, _ => a

def SVal.sub : SVal → SVal → SVal
  | .pt a g, .pt b h => .pt (pSub a b) (zipG pSub g h)
  | .iv a, .iv b => .iv (a.sub b)
  | .af a, .af b => .af (a.sub b)
  | a, _ => a

def SVal.mul : SVal → SVal → SVal
  | .pt a g, .pt b h => .pt (pMul a b) (zipG (fun da db => pFma a db (pMul b da)) g h)
  | .iv a, .iv b => .iv (a.mul b)
  | .af a, .af b => .af (a.mul b)
  | a, _ => a

/-- MULC: the partials are scaled by the constant (R145). -/
def SVal.scale (mode k : Nat) : SVal → SVal
  | .pt a g => .pt (pMul a k) (g.map (pMul k))
  | a => a.mul (.const mode k)

/-- MIN and MAX: the partials of the chosen operand, those of a on equal values (R145). -/
def SVal.minMax (wantMax : Bool) : SVal → SVal → SVal
  | .pt a g, .pt b h =>
    let first := if b32Nan a then b32Nan b else b32Nan b || (if wantMax then b32Le b a else b32Le a b)
    .pt (if wantMax then b32Max a b else b32Min a b) (if first then g else h)
  | .iv a, .iv b => .iv (if wantMax then a.max b else a.min b)
  | .af a, .af b => .af (Af.minMax wantMax a b)
  | a, _ => a

def SVal.neg : SVal → SVal
  | .pt a g => .pt (b32Neg a) (g.map b32Neg)
  | .iv a => .iv a.neg
  | .af a => .af a.neg

def SVal.abs : SVal → SVal
  | .pt a g => .pt (b32Abs a) (if signOf .f32 a then g.map b32Neg else g)
  | .iv a => .iv a.abs
  | .af a => .af a.abs

def SVal.sqr : SVal → SVal
  | .pt a g => SVal.mul (.pt a g) (.pt a g)
  | .iv a => .iv a.sqr
  | .af a => .af a.sqr

def SVal.sqrt : SVal → SVal
  | .pt a g =>
    if b32Nan a then .pt (quiet .f32 a) [0, 0, 0]
    else
      let v := pSqrt (b32Max a 0)
      .pt v (if b32Lt 0 v then g.map fun x => pMul x (pDiv 0x3F000000 v) else [0, 0, 0])
  | .iv a => .iv a.sqrt
  | .af a => .af a.sqrt

/-- SMIN of a radius (R145, R146). DESIGN CHOICE (assumption 101): R145 does not say what max(r - (q - p), 0) is where
the difference is NaN; h is 0 there, as `fmax` would give. -/
def SVal.smin (r : Nat) : SVal → SVal → SVal
  | .pt a g, .pt b h =>
    if !positiveRadius r then SVal.minMax false (.pt a g) (.pt b h)
    else
      let (p, gp, w, gw) := if b32Le a b then (a, g, b, h) else (b, h, a, g)
      let hh := b32Max (pSub r (pSub w p)) 0
      let rr := fixOf r
      let c := pQuot (fixOf hh) (rr.scale 1)
      .pt (pSub p (pQuot (fixMul (fixOf hh) (fixOf hh)) (rr.scale 2))) (zipG (fun x y => pSub x (pMul c (pSub x y))) gp gw)
  | .iv a, .iv b => .iv (a.smin b r)
  | .af a, .af b => .af (a.smin b r)
  | a, _ => a

def SVal.part (i : Nat) : SVal → Nat
  | .pt _ g => g.getD i 0
  | _ => 0
def SVal.value : SVal → Nat
  | .pt v _ => v
  | _ => 0

/-- The interval that a bound stands for. -/
def SVal.hull : SVal → Iv
  | .pt v _ => ⟨v, v⟩
  | .iv a => a
  | .af a => a.hull

/-- The registers of a value (R158, R420), and back from an answer under its read rule. -/
def SVal.words : SVal → List Word
  | .pt v g => d v :: g.map d
  | .iv a => [d a.lo, d a.hi]
  | .af a => [d a.c, d a.w, d a.e]

def SVal.ofWords (mode : Nat) (l : List Word) : SVal :=
  let n (i : Nat) : Nat := (wAt l i).toNat
  match mode with
  | 0 => .pt (n 0) [n 1, n 2, n 3]
  | 1 => .iv (Iv.read ⟨n 0, n 1⟩)
  | _ => .af (Af.read ⟨n 0, n 1, n 2⟩)

/-- One coordinate of a new frame (R147): a row of M, and t added last. DESIGN CHOICE (assumption 100): the spec gives the
interval and affine sums no order and no fusing; each product and each sum is rounded by itself, t last. -/
def frameCoord (mode : Nat) (row : List Nat) (t : Nat) (p : List SVal) : SVal :=
  match mode with
  | 0 => .pt (pAdd (pDot row (p.map SVal.value)) t) ((List.range 3).map fun c => pDot row (p.map (SVal.part c)))
  | _ =>
    let term (j : Nat) : SVal := (SVal.const mode (row.getD j 0)).mul (p.getD j (SVal.top mode))
    (((term 0).add (term 1)).add (term 2)).add (.const mode t)

/-! ### The evaluator (R142, R143) -/

/-- An opcode's operand bytes, pops, pushes and constant entries. -/
def sceneOp (c : Nat) : Option (Nat × Nat × Nat × Nat) :=
  match c with
  | 0x00 => some (0, 1, 0, 0)
  | 0x01 => some (4, 0, 1, 0)
  | 0x02 | 0x03 | 0x04 => some (0, 0, 1, 0)
  | 0x05 | 0x06 | 0x07 | 0x08 | 0x09 => some (0, 2, 1, 0)
  | 0x0A | 0x0B | 0x0C | 0x0D => some (0, 1, 1, 0)
  | 0x0E => some (0, 2, 1, 0)
  | 0x0F => some (0, 3, 1, 0)
  | 0x10 => some (0, 1, 2, 0)
  | 0x11 => some (0, 2, 2, 0)
  | 0x12 => some (0, 1, 0, 0)
  | 0x13 => some (2, 0, 0, 3)
  | 0x14 => some (0, 0, 0, 0)
  | 0x15 => some (2, 2, 1, 1)
  | 0x16 => some (2, 0, 1, 4)
  | 0x17 => some (1, 0, 1, 0)
  | 0x18 | 0x19 => some (2, 1, 1, 1)
  | 0x1A => some (2, 0, 1, 1)
  | _ => none

/-- A program under evaluation: the next opcode's offset, the value stack and the frame stack, newest first. -/
structure Eval where
  pos    : Nat
  vals   : List SVal
  frames : List (List SVal)
  deriving DecidableEq, Repr

/-- A decoded opcode, its operand, and the offset after it. -/
structure SceneOp where
  code : Nat
  arg  : Nat
  next : Nat
  deriving DecidableEq, Repr

/-- Read the next opcode with every check of R143 in its order. -/
def sceneFetch (io : SceneIO) (h : Scene) (s : State) (e : Eval) : Fetch SceneOp :=
  let fault (s : State) (kind : Nat) : Fetch SceneOp := .trap s ⟨0x14, q e.pos, q kind, false, 0⟩
  if h.length ≤ e.pos then fault s 8
  else
    Fetch.bind (io.image s e.pos 1) fun s c =>
      match sceneOp c with
      | none => fault s 2
      | some (n, pops, pushes, consts) =>
        if h.length < e.pos + 1 + n then fault s 8
        else
          Fetch.bind (if n = 0 then Fetch.ok s 0 else io.image s (e.pos + 1) n) fun s arg =>
            if consts ≠ 0 ∧ h.count < arg + consts then fault s 7
            else if e.vals.length < pops then fault s 4
            else if h.need < e.vals.length - pops + pushes then fault s 3
            else if c = 0x13 ∧ e.frames.length = 4 then fault s 5
            else if c = 0x14 ∧ e.frames.length = 1 then fault s 6
            else if c = 0x00 ∧ (e.vals.length ≠ 1 ∨ e.frames.length ≠ 1) then fault s 9
            else .ok s ⟨c, arg, e.pos + 1 + n⟩

/-- BRICK in the evaluator's mode: the gradient is carried to ray space, a bound becomes a value (R145, R152). -/
def sceneBrick (io : SceneIO) (h : Scene) (mode : Nat) (s : State) (off k : Nat) (p : List SVal) : Fetch SVal :=
  Fetch.bind (io.image s (h.coff + 16 * k) 64) fun s v =>
    match gridOf v off with
    | .error x => .trap s x
    | .ok g =>
      if mode = 0 then
        Fetch.bind (brickPoint g io.table io.pool s (p.map SVal.value)) fun s r =>
          .ok s (.pt r.1 ((List.range 3).map fun c => pDot r.2 (p.map (SVal.part c))))
      else
        Fetch.bind (brickBound g io.table s (p.map SVal.hull)) fun s b =>
          .ok s (if mode = 1 then .iv (Iv.read b) else .af (Af.ofIv b))

/-- A new frame from three entries (R141, R147). -/
def sceneFrame (io : SceneIO) (h : Scene) (mode : Nat) (s : State) (k : Nat) (p : List SVal) : Fetch (List SVal) :=
  Fetch.bind (io.image s (h.coff + 16 * k) 48) fun s v =>
    let w (i : Nat) : Nat := v / 2 ^ (32 * i) % 2 ^ 32
    .ok s ((List.range 3).map fun i => frameCoord mode [w (3 * i), w (3 * i + 1), w (3 * i + 2)] (w (9 + i)) p)

/-- Perform one opcode other than END and OPQ, whose checks have passed. -/
def sceneStep (io : SceneIO) (h : Scene) (mode : Nat) (s : State) (e : Eval) (o : SceneOp) : Fetch Eval :=
  let vals := e.vals
  let p := e.frames.headD []
  let c := vals.getD 0 (SVal.top mode)
  let b := vals.getD 1 (SVal.top mode)
  let a := vals.getD 2 (SVal.top mode)
  let rest (n : Nat) : List SVal := vals.drop n
  let put (s : State) (l : List SVal) : Fetch Eval := .ok s { e with pos := o.next, vals := l }
  let const (f : State → Nat → Fetch Eval) : Fetch Eval := Fetch.bind (sceneConst io h s o.arg) f
  match o.code with
  | 0x01 => put s (.const mode o.arg :: vals)
  | 0x02 => put s (p.getD 0 (SVal.top mode) :: vals)
  | 0x03 => put s (p.getD 1 (SVal.top mode) :: vals)
  | 0x04 => put s (p.getD 2 (SVal.top mode) :: vals)
  | 0x05 => put s (b.add c :: rest 2)
  | 0x06 => put s (b.sub c :: rest 2)
  | 0x07 => put s (b.mul c :: rest 2)
  | 0x08 => put s (SVal.minMax false b c :: rest 2)
  | 0x09 => put s (SVal.minMax true b c :: rest 2)
  | 0x0A => put s (c.neg :: rest 1)
  | 0x0B => put s (c.abs :: rest 1)
  | 0x0C => put s (c.sqr :: rest 1)
  | 0x0D => put s (c.sqrt :: rest 1)
  | 0x0E => put s ((b.sqr.add c.sqr).sqrt :: rest 2)
  | 0x0F => put s (((a.sqr.add b.sqr).add c.sqr).sqrt :: rest 3)
  | 0x10 => put s (c :: c :: rest 1)
  | 0x11 => put s (b :: c :: rest 2)
  | 0x12 => put s (rest 1)
  | 0x13 => Fetch.bind (sceneFrame io h mode s o.arg p) fun s f => .ok s { e with pos := o.next, frames := f :: e.frames }
  | 0x14 => .ok s { e with pos := o.next, frames := e.frames.drop 1 }
  | 0x15 => const fun s r => put s (SVal.smin r b c :: rest 2)
  | 0x16 => Fetch.bind (sceneBrick io h mode s e.pos o.arg p) fun s v => put s (v :: vals)
  | 0x17 => put s (SVal.top mode :: vals)
  | 0x18 => const fun s k => put s (SVal.scale mode k c :: rest 1)
  | 0x19 => const fun s k => put s (c.add (.const mode k) :: rest 1)
  | 0x1A => const fun s k => put s (.const mode k :: vals)
  | _ => put s vals

/-- Where an evaluation stands when it pauses: at END with the field, or at OPQ with the callable. -/
inductive EvalStop where
  | field (v : SVal)
  | opaque (n : Nat) (e : Eval)
  deriving DecidableEq, Repr

/-- Run to END or to an OPQ; the code has no loop, so its length bounds the run. -/
def evalRun (io : SceneIO) (h : Scene) (mode : Nat) : Nat → State → Eval → Fetch EvalStop
  | 0, s, _ => .trap s ⟨0x14, 0, 8, false, 0⟩
  | n + 1, s, e =>
    Fetch.bind (sceneFetch io h s e) fun s o =>
      if o.code = 0x00 then .ok s (.field (e.vals.headD (SVal.top mode)))
      else if o.code = 0x17 then .ok s (.opaque o.arg { e with pos := o.next })
      else Fetch.bind (sceneStep io h mode s e o) fun s e => evalRun io h mode n s e

/-- An evaluation from the code's first byte, with the coordinates of frame 0. -/
def Eval.start (p : List SVal) : Eval := ⟨0x10, [], [p]⟩

end Sys2Proof.Machine
end

