-- ==== Sys2Proof/Machine/Graphics.lean ====
section
/-! DEFINITION. Sampling, bricks, render targets, depth targets and task queues: opcodes 0xC0-0xC9 (R181-R183,
R188-R190, R406-R418). -/

namespace Sys2Proof.Machine

/-- A thread whose unit met a stop: its trap, or the fate of a fetch, which holds it (R106). -/
def heldLane (s : State) (t : TRef) (x : Stop) : State × Lane := stopLane s t x

/-- The end of a run: its effect, a trap with the run forgotten, or the hold that keeps it (R106, R165). -/
def ranLane {α : Type} (t : TRef) (r : Fetch α) (f : State → α → State × Lane) : State × Lane :=
  match r with
  | (s, .ok a) => f (endRun s t) a
  | (s, .error (.trap x)) => heldLane (endRun s t) t (.trap x)
  | (s, .error x) => heldLane s t x

/-- The checks of an address in a descriptor block: bits [63:57], then the alignment. -/
def blockVa (va : BitVec 64) (align : Nat) : Option Trap :=
  if bits va 63 57 ≠ 0 then some (simpleTrap 0x0B)
  else if va.toNat % align ≠ 0 then some ⟨0x12, va, 0, false, 0⟩
  else none

/-! ### Textures (R406-R410) -/

/-- A texture descriptor block. -/
structure Tex where
  base   : Nat
  w      : Nat
  h      : Nat
  levels : Nat
  smooth : Bool
  modeU  : Nat
  modeV  : Nat
  format : Nat
  deriving DecidableEq, Repr

/-- The checks of R406: its trap-0x01 fields, then the base. -/
def texOf (i : Instr) (k : List Word) : Except Trap Tex :=
  let k2 := wAt k 2
  let k3 := wAt k 3
  let base := pair (wAt k 0) (wAt k 1)
  if bits k2 31 16 = 0 ∨ bits k2 15 0 = 0 ∨ bits k3 31 13 ≠ 0 ∨ 4 ≤ bits k3 3 0 then .error (illegal i)
  else
    match blockVa base 128 with
    | some x => .error x
    | none => .ok { base := base.toNat, w := bits k2 15 0, h := bits k2 31 16, levels := bits k3 12 9 + 1, smooth := k3.getLsbD 8
                    modeU := bits k3 5 4, modeV := bits k3 7 6, format := bits k3 3 0 }

def Tex.texel (x : Tex) : Nat := match x.format with | 1 => 8 | 3 => 2 | _ => 4
def Tex.levelW (x : Tex) (l : Nat) : Nat := max 1 (x.w / 2 ^ l)
def Tex.levelH (x : Tex) (l : Nat) : Nat := max 1 (x.h / 2 ^ l)
def Tex.pitch (x : Tex) (l : Nat) : Nat := ceilDiv (x.levelW l * x.texel) 128 * 128
def Tex.offset (x : Tex) (l : Nat) : Nat := sumOf ((List.range l).map fun i => x.pitch i * x.levelH i)

/-- A texel's four channels (R406). -/
def Tex.channels (x : Tex) (v : Nat) : List Nat :=
  let widen (h : Nat) : Nat := (fpConvert .f16 .f32 .rne h).1
  match x.format with
  | 0 => (List.range 4).map fun c => pQuot (Fix.ofInt (v / 256 ^ c % 256 : Nat) 0) (Fix.ofInt 255 0)
  | 1 => (List.range 4).map fun c => widen (v / 65536 ^ c % 65536)
  | 2 => [v, 0, 0, oneF]
  | _ => [widen v, 0, 0, oneF]

/-- An index under its axis's address mode; none is the border (R408). -/
def texIndex (mode : Nat) (n : Int) (w : Nat) : Option Nat :=
  if 0 ≤ n ∧ n < w then some n.toNat
  else
    match mode with
    | 0 => some (n % w).toNat
    | 1 => some (min (max n 0) (w - 1)).toNat
    | 2 => let m := (n % (2 * w)).toNat; some (if m < w then m else 2 * w - 1 - m)
    | _ => none

/-- One texel: its channels, and whether a byte had to be fetched past the texture cache. -/
def texelAt (x : Tex) (t : TRef) (l : Nat) (s : State) (i j : Int) : Fetch (List Nat) :=
  match texIndex x.modeU i (x.levelW l), texIndex x.modeV j (x.levelH l) with
  | some i, some j =>
    Fetch.bind (cachedRead .tex t s (x.base + x.offset l + j * x.pitch l + i * x.texel) x.texel) fun s v => .ok s (x.channels v)
  | _, _ => .ok s [0, 0, 0, 0]

/-- A coordinate as sampling reads it (R407). -/
def texCoord (u : Nat) : Nat :=
  if b32Nan u then 0 else b32Min (b32Max u 0xC9800000) 0x49800000

/-- L(p, q, f) of R151 with f = x - i, which is taken exactly (R408). -/
def lerpPast (i : Int) (x p q : Nat) : Nat :=
  let e := pSub q p
  if b32Fin p && b32Fin e && !((fixOf p).n == 0 && (fixOf e).n == 0) then
    (roundFix .f32 1 0 false (fixAdd 1 (fixMul (fixAdd 1 (fixOf x) (Fix.ofInt (-i) 0)) (fixOf e)) (fixOf p))).1
  else pFma (pSub x (fpOfInt .f32 i)) e p

/-- Sample level `l` at a coordinate pair (R408). -/
def texSample (x : Tex) (t : TRef) (l : Nat) (s : State) (u v : Nat) : Fetch (List Nat) :=
  let su := pMul (texCoord u) (fpOfInt .f32 (x.levelW l))
  let sv := pMul (texCoord v) (fpOfInt .f32 (x.levelH l))
  if !x.smooth then texelAt x t l s (fixFloor (fixOf su)) (fixFloor (fixOf sv))
  else
    let xs := pSub su 0x3F000000
    let ys := pSub sv 0x3F000000
    let i := fixFloor (fixOf xs)
    let j := fixFloor (fixOf ys)
    Fetch.bind (texelAt x t l s i j) fun s t00 =>
      Fetch.bind (texelAt x t l s (i + 1) j) fun s t10 =>
        Fetch.bind (texelAt x t l s i (j + 1)) fun s t01 =>
          Fetch.bind (texelAt x t l s (i + 1) (j + 1)) fun s t11 =>
            .ok s ((List.range 4).map fun c =>
              lerpPast j ys (lerpPast i xs (t00.getD c 0) (t10.getD c 0)) (lerpPast i xs (t01.getD c 0) (t11.getD c 0)))

/-- rnd(a^2 + b^2) of two rounded values. -/
def sumSquares (a b : Nat) : Nat :=
  if b32Fin a ∧ b32Fin b then
    (roundFix .f32 1 0 false (fixAdd 1 (fixMul (fixOf a) (fixOf a)) (fixMul (fixOf b) (fixOf b)))).1
  else pAdd (pMul a a) (pMul b b)

/-- The level from derivatives and a bias (R407); `ds` holds du/dx, dv/dx, du/dy, dv/dy. -/
def texLevel (x : Tex) (ds : List Nat) (bias : Nat) : Nat :=
  let w := fpOfInt .f32 x.w
  let h := fpOfInt .f32 x.h
  let px := sumSquares (pMul (ds.getD 0 0) w) (pMul (ds.getD 1 0) h)
  let py := sumSquares (pMul (ds.getD 2 0) w) (pMul (ds.getD 3 0) h)
  let lam := pAdd (pMul 0x3F000000 (fpLog2 .f32 .rne (b32Max px py)).1) bias
  match unpackF .f32 lam with
  | .nan _ => 0
  | .inf neg => if neg then 0 else x.levels - 1
  | v => (min (max (fixToInt 1 0 0 v.fix).1 0) (x.levels - 1)).toNat

/-- Lines that a fetch through a cache brought in. -/
def newLines (before after : State) (core : Nat) (k : Cache) : Nat :=
  ((lines after core k).filter fun l => !(lines before core k).any fun m => m.is l.asid l.agen l.va none).length

/-- A sample is fetched: its lines take as many entries of the sampler's tracker, and a descriptor's one of the constant
tracker, for which the thread waits (R77). -/
def fetched (before after : State) (t : TRef) (k : Cache) (dst : Nat) (ws : List Word) : State × Lane :=
  let core := waveCore t.wave
  let n := newLines before after core k
  let m := newLines before after core .const
  if n + m = 0 then (loadResult after t 4 0 dst ws, .done)
  else if !trackerRoom before core 1 m then (before, .stay (.trackerRoom 1))
  else if trackerRoom before core 2 n then (loadLines n m after t 2 0 dst ws, .done)
  else (before, .stay (.trackerRoom 2))

/-- The operands of a sampling instruction as it issues: the descriptor, the coordinates, the derivatives and the bias. -/
def sampleArgs (f : RForm) (s : State) (ds : List Nat) (bias : Nat) (t : TRef) : List Word :=
  srcRegs s t f.b 4 ++ srcRegs s t f.a 2 ++ (ds ++ [bias]).map d

/-- A sampling instruction in one thread; one that a fetch held goes on with the operands it issued with, the derivatives of its
quad among them (R106, R409). -/
def sampleLane (i : Instr) (f : RForm) (args : TRef → List Word) (s : State) (t : TRef) : State × Lane :=
  let a := runArgs s t (args t)
  match texOf i (a.take 4) with
  | .error x => (s, .trap x)
  | .ok x =>
    if counterFull (s.thread t).ld then (s, .stay (.counterRoom 0))
    else
      let level := texLevel x (((a.drop 6).take 4).map BitVec.toNat) (wAt a 10).toNat
      ranLane t (texSample x t level (beginRun s t 3 a) (wAt a 4).toNat (wAt a 5).toNat) fun s1 c =>
        fetched s s1 t .tex f.dst.num.toNat (c.map d)

/-- The difference of a coordinate between the two lanes of a pair; 0 where a lane is unbound (R409). -/
def laneStep (s : State) (t : TRef) (f : RForm) (axis hi lo : Nat) : Nat :=
  let a : TRef := ⟨t.wave, hi⟩
  let b : TRef := ⟨t.wave, lo⟩
  if s.bound a && s.bound b then
    pSub (vreg s a (f.a.num.toNat + axis)).toNat (vreg s b (f.a.num.toNat + axis)).toNat
  else 0

/-- The derivatives of the 2 × 2 lane quads (R409). -/
def laneDerivs (s : State) (f : RForm) (t : TRef) : List Nat :=
  let right := t.lane ||| 1
  let down := t.lane ||| 8
  [ laneStep s t f 0 right (right - 1), laneStep s t f 1 right (right - 1)
  , laneStep s t f 0 down (down - 8), laneStep s t f 1 down (down - 8) ]

/-- Checked mode: a bound partner lane outside the fetch group (R409). -/
def partnerMissing (s : State) (g : Issue) (t : TRef) : Bool :=
  let right := t.lane ||| 1
  let down := t.lane ||| 8
  [right, right - 1, down, down - 8].any fun l => s.bound ⟨t.wave, l⟩ && !g.lanes.getLsbD l

def execTex (f : RForm) (s : State) : Out :=
  .next (issue (.tex f) .normal (fun s g b ts =>
    let fresh := ts.filter fun t => !(s.thread t).holds 3
    let args (t : TRef) : List Word := sampleArgs f s (laneDerivs s f t) (srcVal s t .f32 f.c) t
    if b.checked && fresh.any (partnerMissing s g) then
      let s1 := fresh.foldl (fun s t => trapAt s t (simpleTrap 0x17)) s
      eachLane g (sampleLane (.tex f) f args) s1 (ts.filter fun t => (s.thread t).holds 3)
    else eachLane g (sampleLane (.tex f) f args) s ts) s)

def execTexg (f : RForm) (s : State) : Out :=
  .next (issue (.texg f) .normal (fun s g _ ts =>
    eachLane g (sampleLane (.texg f) f fun t => sampleArgs f s ((srcRegs s t f.c 4).map BitVec.toNat) 0 t) s ts) s)

/-- R410: the level stands in SRC A, the descriptor in SRC B. -/
def execTexq (f : RForm) (s : State) : Out :=
  .next (issue (.texq f) .normal (fun s0 g _ ts =>
    eachLane g (fun s t =>
      match texOf (.texq f) (srcRegs s0 t f.b 4) with
      | .error x => (s, .trap x)
      | .ok x =>
        let n := srcVal s0 t .n32 f.a
        (setV s t f.dst.num.toNat (d (if x.levels ≤ n then 0 else x.levelW n + 2 ^ 16 * x.levelH n)), .done)) s0 ts) s)

/-! ### Bricks (R411) -/

/-- Its operands are the pair in SRC B and the point in SRC A; a held fetch continues where it stood (R165). -/
def brickLane (f : RForm) (s0 s : State) (t : TRef) : State × Lane :=
  let args := runArgs s t ([srcRegs s0 t f.b 2, srcRegs s0 t f.a 3].flatten)
  let va := pair (wAt args 0) (wAt args 1)
  match blockVa va 64 with
  | some x => (s, .trap x)
  | none =>
    if counterFull (s.thread t).ld then (s, .stay (.counterRoom 0))
    else
      let res : Fetch (Nat × List Nat) :=
        Fetch.bind (logged t (cachedRead .const t) (beginRun s t 0 args) va.toNat 64) fun s v =>
          match gridOf v 0 with
          | .error x => .trap s x
          | .ok g =>
            brickPoint g (logged t (engineRead t)) (logged t (cachedRead .brick t)) s (((args.drop 2).take 3).map BitVec.toNat)
      ranLane t res fun s1 r => fetched s s1 t .brick f.dst.num.toNat ((r.1 :: r.2).map d)

def execBrick (f : RForm) (s : State) : Out :=
  .next (issue (.brick f) .normal (fun s g _ ts => eachLane g (brickLane f s) s ts) s)

/-! ### Render and depth targets (R181-R183, R412-R415) -/

/-- A target descriptor block. -/
structure Target where
  base   : Nat
  rows   : Nat
  perRow : Nat
  format : Nat
  deriving DecidableEq, Repr

/-- Bytes of a colour pixel. -/
def pixelBytes (format : Nat) : Nat := match format with | 0 => 4 | 1 => 8 | _ => 16

/-- The checks of R412; a depth target's pixels hold 8 bytes. -/
def targetOf (i : Instr) (depth : Bool) (k : List Word) : Except Trap Target :=
  let k2 := wAt k 2
  let k3 := wAt k 3
  let base := pair (wAt k 0) (wAt k 1)
  let fmt := bits k3 3 0
  if bits k2 31 16 = 0 ∨ bits k2 15 0 = 0 ∨ bits k3 31 4 ≠ 0 ∨ (if depth then fmt ≠ 0 else 3 ≤ fmt) then .error (illegal i)
  else
    match blockVa base (if depth then 512 else 64 * pixelBytes fmt) with
    | some x => .error x
    | none => .ok ⟨base.toNat, bits k2 31 16, bits k2 15 0, fmt⟩

/-- The address of a pixel of `n` bytes, if the target's tiles hold it (R182, R412). -/
def Target.pixel (x : Target) (n px py : Nat) : Option Nat :=
  if px / 8 < x.perRow ∧ py / 8 < x.rows then
    some (x.base + 64 * n * (px / 8 + x.perRow * (py / 8)) + n * (px % 8 + 8 * (py % 8)))
  else none

/-- A colour as a pixel's bytes (R413). -/
def colourBytes (format : Nat) (c : List Nat) : Nat :=
  let unorm (x : Nat) : Nat :=
    if b32Nan x then 0
    else (fixToInt 1 0 0 (fixMul (fixOf (b32Min (b32Max x 0) oneF)) (Fix.ofInt 255 0))).1.toNat
  let elem (w : Nat) (f : Nat → Nat) : Nat := sumOf (c.zipIdx.map fun e => f e.1 * 2 ^ (w * e.2))
  match format with
  | 0 => elem 8 unorm
  | 1 => elem 16 fun x => (fpConvert .f32 .f16 .rne x).1
  | _ => elem 32 fun x => x

/-- A raster store touches its procedural block when its line is not in the raster cache (R206). -/
def rasterTouch (s : State) (t : TRef) (r : Req) (line : Nat) : Mem Unit :=
  let core := waveCore t.wave
  let present := (s.raster.get [] (coreQuad core)).any fun e => e.1 == core && e.2.is r.asid r.agen line none
  if present ∨ r.agen ≠ asidGen s r.asid then .ok s () else touch s r line

def rtwLane (f : RForm) (s : State) (t : TRef) : State × Lane :=
  match targetOf (.rtw f) false (srcRegs s t f.c 4) with
  | .error x => (s, .trap x)
  | .ok x =>
    let p := srcRegs s t f.a 2
    let n := pixelBytes x.format
    match x.pixel n (wAt p 0).toNat (wAt p 1).toNat with
    | none => (s, .done)
    | some va =>
      if counterFull (s.thread t).st then (s, .stay (.counterRoom 1))
      else if 2 ^ 57 < va + n then (s, .trap (simpleTrap 0x0B))
      else
        let r := threadReq s t 1 false
        let line := va / 128 * 128
        let room (s : State) : Mem Unit :=
          if rasterRoom s (waveCore t.wave) r.asid r.agen line then .ok s () else .fail s (.trackerRoom 6)
        match Mem.bind (rasterTouch s t r line) fun s _ => room s with
        | (s1, .error m) => (meet s1 t false m, .moved)
        | (s1, .ok _) =>
          let v := colourBytes x.format ((srcRegs s t f.b 4).map BitVec.toNat)
          (pendStore (rasterWrite s1 t r line (byteMask (va % 128) n) (linePut (va % 128) v)) t 4 false, .done)

def execRtw (f : RForm) (s : State) : Out :=
  .next (issue (.rtw f) .normal (fun s g _ ts => eachLane g (rtwLane f) s ts) s)

/-- Whether a depth may enter a target: neither a NaN nor negative (R183). -/
def depthOk (depth : Nat) : Bool := !b32Nan depth && !signOf .f32 depth

/-- The pair after a pair minimum (R183): keys are (depth << 32) | word, stored with the depth in the low half. -/
def pairMin (old depth word : Nat) : Nat :=
  let key (p : Nat) : Nat := p % 2 ^ 32 * 2 ^ 32 + p / 2 ^ 32
  if depth * 2 ^ 32 + word < key old then depth + 2 ^ 32 * word else old

/-- The update of one depth pixel at its home bank: the raster path, which the race detector does not watch (R113). -/
def depthUpdate (s : State) (r : Req) (va depth word : Nat) : Mem Unit :=
  let o := va % 128
  let line := va / 128 * 128
  let m := byteMask o 8
  Mem.bind (bankOpen s r line m .default) fun s v =>
    .ok (bankStore s r line m (linePut o (pairMin (lineGet v o 8) depth word)) none true) ()

/-- `zt` and `vbw` in one thread; `new` is the pair, if the operands give one (R414). -/
def depthLane (i : Instr) (f : RForm) (new : State → TRef → Option (Nat × Nat)) (s : State) (t : TRef) : State × Lane :=
  match targetOf i true (srcRegs s t f.c 4) with
  | .error x => (s, .trap x)
  | .ok x =>
    let p := srcRegs s t f.a 2
    match x.pixel 8 (wAt p 0).toNat (wAt p 1).toNat, new s t with
    | some va, some (depth, word) =>
      if counterFull (s.thread t).st then (s, .stay (.counterRoom 1))
      else if 2 ^ 57 < va + 8 then (s, .trap (simpleTrap 0x0B))
      else
        let s1 := endRegion s t
        if !depthOk depth then begun t (pendStore s1 t 4 false, .done)
        else
          match depthUpdate s1 (threadReq s1 t 2 false) va depth word with
          | (s2, .error m) => (meet s2 t false m, .moved)
          | (s2, .ok _) => begun t (pendStore s2 t 4 false, .done)
    | _, _ => begun t (endRegion s t, .done)

def execZt (f : RForm) (s : State) : Out :=
  .next (issue (.zt f) .normal (fun s g _ ts =>
    eachLane g (depthLane (.zt f) f fun s t =>
      let v := srcRegs s t f.b 2
      some ((wAt v 0).toNat, (wAt v 1).toNat)) s ts) s)

/-- The visibility word of a hit record (R182, R414). -/
def hitWord (r : List Word) : Nat :=
  bits (wAt r 4) 24 0 + (if (wAt r 5).getLsbD 7 then 2 ^ 25 * bits (wAt r 5) 6 0 else 0)

def execVbw (f : RForm) (s : State) : Out :=
  .next (issue (.vbw f) .normal (fun s g _ ts =>
    eachLane g (depthLane (.vbw f) f fun s t =>
      let r := srcRegs s t f.b 8
      if bits (wAt r 0) 3 0 = 1 then some ((wAt r 1).toNat, hitWord r) else none) s ts) s)

/-- Depth pairs of a tile, 64 of them, read line by line at their home banks. -/
def tilePairs (s : State) (r : Req) (va : Nat) : Mem (List Nat) :=
  Mem.bind (readBytes s r va 512) fun s bs => .ok s ((List.range 64).map fun i => ofBytes ((bs.drop (8 * i)).take 8))

def maskBits (l : List Bool) : Nat := sumOf (l.zipIdx.map fun e => if e.1 then 2 ^ e.2 else 0)

def covqLane (f : RForm) (s : State) (t : TRef) : State × Lane :=
  match targetOf (.covq f) true (srcRegs s t f.c 4) with
  | .error x => (s, .trap x)
  | .ok x =>
    let p := srcRegs s t f.a 2
    let z := (srcWord s t f.b).toNat
    if counterFull (s.thread t).ld then (s, .stay (.counterRoom 0))
    else
      let give (s : State) (m : Nat) : State × Lane := (loadResult s t 4 0 f.dst.num.toNat (toWords 2 m), .done)
      match x.pixel 8 (8 * (wAt p 0).toNat) (8 * (wAt p 1).toNat) with
      | none => give s 0
      | some va =>
        if 2 ^ 57 < va + 512 then (s, .trap (simpleTrap 0x0B))
        else
          match tilePairs s (threadReq s t 0 true) va with
          | (s1, .error m) => (meet s1 t true m, .moved)
          | (s1, .ok ps) => give s1 (maskBits (ps.map fun v => b32Lt (v % 2 ^ 32) z))

def execCovq (f : RForm) (s : State) : Out :=
  .next (issue (.covq f) .normal (fun s g _ ts => eachLane g (covqLane f) s ts) s)

/-! ### Task queues (R188, R189, R416, R417) -/

/-- A task queue's descriptor. -/
structure TaskQueue where
  base      : Nat
  log2      : Nat
  reserved  : Nat
  committed : Nat
  popped    : Nat
  deriving DecidableEq, Repr

/-- The checks of R188 in ascending offset. -/
def queueOf (bad : Trap) (v : Nat) : Except Trap TaskQueue :=
  let at? (o n : Nat) : Nat := v / 256 ^ o % 256 ^ n
  if at? 0 8 % 64 ≠ 0 then .error ⟨0x12, q (at? 0 8), 0, false, 0⟩
  else if at? 8 4 = 0 ∨ 24 < at? 8 4 ∨ at? 12 4 ≠ 0 ∨ at? 0x28 24 ≠ 0 then .error bad
  else .ok ⟨at? 0 8, at? 8 4, at? 0x10 8, at? 0x18 8, at? 0x20 8⟩

/-- Open a queue at its home bank and read it. -/
def openQueue (bad : Trap) (s : State) (r : Req) (va : Nat) : Fetch TaskQueue :=
  Fetch.bind (Fetch.of (bankOpen s r (va / 128 * 128) (byteMask (va % 128) 64) .default)) fun s v =>
    match queueOf bad (lineGet v (va % 128) 64) with
    | .error x => .trap s x
    | .ok y => .ok s y

/-- Raise one of a queue's counters, at an offset of its descriptor, to a value. -/
def setCounter (s : State) (r : Req) (va off value : Nat) : State :=
  let o := va % 128 + off
  bankStore s r (va / 128 * 128) (byteMask o 8) (linePut o value) none true

def TaskQueue.slot (y : TaskQueue) (i : Nat) : Nat := y.base + 64 * (i % 2 ^ y.log2)

/-- Append a record: reserved, written and committed in one step; false when the queue is full (R189). -/
def pushRecord (bad : Trap) (s : State) (r : Req) (va : Nat) (bs : List Byte) : Fetch Bool :=
  Fetch.bind (openQueue bad s r va) fun s y =>
    if 2 ^ y.log2 ≤ (y.reserved + 2 ^ 64 - y.popped) % 2 ^ 64 then .ok s false
    else if 2 ^ 57 < y.slot y.reserved + 64 then .trap s (simpleTrap 0x0B)
    else
      Fetch.bind (Fetch.of (writeBytes s r (y.slot y.reserved) bs)) fun s _ =>
        .ok (setCounter (setCounter s r va 0x10 ((y.reserved + 1) % 2 ^ 64)) r va 0x18 ((y.committed + 1) % 2 ^ 64)) true

/-- The oldest committed record, popped; none when there is none (R189). -/
def popRecord (bad : Trap) (s : State) (r : Req) (va : Nat) : Fetch (Option (List Byte)) :=
  Fetch.bind (openQueue bad s r va) fun s y =>
    if y.committed ≤ y.popped then .ok s none
    else if 2 ^ 57 < y.slot y.popped + 64 then .trap s (simpleTrap 0x0B)
    else
      Fetch.bind (Fetch.of (readBytes s r (y.slot y.popped) 64)) fun s bs =>
        .ok (setCounter s r va 0x20 ((y.popped + 1) % 2 ^ 64)) (some bs)

def emitLane (f : SForm) (s : State) (t : TRef) : State × Lane :=
  let va := q (rawSrc s t .b64 f.a)
  match blockVa va 64 with
  | some x => (s, .trap x)
  | none =>
    let bytes := (srcRegs s t f.b 16).flatMap fun w => toBytes 4 w.toNat
    match doRelease (endRegion s t) t .device with
    | (s1, .error x) => stopLane s1 t x
    | (s1, .ok _) =>
      match pushRecord (illegal (.emit f)) s1 (threadReq s1 t 2 false) va.toNat bytes with
      | (s2, .error e) => stopLane s2 t e
      | (s2, .ok took) => begun t (setV s2 t f.dst.num.toNat (if took then 0 else 1), .done)

def execEmit (f : SForm) (s : State) : Out :=
  .next (issue (.emit f) .normal (fun s g _ ts => eachLane g (emitLane f) s ts) s)

/-- A pop in one thread; `empty` says what an empty queue gives. -/
def popTask (i : Instr) (f : SForm) (got empty : State → TRef → State × Lane) (s : State) (t : TRef) : State × Lane :=
  let va := q (rawSrc s t .b64 f.a)
  match blockVa va 64 with
  | some x => (s, .trap x)
  | none =>
    let s1 := endRegion s t
    match popRecord (illegal i) s1 (threadReq s1 t 2 false) va.toNat with
    | (s2, .error e) => stopLane s2 t e
    | (s2, .ok none) => empty s2 t
    | (s2, .ok (some bs)) => got (setVs (doAcquireAll s2 t) t f.dst.num.toNat (toWords 16 (ofBytes bs))) t

def execTaskpop (f : SForm) (s : State) : Out :=
  .next (issue (.taskpop f) .normal (fun s g _ ts =>
    eachLane g (popTask (.taskpop f) f (fun s t => begun t (s, .done)) fun s _ => (s, .stay .retest)) s ts) s)

def execTaskpopTry (f : SForm) (s : State) : Out :=
  .next (issue (.taskpopTry f) .normal (fun s g _ ts =>
    eachLane g (popTask (.taskpopTry f) f
      (fun s t => begun t (setC s t f.b.num.toNat true, .done))
      fun s t => begun t (setC s t f.b.num.toNat false, .done)) s ts) s)

end Sys2Proof.Machine
end

