-- ==== Sys2Proof/Machine/March.lean ====
section
/-! DEFINITION. The marcher and the tile pre-pass: opcodes 0xD0-0xD3 and the stop of a march (R153-R165, R419-R422). A
march is run when it issues, so that its traps are precise (R161); its record appears when the marcher stops. -/

namespace Sys2Proof.Machine

/-! ### Parameter blocks (R153, R422) -/

/-- A checked image address: where the header lies, and how the image is read; a held run continues (R165). -/
def imageIO (b : Block) (t : TRef) (k : List Word) : SceneIO :=
  let loc : Bool := (wAt k 1).getLsbD 31
  let base := if loc then (wAt k 0).toNat else (wAt k 0).toNat + 2 ^ 32 * bits (wAt k 1) 24 0
  let read : Reader := if loc then scratchReader b t else engineRead t
  { image := fun s o n => logged t read s (base + o) n, table := logged t (engineRead t), pool := logged t (cachedRead .brick t) }

/-- The trap-0x01 fields of +1. -/
def imageField (k : List Word) : Bool :=
  bits (wAt k 1) 30 25 != 0 || ((wAt k 1).getLsbD 31 && bits (wAt k 1) 24 0 != 0)

/-- The image's address, then its alignment. -/
def imageCheck (s : State) (b : Block) (k : List Word) : Option Trap :=
  let loc : Bool := (wAt k 1).getLsbD 31
  if loc && (localPlace s b (wAt k 0) 1).isNone then some (simpleTrap 0x15)
  else if (wAt k 0).toNat % 16 ≠ 0 then some ⟨0x12, if loc then q (wAt k 0).toNat else pair (wAt k 0) ((wAt k 1) &&& 0x1FFFFFF), 0, false, 0⟩
  else none

/-- The march parameters of +2 and +3. -/
def marchField (k : List Word) : Bool :=
  let eps := (wAt k 2).toNat
  !b32Fin eps || b32Lt eps 0 || bits (wAt k 3) 31 18 != 0 || bits (wAt k 3) 15 0 == 0

/-! ### The ray's coordinates (R147, R155) -/

def org (ray : List Nat) (i : Nat) : Nat := ray.getD i 0
def dir (ray : List Nat) (i : Nat) : Nat := ray.getD (3 + i) 0

/-- o + t d over t in [a, b], with directed rounding; a NaN at either endpoint makes it the entire interval (R144). -/
def ivCoord (ray : List Nat) (a b i : Nat) : Iv :=
  let x (rm t : Nat) : Nat := b32Fma rm t (dir ray i) (org ray i)
  if b32Nan (x rdnMode a) || b32Nan (x rdnMode b) then .entire
  else ⟨b32Min (x rdnMode a) (x rdnMode b), b32Max (x rupMode a) (x rupMode b)⟩

/-- RUP(|d| × |tm - (a + b)/2|), from the exact value; 0 × ∞ is 0 (R144). DESIGN CHOICE (assumption 100): where a, b or
tm is infinite the difference is ∞ - ∞, to which the spec gives no value, and the term is ∞ unless d is 0. -/
def midError (dd tm a b : Nat) : Nat :=
  let gap := fixAdd 1 (fixOf tm) (fixAdd 1 (exactTerm true a (-1)) (exactTerm true b (-1)))
  if b32Abs dd = 0 then 0
  else if !(b32Fin tm && b32Fin a && b32Fin b) then b32Inf
  else if gap.n = 0 then 0
  else if !b32Fin dd then b32Abs dd
  else (roundFix .f32 rupMode 0 false (fixMul { gap with neg := false } (fixOf (b32Abs dd)))).1

def afCoord (ray : List Nat) (a b i : Nat) : Af :=
  let tm := b32AddScl rneMode (-1) a b
  let hw := b32AddScl rupMode (-1) b (b32Neg a)
  let (c, ec) := b32Err fun rm => b32Fma rm tm (dir ray i) (org ray i)
  let (w, ew) := b32Err fun rm => b32Mul rm 0 hw (dir ray i)
  Af.norm ⟨c, w, b32Chain [ec, ew, midError (dir ray i) tm a b]⟩

/-- The coordinates of frame 0 for a segment, or for the point a (R145, R155). -/
def rayCoords (mode : Nat) (ray : List Nat) (a b : Nat) : List SVal :=
  (List.range 3).map fun i =>
    match mode with
    | 0 => .pt (pFma a (dir ray i) (org ray i)) ((List.range 3).map fun j => if i = j then oneF else 0)
    | 1 => .iv (ivCoord ray a b i)
    | _ => .af (afCoord ray a b i)

/-! ### The procedure (R154-R156) -/

/-- A march: its ray and parameters, and the program it evaluates. -/
structure Marcher where
  ray    : List Word
  params : List Word
  io     : SceneIO
  head   : Scene

def Marcher.rays (m : Marcher) : List Nat := m.ray.map BitVec.toNat
def Marcher.tmin (m : Marcher) : Nat := (wAt m.ray 6).toNat
def Marcher.tmax (m : Marcher) : Nat := (wAt m.ray 7).toNat
def Marcher.limit (m : Marcher) : Nat := bits (wAt m.params 3) 15 0
def Marcher.iv (m : Marcher) : Bool := (wAt m.params 3).getLsbD 16
def Marcher.noNormal (m : Marcher) : Bool := (wAt m.params 3).getLsbD 17
def Marcher.mode (m : Marcher) : Nat := if m.iv then 1 else 2

/-- What a run ends in: the record, and the context held when it is a callout. -/
abbrev MarchEnd := MarchRec × Option MarchCtx

/-- Word 0 without its callout fields. -/
def Marcher.word0 (m : Marcher) (status kind : Nat) (invalid : Bool) : Nat :=
  status + 2 ^ 4 * kind + (if invalid then 2 ^ 8 else 0) + (if m.iv then 2 ^ 9 else 0)

/-- A stop other than a callout. -/
def Marcher.stop (m : Marcher) (s : State) (status kind t steps : Nat) : Fetch MarchEnd :=
  .ok s (⟨[d (m.word0 status kind false), d t, d t, 0, 0, 0, 0, d steps], List.replicate 16 0⟩, none)

/-- A stop at OPQ. -/
def Marcher.callout (m : Marcher) (s : State) (segs : List (Nat × Nat)) (steps a b mode n : Nat) (e : Eval) : Fetch MarchEnd :=
  let co := [d a, d b] ++ (e.frames.headD []).flatMap SVal.words
  .ok s (⟨[d (m.word0 4 0 false + 2 ^ 16 * n + 2 ^ 24 * mode), d a, d b, 0, 0, 0, 0, d steps], co ++ List.replicate (16 - co.length) 0⟩,
    some { ray := m.ray, params := m.params, segs := segs.map fun p => (d p.1, d p.2), steps := steps, a := d a, b := d b
           mode := mode, pos := e.pos, vals := e.vals.map SVal.words, frames := e.frames.map fun f => f.map SVal.words })

/-- rnd(a - v / g), from the exact value. -/
def newtonStep (a v g : Nat) : Nat :=
  if b32Fin a ∧ b32Fin v ∧ b32Fin g then
    pQuot (fixAdd 1 (fixMul (fixOf a) (fixOf g)) (exactTerm true v 0)) (fixOf g)
  else pSub a (pDiv v g)

/-- The record of a HIT or INSIDE at a, given the field there (R155). -/
def Marcher.refined (m : Marcher) (s : State) (steps a b : Nat) (v : Nat) (g : List Nat) : Fetch MarchEnd :=
  let gd := pDot g [dir m.rays 0, dir m.rays 1, dir m.rays 2]
  let tref := if b32Fin v ∧ b32Lt 0 v ∧ b32Lt gd 0 then b32Min b (newtonStep a v gd) else a
  let sq (i : Nat) : Nat := pMul (g.getD i 0) (g.getD i 0)
  let len := pSqrt (pAdd (pAdd (sq 0) (sq 1)) (sq 2))
  let good := b32Fin len && b32Lt 0 len
  let n (i : Nat) : Word := if good then d (pDiv (g.getD i 0) len) else 0
  let status := if b32Le a m.tmin ∧ b32Le m.tmin a then 2 else 1
  .ok s (⟨[d (m.word0 status 0 (!good)), d a, d tref, n 0, n 1, n 2, d v, d steps], List.replicate 16 0⟩, none)

/-- The end of a point evaluation at a. -/
def Marcher.atPoint (m : Marcher) (s : State) (segs : List (Nat × Nat)) (steps a b : Nat) (x : EvalStop) : Fetch MarchEnd :=
  match x with
  | .opaque n e => m.callout s segs steps a b 0 n e
  | .field (.pt v g) => m.refined s steps a b v g
  | .field _ => m.refined s steps a b 0 [0, 0, 0]

/-- Refine at a segment's start. -/
def Marcher.refine (m : Marcher) (s : State) (segs : List (Nat × Nat)) (steps a b : Nat) : Fetch MarchEnd :=
  if m.noNormal then
    let status := if b32Le a m.tmin ∧ b32Le m.tmin a then 2 else 1
    m.stop s status 0 a steps
  else
    Fetch.bind (evalRun m.io m.head 0 65536 s (Eval.start (rayCoords 0 m.rays a b))) fun s x => m.atPoint s segs steps a b x

/-- What follows the bound of a segment; `go` continues with the stack. -/
def Marcher.bounded (m : Marcher) (go : State → List (Nat × Nat) → Nat → Fetch MarchEnd) (s : State) (segs : List (Nat × Nat))
    (steps a b : Nat) (x : EvalStop) : Fetch MarchEnd :=
  match x with
  | .opaque n e => m.callout s segs steps a b m.mode n e
  | .field v =>
    let iv := v.hull
    let mid := b32AddScl rneMode (-1) a b
    if b32Lt 0 iv.lo then go s segs steps
    else if b32Lt iv.hi 0 || b32Le (b32Sub rupMode b a) (wAt m.params 2).toNat || !(b32Lt a mid && b32Lt mid b) then
      m.refine s segs steps a b
    else if segs.length ≥ 15 then m.stop s 3 1 a steps
    else go s ((a, mid) :: (mid, b) :: segs) steps

/-- The loop of R154; every turn counts a step or stops, so the fuel of `marchFuel` turns is never spent. -/
def Marcher.loop (m : Marcher) : Nat → State → List (Nat × Nat) → Nat → Fetch MarchEnd
  | 0, s, _, steps => m.stop s 3 0 0 steps
  | n + 1, s, segs, steps =>
    match segs with
    | [] => m.stop s 0 0 m.tmax steps
    | (a, b) :: rest =>
      if steps = m.limit then m.stop s 3 0 a steps
      else
        Fetch.bind (evalRun m.io m.head m.mode 65536 s (Eval.start (rayCoords m.mode m.rays a b))) fun s x =>
          m.bounded (m.loop n) s rest (steps + 1) a b x

def marchFuel : Nat := 65537

/-- A march from its start (R154): a range that is empty or holds a NaN misses before the image is read. -/
def marchRun (io : SceneIO) (ray params : List Word) (s : State) : Fetch MarchEnd :=
  let bare : Marcher := ⟨ray, params, io, ⟨0, 0, 0, 0, 0⟩⟩
  if b32Le bare.tmin bare.tmax then
    Fetch.bind (sceneHead io s) fun s h => Marcher.loop ⟨ray, params, io, h⟩ marchFuel s [(bare.tmin, bare.tmax)] 0
  else bare.stop s 0 0 bare.tmax 0

/-- A march resumed with the answer to its callout (R158). -/
def marchResume (io : SceneIO) (c : MarchCtx) (answer : List Word) (s : State) : Fetch MarchEnd :=
  Fetch.bind (sceneHead io s) fun s h =>
    let m : Marcher := ⟨c.ray, c.params, io, h⟩
    let val (l : List Word) : SVal := SVal.ofWords c.mode l
    let e : Eval := ⟨c.pos, val answer :: c.vals.map val, c.frames.map fun f => f.map val⟩
    let segs := c.segs.map fun p => (p.1.toNat, p.2.toNat)
    Fetch.bind (evalRun m.io m.head c.mode 65536 s e) fun s x =>
      if c.mode = 0 then m.atPoint s segs c.steps c.a.toNat c.b.toNat x
      else m.bounded (m.loop marchFuel) s segs c.steps c.a.toNat c.b.toNat x

/-! ### Contexts and runs (R159, R160) -/

/-- March contexts in use on a core: runs under way, one that a fetch holds, and contexts stopped at CALLOUT. -/
def marchContexts (s : State) (core : Nat) : Nat :=
  sumOf ((List.filter (fun e : Nat × Wave => waveCore e.1 == core) s.waves).map fun e =>
    sumOf (e.2.threads.map fun x => x.2.marchRuns.length + (if x.2.march.isSome || x.2.holds 1 then 1 else 0)))

/-- A successful run is under way: its record and its context appear at the stop. -/
def startMarch (s : State) (t : TRef) (dst : Nat) (back : Option MarchCtx) (x : MarchEnd) : State :=
  let th := s.thread t
  let r : MarchRun := { pc := th.pc, region := th.regionSeq, left := x.1, next := x.2, back := back }
  loadResult (s.modThread t fun y => { y.notesUnits back y.trav with march := none, marchRuns := y.marchRuns ++ [r] }) t 4 1 dst [0]

def marchLane (f : RForm) (b : Block) (s : State) (t : TRef) : State × Lane :=
  let args := runArgs s t ([srcRegs s t f.a 8, srcRegs s t f.b 4].flatten)
  let k := args.drop 8
  let th := s.thread t
  if imageField k || marchField k then (s, .trap (illegal (.march f)))
  else
    match imageCheck s b k with
    | some x => (s, .trap x)
    | none =>
      if counterFull th.ld then (s, .stay (.counterRoom 0))
      else if th.march.isNone && !th.holds 1 && marchContexts s (waveCore t.wave) ≥ 64 then (s, .stay .recheck)
      else
        ranLane t (marchRun (imageIO b t k) (args.take 8) k (beginRun s t 1 args)) fun s1 x =>
          (startMarch s1 t f.dst.num.toNat none x, .done)

def execMarch (f : RForm) (s : State) : Out :=
  .next (issue (.march f) .normal (fun s g b ts => eachLane g (marchLane f b) s ts) s)

/-- The mode a suffix of `opqret` names (R421). -/
def opqretMode (xf : BitVec 4) : Nat := bits xf 1 0

def opqretLane (f : RForm) (b : Block) (s : State) (t : TRef) : State × Lane :=
  let th := s.thread t
  match th.march with
  | none => (s, .trap (illegal (.opqret f)))
  | some c =>
    if c.mode ≠ opqretMode f.xf then (s, .trap (illegal (.opqret f)))
    else if counterFull th.ld then (s, .stay (.counterRoom 0))
    else
      let args := runArgs s t (srcRegs s t f.a (opqretRegs f.xf).1)
      ranLane t (marchResume (imageIO b t c.params) c args (beginRun s t 1 args)) fun s1 x =>
        (startMarch s1 t f.dst.num.toNat (some c) x, .done)

def execOpqret (f : RForm) (s : State) : Out :=
  .next (issue (.opqret f) .normal (fun s g b ts => eachLane g (opqretLane f b) s ts) s)

/-- Word 0 of a stopped run, or a beam's status, reaches its destination, and the load is counted out in order. -/
def unitDone (s : State) (t : TRef) (unit : Nat) (w : Word) : State :=
  let mine (l : PendLoad) : Bool := l.t == t && l.unit == unit && !l.live
  match s.loads.find? mine with
  | none => s
  | some l =>
    let s1 := l.regs.foldl (fun s r => setV s t r.1 w) s
    retireLoads { s1 with loads := markFirst mine (fun x => { x with live := true, regs := [] }) s1.loads } t

/-- The oldest march of a thread stops: its record and its context appear; a run of an earlier region leaves them to the
present one as well. -/
def Thread.marchStops (x : Thread) (r : MarchRun) : Thread :=
  let after (c : Option MarchCtx) : Option MarchCtx := r.next.orElse fun _ => c
  { x with marchRuns := x.marchRuns.drop 1, marchRec := r.left, march := after x.march
           unitsWere := if r.region = x.regionSeq then x.unitsWere
             else x.unitsWere.map fun u => { u with march := after u.march, marchRec := r.left } }

/-- A thread's block is halted for pre-emption: its runs go no further (R160). -/
def runsHalted (s : State) (t : TRef) : Bool := (s.threadBlock? t).any fun b => b.halted

/-- R154: the oldest run of a thread stops; at a halt it is cancelled instead (R160). -/
def execMarchStop (wave lane : Nat) (s : State) : Out :=
  .next (
    let t : TRef := ⟨wave, lane⟩
    match (s.thread t).marchRuns with
    | [] => s
    | r :: _ => if runsHalted s t then s else unitDone (s.modThread t fun x => x.marchStops r) t 1 (wAt r.left.words 0))

/-- `mhit` waits for the last march; `f` reads the record (R420). -/
def mhitLane (f : State → TRef → MarchRec → State × Lane) (s : State) (t : TRef) : State × Lane :=
  if (s.thread t).marchRuns ≠ [] then (s, .stay .recheck) else f s t (s.thread t).marchRec

def execMhit (f : RForm) (s : State) : Out :=
  .next (issue (.mhit f) .normal (fun s g _ ts =>
    eachLane g (mhitLane fun s t r => (setVs s t f.dst.num.toNat r.words, .done)) s ts) s)

/-- The registers `mhit.co` writes, by callout mode. -/
def calloutRegs (w0 : Word) : Nat := match bits w0 25 24 with | 0 => 14 | 1 => 8 | _ => 11

def execMhitCo (f : RForm) (s : State) : Out :=
  .next (issue (.mhitCo f) .normal (fun s g _ ts =>
    eachLane g (mhitLane fun s t r =>
      let w0 := wAt r.words 0
      if bits w0 3 0 ≠ 4 then (s, .trap (illegal (.mhitCo f)))
      else (setVs s t f.dst.num.toNat (r.callout.take (calloutRegs w0)), .done)) s ts) s)

/-! ### The tile pre-pass (R162-R164, R422) -/

/-- The code that produced a value: its opcodes by position, each with what it adds to the frame depth, and whether it
holds no DUP, SWAP or DROP. -/
structure Span where
  ops   : List (Nat × Int)
  clean : Bool
  deriving DecidableEq, Repr

def Span.empty : Span := ⟨[], true⟩
def Span.tainted (a : Span) : Span := { a with clean := false }

/-- The frame depth a span's opcodes up to a position have added. -/
def Span.depth (a : Span) (pos : Nat) : Int := ((a.ops.filter fun o => o.1 ≤ pos).map (·.2)).foldl (· + ·) 0

/-- No DUP, SWAP or DROP, and XFM and XFP balanced within it (R163). -/
def Span.prunable (a : Span) : Bool :=
  a.clean && a.ops.all (fun o => decide (0 ≤ a.depth o.1)) && (a.ops.map (·.2)).foldl (· + ·) 0 == 0

/-- The pass: the code as rewritten so far, newest first, by source position; the spans of the stack's values, newest
first; the XFMs that wait for the next value pushed; and the positions of the DROPs. -/
structure Spans where
  code : List (Nat × List Byte)
  vals : List Span
  pend : List (Nat × Int)
  drops : List Nat
  deriving DecidableEq, Repr

/-- Whether x lies below y - r, r any constant. -/
def apartBy (x y r : Nat) : Bool :=
  if b32Fin r then apart x y r else r = b32NegInf && b32Lt x b32Inf && b32Lt b32NegInf y

/-- MIN or MAX decided over the box (R163): whether a is kept, or b. -/
def decided (wantMax : Bool) (a b : Iv) : Option Bool :=
  let (aWins, bWins) := if wantMax then (b32Lt b.hi a.lo, b32Lt a.hi b.lo) else (b32Lt a.hi b.lo, b32Lt b.hi a.lo)
  if aWins then some true else if bWins then some false else none

/-- What a MIN, MAX or SMIN of prunable operands becomes: another opcode, and the operand kept, if one is. -/
def rewritten (code r : Nat) (x y : Iv) : Option (List Byte) × Option Bool :=
  match code with
  | 0x08 => (none, decided false x y)
  | 0x09 => (none, decided true x y)
  | 0x15 => if apartBy x.hi y.lo r || apartBy y.hi x.lo r then (some [0x08], decided false x y) else (none, none)
  | _ => (none, none)

/-- A span extended to the present position: a DROP within its code is one it holds. -/
def Spans.reach (z : Spans) (a : Span) : Span :=
  { a with clean := a.clean && !z.drops.any fun p => a.ops.any fun o => decide (o.1 < p) }

/-- A value computed from the `n` topmost: its span holds theirs, the waiting XFMs and the opcode. -/
def Spans.node (z : Spans) (pos n : Nat) : Spans :=
  let kids := z.vals.take n
  { z with vals := z.reach ⟨(kids.flatMap (·.ops)) ++ z.pend ++ [(pos, 0)], kids.all (·.clean)⟩ :: z.vals.drop n, pend := [] }

/-- A two-operand node, rewritten when both operands are prunable: the node and the operand not kept leave the code. -/
def Spans.choice (z : Spans) (pos code r : Nat) (x y : Iv) : Spans :=
  let a := z.vals.getD 1 .empty
  let b := z.vals.getD 0 .empty
  if !(a.prunable && b.prunable) then z.node pos 2
  else
    match rewritten code r x y with
    | (_, some keepA) =>
      let (kept, gone) := if keepA then (a, b) else (b, a)
      { z with code := z.code.filter fun c => c.1 != pos && !gone.ops.any fun o => o.1 == c.1
               vals := { kept with ops := kept.ops ++ z.pend } :: z.vals.drop 2, pend := [] }
    | (some other, none) => { z with code := z.code.map fun (c : Nat × List Byte) => if c.1 = pos then (pos, other) else c }.node pos 2
    | (none, none) => z.node pos 2

/-- The spans after the opcode at a position (R163); `vals` are the interval values before it, newest first, and `r` an
SMIN's radius. A DROP belongs to the spans that reach across it. -/
def Spans.step (z0 : Spans) (o : SceneOp) (pos : Nat) (bytes : List Byte) (vals : List SVal) (r : Nat) : Spans :=
  let z : Spans := { z0 with code := (pos, bytes) :: z0.code }
  let v (i : Nat) : Iv := (vals.getD i (SVal.top 1)).hull
  let sp (i : Nat) : Span := z.vals.getD i .empty
  match o.code with
  | 0x13 => { z with pend := z.pend ++ [(pos, 1)] }
  | 0x14 => match z.vals with | a :: rest => { z with vals := z.reach { a with ops := a.ops ++ [(pos, -1)] } :: rest } | [] => z
  | 0x10 => { z with vals := ⟨z.pend ++ [(pos, 0)], false⟩ :: (sp 0).tainted :: z.vals.drop 1, pend := [] }
  | 0x11 => { z with vals := { (sp 1).tainted with ops := (sp 1).ops ++ z.pend ++ [(pos, 0)] } :: (sp 0).tainted :: z.vals.drop 2, pend := [] }
  | 0x12 => { z with vals := z.vals.drop 1, drops := pos :: z.drops }
  | 0x0A | 0x0B | 0x0C | 0x0D | 0x18 | 0x19 => z.node pos 1
  | 0x05 | 0x06 | 0x07 | 0x08 | 0x09 | 0x0E | 0x15 => z.choice pos o.code r (v 1) (v 0)
  | 0x0F => z.node pos 3
  | _ => z.node pos 0

/-- The interval evaluation of the whole program with its spans, and the rewritten code; OPQ gives the entire interval (R162). -/
def pruneRun (io : SceneIO) (h : Scene) : Nat → State → Eval → Spans → Fetch (Iv × List Byte)
  | 0, s, _, _ => .trap s ⟨0x14, 0, 8, false, 0⟩
  | n + 1, s, e, z =>
    Fetch.bind (sceneFetch io h s e) fun s o =>
      let len := o.next - e.pos
      let arg := toBytes (len - 1) o.arg
      let bytes : List Byte := BitVec.ofNat 8 o.code :: arg
      if o.code = 0x00 then
        .ok s ((e.vals.headD (SVal.top 1)).hull, z.code.reverse.flatMap (·.2) ++ bytes)
      else
        Fetch.bind (if o.code = 0x15 then sceneConst io h s o.arg else Fetch.ok s 0) fun s r =>
          Fetch.bind (sceneStep io h 1 s e o) fun s e' => pruneRun io h n s e' (z.step o e.pos bytes e.vals r)

/-- The greatest stack depth a code reaches (R164). -/
def codeNeed : Nat → List Byte → Nat → Nat → Nat
  | 0, _, _, m => m
  | _, [], _, m => m
  | n + 1, c :: rest, depth, m =>
    match sceneOp c.toNat with
    | none => m
    | some (k, pops, pushes, _) => codeNeed n (rest.drop k) (depth - pops + pushes) (max m (depth - pops + pushes))

/-- The parameters of `bcprune` (R422). -/
def pruneField (k : List Word) : Bool :=
  imageField k || bits (wAt k 3) 31 17 != 0 || bits (wAt k 3) 16 0 < 16 || bits (wAt k 3) 16 0 > 65536

/-- Where `n` output bytes of `bcprune` lie in the block's own footprint (R58, R162, R422). -/
def prunePlace (b : Block) (off n : Nat) : Option Place :=
  if off + n ≤ b.scratchBytes + b.chanBytes then some (.scratch b.core (b.scratchOff + off) b.id)
  else if b.template ∧ segmentBase ≤ off ∧ off + n ≤ segmentBase + b.segBytes then some (.segment (off - segmentBase))
  else none

/-- The output image stored at its offset; in the template segment a ninth private granule is trap 0x10 (R199). -/
def pruneStore (s : State) (t : TRef) (b : Block) (k : List Word) (out : Option (List Byte)) : State × Option Trap :=
  match out, prunePlace b (wAt k 2).toNat (bits (wAt k 3) 16 0) with
  | some bs, some p => placeWrite s t p bs
  | _, _ => (s, none)

def pruneCheck (s : State) (b : Block) (k : List Word) : Option Trap :=
  let off := (wAt k 2).toNat
  if (prunePlace b off (bits (wAt k 3) 16 0)).isNone then some (simpleTrap 0x15)
  else if off % 16 ≠ 0 then some ⟨0x12, q off, 0, false, 0⟩
  else imageCheck s b k

/-- The bytes of a header (R140). -/
def headBytes (length coff need flags count : Nat) : List Byte :=
  toBytes 4 0x53424331 ++ toBytes 4 length ++ toBytes 4 coff ++ toBytes 1 need ++ toBytes 1 flags ++ toBytes 2 count

/-- The pass: status, byte count, and the output image when there is room for it. -/
def pruneImage (io : SceneIO) (cap : Nat) (box : List SVal) (s : State) : Fetch (Nat × Nat × Option (List Byte)) :=
  Fetch.bind (sceneHead io s) fun s h =>
    Fetch.bind (pruneRun io h 65536 s (Eval.start box) ⟨[], [], [], []⟩) fun s r =>
      let (root, code) := r
      let length := 16 + code.length
      let coff := ceilDiv length 16 * 16
      let total := coff + 16 * h.count
      let status := if b32Lt 0 root.lo then 1 else if b32Lt root.hi 0 then 2 else 0
      if cap < total then .ok s (3, total, none)
      else
        Fetch.bind (readAll io.image 16 ((List.range h.count).map fun i => h.coff + 16 * i) s) fun s consts =>
          let head := headBytes length coff (codeNeed 65536 code 0 0) (h.flags ||| 4) h.count
          let pad := List.replicate (coff - length) 0
          .ok s (status, total, some (head ++ code ++ pad ++ consts.flatMap (toBytes 16)))

def bcpruneLane (f : RForm) (b : Block) (s : State) (t : TRef) : State × Lane :=
  let args := runArgs s t ([srcRegs s t f.a 4, srcRegs s t f.b 6].flatten)
  let k := args.take 4
  if pruneField k then (s, .trap (illegal (.bcprune f)))
  else
    match pruneCheck s b k with
    | some x => (s, .trap x)
    | none =>
      let v := args.drop 4
      let box := (List.range 3).map fun i => SVal.iv (Iv.read ⟨(wAt v i).toNat, (wAt v (3 + i)).toNat⟩)
      let s1 := beginRun (endRegion s t) t 0 args
      ranLane t (pruneImage (imageIO b t k) (bits (wAt k 3) 16 0) box s1) fun s2 (status, n, out) =>
        match pruneStore s2 t b k out with
        | (s3, some x) => (s3, .trap x)
        | (s3, none) => begun t (setVs s3 t f.dst.num.toNat [d status, d n], .done)

def execBcprune (f : RForm) (s : State) : Out :=
  .next (issue (.bcprune f) .normal (fun s g b ts => eachLane g (bcpruneLane f b) s ts) s)

end Sys2Proof.Machine
end

