-- ==== Sys2Proof/Machine/Traverse.lean ====
section
/-! DEFINITION. Acceleration structures, ray traversal and beams: opcodes 0xD4-0xD7, the stop of a traversal and the
completion of a beam (R166-R187, R423-R426, R455, R456). A traversal and a beam's walk are run when they issue, so that
their traps are precise; records and statuses appear when the unit stops. -/

namespace Sys2Proof.Machine

/-! ### Structures -/

/-- A step of a traversal: a value, or the error kind that stops it (R177); kind 0 is a changed epoch (R179). -/
abbrev Trav (α : Type) := Fetch (Except Nat α)

def Trav.bind {α β : Type} (r : Trav α) (f : State → α → Trav β) : Trav β :=
  Fetch.bind r fun s x => match x with
    | .ok a => f s a
    | .error k => Fetch.ok s (Except.error k)
def Trav.ok {α : Type} (s : State) (a : α) : Trav α := Fetch.ok s (Except.ok a)
def Trav.stop {α : Type} (s : State) (kind : Nat) : Trav α := Fetch.ok s (Except.error kind)
def Trav.read (read : Reader) (s : State) (va n : Nat) : Trav Nat := Fetch.bind (read s va n) fun s v => Fetch.ok s (Except.ok v)

/-- A structure's header (R166). -/
structure Header where
  node  : Nat
  leaf  : Nat
  level : Nat
  root  : Nat
  epoch : Word
  deriving DecidableEq, Repr

/-- DESIGN CHOICE (assumption 102): the spec gives a header VA that is not 64-byte aligned no fate; the 64 bytes at that
address are read. -/
def readHeader (read : Reader) (s : State) (va : Nat) : Trav Header :=
  Trav.bind (Trav.read read s va 64) fun s v =>
    let at? (o n : Nat) : Nat := v / 256 ^ o % 256 ^ n
    if at? 0 4 ≠ 0x4E564831 ∨ 1 < at? 4 2 ∨ 1 < at? 6 2 ∨ at? 8 8 % 128 ≠ 0 ∨ at? 0x10 8 % 16 ≠ 0
        ∨ 1 < at? 0x18 4 / 2 ^ 29 ∨ at? 0x24 28 ≠ 0 then .stop s 1
    else .ok s ⟨at? 8 8, at? 0x10 8, at? 4 2, at? 0x18 4, d (at? 0x1C 4)⟩

/-- Reference types and indexes (R168). -/
def refType (x : Nat) : Nat := x / 2 ^ 29 % 8
def refIndex (x : Nat) : Nat := x % 2 ^ 29

/-- A ray's interval test of a box: none on a miss, else the entry and the exit (R171). -/
def slabLimit (rm lim o rd : Nat) : Nat :=
  if b32Fin lim ∧ b32Fin o ∧ b32Fin rd then
    (roundFix .f32 rm 0 false (fixMul (fixAdd rm (fixOf lim) (exactTerm true o 0)) (fixOf rd))).1
  else (fpMul .f32 (by32 rm 0) (pSub lim o) rd).1

def slabTest (o dd : List Nat) (lo hi : List Nat) (t0 t1 : Nat) : Option (Nat × Nat) :=
  let (entry, exit) := (List.range 3).foldl (fun (r : Nat × Nat) j =>
    let rd := (fpRcp .f32 .rne (dd.getD j 0)).1
    let near := if b32Lt rd 0 then hi.getD j 0 else lo.getD j 0
    let far := if b32Lt rd 0 then lo.getD j 0 else hi.getD j 0
    let n := slabLimit rdnMode near (o.getD j 0) rd
    let f := slabLimit rupMode far (o.getD j 0) rd
    if b32Nan n ∨ b32Nan f then r else (b32Max r.1 n, b32Min r.2 f)) (t0, t1)
  if b32Le entry exit then some (entry, exit) else none

/-- A child of a node: its slot, reference, mask and box (R167). -/
structure Child where
  slot : Nat
  ref  : Nat
  mask : Nat
  lo   : List Nat
  hi   : List Nat
  deriving DecidableEq, Repr

/-- One child of a node's 128 bytes; none when it is absent or empty. -/
def nodeChild (top : Bool) (v i : Nat) : Except Nat (Option Child) :=
  let at? (o n : Nat) : Nat := v / 256 ^ o % 256 ^ n
  let ref := at? (0x28 + 4 * i) 4
  let ql (j : Nat) : Nat := at? (0x10 + 6 * i + j) 1
  let qh (j : Nat) : Nat := at? (0x13 + 6 * i + j) 1
  if !(at? 0xF 1).testBit i ∨ refType ref = 0 then .ok none
  else if 6 ≤ refType ref then .error 2
  else if refType ref = 3 ∧ !top then .error 3
  else if (List.range 3).any fun j => qh j < ql j then .error 4
  else
    let lim (rm q j : Nat) : Nat := b32Fma rm (fpOfInt .f32 q) (at? (0xC + j) 1 * 2 ^ 23) (at? (4 * j) 4)
    .ok (some ⟨i, ref, at? (0x38 + i) 1, (List.range 3).map fun j => lim rdnMode (ql j) j
              , (List.range 3).map fun j => lim rupMode (qh j + 1) j⟩)

/-- A node's children, read as one line (R178). DESIGN CHOICE (assumption 102): the spec orders no checks of a node that
breaks several; the scale exponents come before the slots, and in a slot the reference type before the box. -/
def nodeChildren (read : Reader) (sp : TravSpace) (s : State) (index : Nat) : Trav (List Child) :=
  Trav.bind (Trav.read read s (sp.node + 128 * index) 128) fun s v =>
    let e (j : Nat) : Nat := v / 256 ^ (0xC + j) % 256
    if (List.range 3).any fun j => e j = 0 ∨ e j = 255 then .stop s 4
    else
      Fetch.ok s ((List.range 4).foldl (fun (r : Except Nat (List Child)) i =>
        match r, nodeChild (sp.level == 1) v i with
        | .error k, _ => .error k
        | .ok _, .error k => .error k
        | .ok l, .ok none => .ok l
        | .ok l, .ok (some c) => .ok (l ++ [c])) (.ok []))

/-- A ray carried into an instance's space (R170). -/
def instanceRay (v : Nat) (sp : TravSpace) : List Word × List Word :=
  let m (i j : Nat) : Nat := v / 256 ^ (16 * i + 4 * j) % 2 ^ 32
  let row (i : Nat) (x : List Word) : Nat := pDot [m i 0, m i 1, m i 2] (x.map BitVec.toNat)
  ((List.range 3).map fun i => d (pAdd (row i sp.org) (m i 3)), (List.range 3).map fun i => d (row i sp.dir))

/-- An instance leaf entered: none when its mask leaves it out; else its bottom header, with the header's address, and
space (R169, R170). -/
def enterInstance (read : Reader) (mask : Nat) (sp : TravSpace) (s : State) (index : Nat) : Trav (Option (Nat × Header × TravSpace)) :=
  Trav.bind (Trav.read read s (sp.leaf + 16 * index) 64) fun s v =>
    let at? (o n : Nat) : Nat := v / 256 ^ o % 256 ^ n
    if at? 0x38 1 &&& mask = 0 then .ok s none
    else
      Trav.bind (readHeader read s (at? 0x30 8)) fun s h =>
        if h.level ≠ 0 then .stop s 3
        else
          let r := instanceRay v sp
          .ok s (some (at? 0x30 8, h, ⟨h.node, h.leaf, 0, r.1, r.2, some (at? 0x39 1 % 128, (at? 0x3A 2).testBit 0)⟩))

/-! ### The triangle test (R172) -/

/-- x y' - y x' with every operation rounded, in a format. -/
def cross2 (f : Fmt) (x y x' y' : Nat) : Nat := (fpSub f .rne (fpMul f .rne x y').1 (fpMul f .rne y x').1).1

def cross64 (x y x' y' : Nat) : Nat :=
  let w (a : Nat) : Nat := (fpConvert .f32 .f64 .rne a).1
  (fpConvert .f64 .f32 .rne (cross2 .f64 (w x) (w y) (w x') (w y'))).1

/-- The axis R172 takes as the ray's major one. -/
def majorAxis (dd : List Nat) : Nat :=
  let big (i j : Nat) : Bool := b32Lt (b32Abs (dd.getD j 0)) (b32Abs (dd.getD i 0))
  let k := if big 1 0 then 1 else 0
  if big 2 k then 2 else k

/-- (t, u, v, det) of a ray and a triangle, if the ray meets its plane inside it. -/
def triTest (o dd : List Nat) (vs : List (List Nat)) : Option (Nat × Nat × Nat × Nat) :=
  let g (l : List Nat) (i : Nat) : Nat := l.getD i 0
  let kz := majorAxis dd
  let kx0 := (kz + 1) % 3
  let ky0 := (kz + 2) % 3
  let (kx, ky) := if b32Lt (g dd kz) 0 then (ky0, kx0) else (kx0, ky0)
  let sx := pDiv (g dd kx) (g dd kz)
  let sy := pDiv (g dd ky) (g dd kz)
  let sz := pDiv oneF (g dd kz)
  let shear (v : List Nat) : Nat × Nat × Nat :=
    let p (i : Nat) : Nat := pSub (g v i) (g o i)
    (pSub (p kx) (pMul sx (p kz)), pSub (p ky) (pMul sy (p kz)), pMul sz (p kz))
  let (ax, ay, az) := shear (vs.getD 0 [])
  let (bx, by', bz) := shear (vs.getD 1 [])
  let (cx, cy, cz) := shear (vs.getD 2 [])
  let uvw (f : Nat → Nat → Nat → Nat → Nat) : Nat × Nat × Nat := (f cx cy bx by', f ax ay cx cy, f bx by' ax ay)
  let (u0, v0, w0) := uvw (cross2 .f32)
  let (u, v, w) := if b32Zero u0 ∨ b32Zero v0 ∨ b32Zero w0 then uvw cross64 else (u0, v0, w0)
  if (b32Lt u 0 || b32Lt v 0 || b32Lt w 0) && (b32Lt 0 u || b32Lt 0 v || b32Lt 0 w) then none
  else
    let det := pAdd (pAdd u v) w
    if b32Zero det then none
    else some (pDiv (pAdd (pAdd (pMul u az) (pMul v bz)) (pMul w cz)) det, pDiv v det, pDiv w det, det)

/-- A triangle leaf's fields (R169). -/
structure Tri where
  vs    : List (List Nat)
  id    : Nat
  user  : Nat
  both  : Bool
  deriving DecidableEq, Repr

def readTri (read : Reader) (sp : TravSpace) (s : State) (index : Nat) : Trav Tri :=
  Trav.bind (Trav.read read s (sp.leaf + 16 * index) 48) fun s v =>
    let w (i : Nat) : Nat := v / 2 ^ (32 * i) % 2 ^ 32
    .ok s ⟨(List.range 3).map fun k => (List.range 3).map fun j => w (3 * k + j), w 9 % 2 ^ 25, w 10, (w 11).testBit 0⟩

/-- A hit accepted on [tmin, tmax): t, u, v and the back bit (R170, R172). -/
def triHit (o dd : List Nat) (x : Tri) (flip cull : Bool) (tmin tmax : Nat) : Option (Nat × Nat × Nat × Bool) :=
  match triTest o dd x.vs with
  | none => none
  | some (t, u, v, det) =>
    let back := b32Lt det 0 != flip
    if b32Le tmin t && b32Lt t tmax && !(back && cull && !x.both) then some (t, u, v, back) else none

/-- The box of a procedural or brick-volume leaf (R169). -/
def readLeafBox (read : Reader) (sp : TravSpace) (s : State) (index : Nat) : Trav (List Nat × List Nat) :=
  Trav.bind (Trav.read read s (sp.leaf + 16 * index) 24) fun s v =>
    let w (i : Nat) : Nat := v / 2 ^ (32 * i) % 2 ^ 32
    .ok s ([w 0, w 1, w 2], [w 3, w 4, w 5])

/-! ### Ray traversal (R173-R179) -/

def TravCtx.mask (c : TravCtx) : Nat := bits (wAt c.params 2) 7 0
def TravCtx.cull (c : TravCtx) : Bool := (wAt c.params 2).getLsbD 8
def TravCtx.first (c : TravCtx) : Bool := (wAt c.params 2).getLsbD 9
def TravCtx.skip (c : TravCtx) : Bool := (wAt c.params 2).getLsbD 10
def TravCtx.top (c : TravCtx) : Nat := (pair (wAt c.params 0) (wAt c.params 1)).toNat
def TravCtx.tmin (c : TravCtx) : Nat := (wAt c.ray 6).toNat

def TravSpace.o (sp : TravSpace) : List Nat := sp.org.map BitVec.toNat
def TravSpace.d (sp : TravSpace) : List Nat := sp.dir.map BitVec.toNat
def TravSpace.flip (sp : TravSpace) : Bool := match sp.inst with | some i => i.2 | none => false

/-- Word 5 of the record. -/
def TravSpace.word5 (sp : TravSpace) : Nat := match sp.inst with | some i => i.1 + 128 | none => 0

def Header.space (h : Header) (ray : List Word) : TravSpace := ⟨h.node, h.leaf, h.level, ray.take 3, (ray.drop 3).take 3, none⟩

/-- What a traversal does next. -/
inductive TravNext where
  | visit (ref : Nat) (level : Nat) (sp : TravSpace)
  | pop
  | fin                                   -- stop with HIT or MISS
  | candidate (entry exit : Nat)
  deriving DecidableEq, Repr

/-- The children of a node that the ray takes, nearest first (R174). -/
def takenChildren (read : Reader) (c : TravCtx) (sp : TravSpace) (s : State) (index : Nat) : Trav (List Nat) :=
  Trav.bind (nodeChildren read sp s index) fun s cs =>
    let hits := cs.filterMap fun x =>
      if x.mask &&& c.mask = 0 then none
      else (slabTest sp.o sp.d x.lo x.hi c.tmin c.tClosest.toNat).map fun r => (fpKey .f32 r.1, x.ref)
    let key (e : Int × Nat) : Nat := (e.1 + 2 ^ 40).toNat
    .ok s ((sortBy key hits).map Prod.snd)

/-- Push onto the short stack; a full one loses its oldest entry (R174). -/
def TravCtx.push (c : TravCtx) (e : TravEntry) : TravCtx :=
  if c.stack.length ≥ 8 then { c with stack := (e :: c.stack).take 8, dropped := true } else { c with stack := e :: c.stack }

/-- Push the ranks above `r` of a list of children, farthest first. -/
def TravCtx.pushAbove (c : TravCtx) (l : List Nat) (r level : Nat) (sp : TravSpace) : TravCtx :=
  ((List.range l.length).reverse.filter (r < ·)).foldl (fun c i => c.push ⟨l.getD i 0, level + 1, i, sp⟩) c

def setTrail (t : List Nat) (i r : Nat) : List Nat := t.set i r
def cutTrail (t : List Nat) (i : Nat) : List Nat := t.take i ++ List.replicate (64 - i) 0

def bumpSteps (n : Nat) : Nat := if n ≥ 0xFFFFFFFF then n else n + 1

/-- A record's words but for status, restart and step counts. -/
def hitWords (back : Bool) (ty t u v id : Nat) (sp : TravSpace) (w6 : Nat) : List Word :=
  [d ((if back then 128 else 0) + 16 * ty), d t, d u, d v, d id, d sp.word5, d w6, 0]

/-- Visit a reference (R174). -/
def travVisit (read : Reader) (s : State) (c0 : TravCtx) (ref level : Nat) (sp : TravSpace) : Trav (TravCtx × TravNext) :=
  let c := { c0 with level := level }
  let i := refIndex ref
  if 63 < level then .stop s 5
  else
    match refType ref with
    | 0 => .ok s (c, .pop)
    | 1 =>
      Trav.bind (takenChildren read c sp s i) fun s l =>
        let c1 := { c with steps := bumpSteps c.steps }
        match l with
        | [] => .ok s (c1, .pop)
        | x :: _ => .ok s (({ c1 with trail := setTrail c1.trail level 0 } : TravCtx).pushAbove l 0 level sp, .visit x (level + 1) sp)
    | 2 =>
      Trav.bind (readTri read sp s i) fun s x =>
        match triHit sp.o sp.d x sp.flip c.cull c.tmin c.tClosest.toNat with
        | none => .ok s (c, .pop)
        | some (t, u, v, back) =>
          .ok s ({ c with tClosest := d t, best := some (hitWords back 2 t u v x.id sp x.user) }, if c.first then .fin else .pop)
    | 3 =>
      Trav.bind (enterInstance read c.mask sp s i) fun s e =>
        match e with
        | none => .ok s (c, .pop)
        | some (va, h, sp') => .ok s ({ c with epochs := (va, h.epoch) :: c.epochs.filter (·.1 != va) }, .visit h.root level sp')
    | _ =>
      if c.skip then .ok s (c, .pop)
      else
        Trav.bind (readLeafBox read sp s i) fun s b =>
          match slabTest sp.o sp.d b.1 b.2 c.tmin c.tClosest.toNat with
          | none => .ok s (c, .pop)
          | some (entry, exit) => .ok s ({ c with cand := ref, space := sp }, .candidate entry exit)

/-- One node on the path of a restart: its level, the children taken there and its space. -/
abbrev TravPath := List (Nat × List Nat × TravSpace)

/-- Descend along the trail from a reference, deepest node first (R175, R456): the path or the error kind that ends it, with the
steps. DESIGN CHOICE (assumption 103): a node read again here counts in the steps of R177, and one that stops with an error
does not. -/
def trailPath (read : Reader) (c : TravCtx) :
    Nat → State → Nat → Nat → TravSpace → TravPath → Nat → Fetch (Except Nat TravPath × Nat)
  | 0, s, _, _, _, acc, n => .ok s (.ok acc, n)
  | k + 1, s, ref, level, sp, acc, n =>
    if 63 < level then .ok s (.error 5, n)
    else
      match refType ref with
      | 1 =>
        Fetch.bind (takenChildren read c sp s (refIndex ref)) fun s r =>
          match r with
          | .error e => .ok s (.error e, n)
          | .ok l =>
            let acc' : TravPath := (level, l, sp) :: acc
            match l[c.trail.getD level 0]? with
            | none => .ok s (.ok acc', bumpSteps n)
            | some x => trailPath read c k s x (level + 1) sp acc' (bumpSteps n)
      | 3 =>
        Fetch.bind (enterInstance read c.mask sp s (refIndex ref)) fun s r =>
          match r with
          | .error e => .ok s (.error e, n)
          | .ok none => .ok s (.ok acc, n)
          | .ok (some (va, h, sp')) =>
            if c.epochs.any fun e => e.1 == va && e.2 == h.epoch then trailPath read c k s h.root level sp' acc n
            else .ok s (.error 0, n)
      | _ => .ok s (.ok acc, n)

/-- The first root visit (R174, R179). -/
def travRoot (read : Reader) (s : State) (c : TravCtx) : Trav (TravCtx × TravNext) :=
  Trav.bind (readHeader read s c.top) fun s h =>
    .ok s ({ c with epochs := (c.top, h.epoch) :: c.epochs.filter (·.1 != c.top) }, .visit h.root 0 (h.space c.ray))

/-- The path of a restart, from the root. -/
def restartPath (read : Reader) (s : State) (c : TravCtx) : Fetch (Except Nat TravPath × Nat) :=
  Fetch.bind (readHeader read s c.top) fun s r =>
    match r with
    | .error e => .ok s (.error e, c.steps)
    | .ok h =>
      if c.epochs.any fun e => e.1 == c.top && e.2 == h.epoch then trailPath read c 130 s h.root 0 (h.space c.ray) [] c.steps
      else .ok s (.error 0, c.steps)

/-- Restart along the trail, or in full when an epoch has changed (R175, R179): the context, its counts raised, and what it does
next, or the error that stops it (R177). -/
def travRestart (read : Reader) (s : State) (c : TravCtx) : Fetch (TravCtx × Except Nat TravNext) :=
  Fetch.bind (restartPath read s c) fun s (r, n) =>
    let c1 := { c with steps := n }
    match r with
    | .error 0 =>
      Fetch.bind (travRoot read s { c1 with trail := List.replicate 64 0, stack := [] }) fun s r =>
        .ok s (match r with | .ok (c2, x) => (c2, .ok x) | .error k => (c1, .error k))
    | .error k => .ok s (c1, .error k)
    | .ok path =>
      match path.find? fun e => c1.trail.getD e.1 0 + 1 < e.2.1.length with
      | none => .ok s (c1, .ok .fin)
      | some (p, l, sp) =>
        let r := c1.trail.getD p 0 + 1
        let c2 := { c1 with trail := setTrail c1.trail p r }
        .ok s (c2.pushAbove l r p sp, .ok (.visit (l.getD r 0) (p + 1) sp))

/-- `pop` (R174). -/
def travPop (read : Reader) (s : State) (c : TravCtx) : Fetch (TravCtx × Except Nat TravNext) :=
  match c.stack with
  | e :: rest =>
    .ok s ({ c with stack := rest, trail := setTrail (cutTrail c.trail e.level) (e.level - 1) e.rank },
      .ok (.visit e.ref e.level e.space))
  | [] =>
    if c.dropped then travRestart read s { c with dropped := false, restarts := c.restarts + 1 } else .ok s (c, .ok .fin)

/-- What a run ends in: the record, and the context held when it is a candidate. -/
abbrev TravEnd := HitRec × Option TravCtx

/-- A record with its status, error kind and counts. -/
def TravCtx.record (c : TravCtx) (status err : Nat) (ws : List Word) : List Word :=
  let w0 := wAt ws 0 ||| d (status + 2 ^ 12 * err + 2 ^ 16 * min c.restarts 65535)
  setAt (setAt ws 0 w0) 7 (d c.steps)

def noRay : List Word := List.replicate 8 0

/-- A stop with HIT or MISS, or with an error (R177). -/
def TravCtx.finish (c : TravCtx) : TravEnd :=
  match c.best with
  | some ws => (⟨c.record 1 0 ws, noRay⟩, none)
  | none => (⟨c.record 0 0 [0, wAt c.ray 7, 0, 0, 0, 0, 0, 0], noRay⟩, none)
def TravCtx.fail (c : TravCtx) (err : Nat) : TravEnd := (⟨c.record 3 err [0, wAt c.ray 7, 0, 0, 0, 0, 0, 0], noRay⟩, none)

def TravCtx.stopAt (c : TravCtx) (entry exit : Nat) : TravEnd :=
  (⟨c.record 2 0 (hitWords false (refType c.cand) entry 0 0 (refIndex c.cand) c.space exit)
   , c.space.org ++ c.space.dir ++ [d c.tmin, c.tClosest]⟩, some c)

/-- Run a traversal to its stop. No run of the hardware takes 2^64 turns. -/
def travLoop (read : Reader) : Nat → State → TravCtx → TravNext → Fetch TravEnd
  | 0, s, c, _ => .ok s (c.fail 5)
  | n + 1, s, c, x =>
    match x with
    | .fin => .ok s c.finish
    | .candidate a b => .ok s (c.stopAt a b)
    | .pop => Fetch.bind (travPop read s c) fun s (c, r) => match r with
      | .error k => .ok s (c.fail k)
      | .ok x => travLoop read n s c x
    | .visit ref level sp => Fetch.bind (travVisit read s c ref level sp) fun s r => match r with
      | .error k => .ok s (c.fail k)
      | .ok (c, x) => travLoop read n s c x

def travFuel : Nat := 2 ^ 64

/-- A traversal from its start. -/
def traceRun (read : Reader) (ray params : List Word) (s : State) : Fetch TravEnd :=
  let c : TravCtx := { ray := ray, params := params, tClosest := wAt ray 7, best := none, stack := [], trail := List.replicate 64 0
                       dropped := false, restarts := 0, steps := 0, level := 0, cand := 0, space := ⟨0, 0, 0, [], [], none⟩, epochs := [] }
  Fetch.bind (travRoot read s c) fun s r => match r with
    | .error k => .ok s (c.fail k)
    | .ok (c, x) => travLoop read travFuel s c x

/-- A resume at the pop after the candidate, with a commit at t if it holds (R176). -/
def TravCtx.commit (c : TravCtx) (t : Word) : TravCtx :=
  if b32Le c.tmin t.toNat ∧ b32Lt t.toNat c.tClosest.toNat then
    { c with tClosest := t, best := some (hitWords false (refType c.cand) t.toNat 0 0 (refIndex c.cand) c.space 0) }
  else c

/-! ### The instructions (R423-R425) -/

/-- Traversal contexts in use on a core, as march contexts (R173). -/
def travContexts (s : State) (core : Nat) : Nat :=
  sumOf ((List.filter (fun e : Nat × Wave => waveCore e.1 == core) s.waves).map fun e =>
    sumOf (e.2.threads.map fun x => x.2.travRuns.length + (if x.2.trav.isSome || x.2.holds 2 then 1 else 0)))

def startTrace (s : State) (t : TRef) (dst : Nat) (back : Option TravCtx) (x : TravEnd) : State :=
  let th := s.thread t
  let r : TravRun := { pc := th.pc, region := th.regionSeq, left := x.1, next := x.2, back := back }
  loadResult (s.modThread t fun y => { y.notesUnits y.march back with trav := none, travRuns := y.travRuns ++ [r] }) t 4 2 dst [0]

def traceLane (f : RForm) (s : State) (t : TRef) : State × Lane :=
  let args := runArgs s t ([srcRegs s t f.a 8, srcRegs s t f.b 4].flatten)
  let ray := args.take 8
  let k := args.drop 8
  let th := s.thread t
  let read := logged t (engineRead t)
  let resume : Bool := (wAt k 2).getLsbD 11
  if bits (wAt k 2) 31 13 ≠ 0 ∨ wAt k 3 ≠ 0 ∨ (resume && th.trav.isNone) then (s, .trap (illegal (.trace f)))
  else if !resume && bits (wAt k 1) 31 25 ≠ 0 then (s, .trap (simpleTrap 0x0B))
  else if counterFull th.ld then (s, .stay (.counterRoom 0))
  else
    match resume, th.trav with
    | true, some c =>
      let c1 := if (wAt k 2).getLsbD 12 then c.commit (wAt ray 7) else c
      ranLane t (travLoop read travFuel (beginRun s t 2 args) c1 .pop) fun s1 x =>
        (startTrace s1 t f.dst.num.toNat (some c) x, .done)
    | _, _ =>
      if th.trav.isNone && !th.holds 2 && travContexts s (waveCore t.wave) ≥ 64 then (s, .stay .recheck)
      else
        ranLane t (traceRun read ray k (beginRun s t 2 args)) fun s1 x => (startTrace s1 t f.dst.num.toNat none x, .done)

def execTrace (f : RForm) (s : State) : Out :=
  .next (issue (.trace f) .normal (fun s g _ ts => eachLane g (traceLane f) s ts) s)

/-- The oldest traversal of a thread stops, as a march does. -/
def Thread.travStops (x : Thread) (r : TravRun) : Thread :=
  let after (c : Option TravCtx) : Option TravCtx := r.next.orElse fun _ => c
  { x with travRuns := x.travRuns.drop 1, hitRec := r.left, trav := after x.trav
           unitsWere := if r.region = x.regionSeq then x.unitsWere
             else x.unitsWere.map fun u => { u with trav := after u.trav, hitRec := r.left } }

/-- R174: the oldest run of a thread stops; at a halt it is cancelled instead (R160, R173). -/
def execTraversalStop (wave lane : Nat) (s : State) : Out :=
  .next (
    let t : TRef := ⟨wave, lane⟩
    match (s.thread t).travRuns with
    | [] => s
    | r :: _ => if runsHalted s t then s else unitDone (s.modThread t fun x => x.travStops r) t 2 (wAt r.left.words 0))

def thitLane (f : State → TRef → HitRec → State × Lane) (s : State) (t : TRef) : State × Lane :=
  if (s.thread t).travRuns ≠ [] then (s, .stay .recheck) else f s t (s.thread t).hitRec

def execThit (f : RForm) (s : State) : Out :=
  .next (issue (.thit f) .normal (fun s g _ ts =>
    eachLane g (thitLane fun s t r => (setVs s t f.dst.num.toNat r.words, .done)) s ts) s)

def execThitRay (f : RForm) (s : State) : Out :=
  .next (issue (.thitRay f) .normal (fun s g _ ts =>
    eachLane g (thitLane fun s t r =>
      if bits (wAt r.words 0) 3 0 ≠ 2 then (s, .trap (illegal (.thitRay f)))
      else (setVs s t f.dst.num.toNat r.ray, .done)) s ts) s)

def tstackLane (f : RForm) (s : State) (t : TRef) : State × Lane :=
  let n := srcVal s t .n32 f.a
  match (s.thread t).trav with
  | none => (s, .trap (illegal (.tstack f)))
  | some c =>
    if 3 < n then (s, .trap (illegal (.tstack f)))
    else
      let first := c.stack.length + (if c.dropped then 16 else 0) + 2 ^ 8 * c.level + 2 ^ 16 * min c.restarts 65535
      let second := sumOf ((List.range 16).map fun m => 4 ^ m * (c.trail.getD (16 * n + m) 0 % 4))
      (setVs s t f.dst.num.toNat [d first, d second], .done)

def execTstack (f : RForm) (s : State) : Out :=
  .next (issue (.tstack f) .normal (fun s g _ ts => eachLane g (tstackLane f) s ts) s)

/-! ### Beams (R181-R187, R426) -/

/-- A beam descriptor that passed its checks. -/
structure BeamDesc where
  va     : Nat
  eye    : List Nat
  d00    : List Nat
  dx     : List Nat
  dy     : List Nat
  near   : Nat
  far    : Nat
  tileX  : Nat
  tileY  : Nat
  perRow : Nat
  mask   : Nat
  cull   : Bool
  skip   : Bool
  top    : Nat
  target : Nat
  queue  : Nat
  deriving DecidableEq, Repr

/-- The checks of R181; none is status 2. DESIGN CHOICE (assumption 104): the spec gives a nonzero task queue VA under
flag [1] no fate; the field is not read. -/
def beamOf (va v : Nat) : Option BeamDesc :=
  let at? (o n : Nat) : Nat := v / 256 ^ o % 256 ^ n
  let v3 (o : Nat) : List Nat := [at? o 4, at? (o + 4) 4, at? (o + 8) 4]
  let flags := at? 0x3F 1
  let near := at? 0x30 4
  let far := at? 0x34 4
  if (v3 0 ++ v3 0xC ++ v3 0x18 ++ v3 0x24).all b32Fin && depthOk near && b32Le near far && at? 0x3C 2 != 0 && flags < 4
      && at? 0x48 8 % 512 == 0 && (at? 0x50 8 != 0 || flags.testBit 1) && at? 0x58 40 == 0 then
    some { va := va, eye := v3 0, d00 := v3 0xC, dx := v3 0x18, dy := v3 0x24, near := near, far := far, tileX := at? 0x38 2
           tileY := at? 0x3A 2, perRow := at? 0x3C 2, mask := at? 0x3E 1, cull := flags.testBit 0, skip := flags.testBit 1
           top := at? 0x40 8, target := at? 0x48 8, queue := if flags.testBit 1 then 0 else at? 0x50 8 }
  else none

/-- The direction of a pixel ray (R181). -/
def BeamDesc.dir (x : BeamDesc) (i : Nat) : List Nat :=
  let half (n : Nat) : Nat := pAdd (fpOfInt .f32 n) 0x3F000000
  let px := half (8 * x.tileX + i % 8)
  let py := half (8 * x.tileY + i / 8)
  (List.range 3).map fun j =>
    pAdd (pAdd (x.d00.getD j 0) (pMul px (x.dx.getD j 0))) (pMul py (x.dy.getD j 0))

def BeamDesc.tile (x : BeamDesc) : Nat := x.target + 512 * (x.tileX + x.perRow * x.tileY)

/-- The pixel rays of a beam in one space. -/
structure BeamSpace where
  space : TravSpace               -- of the first pixel's ray
  rays  : List (List Nat × List Nat)
  leafVa : Nat                    -- the instance leaf, 0 in the top structure
  deriving DecidableEq, Repr

/-- An entry of the beam unit's stack. -/
structure BeamEntry where
  ref   : Nat
  level : Nat
  rank  : Nat
  sp    : BeamSpace
  deriving DecidableEq, Repr

/-- A beam's walk: the tile's pairs as read and since updated, the records of its candidate leaves, and the unit's stack,
newest first, trail, dropped flag and recorded epochs (R185). -/
structure BeamWork where
  pairs   : List Nat
  changed : List Bool
  records : List (List Byte)
  stack   : List BeamEntry
  trail   : List Nat
  dropped : Bool
  epochs  : List (Nat × Word)
  deriving DecidableEq, Repr

def BeamWork.depth (w : BeamWork) (i : Nat) : Nat := w.pairs.getD i 0 % 2 ^ 32

/-- The greatest depth of the tile, by the key of R183. -/
def BeamWork.maxDepth (w : BeamWork) : Nat := (List.range 64).foldl (fun m i => max m (w.depth i)) 0

/-- A finite f32 in units of 2^-149. -/
def f32Units (x : Nat) : Int :=
  let m : Nat := if x / 2 ^ 23 % 256 = 0 then x % 2 ^ 23 else (2 ^ 23 + x % 2 ^ 23) * 2 ^ (x / 2 ^ 23 % 256 - 1)
  if signOf .f32 x then -(m : Int) else (m : Int)

def crossZ (a b : List Int) : List Int :=
  let g (l : List Int) (i : Nat) : Int := l.getD i 0
  (List.range 3).map fun i => g a ((i + 1) % 3) * g b ((i + 2) % 3) - g a ((i + 2) % 3) * g b ((i + 1) % 3)
def dotZ (a b : List Int) : Int := (List.range 3).foldl (fun r i => r + a.getD i 0 * b.getD i 0) 0

/-- The normals the unit tries: the box's faces and the four sides of the frustum, both ways. -/
def frustumNormals (ds : List (List Int)) : List (List Int) :=
  let side (a b : Nat) : List Int := crossZ (ds.getD a []) (ds.getD b [])
  let one := [[1, 0, 0], [0, 1, 0], [0, 0, 1], side 0 7, side 7 63, side 63 56, side 56 0]
  one ++ one.map fun n => n.map fun z => -z

/-- Whether a plane of some normal parts a box from every pixel ray over [near, far], in exact arithmetic (R185). A ray or
box with a component that is not finite is never parted. DESIGN CHOICE (assumption 117): the spec says which boxes may be
culled and that the unit rounds outward, not how far. -/
def frustumClear (x : BeamDesc) (sp : BeamSpace) (lo hi : List Nat) : Bool :=
  let unit : Int := 2 ^ 149
  let rays := sp.rays.map fun r => (r.1.map f32Units, r.2.map f32Units)
  let clear (n : List Int) : Bool :=
    let box := (List.range 3).foldl (fun r j =>
      let nj := n.getD j 0
      r + nj * (if 0 ≤ nj then f32Units (lo.getD j 0) else f32Units (hi.getD j 0))) 0
    rays.all fun r =>
      let base := dotZ n r.1 * unit
      let run := dotZ n r.2
      decide (base + run * f32Units x.near < box * unit)
        && (if b32Fin x.far then decide (base + run * f32Units x.far < box * unit) else decide (run ≤ 0))
  (lo ++ hi).all b32Fin && sp.rays.all (fun r => (r.1 ++ r.2).all b32Fin) && (frustumNormals (rays.map (·.2))).any clear

/-- A lower bound of a ray's entry t into a box, and of the t that R172 finds for a triangle in it: the near limit of R171 on the
ray's major axis, which R172 measures t along, lowered by 2^-20 of itself, which is more than the roundings of R172 take from it;
t-near where that is greater. DESIGN CHOICE (assumption 117): which lower bound the unit takes the spec does not say. -/
def rayEntry (o dd lo hi : List Nat) (near : Nat) : Nat :=
  let j := majorAxis dd
  let dj := dd.getD j 0
  let lim := if b32Lt dj 0 then hi.getD j 0 else lo.getD j 0
  let n := slabLimit rdnMode lim (o.getD j 0) (fpRcp .f32 .rne dj).1
  if b32Fin dj && b32Fin lim && b32Fin (o.getD j 0) && b32Fin n && b32Lt near n then
    b32Max near (b32Mul rdnMode 0 n 0x3F7FFFF0)
  else near

/-- The lower bound of a box's entry over the beam's rays. -/
def beamEntry (x : BeamDesc) (sp : BeamSpace) (lo hi : List Nat) : Nat :=
  match sp.rays.map fun r => rayEntry r.1 r.2 lo hi x.near with
  | [] => x.near
  | e :: rest => rest.foldl (fun m e => if b32Lt e m then e else m) e

/-- Whether a child's box survives the frustum test and the depth test (R185). A pixel whose stored depth is infinite, NaN
or has its sign bit set stands above every depth, so nothing is culled behind it. -/
def boxSurvives (x : BeamDesc) (w : BeamWork) (sp : BeamSpace) (lo hi : List Nat) : Bool :=
  !frustumClear x sp lo hi && (decide (0x7F800000 ≤ w.maxDepth) || !b32Lt w.maxDepth (beamEntry x sp lo hi))

/-- A triangle covered: every pixel ray that meets it updates its pair (R184). -/
def coverTriangle (x : BeamDesc) (sp : BeamSpace) (tri : Tri) (w : BeamWork) : BeamWork :=
  let word := tri.id + (match sp.space.inst with | some i => 2 ^ 25 * i.1 | none => 0)
  let upd := (List.range 64).map fun i =>
    let r := sp.rays.getD i ([], [])
    match triHit r.1 r.2 tri sp.space.flip x.cull x.near x.far with
    | some (t, _, _, _) => if depthOk t then pairMin (w.pairs.getD i 0) t word else w.pairs.getD i 0
    | none => w.pairs.getD i 0
  { w with pairs := upd, changed := (List.range 64).map fun i => w.changed.getD i false || upd.getD i 0 != w.pairs.getD i 0 }

/-- The task record of a candidate leaf, unless no pixel ray meets its box before the pixel's depth (R186). -/
def beamRecord (x : BeamDesc) (sp : BeamSpace) (ref : Nat) (lo hi : List Nat) (w : BeamWork) : BeamWork :=
  let m := maskBits ((List.range 64).map fun i =>
    let r := sp.rays.getD i ([], [])
    (slabTest r.1 r.2 lo hi x.near (w.depth i)).isSome)
  if m = 0 then w
  else
    let bs := toBytes 4 1 ++ toBytes 2 x.tileX ++ toBytes 2 x.tileY ++ toBytes 8 m ++ toBytes 4 ref ++ toBytes 4 sp.space.word5
      ++ toBytes 8 (sp.space.leaf + 16 * refIndex ref) ++ toBytes 8 sp.leafVa ++ toBytes 8 x.va ++ toBytes 16 0
    { w with records := w.records ++ [bs] }

/-- Bottom-space rays of an instance leaf. -/
def BeamSpace.enter (v : Nat) (h : Header) (sub : TravSpace) (leafVa : Nat) (sp : BeamSpace) : BeamSpace :=
  let carry (r : List Nat × List Nat) : List Nat × List Nat :=
    let y := instanceRay v { sp.space with org := r.1.map d, dir := r.2.map d }
    (y.1.map BitVec.toNat, y.2.map BitVec.toNat)
  ⟨{ sub with node := h.node, leaf := h.leaf }, sp.rays.map carry, leafVa⟩

/-- What the beam unit does next. -/
inductive BeamNext where
  | visit (ref : Nat) (level : Nat) (sp : BeamSpace)
  | pop
  | fin
  deriving DecidableEq, Repr

/-- The surviving children of a node, by the lower bound of their entry, ties by slot (R174, R185). -/
def beamChildren (read : Reader) (x : BeamDesc) (w : BeamWork) (sp : BeamSpace) (s : State) (index : Nat) : Trav (List Nat) :=
  Trav.bind (nodeChildren read sp.space s index) fun s cs =>
    let on := cs.filter fun c => c.mask &&& x.mask != 0 && boxSurvives x w sp c.lo c.hi
    let key (c : Child) : Nat := (fpKey .f32 (beamEntry x sp c.lo c.hi) + 2 ^ 40).toNat
    .ok s ((sortBy key on).map (·.ref))

/-- Push onto the unit's stack of 64; a full one loses its oldest entry (R185). -/
def BeamWork.push (w : BeamWork) (e : BeamEntry) : BeamWork :=
  if w.stack.length ≥ 64 then { w with stack := (e :: w.stack).take 64, dropped := true } else { w with stack := e :: w.stack }

/-- Push the ranks above `r` of a list of children, farthest first. -/
def BeamWork.pushAbove (w : BeamWork) (l : List Nat) (r level : Nat) (sp : BeamSpace) : BeamWork :=
  ((List.range l.length).reverse.filter (r < ·)).foldl (fun w i => w.push ⟨l.getD i 0, level + 1, i, sp⟩) w

/-- An instance leaf entered, with every pixel ray carried into its space (R170): none when its mask leaves it out. -/
def beamInstance (read : Reader) (x : BeamDesc) (sp : BeamSpace) (s : State) (index : Nat) : Trav (Option (Nat × Header × BeamSpace)) :=
  Trav.bind (enterInstance read x.mask sp.space s index) fun s e =>
    match e with
    | none => .ok s none
    | some (va, h, sub) =>
      let leaf := sp.space.leaf + 16 * index
      Trav.bind (Trav.read read s leaf 48) fun s v => .ok s (some (va, h, sp.enter v h sub leaf))

/-- Visit a reference (R174, R185): a descent below level 63 is error kind 5. -/
def beamVisit (read : Reader) (x : BeamDesc) (s : State) (w : BeamWork) (ref level : Nat) (sp : BeamSpace) :
    Trav (BeamWork × BeamNext) :=
  let i := refIndex ref
  if 63 < level then .stop s 5
  else
    match refType ref with
    | 0 => .ok s (w, .pop)
    | 1 =>
      Trav.bind (beamChildren read x w sp s i) fun s l =>
        match l with
        | [] => .ok s (w, .pop)
        | c :: _ => .ok s (({ w with trail := setTrail w.trail level 0 } : BeamWork).pushAbove l 0 level sp, .visit c (level + 1) sp)
    | 2 => Trav.bind (readTri read sp.space s i) fun s tri => .ok s (coverTriangle x sp tri w, .pop)
    | 3 =>
      Trav.bind (beamInstance read x sp s i) fun s e =>
        match e with
        | none => .ok s (w, .pop)
        | some (va, h, sub) => .ok s ({ w with epochs := (va, h.epoch) :: w.epochs.filter (·.1 != va) }, .visit h.root level sub)
    | _ =>
      if x.skip then .ok s (w, .pop)
      else Trav.bind (readLeafBox read sp.space s i) fun s b => .ok s (beamRecord x sp ref b.1 b.2 w, .pop)

/-- The nodes on the path of a restart, deepest first (R175, R456). -/
def beamPath (read : Reader) (x : BeamDesc) (w : BeamWork) : Nat → State → Nat → Nat → BeamSpace → List (Nat × List Nat × BeamSpace) →
    Trav (List (Nat × List Nat × BeamSpace))
  | 0, s, _, _, _, acc => .ok s acc
  | k + 1, s, ref, level, sp, acc =>
    if 63 < level then .stop s 5
    else
      match refType ref with
      | 1 =>
        Trav.bind (beamChildren read x w sp s (refIndex ref)) fun s l =>
          match l[w.trail.getD level 0]? with
          | none => .ok s ((level, l, sp) :: acc)
          | some c => beamPath read x w k s c (level + 1) sp ((level, l, sp) :: acc)
      | 3 =>
        Trav.bind (beamInstance read x sp s (refIndex ref)) fun s e =>
          match e with
          | none => .ok s acc
          | some (va, h, sub) =>
            if w.epochs.any fun e => e.1 == va && e.2 == h.epoch then beamPath read x w k s h.root level sub acc else .stop s 0
      | _ => .ok s acc

def BeamDesc.space (x : BeamDesc) (h : Header) : BeamSpace :=
  ⟨h.space (x.eye.map d), (List.range 64).map fun i => (x.eye, x.dir i), 0⟩

/-- The root visit, which records the top structure's epoch (R179). -/
def beamRoot (read : Reader) (x : BeamDesc) (s : State) (w : BeamWork) : Trav (BeamWork × BeamNext) :=
  Trav.bind (readHeader read s x.top) fun s h =>
    .ok s ({ w with epochs := (x.top, h.epoch) :: w.epochs.filter (·.1 != x.top) }, .visit h.root 0 (x.space h))

/-- Restart along the trail, or in full when an epoch has changed (R175, R179, R185). -/
def beamRestart (read : Reader) (x : BeamDesc) (s : State) (w : BeamWork) : Trav (BeamWork × BeamNext) :=
  let path : Trav (List (Nat × List Nat × BeamSpace)) :=
    Trav.bind (readHeader read s x.top) fun s h =>
      if w.epochs.any fun e => e.1 == x.top && e.2 == h.epoch then beamPath read x w 130 s h.root 0 (x.space h) [] else .stop s 0
  Fetch.bind path fun s r =>
    match r with
    | .error 0 => beamRoot read x s { w with trail := List.replicate 64 0, stack := [] }
    | .error k => Trav.stop s k
    | .ok path =>
      match path.find? fun e => w.trail.getD e.1 0 + 1 < e.2.1.length with
      | none => Trav.ok s (w, .fin)
      | some (p, l, sp) =>
        let r := w.trail.getD p 0 + 1
        Trav.ok s (({ w with trail := setTrail w.trail p r } : BeamWork).pushAbove l r p sp, .visit (l.getD r 0) (p + 1) sp)

def beamPop (read : Reader) (x : BeamDesc) (s : State) (w : BeamWork) : Trav (BeamWork × BeamNext) :=
  match w.stack with
  | e :: rest =>
    .ok s ({ w with stack := rest, trail := setTrail (cutTrail w.trail e.level) (e.level - 1) e.rank }, .visit e.ref e.level e.sp)
  | [] => if w.dropped then beamRestart read x s { w with dropped := false } else .ok s (w, .fin)

/-- The beam's depth-first descent to its end: the error kind, 0 for none, and the work done until then (R185). -/
def beamLoop (read : Reader) (x : BeamDesc) : Nat → State → BeamWork → BeamNext → Fetch (Nat × BeamWork)
  | 0, s, w, _ => .ok s (5, w)
  | n + 1, s, w, next =>
    let go (r : Trav (BeamWork × BeamNext)) : Fetch (Nat × BeamWork) :=
      Fetch.bind r fun s e => match e with
        | .error k => .ok s (k, w)
        | .ok (w, y) => beamLoop read x n s w y
    match next with
    | .fin => .ok s (0, w)
    | .pop => go (beamPop read x s w)
    | .visit ref level sp => go (beamVisit read x s w ref level sp)

/-- A beam's walk from its header: the error kind, 0 for none, and its work. -/
def beamWalk (read : Reader) (x : BeamDesc) (s : State) (pairs : List Nat) : Fetch (Nat × BeamWork) :=
  let w : BeamWork := ⟨pairs, List.replicate 64 false, [], [], List.replicate 64 0, false, []⟩
  Fetch.bind (beamRoot read x s w) fun s r => match r with
    | .error k => .ok s (k, w)
    | .ok (w, y) => beamLoop read x travFuel s w y

/-- The updates of a walk are performed at the tile's home banks. -/
def beamUpdates (r : Req) (va : Nat) (w : BeamWork) (s : State) : Mem Unit :=
  (List.range 64).foldl (fun (m : Mem Unit) i =>
    if w.changed.getD i false then
      Mem.bind m fun s _ => depthUpdate s r (va + 8 * i) (w.depth i) (w.pairs.getD i 0 / 2 ^ 32)
    else m) (.ok s ())

/-- The queue's descriptor and the slots that `n` records would take, opened before the first is written. -/
def openSlots (bad : Trap) (r : Req) (qva n : Nat) (s : State) : Fetch Unit :=
  Fetch.bind (openQueue bad s r qva) fun s y =>
    (List.range n).foldl (fun (m : Fetch Unit) i => Fetch.bind m fun s _ =>
      let a := y.slot (y.reserved + i)
      if 2 ^ 57 < a + 64 then .trap s (simpleTrap 0x0B)
      else Fetch.bind (Fetch.of (bankOpen s r (a / 128 * 128) (byteMask (a % 128) 64) .default)) fun s _ => .ok s ()) (.ok s ())

/-- Queue a beam's pending records in order while the queue has room (R187, R189): what is left, and what stopped it if an access
met a fate (R106). -/
def queueRecords (bad : Trap) (r : Req) (qva : Nat) : Nat → State → List (List Byte) → State × List (List Byte) × Option Stop
  | 0, s, l => (s, l, none)
  | _, s, [] => (s, [], none)
  | n + 1, s, b :: rest =>
    match pushRecord bad s r qva b with
    | (s1, .ok true) => queueRecords bad r qva n s1 rest
    | (s1, .ok false) => (s1, b :: rest, none)
    | (s1, .error x) => (s1, b :: rest, some x)

/-- All a beam does in memory for a requester: its status, and the records to be queued (R184-R187). -/
def beamRun (bad : Trap) (r : Req) (va : Nat) (s : State) : Fetch (Nat × Nat × List (List Byte)) :=
  let read := reqRead r
  Fetch.bind (read s va 128) fun s v =>
    match beamOf va v with
    | none => .ok s (2, 0, [])
    | some x =>
      if 2 ^ 57 < x.tile + 512 then .trap s (simpleTrap 0x0B)
      else
        Fetch.bind (Fetch.of (tilePairs s r x.tile)) fun s pairs =>
          Fetch.bind (beamWalk read x s pairs) fun s e =>
            let (k, w) := e
            if k ≠ 0 ∧ k ≠ 5 then .ok s (3, 0, [])
            else
              let status := if k = 5 then 3 else 0
              Fetch.bind (Fetch.of (beamUpdates { r with access := 2 } x.tile w s)) fun s _ =>
                if w.records = [] then .ok s (status, 0, [])
                else
                  Fetch.bind (openSlots bad { r with access := 2 } x.queue w.records.length s) fun s _ =>
                    .ok s (status, x.queue, w.records)

/-- The oldest beam of a quad that has not completed. -/
def headBeam (s : State) (quad : Nat) : Option Beam := (s.beams.get [] quad).find? fun e => !e.fin

/-- A beam issues (R187). Its unit serves it at once when no earlier one is unfinished; behind another it is only run
through for its faults, which are precise, and it is walked when its turn comes. -/
def beamLane (f : RForm) (b : Block) (s : State) (t : TRef) : State × Lane :=
  let va := q (rawSrc s t .b64 f.a)
  match blockVa va 128 with
  | some x => (s, .trap x)
  | none =>
    if counterFull (s.thread t).ld then (s, .stay (.counterRoom 0))
    else
      let s1 := endRegion s t
      match beamRun (illegal (.beam f)) (threadReq s1 t 0 false) va.toNat s1 with
      | (s2, .error e) => heldLane s2 t e
      | (s2, .ok (status, queue, records)) =>
        let mine : Beam := { t := t, block := b.id, dst := some f.dst.num.toNat, va := va, pc := (s.thread t).pc, bad := illegal (.beam f), walked := true
                             queue := q queue, asid := b.asid, agen := b.agen, part := b.part, pending := records, retry := none
                             status := status, fin := false, hold := none, owed := none, genItem := b.genItem }
        let (s3, e) :=
          if (headBeam s (coreQuad b.core)).isNone then (s2, mine)
          else (s1, { mine with walked := false, queue := 0, pending := [], status := 0 })
        let s4 := { s3 with beams := s3.beams.upd [] (coreQuad b.core) (· ++ [e]) }
        begun t (loadResult s4 t 4 3 f.dst.num.toNat [0], .done)

def execBeam (f : RForm) (s : State) : Out :=
  .next (issue (.beam f) .normal (fun s g b ts => eachLane g (beamLane f b) s ts) s)

def modHeadBeam (s : State) (quad : Nat) (f : Beam → Beam) : State :=
  { s with beams := s.beams.modify quad (markFirst (fun e => !e.fin) f) }

def dropHeadBeam (s : State) (quad : Nat) : State := { s with beams := s.beams.modify quad (dropFirst fun x => !x.fin) }

/-- A beam's thread is bound, and still its block's; its block stands in an image. -/
def beamHere (s : State) (e : Beam) : Bool := s.alive e.t && (s.threadBlock? e.t).any fun b => b.id == e.block
def beamSaved (s : State) (e : Beam) : Bool := s.images.any fun i => i.blocks.any fun b => b.id == e.block

/-- A beam completes: its status is written and acquired, at once or when its saved block is restored (R187, R426). -/
def completeBeam (s : State) (quad : Nat) (e : Beam) : State :=
  if beamHere s e then doAcquireAll (unitDone (dropHeadBeam s quad) e.t 3 (d e.status)) e.t
  else if beamSaved s e then
    modHeadBeam s quad fun x => { x with pending := [], status := e.status, fin := true, hold := none }
  else dropHeadBeam s quad

/-- The requests of the unit for a beam: its thread's while that is bound, and its generator's item's if it has one (R206). -/
def beamReq (s : State) (e : Beam) (access : Nat) : Req :=
  let r := if beamHere s e then threadReq s e.t access false else agentReq s e.part e.asid access
  { r with part := e.part, asid := e.asid, agen := e.agen, gen := e.genItem }

/-- Whether the unit may go on with a beam: none of its accesses waits, or it tries again. -/
def beamReady (e : Beam) : Bool :=
  e.owed.isSome || match e.hold with
    | none | some .recheck | some (.peer _) => true
    | _ => false

/-- A trap that an access of a beam raises is taken at the `beam`, when its block is restored if that is saved (R106, R426). -/
def beamTrap (s : State) (quad : Nat) (e : Beam) (x : Trap) : State :=
  if beamHere s e then
    let mine (l : PendLoad) : Bool := l.t == e.t && l.unit == 3 && !l.live
    let s1 := dropHeadBeam { s with loads := markFirst mine (fun l => { l with live := true, regs := [] }) s.loads } quad
    effects (retireLoads s1 e.t) [if x.code = 0x20 then .halt e.t else .trap e.t x e.pc]
  else if beamSaved s e then modHeadBeam s quad fun y => { y with pending := [], fin := true, hold := none, owed := some x }
  else dropHeadBeam s quad

/-- An access of the unit met a fate (R106, R490, R506, R520): the beam waits, and holds its thread, or the trap is taken. -/
def beamMeet (s : State) (quad : Nat) (e : Beam) (m : Miss) : State :=
  let hold (w : Wait) : State := modHeadBeam s quad fun x => { x with hold := some w }
  match m with
  | .page f => hold (.page f e.pc)
  | .fill i b => hold (.fill i b)
  | .fillFull i b => hold (.fillFull i b)
  | .evicting i b => hold (.evicting i b)
  | .csmFull | .specRoom | .trackerRoom _ => hold .recheck
  | .peer =>
    let since := match e.hold with | some (.peer n) => n | _ => s.tick.toNat
    if since + 10000 ≤ s.tick.toNat then beamTrap s quad e (simpleTrap 0x0B) else hold (.peer since)
  | .stale => beamTrap s quad e (simpleTrap 0x0C)
  | .protection => beamTrap s quad e (simpleTrap 0x0B)
  | .aliased => beamTrap s quad e (simpleTrap 0x0D)
  | .unresolvable => beamTrap s quad e (simpleTrap 0x0A)
  | .race va pc who => beamTrap s quad e ⟨0x09, q va, pc, false, who⟩
  | .recursion _ _ => effects (dropHeadBeam s quad) [.failChain e.block e.pc]
  | .uncorrectable va place =>
    beamTrap (errorRecord s e.part 0 0 va place e.pc (if beamHere s e then some e.t else none)) quad e (simpleTrap 0x20)

def beamStop (s : State) (quad : Nat) (e : Beam) (x : Stop) : State :=
  match x with
  | .trap x => beamTrap s quad e x
  | .miss m => beamMeet s quad e m

/-- The turn of a beam that waited behind others: it is walked (R187, R426). -/
def walkBeam (s : State) (quad : Nat) (e : Beam) : State :=
  match beamRun e.bad (beamReq s e 0) e.va.toNat s with
  | (s1, .ok (status, queue, records)) =>
    modHeadBeam s1 quad fun x => { x with walked := true, queue := q queue, pending := records, status := status, hold := none }
  | (s1, .error x) => beamStop s1 quad e x

/-- R187: the beam at the head of a quad is walked, if it is not yet, or queues its records and completes; a full queue is
retried. It runs on while its block is saved (R426). -/
def execBeamComplete (quad : Nat) (s : State) : Out :=
  .next (
    match headBeam s quad with
    | none => s
    | some e =>
      if !beamReady e then s
      else
        match e.owed with
        | some x => beamTrap s quad e x
        | none =>
          if !e.walked then walkBeam s quad e
          else
            match queueRecords e.bad (beamReq s e 2) e.queue.toNat (e.pending.length + 1) s e.pending with
            | (s1, left, some x) => beamStop (modHeadBeam s1 quad fun y => { y with pending := left }) quad e x
            | (s1, [], none) => completeBeam s1 quad { e with pending := [] }
            | (s1, left, none) =>
              modHeadBeam s1 quad fun x =>
                { x with pending := left, retry := x.retry.orElse fun _ => some s.tick.toNat, hold := none })

/-- R187: after 4,096 ticks at a full queue the beam completes with status 1. DESIGN CHOICE (assumption 105): so does one
that ended below level 63, whose status would be 3; the spec says not which of the two it returns. -/
def execBeamQueueRetryExpire (quad : Nat) (s : State) : Out :=
  .next (
    match headBeam s quad with
    | some e =>
      (match e.retry with
       | some n => if n + 4096 ≤ s.tick.toNat then completeBeam s quad { e with pending := [], status := 1 } else s
       | none => s)
    | none => s)

end Sys2Proof.Machine
end

