-- ==== Sys2Proof/Machine/System.lean ====
section
/-! DEFINITION. Control and status registers, return from a handler, services and markers: opcodes 0xF0-0xF4
(R227, R265, R427-R430, R477). -/

namespace Sys2Proof.Machine

/-! ### Control and status registers (R227, R265, R427) -/

/-- The fate of a CSR number and type: a trap code, or none. -/
def csrTrap (i : Instr) (num : Nat) (wide : Bool) : Option Trap :=
  if 0x100 ≤ num then some (simpleTrap 0x0B)
  else if 8 ≤ num ∨ (wide ∧ [0, 1, 3, 6].contains num) then some (illegal i)
  else none

def csrNum (f : IForm) : Nat := bits f.imm 11 0

/-- A thread's CSR, 32-bit ones zero-extended. -/
def Thread.csr (x : Thread) (num : Nat) : BitVec 64 :=
  match num with
  | 0 => x.fmode.zeroExtend 64
  | 1 => x.fflags.zeroExtend 64
  | 2 => x.tvec
  | 3 => x.tcause.zeroExtend 64
  | 4 => x.tepc
  | 5 => x.tval
  | 6 => x.tscratch.zeroExtend 64
  | 7 => x.tval2
  | _ => 0

/-- A 32-bit write keeps bits [63:32] of a 64-bit register. -/
def csrMerge (wide : Bool) (old v : BitVec 64) : BitVec 64 := if wide then v else pair (lo32 v) (hi32 old)

def Thread.setCsr (x : Thread) (num : Nat) (wide : Bool) (v : BitVec 64) : Thread :=
  match num with
  | 0 => { x with fmode := lo32 v }
  | 1 => { x with fflags := lo32 v &&& 0x1F }
  | 2 => { x with tvec := csrMerge wide x.tvec v }
  | 3 => { x with tcause := lo32 v &&& 0x800003FF }
  | 4 => { x with tepc := csrMerge wide x.tepc v }
  | 5 => { x with tval := csrMerge wide x.tval v }
  | 6 => { x with tscratch := lo32 v }
  | 7 => { x with tval2 := csrMerge wide x.tval2 v }
  | _ => x

/-- A value that fmode does not take (R227). -/
def badFmode (v : BitVec 64) : Bool := bits v 31 4 != 0 || bits v 2 0 == 0 || bits v 2 0 == 7

def csrrLane (f : IForm) (s : State) (t : TRef) : State × Lane :=
  match csrTrap (.csrr f) (csrNum f) f.h.typ.is64 with
  | some x => (s, .trap x)
  | none => (setVs s t f.dst.num.toNat (toWords f.h.typ.regs ((s.thread t).csr (csrNum f)).toNat), .done)

def execCsrr (f : IForm) (s : State) : Out :=
  .next (issue (.csrr f) .normal (fun s g _ ts => eachLane g (csrrLane f) s ts) s)

def csrwLane (f : IForm) (s : State) (t : TRef) : State × Lane :=
  let v := q (rawSrc s t f.h.typ f.a)
  match csrTrap (.csrw f) (csrNum f) f.h.typ.is64 with
  | some x => (s, .trap x)
  | none =>
    if csrNum f = 0 ∧ badFmode v then (s, .trap (illegal (.csrw f)))
    else (s.modThread t fun x => x.setCsr (csrNum f) f.h.typ.is64 v, .done)

def execCsrw (f : IForm) (s : State) : Out :=
  .next (issue (.csrw f) .normal (fun s g _ ts => eachLane g (csrwLane f) s ts) s)

/-! ### tret (R266, R428) -/

/-- The handler is left: E as it was at entry, and the thread goes on at tepc without a TGT check. A `bupd` that the
trap interrupted goes on only where the thread returns to it (R364). -/
def leaveHandler (x : Thread) : Thread :=
  { x with handler := none, e := x.tcause.getLsbD 31, pc := x.tepc, entry := .none
           bupdAt := match x.bupdAt with | some p => if p.1 = x.tepc then some p else none | none => none }

def tretLane (f : RForm) (s : State) (t : TRef) : State × Lane :=
  let x := s.thread t
  if x.handler.isNone then (s, .trap (illegal (.tret f)))
  else if bits x.tepc 63 57 ≠ 0 then (s, .trap (simpleTrap 0x0B))
  else if !slotOffset x.tepc then (s, .trap (simpleTrap 0x03))
  else (s.modThread t leaveHandler, .moved)

def execTret (f : RForm) (s : State) : Out :=
  .next (issue (.tret f) .normal (fun s g _ ts => eachLane g (tretLane f) s ts) s)

/-! ### Services (R429, R477) -/

def Part.servicesFull (p : Part) : Bool := (p.svtail + 1) % 256 == p.svhead

/-- The register pair a thread waits to be answered in, if it waits for record j. -/
def callDst (j : Nat) (x : Thread) : Option Nat :=
  match x.wait with
  | some (.service dst i) => if i = j then some dst else none
  | _ => none

/-- The waves of a partition's saved threads changed. -/
def mapSavedPart (p : Nat) (g : Thread → Thread) (s : State) : State :=
  let wave (w : Wave) : Wave := { w with threads := w.threads.map fun e => (e.1, g e.2) }
  let mine (m : Image) : Bool := m.blocks.any fun b => b.part == p
  { s with images := mapIf mine (fun m => { m with waves := m.waves.map fun e => (e.1, wave e.2) }) s.images }

/-- Threads of a partition that wait for the answer to record j: bound, and saved. -/
def callers (s : State) (p j : Nat) : List TRef :=
  ((s.blocks.filter fun b => b.part == p).flatMap (blockAlive s)).filter fun t => (callDst j (s.thread t)).isSome
def savedCaller (s : State) (p j : Nat) : Bool :=
  s.images.any fun m => m.blocks.any (fun b => b.part == p) && m.waves.any fun w => w.2.threads.any fun x => (callDst j x.2).isSome

/-- A record is written over while its call still waits, the servicer having moved SVHEAD past it: the call has no record left,
and no answer finds it. -/
def strandCall (p j : Nat) (s : State) : State :=
  let strand (x : Thread) : Thread := match callDst j x with | some n => { x with wait := some (.service n 256) } | none => x
  mapSavedPart p strand ((callers s p j).foldl (fun s t => s.modThread t strand) s)

/-- The call record at SVTAIL, and its caller waiting for the answer; vector 2 tells the servicer (R501). -/
def postCall (s : State) (t : TRef) (b : Block) (f : IForm) (arg : BitVec 64) : State × Lane :=
  let p := s.part b.part
  let j := p.svtail
  if p.servicesFull then (s, .stay .serviceRoom)
  else
    let (x, y, z) := b.coord
    let bs := toBytes 2 f.imm.toNat ++ toBytes 2 (blockHandle b) ++ toBytes 2 x ++ toBytes 2 y ++ toBytes 2 z ++ toBytes 2 b.bid
      ++ toBytes 4 (threadIndex s t) ++ toBytes 8 arg.toNat ++ toBytes 8 (s.thread t).pc.toNat
    let s1 := strandCall b.part j (ringWrite s b.part (p.svbase.toNat + 32 * j) bs)
    let s2 := s1.modPart b.part fun p => { p with calls := p.calls.filter (·.1 != j) ++ [(j, false)], svtail := (j + 1) % 256 }
    (raiseMsix s2 b.part 2 p.svch, .stay (.service f.dst.num.toNat j))

def svcLane (f : IForm) (b : Block) (s : State) (t : TRef) : State × Lane :=
  let arg := q (rawSrc s t .b64 f.a)
  match doRelease (endRegion s t) t .system with
  | (s1, .error x) => stopLane s1 t x
  | (s1, .ok _) => postCall s1 t b f arg

def execSvc (f : IForm) (s : State) : Out :=
  .next (issue (.svc f) .normal (fun s g b ts => eachLane g (svcLane f b) s ts) s)

/-- An answer reaches a resident caller, with a system-scope acquire. -/
def answerThread (j : Nat) (v : BitVec 64) (s : State) (t : TRef) : State :=
  match callDst j (s.thread t) with
  | some dst => release1 (doAcquire (setVs s t dst [lo32 v, hi32 v]) t .system []) t
  | none => s

/-- An answer reaches a saved caller in its image (R429). -/
def answerSaved (j : Nat) (v : BitVec 64) (x : Thread) : Thread :=
  match callDst j x with
  | some n =>
    { x with v := (x.v.set 0 n (lo32 v)).set 0 (n + 1) (hi32 v), wait := none, pc := nextPc x.pc, regionPc := nextPc x.pc
             mapped := x.mapped &&& ~~~(3#256 <<< n) }
  | none => x

/-- The service number and argument of a call, read back from its record. -/
def callRecord (s : State) (p j : Nat) : Nat × BitVec 64 :=
  let r := ringRead s p ((s.part p).svbase.toNat + 32 * j) 32
  (r % 2 ^ 16, q (r / 2 ^ 128))

/-- The answer to a record: what the servicer wrote to SVVAL. Service 0x0000 answers its argument unchanged, whichever
servicer SVCH names (R477; assumption 109). -/
def serviceValue (s : State) (p j : Nat) : BitVec 64 :=
  let (n, arg) := callRecord s p j
  if n = 0 then arg else (s.part p).svval

/-- Answered records at SVHEAD are free; a held `svc` tests again. -/
def freeCalls (p : Nat) : Nat → State → State
  | 0, s => s
  | n + 1, s =>
    let x := s.part p
    if x.calls.contains (x.svhead, true) then
      freeCalls p n (s.modPart p fun y => { y with calls := y.calls.filter (·.1 != y.svhead), svhead := (y.svhead + 1) % 256 })
    else s

/-- Threads of a partition held on a full service ring test again. -/
def wakeCallers (p : Nat) (s : State) : State :=
  (s.blocks.filter fun b => b.part == p).foldl (fun s b =>
    (blockAlive s b).foldl (fun s t => if (s.thread t).wait = some .serviceRoom then clearWait s t else s) s) s

/-- The records from SVHEAD to SVTAIL, and those passed whose calls still wait: the entries the ring keeps. -/
def Part.keepCalls (p : Part) : Part :=
  let held (j : Nat) : Bool := (j + 256 - p.svhead) % 256 < (p.svtail + 256 - p.svhead) % 256
  { p with calls := p.calls.filter fun c => !c.2 || held c.1 }

/-- R477: SVHEAD is written. -/
def writeServiceHead (s : State) (p : Nat) (v : BitVec 64) : State :=
  wakeCallers p (freeCalls p 256 (s.modPart p fun x => { x with svhead := bits v 7 0 }.keepCalls))

/-- R477: SVANS is written. An answer to a record with no waiting call is ignored. -/
def execServiceAnswer (part i : Nat) (s : State) : Out :=
  .next (
    if (s.part part).calls.contains (i, false) && (callers s part i != [] || savedCaller s part i) then
      let v := serviceValue s part i
      let answered (p : Part) : Part := { p with calls := p.calls.map fun c => if c.1 = i then (i, true) else c }
      let s1 := s.modPart part fun p => (answered p).keepCalls
      let s2 := (callers s1 part i).foldl (answerThread i v) s1
      wakeCallers part (freeCalls part 256 (mapSavedPart part (answerSaved i v) s2))
    else s)

/-! ### Markers (R430) -/

def execTrc (f : IForm) (s : State) : Out :=
  .next (issue (.trc f) .normal (fun s g b ts =>
    eachLane g (fun s t => (traceMarker s t b (bits f.imm 15 0) (srcWord s t f.a), .done)) s ts) s)

end Sys2Proof.Machine
end

