-- ==== Sys2Proof/Machine/Bind.lean ====
section
/-! DEFINITION. The slot table, bind records and the binders (R54, R58, R59, R192, R200, R203, R231, R232, R469-R474). -/

namespace Sys2Proof.Machine

/-! ### What a block takes of its core -/

/-- Bytes of the incoming stage channel of a stage's blocks (R43). -/
def Desc.channel (d : Desc) (stage : Nat) : Nat := if stage = 0 then 0 else d.chan.getD (stage - 1) 0

def Desc.threads (d : Desc) : Nat := d.shape.1 * d.shape.2.1 * d.shape.2.2

/-- Bytes a block binds: its footprint (R54), then the private granules of a template launch (R200). -/
def Desc.boundBytes (d : Desc) (stage : Nat) : Nat :=
  d.scratch + d.channel stage + if d.isTemplate then 512 * d.threads else 0

/-- The ways a range of scratch bytes touches. -/
def waysOf (off n : Nat) : List Nat :=
  if n = 0 then [] else (List.range 16).filter fun i => i * wayBytes < off + n && off < (i + 1) * wayBytes

/-- The scratch ways that a launch's blocks may lie in: those of its mask but for its reserved template ways (R59). -/
def Desc.blockWays (d : Desc) : List Nat :=
  (List.range 16).filter fun i => d.wayMask.getLsbD i && !(templateWays d.wayMask d.segBytes).contains i

/-- Whether a launch's block lies at an offset: aligned, within local memory and in scratch ways (R469). -/
def Desc.scratchFits (d : Desc) (off n : Nat) : Bool :=
  off % 128 == 0 && off + n ≤ 16 * wayBytes && (waysOf off n).all fun i => d.blockWays.contains i

/-- Whether two placements on one core cannot stand together: convergence registers, FIFOs, scratch, the other's
template ways, or way masks (R54, R470). Blocks of one launch (`same`) share its template ways; those of two launches
would take the same, the highest of the common mask (R59). -/
def placesMeet (same : Bool) (d1 : Desc) (st1 : Nat) (cv1 fifo1 off1 : Nat) (d2 : Desc) (st2 : Nat) (cv2 fifo2 off2 : Nat) :
    Bool :=
  (!same && (templateWays d1.wayMask d1.segBytes).any (templateWays d2.wayMask d2.segBytes).contains)
    || rangesMeet cv1 d1.cvs cv2 d2.cvs || rangesMeet fifo1 d1.fifos fifo2 d2.fifos
    || rangesMeet off1 (d1.boundBytes st1) off2 (d2.boundBytes st2)
    || (waysOf off1 (d1.boundBytes st1)).any (fun i => !d2.blockWays.contains i)
    || (waysOf off2 (d2.boundBytes st2)).any (fun i => !d1.blockWays.contains i)
    || d1.wayMask != d2.wayMask

/-- The launch blocks bound to a core, with their launches. -/
def coreBlocks (s : State) (core : Nat) : List (Block × Launch) :=
  (s.blocks.filter fun b => b.core == core && !b.gen).filterMap fun b => (s.launch? b.launch).map fun l => (b, l)

def blockMeets (r : BindRec) (d : Desc) (e : Block × Launch) : Bool :=
  placesMeet (r.handle == e.2.handle) d r.stage r.cvBase r.fifoBase r.scratch e.2.d e.1.stage e.1.cvBase e.1.fifoBase e.1.scratchOff

def recordMeets (s : State) (r : BindRec) (d : Desc) (x : Reservation) : Bool :=
  match s.launch? x.r.handle with
  | some l => placesMeet (r.handle == l.handle) d r.stage r.cvBase r.fifoBase r.scratch l.d x.r.stage x.r.cvBase x.r.fifoBase x.r.scratch
  | none => false

/-- Whether a core has template-bank entries for a record beside those held and reserved there. -/
def banksFit (s : State) (core : Nat) (r : BindRec) (d : Desc) : Bool :=
  (heldBanks s core ++ bankWant s r d).eraseDups.length ≤ 8

/-! ### Bind records (R469) -/

/-- A field of a record of up to 64 bytes. -/
def recField (x off n : Nat) : Nat := x / 256 ^ off % 256 ^ n

def bindRecOf (x : Nat) : BindRec :=
  { handle := recField x 0x02 2, core := recField x 0x04 2, slots := BitVec.ofNat 16 (recField x 0x08 2)
    cvBase := recField x 0x0A 1, fifoBase := recField x 0x0B 1, scratch := recField x 0x0C 4
    coord := (recField x 0x10 2, recField x 0x12 2, recField x 0x14 2), stage := recField x 0x16 1
    bid := recField x 0x17 1, tag := BitVec.ofNat 32 (recField x 0x18 4) }

/-- An admitted launch of a partition. -/
def admitted? (s : State) (p h : Nat) : Option Launch :=
  match s.launch? h with
  | some l => if l.part = p ∧ l.state = .admitted then some l else none
  | none => none

/-- The physical core that serves a logical core: its own, or for a virtual quad's core c that of enabled rank c mod E
(R512, R523). -/
def servingCore (s : State) (p lcore : Nat) : Option Nat :=
  match enabledCores s p with
  | [] => none
  | cs => some (physCore s p (if cs.contains lcore then lcore else cs.getD (lcore % cs.length) 0))

/-- The core that serves a named core for a launch, and its logical index (R469, R512, R523): a virtual quad's cores
are served for deterministic launches only. -/
def serveCore (s : State) (p : Nat) (det : Bool) (core : Nat) : Option (Nat × Nat) :=
  let quad := core / 4
  if 400 ≤ core ∨ quadPart s quad ≠ p then none
  else
    let lcore := 4 * ((partQuads s p).takeWhile (· != quad)).length + core % 4
    if quadEnabled s quad then some (4 * physQuad s quad + core % 4, lcore)
    else if det then (servingCore s p lcore).map fun c => (c, lcore)
    else none

/-- Reserve slots that GCORE and GSLOT name (R474): (physical core, lane set * 8 + slot). A reserve core is named by its
logical number; where that is a virtual quad's, the core that serves it stands for it. -/
def wantedReserve (s : State) (p : Nat) : List (Nat × Nat) :=
  let x := s.part p
  let n := (enabledCores s p).length
  ((List.range x.gcore).flatMap fun i =>
    match servingCore s p (i * n / x.gcore) with
    | some c => (List.range (x.gslot + 1)).flatMap fun j => [(c, 7 - j), (c, 15 - j)]
    | none => []).eraseDups

/-- A slot no launch wave may take: in the reserve, or about to join it. -/
def reservedSlot (s : State) (p core slot : Nat) : Bool :=
  (s.part p).reserve.contains (core, slot) || (wantedReserve s p).contains (core, slot)

/-- The first failing field of a record, in ascending order: its status. Otherwise the launch, the serving core and its
logical index. -/
def recordCheck (s : State) (p x : Nat) : Except Nat (Launch × Nat × Nat) :=
  let r := bindRecOf x
  if recField x 0 1 = 0 ∨ 3 < recField x 0 1 ∨ recField x 1 1 ≠ 0 then .error 4
  else
    match admitted? s p r.handle with
    | none => .error 4
    | some l =>
      match serveCore s p (l.d.flags.getLsbD 1) r.core with
      | none => .error 3
      | some (core, lcore) =>
        let bad := recField x 0x06 2 != 0 || popcount 16 r.slots.toNat != l.d.waves
          || r.slotList.any (reservedSlot s p core)
          || r.cvBase + l.d.cvs > 16 || r.fifoBase + l.d.fifos > 32
          || !l.d.scratchFits r.scratch (l.d.boundBytes r.stage)
          || r.coord.1 ≥ l.d.grid.1 || r.coord.2.1 ≥ l.d.grid.2.1 || r.coord.2.2 ≥ l.d.grid.2.2
          || r.stage ≥ l.d.stages || r.bid ≥ l.d.bpc || r.tag.toNat ≥ 2 ^ 24
        if bad then .error 4 else .ok (l, core, lcore)

/-! ### Reserve (R470) -/

/-- A record that names a saved holder of matrix state: the block becomes the holder on its new core (R139). -/
def bringsMatrix (s : State) (r : BindRec) : Bool :=
  match savedBlock? s r.handle r.coord r.stage r.bid with
  | some (i, b) => i.matrix.any fun m => m.1 == b.id
  | none => false

/-- Whether bound blocks hold what a record names (status 6); a saved holder waits until its core's matrix state is free
(R139). -/
def heldByBlocks (s : State) (r : BindRec) (l : Launch) (core : Nat) : Bool :=
  let own := coreBlocks s core
  let waves := r.slotList.any fun i => (s.waves.find? (core * 16 + i)).isSome
  let ext := [0, 1].any fun ls => poolUnbound s (2 * core + ls) < recordExt s r ls
  let matrix := l.d.flags.getLsbD 8 && (own.any (fun e => e.1.launch == r.handle)
    || (liveReservations s).any fun x => x.core == core && x.r.handle == r.handle)
  let gone := own != [] && (waysOf r.scratch (l.d.boundBytes r.stage)).any fun i => !(s.core core).wayMask.getLsbD i
  let held := bringsMatrix s r && (s.core core).mx.holder.isSome
  waves || ext || matrix || gone || held || !banksFit s core r l.d || own.any (blockMeets r l.d)

/-- The live reservation that holds what a record names (status 2). -/
def heldByReservation (s : State) (r : BindRec) (l : Launch) (core : Nat) : Option Reservation :=
  let here := (liveReservations s).filter fun x => x.core == core
  match here.find? fun x => (x.r.slots &&& r.slots) != 0 || recordMeets s r l.d x || (bringsMatrix s r && bringsMatrix s x.r) with
  | some x => some x
  | none =>
    match [0, 1].find? fun ls => poolFree s (2 * core + ls) < recordExt s r ls with
    | some ls => here.find? fun x => recordExt s x.r ls != 0
    | none => none

/-- Reserve a checked record's resources, all or none: the status, and the holder's tag for status 2. -/
def reserveRecord (s : State) (p : Nat) (r : BindRec) (l : Launch) (core lcore : Nat) : State × Nat × Nat :=
  if heldByBlocks s r l core then (s, 6, 0)
  else
    match heldByReservation s r l core with
    | some x => (s, 2, x.r.tag.toNat)
    | none => ({ s with reservations := s.reservations ++ [⟨p, r, core, lcore, s.tick.toNat⟩] }, 1, 0)

/-- The live reservation a record equals in every field but op. -/
def matchingReservation (s : State) (p : Nat) (r : BindRec) : Option Reservation :=
  (liveReservations s).find? fun x => x.part == p && x.r == r

def dropReservation (s : State) (x : Reservation) : State :=
  { s with reservations := dropFirst (· == x) s.reservations }

/-! ### Commit and start (R470, R471) -/

/-- A core without a launch block takes the mask of the launch that binds to it, its ways change roles as `wayset`
changes them, and its converter its reset state (R59, R231). -/
def prepareCore (s : State) (core : Nat) (mask : BitVec 16) : State :=
  if coreBlocks s core ≠ [] then s
  else
    let old := (s.core core).wayMask
    let up := (List.range 16).filter fun i => mask.getLsbD i && !old.getLsbD i
    let down := (List.range 16).filter fun i => old.getLsbD i && !mask.getLsbD i
    let s1 := down.foldl (wayToL1 core) (up.foldl (wayToScratch core) s)
    let idle := !s.blocks.any fun b => b.core == core
    s1.modCore core fun c => { c with wayMask := mask, sr := if idle then 1 else c.sr }

/-- A template launch's block takes its bank entries (R203, R470). -/
def takeBanks (s : State) (core : Nat) (r : BindRec) (d : Desc) : State :=
  let want := bankWant s r d
  s.modCore core fun c => { c with banks := c.banks ++ want.filter fun e => !c.banks.contains e }

/-- Linear logical cluster index (R232). -/
def clusterIndex (d : Desc) (c : Nat × Nat × Nat) : Nat := c.1 + d.grid.1 * (c.2.1 + d.grid.2.1 * c.2.2)

/-- The seed of a wave's stochastic state in deterministic mode (R232). -/
def waveSeed (d : Desc) (r : BindRec) (w : Nat) : Word :=
  let v : Word := 0x6A09E667 ^^^ (BitVec.ofNat 32 (clusterIndex d r.coord) <<< 8) ^^^ (BitVec.ofNat 32 r.bid <<< 4) ^^^ BitVec.ofNat 32 w
  if v = 0 then 1 else v

/-- A fresh thread of a block (R18, R192). -/
def startThread (l : Launch) (r : BindRec) (first : Bool) : Thread :=
  let stamp : Stamp :=
    if !l.d.isTemplate then .plain
    else if first && r.coord == (0, 0, 0) && r.stage == 0 && r.bid == 0 then .prologue
    else if l.tpl.isSome || l.prologueLost then .free else .unstamped
  { Thread.init with pc := l.d.entries.getD r.stage 0, stamp := stamp, entry := .start }

/-- A fresh wave: the lanes whose threads the block has (R17). -/
def startWave (s : State) (l : Launch) (r : BindRec) (bid w : Nat) : Wave :=
  let lanes := (List.range 32).filter fun i => 32 * w + i < l.d.threads
  { Wave.init with block := bid, index := w, threads := lanes.map fun i => (i, startThread l r (32 * w + i == 0))
                   ext := l.d.pregrant, chosenAt := s.cycle, sr := waveSeed l.d r w }

/-- The incoming stage channel, initialised by the binder (R43, R64). -/
def channelFifo (d : Desc) (stage : Nat) : Table Fifo :=
  if stage = 0 then []
  else
    let n := d.channel stage / 128
    [(31, ⟨d.scratch, 1, n, 0, 0, n, 0, false, false, true, false, [], []⟩)]

/-- The lowest vector index that no resident block of the launch holds (R114). -/
def freeIndex (s : State) (h : Nat) : Option Nat :=
  let all := s.blocks.filter fun b => b.launch == h && !b.gen
  (List.range 256).find? fun i => !all.any fun b => b.vecIndex == some i

/-- The block a committed reservation makes; without threads when it will take a saved block's. -/
def boundBlock (s : State) (l : Launch) (x : Reservation) : Block :=
  let r := x.r
  let d := l.d
  { id := s.nextBlock, launch := l.handle, gen := false, part := x.part, asid := l.asid, agen := l.agen, flags := d.flags
    core := x.core, lcore := x.lcore, coord := r.coord, stage := r.stage, bid := r.bid, nthreads := d.threads
    waves := r.slotList.map fun i => x.core * 16 + i
    scratchOff := r.scratch, scratchBytes := d.scratch, chanBytes := d.channel r.stage, segBytes := d.segBytes
    ncv := d.cvs, cvBase := r.cvBase, nfifo := d.fifos, fifoBase := r.fifoBase, cvs := [], fifos := channelFifo d r.stage
    barriers := [], detBuf := [], detHold := none, busy := 0, busyAt := 0, started := false, faulted := false, halted := false, bindTick := s.tick.toNat
    genItem := none, fillendAt := none, filled := false, endPc := 0, vecIndex := if bits d.flags 6 5 = 0 then none else freeIndex s l.handle
    clocks := l.epochs, startSeq := 0 }

/-- A commit turns a reservation into a binding: the block stands on its core, and no thread starts yet. A saved block's
place is held for its restore. -/
def bindBlock (s : State) (l : Launch) (x : Reservation) : State :=
  let saved := (savedBlock? s l.handle x.r.coord x.r.stage x.r.bid).isSome
  let b := boundBlock s l x
  let exts := recordExts s x.r
  let wave (e : Nat × Nat) : Wave :=
    if saved then { Wave.init with block := b.id, index := e.1, ext := exts.getD e.1 0 } else startWave s l x.r b.id e.1
  let hold (c : Core) : Core :=
    if bringsMatrix s x.r && c.mx.holder.isNone then { c with mx := { c.mx with holder := some b.id } } else c
  let s1 := (takeBanks (prepareCore s x.core l.d.wayMask) x.core x.r l.d).modCore x.core hold
  let waves := (List.zip (List.range b.waves.length) b.waves).foldl (fun m e => Table.put m e.2 (wave e)) s1.waves
  let s2 := { s1 with waves := waves, blocks := s1.blocks ++ [b], nextBlock := s1.nextBlock + 1 }
  s2.modLaunch l.handle fun l => { l with bound := l.bound ++ [(x.r.coord, x.r.stage, x.r.bid)] }

/-- A block becomes eligible at its stage entry: its regions begin, and it has acquired what its launch waited for (R107,
R467, R471). -/
def startBlock (s : State) (b : Block) : State :=
  let (n, s1) := (acquireAll s b.core .system).tickSeq
  let s2 := s1.modBlock b.id fun x => { x with started := true, startSeq := n }
  let go (x : Thread) : Thread := { x with regionPc := x.pc, regionSeq := n, readyAt := s.cycle }
  (blockThreads s2 b).foldl (fun s t => s.modThread t go) s2

/-- Blocks of a coordinate that are bound and not started. -/
def waitingBlocks (s : State) (h : Nat) (coord : Nat × Nat × Nat) : List Block :=
  s.blocks.filter fun b => !b.gen && b.launch == h && b.coord == coord && !b.started

/-- A complete coordinate starts; in a cooperative launch all coordinates start once the grid is complete (R50, R471). A
saved coordinate awaits its restore. -/
def startCoords (s : State) (h : Nat) (coord : Nat × Nat × Nat) : State :=
  match s.launch? h with
  | none => s
  | some l =>
    let whole := (l.bound.filter fun e => e.1 == coord).length == l.d.stages * l.d.bpc
    if (imageOf s h coord).isSome ∨ !whole then s
    else if !l.d.flags.getLsbD 0 then (waitingBlocks s h coord).foldl startBlock s
    else if l.bound.length ≠ l.d.blocks then s
    else (s.blocks.filter fun b => !b.gen && b.launch == h && !b.started && (imageOf s h b.coord).isNone).foldl startBlock s

/-- Commit: a block that is committed already is refused first; then the reservation it names, in the square of the
coordinate's other blocks, else its status (R470, R471). -/
def commitRecord (s : State) (p : Nat) (r : BindRec) (l : Launch) : State × Nat :=
  if l.bound.contains (r.coord, r.stage, r.bid) then (s, 4)
  else match matchingReservation s p r with
  | none => (s, 5)
  | some x =>
    let mates := s.blocks.filter fun b => !b.gen && b.launch == r.handle && b.coord == r.coord
    if mates.any fun b => b.lcore / 16 != x.lcore / 16 then (s, 4)
    else (startCoords (bindBlock (dropReservation s x) l x) r.handle r.coord, 1)

def abandonRecord (s : State) (p : Nat) (r : BindRec) : State × Nat :=
  match matchingReservation s p r with
  | none => (s, 5)
  | some x => (dropReservation s x, 1)

/-! ### The bind ring -/

/-- A record outside the partition leaves a record of kind 10, whatever its status (R469). -/
def rangeRecord (s : State) (p x : Nat) : State :=
  let r := bindRecOf x
  let l := admitted? s p r.handle
  let det := match l with | some l => l.d.flags.getLsbD 1 | none => false
  if (serveCore s p det r.core).isSome then s
  else
    let (h, asid) := match l with | some l => (l.handle, l.asid) | none => (0xFFFF, 0)
    postFault s p (record (header s 10 0 h asid 0xFFFF 0 ++ [q ((s.part p).brhead + 2 ^ 16 * r.core), 0, 0, 0, 0]))

/-- The status of a record and what it does. -/
def judgeRecord (s : State) (p x : Nat) : State × Nat × Nat :=
  let r := bindRecOf x
  let s1 := rangeRecord s p x
  match recordCheck s p x with
  | .error st => (s1, st, 0)
  | .ok (l, core, lcore) =>
    match recField x 0 1 with
    | 1 => reserveRecord s1 p r l core lcore
    | 2 => let (s2, st) := commitRecord s1 p r l; (s2, st, 0)
    | _ => let (s2, st) := abandonRecord s1 p r; (s2, st, 0)

/-- The next record of the bind ring, if the binder has written one. Binding is stopped while the partition is swapped
out (R499), and while its Sextant core has failed (R517). -/
def nextRecord (s : State) (p : Nat) : Option Nat :=
  let x := s.part p
  if x.brhead = x.brtail ∨ x.swapped ∨ bindsNothing s p then none else some (ringRead s p (x.brbase.toNat + 32 * x.brhead) 32)

/-- Take the next record of the ring if its op satisfies a test: the status is written, then BRHEAD advances (R470). -/
def takeRecord (p : Nat) (ok : Nat → Bool) (s : State) : State :=
  match nextRecord s p with
  | none => s
  | some x =>
    if !ok (recField x 0 1) then s
    else
      let a := (s.part p).brbase.toNat + 32 * (s.part p).brhead + 0x1C
      let (s1, st, tag) := judgeRecord s p x
      let s2 := ringWrite s1 p a (toBytes 4 (st + 2 ^ 8 * tag))
      s2.modPart p fun x => { x with brhead := (x.brhead + 1) % 128 }

/-! ### The built-in arbiter (R472, R473) -/

/-- The claim tag of a launch (R472). -/
def claimTag (l : Launch) : BitVec 32 := BitVec.ofNat 32 (l.prio * 2 ^ 21 + (0x1FFFFF - l.admSeq % 2 ^ 21))

/-- Coordinates of a grid, by linear index. -/
def coordAt (d : Desc) (i : Nat) : Nat × Nat × Nat := (i % d.grid.1, i / d.grid.1 % d.grid.2.1, i / (d.grid.1 * d.grid.2.1))

/-- The (stage, bid) of a coordinate that are to be bound: all, or those a saved image holds. -/
def coordParts (s : State) (l : Launch) (coord : Nat × Nat × Nat) : List (Nat × Nat) :=
  match imageOf s l.handle coord with
  | some i => i.blocks.map fun b => (b.stage, b.bid)
  | none => (List.range l.d.stages).flatMap fun st => (List.range l.d.bpc).map fun b => (st, b)

def unboundParts (s : State) (l : Launch) (coord : Nat × Nat × Nat) : List (Nat × Nat) :=
  (coordParts s l coord).filter fun e => !l.bound.contains (coord, e.1, e.2)

/-- The next coordinate of a launch to bind: one already under way, else a saved one, else the first not yet bound; none
that backs off, none that has given its cores to others (R523), and none while the partition is swapped out. -/
def nextCoord (s : State) (p : Nat) (l : Launch) : Option (Nat × Nat × Nat) :=
  let resting (c : Nat × Nat × Nat) : Bool := s.backoffs.any fun b => b.handle == l.handle && b.coord == c && b.waiting
  let open? (c : Nat × Nat × Nat) : Bool := !resting c && unboundParts s l c != []
  let begun := ((liveReservations s).filter fun x => x.part == p && x.r.handle == l.handle).map fun x => x.r.coord
  let half := (s.blocks.filter fun b => !b.gen && b.launch == l.handle && !b.started).map fun b => b.coord
  let saved := (s.images.filter fun i => i.written && !i.swapped && !i.yields && i.launch == l.handle).map fun i => i.coord
  match (begun ++ half ++ saved).find? open? with
  | some c => some c
  | none =>
    -- no more coordinates than these can be bound or resting before the first that is neither
    let n := min (l.d.grid.1 * l.d.grid.2.1 * l.d.grid.2.2) (l.bound.length + s.backoffs.length + 1)
    ((List.range n).map (coordAt l.d)).find? fun c =>
      open? c && (imageOf s l.handle c).isNone && !l.bound.any fun e => e.1 == c

/-- Named cores of a partition's square j, ascending: sixteen consecutive logical cores (R15, R512). -/
def squareCores (s : State) (p j : Nat) : List (Nat × Nat) :=
  let qs := partQuads s p
  ((List.range 16).filter fun i => 4 * j + i / 4 < qs.length).map fun i =>
    (4 * qs.getD (4 * j + i / 4) 0 + i % 4, 16 * j + i)

def squareCount (s : State) (p : Nat) : Nat := ceilDiv (partQuads s p).length 4

/-- The first range of `n` numbers below a limit, at a multiple of a step, that misses the taken ones. -/
def firstRange (limit step n : Nat) (taken : List (Nat × Nat)) : Option Nat :=
  ((List.range (limit / step + 1)).map (· * step)).find? fun a => a + n ≤ limit && !taken.any fun e => rangesMeet a n e.1 e.2

/-- First fit on one core (R473): slots, scratch, then registers and FIFOs, each the lowest. -/
def fitCore (s : State) (p : Nat) (l : Launch) (coord : Nat × Nat × Nat) (part : Nat × Nat) (named core : Nat) : Option BindRec :=
  let own := coreBlocks s core
  let free := (List.range 16).filter fun i => (s.waves.find? (core * 16 + i)).isNone && !reservedSlot s p core i
  let n := l.d.boundBytes part.1
  let used := own.map fun e => (e.1.scratchOff, e.2.d.boundBytes e.1.stage)
  let offs := (List.range 4097).map (· * 128)
  let off := offs.find? fun a => l.d.scratchFits a n && !used.any fun u => rangesMeet a n u.1 u.2
  let cv := firstRange 16 1 l.d.cvs (own.map fun e => (e.1.cvBase, e.1.ncv))
  let fifo := firstRange 32 1 l.d.fifos (own.map fun e => (e.1.fifoBase, e.1.nfifo))
  let mk (slots : List Nat) (o c f : Nat) : BindRec :=
    ⟨l.handle, named, BitVec.ofNat 16 (sumOf (slots.map fun i => 2 ^ i)), c, f, o, coord, part.1, part.2, claimTag l⟩
  match off, cv, fifo with
  | some o, some c, some f =>
    let step (acc : List Nat) (i : Nat) : List Nat :=
      let r := mk (acc ++ [i]) o c f
      let tight := [0, 1].any fun ls => poolUnbound s (2 * core + ls) < recordExt s r ls
      if acc.length < l.d.waves && !tight then acc ++ [i] else acc
    let slots := free.foldl step []
    if slots.length < l.d.waves then none
    else
      let r := mk slots o c f
      if heldByBlocks s r l core then none else some r
  | _, _, _ => none

/-- Whether a drain under way closes a core to a coordinate: one of the drained launch that is new, not bound in part and
not saved (R497). -/
def drained (s : State) (p : Nat) (l : Launch) (coord : Nat × Nat × Nat) (core : Nat) : Bool :=
  !(l.bound.any fun e => e.1 == coord) && (imageOf s l.handle coord).isNone
    && (s.part p).preempts.any fun x => x.handle == l.handle && x.opt == 1 && x.cores.contains core
      && s.blocks.any fun b => !b.gen && b.launch == l.handle && b.coord == x.coord

/-- Whether a saved block goes back to its logical core, another one than this: in deterministic mode, and after a quad's
failure (R515, R522, R523). -/
def placedElsewhere (s : State) (l : Launch) (coord : Nat × Nat × Nat) (part : Nat × Nat) (lcore : Nat) : Bool :=
  match savedBlock? s l.handle coord part.1 part.2 with
  | some (i, b) => (i.stays || l.d.flags.getLsbD 1) && b.lcore != lcore
  | none => false

def fitSquare (s : State) (p : Nat) (l : Launch) (coord : Nat × Nat × Nat) (part : Nat × Nat) (j : Nat) :
    Option (BindRec × Nat × Nat) :=
  (squareCores s p j).findSome? fun e =>
    match serveCore s p (l.d.flags.getLsbD 1) e.1 with
    | some (core, lcore) =>
      if drained s p l coord core || placedElsewhere s l coord part lcore then none
      else (fitCore s p l coord part e.1 core).map fun r => (r, core, lcore)
    | none => none

/-- The state with every remaining part of a coordinate bound in one square, each placed in turn, if they fit. -/
def placeParts (p : Nat) (l : Launch) (coord : Nat × Nat × Nat) (j : Nat) : List (Nat × Nat) → State → Option State
  | [], s => some s
  | e :: rest, s =>
    (fitSquare s p l coord e j).bind fun x =>
      placeParts p l coord j rest (bindBlock s l ⟨p, x.1, x.2.1, x.2.2, s.tick.toNat⟩)

def coordFits (p : Nat) (l : Launch) (coord : Nat × Nat × Nat) (j : Nat) (ps : List (Nat × Nat)) (s : State) : Bool :=
  (placeParts p l coord j ps s).isSome

/-- Whether every coordinate of a launch's grid fits at once beside what is bound and reserved (R50): each placed in turn
in the first square that takes it. -/
def gridFitsNow (s : State) (p : Nat) (l : Launch) : Bool :=
  let stand (s : State) (x : Reservation) : State := match s.launch? x.r.handle with | some m => bindBlock s m x | none => s
  let coords := (List.range (l.d.grid.1 * l.d.grid.2.1 * l.d.grid.2.2)).map (coordAt l.d)
  let place (s? : Option State) (c : Nat × Nat × Nat) : Option State :=
    s?.bind fun s => (List.range (squareCount s p)).findSome? fun j => placeParts p l c j (coordParts s l c) s
  (coords.foldl place (some ((liveReservations s).foldl stand s))).isSome

/-- The arbiter's reservations of a coordinate. -/
def ownReservations (s : State) (p : Nat) (l : Launch) (coord : Nat × Nat × Nat) : List Reservation :=
  (liveReservations s).filter fun x => x.part == p && x.r.handle == l.handle && x.r.coord == coord

/-- The square of a coordinate: that of its parts already placed, else the first that takes all of it. -/
def coordSquare (s : State) (p : Nat) (l : Launch) (coord : Nat × Nat × Nat) : Option Nat :=
  match (ownReservations s p l coord).map (fun x => x.lcore)
      ++ (s.blocks.filter fun b => !b.gen && b.launch == l.handle && b.coord == coord).map (fun b => b.lcore) with
  | c :: _ => some (c / 16)
  | [] => (List.range (squareCount s p)).find? fun j => coordFits p l coord j (unboundParts s l coord) s

/-- Admitted launches in the arbiter's order: the highest priority plus ageing, then the lower sequence. -/
def arbiterOrder (s : State) (p : Nat) : List Launch :=
  let ls := ((s.launches.map Prod.snd).filter fun l => l.part == p && l.state == .admitted)
  sortBy (fun l => (32 - (l.prio + l.bonus)) * 2 ^ 32 + l.admSeq) ls

/-- What the arbiter can do for a launch now: reserve a further part, or commit a coordinate all of whose parts are
reserved. -/
inductive ArbiterMove where
  | reserve (l : Launch) (r : BindRec) (core lcore : Nat)
  | commit (l : Launch) (x : Reservation)
  deriving DecidableEq, Repr

/-- A launch of which some block is bound, reserved, saved or ended. -/
def underWay (s : State) (l : Launch) : Bool :=
  l.bound != [] || l.endedBlocks != 0 || (s.images.any fun i => i.launch == l.handle)
    || (liveReservations s).any fun x => x.r.handle == l.handle

/-- A cooperative launch whose binding has begun and is not complete: its whole grid fitted when it began, and no other
launch is bound meanwhile (R50). -/
def gathering (s : State) (l : Launch) : Bool :=
  l.d.flags.getLsbD 0 && underWay s l && l.bound.length < l.d.blocks && l.endedBlocks == 0
    && !s.images.any fun i => i.launch == l.handle

/-- Whether a reservation may no longer be committed: a slot of it has been named for the generator reserve since (R474), or
a drain has closed its core (R497). -/
def closedTo (s : State) (p : Nat) (l : Launch) (x : Reservation) : Bool :=
  x.r.slotList.any (reservedSlot s p x.core) || drained s p l x.r.coord x.core

/-- What the arbiter can do for a coordinate now; a reservation that may no longer be committed goes first. -/
def coordMove (s : State) (p : Nat) (l : Launch) (c : Nat × Nat × Nat) : Option ArbiterMove :=
  let own := ownReservations s p l c
  let left := (unboundParts s l c).filter fun e => !own.any fun x => (x.r.stage, x.r.bid) == e
  match own.find? (closedTo s p l) with
  | some x => some (.commit l x)
  | none =>
    match left, own with
    | [], x :: _ => some (.commit l x)
    | e :: _, _ =>
      -- the parts already reserved stand as if bound
      let s1 := own.foldl (fun s x => bindBlock s l x) s
      (coordSquare s p l c).bind fun j =>
        (fitSquare s1 p l c e j).map fun r => .reserve l r.1 r.2.1 r.2.2
    | [], [] => none

def launchMove (s : State) (p : Nat) (l : Launch) : Option ArbiterMove :=
  if l.d.flags.getLsbD 0 ∧ !underWay s l ∧ !gridFitsNow s p l then none
  else (nextCoord s p l).bind (coordMove s p l)

/-- With nothing else to bind, a coordinate that gave its cores to others takes its turn again, the one first that has
waited longest (R523). -/
def turnMove (s : State) (p : Nat) : Option ArbiterMove :=
  (s.images.filter fun i => i.written && !i.swapped && i.yields).findSome? fun i =>
    (admitted? s p i.launch).bind fun l =>
      let resting := s.backoffs.any fun b => b.handle == i.launch && b.coord == i.coord && b.waiting
      if resting || unboundParts s l i.coord == [] then none else coordMove s p l i.coord

/-- The built-in arbiter's next move, if the partition's binder is the arbiter. -/
def arbiterMove (s : State) (p : Nat) : Option ArbiterMove :=
  if (s.part p).mode ≠ 0 ∨ (s.part p).swapped ∨ bindsNothing s p then none
  else
    let all := arbiterOrder s p
    match all.find? (gathering s) with
    | some l => launchMove s p l
    | none =>
      match all.findSome? (launchMove s p) with
      | some m => some m
      | none => turnMove s p

/-- The spread of a wait (R472): uniform in throughput mode, a free value here; by the cluster's index in deterministic
mode. -/
def backoffSpread (s : State) (l : Launch) (coord : Nat × Nat × Nat) (k : Nat) : State × Nat :=
  if l.d.flags.getLsbD 1 then (s, 16 * (clusterIndex l.d coord % 8))
  else let (v, s1) := s.fresh; (s1, v.toNat % (2 ^ k * 128))

/-- Status 2 under the arbiter (R472): below the holder's tag every reservation of the coordinate is abandoned and the
coordinate backs off; above it they are kept and the record is tried again after 128 cycles. -/
def arbiterConflict (s : State) (p : Nat) (l : Launch) (r : BindRec) (tag : Nat) : State :=
  let same (b : Backoff) : Bool := b.handle == l.handle && b.coord == r.coord
  let k := match s.backoffs.find? same with | some b => b.k | none => 0
  let rest := s.backoffs.filter fun b => !same b
  if tag < r.tag.toNat then
    { s with backoffs := rest ++ [⟨l.handle, r.coord, k, true, s.cycle + 128⟩] }
  else
    let (s1, spread) := backoffSpread s l r.coord k
    let own := ownReservations s1 p l r.coord
    { s1 with reservations := s1.reservations.filter fun x => !own.contains x
              backoffs := rest ++ [⟨l.handle, r.coord, min 7 (k + 1), true, s.cycle + 2 ^ k * 128 + spread⟩] }

def arbiterReserve (s : State) (p : Nat) : State :=
  match arbiterMove s p with
  | some (.reserve l r core lcore) =>
    (match reserveRecord s p r l core lcore with
     | (s1, 2, tag) => arbiterConflict s1 p l r tag
     | (s1, _, _) => s1)
  | _ => s

/-- The arbiter's commit; a reservation that may no longer be committed is given back (R474, R497). -/
def arbiterCommit (s : State) (p : Nat) : State :=
  match arbiterMove s p with
  | some (.commit l x) =>
    let s1 := if closedTo s p l x then dropReservation s x else (commitRecord s p x.r l).1
    { s1 with backoffs := s1.backoffs.filter fun b => !(b.handle == l.handle && b.coord == x.r.coord) }
  | _ => s

/-! ### The steps -/

/-- Records written in turn from BRTAIL on. -/
def writeRecords (s : State) (p : Nat) (recs : List (BitVec 256)) : State :=
  (recs.zipIdx).foldl (fun s e =>
    ringWrite s p ((s.part p).brbase.toNat + 32 * (((s.part p).brtail + e.2) % 128)) (toBytes 32 e.1.toNat)) s

/-- R470, R473: the binder stores the records that it hands over, from BRTAIL on, and advances BRTAIL. What a firmware or
host binder writes next stands in `Part.binderOut`; a slot for which nothing stands there keeps what memory holds
(assumption 93). -/
def execBindRingWrite (part tail : Nat) (s : State) : Out :=
  .next (
    let n := (tail + 128 - (s.part part).brtail) % 128
    (writeRecords s part ((s.part part).binderOut.take n)).modPart part fun p =>
      { p with brtail := tail % 128, binderOut := p.binderOut.drop n })

/-- R470: a reserve record of the ring; in built-in mode, with the ring empty, the arbiter's own. -/
def execBindReserve (part : Nat) (s : State) : Out :=
  .next (if (nextRecord s part).isSome then takeRecord part (· == 1) s else arbiterReserve s part)

def execBindCommit (part : Nat) (s : State) : Out :=
  .next (if (nextRecord s part).isSome then takeRecord part (· == 2) s else arbiterCommit s part)

def execBindAbandon (part : Nat) (s : State) : Out := .next (takeRecord part (· == 3) s)

def execBindRecordMalformed (part : Nat) (s : State) : Out := .next (takeRecord part (fun op => op == 0 || 3 < op) s)

/-- R470: the i-th reservation has not been committed within RESEXP ticks. -/
def execReservationLapse (i : Nat) (s : State) : Out :=
  .next (
    match s.reservations[i]? with
    | some x =>
      if (liveReservations s).contains x then s
      else
        let s1 := dropReservation s x
        regrant s1 x.core
    | none => s)

/-- R459, R473: MODE and SVCH are written; a MODE of 11 is ignored. In built-in mode the event ring is not written (R468). -/
def execBinderModeWrite (part : Nat) (value : BitVec 64) (s : State) : Out :=
  .next (
    let s1 := s.modPart part fun p =>
      { p with svch := value.getLsbD 2, mode := if bits value 1 0 = 3 then p.mode else value.extractLsb' 0 2 }
    if (s1.part part).mode = 0 then dropEvents s1 part else s1)

/-- R474: GCORE and GSLOT are written; a GCORE of 0, of more than 48 (R459) or of more than the
partition's cores, ignores the whole write. -/
def execGeneratorReserveWrite (part : Nat) (value : BitVec 64) (s : State) : Out :=
  .next (
    let n := bits value 5 0
    if n = 0 ∨ 48 < n ∨ (enabledCores s part).length < n then s
    else s.modPart part fun p => { p with gcore := n, gslot := bits value 9 8 })

/-- R474: an added slot joins once no launch wave occupies it, a removed one leaves once no generator does. -/
def execReserveSlotChange (part core slot : Nat) (s : State) : Out :=
  .next (
    let want := (wantedReserve s part).contains (core, slot)
    let held := (s.part part).reserve.contains (core, slot)
    let busy := (s.waves.find? (core * 16 + slot)).isSome
    if busy then s
    else if want && !held then s.modPart part fun p => { p with reserve := p.reserve ++ [(core, slot)] }
    else if held && !want then s.modPart part fun p => { p with reserve := p.reserve.filter (· != (core, slot)) }
    else s)

/-- R472: the i-th wait has run out, and its coordinate may be attempted again. -/
def execArbiterBackoffExpiry (i : Nat) (s : State) : Out :=
  .next (
    match s.backoffs[i]? with
    | some b =>
      if b.waiting ∧ b.untilCycle ≤ s.cycle then
        { s with backoffs := s.backoffs.modify i fun b => { b with waiting := false } }
      else s
    | none => s)

/-- R473: +1 for every 1,000 ticks an admitted launch has waited for a coordinate to bind, up to +7. -/
def execArbiterAgeing (handle : Nat) (s : State) : Out :=
  .next (
    match s.launch? handle with
    | some l =>
      if l.state = .admitted ∧ l.admTick + 1000 * (l.bonus + 1) ≤ s.tick.toNat ∧ l.bonus < 7 then
        s.modLaunch handle fun l => { l with bonus := l.bonus + 1 }
      else s
    | none => s)

end Sys2Proof.Machine
end

