-- ==== Sys2Proof/Machine/CrossLane.lean ====
section
/-! DEFINITION. Cross-lane instructions, execution masks, extension blocks and wsync: opcodes 0x60-0x6C (R341-R347). -/

namespace Sys2Proof.Machine

/-- R342: the lane chosen at run time. -/
def shflLane (s : State) (t : TRef) (f : RForm) : Nat := pickedLane s t f.b

def shflValue (s : State) (t : TRef) (f : RForm) : Nat :=
  let u : TRef := ⟨t.wave, shflLane s t f⟩
  if s.bound u then ofWords ((List.range f.h.typ.regs).map fun i => vreg s u (f.a.num.toNat + i)) else 0

def execShfl (f : RForm) (s : State) : Out :=
  .next (issue (.shfl f) .normal (fun s g b ts =>
    let stray (t : TRef) : Bool := !g.lanes.getLsbD (shflLane s t f) || !s.bound ⟨t.wave, shflLane s t f⟩
    if b.checked ∧ ts.any stray then ts.foldl (fun s t => trapAt s t (simpleTrap 0x17)) s
    else finishRes f.dst f.h.typ.regs false (fun t => Res.of (shflValue s t f)) s g b ts) s)

/-- The executing lanes whose value satisfies a test, as a mask. -/
def laneMask (ts : List TRef) (p : TRef → Bool) : Nat := sumOf ((ts.filter p).map fun t => 2 ^ t.lane)

/-- R343. -/
def execBallot (f : RForm) (s : State) : Out :=
  .next (issue (.ballot f) .normal (fun s g b ts =>
    let m := laneMask ts fun t => srcVal s t .b32 f.a != 0
    finishRes f.dst 1 false (fun _ => Res.of m) s g b ts) s)

def execVote (f : RForm) (s : State) : Out :=
  .next (issue (.vote f) .normal (fun s g b ts =>
    let vals := ts.map fun t => srcVal s t f.h.typ f.a
    let r : Bool := match f.xf.toNat with
      | 0 => vals.all (· != 0)
      | 1 => vals.any (· != 0)
      | _ => vals.all fun v => some v == vals.head?
    finishRes f.dst 1 true (fun _ => Res.of (if r then 1 else 0)) s g b ts) s)

def execMatchx (f : RForm) (s : State) : Out :=
  .next (issue (.matchx f) .normal (fun s g b ts =>
    let val (t : TRef) : Nat := srcVal s t f.h.typ f.a
    finishRes f.dst 1 false (fun t => Res.of (laneMask ts fun u => val u == val t)) s g b ts) s)

/-- The operations of scans and reductions (R344): the running value first. -/
def scanOp (ty : Ty) (xf : BitVec 4) (r a : Nat) : Nat :=
  let w := if ty.is64 then 64 else 32
  match bits xf 2 0 with
  | 0 => (r + a) % 2 ^ w
  | 1 => if elemInt ty w a < elemInt ty w r then a else r
  | 2 => if elemInt ty w r < elemInt ty w a then a else r
  | 3 => r &&& a
  | 4 => r ||| a
  | 5 => r ^^^ a
  | _ => (fpAdd .f32 .rne r a).1

def scanIdentity (ty : Ty) (xf : BitVec 4) : Nat :=
  let w := if ty.is64 then 64 else 32
  match bits xf 2 0 with
  | 1 => if tySigned ty then 2 ^ (w - 1) - 1 else 2 ^ w - 1
  | 2 => if tySigned ty then 2 ^ (w - 1) else 0
  | 3 => 2 ^ w - 1
  | 6 => 0x80000000
  | _ => 0

/-- The running values: before and after each lane. The first lane's inclusive value is its own. -/
def scanRun (ty : Ty) (xf : BitVec 4) (vals : List Nat) : List (Nat × Nat) :=
  (vals.foldl (fun (r : List (Nat × Nat) × Option Nat) a =>
    let before := r.2.getD (scanIdentity ty xf)
    let after := match r.2 with | some x => scanOp ty xf x a | none => a
    (r.1 ++ [(before, after)], some after)) ([], none)).1

/-- R344. -/
def execScan (f : RForm) (s : State) : Out :=
  .next (issue (.scan f) .normal (fun s g b ts =>
    let run := ts.zip (scanRun f.h.typ f.xf (ts.map fun t => srcVal s t f.h.typ f.a))
    let val (t : TRef) : Nat := match run.find? fun e => e.1 == t with
      | some e => if f.xf.getLsbD 3 then e.2.1 else e.2.2
      | none => 0
    finishRes f.dst f.h.typ.regs false (fun t => Res.of (val t)) s g b ts) s)

def execRedx (f : RForm) (s : State) : Out :=
  .next (issue (.redx f) .normal (fun s g b ts =>
    let run := scanRun f.h.typ f.xf (ts.map fun t => srcVal s t f.h.typ f.a)
    let r := (run.getLast?.map Prod.snd).getD (scanIdentity f.h.typ f.xf)
    finishRes f.dst f.h.typ.regs false (fun _ => Res.of r) s g b ts) s)

/-! ### Execution masks (R345) -/

def setE (s : State) (t : TRef) (e : Bool) : State := s.modThread t fun x => { x with e := e }

def execMsksave (f : RForm) (s : State) : Out :=
  .next (issue (.msksave f) .all (fun s g _ ts =>
    eachLane g (fun s t =>
      let a := vreg s t f.a.num.toNat
      (setV s t f.dst.num.toNat ((a <<< 1) ||| (if (s.thread t).e then 1 else 0)), .done)) s ts) s)

def execMskand (f : RForm) (s : State) : Out :=
  .next (issue (.mskand f) .all (fun s g _ ts =>
    let vals := ts.map fun t => (t, srcVal s t .b32 f.a != 0)
    eachLane g (fun s t =>
      let a := ((vals.find? fun e => e.1 == t).map Prod.snd).getD false
      (setE s t ((s.thread t).e && a), .done)) s ts) s)

def execMskrest (f : RForm) (s : State) : Out :=
  .next (issue (.mskrest f) .all (fun s g _ ts =>
    eachLane g (fun s t =>
      let a := vreg s t f.a.num.toNat
      (setV (setE s t (a.getLsbD 0)) t f.dst.num.toNat (a >>> 1), .done)) s ts) s)

def execMskelse (f : RForm) (s : State) : Out :=
  .next (issue (.mskelse f) .all (fun s g _ ts =>
    eachLane g (fun s t => (setE s t ((vreg s t f.a.num.toNat).getLsbD 0 && !(s.thread t).e), .done)) s ts) s)

/-! ### Extension blocks (R29, R346) -/

def execXacq (f : IForm) (s : State) : Out :=
  .next (issue (.xacq f) .normal (fun s g _ ts =>
    if f.imm.toNat ≤ (s.wave g.wave).ext then ts.foldl advance s
    else requestExt s ts f.imm.toNat false) s)

/-- Whether a load, march, trace or beam of the wave still writes registers of the blocks above `n` (R346). -/
def extBusy (s : State) (w n : Nat) : Bool :=
  s.loads.any fun l => l.t.wave == w && !l.uniform && l.regs.any fun r => 64 * (n + 1) ≤ r.1 && r.1 < 64 * (1 + (s.wave w).ext)

/-- Give back the blocks above `n`: their contents are lost, and registers of the template range are mapped again. -/
def releaseExt (s : State) (w n : Nat) : State :=
  let lo := 64 * (n + 1)
  let hi := 64 * (1 + (s.wave w).ext)
  let s1 := (waveThreads s w).foldl (fun s t =>
    let range := match (s.thread t).tpl.bind s.tpl? with | some y => y.range | none => 0
    s.modThread t fun x =>
      { x with v := x.v.filter fun e => e.1 < lo || hi ≤ e.1
               mapped := (List.range 256).foldl (fun m i => if lo ≤ i ∧ i < hi ∧ i < range then m ||| (1#256 <<< i) else m) x.mapped }) s
  let ls := waveLaneSet w
  effects (grantExt (s1.modWave w fun x => { x with ext := n }) ls) [.deadlock ls]

def execXrel (f : IForm) (s : State) : Out :=
  .next (issue (.xrel f) .normal (fun s g _ ts =>
    let n := f.imm.toNat
    if (s.wave g.wave).ext ≤ n then ts.foldl advance s
    else if extBusy s g.wave n then ts.foldl (fun s t => setWait s t .recheck) s
    else releaseExt (ts.foldl advance s) g.wave n) s)

/-- R26, R347. -/
def execWsync (f : IForm) (s : State) : Out :=
  .next (issue (.wsync f) .normal (fun s g b ts =>
    let s1 := eachLane g (fun s t => (s, if f.imm.getLsbD t.lane then .stay (.wsync f.imm) else .trap (simpleTrap 0x06))) s ts
    settle s1 b.id) s)

end Sys2Proof.Machine
end

