-- ==== Sys2Proof/Machine/MemEvents.lean ====
section
/-! DEFINITION. What the memory system does by itself: loads returning, stores performed, write-backs judged, dirty lines
written to DRAM (R38, R487, R537). -/

namespace Sys2Proof.Machine

/-- A load's data is written: registers that a later instruction has taken are no longer among its registers (R353). -/
def writeLoad (s : State) (l : PendLoad) : State :=
  if l.uniform then
    s.modWave l.t.wave fun w => { w with k := l.regs.foldl (fun k r => Table.set 0 k r.1 r.2) w.k }
  else l.regs.foldl (fun s r => setV s l.t r.1 r.2) s

/-- Whether a load waits on a peer that is out of reach: its entry was cleared, or its ports have failed (R506). -/
def PendLoad.stranded (s : State) (l : PendLoad) : Bool := !l.live && l.peer.any fun p => !peerReachable s p

/-- A load held for 10,000 ticks is refused: trap 0x0B at the load. What its thread's other held loads ask for is asked
again when the trap's handler returns to it (R506). -/
def refuseLoad (s : State) (l : PendLoad) : State :=
  let mine (x : PendLoad) : Bool := x.stranded s && x.since.isSome
  let nums := (s.loads.filter fun x => x.t == l.t && mine x).map PendLoad.sample
  let s1 := s.modPart (threadPart s l.t) fun p =>
    { p with trace := { p.trace with samples := p.trace.samples.filter fun e => e.num = 0 || !nums.contains e.num } }
  effects (retireLoads (dropLoads s1 l.t mine) l.t) [.trap l.t (simpleTrap 0x0B) l.pc]

/-- R38: the i-th outstanding load returns; one that waits on a peer out of reach is held, and then refused (R506). -/
def execLoadComplete (i : Nat) (s : State) : Out :=
  .next (
    match s.loads[i]? with
    | some l =>
      if l.live ∨ l.unit ≠ 0 then s
      else if l.stranded s then (if l.since.any fun n => n + 10000 ≤ s.tick.toNat then refuseLoad s l else s)
      else
        let s1 := writeLoad s l
        retireLoads { s1 with loads := s1.loads.modify i fun x => { x with live := true, regs := [] } } l.t
    | none => s)

/-- A thread's performed stores at the head of its issue order are counted out; those of its earlier items lower no
counter of the present one (R38, R196). -/
def retireStores (s : State) (t : TRef) : State :=
  let mine := s.stores.filter fun l => l.t == t
  let n := mine.length - (dropLead (·.fin) mine).length
  let s1 := { s with stores := iter (dropFirst fun x => x.t == t) n s.stores }
  s1.modThread t fun x => { x with staleSt := x.staleSt - n, st := x.st - (n - x.staleSt) }

/-- R38: the i-th outstanding store is performed at its scope. -/
def execStorePerformed (i : Nat) (s : State) : Out :=
  .next (
    match s.stores[i]? with
    | some p =>
      if p.fin ∨ p.buffered then s
      else retireStores { s with stores := s.stores.modify i fun x => { x with fin := true } } p.t
    | none => s)

/-- R537: the i-th write-back reaches its home bank, after earlier ones of its core's line. -/
def execHomeBankWriteJudged (i : Nat) (s : State) : Out :=
  .next (
    match s.wbs[i]? with
    | some b =>
      let same (x : WriteBack) : Bool := x.core == b.core && x.asid == b.asid && x.agen == b.agen && x.va == b.va
      (match s.wbs.find? same with
       | some x => judgeWb { s with wbs := dropFirst same s.wbs } x
       | none => s)
    | none => s)

/-- R537: the i-th CSM line is evicted: its dirty bytes go to DRAM, or stay where their page is not resident. -/
def execCsmLineToDram (i : Nat) (s : State) : Out :=
  .next (
    match s.csm[i]? with
    | some l =>
      let (s1, clean) := writeLineBack s l
      if clean then { s1 with csm := s1.csm.filter fun x => !x.is l.asid l.agen l.va } else s1
    | none => s)

end Sys2Proof.Machine
end

