-- ==== Sys2Proof/Machine/Preempt.lean ====
section
/-! DEFINITION. Pre-emption: the request and its cost model, halt, save, flush and restore (R111, R139, R160, R218,
R494-R498). -/

namespace Sys2Proof.Machine

/-! ### Names of waves while they are saved -/

/-- New ids for waves, by the old. -/
abbrev Ren := List (Nat × Nat)
def Ren.wave (r : Ren) (w : Nat) : Nat := (r.lookup w).getD w
def Ren.tref (r : Ren) (t : TRef) : TRef := { t with wave := r.wave t.wave }
def Ren.inv (r : Ren) : Ren := r.map fun e => (e.2, e.1)

/-- The id of wave `i` of a saved block: no bound wave has it. -/
def savedWave (id i : Nat) : Nat := 2 ^ 20 + 16 * id + i

def renameOp (r : Ren) (x : MxOp) : MxOp := { x with signers := x.signers.map fun e => (r.tref e.1, e.2) }
def renameCv (r : Ren) (x : Cv) : Cv := { x with signers := x.signers.map fun e => (r.tref e.1, e.2) }
def renameFifo (r : Ren) (x : Fifo) : Fifo := { x with resv := x.resv.map fun e => (e.1, e.2.1, e.2.2.map r.tref) }

def renameMatrix (r : Ren) (m : Matrix) : Matrix :=
  { m with arrays := m.arrays.map fun a => { a with queue := a.queue.map (renameOp r) }
           waiting := m.waiting.map fun e => (e.1, renameOp r e.2) }

def renameBlock (r : Ren) (b : Block) : Block :=
  { b with waves := b.waves.map r.wave
           barriers := b.barriers.map fun e => (e.1, { e.2 with arrived := e.2.arrived.map r.tref })
           cvs := b.cvs.map fun e => (e.1, renameCv r e.2)
           detBuf := b.detBuf.map fun x => { x with t := r.tref x.t }
           detHold := b.detHold.map fun e => (r.tref e.1, e.2)
           fifos := b.fifos.map fun e => (e.1, renameFifo r e.2) }

/-- Everything outside blocks that names their waves: waiter lists, copy requests, beams, messages, stores. -/
def renameOutside (r : Ren) (ids : List Nat) (s : State) : State :=
  let waiter (w : Waiter) : Waiter := match w with | .wave w => .wave (r.wave w) | .copy c n => .copy c n
  let fill (f : Fill) : Fill := { f with waiters := f.waiters.map waiter }
  let req (x : CopyReq) : CopyReq := if ids.contains x.block then { x with t := r.tref x.t } else x
  let ctx (c : CopyCtx) : CopyCtx := { c with reqs := c.reqs.map req }
  let beam (x : Beam) : Beam := if ids.contains x.block then { x with t := r.tref x.t } else x
  let msg (m : Message) : Message := { m with sender := m.sender.map r.tref }
  let store (x : PendStore) : PendStore := { x with t := r.tref x.t }
  { s with fills := s.fills.map fill
           ctxs := s.ctxs.map fun e => (e.1, ctx e.2)
           beams := s.beams.map fun e => (e.1, e.2.map beam)
           messages := s.messages.map msg
           stores := s.stores.map store }

/-! ### What a coordinate would take (R495, R498) -/

/-- Blocks of a coordinate that are bound. -/
def coordBlocks (s : State) (h : Nat) (coord : Nat × Nat × Nat) : List Block :=
  s.blocks.filter fun b => !b.gen && b.launch == h && b.coord == coord

def blockHolds (s : State) (b : Block) : Bool := (s.core b.core).mx.holder == some b.id

/-- Waits that their instructions' entries keep across a save. -/
def keptWait : Wait → Bool
  | .cycles _ | .join _ | .wsync _ | .barrier _ _ | .cbar _ | .gbar | .aflush | .larr _ _ | .waitc _ _ _ _ | .bowait _ _
  | .retest | .ext _ _ _ | .service _ _ | .message _ | .matrixHolder | .matrixQueue | .bankEntry | .fill _ _ | .fillReady
  | .halted | .fillFailed _ _ _ _ => true
  | .recheck | .counterRoom _ | .trackerRoom _ | .page _ _ | .fillFull _ _ | .evicting _ _ | .specRoom | .serviceRoom
  | .peer _ => false

/-- R111; a `march`, `opqret` or `trace` that a fetch holds has its destination unwritten. -/
def quiescent (s : State) (t : TRef) : Bool :=
  let x := s.thread t
  let core := waveCore t.wave
  x.wait.any keptWait && specLines s core .l1 t == [] && specLines s core .tile t == []
    && !(s.loads.any fun l => l.t == t && !l.live && l.region == x.regionSeq)
    && !x.holds 1 && !x.holds 2
    && !(x.marchRuns.any fun r => r.region == x.regionSeq) && !(x.travRuns.any fun r => r.region == x.regionSeq)

/-- Contexts of a thread in an image: those it holds once its region is dealt with (R111) and its runs under way are
cancelled, what the oldest of them resumed being held again (R160). -/
def contextCount (s : State) (t : TRef) : Nat :=
  let x := s.thread t
  let y := (if quiescent s t then x else x.replaysUnits).cancelRuns fun _ => true
  (if y.march.isSome then 1 else 0) + (if y.trav.isSome then 1 else 0)

/-- State bytes of a block (R495). -/
def blockStateBytes (s : State) (b : Block) : Nat :=
  let wave (w : Nat) : Nat := 4608 + 8192 * (1 + (s.wave w).ext) + if b.template then 1024 else 0
  let ts := blockThreads s b
  4096 + sumOf (b.waves.map wave) + (b.scratchBytes + b.chanBytes) + (if b.template then 512 * ts.length else 0)
    + sumOf (ts.map fun t => 512 * contextCount s t) + if blockHolds s b then 409600 else 0

def coordStateBytes (s : State) (bs : List Block) : Nat := sumOf (bs.map (blockStateBytes s))

/-- Granules of 64 KiB that a coordinate's image takes. -/
def imageGranules (s : State) (bs : List Block) : Nat := ceilDiv (coordStateBytes s bs) 65536

/-- Granules in use in a partition's shadow pool: its images, and its launches' template images (R498). -/
def poolUsed (s : State) (p : Nat) : Nat :=
  let ofPart (h : Nat) : Bool := match s.launch? h with | some l => l.part == p | none => false
  sumOf ((s.images.filter fun i => ofPart i.launch).map fun i => i.granules)
    + sumOf ((s.templates.filter fun y => ofPart y.launch).map fun y => Config.templateGranules y.id)

/-- Shadow ways are 128 KiB each (R478). -/
def granulesFree (s : State) (p : Nat) : Nat := 2 * (s.part p).shways - poolUsed s p

/-! ### The halt (R139, R218) -/

/-- A block goes without a save: what its threads hold speculatively is discarded, and its dirty bytes are written back
first (R111). -/
def discardBlock (s : State) (b : Block) : State :=
  let s1 := (blockThreads s b).foldl discardSpec s
  let s2 := drainWbs s1 fun w => w.core == b.core
  let mine (l : Line) : Bool := l.asid == b.asid && l.agen == b.agen
  let s3 := writeBack (writeBack s2 b.core .l1 mine) b.core .tile mine
  forgetReceives (removeBlock s3 b) b.id

/-- A generator item that a halt reaches is flushed, and its fill waits for a new one at the head of its priority
(R218). -/
def flushGenerator (s : State) (b : Block) : State :=
  let back (f : Fill) : Fill := { f with gen := none, queued := true, order := 0, waitTick := s.tick.toNat }
  let fills := mapIf (fun f : Fill => f.gen == some b.id) back s.fills
  let s1 := discardBlock { s with fills := fills } b
  -- at the head: before every other queued fill of its priority
  let mine (f : Fill) : Bool := s.fills.any fun x => x.gen == some b.id && x.part == f.part && x.region == f.region && x.block == f.block
  { s1 with fills := s1.fills.filter mine ++ s1.fills.filter fun f => !mine f }

/-- Parts of a coordinate are no longer bound. -/
def unbindCoord (s : State) (h : Nat) (bs : List Block) : State :=
  let gone := bs.map fun b => (b.coord, b.stage, b.bid)
  s.modLaunch h fun l => { l with bound := l.bound.filter fun e => !gone.contains e }

/-- Places bound for a coordinate that is still saved are given up; its image stays. -/
def dropPlaces (s : State) (h : Nat) (coord : Nat × Nat × Nat) (swapped : Bool) : State :=
  let bs := coordBlocks s h coord
  let s1 := unbindCoord (bs.foldl removeBlock s) h bs
  let mine (i : Image) : Bool := i.written && i.launch == h && i.coord == coord
  { s1 with images := mapIf mine (fun i => { i with swapped := i.swapped || swapped }) s1.images }

/-- Halt the cores of a coordinate (R497): its blocks wait for their image, generators on the cores go. -/
def haltCoord (s : State) (h : Nat) (coord : Nat × Nat × Nat) (swapped : Bool) : State :=
  if (imageOf s h coord).isSome then dropPlaces s h coord swapped else
  let bs := coordBlocks s h coord
  let cores := (bs.map fun b => b.core).eraseDups
  let image : Image :=
    { launch := h, coord := coord, blocks := [], waves := [], scratch := [], matrix := [], granules := imageGranules s bs
      former := [], written := false, swapped := swapped, stays := false, yields := false }
  let s1 := cores.foldl (fun s c => s.modCore c fun x => { x with halted := true }) s
  let gens := s1.blocks.filter fun b => b.gen && cores.contains b.core
  let s2 := gens.foldl flushGenerator s1
  let mine (b : Block) : Bool := !b.gen && b.launch == h && b.coord == coord
  { s2 with blocks := mapIf mine (fun b => { b with halted := true }) s2.blocks, images := s2.images ++ [image] }

/-! ### Saving (R111, R139, R160, R497) -/

/-- A run still under way in a region already closed is cancelled: the thread goes back to what started the oldest of
them (R160). -/
def cancelOlder (s : State) (t : TRef) : State :=
  let x := s.thread t
  let runs := (x.marchRuns.map fun r => (r.region, r.pc)) ++ x.travRuns.map fun r => (r.region, r.pc)
  match argMin (fun e => e.1) runs with
  | none => s
  | some e =>
    s.modThread t fun x => { x.cancelRuns (fun _ => true) with pc := e.2, regionPc := e.2, wait := none, unitsWere := none }

/-- Loads of regions already closed complete; those of the march, trace and beam units are forgotten (the beam itself
runs on). -/
def finishLoads (s : State) (t : TRef) : State :=
  let mine := s.loads.filter fun l => l.t == t && !l.live && l.unit == 0
  dropLoads (mine.foldl (fun s l =>
    if l.uniform then s.modWave t.wave fun w => { w with k := l.regs.foldl (fun k r => Table.set 0 k r.1 r.2) w.k }
    else l.regs.foldl (fun s r => setV s t r.1 r.2) s) s) t fun _ => true

/-- Stores are performed, but for the reductions a flush point still holds back (R366). -/
def finishStores (s : State) (t : TRef) : State :=
  retireStores { s with stores := mapIf (fun p => p.t == t && !p.buffered) (fun p => { p with fin := true }) s.stores } t

/-- One thread made ready for its image. -/
def saveThread (s : State) (t : TRef) : State :=
  if (s.thread t).ended ∨ !(s.threadBlock? t).any (·.started) then s
  else
    let s1 := if quiescent s t then s else abortRegion s t
    finishStores (finishLoads (cancelOlder s1 t) t) t

/-- The started operations of a core's arrays finish; queued ones stay (R139). -/
def finishArray (core arr : Nat) (s : State) : State :=
  let step (s : State) : Option State :=
    match (mxArray s core arr).queue with
    | [] => none
    | op :: _ =>
      if headComplete s core arr then some (completeOp core arr s)
      else if op.started then
        let s1 := drainForward core arr s
        let go := match (mxArray s1 core arr).queue with | x :: _ => decide (x ≠ op) | [] => true
        if go then some s1 else none
      else none
  iterWhile step 4096 s

/-- Ordinary dirty bytes of a core reach their banks (R111). -/
def writeBackCore (asid agen : Nat) (s : State) (core : Nat) : State :=
  let mine (l : Line) : Bool := l.asid == asid && l.agen == agen
  let s1 := drainWbs s fun w => w.core == core
  flushRaster (writeBack (writeBack s1 core .l1 mine) core .tile mine) core (corePart s1 core)

/-- A block's footprint, from offset 0. -/
def footprint (s : State) (b : Block) : Memory :=
  let n := b.scratchBytes + b.chanBytes
  ((s.core b.core).scratch.filter fun e => b.scratchOff ≤ e.1 && e.1 < b.scratchOff + n).map fun e => (e.1 - b.scratchOff, e.2)

/-- A saved block leaves its core: its resources return, its second-level templates' bank entries too (R203). -/
def leaveCore (s : State) (b : Block) : State :=
  let ys := clusterTemplates s b.launch b.coord b.stage
  let s1 := (removeBlock s b).modCore b.core fun c => { c with banks := c.banks.filter fun e => !(e.1 == b.launch && ys.contains e.2) }
  regrant s1 b.core

/-- Cores go on once no image is owed there. -/
def unhaltCores (s : State) : State :=
  let owed := (s.blocks.filter fun b => b.halted).map fun b => b.core
  { s with cores := s.cores.map fun e => (e.1, { e.2 with halted := e.2.halted && owed.contains e.1 }) }

/-- The image of halted blocks. -/
def writeImage (s : State) (im : Image) (bs : List Block) (r : Ren) : Image :=
  let waves := bs.flatMap fun b => b.waves.map fun w => (r.wave w, s.wave w)
  { im with blocks := bs.map fun b => { renameBlock r b with halted := false }
            waves := waves
            scratch := bs.map fun b => (b.id, footprint s b)
            matrix := (bs.filter (blockHolds s)).map fun b => (b.id, renameMatrix r (s.core b.core).mx)
            granules := imageGranules s bs
            former := r.inv
            written := true }

/-- A swap-out is complete with its last image (R499). -/
def endSwap (s : State) (p : Nat) : State :=
  let mine (i : Image) : Bool := i.swapped && !i.written && (match s.launch? i.launch with | some l => l.part == p | none => false)
  if (s.part p).swapped && !s.images.any mine then s.modPart p fun x => { x with pgbusy := false } else s

/-- The save of an image completes (R497). -/
def completeSave (s : State) (i : Nat) : State :=
  match s.images[i]? with
  | none => s
  | some im =>
    if im.written then s
    else
      let cores := ((coordBlocks s im.launch im.coord).map fun b => b.core).eraseDups
      let s1 := cores.foldl (fun s c =>
        if (mxHolder s c).any fun b => b.launch == im.launch && b.coord == im.coord then finishArray c 1 (finishArray c 0 s) else s) s
      let part := match s1.launch? im.launch with | some l => l.part | none => 0
      match coordBlocks s1 im.launch im.coord with
      | [] => endSwap (unhaltCores { s1 with images := s1.images.eraseIdx i }) part
      | b0 :: rest =>
        let bs := b0 :: rest
        -- stores under way first, so that none is lost with its block
        let s2 := cores.foldl (fun s c => drainWbs s fun w => w.core == c) s1
        let s3 := (bs.flatMap (blockThreads s2)).foldl saveThread s2
        let s4 := cores.foldl (writeBackCore b0.asid b0.agen) s3
        let bs4 := coordBlocks s4 im.launch im.coord
        let r : Ren := bs4.flatMap fun b => b.waves.zipIdx.map fun e => (e.1, savedWave b.id e.2)
        let image := writeImage s4 im bs4 r
        let s5 := renameOutside r (bs4.map fun b => b.id) s4
        let s6 := unbindCoord (bs4.foldl leaveCore s5) im.launch bs4
        let s7 := { s6 with images := s6.images.set i image }
        let s8 := bs4.foldl (fun s b => reportBlock s b false false) s7
        endSwap (unhaltCores s8) part

/-- R139: the i-th image is written. -/
def execHaltComplete (i : Nat) (s : State) : Out := .next (completeSave s i)

/-! ### Restore (R49, R87, R139, R497) -/

/-- Places bound for a saved coordinate, by its blocks; none unless every one of them is bound. -/
def placesFor (s : State) (im : Image) : Option (List (Block × Block)) :=
  im.blocks.mapM fun b =>
    (s.blocks.find? fun p => !p.gen && p.launch == b.launch && p.coord == b.coord && p.stage == b.stage && p.bid == b.bid
      && !p.started && p.id != b.id).map fun p => (b, p)

/-- Names of the restored waves. -/
def restoreNames (places : List (Block × Block)) : Ren :=
  places.flatMap fun e => List.zip e.1.waves e.2.waves

/-- The restored block stands in its place, with the vector index and the clock of this binding (R114); a flush that was
held goes on with its next entry (R366). One that goes back to its logical core keeps its number, whatever core a binder
names (R515, R522). -/
def placeBlock (r : Ren) (stays : Bool) (b p : Block) : Block :=
  { renameBlock r b with core := p.core, lcore := if stays || b.deterministic then b.lcore else p.lcore
                         vecIndex := p.vecIndex, clocks := p.clocks, scratchOff := p.scratchOff, cvBase := p.cvBase
                         fifoBase := p.fifoBase, halted := false
                         detHold := b.detHold.map fun e => (r.tref e.1, .recheck) }

/-- Beams of restored blocks: a completed one answers, another is awaited again (R187, R426). -/
def restoreBeams (ids : List Nat) (s : State) : State :=
  let mine := (s.beams.flatMap fun e => e.2).filter fun x => ids.contains x.block
  let (n, s1) := s.tickSeq
  let pend (s : State) (x : Beam) : State :=
    if x.owed.isSome then s
    else if x.fin then
      (match x.dst with | some v => doAcquireAll (setV s x.t v (d x.status)) x.t | none => doAcquireAll s x.t)
    else
      let l : PendLoad := { t := x.t, tracker := 4, uniform := false, regs := match x.dst with | some v => [(v, 0)] | none => []
                            live := false, unit := 3, region := n, seq := n, lines := 1, consts := 0, sample := 0
                            pc := 0, peer := none, since := none }
      ({ s with loads := s.loads ++ [l] } : State).modThread x.t fun y => { y with ld := y.ld + 1 }
  let s2 := mine.foldl pend s1
  { s2 with beams := s2.beams.map fun e => (e.1, e.2.filter fun x => !(x.fin && ids.contains x.block)) }

/-- The traps that beams of restored blocks owe their threads (R106, R426). -/
def beamTraps (ids : List Nat) (s : State) : List Eff :=
  (s.beams.flatMap fun e => e.2).filterMap fun x =>
    if ids.contains x.block && x.fin then x.owed.map fun y => if y.code = 0x20 then .halt x.t else .trap x.t y x.pc else none

/-- What a restored thread finds that happened while it was saved: its fill's end (R209, R215), its launch's template
or the loss of it (R193, R194), a time-out that expired (R290), and a new place in the order of extension-block waits
(R29). -/
def wakeRestored (part : Nat) (r : State × List Eff) (t : TRef) : State × List Eff :=
  let (s, effs) := r
  let x := s.thread t
  let l := (s.threadBlock? t).bind fun b => s.launch? b.launch
  match x.wait with
  | some .fillReady => (clearWait (doAcquireAll s t) t, effs)
  | some .halted => if (s.part part).faults.any (haltedBy s t) then r else (s, effs ++ [.ended t])
  | some (.fillFailed code cause pc va) =>
    (clearWait s t, effs ++ [.trap t ⟨code, BitVec.zeroExtend 64 cause, pc, false, va⟩ x.pc])
  | some (.ext n _ imp) => let (k, s1) := s.tickSeq; (setWait s1 t (.ext n k imp), effs)
  | some (.waitc dst cs _ (some n)) =>
    (match s.threadBlock? t with
     | some b =>
       if n ≤ s.tick.toNat then (advance (clearWait (finishWaitc s t b dst cs true) t) t, effs) else r
     | none => r)
  | _ =>
    if x.stamp = .unstamped then
      match l with
      | some l =>
        if l.tpl.isSome then (s.modThread t fun x => { x with stamp := .free }, effs)
        else if l.prologueLost then (s, effs ++ [.ended t]) else r
      | none => r
    else (s.modThread t fun x => { x with readyAt := s.cycle }, effs)

/-- Write an image back onto its places. -/
def restoreImage (s : State) (i : Nat) (im : Image) (places : List (Block × Block)) : State :=
  let r := restoreNames places
  let ids := im.blocks.map fun b => b.id
  let s1 := renameOutside r ids { s with images := s.images.eraseIdx i }
  -- the blocks, in the order of their places
  let swap (p : Block) : Block :=
    match places.find? fun e => e.2.id == p.id with | some e => placeBlock r im.stays e.1 e.2 | none => p
  let s2 := { s1 with blocks := s1.blocks.map swap
                      waves := im.waves.foldl (fun m e => Table.put m (r.wave e.1) { e.2 with chosenAt := s.cycle, waited := 0 }) s1.waves }
  -- scratch, matrix state
  let s3 := places.foldl (fun s e =>
    let off := e.2.scratchOff
    let n := e.1.scratchBytes + e.1.chanBytes
    let mem := imageScratch im e.1.id
    s.modCore e.2.core fun c =>
      let cleared := c.scratch.filter fun x => x.1 < off || off + n ≤ x.1
      { c with scratch := mem.foldl (fun m x => Table.set 0 m (off + x.1) x.2) cleared }) s2
  let s4 := places.foldl (fun s e =>
    match im.matrix.find? fun x => x.1 == e.1.id with
    | some m => s.modCore e.2.core fun c => { c with mx := renameMatrix r m.2 }
    | none => s) s3
  -- no clean byte of the new cores predates the save
  let cores := (places.map fun e => e.2.core).eraseDups
  let s5 := restoreBeams ids (cores.foldl (fun s c => acquireAll s c .device) s4)
  let owed := beamTraps ids s4
  let ts := (s5.blocks.filter fun b => ids.contains b.id).flatMap (blockAlive s5)
  let part := match s5.launch? im.launch with | some l => l.part | none => 0
  let (s6, effs) := ts.foldl (wakeRestored part) (s5, owed)
  let s7 := ids.foldl wakeBarriers s6
  let s8 := effects s7 (effs ++ ids.map Eff.settle)
  let s9 := cores.foldl regrant s8
  startCoords s9 im.launch im.coord

/-- R497: the i-th image is written back once all of its blocks are bound and a matrix holder's new core is free. -/
def execRestore (i : Nat) (s : State) : Out :=
  .next (
    match s.images[i]? with
    | none => s
    | some im =>
      if !im.written ∨ im.swapped then s
      else
        match placesFor s im with
        | none => s
        | some places =>
          let mine (e : Block × Block) : Bool := (s.core e.2.core).mx.holder.all (· == e.2.id)
          let free := places.all fun e => mine e || !im.matrix.any fun m => m.1 == e.1.id
          if free then restoreImage s i im places else s)

/-! ### Flush (R496, R497) -/

/-- A block without anything that a flush would lose. -/
def flushable (s : State) (b : Block) : Bool :=
  let m := (s.core b.core).mx
  let fifoEmpty (e : Nat × Fifo) : Bool := e.2.free == e.2.count
  let fresh (t : TRef) : Bool := !(s.thread t).ended && (s.thread t).regionSeq == b.startSeq
  !b.template && !(blockHolds s b && m.mul) && b.fifos.all fifoEmpty
    && !((allReqs s).any fun r => r.block == b.id && !r.retired)
    && !(s.cores.any fun e => e.2.receives.any fun x => x.2.block == b.id)
    && b.cvs.all (fun e => e.2.signers == [])
    && (!b.started || (blockThreads s b).all fresh)

/-- Discard a coordinate's blocks: they bind afresh and start again. -/
def flushCoord (s : State) (h : Nat) (coord : Nat × Nat × Nat) : State :=
  let bs := coordBlocks s h coord
  let s1 := unbindCoord (bs.foldl discardBlock s) h bs
  let s2 := bs.foldl (fun s b => reportBlock s b false false) s1
  bs.foldl (fun s b => regrant s b.core) s2

/-! ### The cost model (R495, R496) -/

/-- An option (1 drain, 2 save, 3 flush) with its estimate in ticks, times the number of ended blocks or 1; none where it
is unknown. -/
structure Option1 where
  opt : Nat
  est : Option Int
  deriving DecidableEq, Repr

/-- Quads that hold blocks. -/
def quadsOf (bs : List Block) : Nat := ((bs.map fun b => coreQuad b.core).eraseDups).length

/-- The options open for a coordinate, with their estimates, in the order that breaks ties. -/
def options (s : State) (l : Launch) (bs : List Block) : List Option1 :=
  let n := max 1 l.lifeCount
  let age (b : Block) : Nat := s.tick.toNat - b.bindTick
  let drain : Option Int :=
    if l.lifeCount = 0 then none
    else
      match bs.map fun b => (l.lifeSum : Int) - (age b * n : Nat) with
      | [] => some 0
      | x :: t => some (t.foldl max x)
  let halt := if bs.any (blockHolds s) then 66 else 1
  let bw := (s.part l.part).shbw * quadsOf bs
  let save := if bw = 0 ∨ granulesFree s l.part < imageGranules s bs then [] else
    [(⟨2, some ((n * (halt + ceilDiv (coordStateBytes s bs) bw) : Nat) : Int)⟩ : Option1)]
  let flush := if bs.all (flushable s) then [(⟨3, some ((n * maxOf (bs.map age) : Nat) : Int)⟩ : Option1)] else []
  ⟨1, drain⟩ :: save ++ flush

/-- The latency bound in ticks: the smaller of the request's and the descriptor's, in microseconds; none where both are
0 (R494). -/
def boundTicks (req desc : Nat) : Option Nat :=
  match req, desc with
  | 0, 0 => none
  | 0, y => some (100 * y)
  | x, 0 => some (100 * x)
  | x, y => some (100 * min x y)

/-- Whether an estimate is known and within the bound. -/
def meetsBound (n : Nat) (bound : Option Nat) (o : Option1) : Bool :=
  match o.est, bound with
  | none, _ => false
  | some _, none => true
  | some e, some b => e ≤ (b * n : Nat)

/-- The cheaper of two options, the earlier among equals; an unknown estimate ranks last. -/
def cheaper (x y : Option1) : Option1 :=
  match x.est, y.est with
  | _, none => x
  | none, some _ => y
  | some a, some b => if b < a then y else x

/-- The automatic choice (R496) and whether it met the bound. -/
def chooseOption (n : Nat) (bound : Option Nat) (os : List Option1) : Nat × Bool :=
  match os.filter (meetsBound n bound) with
  | x :: t => ((t.foldl cheaper x).opt, true)
  | [] =>
    match os with
    | x :: t => ((t.foldl cheaper x).opt, false)
    | [] => (1, false)

/-! ### The request (R494) -/

structure PreRequest where
  latency   : Nat
  core      : Nat
  directive : Nat
  handle    : Nat
  deriving DecidableEq, Repr

def preRequest (v : BitVec 64) : PreRequest := ⟨bits v 63 48, bits v 40 32, bits v 13 12, bits v 11 0⟩

/-- Whether the last request is still taking effect (PRBUSY, R496). -/
def preBusy (s : State) (p : Nat) : Bool :=
  (s.part p).preempts.any fun x =>
    match x.opt with
    | 1 => coordBlocks s x.handle x.coord != [] || (imageOf s x.handle x.coord).isSome
    | 2 => s.images.any fun i => i.launch == x.handle && i.coord == x.coord && !i.written
    | _ => false

/-- What is wrong with a request: the PGERR it leaves (0: it is ignored without one). -/
def requestError (s : State) (p : Nat) (v : BitVec 64) : Option Nat :=
  let r := preRequest v
  if bits v 47 41 ≠ 0 then some 2
  else if r.core ≠ 0x1FF ∧ (400 ≤ r.core ∨ (logicalCore? s p r.core).isNone) then some 3
  else if bits v 31 14 ≠ 0 then some 0
  else if r.directive = 0 ∧ (s.part p).prhost then some 2
  else if (admitted? s p r.handle).isNone then some 2
  else none

/-- Coordinates a request covers, and the cores it names. -/
def coveredCoords (s : State) (r : PreRequest) : List (Nat × Nat × Nat) :=
  ((s.blocks.filter fun b => !b.gen && b.launch == r.handle && !b.halted && (r.core == 0x1FF || b.core == r.core)
    && (imageOf s b.launch b.coord).isNone).map fun b => b.coord).eraseDups

def namedCores (s : State) (r : PreRequest) : List Nat :=
  if r.core = 0x1FF then ((s.blocks.filter fun b => !b.gen && b.launch == r.handle).map fun b => b.core).eraseDups
  else [r.core]

/-- An option takes effect on a coordinate. -/
def applyOption (s : State) (h : Nat) (coord : Nat × Nat × Nat) (opt : Nat) : State :=
  match opt with
  | 2 => haltCoord s h coord false
  | 3 => flushCoord s h coord
  | _ => s

/-- The option for one coordinate, and whether it met the bound; none where a directive cannot be applied. -/
def coordOption (s : State) (l : Launch) (r : PreRequest) (coord : Nat × Nat × Nat) : Option (Nat × Bool) :=
  let os := options s l (coordBlocks s r.handle coord)
  let n := max 1 l.lifeCount
  let bound := boundTicks r.latency l.d.latency
  match r.directive with
  | 0 => some (chooseOption n bound os)
  | o => (os.find? fun x => x.opt == o).map fun x => (o, meetsBound n bound x)

/-- Choose and apply for each coordinate in turn. None where a directive cannot be applied. -/
def applyAll (r : PreRequest) (cores : List Nat) : List (Nat × Nat × Nat) → State → List (PreReq × Bool) →
    Option (State × List (PreReq × Bool))
  | [], s, acc => some (s, acc)
  | c :: rest, s, acc =>
    (s.launch? r.handle).bind fun l =>
      (coordOption s l r c).bind fun o =>
        applyAll r cores rest (applyOption s r.handle c o.1) (acc ++ [(⟨r.handle, c, o.1, cores⟩, o.2)])

/-- PROPT: the one option taken; where coordinates took different ones, the spec does not say which it reads. -/
def takenOption (s : State) (os : List Nat) : State × BitVec 2 :=
  match os with
  | [] => (s, 0)
  | o :: rest =>
    if rest.all (· == o) then (s, BitVec.ofNat 2 o) else let (v, s1) := s.fresh; (s1, v.extractLsb' 0 2)

/-- R494, R496: a PRQ write. -/
def preempt (s : State) (p : Nat) (v : BitVec 64) : State :=
  if preBusy s p then s
  else
    match requestError s p v with
    | some e => if e = 0 then s else s.modPart p fun x => { x with pgerr := e }
    | none =>
      let r := preRequest v
      match applyAll r (namedCores s r) (coveredCoords s r) s [] with
      | none => s.modPart p fun x => { x with pgerr := 2 }
      | some (s1, done) =>
        let (s2, opt) := takenOption s1 (done.map fun e => e.1.opt)
        s2.modPart p fun x =>
          { x with preempts := done.map Prod.fst, propt := opt, prmet := done.all fun e => e.2 }

/-- A row of the table acts when the request carries its directive. -/
def preemptAs (part directive : Nat) (value : BitVec 64) (s : State) : Out :=
  .next (if (preRequest value).directive = directive then preempt s part value else s)

def execPreemptAutomatic (part : Nat) (value : BitVec 64) (s : State) : Out := preemptAs part 0 value s
def execPreemptDrain (part : Nat) (value : BitVec 64) (s : State) : Out := preemptAs part 1 value s
def execPreemptSave (part : Nat) (value : BitVec 64) (s : State) : Out := preemptAs part 2 value s
def execPreemptFlush (part : Nat) (value : BitVec 64) (s : State) : Out := preemptAs part 3 value s

end Sys2Proof.Machine
end

