-- ==== Sys2Proof/Machine/Fills.lean ====
section
/-! DEFINITION. The fill engine: generator items bound into the reserve, their time-outs, and the pre-emption of a matrix
holder for one (R51, R210, R211, R214). -/

namespace Sys2Proof.Machine

/-- Free slots of the generator reserve, on cores that are not halted; a partition that is swapped out has halted every
core of its own (R499). -/
def freeReserve (s : State) (p : Nat) : List (Nat × Nat) :=
  if (s.part p).swapped then [] else (s.part p).reserve.filter fun e => (s.waves.find? (e.1 * 16 + e.2)).isNone && !(s.core e.1).halted

/-- Slots that a queued fill's generator may take now: the depth rule of R214, and for a matrix generator a core without a
holder (R210). -/
def generatorSlots (s : State) (p : Nat) (f : Fill) (r : Region) : List (Nat × Nat) :=
  let free := freeReserve s p
  if f.depth < 4 ∧ free.length ≤ 4 - f.depth then []
  else free.filter fun e => !r.matrix || (s.core e.1).mx.holder.isNone

/-- Queued fills of a partition with their regions, by (priority, queueing order). -/
def queuedFills (s : State) (p : Nat) : List (Fill × Region) :=
  let q := (s.fills.filter fun f => f.part == p && f.queued && f.gen.isNone).filterMap fun f =>
    (region? s p f.region).map fun r => (f, r)
  sortBy (fun e => 255 - e.2.prio) q

/-- The scratch of a generator in a slot: storage of its own beside the sixteen ways, since a slot of the reserve can
always bind (R51). -/
def generatorScratch (slot : Nat) : Nat := 16 * wayBytes + 16384 * slot

/-- The k registers a generator starts with (R210). -/
def generatorK (f : Fill) (r : Region) : Table Word :=
  let va := q (r.blockVa f.block)
  let ws := [lo32 va, hi32 va, d (2 ^ r.log2), d f.region, d f.depth, lo32 (q r.argVa), hi32 (q r.argVa)]
  (ws.zipIdx.map fun e => (e.2, e.1)).filter fun e => e.2 != 0

/-- The generator item of a fill, as a block of one wave (R210). -/
def generatorBlock (s : State) (f : Fill) (r : Region) (core slot : Nat) : Block :=
  { id := s.nextBlock, launch := s.nextBlock, gen := true, part := f.part, asid := r.asid, agen := asidGen s r.asid
    flags := if r.matrix then 0x110 else 0x10
    core := core, lcore := (logicalCore? s f.part core).getD 0, coord := (0, 0, 0), stage := 0, bid := 0, nthreads := 32
    waves := [core * 16 + slot], scratchOff := generatorScratch slot, scratchBytes := r.scratch, chanBytes := 0, segBytes := 0
    ncv := 2, cvBase := 0, nfifo := 4, fifoBase := 0, cvs := [], fifos := [], barriers := [], detBuf := [], detHold := none, busy := 0, busyAt := 0
    started := false, faulted := false, halted := false, bindTick := s.tick.toNat, genItem := some ⟨s.nextBlock, f.region, f.block, f.depth, f.limit⟩
    fillendAt := none, filled := false, endPc := 0, vecIndex := none
    clocks := [], startSeq := 0 }

def generatorWave (s : State) (f : Fill) (r : Region) (id : Nat) : Wave :=
  let x : Thread := { Thread.init with pc := q r.entry, item := q f.block, entry := .start }
  { Wave.init with block := id, threads := (List.range 32).map fun i => (i, x), k := generatorK f r, kLoaded := true, chosenAt := s.cycle }

/-- A generator binds and starts; a matrix generator becomes the holder of its core's matrix state. -/
def bindGenerator (s : State) (f : Fill) (r : Region) (core slot : Nat) : State :=
  let b := generatorBlock s f r core slot
  let idle := !s.blocks.any fun x => x.core == core
  let hold (m : Matrix) : Matrix := if r.matrix then m.taken b.id else m
  let s1 := s.modCore core fun c => { c with mx := hold c.mx, sr := if idle then 1 else c.sr }
  let s2 := { s1 with blocks := s1.blocks ++ [b], nextBlock := s1.nextBlock + 1
                      waves := s1.waves.put (core * 16 + slot) (generatorWave s f r b.id) }
  let s3 := modFill s2 f.part f.region f.block fun x => { x with gen := some b.id, queued := false, bindTick := s.tick.toNat }
  startBlock s3 b

/-- R210, R214: the first queued generator that can bind does; which of the free slots it takes is not said. -/
def execGeneratorBind (part : Nat) (s : State) : Out :=
  .next (
    match (queuedFills s part).find? fun e => generatorSlots s part e.1 e.2 != [] with
    | none => s
    | some (f, r) =>
      let slots := generatorSlots s part f r
      let (v, s1) := s.fresh
      match slots[v.toNat % slots.length]? with
      | some e => bindGenerator s1 f r e.1 e.2
      | none => s)

/-- R211: the generator of a block id has had its time; it is halted and its fill fails with cause 0xFF. -/
def execFillTimeout (gen : Nat) (s : State) : Out :=
  .next (
    match fillOfGen s gen, s.block? gen with
    | some f, some b =>
      let limit := match region? s f.part f.region with | some r => r.timeout | none => 0
      if limit ≠ 0 ∧ b.fillendAt = none ∧ f.bindTick + limit ≤ s.tick.toNat then
        let pc := match blockAlive s b with | t :: _ => (s.thread t).pc | [] => 0
        effects (s.modBlock gen fun x => { x with faulted := true })
          (.failFill f.part f.region f.block 0x0E 0xFF pc :: endBlockThreads s gen)
      else s
    | _, _ => s)

/-- Holders on reserve cores that a waiting matrix generator may displace: no generator, and no save under way there. -/
def displaceable (s : State) (p : Nat) : List Block :=
  let cores := ((s.part p).reserve.map Prod.fst).eraseDups
  if s.blocks.any fun b => b.halted && cores.contains b.core then []
  else
    (cores.filterMap (mxHolder s)).filter fun b =>
      !b.gen && imageGranules s (coordBlocks s b.launch b.coord) ≤ granulesFree s p

/-- A reserve core whose matrix state has no holder (R210). -/
def freeMatrixCore (s : State) (p : Nat) : Bool := (s.part p).reserve.any fun e => (s.core e.1).mx.holder.isNone

/-- A queued matrix generator for which no reserve core has freed within 4,096 ticks (R210). -/
def matrixLate (s : State) (p : Nat) (e : Fill × Region) : Bool :=
  e.2.matrix && e.1.waitTick + 4096 ≤ s.tick.toNat && !freeMatrixCore s p

/-- A requester that waits for the fill of a block (R207). -/
def Wait.suspended : Wait → Bool
  | .fill _ _ | .fillFull _ _ | .evicting _ _ => true
  | _ => false

/-- One tick of the fills' clocks: one in which a requester of a generator is suspended counts against no time-out of its
fill (R207), and a matrix generator waits for a core from when none is free (R210). -/
def tickFill (s : State) (f : Fill) : Fill :=
  match f.gen with
  | some g =>
    let asleep := (s.block? g).any fun b => (blockThreads s b).any fun t => (s.thread t).wait.any Wait.suspended
    let parked := (allReqs s).any fun r => r.block == g && r.gen && r.parked.any Wait.suspended
    let held := s.beams.any fun e => e.2.any fun x => x.block == g && !x.fin && x.hold.any Wait.suspended
    if asleep || parked || held then { f with bindTick := f.bindTick + 1 } else f
  | none => if freeMatrixCore s f.part then { f with waitTick := s.tick.toNat } else f

/-- R210: a matrix generator has found no core for 4,096 ticks; one holder is saved, which one is not said. -/
def execGeneratorMatrixPreempt (part : Nat) (s : State) : Out :=
  .next (
    match (queuedFills s part).find? (matrixLate s part) with
    | none => s
    | some (f, _) =>
      let hs := displaceable s part
      let (v, s1) := s.fresh
      match hs[v.toNat % hs.length]? with
      | some b =>
        let s2 := modFill s1 f.part f.region f.block fun x => { x with waitTick := s.tick.toNat }
        haltCoord s2 b.launch b.coord false
      | none => s)

end Sys2Proof.Machine
end

