-- ==== Sys2Proof/Machine/Interval.lean ====
section
/-! DEFINITION. Interval and affine instructions: opcodes 0x50-0x5F (R329-R340). -/

namespace Sys2Proof.Machine

/-- The registers of a bound operand (R331): one source lane for all of them, or an inline constant as f32. -/
def boundWords (s : State) (t : TRef) (x : Src) (n : Nat) : List Nat :=
  match x.file with
  | .v =>
    match xbar x.perm x.param.toNat t.lane with
    | none => List.replicate n 0
    | some l =>
      let u : TRef := ⟨t.wave, l⟩
      if s.bound u then (List.range n).map fun i => (vreg s u (x.num.toNat + i)).toNat else List.replicate n 0
  | .k => (List.range n).map fun i => (kreg s t.wave (x.num.toNat + i)).toNat
  | _ =>
    let v := inlineVal .f32 x.num.toNat
    if n = 2 then [v, v] else [v, 0, 0]

def ivOf (s : State) (t : TRef) (x : Src) : Iv :=
  let l := boundWords s t x 2
  let a := Iv.read ⟨l.getD 0 0, l.getD 1 0⟩
  if x.neg then a.neg else a

def afOf (s : State) (t : TRef) (x : Src) : Af :=
  let l := boundWords s t x 3
  let a := Af.read ⟨l.getD 0 0, l.getD 1 0, l.getD 2 0⟩
  if x.neg then a.neg else a

def Iv.res (a : Iv) : Res := Res.of (a.lo + 2 ^ 32 * a.hi)
def Af.res (a : Af) : Res := Res.of (a.c + 2 ^ 32 * a.w + 2 ^ 64 * a.e)

/-- A bound with the domain bit in the condition bit that SRC B names (R333, R339). -/
def withDomain (f : RForm) (dom : Bool) (r : Res) : Res := { r with conds := [(f.b.num.toNat, dom)] }

def ivOp2 (i : Instr) (f : RForm) (op : Iv → Iv → Iv) (s : State) : State :=
  compute i f.dst 2 false (fun s _ t => (op (ivOf s t f.a) (ivOf s t f.b)).res) s
def ivOp1 (i : Instr) (f : RForm) (op : Iv → Iv) (s : State) : State :=
  compute i f.dst 2 false (fun s _ t => (op (ivOf s t f.a)).res) s
def afOp2 (i : Instr) (f : RForm) (op : Af → Af → Af) (s : State) : State :=
  compute i f.dst 3 false (fun s _ t => (op (afOf s t f.a) (afOf s t f.b)).res) s
def afOp1 (i : Instr) (f : RForm) (op : Af → Af) (s : State) : State :=
  compute i f.dst 3 false (fun s _ t => (op (afOf s t f.a)).res) s

/-- R332. -/
def execIvadd (f : RForm) (s : State) : Out := .next (ivOp2 (.ivadd f) f Iv.add s)
def execIvsub (f : RForm) (s : State) : Out := .next (ivOp2 (.ivsub f) f Iv.sub s)
def execIvmul (f : RForm) (s : State) : Out := .next (ivOp2 (.ivmul f) f Iv.mul s)
def execIvsqr (f : RForm) (s : State) : Out := .next (ivOp1 (.ivsqr f) f Iv.sqr s)
def execIvmin (f : RForm) (s : State) : Out := .next (ivOp2 (.ivmin f) f Iv.min s)
def execIvmax (f : RForm) (s : State) : Out := .next (ivOp2 (.ivmax f) f Iv.max s)
def execIvabs (f : RForm) (s : State) : Out := .next (ivOp1 (.ivabs f) f Iv.abs s)

/-- R333. -/
def execIvsqrt (f : RForm) (s : State) : Out :=
  .next (compute (.ivsqrt f) f.dst 2 false (fun s _ t =>
    let a := ivOf s t f.a
    withDomain f a.domain a.sqrt.res) s)

/-- R334. -/
def execIvhyp (f : RForm) (s : State) : Out :=
  .next (compute (.ivhyp f) f.dst 2 false (fun s _ t =>
    let two := (ivOf s t f.a).sqr.add (ivOf s t f.b).sqr
    (if f.xf = 1 then two.add (ivOf s t f.c).sqr else two).sqrt.res) s)

/-- R335. -/
def execIvtest (f : RForm) (s : State) : Out :=
  .next (compute (.ivtest f) f.dst 1 true (fun s _ t =>
    let code := (ivOf s t f.a).signCode
    Res.of (if f.dst.file = .c then code / 2 ^ f.xf.toNat % 2 else code)) s)

/-- R337, R338. -/
def execAfadd (f : RForm) (s : State) : Out := .next (afOp2 (.afadd f) f Af.add s)
def execAfmul (f : RForm) (s : State) : Out := .next (afOp2 (.afmul f) f Af.mul s)
def execAfsqr (f : RForm) (s : State) : Out := .next (afOp1 (.afsqr f) f Af.sqr s)

/-- R339. -/
def execAfsqrt (f : RForm) (s : State) : Out :=
  .next (compute (.afsqrt f) f.dst 3 false (fun s _ t =>
    let a := afOf s t f.a
    withDomain f a.domain a.sqrt.res) s)

/-- R340. -/
def execAfabs (f : RForm) (s : State) : Out := .next (afOp1 (.afabs f) f Af.abs s)
def execAftoiv (f : RForm) (s : State) : Out :=
  .next (compute (.aftoiv f) f.dst 2 false (fun s _ t => (afOf s t f.a).hull.res) s)

end Sys2Proof.Machine
end

