-- ==== Sys2Proof/Machine/Issuing.lean ====
section
/-! DEFINITION. What the issue logic does by itself: starvation, ageing, the ends of timed waits, `waitc` (R21, R23, R25,
R29, R38, R40, R42, R77, R198, R287). -/

namespace Sys2Proof.Machine

/-- Whether a wave's block runs on its core: started, and not halted for a save. -/
def waveRuns (s : State) (w : Nat) : Bool :=
  match s.waveBlock? w with
  | some b => b.started && !b.halted && !(s.core b.core).halted
  | none => false

/-- A beam of the thread has met a fate of R106 at its turn: it holds the thread (R426). -/
def beamHeld (s : State) (t : TRef) : Bool := s.beams.any fun e => e.2.any fun x => x.t == t && !x.fin && x.hold.isSome

/-- A thread with an instruction to issue: bound, not ended, stamped, its block started and not halted, and held by no beam (R20,
R196, R426). -/
def placed (s : State) (t : TRef) : Bool :=
  s.alive t && !beamHeld s t
    && (match (s.thread t).stamp with | .unstamped | .free => false | _ => true)
    && waveRuns s t.wave

/-- Waits in which the instruction itself tests again. -/
def Wait.polls : Wait → Bool
  | .recheck | .retest | .specRoom | .peer _ => true
  | _ => false

/-- A placed thread that does not wait, or whose instruction tests its wait again. -/
def runnable (s : State) (t : TRef) : Bool := placed s t && (s.thread t).wait.all Wait.polls

/-- Threads of a lane set (core * 2 + lane set), by slot and lane. -/
def laneSetThreads (s : State) (ls : Nat) : List TRef := (laneSetWaves s ls).flatMap (waveThreads s)

/-- R23: the thread of a lane set starved longest, then the lowest slot and lane. The count of a thread that was not ready
at the end of a cycle has begun anew there. -/
def starvedThread (s : State) (ls : Nat) : Option TRef :=
  argMin (fun t => (s.thread t).readyAt) ((laneSetThreads s ls).filter fun t =>
    runnable s t && (s.thread t).readyAt + 4096 ≤ s.cycle)

def execStarvedIssue (ls : Nat) (s : State) : Out := .next { s with forced := starvedThread s ls }

/-- R21. -/
def execAgeingBonus (wave : Nat) (s : State) : Out :=
  .next (if (s.waves.find? wave).isSome ∧ 512 ≤ (s.wave wave).waited then
      s.modWave wave fun w => { w with bonus := min 7 (w.bonus + 1), waited := 0 }
    else s)

/-- The threads of a wave whose cycles at one `join` address run out in the same cycle as this thread's (R25). -/
def joinedWith (s : State) (t : TRef) : List TRef :=
  (waveThreads s t.wave).filter fun u =>
    s.alive u && (s.thread u).wait == some (.join 0) && (s.thread u).pc == (s.thread t).pc

/-- R25: the thread has been held for its n cycles; the threads released in the same cycle continue as one group. -/
def execJoinTimeout (wave lane : Nat) (s : State) : Out :=
  let t : TRef := ⟨wave, lane⟩
  .next (if s.alive t ∧ (s.thread t).wait = some (.join 0) then releaseTogether s (joinedWith s t) else s)

/-- R286, R287. -/
def execSleepExpire (wave lane : Nat) (s : State) : Out :=
  let t : TRef := ⟨wave, lane⟩
  .next (if s.alive t ∧ (s.thread t).wait = some (.cycles 0) then advance (clearWait s t) t else s)

/-- R40: the time-out has expired. -/
def execWaitcTimeout (wave lane : Nat) (s : State) : Out :=
  let t : TRef := ⟨wave, lane⟩
  .next (
    match (s.thread t).wait, s.threadBlock? t with
    | some (.waitc dst cs _ (some n)), some b =>
      if s.alive t ∧ n ≤ s.tick.toNat then advance (clearWait (finishWaitc s t b dst cs true) t) t else s
    | _, _ => s)

/-- R42: the conditions satisfy the mode. -/
def execWaitcWake (wave lane : Nat) (s : State) : Out :=
  let t : TRef := ⟨wave, lane⟩
  .next (
    match (s.thread t).wait, s.threadBlock? t with
    | some (.waitc dst cs all _), some b =>
      if s.alive t ∧ condMet cs.length all (condBits s t b cs) then
        advance (clearWait (finishWaitc s t b dst cs false) t) t
      else s
    | _, _ => s)

/-- R29. -/
def execExtensionBlockGrant (ls : Nat) (s : State) : Out := .next (grantExt s ls)

/-- R198: the implicit acquire of a wave is granted when the pool's order allows it. -/
def execImplicitAcquire (wave : Nat) (s : State) : Out :=
  .next (
    let waits := (waveThreads s wave).any fun t => match (s.thread t).wait with | some (.ext _ _ true) => true | _ => false
    if waits then grantExt s (waveLaneSet wave) else s)

def counterOf (x : Thread) (cls : Nat) : Nat := match cls with | 0 => x.ld | 1 => x.st | 2 => x.cp | _ => x.mx

/-- R38: the counter has fallen, and the instruction issues. -/
def execCounterRoom (wave lane : Nat) (s : State) : Out :=
  let t : TRef := ⟨wave, lane⟩
  .next (
    match (s.thread t).wait with
    | some (.counterRoom c) => if counterOf (s.thread t) c < 63 then clearWait s t else s
    | _ => s)

/-- R77: an entry of a core's tracker is free. -/
def execTrackerEntryFree (core tracker : Nat) (s : State) : Out :=
  .next (
    if trackerFull s core tracker then s
    else
      ([0, 1].flatMap fun i => laneSetThreads s (2 * core + i)).foldl (fun s t =>
        if (s.thread t).wait = some (.trackerRoom tracker) then clearWait s t else s) s)

end Sys2Proof.Machine
end

