-- ==== Sys2Proof/Machine/Launch.lean ====
section
/-! DEFINITION. Queues, validation, admission and rejection of launches (R53, R191, R200, R460-R468, R475). -/

namespace Sys2Proof.Machine

/-! ### Queues (R459-R462) -/

def launchQueue (s : State) (p i : Nat) : Queue := (s.part p).queues.get .init i
def modQueue (s : State) (p i : Nat) (f : Queue → Queue) : State :=
  s.modPart p fun x => { x with queues := x.queues.upd .init i f }

/-- Entries pending in a queue. -/
def Queue.pending (x : Queue) : Nat := (x.tail - x.head).toNat

/-- R461: a tail write rings the queue; one that is out of bounds stops it. -/
def execQtailWrite (part i : Nat) (value : BitVec 64) (s : State) : Out :=
  .next (
    let s1 := modQueue s part i fun x => { x with tail := value.extractLsb' 0 16 }
    let x := launchQueue s1 part i
    if x.pending ≤ 2 ^ x.sz - 1 then s1
    else cutQueue (modQueue s1 part i fun x => { x with err := true, en := false }) part i 2)

/-- The completion of a launch that runs no thread: the timeline moves and its error bit is set (R465). -/
def rejectCompletion (s : State) (p : Nat) (d : Desc) : State :=
  if ctxAllowed s p d.compCtx then moveTimeline s d.compCtx d.compVal.toNat true else s

/-- A launch that nothing of is bound goes, with its reservations and back-offs and what it left (R462). -/
def dropLaunch (s : State) (l : Launch) : State :=
  let unbank (c : Core) : Core := { c with banks := c.banks.filter fun k => k.1 != l.handle }
  let settle (x : Part) : Part := { x with preempts := x.preempts.filter fun r => r.handle != l.handle }
  let s1 := { forgetRaces s l.handle with
                     launches := s.launches.del l.handle
                     templates := s.templates.filter fun t => t.launch != l.handle
                     cores := s.cores.map fun e => (e.1, unbank e.2)
                     parts := s.parts.map fun e => (e.1, settle e.2)
                     reservations := s.reservations.filter fun x => x.r.handle != l.handle
                     backoffs := s.backoffs.filter fun b => b.handle != l.handle }
  rejectCompletion s1 l.part l.d

/-- Launches of a queue, in order of handle. -/
def queueLaunches (s : State) (p i : Nat) : List Launch :=
  (s.launches.map Prod.snd).filter fun l => l.part == p && l.queue == i

/-! ### The descriptor (R53) -/

/-- A launch descriptor's fields from its 256 bytes. -/
def descOf (x : Nat) : Desc :=
  let f (off n : Nat) : Nat := recField x off n
  { flags := BitVec.ofNat 16 (f 0x04 2), stages := f 0x06 1, prio := f 0x07 1
    entries := [q (f 0x08 8), q (f 0x10 8), q (f 0x18 8), q (f 0x20 8)]
    grid := (f 0x28 2, f 0x2A 2, f 0x2C 2), bpc := f 0x2E 2, shape := (f 0x30 2, f 0x32 2, f 0x34 2)
    waves := f 0x36 1, pregrant := f 0x37 1, scratch := f 0x38 4, wayMask := BitVec.ofNat 16 (f 0x3C 2)
    cvs := f 0x3E 1, fifos := f 0x3F 1, argVa := q (f 0x40 8), argBytes := f 0x48 4, latency := f 0x4C 4
    schedVa := q (f 0x50 8), segBytes := f 0x58 4, pin := BitVec.ofNat 32 (f 0x5C 4)
    compCtx := f 0x60 2, compVal := q (f 0x68 8), waitCtx := f 0x70 2, waitVal := q (f 0x78 8), items := f 0x80 8
    chan := [f 0x88 4, f 0x8C 4, f 0x90 4] }

def ctxField (n : Nat) : Bool := n < 1024 || n == 0xFFFF

/-- A completion value earlier than the counter under the 48-bit rule (R53). -/
def earlier48 (counter value : Nat) : Bool :=
  let dist := (counter + 2 ^ 48 - value % 2 ^ 48) % 2 ^ 48
  1 ≤ dist && dist < 2 ^ 47

/-- The field checks in ascending offset: whether a field fails, its reason, its offset. -/
def fieldChecks (s : State) (x : Nat) : List (Bool × Nat × Nat) :=
  let d := descOf x
  let st := d.stages
  let tpl := d.isTemplate
  let entry (i : Nat) : Bool × Nat × Nat :=
    let e := d.entries.getD i 0
    (if i < st then !slotOffset e else e != 0, 5, 0x08 + 8 * i)
  let chan (i : Nat) : Bool × Nat × Nat :=
    let n := d.chan.getD i 0
    (if i + 1 < st then n % 128 != 0 || n < 128 || 32768 < n else n != 0, 14, 0x88 + 4 * i)
  let ways := popcount 16 d.wayMask.toNat
  [ (recField x 0 4 != 0x880, 1, 0), (bits d.flags 15 9 != 0 || bits d.flags 6 5 == 3, 2, 0x04)
  , (st == 0 || 4 < st, 3, 0x06), (7 < d.prio, 4, 0x07) ]
  ++ (List.range 4).map entry ++
  [ (d.grid.1 == 0, 6, 0x28), (d.grid.2.1 == 0, 6, 0x2A), (d.grid.2.2 == 0, 6, 0x2C)
  , (d.bpc == 0 || 16 < d.bpc, 7, 0x2E)
  , (d.shape.1 == 0 || 32 * d.waves < d.threads && d.shape.2.1 != 0 && d.shape.2.2 != 0, 7, 0x30)
  , (d.shape.2.1 == 0, 7, 0x32), (d.shape.2.2 == 0, 7, 0x34)
  , (d.waves == 0 || 16 < d.waves, 7, 0x36), (3 < d.pregrant, 7, 0x37)
  , (d.scratch % 128 != 0 || 32768 * ways < d.scratch, 8, 0x38), (14 < ways, 8, 0x3C)
  , (16 < d.cvs, 9, 0x3E), ((if 1 < st then 30 else 32) < d.fifos, 9, 0x3F)
  , (d.argVa.toNat % 128 != 0 || d.argVa == 0 && d.argBytes != 0, 10, 0x40), (65536 < d.argBytes, 10, 0x48)
  , (d.schedVa.toNat % 64 != 0, 11, 0x50)
  , (if tpl then d.segBytes % 64 != 0 || 65536 < d.segBytes else d.segBytes != 0, 12, 0x58)
  , (!(d.pin == 0xFFFFFFFF || d.pin.toNat ≤ 3) || d.flags.getLsbD 1 && d.schedVa != 0 && 3 < d.pin.toNat, 11, 0x5C)
  , (!ctxField d.compCtx, 13, 0x60), (recField x 0x62 6 != 0, 15, 0x62)
  , (bits d.compVal 63 48 != 0
      || d.compCtx < 1024 && earlier48 (bits (s.ctx d.compCtx).counter 47 0) d.compVal.toNat, 13, 0x68)
  , (!ctxField d.waitCtx, 13, 0x70), (recField x 0x72 6 != 0, 15, 0x72)
  , (if tpl then d.items == 0 || 2 ^ 48 < d.items else d.items != 0, 12, 0x80) ]
  ++ (List.range 3).map chan ++ [ (recField x 0x94 108 != 0, 15, 0x94) ]

/-! ### The fit checks (R53, R200) -/

/-- Room left on one core: blocks it can still hold, and its runs of consecutive scratch ways in bytes. -/
structure Bin where
  left : Nat
  runs : List Nat
  deriving DecidableEq, Repr

/-- Lengths of the runs of consecutive ways among those a launch's blocks may lie in. -/
def wayRuns (d : Desc) : List Nat :=
  let step (acc : List Nat × Nat) (i : Nat) : List Nat × Nat :=
    if d.blockWays.contains i then (acc.1, acc.2 + 1) else (if acc.2 = 0 then acc.1 else acc.1 ++ [acc.2], 0)
  let (l, n) := (List.range 16).foldl step ([], 0)
  (if n = 0 then l else l ++ [n]).map (· * wayBytes)

/-- Blocks that one empty core can hold by slots, so many in a lane set, extension blocks, convergence registers, FIFOs and
matrix state. -/
def coreLimit (d : Desc) (slots : Nat) : Nat :=
  let perSet := if d.pregrant = 0 then slots else min slots (8 / d.pregrant)
  let cap (room each : Nat) : Nat := if each = 0 then 16 else room / each
  let n := min (cap (2 * perSet) d.waves) (min (cap 16 d.cvs) (cap 32 d.fifos))
  if d.flags.getLsbD 8 then min 1 n else n

def emptyBin (d : Desc) (slots : Nat) : Bin := ⟨coreLimit d slots, wayRuns d⟩

/-- Ways to place `n` bytes on one of some cores, equal cores and equal runs once, the tightest run first. -/
def choices (n : Nat) (cores : List Bin) : List (List Bin) :=
  (cores.eraseDups.filter fun c => c.left != 0).flatMap fun c =>
    let rest := cores.erase c
    if n = 0 then [{ c with left := c.left - 1 } :: rest]
    else
      (sortBy id (c.runs.eraseDups.filter fun r => n ≤ r)).map fun r =>
        (⟨c.left - 1, (r - n) :: c.runs.erase r⟩ : Bin) :: rest

/-- Whether blocks of some sizes all find room. -/
def packs : List Nat → List Bin → Bool
  | [], _ => true
  | n :: rest, cores => (choices n cores).any (packs rest)

/-- Scratch bytes of each block of a coordinate, the largest first. -/
def coordSizes (d : Desc) : List Nat :=
  sortBy (fun n => 2 ^ 40 - n) ((List.range d.stages).flatMap fun i => List.replicate d.bpc (d.boundBytes i))

/-- Whether `k` coordinates fit on some empty cores, each with so many slots in a lane set: by count, by volume, then
exactly. -/
def coordsFit (d : Desc) (cores : List Nat) (k : Nat) : Bool :=
  let sizes := (List.replicate k (coordSizes d)).flatten
  sizes.length ≤ sumOf (cores.map (coreLimit d)) && sumOf sizes ≤ cores.length * sumOf (wayRuns d)
    && packs (sortBy (fun n => 2 ^ 40 - n) sizes) (cores.map (emptyBin d))

/-- The most coordinates that fit on some empty cores, up to `n` more than `k`. -/
def coordRoom (d : Desc) (cores : List Nat) : Nat → Nat → Nat
  | 0, k => k
  | n + 1, k => if coordsFit d cores (k + 1) then coordRoom d cores n (k + 1) else k

/-- Whether a cooperative grid can ever fit the partition: its coordinates over the squares, each on the enabled cores there
(R523), but for the slots of the least generator reserve that GCORE and GSLOT can name, one of each lane set on the first
core (R51, R474; assumption 120). -/
def gridFits (s : State) (p : Nat) (d : Desc) : Bool :=
  let need := d.grid.1 * d.grid.2.1 * d.grid.2.2
  let slots (core : Nat) : Nat := if (enabledCores s p).head? = some core then 7 else 8
  let served (j : Nat) : List Nat :=
    ((squareCores s p j).filter fun e => quadEnabled s (e.1 / 4)).map fun e => slots e.2
  need ≤ sumOf ((List.range (squareCount s p)).map fun j => coordRoom d (served j) (min need 256) 0)

/-! ### The schedule table (R475) -/

/-- The first failing field of a schedule table: reason and offset. -/
def scheduleCheck (d : Desc) (x : Nat) : Option (Nat × Nat) :=
  let f (off n : Nat) : Nat := recField x off n
  let count := f 4 1
  let share (i : Nat) : Bool × Nat × Nat :=
    let v := f (8 + 2 * i) 2
    ((if i / 4 < count ∧ i % 4 < d.stages then v == 0 else v != 0), 11, 8 + 2 * i)
  let l := [ (f 0 4 != 0x4C445331, 11, 0), (count == 0 || 4 < count, 11, 4), (f 5 1 != d.stages, 11, 5), (f 6 2 != 0, 15, 6) ]
    ++ (List.range 16).map share ++ [ (f 0x28 24 != 0, 15, 0x28), (d.pin != 0xFFFFFFFF && count ≤ d.pin.toNat, 11, 0x5C) ]
  (l.find? fun e => e.1).map fun e => e.2

/-- The shares of each schedule of a table. -/
def sharesOf (d : Desc) (x : Nat) : List (List Nat) :=
  (List.range (recField x 4 1)).map fun i => (List.range d.stages).map fun j => recField x (8 + 8 * i + 2 * j) 2

/-! ### Validation and rejection (R463-R465) -/

/-- No launch is being validated. -/
def Queue.settled (x : Queue) : Queue :=
  { x with ptr := none, desc := none, shares := none, hold := none, table := false, lost := false, lostTable := false }

/-- A launch is rejected: its record, its completion, and the queue goes on. -/
def rejectLaunch (s : State) (p i : Nat) (va : BitVec 64) (reason offset : Nat) (d : Option Desc) : State :=
  let asid := (launchQueue s p i).asid
  let s1 := postFault s p (record (header s 6 0 0xFFFF asid 0xFFFF 0 ++ [va, q (i + 2 ^ 8 * reason + 2 ^ 16 * offset), 0, 0, 0]))
  let s2 := match d with | some d => rejectCompletion s1 p d | none => s1
  modQueue s2 p i Queue.settled

/-- A rejection for which no single field failed: the offset is not said. -/
def rejectWhole (s : State) (p i : Nat) (va : BitVec 64) (reason : Nat) (d : Option Desc) : State :=
  let (v, s1) := s.fresh
  rejectLaunch s1 p i va reason (bits v 15 0) d

/-- What reading through the engine path in a queue's address space gives. -/
inductive Fetched where
  | bytes (s : State) (x : Nat)
  | wait (s : State)
  | lost (s : State)
  deriving DecidableEq, Repr

/-- Read for a queue, the schedule table (`table`) or what comes before it: a page that is not resident waits for the
pager, other refusals are final. -/
def queueRead (s : State) (p i : Nat) (table : Bool) (va n : Nat) : Fetched :=
  let x := launchQueue s p i
  if (if table then x.lostTable else x.lost) then .lost s
  else if 2 ^ 57 < va + n then .lost s
  else
    match readVal s (agentReq s p x.asid 5) va n with
    | (s1, .ok v) => .bytes s1 v
    | (s1, .error (.page f)) => .wait (modQueue s1 p i fun x => { x with hold := some f, table := table })
    | (s1, .error (.fill _ _)) | (s1, .error (.fillFull _ _)) | (s1, .error (.evicting _ _)) => .wait s1
    | (s1, .error _) => .lost s1

/-- The lowest free launch handle. -/
def freeHandle (s : State) : Option Nat := (List.range 4096).find? fun h => (s.launches.find? h).isNone

/-- A launch that has passed takes the lowest free handle, or its queue waits for one (R464). -/
def takeHandle (s : State) (p i : Nat) (va : BitVec 64) (d : Desc) (shares : List (List Nat)) : State :=
  match freeHandle s with
  | none => modQueue s p i fun x => { x with shares := some shares }
  | some h =>
  let asid := (launchQueue s p i).asid
  let l : Launch :=
    { handle := h, part := p, queue := i, descVa := va, d := d, asid := asid, agen := asidGen s asid, state := .validated
      prio := d.prio, admSeq := 0, admTick := 0, bonus := 0, bound := [], endedBlocks := 0, lifeSum := 0, lifeCount := 0
      faulted := false, itemNext := 0, itemsLive := 0, tpl := none, prologueLost := false
      sched := if d.pin = 0xFFFFFFFF ∨ shares = [] then 0 else d.pin.toNat
      shares := shares, boundaries := 0, busySum := List.replicate d.stages 0, epochs := [], ring := [], raced := [] }
  modQueue { s with launches := s.launches.put h l } p i Queue.settled

/-- The checks after the field checks, but for the schedule table's: the reason of the first that fails, with its field's
offset where it has one. -/
def launchCheck (s : State) (p : Nat) (d : Desc) : Option (Nat × Option Nat) :=
  let outside (c : Nat) : Bool := c != 0xFFFF && !ctxAllowed s p c
  if outside d.compCtx then some (18, some 0x60)
  else if outside d.waitCtx then some (18, some 0x70)
  else if !coordsFit d (List.replicate 16 8) 1 then some (16, none)
  else if d.flags.getLsbD 0 && !gridFits s p d then some (17, none)
  else if d.isTemplate && 1 < d.stages then some (12, none)
  else none

/-- The last check, of the schedule table; a launch that has passed it waits only for a handle. A table whose page the pager
declared unresolvable rejects the launch with reason 19, its completion written. -/
def checkTable (s : State) (p i : Nat) (va : BitVec 64) (d : Desc) : State :=
  match (launchQueue s p i).shares with
  | some shares => takeHandle s p i va d shares
  | none =>
    if d.schedVa = 0 then takeHandle s p i va d []
    else
      match queueRead s p i true d.schedVa.toNat 64 with
      | .wait s1 => s1
      | .lost s1 => rejectLaunch s1 p i va (if (launchQueue s1 p i).lostTable then 19 else 11) 0x50 (some d)
      | .bytes s1 y =>
        match scheduleCheck d y with
        | some e => rejectLaunch s1 p i va e.1 e.2 (some d)
        | none => takeHandle s1 p i va d (sharesOf d y)

/-- Validate the launch at a pointer (R464): its descriptor is read once (R53, R463), and a check that it has passed is not
made again. -/
def validate (s : State) (p i : Nat) (va : BitVec 64) : State :=
  match (launchQueue s p i).desc with
  | some x => checkTable s p i va (descOf x.toNat)
  | none =>
    match queueRead s p i false va.toNat 256 with
    | .wait s1 => s1
    | .lost s1 => rejectWhole s1 p i va 19 none
    | .bytes s1 x =>
      let d := descOf x
      match (fieldChecks s1 x).find? fun e => e.1 with
      | some e => rejectLaunch s1 p i va e.2.1 e.2.2 (some d)
      | none =>
        match launchCheck s1 p d with
        | some (reason, some off) => rejectLaunch s1 p i va reason off (some d)
        | some (reason, none) => rejectWhole s1 p i va reason (some d)
        | none => checkTable (modQueue s1 p i fun y => { y with desc := some (BitVec.ofNat 2048 x) }) p i va d

/-- Read the next ring entry (R460). -/
def readEntry (s : State) (p i : Nat) : State :=
  let x := launchQueue s p i
  match queueRead s p i false (x.base.toNat + 8 * (x.head.toNat % 2 ^ x.sz)) 8 with
  | .wait s1 => s1
  | .lost s1 => rejectWhole (modQueue s1 p i fun x => { x with head := x.head + 1 }) p i 0 19 none
  | .bytes s1 e =>
    let s2 := modQueue s1 p i fun x => { x with head := x.head + 1 }
    if e = 0 then s2
    else if e % 64 ≠ 0 ∨ 2 ^ 57 ≤ e then rejectWhole s2 p i (q e) 19 none
    else validate (modQueue s2 p i fun x => { x with ptr := some (q e) }) p i (q e)

/-- R463, R464: the queue's next launch, once every earlier one is rejected or admitted. -/
def execLaunchSubmit (part i : Nat) (s : State) : Out :=
  .next (
    let x := launchQueue s part i
    if x.hold.isSome ∨ (queueLaunches s part i).any fun l => l.state == .validated then s
    else
      match x.ptr with
      | some va => validate s part i va
      | none => if x.en ∧ !x.err ∧ x.head ≠ x.tail then readEntry s part i else s)

/-- The launch whose pointer has been read and that has no handle yet is dropped: its completion is written as for a
rejection, from the descriptor that was read, or that can be now (R462, R465; assumption 121). -/
def dropSubmitted (s : State) (p i : Nat) : State :=
  match (launchQueue s p i).ptr, (launchQueue s p i).desc with
  | none, _ => s
  | some _, some x => rejectCompletion s p (descOf x.toNat)
  | some va, none =>
    match queueRead s p i false va.toNat 256 with
    | .bytes s1 x => rejectCompletion s1 p (descOf x)
    | _ => s

/-- R462: RESET. -/
def execQueueReset (part i : Nat) (s : State) : Out :=
  .next (
    let s1 := modQueue (dropSubmitted s part i) part i fun x =>
      { x.settled with en := false, err := false, head := 0, tail := 0 }
    let s2 := cutQueue s1 part i 1
    let unbound (l : Launch) : Bool :=
      !(s.blocks.any fun b => !b.gen && b.launch == l.handle) && !s.images.any fun m => m.launch == l.handle
    ((queueLaunches s2 part i).filter unbound).foldl dropLaunch s2)

/-! ### Admission (R467, R468, R472) -/

/-- The next admission sequence: one that equals, modulo 2^21, that of no launch holding a handle is skipped to. -/
def nextSeq (s : State) (p : Nat) : Nat :=
  let held := ((s.launches.map Prod.snd).filter fun l => l.part == p && l.state == .admitted).map fun l => l.admSeq % 2 ^ 21
  iterWhile (fun n => if held.contains (n % 2 ^ 21) then some ((n + 1) % 2 ^ 29) else none) 4097 (s.part p).admitSeq

/-- Whether a validated launch's wait timeline is satisfied. -/
def waitMet (s : State) (d : Desc) : Bool :=
  d.waitCtx == 0xFFFF || atLeast48 (bits (s.ctx d.waitCtx).counter 47 0) (bits d.waitVal 47 0)

def execLaunchAdmit (handle : Nat) (s : State) : Out :=
  .next (
    match s.launch? handle with
    | none => s
    | some l =>
      let p := s.part l.part
      let room : Bool := p.mode == 0 || (!p.eventsFull && p.events == [])
      if l.state ≠ .validated ∨ !waitMet s l.d ∨ !room ∨ p.swapped then s
      else
        let n := nextSeq s l.part
        let prio := min l.d.prio (launchQueue s l.part l.queue).pcap
        let s1 := s.modLaunch handle fun l => { l with state := .admitted, prio := prio, admSeq := n, admTick := s.tick.toNat }
        let s2 := s1.modPart l.part fun p => { p with admitSeq := (n + 1) % 2 ^ 29 }
        if p.mode = 0 then s2
        else writeEvent s2 l.part (eventRecord 1 l.queue handle (n + 2 ^ 29 * prio) l.descVa))

/-- R468: EVHEAD is written, and held records go on. -/
def execEventRingHeadWrite (part : Nat) (value : BitVec 64) (s : State) : Out :=
  .next (
    let s1 := s.modPart part fun p => { p with evhead := bits value 7 0 }
    flushEvents s1 part ((s1.part part).events.length + 1))

end Sys2Proof.Machine
end

