-- ==== Sys2Proof/Machine/Pager.lean ====
section
/-! DEFINITION. The fault ring, the pager's commands, the division of the CSM, procedural regions, end of a launch and
swap of a partition (R478-R479, R484-R493, R499, R500). -/

namespace Sys2Proof.Machine

/-! ### The fault ring (R479) -/

def Part.faultsFull (p : Part) : Bool := (p.fqtail + 1) % 256 == p.fqhead

/-- A race record of report mode (kind 7). -/
def isRace (r : BitVec 512) : Bool := bits r 7 0 == 7

/-- Threads of a partition. -/
def partThreads (s : State) (p : Nat) : List TRef := (s.blocks.filter fun b => b.part == p).flatMap (blockAlive s)

/-- Write one held record; a full ring drops race records and counts them. -/
def writeFault (s : State) (p : Nat) : State :=
  let x := s.part p
  if x.faultsFull then
    let n := (x.faults.filter isRace).length
    s.modPart p fun x => { x with faults := x.faults.filter fun r => !isRace r, fqdrop := d (min 0xFFFFFFFF (x.fqdrop.toNat + n)) }
  else
    match x.faults with
    | [] => s
    | r :: rest =>
      let s1 := ringWrite s p (x.fqbase.toNat + 64 * x.fqtail) (toBytes 64 r.toNat)
      let s2 := raiseMsix (s1.modPart p fun x => { x with faults := rest, fqtail := (x.fqtail + 1) % 256 }) p 0 x.pghost
      -- a thread halted by this record goes on to its end
      effects s2 (((partThreads s2 p).filter fun t => (s2.thread t).wait == some .halted && haltedBy s2 t r).map Eff.ended)

def execFaultRecordWrite (part : Nat) (s : State) : Out := .next (writeFault s part)

/-- R479: FQHEAD is written, and held records go on. -/
def execFaultQueueHeadWrite (part : Nat) (value : BitVec 64) (s : State) : Out :=
  .next (
    let s1 := s.modPart part fun p => { p with fqhead := bits value 7 0 }
    iter (fun s => writeFault s part) ((s1.part part).faults.length) s1)

/-! ### The division of the CSM (R478) -/

/-- Whether every slice of 20 ways keeps at least 4 cache ways. -/
def divisionOk (n sh win : Nat) : Bool := (List.range n).all fun i => sliceShare sh n i + sliceShare win n i + 4 ≤ 20

def anyAdmitted (s : State) (p : Nat) : Bool := (s.launches.map Prod.snd).any fun l => l.part == p && l.state == .admitted

def execCsmDivisionWrite (part : Nat) (value : BitVec 64) (s : State) : Out :=
  .next (
    let sh := bits value 25 16
    let win := bits value 9 0
    if !divisionOk (sliceCount s part) sh win ∨ anyAdmitted s part then s.modPart part fun p => { p with pgerr := 2 }
    else trimCsm (s.modPart part fun p => { p with shways := sh, winways := win }) part)

/-! ### Commands (R488) -/

/-- A command ends: PGERR, and PGBUSY clears. -/
def endCommand (s : State) (p err : Nat) : State := s.modPart p fun x => { x with pgerr := err, pgbusy := false }

def pgArg (s : State) (p i : Nat) : Nat := ((s.part p).pgarg.getD i 0).toNat

/-- Run a command unless its arguments are wrong. -/
def command (s : State) (p : Nat) (check : Option Nat) (run : State → State) : Out :=
  .next (match check with
    | some e => endCommand s p e
    | none => endCommand (run s) p 0)

/-- Whether an ASID is the partition's: its window allocated it (R507). -/
def ownsAsid (s : State) (p asid : Nat) : Bool := asid < 65536 && s.asidOwner.get 0 asid == p + 1

def asidCheck (s : State) (p : Nat) : Option Nat :=
  if 65536 ≤ pgArg s p 0 then some 2 else if !ownsAsid s p (pgArg s p 0) then some 3 else none

/-- The ASID of a command, then a byte count from 1 to a limit. -/
def rangeCheck (s : State) (p limit : Nat) : Option Nat :=
  match asidCheck s p with
  | some e => some e
  | none => if pgArg s p 2 = 0 ∨ limit < pgArg s p 2 then some 2 else none

def pageWait : Wait → Option (Nat × BitVec 64)
  | .page f a => some (f, a)
  | _ => none

/-- A CSM line that waits with its dirty bytes for a page. -/
def heldLine (p : Nat) (f : PageFault) (l : CsmLine) : Bool :=
  l.part == p && l.dirty != 0 && f.covers l.asid l.va

/-- Whether a requester of a partition waits on a fault. -/
def faultWaited (s : State) (p : Nat) (f : PageFault) : Bool :=
  let on (w : Option Wait) : Bool := match w.bind pageWait with | some e => e.1 == f.id | none => false
  (partThreads s p).any (fun t => on (s.thread t).wait) || (allReqs s).any (fun r => r.part == p && on r.parked)
    || (s.part p).queues.any (fun e => e.2.hold == some f.id) || s.csm.any (heldLine p f)
    || (s.blocks ++ s.images.flatMap fun i => i.blocks).any (fun b => b.part == p && on (b.detHold.map Prod.snd))
    || s.beams.any fun e => e.2.any fun x => x.part == p && on x.hold

/-- Change every copy request, and every queue of a partition. -/
def modReqs (s : State) (f : CopyReq → CopyReq) : State :=
  let ctx (c : CopyCtx) : CopyCtx := { c with reqs := c.reqs.map f }
  { s with ctxs := s.ctxs.map fun e => (e.1, ctx e.2) }
def modQueues (s : State) (p : Nat) (f : Queue → Queue) : State :=
  let all (x : Part) : Table Queue := x.queues.map fun e => (e.1, f e.2)
  s.modPart p fun x => { x with queues := all x }

/-- The faults a replay ends: a requester of the partition waits on it, or its page is the partition's and its
requesters are gone (R487: one record 'until the next replay'). -/
def faultReplayed (s : State) (p : Nat) (f : PageFault) : Bool := faultWaited s p f || ownsAsid s p f.asid

/-- R489: every requester of the partition that waits on a page tries again; held lines are written if their page has
come. -/
def replayAll (s : State) (p : Nat) : State :=
  let fs := s.pageFaults.filter (faultReplayed s p)
  let waits (w : Option Wait) : Bool := (w.bind pageWait).isSome
  let s1 := { s with pageFaults := s.pageFaults.filter fun f => !fs.contains f }
  let s2 := (partThreads s1 p).foldl (fun s t => if waits (s.thread t).wait then clearWait s t else s) s1
  let req (r : CopyReq) : CopyReq := if r.part = p ∧ waits r.parked then { r with parked := none } else r
  let s3 := freeHolds s2 (fun b _ w => b.part == p && (pageWait w).isSome) none
  let s4 := modQueues (modReqs s3 req) p fun x => { x with hold := none }
  (s4.csm.filter fun l => fs.any fun f => heldLine p f l).foldl (fun s l => (writeLineBack s l).1) s4

def execReplay (part : Nat) (s : State) : Out := command s part none fun s => replayAll s part

/-- R490: every requester of the partition that waits on a fault's page fails. -/
def failPage (s : State) (p : Nat) (f : PageFault) : State :=
  let on (w : Option Wait) : Option (BitVec 64) :=
    match w.bind pageWait with | some e => if e.1 = f.id then some e.2 else none | none => none
  let s1 := { s with pageFaults := s.pageFaults.filter (· != f) }
  let req (r : CopyReq) : CopyReq :=
    if r.part = p then
      match on r.parked with
      | some va => { r with error := r.error.orElse fun _ => some (0x0A, va, 0), dead := true, parked := none }
      | none => r
    else r
  let queue (x : Queue) : Queue :=
    if x.hold = some f.id then { x with hold := none, lost := x.lost || !x.table, lostTable := x.lostTable || x.table } else x
  let s2 := freeHolds s1 (fun b _ w => b.part == p && (on (some w)).isSome) (some (simpleTrap 0x0A))
  let s3 := modQueues (modReqs s2 req) p queue
  let lost := s3.csm.filter (heldLine p f)
  let s4 := lost.foldl (fun s l => dropRecord s 9 l.part 0xFFFF l.asid l.agen l.va l.dirty) s3
  let s5 := { s4 with csm := s4.csm.filter fun l => !heldLine p f l }
  effects s5 ((partThreads s5 p).filterMap fun t => (on (s5.thread t).wait).map fun pc => .trap t (simpleTrap 0x0A) pc)

def execUnresolvable (part : Nat) (s : State) : Out :=
  match s.pageFaults.find? fun f => f.id == pgArg s part 0 && faultWaited s part f with
  | some f => command s part none fun s => failPage s part f
  | none => command s part (some 2) id

/-- R484: TLB entries that overlap the range go. -/
def execTlbInvalidate (part : Nat) (s : State) : Out :=
  command s part (rangeCheck s part (2 ^ 57)) fun s =>
    let va := pgArg s part 1
    let n := pgArg s part 2
    closeChannels { s with tlb := s.tlb.filter fun e => !(e.asid == pgArg s part 0 && rangesMeet va n e.va (2 ^ e.log2)) }

/-- Bytes of a line that lie in a range. -/
def rangeMask (va n line : Nat) : BitVec 128 :=
  let lo := max va line
  let hi := min (va + n) (line + 128)
  if lo < hi then byteMask (lo - line) (hi - lo) else 0

/-- Core-side dirty bytes of an address space in a range reach their banks; the write-backs before them do first. -/
def coreWriteBack (asid va n : Nat) (s : State) (core : Nat) : State :=
  let part := corePart s core
  let mask (l : Line) : BitVec 128 := l.dirty &&& rangeMask va n l.va
  let hit (l : Line) : Bool := l.spec.isNone && l.asid == asid && mask l != 0
  let s1 := drainWbs s fun w => w.core == core && w.asid == asid
  let s2 := [Cache.l1, Cache.tile].foldl (fun s k =>
    ((lines s core k).filter hit).foldl (fun s l => sendLine core part k s l (mask l)) s) s1
  let mine := ((s2.raster.get [] (coreQuad core)).filter fun e => e.1 == core && hit e.2).map Prod.snd
  mine.foldl (fun s l => sendRaster core part s l (mask l)) s2

/-- R488: range write-back; pages not resident are skipped. -/
def execRangeWriteBack (part : Nat) (s : State) : Out :=
  command s part (rangeCheck s part (2 ^ 40)) fun s =>
    let asid := pgArg s part 0
    let va := pgArg s part 1
    let n := pgArg s part 2
    let cores := (s.cores.map Prod.fst).filter fun c => corePart s c == part
    let s1 := cores.foldl (coreWriteBack asid va n) s
    let resident (s : State) (l : CsmLine) : Bool := match peekWalk s l.asid l.va with | .leaf _ _ _ _ => true | .absent _ _ => false
    let mine (l : CsmLine) : Bool := l.asid == asid && l.part == part && l.dirty != 0 && rangesMeet va n l.va 128
    (s1.csm.filter mine).foldl (fun s l => if resident s l then (writeLineBack s l).1 else s) s1

/-- The trust core raises an ASID's generation, its TLB entries go, and lines of the new generation are invalidated
(R485). -/
def bumpGeneration (s : State) (asid : Nat) : State :=
  let g := (asidGen s asid + 1) % 256
  let e := asidEntry s asid
  let entry : BitVec 128 := BitVec.ofNat 128 (e.toNat % 2 ^ 64 + 2 ^ 64 * (bits e 127 72 * 256 + g))
  let old (a n : Nat) : Bool := a == asid && n == g
  let keep (l : Line) : Bool := !old l.asid l.agen
  let core (c : Core) : Core :=
    { c with l1 := c.l1.filter keep, tile := c.tile.filter keep, const := c.const.filter keep, tex := c.tex.filter keep
             brick := c.brick.filter keep, icache := c.icache.filter keep }
  let s1 := setAsid s asid entry
  { s1 with tlb := s1.tlb.filter fun x => x.asid != asid
            cores := s1.cores.map fun e => (e.1, core e.2)
            raster := s1.raster.map fun e => (e.1, e.2.filter fun x => keep x.2)
            csm := s1.csm.filter fun l => !old l.asid l.agen }

def execGenerationBump (part : Nat) (s : State) : Out :=
  command s part (asidCheck s part) fun s => closeChannels (bumpGeneration s (pgArg s part 0))

/-! ### Fills the host decides (R493) -/

/-- A block that is FILLING. -/
def fillingCheck (s : State) (p : Nat) : Option Fill :=
  match region? s p (pgArg s p 0) with
  | some r => if r.state (pgArg s p 1) = 1 then fillOf s p (pgArg s p 0) (pgArg s p 1) else none
  | none => none

def execFillGo (part : Nat) (s : State) : Out :=
  match fillingCheck s part with
  | none => command s part (some 2) id
  | some f =>
    command s part (if f.queued ∨ f.gen.isSome then some 2 else none) fun s =>
      let rest := s.fills.filter fun x => x != f
      { s with fills := rest ++ [{ f with queued := true, order := s.seq, waitTick := s.tick.toNat }], seq := s.seq + 1 }

def execFillFail (part : Nat) (s : State) : Out :=
  match fillingCheck s part with
  | none => command s part (some 2) id
  | some f =>
    command s part none fun s =>
      let ends := match f.gen with | some g => endBlockThreads s g | none => []
      effects s (.failFill part f.region f.block 0x0E (BitVec.ofNat 8 (pgArg s part 2)) 0 :: ends)

/-! ### End launch (R500) -/

/-- Discard everything of a launch and write its completion, faulted. -/
def discardLaunch (s : State) (h : Nat) : State :=
  -- a save under way is finished first, so that its image can go
  let next (s : State) : Option State := (s.images.findIdx? fun i => i.launch == h && !i.written).map (completeSave s)
  let s1 := iterWhile next (s.images.length + 1) s
  let bs := s1.blocks.filter fun b => !b.gen && b.launch == h
  let saved := (s1.images.filter fun i => i.launch == h).flatMap fun i => i.blocks.map fun b => b.id
  let s2 := saved.foldl forgetReceives (bs.foldl discardBlock s1)
  let unbank (c : Core) : Core := { c with banks := c.banks.filter fun k => k.1 != h }
  let cores : Table Core := s2.cores.map fun e => (e.1, unbank e.2)
  let s3 := { s2 with images := s2.images.filter fun i => i.launch != h
                      reservations := s2.reservations.filter fun x => x.r.handle != h
                      backoffs := s2.backoffs.filter fun b => b.handle != h
                      cores := cores }
  let s4 := unhaltCores (s3.modLaunch h fun l => { l with faulted := true })
  let s5 := bs.foldl (fun s b => reportBlock s b true false) s4
  let s6 := endLaunchNow s5 h
  bs.foldl (fun s b => regrant s b.core) s6

def execEndLaunch (part : Nat) (s : State) : Out :=
  let h := pgArg s part 0
  let check := if 4096 ≤ h then some 2 else match s.launch? h with
    | some l => if l.part = part then none else some 3
    | none => some 3
  command s part check fun s => discardLaunch s h

/-- R385: bit 63 of a counter of the partition is cleared. -/
def execClearTimelineError (part : Nat) (s : State) : Out :=
  let c := pgArg s part 0
  command s part (if 1024 ≤ c then some 2 else if !ctxAllowed s part c then some 3 else none) fun s =>
    s.modCtx c fun x => { x with counter := q (x.counter.toNat % 2 ^ 63) }

/-! ### Swap (R499) -/

/-- Coordinates of a partition that stand on its cores, unless a save of them is under way. -/
def residentCoords (s : State) (p : Nat) : List (Nat × Nat × Nat × Nat) :=
  ((s.blocks.filter fun b => !b.gen && b.part == p && !b.halted).map fun b => (b.launch, b.coord)).eraseDups

def execPartitionSwapOut (part : Nat) (s : State) : Out :=
  let cs := residentCoords s part
  let need := sumOf (cs.map fun c => imageGranules s (coordBlocks s c.1 c.2))
  if granulesFree s part < need then command s part (some 4) id
  else
    .next (
      let gens := s.blocks.filter fun b => b.gen && b.part == part
      let s1 := gens.foldl flushGenerator s
      let s2 := cs.foldl (fun s c => haltCoord s c.1 c.2 true) s1
      -- PGBUSY clears when the last image is written
      endSwap (s2.modPart part fun x => { x with swapped := true, pgerr := 0, pgbusy := true }) part)

/-- Bind a saved block again where it stood. -/
def rebind (im : Image) (s : State) (b : Block) : State × Block :=
  let former : Ren := im.former
  let p : Block := { b with id := s.nextBlock, waves := b.waves.map former.wave, started := false
                            vecIndex := if b.raceMode = 0 then none else freeIndex s b.launch
                            clocks := match s.launch? b.launch with | some l => l.epochs | none => [] }
  let s1 := match s.launch? im.launch with
    | some l =>
      let slots := p.waves.map fun w => w % 16
      let r : BindRec := ⟨im.launch, b.core, BitVec.ofNat 16 (sumOf (slots.map fun i => 2 ^ i)), b.cvBase, b.fifoBase
                         , b.scratchOff, b.coord, b.stage, b.bid, 0⟩
      takeBanks (prepareCore s b.core l.d.wayMask) b.core r l.d
    | none => s
  let s2 := { s1 with blocks := s1.blocks ++ [p], nextBlock := s1.nextBlock + 1 }
  (s2.modLaunch im.launch fun l => { l with bound := l.bound ++ [(b.coord, b.stage, b.bid)] }, p)

/-- A swapped image goes back onto its former cores. -/
def swapInImage (s : State) (im : Image) : State :=
  let i := s.images.findIdx fun x => x == im
  let (s1, places) := im.blocks.foldl (fun (r : State × List (Block × Block)) b =>
    let (s1, p) := rebind im r.1 b
    (s1, r.2 ++ [(b, p)])) (s, [])
  restoreImage s1 i im places

/-- R499: swap in, unless the shadow pool cannot hold every image. -/
def execPartitionSwapIn (part : Nat) (s : State) : Out :=
  command s part (if 2 * (s.part part).shways < poolUsed s part then some 4 else none) fun s =>
    let ofPart (i : Image) : Bool := i.swapped && i.written && (match s.launch? i.launch with | some l => l.part == part | none => false)
    let s1 := s.modPart part fun x => { x with swapped := false }
    (s1.images.filter ofPart).foldl swapInImage s1

/-- R488: codes without a command. -/
def execPgcmdUnknown (part : Nat) (s : State) : Out := command s part (some 1) id

/-! ### Procedural regions (R204, R205, R492) -/

/-- A region from its descriptor, in an address space, every block EMPTY. -/
def regionOf (desc : BitVec 512) (asid : Nat) : Region := ⟨desc, asid, [], [], [], 0⟩

/-- The field limits of R204. -/
def Region.fieldsOk (r : Region) : Bool :=
  let size := 2 ^ r.log2
  12 ≤ r.log2 && r.log2 ≤ 21 && r.base % size == 0 && r.base < 2 ^ 57
    && r.length % size == 0 && 1 ≤ r.blocks && r.blocks ≤ 2 ^ 24
    && r.prio ≤ 7 && 1 ≤ r.limit && r.limit ≤ 4 && bits r.desc 159 153 == 0
    && r.scratch % 128 == 0 && r.scratch ≤ 16384 && slotOffset (q r.entry)
    && r.argVa % 128 == 0 && (r.argVa != 0 || r.argBytes == 0) && r.argBytes ≤ 65536
    && 1 ≤ r.capacity && r.capacity ≤ 1024 && bits r.desc 415 400 == 0 && r.table % 64 == 0

/-- Every page of the fill and pin tables is a window page of the management context. -/
def tablesMapped (s : State) (asid : Nat) (r : Region) : Bool :=
  let lo := r.table / 65536
  let hi := (r.pinTable + r.blocks - 1) / 65536
  (List.range (hi + 1 - lo)).all fun i => (windowPa s asid ((lo + i) * 65536)).isSome

def regionFilling (r : Region) : Bool := r.fill.any fun e => e.2 == 1

/-- Whether a descriptor may be registered as region `i`. -/
def regionOk (s : State) (p i : Nat) (r : Region) : Bool :=
  let overlap (e : Nat × Region) : Bool :=
    e.1 != i && e.2.asid == r.asid && rangesMeet r.base r.length e.2.base e.2.length
  r.fieldsOk && !(s.part p).regions.any overlap
    && !(match region? s p i with | some x => regionFilling x | none => false) && tablesMapped s r.asid r

/-- Clear a registered region's tables. -/
def clearTables (s : State) (p : Nat) (r : Region) : State :=
  let span := r.pinTable + r.blocks - r.table
  let pages := (List.range (span / 65536 + 2)).filterMap fun i =>
    let va := (r.table / 65536 + i) * 65536
    (windowPa s (s.part p).mgmtAsid va).map fun e => (va, e.1)
  let inside (c : Host.Cell) : Bool :=
    pages.any fun e => e.2 ≤ c.1 && c.1 < e.2 + 65536 && r.table ≤ e.1 + (c.1 - e.2) && e.1 + (c.1 - e.2) < r.table + span
  { s with mem := s.mem.filter fun c => !inside c }

def refuseRegion (s : State) (p : Nat) : State := s.modPart p fun x => { x with rgref := true }

/-- R492: a descriptor VA is written to RGDESC. -/
def execRegionRegister (part : Nat) (va : BitVec 64) (s : State) : Out :=
  .next (
    let i := (s.part part).rgsel
    let asid := (s.part part).mgmtAsid
    if va.toNat % 64 ≠ 0 then refuseRegion s part
    else
      match readVal s (agentReq s part asid 5) va.toNat 64 with
      | (s1, .error _) => refuseRegion s1 part
      | (s1, .ok x) =>
        let r := regionOf (BitVec.ofNat 512 x) asid
        if regionOk s1 part i r then
          let s2 := s1.modPart part fun y =>
            { y with rgref := false, regions := y.regions.put i r, rgdesc := y.rgdesc.set 0 i va }
          clearTables s2 part r
        else refuseRegion s1 part)

/-- R492: 0 is written to RGDESC. -/
def execRegionUnregister (part : Nat) (s : State) : Out :=
  .next (
    let i := (s.part part).rgsel
    if (match region? s part i with | some r => regionFilling r | none => false) then refuseRegion s part
    else s.modPart part fun y => { y with rgref := false, regions := y.regions.del i, rgdesc := y.rgdesc.del i })

end Sys2Proof.Machine
end

