-- ==== Sys2Proof/Machine/Trust.lean ====
section
/-! DEFINITION. The mailbox, the trust core's commands, measurement, boot, Sextant updates and the heartbeat (R507-R511,
R517). -/

namespace Sys2Proof.Machine

/-! ### The mailbox (R507) -/

def mailboxOf (s : State) (fn : Nat) : Mailbox := s.mailbox.get .init fn
def modMailbox (s : State) (fn : Nat) (f : Mailbox → Mailbox) : State := { s with mailbox := s.mailbox.upd .init fn f }

/-- Argument word `i` (1-7) of the pending request. -/
def mbArg (s : State) (fn i : Nat) : BitVec 64 := (mailboxOf s fn).request.getD i 0

/-- A command completes: its status and response, and vector 3 of a partition's function (R501). -/
def reply (s : State) (fn status : Nat) (response : List Byte) : State :=
  let s1 := modMailbox s fn fun m => { m with pending := false, status := status, response := response }
  if fn = 0 then s1 else raiseMsix s1 (fn - 1) 3 true

/-- The status that stops every command: the firmware was refused, or bits [63:8] of the request are not zero. -/
def requestCheck (s : State) (fn : Nat) : Option Nat :=
  if !s.bootOk then some 6 else if bits (mbArg s fn 0) 63 8 ≠ 0 then some 2 else none

/-- Serve a command: `run` answers the new state with the status and the response. -/
def serve (fn : Nat) (run : State → State × Nat × List Byte) (s : State) : Out :=
  .next (match requestCheck s fn with
    | some st => reply s fn st []
    | none => let (s1, st, r) := run s; reply s1 fn st r)

/-- A command of function 0: any other window has no such command (status 1), and where its argument 1 names another partition
than the window's, it is refused for that (status 3). -/
def serveManagement (fn : Nat) (names : Bool) (run : State → State × Nat × List Byte) (s : State) : Out :=
  serve fn (fun s =>
    if fn = 0 then run s else (s, if names ∧ (mbArg s fn 1).toNat ≠ fn - 1 then 3 else 1, [])) s

def execMailboxUnknown (fn : Nat) (s : State) : Out := serve fn (fun s => (s, 1, [])) s

/-! ### Identity and attestation (R508, R509) -/

/-- The 256-byte identity record. -/
def identityRecord (s : State) : List Byte :=
  toBytes 4 0x4E594944 ++ toBytes 2 s.variant.toNat ++ toBytes 2 0 ++ toBytes 16 s.enabled.toNat
    ++ toBytes 8 Config.serialNumber.toNat ++ toBytes 4 Config.fabricId.toNat
    ++ [0x04] ++ toBytesBE 96 Config.identityKey.toNat ++ List.replicate 123 0

def execReadIdentity (fn : Nat) (s : State) : Out := serve fn (fun s => (s, 0, identityRecord s)) s

/-- Measurement register `i`, as 48 bytes. -/
def measureBytes (s : State) (i : Nat) : List Byte := toBytesBE 48 (s.measure.get 0 i).toNat

/-- Extend: M := SHA-384(M, digest). -/
def extend (s : State) (i : Nat) (digest : BitVec 384) : State :=
  { s with measure := s.measure.set 0 i (sha384 (measureBytes s i ++ toBytesBE 48 digest.toNat)) }

/-- The signed part of a report; from function 0 the update count is not said. -/
def reportBody (s : State) (fn : Nat) : State × List Byte :=
  let (v, s1) := s.fresh
  let nonce := (List.range 6).flatMap fun i => toBytes 8 (mbArg s fn (i + 1)).toNat
  let own := if fn = 0 then List.replicate 48 0 else measureBytes s (fn + 1)
  let count := if fn = 0 then bits v 31 0 else (s.part (fn - 1)).updates.toNat
  (if fn = 0 then s1 else s,
    toBytes 4 0x4E594154 ++ toBytes 1 (if fn = 0 then 0xFF else fn - 1) ++ toBytes 3 0 ++ nonce ++ measureBytes s 0
      ++ measureBytes s 1 ++ own ++ toBytes 8 Config.serialNumber.toNat ++ toBytes 4 count ++ List.replicate 12 0)

def execAttest (fn : Nat) (s : State) : Out :=
  serve fn (fun s =>
    let (s1, body) := reportBody s fn
    (s1, 0, body ++ toBytesBE 96 (Config.attestSignature body).toNat)) s

/-! ### The quad map, contexts and ASIDs (R507, R510) -/

/-- The nibbles of a request, quad 0 in bits [3:0] of word 1. -/
def mapArg (s : State) (fn : Nat) : List Nat :=
  (List.range 100).map fun i => fld (mbArg s fn (1 + i / 16)).toNat (4 * (i % 16) + 3) (4 * (i % 16))

/-- A quad map as the state holds it. -/
def mapTable (m : List Nat) : Table Nat := (m.zipIdx.map fun e => (e.2, e.1)).filter fun e => e.2 != 0

/-- A partition with quads has four consecutive logical quads from a multiple of four, all enabled. -/
def hasSquare (s : State) (p : Nat) : Bool :=
  let qs := partQuads s p
  qs == [] || (List.range (qs.length / 4)).any fun j => (List.range 4).all fun i => quadEnabled s (qs.getD (4 * j + i) 0)

/-- What M1 measures: the quad map, the context ranges and the fuse state, which is the variant and the enabled quads (R1,
R509). -/
def configMeasured (s : State) : List Nat :=
  ((List.range 100).map (quadPart s)) ++ ((List.range 8).flatMap fun p => [(s.part p).ctxbase, (s.part p).ctxcnt])
    ++ [s.variant.toNat, s.enabled.toNat]

def extendConfig (s : State) : State := extend s 1 (sha384 (Config.configDigestInput (configMeasured s)))

/-- A partition that has admitted work or a swapped-out image. -/
def partBusy (s : State) (p : Nat) : Bool :=
  anyAdmitted s p || (s.part p).swapped
    || s.images.any fun i => i.swapped && (match s.launch? i.launch with | some l => l.part == p | none => false)

/-- The status of a new quad map. -/
def mapStatus (s : State) (m : List Nat) : Nat :=
  let bad := m.any fun n => 8 ≤ n && n != 15
  let moved := (List.range 100).any fun i => quadPart s i != m.getD i 0 && quadPart s i != 15 && partBusy s (quadPart s i)
  let next := { s with quadMap := mapTable m }
  if bad then 2 else if moved then 4 else if (List.range 8).all (hasSquare next) then 0 else 2

def execSetQuadMap (fn : Nat) (s : State) : Out :=
  serveManagement fn false (fun s =>
    let m := mapArg s fn
    match mapStatus s m with
    | 0 => (extendConfig { s with quadMap := mapTable m }, 0, [])
    | st => (s, st, [])) s

/-- The contexts a partition is assigned start with no request issued (R384). -/
def clearIssued (s : State) (base n : Nat) : State :=
  { s with ctxs := s.ctxs.map fun e => if base ≤ e.1 && e.1 < base + n then (e.1, { e.2 with issued := 0 }) else e }

/-- Arguments: the partition, CTXBASE, CTXCNT. -/
def execSetContexts (fn : Nat) (s : State) : Out :=
  serveManagement fn true (fun s =>
    let p := (mbArg s fn 1).toNat
    let base := (mbArg s fn 2).toNat
    let n := (mbArg s fn 3).toNat
    if 8 ≤ p ∨ 1024 < base + n ∨ 1023 < base ∨ 1023 < n then (s, 2, [])
    else if anyAdmitted s p then (s, 4, [])
    else (clearIssued (s.modPart p fun x => { x with ctxbase := base, ctxcnt := n }) base n, 0, [])) s

/-- The lowest ASID that is not live. -/
def freeAsidOf (s : State) : Option Nat := (List.range 65536).find? fun a => !asidLive s a

/-- An ASID table entry with V set and generation 0. -/
def liveEntry (e : BitVec 128) : BitVec 128 := BitVec.ofNat 128 (bits e 63 1 * 2 + 1 + 2 ^ 64 * (bits e 127 72 * 256))

def execAllocateAsid (fn : Nat) (s : State) : Out :=
  serve fn (fun s =>
    match freeAsidOf s with
    | none => (s, 5, [])
    | some a =>
      ({ setAsid s a (liveEntry (asidEntry s a)) with asidOwner := s.asidOwner.set 0 a fn }, 0, toBytes 8 a)) s

/-- What is wrong with an ASID argument: function 0 may name any. -/
def asidArgStatus (s : State) (fn : Nat) : Option Nat :=
  let a := (mbArg s fn 1).toNat
  if 65536 ≤ a then some 2 else if fn ≠ 0 ∧ s.asidOwner.get 0 a ≠ fn then some 3 else none

def execFreeAsid (fn : Nat) (s : State) : Out :=
  serve fn (fun s =>
    let a := (mbArg s fn 1).toNat
    match asidArgStatus s fn with
    | some st => (s, st, [])
    | none =>
      if (s.launches.map Prod.snd).any fun l => l.asid == a && l.state == .admitted then (s, 4, [])
      else
        ({ setAsid s a (asidEntry s a &&& ~~~1#128) with asidOwner := s.asidOwner.set 0 a 0 }, 0, [])) s

def execSetPageTableRoot (fn : Nat) (s : State) : Out :=
  serve fn (fun s =>
    let a := (mbArg s fn 1).toNat
    let pa := (mbArg s fn 2).toNat
    match asidArgStatus s fn with
    | some st => (s, st, [])
    | none =>
      if pa % 4096 ≠ 0 ∨ 2 ^ 52 ≤ pa then (s, 2, [])
      else
        let e := asidEntry s a
        let word := bits e 63 52 * 2 ^ 52 + pa + bits e 11 0
        (setAsid s a (BitVec.ofNat 128 (word + 2 ^ 64 * bits e 127 64)), 0, [])) s

/-! ### Sextant images (R511) -/

/-- Bytes of physical memory. -/
def physBytes (s : State) (pa n : Nat) : List Byte := (List.range n).map fun i => Table.get 0 s.mem (pa + i)

/-- A physical range lies in memory of the device. -/
def physOk (s : State) (pa n : Nat) : Bool :=
  let dram (a : Nat) : Bool := match paKind s a with | .tier1 | .tier2 | .cxl => true | _ => false
  n != 0 && dram pa && dram (pa + n - 1) && decide (paKind s pa = paKind s (pa + n - 1))

/-- Arguments: the partition, the PA, the length. -/
def execUpdateStage (fn : Nat) (s : State) : Out :=
  serveManagement fn true (fun s =>
    let p := (mbArg s fn 1).toNat
    let pa := (mbArg s fn 2).toNat
    let n := (mbArg s fn 3).toNat
    if 8 ≤ p ∨ !physOk s pa n then (s, 2, [])
    else
      let image := physBytes s pa n
      (s.modPart p fun x => { x with staged := some ⟨image, sha384 image⟩ }, 0, [])) s

/-- Step 1 of a commit: the partition's context stops, and its session with it (R511, R530). -/
def stopContext (s : State) (p : Nat) : State :=
  (closeSession p s).modPart p fun x => { x with sextantStopped := true }

/-- Steps 2 and 3: the register takes the new digest alone, and the update count rises. -/
def measureImage (s : State) (p : Nat) (h : BitVec 384) : State :=
  (extend { s with measure := s.measure.set 0 (2 + p) 0 } (2 + p) h).modPart p fun x => { x with updates := x.updates + 1 }

/-- Step 4: the new image runs on the same Sextant core. -/
def startImage (s : State) (p : Nat) (image : List Byte) : State :=
  s.modPart p fun x => { x with image := some image, staged := none, sextantStopped := false }

def execUpdateCommit (fn : Nat) (s : State) : Out :=
  serveManagement fn true (fun s =>
    let p := (mbArg s fn 1).toNat
    if 8 ≤ p then (s, 2, [])
    else
      match (s.part p).staged with
      | none => (s, 2, [])
      | some x =>
        if anyAdmitted s p ∧ !(s.part p).swapped then (s, 4, [])
        else (startImage (measureImage (stopContext s p) p x.digest) p x.image, 0, [])) s

/-! ### Boot (R509) -/

/-- The ROM checks and measures the trusted firmware, which measures the configuration and loads the Sextant images. A
device whose firmware is refused stays in reset. -/
def execBoot (s : State) : Out :=
  .next (
    let h := sha384 Config.trustedFirmware
    if !Config.firmwareSignatureGood h then { s with booted := false, bootOk := false }
    else
      let s1 := extendConfig (extend s 0 h)
      let s2 := (List.range 9).foldl (fun s p => extend s (2 + p) (sha384 (Config.sextantFirmware p))) s1
      { s2 with booted := true, bootOk := true })

/-! ### Sextant cores (R517) -/

/-- The Sextant core, 0-3 or the spare 4, that serves a partition. -/
def sextantServing (s : State) (p : Nat) : Nat :=
  match s.sextantOf.find? p with
  | some c => c
  | none => Config.sextantCore p % 4

/-- A Sextant core has missed three beats: the sessions of its partitions end with their contexts (R530); the spare starts
to take the partitions over, loading the image of each that is measured, or nobody serves them. -/
def sextantFails (s0 : State) (c : Nat) : State :=
  let ps := (List.range 8).filter fun p => sextantServing s0 p == c
  let s := ps.foldl (fun s p => closeSession p s) s0
  if s.spareUsed then
    ps.foldl (fun s p => s.modPart p fun x =>
      { x with sextantDown := true, takeover := none, downAt := some s.tick.toNat }) s
  else
    let s1 := ps.foldl (fun s p => s.modPart p fun x => { x with takeover := some s.tick.toNat }) s
    { s1 with spareUsed := true, health := { s.health with sxsp := true }
              sextantOf := ps.foldl (fun m p => Table.put m p 4) s.sextantOf }

/-- A takeover completes, at a check that is not said, within 20 ms of its start. -/
def endTakeover (s : State) (p : Nat) : State :=
  match (s.part p).takeover with
  | none => s
  | some n =>
    let (v, s1) := s.fresh
    if v.getLsbD 0 ∨ n + 19 * milliTicks < s.tick.toNat then s1.modPart p fun x => { x with takeover := none } else s1

/-- One core's check: whether it has beaten is the firmware's, outside the model. -/
def checkBeat (s : State) (c : Nat) : State :=
  let n := s.missed.get 0 c
  if 3 ≤ n then s
  else
    let (v, s1) := s.fresh
    if v.getLsbD 0 then { s1 with missed := s1.missed.set 0 c 0 }
    else
      let s2 := { s1 with missed := s1.missed.set 0 c (n + 1) }
      if n + 1 = 3 then sextantFails s2 c else s2

/-- R529: a failure that keeps a partition from binding for more than 1 s interrupts jobs, and is counted once; the second
begins anew while the built-in arbiter or the host serves it. -/
def countStopped (s : State) (p : Nat) : State :=
  match (s.part p).downAt with
  | none => s
  | some n =>
    if !bindsNothing s p then s.modPart p fun x => { x with downAt := some s.tick.toNat }
    else if s.tick.toNat ≤ n + 100000000 then s
    else
      let s1 := s.modPart p fun x => { x with downAt := none }
      { s1 with health := { s1.health with jif := satInc s1.health.jif } }

/-- R517. -/
def execHeartbeatCheck (s : State) : Out :=
  .next (
    let s1 := (([0, 1, 2, 3] ++ if s.spareUsed then [4] else []).foldl checkBeat ((List.range 8).foldl endTakeover s))
    (List.range 8).foldl countStopped s1)

end Sys2Proof.Machine
end

