-- ==== Sys2Proof/Machine/Links.lean ====
section
/-! DEFINITION. Time, clocks, links and peers, failures and their recovery, and the alternation of virtual cores (R5,
R497, R502-R506, R512-R523). -/

namespace Sys2Proof.Machine

/-! ### Time and clock (R5, R503) -/

/-- An exchange with the host's time, in nanoseconds: behind by more than 10 microseconds the counter steps, and otherwise
it is slewed (R503). -/
def followHost (host : BitVec 64) (s : State) : State :=
  let want := host.toNat / 10
  let now := s.tick.toNat
  if !s.linkUp then s
  else if now + 1000 < want then { s with tick := q want, ptmSlew := 0 }
  else { s with ptmSlew := (want : Int) - now }

def execPtmExchange (host : BitVec 64) (s : State) : Out := .next (followHost host s)

/-- R503: while the link is down the counter runs free. -/
def execLinkStateChange (up : Bool) (s : State) : Out :=
  .next { s with linkUp := up, ptmSlew := if up then s.ptmSlew else 0 }

/-- R5: with the draw at the limit, 100 MHz down, to no less than 1,650. -/
def execClockStepDown (s : State) : Out :=
  .next (if s.powerLimit ≤ s.draw then { s with clockMHz := max 1650 (s.clockMHz - 100) } else s)

/-- R5: with the draw below the limit, the same steps up, to no more than 3,300. -/
def execClockStepUp (s : State) : Out :=
  .next (if s.draw < s.powerLimit then { s with clockMHz := if s.clockMHz = 1650 then 1700 else min 3300 (s.clockMHz + 100) }
    else s)

/-! ### Accesses from outside (R502, R505, R506) -/

/-- CSM lines that stand for a physical line. -/
def linesAt (s : State) (pa : Nat) (l : CsmLine) : Bool :=
  match peekWalk s l.asid l.va with
  | .leaf x _ _ _ => x / 128 == pa / 128
  | .absent _ _ => false

/-- Bytes written at a physical line by an agent outside the device: performed at the line's home bank. -/
def outsideWrite (s : State) (pa : Nat) (mask : BitVec 128) (val : BitVec 1024) : State :=
  if s.csm.any (linesAt s pa) then
    (s.csm.filter (linesAt s pa)).foldl (fun s l =>
      let (s1, l1) := takeIn s l mask val none
      csmMod s1 l.asid l.agen l.va fun _ => l1) s
  else dramWrite s 0 (pa / 128 * 128) 0 mask val

/-- R502: a host write of masked bytes of a doubleword of the first tier, which alone is exposed. -/
def execHostCxlWrite (pa : Nat) (data : BitVec 64) (mask : BitVec 8) (s : State) : Out :=
  .next (
    let a := pa / 8 * 8
    if tier1Bytes ≤ a ∨ !s.linkUp then s
    else outsideWrite s a (BitVec.ofNat 128 (mask.toNat * 2 ^ (a % 128))) (linePut (a % 128) data.toNat))

/-- R502: the host snoops a line of its memory, which the map of R75 gives behind the CXL port (assumption 54): the lines
of the CSM that stand for it go back to it. -/
def execCxlCacheSnoop (pa : Nat) (s : State) : Out :=
  .next (
    if paKind s pa = .cxl ∧ s.linkUp then (s.csm.filter (linesAt s pa)).foldl leaveCsm s else s)

/-- The physical address an aperture offset names here, if within the installed capacity (R505). -/
def aperturePa (off : Nat) : Option Nat :=
  let o := off % 2 ^ 42
  if off / 2 ^ 42 = 0 then (if o < tier1Bytes then some o else none)
  else if off / 2 ^ 42 = 1 then (if o < tier2Bytes then some (0x100000000000 + o) else none)
  else none

/-- R505: a peer's access; a read changes nothing here, and one beyond the capacity is refused. -/
def execPeerAccessRequest (pa : Nat) (write : Bool) (data : BitVec 64) (s : State) : Out :=
  .next (
    match aperturePa (pa / 8 * 8) with
    | some a => if write then outsideWrite s a (byteMask (a % 128) 8) (linePut (a % 128) data.toNat) else s
    | none => s)

/-- R506. -/
def execAsterismPortFailure (port : Nat) (s : State) : Out :=
  .next { s with failedPorts := s.failedPorts ||| (if port < 16 then 1#16 <<< port else 0) }

/-- R514. -/
def execLinkFlitResend (_link : Nat) (s : State) : Out := .next { s with resent := s.resent + 1 }

/-! ### Memory (R514, R519, R520) -/

/-- A partition that owns quads; which one an error without a consumer is reported to is not said. -/
def somePart (s : State) : State × Option Nat :=
  let ps := (List.range 8).filter fun p => partQuads s p != []
  let (v, s1) := s.fresh
  (s1, ps[v.toNat % ps.length]?)

/-- R519: a channel of a tier is retired, with a kind-11 record of action 2. -/
def retireChannel (tier channel : Nat) (s : State) : State :=
  if s.retired.contains (tier, channel) ∨ 48 ≤ channel ∨ (tier ≠ 1 ∧ tier ≠ 2) then closeChannels s
  else
    let bit : BitVec 48 := 1#48 <<< channel
    let h := s.health
    let (s1, p) := somePart { s with retired := s.retired ++ [(tier, channel)]
                                     health := { h with ret1 := if tier = 1 then h.ret1 ||| bit else h.ret1
                                                        ret2 := if tier = 2 then h.ret2 ||| bit else h.ret2 } }
    let (v, s2) := s1.fresh
    let count := (h.corr.get 0 (48 * (tier - 1) + channel)).toNat
    let pay := [q (tier - 1 + 2 ^ 8 * (v.toNat % 5) + 2 ^ 16 * channel + 2 ^ 24 * 2 + 2 ^ 32 * count), 0, 0, 0, Config.eccSyndrome 0]
    let s3 := { s2 with health := { s2.health with uncor := d (min 0xFFFFFFFF (s2.health.uncor.toNat + 1)) } }
    closeChannels (match p with
      | some p => postFault s3 p (record (header s 11 0 0xFFFF 0 0xFFFF 0 ++ pay))
      | none => s3)

def execChannelRetirement (tier channel : Nat) (s : State) : Out := .next (retireChannel tier channel s)

/-- A corrected error is counted on its channel (R514, R536). -/
def countCorrected (s : State) (pa : Nat) : State :=
  match paChannel s pa with
  | some (tier, c) =>
    let i := 48 * (tier - 1) + c
    let n := (s.health.corr.get 0 i).toNat
    let s1 := noteError s pa false
    { s1 with health := { s1.health with corr := s1.health.corr.set 0 i (d (min 0xFFFFFFFF (n + 1))) } }
  | none => s

/-- A corrected error is counted on its SRAM array (R514). -/
def countArray (s : State) (source unit : Nat) : State :=
  let a := arrayOf source unit
  { s with health := { s.health with arrays := s.health.arrays.set 0 a (satInc (s.health.arrays.get 0 a)) } }

/-- R520: the scrub reads a granule: an uncorrectable one is reported and stays; whether it finds a correctable error is
the memory's. -/
def execBackgroundScrub (pa : Nat) (s : State) : Out :=
  .next (
    if s.bad.contains (pa / 32) then
      match somePart s with
      | (s1, some p) => errorRecord s1 p 4 0 0 (.memory (pa / 32 * 32)) 0 none
      | (s1, none) => s1
    else
      let (v, s1) := s.fresh
      if v.getLsbD 0 then countCorrected s1 pa else s1)

/-- R520: parity of a block's scratch or local memory (4), register file (5) or accumulators (6) fails: one record, named
after its lowest thread, and every thread halts (R529: the launch ends faulted by it). -/
def failParity (s : State) (b : Block) (source : Nat) : State :=
  match blockAlive s b with
  | [] => s
  | t :: rest =>
    let s0 := if b.gen then s else interrupted s [b.launch]
    let s1 := { s0 with health := { s0.health with uncor := satInc s0.health.uncor } }
    let r := threadRecord s1 t 11 0 [q (source + 2 ^ 16 * 0xFF + 2 ^ 32 * arrayCount s source b.core), 0, 0, 0, Config.eccSyndrome 0]
    effects (postFault s1 b.part r) ((t :: rest).map Eff.halt)

/-! ### Copy engines (R518) -/

/-- A started request goes on at its first uncommitted 4 KiB segment, and nothing of it has been counted (R518); of a FIFO
request every slot has been counted with its bytes (R383), and the first that is not follows. -/
def CopyReq.resumed (r : CopyReq) : CopyReq :=
  if r.started ∧ !r.fin ∧ r.op < 6 then { r with pos := r.pos / segmentBytes * segmentBytes, written := r.counted } else r

/-- The engine that takes a failed one's contexts: the one named, or where that has failed too, the lowest healthy one. -/
def healthyEngine (s : State) (target : Nat) : Option Nat :=
  (target :: List.range 16).find? fun e => e < 16 && !s.failedEngines.contains e

/-- R518: the contexts of a failed engine go to a healthy one, with their numbers, timelines and counted progress. -/
def execCopyEngineFailure (engine target : Nat) (s : State) : Out :=
  .next (
    let s1 := { s with failedEngines := if s.failedEngines.contains engine then s.failedEngines else s.failedEngines ++ [engine] }
    match healthyEngine s1 target with
    | none => s1
    | some e =>
      let cs := (List.range 1024).filter fun c => ctxEngine s1 c == engine
      let s2 := cs.foldl (fun s c => s.modCtx c fun x =>
        { x with engine := some e, reqs := x.reqs.map CopyReq.resumed }) s1
      { s2 with health := { s2.health with engmv := d (min 0xFFFFFFFF (s2.health.engmv.toNat + cs.length)) } })

/-! ### Quads and routers (R515, R516) -/

/-- Coordinates with a block on a physical quad. -/
def quadCoords (s : State) (quad : Nat) : List (Nat × Nat × Nat × Nat) :=
  ((s.blocks.filter fun b => !b.gen && coreQuad b.core == quad).map fun b => (b.launch, b.coord)).eraseDups

/-- Physical quads that may take a failed one's place. -/
def spareQuads (s : State) : List Nat :=
  (List.range 100).filter fun i =>
    !s.enabled.getLsbD i && !s.failedQuads.contains i && !(s.remap.any fun e => e.2 == i) && !s.failedRouters.contains i

/-- What a core leaves to the one that takes its place: posted receives and overflow messages. -/
def movedCore (c : Core) : Core := { Core.init with receives := c.receives, posted := c.posted, overflow := c.overflow }

/-- Dirty lines of the caches of a quad's cores (R515, step 2). -/
def quadDirty (s : State) (quad : Nat) : List Line :=
  let cores := (List.range 4).map (4 * quad + ·)
  ((cores.flatMap fun c => lines s c .l1 ++ lines s c .tile) ++ (s.raster.get [] quad).map Prod.snd).filter fun l => l.dirty != 0

/-- Lines that a failing check has lost go from a quad's caches. -/
def loseLines (quad : Nat) (gone : List Line) (s : State) : State :=
  let keep (l : Line) : Bool := !gone.contains l
  let core (s : State) (c : Nat) : State :=
    s.modCore c fun x => { x with l1 := x.l1.filter keep, tile := x.tile.filter keep }
  ((List.range 4).map (4 * quad + ·)).foldl core
    { s with raster := s.raster.modify quad fun ls => ls.filter fun e => keep e.2 }

/-- The dirty lines of a quad's caches, those of blocks that have ended among them, are written back (R515, step 2). -/
def writeBackQuad (quad : Nat) (s : State) : State :=
  ((List.range 4).map (4 * quad + ·)).foldl (fun s c =>
    let s1 := drainWbs s fun w => w.core == c
    flushRaster (writeBack (writeBack s1 c .l1 fun _ => true) c .tile fun _ => true) c (corePart s1 c)) s

/-- Everything that names cores of a quad names those of the quad that takes its place. -/
def moveQuad (old new : Nat) (s : State) : State :=
  let core (c : Nat) : Nat := if c / 4 = old ∧ c < 400 then 4 * new + c % 4 else c
  let cores := (List.range 4).foldl (fun m i =>
    let was := Table.get Core.init m (4 * old + i)
    Table.put (Table.del m (4 * old + i)) (4 * new + i) (movedCore was)) s.cores
  let beams := Table.put (Table.del s.beams old) new (s.beams.get [] old)
  let part (x : Part) : Part := { x with reserve := x.reserve.map fun e => (core e.1, e.2) }
  let res (x : Reservation) : Reservation := { x with core := core x.core }
  let msg (m : Message) : Message := { m with dest := core m.dest }
  { s with cores := cores, beams := beams, raster := s.raster.del old, parts := s.parts.map fun e => (e.1, part e.2)
           reservations := s.reservations.map res, messages := s.messages.map msg }

/-- The remap table points a logical quad at a spare, which of them is not said; without one it becomes virtual (R515,
step 3). -/
def remapQuad (s : State) (i : Nat) : State :=
  let old := physQuad s i
  let s1 := { s with failedQuads := s.failedQuads ++ [old]
                     health := { s.health with qfail := satInc s.health.qfail } }
  let spares := spareQuads s1
  let (v, s2) := s1.fresh
  match spares[v.toNat % spares.length]? with
  | some new =>
    moveQuad old new { s2 with remap := s2.remap.put i new, health := { s2.health with spq := s2.health.spq - 1 } }
  | none =>
    let drop (x : Part) : Part := { x with reserve := x.reserve.filter fun e => e.1 / 4 != old }
    { s1 with remap := s1.remap.del i, parts := s1.parts.map fun e => (e.1, drop e.2)
              reservations := s1.reservations.filter fun x => x.core / 4 != old }

/-- Slice evacuation (R515, step 2): dirty lines are written back; one that waits for its page moves with its way. -/
def evacuate (s : State) (quad : Nat) : State :=
  (s.csm.filter fun l => homeQuad s l == quad).foldl leaveCsm s

/-- Launches are ended under R500. -/
def endLaunches (s : State) (hs : List Nat) : State :=
  hs.foldl (fun s h => if (s.launch? h).isSome then discardLaunch s h else s) s

/-- Elements that a failing check meets, each by a free bit. -/
def someOf {α : Type} (bad : Bool) (s : State) (l : List α) : State × List α :=
  if !bad then (s, [])
  else l.foldl (fun r x => let (v, s1) := r.1.fresh; (s1, if v.getLsbD 0 then r.2 ++ [x] else r.2)) (s, [])

/-- Saved coordinates that go back to the logical cores they left, once a spare serves those of their quad (R515, steps 3
and 4). -/
def keepPlaces (kept : List (Nat × Nat × Nat × Nat)) (s : State) : State :=
  { s with images := mapIf (fun i => kept.contains (i.launch, i.coord)) (fun i => { i with stays := true }) s.images }

/-- R515: the quad that serves map index `quad` fails; `bad` that checks may fail during the save and the evacuation. The
launches that it ends are one interruption (R529). -/
def execQuadFailure (quad : Nat) (bad : Bool) (s : State) : Out :=
  .next (
    if !quadEnabled s quad then s
    else
      let old := physQuad s quad
      let gens := s.blocks.filter fun b => b.gen && coreQuad b.core == old
      let s1 := gens.foldl flushGenerator s
      let cs := quadCoords s1 old
      let (s2, lost) := someOf bad s1 cs
      let s3 := endLaunches (interrupted s2 (lost.map fun c => c.1)) (lost.map fun c => c.1).eraseDups
      let kept := cs.filter fun c => (s3.launch? c.1).isSome
      let halted := kept.foldl (fun s c => if (coordBlocks s c.1 c.2).any (·.halted) then s else haltCoord s c.1 c.2 false) s3
      let pending (s : State) : Option State :=
        (s.images.findIdx? fun i => !i.written && kept.contains (i.launch, i.coord)).map (completeSave s)
      let s4 := iterWhile pending (halted.images.length + 1) halted
      let (s5, cold) := someOf bad s4 (quadDirty s4 old)
      let s6 := writeBackQuad old (loseLines old cold s5)
      let (s7, gone) := someOf bad s6 (s6.csm.filter fun l => l.dirty != 0 && homeQuad s6 l == old)
      let s8 := { s7 with csm := s7.csm.filter fun l => !gone.contains l }
      let asids := cold.map (fun l => l.asid) ++ gone.map (fun l => l.asid)
      let victims := ((s8.launches.map Prod.snd).filter fun l => asids.contains l.asid).map fun l => l.handle
      let s9 := evacuate (endLaunches (if lost = [] then interrupted s8 victims else s8) victims) old
      remapQuad (if spareQuads s9 = [] then s9 else keepPlaces kept s9) quad)

/-- A block ends faulted where it stands: nothing of its core can be saved (R516). Its items have ended, and the rest of its
launch goes on without it, at its phase boundaries too (R46, R402). -/
def killBlock (s : State) (b : Block) : State :=
  let s1 := match consumerOf s b with
    | some c => s.modBlock c.id fun x => { x with fifos := x.fifos.modify 31 fun f => { f with fin := true } }
    | none => s
  let s2 := (blockAlive s1 b).foldl endItem s1
  let s3 := (closeTemplates (forgetReceives (removeBlock s2 b) b.id) b).modLaunch b.launch fun l =>
    { l with faulted := true, lifeSum := l.lifeSum + (s.tick.toNat - b.bindTick), lifeCount := l.lifeCount + 1
             busySum := setAt l.busySum b.stage (l.busySum.getD b.stage 0 + b.busy) }
  let s4 := settlePhase s3 b.launch
  let others := (launchBlocks s4 b).map fun x => Eff.settle x.id
  effects (reportBlockEnd s4 b true) others

/-- A generator item behind a failed router ends without `fillend`, and its fill fails (R211, R215, R516). -/
def killGenerator (s : State) (b : Block) : State :=
  let pc := match blockAlive s b with | t :: _ => (s.thread t).pc | [] => b.endPc
  let s1 := forgetReceives (removeBlock s b) b.id
  match fillOfGen s b.id with
  | some f => effects s1 [.failFill f.part f.region f.block 0x0E 0 pc]
  | none => s1

/-- What stood behind a failed router cannot leave it: the dirty bytes of its cores' caches and its slice of the CSM are
lost with it (R516). -/
def loseQuad (quad : Nat) (s : State) : State :=
  { s with csm := s.csm.filter fun l => homeQuad s l != quad, wbs := s.wbs.filter fun w => coreQuad w.core != quad }

/-- R516: the blocks behind a failed router end faulted, and its quad is remapped. -/
def execRouterFailure (quad : Nat) (s : State) : Out :=
  .next (
    if !quadEnabled s quad then s
    else
      let old := physQuad s quad
      let gens := s.blocks.filter fun b => b.gen && coreQuad b.core == old
      let bs := s.blocks.filter fun b => !b.gen && coreQuad b.core == old
      let s1 := interrupted (loseQuad old s) (bs.map fun b => b.launch)
      let s2 := bs.foldl killBlock (gens.foldl killGenerator s1)
      let h := s2.health
      remapQuad { s2 with failedRouters := s2.failedRouters ++ [old], health := { h with detour := satInc h.detour } } quad)

/-! ### Virtual cores (R523) -/

/-- Coordinates of deterministic launches with a block on a core that satisfies a test on its logical core; those of a
cooperative launch stay, which must be resident in full. -/
def servedCoords (s : State) (core : Nat) (p : Nat → Bool) : List (Nat × Nat × Nat × Nat) :=
  ((s.blocks.filter fun b => !b.gen && b.deterministic && !b.flags.getLsbD 0 && b.core == core && !b.halted && p b.lcore).map
    fun b => (b.launch, b.coord)).eraseDups

/-- R523: the blocks of a virtual core give way to those of the core that serves it, or those to them: whoever stands
there is saved, and the binder restores the others first. -/
def alternate (part vcore : Nat) (s : State) : State :=
  let named := 4 * (partQuads s part).getD (vcore / 4) 0 + vcore % 4
  let virt := vcore / 4 < (partQuads s part).length && !quadEnabled s (named / 4)
  match serveCore s part true named with
  | some (core, _) =>
    let own := servedCoords s core (· == vcore)
    let cs := if own = [] then servedCoords s core (· != vcore) else own
    let fits (s : State) (c : Nat × Nat × Nat × Nat) : Bool :=
      imageGranules s (coordBlocks s c.1 c.2) ≤ granulesFree s part
    let away (s : State) (c : Nat × Nat × Nat × Nat) : State :=
      let s1 := haltCoord s c.1 c.2 false
      { s1 with images := mapIf (fun i => i.launch == c.1 && i.coord == c.2) (fun i => { i with yields := true }) s1.images }
    if virt then cs.foldl (fun s c => if fits s c then away s c else s) s else s
  | none => s

def execVirtualCoreAlternation (part vcore : Nat) (s : State) : Out := .next (alternate part vcore s)

/-- Whether a deterministic launch of a partition waits for cores. -/
def coresAwaited (s : State) (part : Nat) : Bool :=
  (s.launches.map Prod.snd).any fun l =>
    l.part == part && l.state == .admitted && l.d.flags.getLsbD 1 && l.bound.length < l.d.blocks

end Sys2Proof.Machine
end

