-- ==== Sys2Proof/Machine/Logic.lean ====
section
/-! DEFINITION. Logic, shifts, bit fields, counts, bytes and mix32: opcodes 0x20-0x2F (R302-R308). -/

namespace Sys2Proof.Machine

/-- Width of a bit type. -/
def bitWidth (ty : Ty) : Nat := if ty.is64 then 64 else 32

/-- A bitwise instruction on two sources (R302). -/
def logicOp (i : Instr) (f : RForm) (op : Nat → Nat → Nat) (s : State) : State :=
  compute i f.dst f.h.typ.regs false (fun s _ t =>
    Res.of (op (srcVal s t f.h.typ f.a) (srcVal s t f.h.typ f.b))) s

/-- R302. -/
def execAndd (f : RForm) (s : State) : Out := .next (logicOp (.andd f) f (· &&& ·) s)
def execOrr (f : RForm) (s : State) : Out := .next (logicOp (.orr f) f (· ||| ·) s)
def execXorr (f : RForm) (s : State) : Out := .next (logicOp (.xorr f) f (· ^^^ ·) s)
def execAndn (f : RForm) (s : State) : Out :=
  .next (logicOp (.andn f) f (fun a b => a &&& (2 ^ bitWidth f.h.typ - 1 - b)) s)

/-- An element-wise shift (R303): `op` takes the width, the element and the amount. -/
def shiftOp (i : Instr) (f : RForm) (op : Nat → Nat → Nat → Nat) (s : State) : State :=
  let ty := f.h.typ
  let (w, n) := tyElems ty
  compute i f.dst ty.regs false (fun s _ t =>
    let a := srcVal s t ty f.a
    let b := srcVal s t ty.shiftAmount f.b
    Res.of (sumOf ((List.range n).map fun j =>
      2 ^ (w * j) * op w (a / 2 ^ (w * j) % 2 ^ w) (b / 2 ^ (w * j) % 256)))) s

/-- R303. -/
def execShl (f : RForm) (s : State) : Out :=
  .next (shiftOp (.shl f) f (fun w a n => if w ≤ n then 0 else a * 2 ^ n % 2 ^ w) s)
def execShr (f : RForm) (s : State) : Out := .next (shiftOp (.shr f) f (fun _ a n => a / 2 ^ n) s)
def execSar (f : RForm) (s : State) : Out :=
  .next (shiftOp (.sar f) f (fun w a n => wrap w (sgn w a / ((2 ^ n : Nat) : Int))) s)
def execRotl (f : RForm) (s : State) : Out :=
  .next (shiftOp (.rotl f) f (fun w a n => a * 2 ^ (n % w) % 2 ^ w + a * 2 ^ (n % w) / 2 ^ w) s)

/-- R304. -/
def execBfx (f : IForm) (s : State) : Out :=
  .next (compute (.bfx f) f.dst f.h.typ.regs false (fun s _ t =>
    let pos := bits f.imm 5 0
    let len := bits f.imm 13 8 + 1
    let x := srcVal s t f.h.typ f.a / 2 ^ pos % 2 ^ len
    Res.of (if tySigned f.h.typ then wrap (bitWidth f.h.typ) (sgn len x) else x)) s)

/-- R305. -/
def execBfi (f : RForm) (s : State) : Out :=
  .next (compute (.bfi f) f.dst f.h.typ.regs false (fun s _ t =>
    let w := bitWidth f.h.typ
    let a := srcVal s t f.h.typ f.a
    let b := srcVal s t f.h.typ f.b
    let c := srcVal s t .b32 f.c
    let pos := fld c 5 0
    let m := (2 ^ fld c 14 8 - 1) * 2 ^ pos % 2 ^ w
    Res.of ((a &&& (2 ^ w - 1 - m)) ||| ((b * 2 ^ pos) &&& m))) s)

/-- A count over the bits of a source (R306). -/
def countOp (i : Instr) (f : RForm) (regs : Nat) (op : Nat → Nat → Nat) (s : State) : State :=
  compute i f.dst regs false (fun s _ t => Res.of (op (bitWidth f.h.typ) (srcVal s t f.h.typ f.a))) s

def lowestBit (w x : Nat) : Option Nat := (List.range w).find? fun i => x.testBit i

/-- R306. -/
def execPopc (f : RForm) (s : State) : Out := .next (countOp (.popc f) f 1 popcount s)
def execClz (f : RForm) (s : State) : Out :=
  .next (countOp (.clz f) f 1 (fun w a => if a = 0 then w else w - 1 - Nat.log2 a) s)
def execBrev (f : RForm) (s : State) : Out :=
  .next (countOp (.brev f) f f.h.typ.regs (fun w a =>
    sumOf ((List.range w).map fun i => if a.testBit (w - 1 - i) then 2 ^ i else 0)) s)
def execFfs (f : RForm) (s : State) : Out :=
  .next (countOp (.ffs f) f 1 (fun w a => (lowestBit w a).getD 0xFFFFFFFF) s)

/-- One result byte of `prmb` from its control byte (R307). -/
def prmbByte (src ctl : Nat) : Nat :=
  let b := src / 256 ^ (ctl % 8) % 256
  if ctl.testBit 4 then 0 else if ctl.testBit 3 then (if 128 ≤ b then 255 else 0) else b

/-- R307. -/
def execPrmb (f : IForm) (s : State) : Out :=
  .next (compute (.prmb f) f.dst 1 false (fun s _ t =>
    let src := (srcPair s t f.a).toNat
    Res.of (sumOf ((List.range 4).map fun j => 256 ^ j * prmbByte src (f.imm.toNat / 256 ^ j % 256)))) s)

/-- The keyed hash of R308. -/
def mix32 (a b : Word) : Word :=
  let x := a ^^^ b.rotateLeft 16
  let x := x ^^^ (x >>> 16)
  let x := x * 0x7FEB352D
  let x := x ^^^ (x >>> 15)
  let x := x * 0x846CA68B
  x ^^^ (x >>> 16)

def execMix32 (f : RForm) (s : State) : Out :=
  .next (compute (.mix32 f) f.dst 1 false (fun s _ t => Res.of (mix32 (srcWord s t f.a) (srcWord s t f.b)).toNat) s)

end Sys2Proof.Machine
end

