-- ==== Sys2Proof/Machine/Registers.lean ====
section
/-! DEFINITION. The privileged registers, the mailbox window, the peer table and the trace unit as the management side
reaches them, and the two traps of decoding (R243, R262, R459, R478, R494, R501, R504, R507, R530). Registers are numbered:
0x100-0x1FF privileged CSRs of a partition; 0x200-0x27F doublewords of the mailbox window; 0x400-0x5FD doublewords of the
peer table; 0x1000 up, the trace unit's offsets. Partition 8 and above stands for function 0. -/

namespace Sys2Proof.Machine

/-- The state an outcome carries on with. -/
def goOn (s : State) (o : Out) : State := match o with | .next t => t | _ => s

/-- The mailbox window of a partition's function, or of function 0. -/
def windowOf (part : Nat) : Nat := if part < 8 then part + 1 else 0

/-- CSR 0x109 (R459, R462): SZ and ASID keep their values while EN is set; RESET acts last. -/
def writeQueueControl (s : State) (p : Nat) (v : BitVec 64) : State :=
  let i := (s.part p).qsel
  let sz := bits v 4 0
  let s1 := modQueue s p i fun x =>
    { x with asid := if x.en then x.asid else bits v 31 16
             sz := if x.en ∨ sz < 4 ∨ 16 < sz then x.sz else sz
             pcap := bits v 9 7, en := v.getLsbD 10 }
  if v.getLsbD 11 then goOn s1 (execQueueReset p i s1) else s1

/-- The command a PGCMD code starts, run as it is written (R488); one written while PGBUSY is set is ignored. -/
def startCommand (s : State) (p code : Nat) : State :=
  if (s.part p).pgbusy then s
  else
    let s1 := s.modPart p fun x => { x with pgbusy := true }
    goOn s1 (match code with
      | 1 => execReplay p s1 | 2 => execUnresolvable p s1 | 3 => execTlbInvalidate p s1 | 4 => execRangeWriteBack p s1
      | 5 => execGenerationBump p s1 | 6 => execFillGo p s1 | 7 => execFillFail p s1 | 8 => execEndLaunch p s1
      | 9 => execClearTimelineError p s1 | 10 => execPartitionSwapOut p s1 | 11 => execPartitionSwapIn p s1
      | _ => execPgcmdUnknown p s1)

/-- Serve the request of a mailbox window by its command (R507). -/
def serveMailbox (s : State) (fn : Nat) : State :=
  goOn s (match bits (mbArg s fn 0) 7 0 with
    | 1 => execReadIdentity fn s | 2 => execAttest fn s | 3 => execSetQuadMap fn s | 4 => execSetContexts fn s
    | 5 => execAllocateAsid fn s | 6 => execFreeAsid fn s | 7 => execSetPageTableRoot fn s | 8 => execUpdateStage fn s
    | 9 => execUpdateCommit fn s | _ => execMailboxUnknown fn s)

/-- A doubleword of the mailbox window is written: request words, and the submission (R507). -/
def writeMailbox (s : State) (fn word : Nat) (v : BitVec 64) : State :=
  if word < 8 then modMailbox s fn fun m => { m with request := m.request.set word v }
  else if word = 8 ∧ v = 1 ∧ !(mailboxOf s fn).pending then
    serveMailbox (modMailbox s fn fun m => { m with pending := true }) fn
  else s

/-- Word 0 of a peer-table entry is written; V with no port is ignored (R504). -/
def writePeer (s : State) (p : Nat) (v : BitVec 64) : State :=
  if p < 255 ∧ !(v.getLsbD 0 && bits v 16 1 == 0) then
    { s with peers := s.peers.put p ⟨v.extractLsb' 32 32, v.extractLsb' 1 16, v.getLsbD 0⟩ }
  else s

/-- Offset 0x10 of the trace unit (R530): TSZ and SP keep their values while a session is open; a partition without a live
Sextant context opens none. -/
def writeTraceControl (s : State) (p : Nat) (v : BitVec 64) : State :=
  let sp := bits v 24 20
  let sz := bits v 4 0
  let u := (s.part p).trace
  let s1 := modTrace s p fun u =>
    { u with smp := v.getLsbD 16, sp := if u.opened ∨ sp < 8 ∨ 24 < sp then u.sp else sp
             tsz := if u.opened ∨ sz < 10 ∨ 20 < sz then u.tsz else sz }
  if v.getLsbD 8 && !u.opened then goOn s1 (execTraceSessionOpen p s1)
  else if !v.getLsbD 8 && u.opened then goOn s1 (execTraceSessionClose p s1)
  else drainHeld s1 p

def writeTraceUnit (s : State) (p off : Nat) (v : BitVec 64) : State :=
  match off with
  | 0x00 => modTrace s p fun u => { u with tqmask := v }
  | 0x08 => modTrace s p fun u => if u.opened then u else { u with tbase := v }
  | 0x10 => writeTraceControl s p v
  | 0x18 => goOn s (execTraceRingHeadWrite p v s)
  | 0x20 => modTrace s p fun u => { u with tdrop := 0 }
  | _ => s

/-- CSRs 0x100-0x11F (R459). -/
def writeSchedulingCsr (s : State) (p n : Nat) (v : BitVec 64) : State :=
  let i := (s.part p).qsel
  match n with
  | 0x100 => goOn s (execBinderModeWrite p v s)
  | 0x101 => goOn s (execGeneratorReserveWrite p v s)
  | 0x102 => s.modPart p fun x => { x with brbase := v }
  | 0x103 => goOn s (execBindRingWrite p (bits v 6 0) s)
  | 0x104 => s.modPart p fun x => { x with resexp := if bits v 15 0 = 0 then x.resexp else bits v 15 0 }
  | 0x105 => s.modPart p fun x => { x with evbase := v }
  | 0x106 => goOn s (execEventRingHeadWrite p v s)
  | 0x107 => s.modPart p fun x => { x with qsel := bits v 5 0 }
  | 0x108 => modQueue s p i fun x => if x.en then x else { x with base := v }
  | 0x109 => writeQueueControl s p v
  | 0x10B => goOn s (execQtailWrite p i v s)
  | 0x10C => s.modPart p fun x => { x with svbase := v }
  | 0x10D => writeServiceHead s p v
  | 0x10E => s.modPart p fun x => { x with svval := v }
  | 0x10F => goOn s (execServiceAnswer p (bits v 7 0) s)
  | _ => s

/-- CSRs 0x180-0x19F (R478). -/
def writePagerCsr (s : State) (p n : Nat) (v : BitVec 64) : State :=
  match n with
  | 0x180 => s.modPart p fun x => { x with fqbase := v }
  | 0x181 => goOn s (execFaultQueueHeadWrite p v s)
  | 0x182 => s.modPart p fun x => { x with fqdrop := 0 }
  | 0x183 => s.modPart p fun x => { x with prhost := v.getLsbD 2, flhost := v.getLsbD 1, pghost := v.getLsbD 0 }
  | 0x185 => startCommand s p (bits v 7 0)
  | 0x186 | 0x187 | 0x188 => s.modPart p fun x => { x with pgarg := x.pgarg.set (n - 0x186) v }
  | 0x18A => goOn s (execCsmDivisionWrite p v s)
  | 0x18B => s.modPart p fun x => { x with shbw := bits v 15 0 }
  | 0x18D => preempt s p v
  | 0x18F => s.modPart p fun x => { x with rgsel := bits v 5 0 }
  | 0x190 => goOn s (if v = 0 then execRegionUnregister p s else execRegionRegister p v s)
  | 0x191 => modRegion s p (s.part p).rgsel fun r => { r with overCnt := 0 }
  | _ => s

/-- The operator sets the module's power limit, 1,500 to 2,400 W (R5); any other value leaves it as it is. -/
def writePowerLimit (s : State) (v : BitVec 64) : State :=
  if 1500 ≤ v.toNat ∧ v.toNat ≤ 2400 then { s with powerLimit := v.toNat } else s

/-- R459: a write by the management side; what no register takes is ignored. -/
def execRegisterWrite (part csr : Nat) (value : BitVec 64) (s : State) : Out :=
  .next (
    if 0x1000 ≤ csr then (if part < 8 then writeTraceUnit s part (csr - 0x1000) value else s)
    else if 0x400 ≤ csr ∧ csr < 0x5FE then
      (if 8 ≤ part ∧ csr % 2 = 0 then writePeer s ((csr - 0x400) / 2) value else s)
    else if 0x200 ≤ csr ∧ csr < 0x280 then writeMailbox s (windowOf part) (csr - 0x200) value
    else if csr = 0x300 then (if 8 ≤ part then writePowerLimit s value else s)
    else if 8 ≤ part then s
    else if 0x180 ≤ csr ∧ csr < 0x1A0 then writePagerCsr s part csr value
    else if 0x100 ≤ csr ∧ csr < 0x120 then writeSchedulingCsr s part csr value
    else s)

/-- What a management-side read of a privileged CSR gives; what is not assigned, or write-only, reads zero (R459, R478). -/
def csrRead (s : State) (p n : Nat) : BitVec 64 :=
  let x := s.part p
  let u := launchQueue s p x.qsel
  let flag (b : Bool) (i : Nat) : Nat := if b then 2 ^ i else 0
  let r := region? s p x.rgsel
  match n with
  | 0x100 => q (x.mode.toNat + flag x.svch 2)
  | 0x101 => q (x.gcore + 2 ^ 8 * x.gslot)
  | 0x102 => x.brbase
  | 0x103 => q (x.brtail + 2 ^ 8 * x.brhead)
  | 0x104 => q x.resexp
  | 0x105 => x.evbase
  | 0x106 => q (x.evhead + 2 ^ 16 * x.evtail)
  | 0x107 => q x.qsel
  | 0x108 => u.base
  | 0x109 => q (u.sz + 2 ^ 7 * u.pcap + flag u.en 10 + flag u.err 12 + 2 ^ 16 * u.asid)
  | 0x10A => u.head.zeroExtend 64
  | 0x10B => u.tail.zeroExtend 64
  | 0x10C => x.svbase
  | 0x10D => q (x.svhead + 2 ^ 16 * x.svtail)
  | 0x10E => x.svval
  | 0x180 => x.fqbase
  | 0x181 => q (x.fqhead + 2 ^ 16 * x.fqtail)
  | 0x182 => x.fqdrop.zeroExtend 64
  | 0x183 => q (flag x.pghost 0 + flag x.flhost 1 + flag x.prhost 2)
  | 0x184 => s.atBase
  | 0x186 | 0x187 | 0x188 => x.pgarg.getD (n - 0x186) 0
  | 0x189 => q (flag x.pgbusy 0 + 2 ^ 8 * x.pgerr)
  | 0x18A => q (x.winways + 2 ^ 16 * x.shways)
  | 0x18B => q x.shbw
  | 0x18C => q (x.ctxbase + 2 ^ 16 * x.ctxcnt)
  | 0x18E => q (flag (preBusy s p) 0 + 2 * x.propt.toNat + flag x.prmet 3)
  | 0x18F => q x.rgsel
  | 0x190 => x.rgdesc.get 0 x.rgsel
  | 0x191 => q ((match r with | some r => r.overCnt.toNat | none => 0) + flag x.rgref 63)
  | _ => 0

/-- What a read of the trace unit at an offset gives; an offset not listed reads zero (R530). -/
def traceRead (s : State) (p off : Nat) : BitVec 64 :=
  let u := (s.part p).trace
  let flag (b : Bool) (i : Nat) : Nat := if b then 2 ^ i else 0
  match off with
  | 0x00 => u.tqmask
  | 0x08 => u.tbase
  | 0x10 => q (u.tsz + flag u.opened 8 + flag u.smp 16 + 2 ^ 20 * u.sp)
  | 0x18 => q (u.thead + 2 ^ 24 * u.ttail)
  | 0x20 => u.tdrop.zeroExtend 64
  | 0x28 => u.tseq.zeroExtend 64
  | _ => 0

/-- What a read of the module's health block at an offset gives (R536). -/
def healthRead (s : State) (off : Nat) : BitVec 64 :=
  let h := s.health
  if 0x100 ≤ off ∧ off < 0x400 ∧ off % 8 = 0 then (h.corr.get 0 ((off - 0x100) / 8)).zeroExtend 64
  else
    match off with
    | 0x00 => q (h.spq + if h.sxsp then 2 ^ 8 else 0)
    | 0x08 => h.ret1.zeroExtend 64
    | 0x10 => h.ret2.zeroExtend 64
    | 0x18 => h.uncor.zeroExtend 64
    | 0x20 => h.qfail.zeroExtend 64
    | 0x28 => h.detour.zeroExtend 64
    | 0x30 => h.engmv.zeroExtend 64
    | 0x38 => h.jif.zeroExtend 64
    | _ => 0

/-- What a host read of a function's BAR0 gives, by offset: a partition's registers, the mailbox, and the peer table of
function 0 (R501, R504, R507). -/
def bar0Read (s : State) (fn off : Nat) : BitVec 64 :=
  let m := mailboxOf s fn
  if off % 8 ≠ 0 then 0
  else if fn ≠ 0 ∧ 0x0800 ≤ off ∧ off < 0x1000 then csrRead s (fn - 1) (off / 8)
  else if 0x1000 ≤ off ∧ off < 0x1040 then m.request.getD ((off - 0x1000) / 8) 0
  else if off = 0x1048 then q ((if m.pending then 1 else 0) + if m.pending then 0 else 2 ^ 8 * m.status)
  else if 0x1100 ≤ off ∧ off < 0x1240 then q (ofBytes ((m.response.drop (off - 0x1100)).take 8))
  else if fn = 0 ∧ 0x2000 ≤ off ∧ off < 0x2FF0 ∧ off % 16 = 0 then
    let e := s.peers.get .init ((off - 0x2000) / 16)
    q ((if e.valid then 1 else 0) + 2 * e.ports.toNat + 2 ^ 32 * e.rdev.toNat)
  else 0

/-- What a host read of a partition's doorbell of a queue gives: QHEAD (R501). -/
def doorbellRead (s : State) (p queue : Nat) : BitVec 64 := (launchQueue s p queue).head.zeroExtend 64

/-! ### Decoding (R243, R262) -/

/-- The common bits that decide who executes, of words that no instruction has (R248). -/
def rawHead (w0 : BitVec 32) : Head := ⟨.b32, w0.getLsbD 12, w0.extractLsb' 8 4⟩

/-- How E and the guard decide who executes a word, by its opcode (R33, R34, R131, R345). -/
def rawWho (op : Nat) : Who :=
  if [0x01, 0x02, 0x03, 0x04, 0x06].contains op then .guarded
  else if 0x66 ≤ op ∧ op ≤ 0x69 then .all
  else if 0xB0 ≤ op ∧ op ≤ 0xB5 then .matrix
  else .normal

/-- R262: words that no instruction has raise trap 0x01 where they are executed; the others only advance. -/
def execIllegalInstruction (w0 w1 : BitVec 32) (s : State) : Out :=
  .next (
    match s.cur.bind fun g => (s.waveBlock? g.wave).map fun b => (g, b) with
    | none => s
    | some (g, b) =>
      let ts := groupThreads s g
      let go (t : TRef) : Bool := executes s b (rawHead w0) (rawWho (bits w0 7 0)) t
      let s1 := (ts.filter fun t => !go t).foldl advance s
      let x : Trap := ⟨0x01, w0.zeroExtend 64, w1.zeroExtend 64, false, 0⟩
      (ts.filter go).foldl (fun s t => trapAt s t x) s1)

/-- R243: the line's base address and the checks it failed, at the slot each thread entered. -/
def execIllegalLine (failed : BitVec 6) (s : State) : Out :=
  .next (
    match s.cur with
    | none => s
    | some g =>
      let x : Trap := ⟨0x02, q (g.pc.toNat / 64 * 64), failed.zeroExtend 64, false, 0⟩
      (groupThreads s g).foldl (fun s t => trapAt s t x) s)

end Sys2Proof.Machine
end

