-- ==== Sys2Proof/Machine/Dispatch.lean ====
section
/-! DEFINITION. The meaning of every operation and event, one arm per constructor. -/

namespace Sys2Proof.Machine

def exec (i : Instr) (s : State) : Host.Outcome State Fault Refusal :=
  match i with
  | .nop f => Sys2Proof.Machine.execNop f s
  | .bra f => Sys2Proof.Machine.execBra f s
  | .brx f => Sys2Proof.Machine.execBrx f s
  | .call f => Sys2Proof.Machine.execCall f s
  | .ret f => Sys2Proof.Machine.execRet f s
  | .callsh f => Sys2Proof.Machine.execCallsh f s
  | .exit f => Sys2Proof.Machine.execExit f s
  | .yield f => Sys2Proof.Machine.execYield f s
  | .sleep f => Sys2Proof.Machine.execSleep f s
  | .waitc f => Sys2Proof.Machine.execWaitc f s
  | .trap f => Sys2Proof.Machine.execTrap f s
  | .brk f => Sys2Proof.Machine.execBrk f s
  | .ubra f => Sys2Proof.Machine.execUbra f s
  | .join f => Sys2Proof.Machine.execJoin f s
  | .iadd f => Sys2Proof.Machine.execIadd f s
  | .isub f => Sys2Proof.Machine.execIsub f s
  | .imul f => Sys2Proof.Machine.execImul f s
  | .imulhi f => Sys2Proof.Machine.execImulhi f s
  | .imad f => Sys2Proof.Machine.execImad f s
  | .imadw f => Sys2Proof.Machine.execImadw f s
  | .imin f => Sys2Proof.Machine.execImin f s
  | .imax f => Sys2Proof.Machine.execImax f s
  | .iabsd f => Sys2Proof.Machine.execIabsd f s
  | .idot4 f => Sys2Proof.Machine.execIdot4 f s
  | .icmp f => Sys2Proof.Machine.execIcmp f s
  | .isel f => Sys2Proof.Machine.execIsel f s
  | .lea f => Sys2Proof.Machine.execLea f s
  | .iaddc f => Sys2Proof.Machine.execIaddc f s
  | .movImmediate f => Sys2Proof.Machine.execMovImmediate f s
  | .movRegister f => Sys2Proof.Machine.execMovRegister f s
  | .movk f => Sys2Proof.Machine.execMovk f s
  | .andd f => Sys2Proof.Machine.execAndd f s
  | .orr f => Sys2Proof.Machine.execOrr f s
  | .xorr f => Sys2Proof.Machine.execXorr f s
  | .andn f => Sys2Proof.Machine.execAndn f s
  | .shl f => Sys2Proof.Machine.execShl f s
  | .shr f => Sys2Proof.Machine.execShr f s
  | .sar f => Sys2Proof.Machine.execSar f s
  | .rotl f => Sys2Proof.Machine.execRotl f s
  | .bfx f => Sys2Proof.Machine.execBfx f s
  | .bfi f => Sys2Proof.Machine.execBfi f s
  | .popc f => Sys2Proof.Machine.execPopc f s
  | .clz f => Sys2Proof.Machine.execClz f s
  | .brev f => Sys2Proof.Machine.execBrev f s
  | .ffs f => Sys2Proof.Machine.execFfs f s
  | .prmb f => Sys2Proof.Machine.execPrmb f s
  | .mix32 f => Sys2Proof.Machine.execMix32 f s
  | .fadd f => Sys2Proof.Machine.execFadd f s
  | .fsub f => Sys2Proof.Machine.execFsub f s
  | .fmul f => Sys2Proof.Machine.execFmul f s
  | .ffma f => Sys2Proof.Machine.execFfma f s
  | .fmin f => Sys2Proof.Machine.execFmin f s
  | .fmax f => Sys2Proof.Machine.execFmax f s
  | .fdiv f => Sys2Proof.Machine.execFdiv f s
  | .fsqrt f => Sys2Proof.Machine.execFsqrt f s
  | .frcp f => Sys2Proof.Machine.execFrcp f s
  | .frsq f => Sys2Proof.Machine.execFrsq f s
  | .fexp2 f => Sys2Proof.Machine.execFexp2 f s
  | .flog2 f => Sys2Proof.Machine.execFlog2 f s
  | .fsin f => Sys2Proof.Machine.execFsin f s
  | .fcos f => Sys2Proof.Machine.execFcos f s
  | .ffract f => Sys2Proof.Machine.execFfract f s
  | .frnd f => Sys2Proof.Machine.execFrnd f s
  | .fcmp f => Sys2Proof.Machine.execFcmp f s
  | .fclass f => Sys2Proof.Machine.execFclass f s
  | .cvtf f => Sys2Proof.Machine.execCvtf f s
  | .cvtfi f => Sys2Proof.Machine.execCvtfi f s
  | .cvtif f => Sys2Proof.Machine.execCvtif f s
  | .cvtbfp f => Sys2Proof.Machine.execCvtbfp f s
  | .bfpexp f => Sys2Proof.Machine.execBfpexp f s
  | .pack f => Sys2Proof.Machine.execPack f s
  | .unpack f => Sys2Proof.Machine.execUnpack f s
  | .frmset f => Sys2Proof.Machine.execFrmset f s
  | .fflags f => Sys2Proof.Machine.execFflags f s
  | .srseed f => Sys2Proof.Machine.execSrseed f s
  | .ivadd f => Sys2Proof.Machine.execIvadd f s
  | .ivsub f => Sys2Proof.Machine.execIvsub f s
  | .ivmul f => Sys2Proof.Machine.execIvmul f s
  | .ivsqr f => Sys2Proof.Machine.execIvsqr f s
  | .ivsqrt f => Sys2Proof.Machine.execIvsqrt f s
  | .ivmin f => Sys2Proof.Machine.execIvmin f s
  | .ivmax f => Sys2Proof.Machine.execIvmax f s
  | .ivabs f => Sys2Proof.Machine.execIvabs f s
  | .ivhyp f => Sys2Proof.Machine.execIvhyp f s
  | .ivtest f => Sys2Proof.Machine.execIvtest f s
  | .afadd f => Sys2Proof.Machine.execAfadd f s
  | .afmul f => Sys2Proof.Machine.execAfmul f s
  | .afsqr f => Sys2Proof.Machine.execAfsqr f s
  | .afsqrt f => Sys2Proof.Machine.execAfsqrt f s
  | .afabs f => Sys2Proof.Machine.execAfabs f s
  | .aftoiv f => Sys2Proof.Machine.execAftoiv f s
  | .shfl f => Sys2Proof.Machine.execShfl f s
  | .ballot f => Sys2Proof.Machine.execBallot f s
  | .vote f => Sys2Proof.Machine.execVote f s
  | .scan f => Sys2Proof.Machine.execScan f s
  | .redx f => Sys2Proof.Machine.execRedx f s
  | .matchx f => Sys2Proof.Machine.execMatchx f s
  | .msksave f => Sys2Proof.Machine.execMsksave f s
  | .mskand f => Sys2Proof.Machine.execMskand f s
  | .mskrest f => Sys2Proof.Machine.execMskrest f s
  | .mskelse f => Sys2Proof.Machine.execMskelse f s
  | .xacq f => Sys2Proof.Machine.execXacq f s
  | .xrel f => Sys2Proof.Machine.execXrel f s
  | .wsync f => Sys2Proof.Machine.execWsync f s
  | .ld f => Sys2Proof.Machine.execLd f s
  | .st f => Sys2Proof.Machine.execSt f s
  | .ldl f => Sys2Proof.Machine.execLdl f s
  | .stl f => Sys2Proof.Machine.execStl f s
  | .ldc f => Sys2Proof.Machine.execLdc f s
  | .prf f => Sys2Proof.Machine.execPrf f s
  | .ldt f => Sys2Proof.Machine.execLdt f s
  | .stt f => Sys2Proof.Machine.execStt f s
  | .fence f => Sys2Proof.Machine.execFence f s
  | .pfence f => Sys2Proof.Machine.execPfence f s
  | .ifence f => Sys2Proof.Machine.execIfence f s
  | .wb f => Sys2Proof.Machine.execWb f s
  | .inv f => Sys2Proof.Machine.execInv f s
  | .wayset f => Sys2Proof.Machine.execWayset f s
  | .atom f => Sys2Proof.Machine.execAtom f s
  | .red f => Sys2Proof.Machine.execRed f s
  | .cas f => Sys2Proof.Machine.execCas f s
  | .atoml f => Sys2Proof.Machine.execAtoml f s
  | .casl f => Sys2Proof.Machine.execCasl f s
  | .bupd f => Sys2Proof.Machine.execBupd f s
  | .bred f => Sys2Proof.Machine.execBred f s
  | .aflush f => Sys2Proof.Machine.execAflush f s
  | .bar f => Sys2Proof.Machine.execBar f s
  | .barr f => Sys2Proof.Machine.execBarr f s
  | .barw f => Sys2Proof.Machine.execBarw f s
  | .cbar f => Sys2Proof.Machine.execCbar f s
  | .gbar f => Sys2Proof.Machine.execGbar f s
  | .larr f => Sys2Proof.Machine.execLarr f s
  | .tlwait f => Sys2Proof.Machine.execTlwait f s
  | .tlread f => Sys2Proof.Machine.execTlread f s
  | .cnwait f => Sys2Proof.Machine.execCnwait f s
  | .boinit f => Sys2Proof.Machine.execBoinit f s
  | .bowait f => Sys2Proof.Machine.execBowait f s
  | .msgsend f => Sys2Proof.Machine.execMsgsend f s
  | .msgpost f => Sys2Proof.Machine.execMsgpost f s
  | .rgnb f => Sys2Proof.Machine.execRgnb f s
  | .kick f => Sys2Proof.Machine.execKick f s
  | .cbinit f => Sys2Proof.Machine.execCbinit f s
  | .cbpushReserve f => Sys2Proof.Machine.execCbpushReserve f s
  | .cbpushCommit f => Sys2Proof.Machine.execCbpushCommit f s
  | .cbpop f => Sys2Proof.Machine.execCbpop f s
  | .cbpopTry f => Sys2Proof.Machine.execCbpopTry f s
  | .cbrel f => Sys2Proof.Machine.execCbrel f s
  | .cbstat f => Sys2Proof.Machine.execCbstat f s
  | .cpcancel f => Sys2Proof.Machine.execCpcancel f s
  | .tlsig f => Sys2Proof.Machine.execTlsig f s
  | .ctxsel f => Sys2Proof.Machine.execCtxsel f s
  | .mxwld f => Sys2Proof.Machine.execMxwld f s
  | .mxwsw f => Sys2Proof.Machine.execMxwsw f s
  | .mxmul f => Sys2Proof.Machine.execMxmul f s
  | .mxzero f => Sys2Proof.Machine.execMxzero f s
  | .mxdrn f => Sys2Proof.Machine.execMxdrn f s
  | .mxperm f => Sys2Proof.Machine.execMxperm f s
  | .cvset f => Sys2Proof.Machine.execCvset f s
  | .cvstat f => Sys2Proof.Machine.execCvstat f s
  | .freeze f => Sys2Proof.Machine.execFreeze f s
  | .nest f => Sys2Proof.Machine.execNest f s
  | .fillend f => Sys2Proof.Machine.execFillend f s
  | .fillq f => Sys2Proof.Machine.execFillq f s
  | .filld f => Sys2Proof.Machine.execFilld f s
  | .phase f => Sys2Proof.Machine.execPhase f s
  | .tex f => Sys2Proof.Machine.execTex f s
  | .texg f => Sys2Proof.Machine.execTexg f s
  | .brick f => Sys2Proof.Machine.execBrick f s
  | .texq f => Sys2Proof.Machine.execTexq f s
  | .rtw f => Sys2Proof.Machine.execRtw f s
  | .zt f => Sys2Proof.Machine.execZt f s
  | .covq f => Sys2Proof.Machine.execCovq f s
  | .vbw f => Sys2Proof.Machine.execVbw f s
  | .emit f => Sys2Proof.Machine.execEmit f s
  | .taskpop f => Sys2Proof.Machine.execTaskpop f s
  | .taskpopTry f => Sys2Proof.Machine.execTaskpopTry f s
  | .march f => Sys2Proof.Machine.execMarch f s
  | .mhit f => Sys2Proof.Machine.execMhit f s
  | .mhitCo f => Sys2Proof.Machine.execMhitCo f s
  | .bcprune f => Sys2Proof.Machine.execBcprune f s
  | .opqret f => Sys2Proof.Machine.execOpqret f s
  | .trace f => Sys2Proof.Machine.execTrace f s
  | .thit f => Sys2Proof.Machine.execThit f s
  | .thitRay f => Sys2Proof.Machine.execThitRay f s
  | .tstack f => Sys2Proof.Machine.execTstack f s
  | .beam f => Sys2Proof.Machine.execBeam f s
  | .csrr f => Sys2Proof.Machine.execCsrr f s
  | .csrw f => Sys2Proof.Machine.execCsrw f s
  | .tret f => Sys2Proof.Machine.execTret f s
  | .svc f => Sys2Proof.Machine.execSvc f s
  | .trc f => Sys2Proof.Machine.execTrc f s
  | .starvedIssue ls => Sys2Proof.Machine.execStarvedIssue ls s
  | .ageingBonus wave => Sys2Proof.Machine.execAgeingBonus wave s
  | .joinTimeout wave lane => Sys2Proof.Machine.execJoinTimeout wave lane s
  | .sleepExpire wave lane => Sys2Proof.Machine.execSleepExpire wave lane s
  | .waitcTimeout wave lane => Sys2Proof.Machine.execWaitcTimeout wave lane s
  | .waitcWake wave lane => Sys2Proof.Machine.execWaitcWake wave lane s
  | .extensionBlockGrant ls => Sys2Proof.Machine.execExtensionBlockGrant ls s
  | .implicitAcquire wave => Sys2Proof.Machine.execImplicitAcquire wave s
  | .loadComplete n => Sys2Proof.Machine.execLoadComplete n s
  | .storePerformed n => Sys2Proof.Machine.execStorePerformed n s
  | .counterRoom wave lane => Sys2Proof.Machine.execCounterRoom wave lane s
  | .trackerEntryFree core tracker => Sys2Proof.Machine.execTrackerEntryFree core tracker s
  | .homeBankWriteJudged n => Sys2Proof.Machine.execHomeBankWriteJudged n s
  | .csmLineToDram n => Sys2Proof.Machine.execCsmLineToDram n s
  | .matrixStateClear core => Sys2Proof.Machine.execMatrixStateClear core s
  | .matrixHolderFree core => Sys2Proof.Machine.execMatrixHolderFree core s
  | .matrixQueueRoom core arr => Sys2Proof.Machine.execMatrixQueueRoom core arr s
  | .matrixOperationStart core arr => Sys2Proof.Machine.execMatrixOperationStart core arr s
  | .matrixOperationComplete core arr => Sys2Proof.Machine.execMatrixOperationComplete core arr s
  | .drainRow core arr => Sys2Proof.Machine.execDrainRow core arr s
  | .matrixTrapDelivery wave lane => Sys2Proof.Machine.execMatrixTrapDelivery wave lane s
  | .stampItem wave lane => Sys2Proof.Machine.execStampItem wave lane s
  | .templateBankEntryFree core => Sys2Proof.Machine.execTemplateBankEntryFree core s
  | .generatorBind part => Sys2Proof.Machine.execGeneratorBind part s
  | .fillTimeout gen => Sys2Proof.Machine.execFillTimeout gen s
  | .generatorMatrixPreempt part => Sys2Proof.Machine.execGeneratorMatrixPreempt part s
  | .copyRequestStart ctx => Sys2Proof.Machine.execCopyRequestStart ctx s
  | .copyPieceWritten ctx => Sys2Proof.Machine.execCopyPieceWritten ctx s
  | .copyRequestRetire ctx => Sys2Proof.Machine.execCopyRequestRetire ctx s
  | .marchStop wave lane => Sys2Proof.Machine.execMarchStop wave lane s
  | .traversalStop wave lane => Sys2Proof.Machine.execTraversalStop wave lane s
  | .beamComplete quad => Sys2Proof.Machine.execBeamComplete quad s
  | .beamQueueRetryExpire quad => Sys2Proof.Machine.execBeamQueueRetryExpire quad s
  | .messageArrival core => Sys2Proof.Machine.execMessageArrival core s
  | .peerAccessTimeout n => Sys2Proof.Machine.execPeerAccessTimeout n s
  | .qtailWrite part q value => Sys2Proof.Machine.execQtailWrite part q value s
  | .queueReset part q => Sys2Proof.Machine.execQueueReset part q s
  | .launchSubmit part q => Sys2Proof.Machine.execLaunchSubmit part q s
  | .launchAdmit handle => Sys2Proof.Machine.execLaunchAdmit handle s
  | .bindRingWrite part tail => Sys2Proof.Machine.execBindRingWrite part tail s
  | .bindReserve part => Sys2Proof.Machine.execBindReserve part s
  | .bindCommit part => Sys2Proof.Machine.execBindCommit part s
  | .bindAbandon part => Sys2Proof.Machine.execBindAbandon part s
  | .bindRecordMalformed part => Sys2Proof.Machine.execBindRecordMalformed part s
  | .reservationLapse n => Sys2Proof.Machine.execReservationLapse n s
  | .binderModeWrite part value => Sys2Proof.Machine.execBinderModeWrite part value s
  | .generatorReserveWrite part value => Sys2Proof.Machine.execGeneratorReserveWrite part value s
  | .reserveSlotChange part core slot => Sys2Proof.Machine.execReserveSlotChange part core slot s
  | .serviceAnswer part n => Sys2Proof.Machine.execServiceAnswer part n s
  | .faultRecordWrite part => Sys2Proof.Machine.execFaultRecordWrite part s
  | .csmDivisionWrite part value => Sys2Proof.Machine.execCsmDivisionWrite part value s
  | .replay part => Sys2Proof.Machine.execReplay part s
  | .unresolvable part => Sys2Proof.Machine.execUnresolvable part s
  | .tlbInvalidate part => Sys2Proof.Machine.execTlbInvalidate part s
  | .rangeWriteBack part => Sys2Proof.Machine.execRangeWriteBack part s
  | .generationBump part => Sys2Proof.Machine.execGenerationBump part s
  | .fillGo part => Sys2Proof.Machine.execFillGo part s
  | .fillFail part => Sys2Proof.Machine.execFillFail part s
  | .endLaunch part => Sys2Proof.Machine.execEndLaunch part s
  | .clearTimelineError part => Sys2Proof.Machine.execClearTimelineError part s
  | .partitionSwapOut part => Sys2Proof.Machine.execPartitionSwapOut part s
  | .partitionSwapIn part => Sys2Proof.Machine.execPartitionSwapIn part s
  | .pgcmdUnknown part => Sys2Proof.Machine.execPgcmdUnknown part s
  | .regionRegister part va => Sys2Proof.Machine.execRegionRegister part va s
  | .regionUnregister part => Sys2Proof.Machine.execRegionUnregister part s
  | .preemptAutomatic part value => Sys2Proof.Machine.execPreemptAutomatic part value s
  | .preemptDrain part value => Sys2Proof.Machine.execPreemptDrain part value s
  | .preemptSave part value => Sys2Proof.Machine.execPreemptSave part value s
  | .preemptFlush part value => Sys2Proof.Machine.execPreemptFlush part value s
  | .haltComplete n => Sys2Proof.Machine.execHaltComplete n s
  | .restore n => Sys2Proof.Machine.execRestore n s
  | .readIdentity fn => Sys2Proof.Machine.execReadIdentity fn s
  | .attest fn => Sys2Proof.Machine.execAttest fn s
  | .setQuadMap fn => Sys2Proof.Machine.execSetQuadMap fn s
  | .setContexts fn => Sys2Proof.Machine.execSetContexts fn s
  | .allocateAsid fn => Sys2Proof.Machine.execAllocateAsid fn s
  | .freeAsid fn => Sys2Proof.Machine.execFreeAsid fn s
  | .setPageTableRoot fn => Sys2Proof.Machine.execSetPageTableRoot fn s
  | .updateStage fn => Sys2Proof.Machine.execUpdateStage fn s
  | .updateCommit fn => Sys2Proof.Machine.execUpdateCommit fn s
  | .mailboxUnknown fn => Sys2Proof.Machine.execMailboxUnknown fn s
  | .boot => Sys2Proof.Machine.execBoot s
  | .ptmExchange host => Sys2Proof.Machine.execPtmExchange host s
  | .linkStateChange up => Sys2Proof.Machine.execLinkStateChange up s
  | .hostCxlWrite pa data mask => Sys2Proof.Machine.execHostCxlWrite pa data mask s
  | .clockStepDown => Sys2Proof.Machine.execClockStepDown s
  | .clockStepUp => Sys2Proof.Machine.execClockStepUp s
  | .heartbeatCheck => Sys2Proof.Machine.execHeartbeatCheck s
  | .quadFailure quad bad => Sys2Proof.Machine.execQuadFailure quad bad s
  | .routerFailure quad => Sys2Proof.Machine.execRouterFailure quad s
  | .copyEngineFailure engine target => Sys2Proof.Machine.execCopyEngineFailure engine target s
  | .linkFlitResend link => Sys2Proof.Machine.execLinkFlitResend link s
  | .channelRetirement tier channel => Sys2Proof.Machine.execChannelRetirement tier channel s
  | .backgroundScrub pa => Sys2Proof.Machine.execBackgroundScrub pa s
  | .traceSessionOpen part => Sys2Proof.Machine.execTraceSessionOpen part s
  | .traceSessionClose part => Sys2Proof.Machine.execTraceSessionClose part s
  | .memorySample core => Sys2Proof.Machine.execMemorySample core s
  | .registerWrite part csr value => Sys2Proof.Machine.execRegisterWrite part csr value s
  | .illegalInstruction w0 w1 => Sys2Proof.Machine.execIllegalInstruction w0 w1 s
  | .illegalLine failed => Sys2Proof.Machine.execIllegalLine failed s
  | .faultQueueHeadWrite part value => Sys2Proof.Machine.execFaultQueueHeadWrite part value s
  | .eventRingHeadWrite part value => Sys2Proof.Machine.execEventRingHeadWrite part value s
  | .traceRingHeadWrite part value => Sys2Proof.Machine.execTraceRingHeadWrite part value s
  | .asterismPortFailure port => Sys2Proof.Machine.execAsterismPortFailure port s
  | .peerAccessRequest pa write data => Sys2Proof.Machine.execPeerAccessRequest pa write data s
  | .cxlCacheSnoop pa => Sys2Proof.Machine.execCxlCacheSnoop pa s
  | .arbiterBackoffExpiry n => Sys2Proof.Machine.execArbiterBackoffExpiry n s
  | .arbiterAgeing handle => Sys2Proof.Machine.execArbiterAgeing handle s
  | .virtualCoreAlternation part vcore => Sys2Proof.Machine.execVirtualCoreAlternation part vcore s

end Sys2Proof.Machine
end

