-- ==== Sys2Proof/Machine/Schedule.lean ====
section
/-! DEFINITION. Who moves next: readiness and the choice of a fetch group (R20-R23), the fetch and issue of its slot or
pair (R243-R247), the events that have come due, the events that may happen at any time, and the end of a cycle. -/

namespace Sys2Proof.Machine

/-- Go on from the next state of an outcome. -/
def andThen (o : Out) (f : State → Out) : Out :=
  match o with
  | .next s => f s
  | .fault r => .fault r
  | .refused r => .refused r

/-! ### Readiness (R20) -/

/-- The code line a thread stands in, when its core's instruction lines hold it. -/
def cachedCode (s : State) (t : TRef) : Option (BitVec 512) :=
  let r := fetchReq s t
  let base := (s.thread t).pc.toNat / 64 * 64
  ((lines s r.core .icache).find? fun l => l.is r.asid r.agen base none).map fun l => l.val.extractLsb' 0 512

/-- The instructions a thread issues next: one, or the two of a pair. -/
def upcoming (s : State) (t : TRef) : List Instr :=
  match cachedCode s t with
  | none => []
  | some c =>
    let j := slotOf (s.thread t).pc.toNat
    (decodeFields (slotBits c j)).toList ++ if linePair c j then (decodeFields (slotBits c (j + 1))).toList else []

/-- Registers, as this thread names them, whose load is outstanding. -/
def awaited (s : State) (t : TRef) : List (Nat × Nat) :=
  s.loads.flatMap fun l =>
    if l.t.wave = t.wave ∧ (l.uniform ∨ l.t = t) then l.regs.map fun r => (if l.uniform then 1 else 0, r.1) else []

/-- Registers of other lanes that an instruction reads through the crossbar, `shfl` by a lane number, or `tex` as the
partners of its derivatives (R409): the value after that thread's last issued write, so a load issued there has written
(R27; assumption 28). -/
def otherRegs (s : State) (t : TRef) (i : Instr) : List (TRef × Nat) :=
  let crossed := i.uses.srcs.flatMap fun u =>
    match u.s.file, xbar u.s.perm u.s.param.toNat t.lane with
    | .v, some l => if l = t.lane then [] else (List.range u.n).map fun j => (⟨t.wave, l⟩, u.s.num.toNat + j)
    | _, _ => []
  let partner (f : RForm) (l : Nat) : List (TRef × Nat) :=
    if l = t.lane then [] else [(⟨t.wave, l⟩, f.a.num.toNat), (⟨t.wave, l⟩, f.a.num.toNat + 1)]
  match i with
  | .tex f => crossed ++ [t.lane ||| 1, (t.lane ||| 1) - 1, t.lane ||| 8, (t.lane ||| 8) - 8].flatMap (partner f)
  | .shfl f => crossed ++ (List.range f.h.typ.regs).map fun j => (⟨t.wave, shflLane s t f⟩, f.a.num.toNat + j)
  | _ => crossed

def operandsReady (s : State) (t : TRef) : Bool :=
  match s.loads with
  | [] => true
  | _ =>
    let next := upcoming s t
    let mine := awaited s t
    !(next.flatMap readRegs).any mine.contains &&
      !(next.flatMap (otherRegs s t)).any fun r => (awaited s r.1).contains (0, r.2)

/-- A polling thread stands ready to test again. -/
def unpoll (s : State) (t : TRef) : State :=
  match (s.thread t).wait with
  | some w => if w.polls then s.modThread t fun x => { x with wait := none } else s
  | none => s

/-- Whether the test of a polling thread would now have another outcome than the same wait. -/
def wouldGo (s : State) (t : TRef) : Bool :=
  match upcoming s t with
  | [] => true
  | i :: _ =>
    match exec i { unpoll s t with cur := some ⟨t.wave, 1#32 <<< t.lane, (s.thread t).pc, false⟩ } with
    | .next s1 => (s1.thread t).wait != (s.thread t).wait
    | _ => true

/-- The threads that a `wsync` or a `join` released with a thread and that still stand beside it (R25, R347). -/
def mates (s : State) (t : TRef) : List TRef :=
  let x := s.thread t
  if x.together = 0 then []
  else (waveThreads s t.wave).filter fun u =>
    s.alive u && (s.thread u).pc == x.pc && (s.thread u).together == x.together

/-- R20: the thread is ready. Threads that were released together are ready together, since they issue as one group. -/
def ready (s : State) (t : TRef) : Bool :=
  placed s t && match (s.thread t).wait with
    | none => operandsReady s t && (mates s t).all fun u => (s.thread u).wait.isNone && operandsReady s u
    | some w => w.polls && wouldGo s t

/-! ### The choice of a fetch group (R21-R23) -/

def allThreads (s : State) : List TRef := s.waves.flatMap fun e => waveThreads s e.1

/-- Lane sets with a bound wave, ascending. -/
def laneSets (s : State) : List Nat := ((s.waves.map fun e => waveLaneSet e.1)).eraseDups

def readyThreads (s : State) (w : Nat) : List TRef := (waveThreads s w).filter (ready s)

/-- Waves of a lane set that take part in a cycle (R20). -/
def eligible (s : State) (ls : Nat) : List Nat := (laneSetWaves s ls).filter fun w => readyThreads s w != []

/-- The priority a block's waves are scheduled at: its launch's, or its region's for a generator item (R21, R210). -/
def blockPrio (s : State) (b : Block) : Nat :=
  if b.gen then
    match b.genItem.bind fun g => region? s b.part g.region with
    | some r => r.prio
    | none => 0
  else match s.launch? b.launch with | some l => l.prio | none => 0

/-- R21: priority plus ageing bonus. -/
def effectivePrio (s : State) (w : Nat) : Nat :=
  (match s.waveBlock? w with | some b => blockPrio s b | none => 0) + (s.wave w).bonus

/-- R21: the wave of highest effective priority, then the one chosen longest ago, then the lowest slot. -/
def chooseWave (s : State) (ls : Nat) : Option Nat :=
  let ws := eligible s ls
  let top := maxOf (ws.map (effectivePrio s))
  argMin (fun w => (s.wave w).chosenAt) (ws.filter fun w => effectivePrio s w == top)

/-- Threads by program counter, the groups in order of their lowest lanes. -/
def pcGroups (s : State) (ts : List TRef) : List (List TRef) :=
  ((ts.map fun t => (s.thread t).pc).eraseDups).map fun pc => ts.filter fun t => (s.thread t).pc == pc

def lowestLane (ts : List TRef) : Nat := match ts with | t :: _ => t.lane | [] => 0

/-- R22: the largest group, or in deterministic mode the next one in turn. -/
def chooseGroup (s : State) (w : Nat) : List TRef :=
  let gs := pcGroups s (readyThreads s w)
  let det := match s.waveBlock? w with | some b => b.deterministic | none => false
  if det then
    match (s.wave w).lastLane with
    | some n => (match gs.find? fun g => n < lowestLane g with | some g => g | none => gs.headD [])
    | none => gs.headD []
  else (argMax List.length gs).getD []

/-- A lane set that can issue: it has a ready thread. -/
def canIssue (s : State) (ls : Nat) : Bool := eligible s ls != []

/-- The next lane set of this cycle that can issue. -/
def nextLaneSet (s : State) : Option Nat := (laneSets s).find? fun ls => s.turn ≤ ls && canIssue s ls

def groupOf (s : State) (ts : List TRef) : Issue :=
  match ts with
  | t :: _ => ⟨t.wave, maskOf (ts.map TRef.lane), (s.thread t).pc, false⟩
  | [] => ⟨0, 0, 0, false⟩

def groupRefs (g : Issue) : List TRef := (lanesOf g.lanes).map fun l => ⟨g.wave, l⟩

/-! ### Issue -/

/-- A block's busy cycles, counted once a cycle (R46). -/
def countBusy (s : State) (b : Block) : Block :=
  if b.busyAt ≤ s.cycle then { b with busy := b.busy + 1, busyAt := s.cycle + 1 } else b

/-- What an issue leaves behind before the instruction runs: the lane set's turn, ageing (R21), the wave's last group
(R22), the threads' starvation count (R23), the block's busy time. A starved thread's issue is no choice of its wave. -/
def book (s : State) (g : Issue) (chosen : Bool) : State :=
  let ls := waveLaneSet g.wave
  let age (s : State) (w : Nat) : State := s.modWave w fun x => { x with waited := x.waited + 1 }
  let others := (eligible s ls).filter fun w => !chosen || w != g.wave
  let s1 := others.foldl age s
  let s2 := s1.modWave g.wave fun x =>
    let y := { x with lastLane := some ((lanesOf g.lanes).headD 0) }
    if chosen then { y with bonus := 0, waited := 0, chosenAt := s.cycle + 1 } else y
  let s3 := (groupRefs g).foldl (fun s t => (unpoll s t).modThread t fun x => { x with readyAt := s.cycle + 1 }) s2
  let s4 := match s3.waveBlock? g.wave with | some b => s3.modBlock b.id (countBusy s) | none => s3
  { s4 with turn := ls + 1, forced := none }

/-- The group's threads that still stand at its address. -/
def stillAt (s : State) (g : Issue) : Issue := { g with lanes := maskOf ((groupThreads s g).map TRef.lane) }

/-- A thread whose handler proves no target at its first fetch halts as it would have at the trap (R266). -/
def haltAtHandler (second : BitVec 8) (extra : BitVec 64) (s : State) (t : TRef) : State :=
  let s1 := s.modThread t fun x => { x with tcause := x.tcause &&& 0x7FFFFFFF, handler := none, entry := .none }
  let (s2, effs) := haltThread s1 t (some (trapRecord s1 t second extra))
  effects s2 effs

/-- A failing line (R243): an owed handler check ends its thread, any other thread raises trap 0x02. -/
def enterBadLine (s : State) (g : Issue) (bad : BitVec 6) (c : BitVec 512) : Out :=
  let tgt := lineTgt c (slotOf g.pc.toNat)
  let s1 := (groupThreads s g).foldl (fun s t =>
    match (s.thread t).entry with
    | .handler x => haltAtHandler (if tgt then 0x02 else 0x03) x s t
    | _ => s) s
  exec (.illegalLine bad) { s1 with cur := some (stillAt s1 g) }

/-- The TGT check still owed at a first fetch (R53, R204, R245, R266). -/
def checkEntry (c : BitVec 512) (s : State) (t : TRef) : State :=
  if lineTgt c (slotOf (s.thread t).pc.toNat) then s.modThread t fun x => { x with entry := .none }
  else
    match (s.thread t).entry with
    | .none => s
    | .start => trapAt s t ⟨0x03, (s.thread t).pc, 0, false, 0⟩
    | .handler x => haltAtHandler 0x03 x s t

/-- Run one slot for the current group. -/
def runSlot (s : State) (g : Issue) (w : BitVec 96) : Out :=
  match decodeFields w with
  | some i => exec i { s with cur := some g }
  | none => exec (.illegalInstruction (w.extractLsb' 0 32) (w.extractLsb' 32 32)) { s with cur := some g }

/-- The group's threads whose operands are there, now that the line shows what they are, and whose mates' are too. -/
def readyAtLine (s : State) (g : Issue) : Issue :=
  let here := groupThreads s g
  let ok := here.filter (operandsReady s)
  { g with lanes := maskOf ((ok.filter fun t => (mates s t).all ok.contains).map TRef.lane) }

/-- The instruction issues: what was released together has issued together (R25, R347). -/
def parted (s : State) (g : Issue) : State :=
  (groupRefs g).foldl (fun s t => s.modThread t fun x => { x with together := 0 }) s

/-- Run the slot at the group's address, and the second of a pair for the threads that have completed the first
(R247). -/
def runLine (s : State) (g : Issue) (c : BitVec 512) : Out :=
  let s1 := (groupThreads s g).foldl (checkEntry c) s
  let g1 := readyAtLine s1 g
  let j := slotOf g.pc.toNat
  if g1.lanes = 0 then .next s1
  else
    andThen (runSlot (parted s1 g1) g1 (slotBits c j)) fun s2 =>
      if linePair c j then runSlot s2 (stillAt s2 { g1 with pc := nextPc g.pc, second := true }) (slotBits c (j + 1))
      else .next s2

/-- Fetch and run a group: the line's fate is every thread's (R104, R243). -/
def fetchRun (s : State) (g : Issue) : Out :=
  match groupThreads s g with
  | [] => .next s
  | t :: rest =>
    if bits g.pc 63 57 ≠ 0 then .next ((t :: rest).foldl (fun s t => meet s t false .protection) s)
    else
      match fetchLine s t (g.pc.toNat / 64 * 64) with
      | (s1, .error m) => .next ((t :: rest).foldl (fun s t => meet s t false m) s1)
      | (s1, .ok (.error e)) => enterBadLine s1 g e.1 e.2
      | (s1, .ok (.ok c)) => runLine s1 g c

/-- Issue a group; a matrix trap owed to one of its threads comes first (R133). -/
def issueGroup (s : State) (g : Issue) (chosen : Bool) : Out :=
  match (groupRefs g).find? fun t => (s.thread t).mxTraps != [] with
  | some t => exec (.matrixTrapDelivery t.wave t.lane) s
  | none => fetchRun (book s g chosen) g

/-- A starved thread's group: itself alone (R23), or the threads it was released with, which issue as one fetch group
(R25, R347; assumption 108). -/
def starvedGroup (s : State) (t : TRef) : List TRef :=
  match mates s t with
  | [] => [t]
  | us => us

/-- A lane set's issue of this cycle: a starved thread's group (R23), or the chosen group. -/
def issueLaneSet (s : State) (ls : Nat) : Out :=
  match s.forced with
  | some t =>
    if waveLaneSet t.wave = ls ∧ ready s t then issueGroup s (groupOf s (starvedGroup s t)) false
    else .next { s.modThread t (fun x => { x with readyAt := s.cycle }) with forced := none }
  | none =>
    if (starvedThread s ls).isSome then exec (.starvedIssue ls) s
    else
      match chooseWave s ls with
      | some w => issueGroup s (groupOf s (chooseGroup s w)) true
      | none => .next { s with turn := ls + 1 }

/-! ### Events that have come due -/

/-- The event that ends a thread's wait, if it has come due. -/
def dueOfThread (s : State) (t : TRef) : List Instr :=
  let x := s.thread t
  let b? := s.threadBlock? t
  if !s.alive t then []
  else
    match x.wait, b? with
    | some (.cycles 0), _ => [.sleepExpire t.wave t.lane]
    | some (.join 0), _ => [.joinTimeout t.wave t.lane]
    | some (.waitc _ cs all n), some b =>
      if condMet cs.length all (condBits s t b cs) then [.waitcWake t.wave t.lane]
      else (match n with | some m => if m ≤ s.tick.toNat then [.waitcTimeout t.wave t.lane] else [] | none => [])
    | some (.counterRoom c), _ => if counterOf x c < 63 then [.counterRoom t.wave t.lane] else []
    | some (.trackerRoom k), _ =>
      if trackerFull s (waveCore t.wave) k then [] else [.trackerEntryFree (waveCore t.wave) k]
    | some .matrixHolder, some b => if (s.core b.core).mx.holder.isNone then [.matrixHolderFree b.core] else []
    | some .bankEntry, some b => if (clusterCores s b).all (bankFree s) then [.templateBankEntryFree b.core] else []
    | some (.ext n _ imp), _ =>
      if n ≤ (s.wave t.wave).ext + poolFree s (waveLaneSet t.wave) then
        [if imp then .implicitAcquire t.wave else .extensionBlockGrant (waveLaneSet t.wave)]
      else []
    | _, some b =>
      if x.stamp == .free && b.started && !b.halted then [.stampItem t.wave t.lane] else []
    | _, none => []

/-- Indices of a list's elements that satisfy a test. -/
def indices {α : Type} (p : α → Bool) (l : List α) : List Nat := (l.zipIdx.filter fun e => p e.1).map Prod.snd

/-- Launches that wait under the built-in arbiter. -/
def arbiterWaits (s : State) (l : Launch) : Bool :=
  (s.part l.part).mode == 0 && l.state == .admitted && l.bound.length < l.d.blocks && l.bonus < 7
    && l.admTick + 1000 * (l.bonus + 1) ≤ s.tick.toNat

/-- Slots that may join or leave a partition's reserve now (R474). -/
def reserveChanges (s : State) (p : Nat) : List Instr :=
  let want := wantedReserve s p
  let held := (s.part p).reserve
  ((want.filter fun e => !held.contains e) ++ held.filter fun e => !want.contains e).filterMap fun e =>
    if (s.waves.find? (e.1 * 16 + e.2)).isSome then none else some (.reserveSlotChange p e.1 e.2)

/-- A queued matrix generator that has waited 4,096 ticks (R210). -/
def generatorLate (s : State) (p : Nat) : Bool :=
  (queuedFills s p).any (matrixLate s p)

/-- A bound generator past its fill time-out (R211). -/
def fillLate (s : State) (f : Fill) : Option Instr :=
  match f.gen, region? s f.part f.region with
  | some g, some r =>
    if r.timeout ≠ 0 ∧ (s.block? g).all (·.fillendAt.isNone) ∧ f.bindTick + r.timeout ≤ s.tick.toNat then some (.fillTimeout g) else none
  | _, _ => none

/-- What has come due by the end of a cycle in which the tick counter rose from `was`. -/
def dueEvents (s : State) (was : Nat) : List Instr :=
  let now := s.tick.toNat
  ((allThreads s).flatMap (dueOfThread s)).eraseDups
    ++ (List.filter (fun e : Nat × Wave => 512 ≤ e.2.waited) s.waves).map (fun e => .ageingBonus e.1)
    ++ s.fills.filterMap (fillLate s)
    ++ (((List.range 8).filter (generatorLate s)).map .generatorMatrixPreempt)
    ++ ((indices (fun r => !(liveReservations s).contains r) s.reservations).reverse.map .reservationLapse)
    ++ ((indices (fun h : PeerHold => h.tick + 10000 ≤ now) s.peerHolds).reverse.map .peerAccessTimeout)
    ++ ((indices (fun l : PendLoad => l.stranded s && l.since.any fun n => n + 10000 ≤ now) s.loads).reverse.map .loadComplete)
    ++ ((indices (fun b : Backoff => b.waiting && b.untilCycle ≤ s.cycle) s.backoffs).map .arbiterBackoffExpiry)
    ++ ((List.filter (fun e : Nat × Launch => arbiterWaits s e.2) s.launches).map fun e => .arbiterAgeing e.1)
    ++ ((List.filter (fun e : Nat × List Beam => match headBeam s e.1 with
        | some b => (match b.retry with | some n => n + 4096 ≤ now | none => false)
        | none => false) s.beams).map fun e => .beamQueueRetryExpire e.1)
    ++ (List.range 8).flatMap (reserveChanges s)
    ++ (if now / milliTicks ≠ was / milliTicks then [.heartbeatCheck] else [])

/-! ### Events that may happen at any time -/

/-- What a core's matrix arrays and its sampler may do next. -/
def coreEvents (s : State) (c : Nat) : List Instr :=
  let m := (s.core c).mx
  (if m.clear then [.matrixStateClear c] else [])
    ++ ([0, 1].flatMap fun a =>
      (if !m.clear ∧ m.waiting.any (fun e => e.1 == a) ∧ (mxArray s c a).queue.length < 8 then [.matrixQueueRoom c a] else [])
        ++ match (mxArray s c a).queue with
          | op :: _ =>
            -- rounds of the present cycle may still enter before an operation (R134)
            if op.started then
              (if headComplete s c a then [.matrixOperationComplete c a] else []) ++ if op.opcode = 4 ∧ !op.done then [.drainRow c a] else []
            else if op.cycle < s.cycle then [.matrixOperationStart c a] else []
          | [] => [])
    ++ (if (sampleDue s c).isSome then [.memorySample c] else [])

/-- What a copy context may do next. -/
def ctxEvents (s : State) (c : Nat) : List Instr :=
  (if (startable s c).isSome then [.copyRequestStart c] else [])
    ++ (if (s.ctx c).reqs.any (canMove s) then [.copyPieceWritten c] else [])
    ++ (if (s.ctx c).reqs.any fun r => r.fin && !r.retired then [.copyRequestRetire c] else [])

/-- What a partition's front-end, binder, engine and rings may do next. -/
def partEvents (s : State) (p : Nat) : List Instr :=
  let x := s.part p
  (List.filter (fun e : Nat × Queue => e.2.ptr.isSome || (e.2.en && !e.2.err && e.2.head != e.2.tail)) x.queues).map
      (fun e => .launchSubmit p e.1)
    ++ (if x.brhead ≠ x.brtail then [.bindReserve p, .bindCommit p, .bindAbandon p, .bindRecordMalformed p]
        else if (arbiterMove s p).isSome then [.bindReserve p, .bindCommit p] else [])
    ++ (if (queuedFills s p).any fun e => generatorSlots s p e.1 e.2 != [] then [.generatorBind p] else [])
    ++ (if x.faults ≠ [] then [.faultRecordWrite p] else [])

/-- What a thread's marcher and trace unit may do next. -/
def unitEvents (s : State) (t : TRef) : List Instr :=
  if runsHalted s t then []
  else
    (if (s.thread t).marchRuns ≠ [] then [.marchStop t.wave t.lane] else [])
      ++ (if (s.thread t).travRuns ≠ [] then [.traversalStop t.wave t.lane] else [])

/-- The step that Sextant may make in the core clock (R5). -/
def clockEvents (s : State) : List Instr :=
  if s.powerLimit ≤ s.draw then (if 1650 < s.clockMHz then [.clockStepDown] else [])
  else if s.clockMHz < 3300 then [.clockStepUp] else []

/-- Whether the image of a coordinate must wait: a load of it is held for a peer (R111, R506). -/
def imageHeld (s : State) (i : Image) : Bool :=
  s.loads.any fun l => l.stranded s && (s.threadBlock? l.t).any fun b => b.launch == i.launch && b.coord == i.coord && !b.gen

/-- Everything another agent of the device may do next; none of it has a time the spec fixes. -/
def openEvents (s : State) : List Instr :=
  clockEvents s
    ++ (indices (fun l : PendLoad => l.unit == 0 && !l.live) s.loads).map .loadComplete
    ++ (indices (fun x : PendStore => !x.fin && !x.buffered) s.stores).map .storePerformed
    ++ (indices (fun _ => true) s.wbs).map .homeBankWriteJudged
    ++ (indices (fun _ => true) s.csm).map .csmLineToDram
    ++ s.cores.flatMap (fun e => coreEvents s e.1)
    ++ (allThreads s).flatMap (unitEvents s)
    ++ (List.filter (fun e : Nat × List Beam => (headBeam s e.1).any beamReady) s.beams).map
        (fun e => .beamComplete e.1)
    ++ s.ctxs.flatMap (fun e => ctxEvents s e.1)
    ++ s.messages.map (fun m => .messageArrival m.dest)
    ++ (List.range 8).flatMap (partEvents s)
    ++ (List.filter (fun e : Nat × Launch => e.2.state == .validated) s.launches).map (fun e => .launchAdmit e.1)
    ++ (indices (fun i : Image => !i.written && !imageHeld s i) s.images).map .haltComplete
    ++ (indices (fun i : Image => i.written && !i.swapped) s.images).map .restore

/-! ### The end of a cycle -/

/-- A wait in core cycles runs down. -/
def Wait.down : Wait → Wait
  | .cycles n => .cycles (n - 1)
  | .join n => .join (n - 1)
  | w => w

/-- A thread at the end of a cycle: its waits run down while its core runs its block (R287, R290), and one that is not
ready begins its count of R23 anew. -/
def Thread.cycled (x : Thread) (runs isReady : Bool) (next : Nat) : Thread :=
  { x with wait := if runs then x.wait.map Wait.down else x.wait, readyAt := if isReady then x.readyAt else next }

/-- What the module draws from this tick on (R5): nothing but its bound is known of it (assumption 107). -/
def sampleDraw (s : State) : State := { s with draw := min 2400 (Config.moduleDraw s.free), free := s.free + 1 }

/-- A TLB entry may be evicted at any tick (R484): which one goes, or none, is not given (assumption 118). -/
def evictTlb (s : State) : State :=
  closeChannels { s with tlb := s.tlb.eraseIdx (Config.tlbVictim s.free), free := s.free + 1 }

/-- A new error at a place: its interruption is not counted yet (R529). -/
def newError (s : State) (key : Nat) : State :=
  { s with health := { s.health with jobs := s.health.jobs.filter (· != key) } }

/-- Data of a granule of a tier, of CXL or peer memory or of the window may turn uncorrectable at any tick (R520, assumption
47); nothing is marked. -/
def failMemory (s : State) : State :=
  let s1 := { s with free := s.free + 1 }
  match Config.failingGranule s.free with
  | some g =>
    (match paKind s (32 * g) with
     | .none | .shadow => s1
     | _ => if s.bad.contains g then s1 else newError { s1 with bad := s.bad ++ [g] } g)
  | none => s1

/-- Data of a granule of a line of the CSM may turn uncorrectable at any tick (R520, assumption 47). -/
def failLine (s : State) : State :=
  let s1 := { s with free := s.free + 1 }
  match Config.failingLine s.free with
  | none => s1
  | some (i, g) =>
    match s.csm[i]? with
    | some l => newError { s1 with csm := s.csm.set i { l with bad := l.bad ||| 1#4 <<< (g % 4) } } ((ErrorPlace.slice 0 0).key l.va)
    | none => s1

/-- A single-bit error of DRAM, or of an SRAM array, may be corrected and counted at any tick (R514, assumption 47). -/
def correctError (s : State) : State :=
  let s1 := { s with free := s.free + 1 }
  match Config.correctedError s.free with
  | none => s1
  | some (0, pa) => countCorrected s1 pa
  | some (n, unit) => countArray s1 (3 + n % 4) unit

/-- Parity of a running block's arrays may fail at any tick (R520, assumption 47). -/
def failArrays (s : State) : State :=
  let s1 := { s with free := s.free + 1 }
  match Config.failingBlock s.free with
  | none => s1
  | some (i, n) =>
    match s.blocks[i]? with
    | some b => if b.started && !b.halted then failParity s1 b (4 + n % 3) else s1
    | none => s1

/-- Blocks of a virtual core and of its serving core may change places at any tick in which some wait (R523). -/
def alternateCores (s : State) : State :=
  let s1 := { s with free := s.free + 1 }
  match Config.alternation s.free with
  | some (p, v) => if coresAwaited s1 p then alternate p v s1 else s1
  | none => s1

/-- Sextant retires the channels whose errors have reached R519's limits. -/
def retireFailing (s : State) : State :=
  (((s.health.errors.map fun e => (e.tier, e.channel)).eraseDups).filter fun c =>
    !s.retired.contains c && retirementDue s c.1 c.2).foldl (fun s c => retireChannel c.1 c.2 s) s

/-- The hold of a load begins when its peer gets out of reach, and ends when it is back (R506). -/
def holdLoads (s : State) : State :=
  { s with loads := s.loads.map fun l => { l with since := if l.stranded s then l.since.orElse fun _ => some s.tick.toNat else none } }

/-- The index here of a peer device: its live entry (R504, R506). -/
def peerIndex (s : State) (rdev : BitVec 32) : Option Nat :=
  (List.range 255).find? fun p => peerReachable s p && (s.peers.get .init p).rdev == rdev

/-- A message of a peer comes in: the sender's name has the device field by which this device knows it; without a live entry
it is refused, and its sender traps there (R375, R506). -/
def takePeerMessage (s : State) (x : Config.PeerMessage) : State :=
  match peerIndex s x.rdev with
  | some p =>
    if (enabledCores s x.part).contains x.core then
      let m : Message :=
        { id := s.nextMsg, sender := none, source := d (2 ^ 24 * p + x.sender % 512), dest := physCore s x.part x.core
          tag := x.tag, data := x.data.take (min 4096 x.data.length / 4 * 4), scope := .system, tick := s.tick.toNat }
      { s with messages := s.messages ++ [m], nextMsg := s.nextMsg + 1 }
    else s
  | none => s

/-- A message of a peer may come in at any tick (R506, assumption 53). -/
def peerTraffic (s : State) : State :=
  let s1 := { s with free := s.free + 1 }
  match Config.peerMessage s.free with
  | some x => takePeerMessage s1 x
  | none => s1

/-- What may happen unbidden at a tick. -/
def atTick (s : State) : State := 
  peerTraffic (holdLoads (alternateCores (failArrays (correctError (retireFailing (failLine (failMemory (evictTlb (sampleDraw s)))))))))

/-- The counter moves on by a tick, with the slew of R503: one more, or none, in every 64. -/
def countTick (s : State) : State :=
  let n := (s.ptmCount + 1) % 64
  if n = 0 ∧ 0 < s.ptmSlew then { s with ptmCount := n, tick := s.tick + 2, ptmSlew := s.ptmSlew - 1 }
  else if n = 0 ∧ s.ptmSlew < 0 then { s with ptmCount := n, ptmSlew := s.ptmSlew + 1 }
  else { s with ptmCount := n, tick := s.tick + 1 }

/-- Every millisecond of the counter, while the link is up, the device exchanges times with its host; the host's time is
a free value (R503). -/
def exchangeTimes (old s : State) : State :=
  if s.linkUp ∧ s.tick.toNat / milliTicks ≠ old.tick.toNat / milliTicks then
    followHost (Config.hostTime s.free) { s with free := s.free + 1 }
  else s

/-- One tick of the reference clock. -/
def tickOnce (s0 : State) : State :=
  let s := atTick { s0 with fills := s0.fills.map (tickFill s0) }
  exchangeTimes s (countTick s)

/-- The parts in which a tick's progress is counted: a multiple of every core clock that R5 allows, in MHz. -/
def tickParts : Nat := 14440355289360000

/-- The reference clock runs at 100 MHz beside a core clock of `clockMHz` (R3): a cycle is 100 / `clockMHz` of a tick, at
whatever clock it runs, so that a step of the core clock moves no tick (R5). -/
def runClock (s : State) : State :=
  let s1 := { s with cycle := s.cycle + 1, tickAcc := s.tickAcc + 100 * tickParts / s.clockMHz }
  if tickParts ≤ s1.tickAcc then tickOnce { s1 with tickAcc := s1.tickAcc - tickParts } else s1

/-- A seed that `srseed` wrote takes effect at the end of its cycle, in the core converter and both epilogue generators
(R328). -/
def Core.reseeded (c : Core) : Core :=
  match c.seedNext with
  | none => c
  | some v =>
    { c with seedNext := none, sr := v, mx := { c.mx with arrays := c.mx.arrays.map fun a => { a with gen := v } } }

/-- The cycle ends: busy blocks are counted, waits in cycles run down, the clocks advance, held flushes are tried again
(R366), and what has come due is put on the agenda. -/
def endCycle (s : State) : State :=
  let up := (allThreads s).filter (ready s)
  let next := s.cycle + 1
  let wave (e : Nat × Wave) : Nat × Wave :=
    let runs := waveRuns s e.1
    (e.1, { e.2 with threads := e.2.threads.map fun x => (x.1, x.2.cycled runs (up.contains ⟨e.1, x.1⟩) next) })
  let busy (b : Block) : Block := if up.any fun t => b.waves.contains t.wave then countBusy s b else b
  let cores := s.cores.map fun e => (e.1, e.2.reseeded)
  let s1 := resumeFlushes (runClock { s with waves := s.waves.map wave, blocks := s.blocks.map busy, cores := cores, turn := 0 })
  { s1 with agenda := dueEvents s1 s.tick.toNat }

/-- With no lane set left to issue in this cycle: an open event, if one happens now, or the cycle's end; which of them
is a free value. -/
def betweenIssues (s : State) : Out :=
  match openEvents s with
  | [] => .next (endCycle s)
  | es =>
    let (v, s1) := s.fresh
    if v.toNat % 2 = 0 then .next (endCycle s1)
    else
      match es[v.toNat / 2 % es.length]? with
      | some i => exec i s1
      | none => .next (endCycle s1)

/-! ### One step -/

/-- What reaches a device that stays in reset: the mailboxes, the link and the host's time (R501, R503, R509). -/
def reachesReset : Instr → Bool
  | .boot | .readIdentity _ | .attest _ | .setQuadMap _ | .setContexts _ | .allocateAsid _ | .freeAsid _
  | .setPageTableRoot _ | .updateStage _ | .updateCommit _ | .mailboxUnknown _ | .linkStateChange _ | .ptmExchange _ => true
  | .registerWrite _ csr _ => decide (0x200 ≤ csr ∧ csr ≤ 0x208)
  | _ => false

/-- The first move of a device that has not booted is the boot (R509), and nothing else happens to it but what reaches it in
reset; then what is on the agenda, in order; then the next lane set's issue, an event, or the end of the cycle. -/
def move (s : State) : Out :=
  match s.agenda with
  | i :: rest => if s.booted || reachesReset i then exec i { s with agenda := rest } else .next { s with agenda := rest }
  | [] =>
    if !s.booted then exec .boot s
    else
      match nextLaneSet s with
      | some ls => issueLaneSet s ls
      | none => betweenIssues s

/-- An access to a failed peer is held for as long as its thread waits for it (R506). -/
def PeerHold.stands (s : State) (h : PeerHold) : Bool := (s.thread h.t).wait == some (.peer h.tick)

/-- Between steps no group is issuing, a hold belongs to a thread that waits, and the race detector keeps the stamps of
lines that are held (R115). -/
def tidy (s : State) : State := loseStamps { s with cur := none, peerHolds := s.peerHolds.filter (PeerHold.stands s) }

/-- One step of the device. -/
def oneStep (s : State) : Out := andThen (move { s with cur := none }) fun t => .next (tidy t)

end Sys2Proof.Machine
end

