-- ==== Sys2Proof/Machine/Place.lean ====
section
/-! DEFINITION. An instruction placed for the very next step: the launch, block, thread and cached code line that a bound
and started launch would have left (R15, R18, R104). It stands for the host's and the binder's part of running a
program (assumption 3). -/

namespace Sys2Proof.Machine

/-- A launch of one thread at 0x1000, with the graphics and matrix flags and every extension block (R53). -/
def seatDesc : Desc :=
  { flags := 0x110, stages := 1, prio := 0, entries := [0x1000, 0, 0, 0], grid := (1, 1, 1), bpc := 1, shape := (1, 1, 1)
    waves := 1, pregrant := 3, scratch := 32768, wayMask := 1, cvs := 16, fifos := 16, argVa := 0, argBytes := 0, latency := 0
    schedVa := 0, segBytes := 0, pin := 0xFFFFFFFF, compCtx := 0xFFFF, compVal := 0, waitCtx := 0xFFFF, waitVal := 0
    items := 0, chan := [] }

def seatLaunch (s : State) : Launch :=
  { handle := 0, part := 0, queue := 0, descVa := 0, d := seatDesc, asid := 0, agen := 0, state := .admitted
    prio := 0, admSeq := 0, admTick := s.tick.toNat, bonus := 0, bound := [((0, 0, 0), 0, 0)], endedBlocks := 0
    lifeSum := 0, lifeCount := 0, faulted := false, itemNext := 0, itemsLive := 0, tpl := none, prologueLost := false
    sched := 0, shares := [], boundaries := 0, busySum := [0], epochs := [], ring := [], raced := [] }

def seatRecord : BindRec :=
  { handle := 0, core := 0, slots := 1, cvBase := 0, fifoBase := 0, scratch := 0, coord := (0, 0, 0), stage := 0, bid := 0
    tag := 0 }

/-- The block, started: no acquire is owed. -/
def seatBlock (s : State) : Block :=
  { boundBlock s (seatLaunch s) ⟨0, seatRecord, 0, 0, s.tick.toNat⟩ with started := true, startSeq := s.seq }

/-- Its one thread, whose entry check has been made. -/
def seatThread (s : State) : Thread :=
  { Thread.init with pc := 0x1000, regionPc := 0x1000, regionSeq := s.seq, readyAt := s.cycle }

def seatWave (s : State) : Wave :=
  { Wave.init with block := s.nextBlock, threads := [(0, seatThread s)], ext := 3, chosenAt := s.cycle, sr := 1 }

/-- The code line at 0x1000 with the instruction in slot 0, as the core holds it once it has passed its check. -/
def seatLine (w : BitVec 96) : Line :=
  { newLine 0 0 0x1000 with val := w.zeroExtend 1024, valid := byteMask 0 64 }

/-- The device with the instruction's thread next to issue, alone. -/
def seatSlot (s : State) (w : BitVec 96) : State :=
  let s1 := s.modCore 0 fun c =>
    c.setLines .icache (seatLine w :: (c.lines .icache).filter fun l => !l.is 0 0 0x1000 none)
  { s1 with
    booted := true, agenda := [], turn := 0, forced := some ⟨0, 0⟩, nextBlock := s.nextBlock + 1, seq := s.seq + 1
    waves := s1.waves.put 0 (seatWave s), blocks := s1.blocks ++ [seatBlock s]
    launches := s1.launches.put 0 (seatLaunch s), loads := s1.loads.filter fun l => l.t.wave != 0 }

end Sys2Proof.Machine
end

