-- ==== Sys2Proof/Machine/Step.lean ====
section
/-! DEFINITION. One step of the device, and an instruction placed where the next step issues it. -/

namespace Sys2Proof.Machine

/-- One step: the agenda's next event, else the boot, else the next lane set's issue, an event, or the cycle's end
(Machine/Schedule.lean). -/
def step (s : State) : Host.Outcome State Fault Refusal := oneStep s

/-- The state with an instruction placed for the very next step (assumption 3). Events have no encoding. -/
def State.withFetchWord (s : State) (nbits w : Nat) : State :=
  match decodeTableWord nbits w with
  | some _ => seatSlot s (BitVec.ofNat 96 w)
  | none => s

end Sys2Proof.Machine
end

