-- ==== Sys2Proof/Safety.lean ====
section
/-! DEFINITION. The terms claims are made in: a step that goes on, the threads an instruction is issued to and those that
execute it, what it means that an instruction issues without a trap of its own operands, and what it leaves alone. -/

namespace Sys2Proof

/-- A step that goes on. -/
def Steps (s t : Machine.State) : Prop := Machine.step s = .next t

namespace Machine

/-- The threads of the fetch group that execute an instruction (R33, R34), in ascending lane order. -/
def executing (s : State) (g : Issue) (b : Block) (i : Instr) (who : Who) : List TRef :=
  (groupThreads s g).filter (executes s b i.head who)

/-- The state once the group's other threads have moved past the instruction: E or the guard holds them back from it. -/
def passed (s : State) (g : Issue) (b : Block) (i : Instr) (who : Who) : State :=
  ((groupThreads s g).filter fun t => !executes s b i.head who t).foldl advance s

/-- An instruction issues to the current fetch group and some thread executes it; its fields and the launch's mode admit
it, and no executing thread meets a trap of its operands or a missing extension block (R28, R32, R198, R263). -/
structure Issues (i : Instr) (who : Who) (s : State) (g : Issue) (b : Block) : Prop where
  group    : s.cur = some g
  block    : s.waveBlock? g.wave = some b
  some     : executing s g b i who ≠ []
  fields   : i.wf = true
  mode     : modeOk b i who = true
  operands : ∀ t ∈ executing s g b i who, operandTrap (passed s g b i who) b g i.uses t = none
  blocks   : ∀ t ∈ executing s g b i who, implicitNeed (passed s g b i who) t i.uses = 0

/-- So it issues, to one thread that executes it; `p` is the state in which that thread does. -/
structure IssuesTo (i : Instr) (who : Who) (s : State) (g : Issue) (b : Block) (t : TRef) (p : State) : Prop
    extends Issues i who s g b where
  one  : executing s g b i who = [t]
  past : passed s g b i who = p

/-- The trap that an issue raises in every executing thread, before anything else: its fields or the launch's mode do
not admit the instruction (R248, R263). -/
structure Rejects (i : Instr) (who : Who) (s : State) (g : Issue) (b : Block) : Prop where
  group : s.cur = some g
  block : s.waveBlock? g.wave = some b
  bad   : i.wf = false ∨ modeOk b i who = false

/-- Only registers, condition bits, flags and program counters differ between two states: every other field of every
thread and wave, every outstanding load but for the registers it will write, and all the rest of the device are the
same. -/
structure OnlyRegisters (s s' : State) : Prop where
  rest    : s' = { s with waves := s'.waves, loads := s'.loads }
  loads   : s'.loads.map (fun l => { l with regs := [] }) = s.loads.map (fun l => { l with regs := [] })
  waves   : ∀ w, s'.wave w = { s.wave w with threads := (s'.wave w).threads, k := (s'.wave w).k
                                             kMask := (s'.wave w).kMask, kPartial := (s'.wave w).kPartial }
  threads : ∀ t, s'.thread t = { s.thread t with v := (s'.thread t).v, mapped := (s'.thread t).mapped
                                                 cond := (s'.thread t).cond, fflags := (s'.thread t).fflags
                                                 pc := (s'.thread t).pc }

/-- Word `j` of a value, the low word first (R220). -/
def wordOf (x j : Nat) : Word := BitVec.ofNat 32 (x / 2 ^ (32 * j))

/-- Condition bits after a result is written (R250, R34): the destination's bit, in forerunner mode a compare's partner
bit with the complement, and the bits the result names itself (R298, R333, R339). -/
def condsAfter (b : Block) (dst : Dst) (cmp : Bool) (r : Res) (before : Nat → Bool) (n : Nat) : Bool :=
  match r.conds.reverse.find? fun c => c.1 = n with
  | some c => c.2
  | none =>
    if dst.file = .c ∧ b.forerunner ∧ cmp ∧ n = dst.num.toNat ^^^ 1 then !(r.val % 2 == 1)
    else if dst.file = .c ∧ n = dst.num.toNat then r.val % 2 == 1
    else before n

/-- What an instruction that computes leaves (R255, R310): every executing thread's result `f t` in its own destination,
or the lowest executing lane's in the wave's k registers once; its flags raised; the next slot. Everything else is as it
was: `p` is the state at issue, `ts` the executing threads. -/
structure Computed (p s' : State) (g : Issue) (b : Block) (ts : List TRef) (dst : Dst) (regs : Nat) (cmp : Bool)
    (f : TRef → Res) : Prop where
  only  : OnlyRegisters p s'
  bound : ∀ u, s'.bound u = p.bound u
  pcs   : ∀ u, (s'.thread u).pc = if u ∈ ts then nextPc (p.thread u).pc else (p.thread u).pc
  vregs : ∀ u n, vreg s' u n =
    if u ∈ ts ∧ dst.file = .v ∧ dst.num.toNat ≤ n ∧ n < dst.num.toNat + regs then wordOf (f u).val (n - dst.num.toNat)
    else vreg p u n
  kregs : ∀ w n, kreg s' w n =
    if w = g.wave ∧ dst.file = .k ∧ dst.num.toNat ≤ n ∧ n < dst.num.toNat + regs then
      wordOf (f (ts.headD ⟨0, 0⟩)).val (n - dst.num.toNat)
    else kreg p w n
  conds : ∀ u n, n < 12 → creg s' u n =
    if u ∈ ts ∧ dst.file ≠ .k then condsAfter b dst cmp (f u) (creg p u) n else creg p u n
  flags : ∀ u, (s'.thread u).fflags =
    if u ∈ ts then (p.thread u).fflags ||| BitVec.ofNat 32 (if dst.file = .k then f (ts.headD ⟨0, 0⟩) else f u).flags
    else (p.thread u).fflags

/-- An instruction runs and computes: from the state in which the group's other threads have moved past it, it leaves
in each executing thread `t` the result `f p t`. -/
def Computes (i : Instr) (s : State) (g : Issue) (b : Block) (dst : Dst) (regs : Nat) (cmp : Bool)
    (f : State → TRef → Res) : Prop :=
  ∃ s', exec i s = .next s' ∧
    Computed (passed s g b i .normal) s' g b (executing s g b i .normal) dst regs cmp (f (passed s g b i .normal))

/-- Whenever it issues, an instruction computes `f`, from the state at issue, the group and its executing threads. -/
def DoesInGroup (i : Instr) (dst : Dst) (regs : Nat) (cmp : Bool) (f : State → Issue → List TRef → TRef → Res) : Prop :=
  ∀ (s : State) (g : Issue) (b : Block), Issues i .normal s g b →
    Computes i s g b dst regs cmp fun p => f p g (executing s g b i .normal)

/-- Whenever it issues, an instruction computes `f`, of each thread alone. -/
def Does (i : Instr) (dst : Dst) (regs : Nat) (cmp : Bool) (f : State → TRef → Res) : Prop :=
  ∀ (s : State) (g : Issue) (b : Block), Issues i .normal s g b → Computes i s g b dst regs cmp f

/-- A result of the first `n` sources, element by element (R293). -/
def perElement (f : RForm) (n : Nat) (op : Nat → List Int → Int) (p : State) (t : TRef) : Res :=
  Res.of (intElems f.h.typ f.dst.clp (([f.a, f.b, f.c].take n).map (srcVal p t f.h.typ)) op)

/-- The state and the random word of an issue that may round stochastically (R231, R232): the generator advances once. -/
def srDrawn (p : State) (g : Issue) (b : Block) (dst : Dst) (m : RoundBy) (ts : List TRef) : State × Word :=
  if issueSr p g dst m ts then advanceSr p g b else (p, 0)

/-- Whenever it issues, a rounding instruction draws its random word if some executing thread needs one, and computes
`f`, given the rounding of each element in each thread. -/
def DoesRounded (i : Instr) (dst : Dst) (regs : Nat) (m : RoundBy)
    (f : State → TRef → (Bool → Nat → Rnd) → Res) : Prop :=
  ∀ (s : State) (g : Issue) (b : Block), Issues i .normal s g b →
    let p := passed s g b i .normal
    let ts := executing s g b i .normal
    let r := srDrawn p g b dst m ts
    ∃ s', exec i s = .next s' ∧ Computed r.1 s' g b ts dst regs false (fun t => f r.1 t (rndAt r.1 g dst m r.2 t))

/-- A float result of the first `n` sources, element by element, clamped (R228, R230). -/
def perFloat (f : RForm) (n : Nat) (op : Fmt → Rnd → List Nat → Nat × Nat) (p : State) (t : TRef)
    (rnd : Bool → Nat → Rnd) : Res :=
  floatElems f.h.typ f.dst (([f.a, f.b, f.c].take n).map (srcVal p t f.h.typ)) rnd op

/-- A thread's completed access leaves `r`, and is counted by the trace unit's sampler where sampling is on (R534). -/
def sampledAt (access : Nat) (place : State → TRef → BitVec 64 × Nat) (p : State) (g : Issue) (b : Block) (t : TRef)
    (r : State) : State := sampled access place (fun _ _ _ _ => r) p g b [t]

/-- An instruction's effect on a group is its effect on each executing thread, in ascending lane order. -/
def LaneByLane (i : Instr) (who : Who) : Prop :=
  ∃ lane : Issue → Block → State → TRef → State × Lane, ∀ (s : State) (g : Issue) (b : Block), Issues i who s g b →
    exec i s = .next (eachLane g (lane g b) (passed s g b i who) (executing s g b i who))

/-- The byte of a line that a thread's load finds in its core's cache, if it finds one: the thread's own speculative byte over
the line's (R62, R107). -/
def coreByte (s : State) (core : Nat) (k : Cache) (t : TRef) (asid agen line n : Nat) : Option Byte :=
  let own := ((lines s core k).find? fun l => l.is asid agen line (some t)).filter fun l => l.dirty.getLsbD n
  let base := ((lines s core k).find? fun l => l.is asid agen line none).filter fun l => l.valid.getLsbD n
  (own.orElse fun _ => base).map fun l => BitVec.ofNat 8 (lineGet l.val n 1)

/-- R352, R353: what a load leaves when its read answered `v`: an outstanding load that will write the DAT registers, in
file k once for the group; LD rises; the thread goes on. -/
def loadLeft (f : MForm) (g : Issue) (t : TRef) (s : State) (v trk : Nat) : State :=
  if f.dat.file = .k then
    advance (pendLoad (setKs s g f.dat.num.toNat ((List.range f.cnt.val).map fun i => kreg s g.wave (f.dat.num.toNat + i)))
      t trk 0 true (loadRegs f v)) t
  else advance (pendLoad (claimRegs s t false ((loadRegs f v).map Prod.fst)) t trk 0 false (loadRegs f v)) t

/-- R77: what a fetch through a cache leaves when its words are known: an outstanding load that takes an entry of the unit's
tracker for each line it brought in, and of the constant tracker for its descriptor's, or a thread waiting for so many
entries. -/
def lineLoad (before after : State) (t : TRef) (k : Cache) (dst : Nat) (ws : List Word) : State :=
  let n := newLines before after (waveCore t.wave) k
  let m := newLines before after (waveCore t.wave) .const
  if n + m = 0 then advance (loadResult after t 4 0 dst ws) t
  else if !trackerRoom before (waveCore t.wave) 1 m then setWait before t (.trackerRoom 1)
  else if trackerRoom before (waveCore t.wave) 2 n then advance (loadLines n m after t 2 0 dst ws) t
  else setWait before t (.trackerRoom 2)

/-- A side-effecting instruction is complete: the thread goes on at the next slot, where its next region begins (R107,
R244). -/
def nextRegion (s : State) (t : TRef) : State := advance (beginRegion s t (nextPc (s.thread t).pc)) t

/-- A convergence register that nothing has declared (R35). -/
def noCv : Cv := ⟨0, none, 0, [], 0, 0, [], 0⟩

/-- The k registers a drain latches at signature: KX, KY, KZ (R127); no other matrix operation has any. -/
def drainKs (s : State) (w : Nat) (op : Nat) (f : MXForm) : List Word :=
  if op = 4 then [kreg s w f.kx.toNat, kreg s w f.ky.toNat, kreg s w f.kz.toNat] else []

/-- A convergence register after one more signature, number `n` (R36): the first one latches the operation's fields, its
rounding mode and its seed. -/
def signedCv (p : State) (b : Block) (t : TRef) (op : Nat) (f : MXForm) (n : Nat) (v : Cv) : Cv :=
  let first := v.fields.isNone
  { v with fields := some f, opcode := op, kvals := drainKs p t.wave op f
           rm := if first then (if f.rm = 0 then (p.thread t).fmode.extractLsb' 0 3 else f.rm) else v.rm
           seed := if first then drainSeed p b else v.seed, signers := v.signers ++ [(t, (p.thread t).pc, n)] }

/-- A thread's signature (R36, R38), taken in the state `s0`: it takes the core's matrix state if nobody holds it, rises MX,
and stands in its convergence register. -/
def signedState (p s0 : State) (b : Block) (t : TRef) (op : Nat) (f : MXForm) (v : Cv) : State :=
  let s1 := if (p.core b.core).mx.holder.isNone then modMatrix s0 b.core (·.taken b.id) else s0
  let s3 := s1.tickSeq.2.modThread t fun x => { x with mx := x.mx + 1, mxq := x.mxq ++ [(s1.tickSeq.1, false)] }
  s3.modBlock b.id fun x => { x with cvs := x.cvs.put f.cv.toNat (signedCv p b t op f s1.tickSeq.1 v) }

/-- Who executes an instruction of the table (R33, R34, R131, R345); an event is issued to nobody. -/
def whoOf (i : Instr) : Option Who :=
  if (encode i).isNone then none
  else match i with
    | .bra _ | .brx _ | .call _ | .ret _ | .exit _ => some .guarded
    | .msksave _ | .mskand _ | .mskrest _ | .mskelse _ => some .all
    | .mxwld _ | .mxwsw _ | .mxmul _ | .mxzero _ | .mxdrn _ | .mxperm _ => some .matrix
    | _ => some .normal

/-- A group's code line comes in (R104, R133, R243): no matrix trap is owed to the group, its line passes its check, and
the entry checks still owed are made; `p` is then the state, and `g1` the threads whose operands are there. -/
structure LineFetched (s : State) (g : Issue) (chosen : Bool) (p : State) (g1 : Issue) (c : BitVec 512) : Prop where
  free  : ∀ t ∈ groupRefs g, (s.thread t).mxTraps = []
  low   : bits g.pc 63 57 = 0
  line  : ∃ t ts s1, groupThreads (book s g chosen) g = t :: ts ∧
            fetchLine (book s g chosen) t (g.pc.toNat / 64 * 64) = (s1, .ok (.ok c)) ∧
            p = (groupThreads s1 g).foldl (checkEntry c) s1
  ready : g1 = readyAtLine p g
  some  : g1.lanes ≠ 0

/-- The waiters word of a byte barrier that a thread of block `o` waits on lies at byte `x` of core `c`'s scratch (R67):
a store that completes the barrier counts that word down. -/
def waitersWord (s : State) (o c x : Nat) : Prop :=
  ∃ b t dst off, s.block? o = some b ∧ b.core = c ∧ t ∈ blockThreads s b ∧ (s.thread t).wait = some (.bowait dst off) ∧
    b.scratchOff + off + 8 ≤ x ∧ x < b.scratchOff + off + 12

end Machine

end Sys2Proof
end

