-- ==== Sys2Proof/Certificates/Slice0/Obligations.lean ====
section
/-! DEFINITION. The statements for the provers: what instructions and events do, where they trap, what they leave alone,
and what every step keeps. -/

open Sys2Proof Sys2Proof.Machine

/-! ### Instructions that compute registers from registers -/

/-- R293: the integer instructions, on every type, with wrap-around or saturation, element by element.

R294-R296: the wide multiply-add, the byte dot product and the compare.

R297-R300: select, add with carry, address formation and the two forms of `mov`.

The model's own: log entries 82, 85. -/
def Obligations.IntegersCompute : Prop :=
  (∀ f : RForm,
     Does (.iadd f) f.dst f.h.typ.regs false (perElement f 2 fun _ l => argAt l 0 + argAt l 1) ∧
     Does (.isub f) f.dst f.h.typ.regs false (perElement f 2 fun _ l => argAt l 0 - argAt l 1) ∧
     Does (.imul f) f.dst f.h.typ.regs false (perElement f 2 fun _ l => argAt l 0 * argAt l 1) ∧
     Does (.imulhi f) f.dst f.h.typ.regs false (perElement f 2 fun w l => argAt l 0 * argAt l 1 / ((2 ^ w : Nat) : Int)) ∧
     Does (.imad f) f.dst f.h.typ.regs false (perElement f 3 fun _ l => argAt l 0 * argAt l 1 + argAt l 2) ∧
     Does (.imin f) f.dst f.h.typ.regs false (perElement f 2 fun _ l => min (argAt l 0) (argAt l 1)) ∧
     Does (.imax f) f.dst f.h.typ.regs false (perElement f 2 fun _ l => max (argAt l 0) (argAt l 1)) ∧
     Does (.iabsd f) f.dst f.h.typ.regs false (perElement f 2 fun _ l => ((argAt l 0 - argAt l 1).natAbs : Int))) ∧
  (∀ f : RForm,
     Does (.imadw f) f.dst 2 false (fun p t =>
       let w : Ty := if f.h.typ = .i32 then .i64 else .n64
       Res.of (narrow w f.dst.clp 64 (elemInt f.h.typ 32 (srcVal p t f.h.typ f.a) * elemInt f.h.typ 32 (srcVal p t f.h.typ f.b)
         + elemInt w 64 (srcVal p t w f.c)))) ∧
     Does (.idot4 f) f.dst 1 false (fun p t =>
       let w : Ty := if f.h.typ = .i8x4 then .i32 else .n32
       let byte (x j : Nat) : Int := elemInt f.h.typ 8 (x / 256 ^ j % 256)
       let a := srcVal p t f.h.typ f.a
       let b := srcVal p t f.h.typ f.b
       Res.of (narrow w f.dst.clp 32 (elemInt w 32 (srcVal p t w f.c) + byte a 0 * byte b 0 + byte a 1 * byte b 1
         + byte a 2 * byte b 2 + byte a 3 * byte b 3))) ∧
     Does (.icmp f) f.dst 1 true (fun p t =>
       let w := if f.h.typ.is64 then 64 else 32
       Res.of (if compareInt f.xf (elemInt f.h.typ w (srcVal p t f.h.typ f.a)) (elemInt f.h.typ w (srcVal p t f.h.typ f.b))
         then 1 else 0))) ∧
  ((∀ f : RForm,
     Does (.isel f) f.dst f.h.typ.regs false (fun p t =>
       Res.of (if srcVal p t .b32 f.c ≠ 0 then srcVal p t f.h.typ f.a else srcVal p t f.h.typ f.b)) ∧
     Does (.iaddc f) f.dst f.h.typ.regs false (fun p t =>
       let w := if f.h.typ.is64 then 64 else 32
       let x := srcVal p t f.h.typ f.a + srcVal p t f.h.typ f.b + (if creg p t f.c.num.toNat then 1 else 0)
       { val := x % 2 ^ w, conds := [(f.c.num.toNat, decide (2 ^ w ≤ x))], flags := 0 })) ∧
   (∀ f : IForm,
     Does (.lea f) f.dst 2 false (fun p t => Res.of (srcPair p t f.a + BitVec.signExtend 64 f.imm).toNat) ∧
     Does (.movImmediate f) f.dst f.h.typ.regs false (fun _ _ =>
       Res.of (movClamp f.h.typ f.dst.clp (movValue f.h.typ f.imm))) ∧
     Does (.movRegister f) f.dst f.h.typ.regs false (fun p t =>
       Res.of (movClamp f.h.typ f.dst.clp (srcVal p t f.h.typ f.a)))))

/-- R302, R303: logic on two sources, and shifts and rotation element by element.

R304-R308: fields, counts, bytes and the hash. -/
def Obligations.LogicAndBitsCompute : Prop :=
  (∀ f : RForm,
     let two (op : Nat → Nat → Nat) (p : State) (t : TRef) : Res :=
       Res.of (op (srcVal p t f.h.typ f.a) (srcVal p t f.h.typ f.b))
     let shifted (op : Nat → Nat → Nat → Nat) (p : State) (t : TRef) : Res :=
       let w := (tyElems f.h.typ).1
       Res.of (sumOf ((List.range (tyElems f.h.typ).2).map fun j => 2 ^ (w * j) *
         op w (srcVal p t f.h.typ f.a / 2 ^ (w * j) % 2 ^ w) (srcVal p t f.h.typ.shiftAmount f.b / 2 ^ (w * j) % 256)))
     Does (.andd f) f.dst f.h.typ.regs false (two fun a b => a &&& b) ∧
     Does (.orr f) f.dst f.h.typ.regs false (two fun a b => a ||| b) ∧
     Does (.xorr f) f.dst f.h.typ.regs false (two fun a b => a ^^^ b) ∧
     Does (.andn f) f.dst f.h.typ.regs false (two fun a b => a &&& (2 ^ bitWidth f.h.typ - 1 - b)) ∧
     Does (.shl f) f.dst f.h.typ.regs false (shifted fun w a n => if w ≤ n then 0 else a * 2 ^ n % 2 ^ w) ∧
     Does (.shr f) f.dst f.h.typ.regs false (shifted fun _ a n => a / 2 ^ n) ∧
     Does (.sar f) f.dst f.h.typ.regs false (shifted fun w a n => wrap w (sgn w a / ((2 ^ n : Nat) : Int))) ∧
     Does (.rotl f) f.dst f.h.typ.regs false (shifted fun w a n => a * 2 ^ (n % w) % 2 ^ w + a * 2 ^ (n % w) / 2 ^ w)) ∧
  ((∀ f : IForm,
     Does (.bfx f) f.dst f.h.typ.regs false (fun p t =>
       let x := srcVal p t f.h.typ f.a / 2 ^ bits f.imm 5 0 % 2 ^ (bits f.imm 13 8 + 1)
       Res.of (if tySigned f.h.typ then wrap (bitWidth f.h.typ) (sgn (bits f.imm 13 8 + 1) x) else x)) ∧
     Does (.prmb f) f.dst 1 false (fun p t =>
       Res.of (sumOf ((List.range 4).map fun j => 256 ^ j * prmbByte (srcPair p t f.a).toNat (f.imm.toNat / 256 ^ j % 256))))) ∧
   (∀ f : RForm,
     let a (p : State) (t : TRef) : Nat := srcVal p t f.h.typ f.a
     let w := bitWidth f.h.typ
     Does (.bfi f) f.dst f.h.typ.regs false (fun p t =>
       let c := srcVal p t .b32 f.c
       let m := (2 ^ fld c 14 8 - 1) * 2 ^ fld c 5 0 % 2 ^ w
       Res.of ((a p t &&& (2 ^ w - 1 - m)) ||| ((srcVal p t f.h.typ f.b * 2 ^ fld c 5 0) &&& m))) ∧
     Does (.popc f) f.dst 1 false (fun p t => Res.of (popcount w (a p t))) ∧
     Does (.clz f) f.dst 1 false (fun p t => Res.of (if a p t = 0 then w else w - 1 - Nat.log2 (a p t))) ∧
     Does (.brev f) f.dst f.h.typ.regs false (fun p t =>
       Res.of (sumOf ((List.range w).map fun i => if (a p t).testBit (w - 1 - i) then 2 ^ i else 0))) ∧
     Does (.ffs f) f.dst 1 false (fun p t => Res.of ((lowestBit w (a p t)).getD 0xFFFFFFFF)) ∧
     Does (.mix32 f) f.dst 1 false (fun p t => Res.of (mix32 (srcWord p t f.a) (srcWord p t f.b)).toNat)))

/-- R312-R315: the float instructions, each element rounded as its operation says, with its flags.

The model's own: log entries 85, 86. -/
def Obligations.FloatArithmeticComputes : Prop :=
  ∀ f : RForm,
    DoesRounded (.fadd f) f.dst f.h.typ.regs (byXf f.xf) (perFloat f 2 fun k m l => fpAdd k m (nAt l 0) (nAt l 1)) ∧
    DoesRounded (.fsub f) f.dst f.h.typ.regs (byXf f.xf) (perFloat f 2 fun k m l => fpSub k m (nAt l 0) (nAt l 1)) ∧
    DoesRounded (.fmul f) f.dst f.h.typ.regs (byXf f.xf) (perFloat f 2 fun k m l => fpMul k m (nAt l 0) (nAt l 1)) ∧
    DoesRounded (.ffma f) f.dst f.h.typ.regs (byXf f.xf) (perFloat f 3 fun k m l => fpFma k m (nAt l 0) (nAt l 1) (nAt l 2)) ∧
    DoesRounded (.fmin f) f.dst f.h.typ.regs (byFmode f) (perFloat f 2 fun k m l => fpMinMax k m false (nAt l 0) (nAt l 1)) ∧
    DoesRounded (.fmax f) f.dst f.h.typ.regs (byFmode f) (perFloat f 2 fun k m l => fpMinMax k m true (nAt l 0) (nAt l 1)) ∧
    DoesRounded (.fdiv f) f.dst f.h.typ.regs (byXf f.xf) (perFloat f 2 fun k m l => fpDiv k m (nAt l 0) (nAt l 1)) ∧
    DoesRounded (.fsqrt f) f.dst f.h.typ.regs (byXf f.xf) (perFloat f 1 fun k m l => fpSqrt k m (nAt l 0)) ∧
    DoesRounded (.frcp f) f.dst f.h.typ.regs (byXf f.xf) (perFloat f 1 fun k m l => fpRcp k m (nAt l 0)) ∧
    DoesRounded (.frsq f) f.dst f.h.typ.regs (byXf f.xf) (perFloat f 1 fun k m l => fpRsq k m (nAt l 0)) ∧
    DoesRounded (.fexp2 f) f.dst f.h.typ.regs (byXf f.xf) (perFloat f 1 fun k m l => fpExp2 k m (nAt l 0)) ∧
    DoesRounded (.flog2 f) f.dst f.h.typ.regs (byXf f.xf) (perFloat f 1 fun k m l => fpLog2 k m (nAt l 0)) ∧
    DoesRounded (.fsin f) f.dst f.h.typ.regs (byXf f.xf) (perFloat f 1 fun k m l => fpSin k m (nAt l 0)) ∧
    DoesRounded (.fcos f) f.dst f.h.typ.regs (byXf f.xf) (perFloat f 1 fun k m l => fpCos k m (nAt l 0)) ∧
    DoesRounded (.ffract f) f.dst f.h.typ.regs (byXf f.xf) (perFloat f 1 fun k m l => fpFract k m (nAt l 0)) ∧
    DoesRounded (.frnd f) f.dst f.h.typ.regs (byXf f.xf) (perFloat f 1 fun k m l => fpRound k m (nAt l 0))

/-- R316, R317: the float compare, with the flag of a NaN, and the class mask. -/
def Obligations.FloatCompareAndClassCompute : Prop :=
  ∀ f : RForm,
    DoesInGroup (.fcmp f) f.dst 1 true (fun p g _ t =>
      match tyFmt f.h.typ with
      | none => Res.of 0
      | some (k, n) =>
        let x (src : Src) (j : Nat) : Nat := srcVal p t f.h.typ src / 2 ^ (k.width * j) % 2 ^ k.width
        joinElems 1 ((List.range n).map fun j =>
          let r := fpCompare k (ftzOf p (modeThread g f.dst t) false) f.xf (x f.a j) (x f.b j)
          (if r.1 then 1 else 0, r.2))) ∧
    Does (.fclass f) f.dst 1 false (fun p t =>
      match tyFmt f.h.typ with
      | none => Res.of 0
      | some (k, n) => joinElems 16 ((List.range n).map fun j =>
          (fpClass k (srcVal p t f.h.typ f.a / 2 ^ (k.width * j) % 2 ^ k.width), 0)))

/-- R319-R322: conversions between floats, to and from integers, and to a block-float mantissa.

R323-R325: the shared exponent over the executing threads, packing and unpacking.

The model's own: log entries 85, 123. -/
def Obligations.ConversionsAndPacksCompute : Prop :=
  (∀ f : RForm,
     DoesRounded (.cvtf f) f.dst f.h.typ.regs (byXf f.xf) (fun p t rnd =>
       let src := (convSource f.b).getD .f32
       let dst := fmtOf f.h.typ
       let xs := cvtfArgs p t f src
       joinElems dst.width (xs.zipIdx.map fun e =>
         let r := fpConvert (fmtOf src) dst (rnd (xs.length == 2) e.2) e.1
         (fpClamp dst f.dst.clp.toNat r.1, r.2))) ∧
     DoesRounded (.cvtfi f) f.dst f.h.typ.regs (byXf f.xf) (fun p t rnd =>
       let src := (convSource f.b).getD .f32
       let w := (tyElems f.h.typ).1
       let n := (tyElems f.h.typ).2
       joinElems w ((List.range n).map fun j =>
         fpToInt (fmtOf src) (rnd (n == 2) j) (tySigned f.h.typ) w (elemOf src (srcVal p t src f.a) j))) ∧
     DoesRounded (.cvtif f) f.dst f.h.typ.regs (byXf f.xf) (fun p t rnd =>
       let src := (convSource f.b).getD .i32
       let w := (tyElems src).1
       let n := (tyElems src).2
       let dst := fmtOf f.h.typ
       joinElems dst.width ((List.range n).map fun j =>
         let r := finish dst (rnd (n == 2) j) (Fix.ofInt (elemInt src w (srcVal p t src f.a / 2 ^ (w * j) % 2 ^ w)) 0)
         (fpClamp dst f.dst.clp.toNat r.1, r.2))) ∧
     DoesRounded (.cvtbfp f) f.dst 1 (byXf f.xf) (fun p t rnd =>
       let r := bfpMantissa (rnd false 0) (f.h.typ == .i32) (f.c.num.toNat - 0xA0) (srcVal p t f.h.typ f.b % 256)
         (srcVal p t .f32 f.a)
       ⟨r.1, [], r.2⟩)) ∧
  (∀ f : RForm,
     DoesInGroup (.bfpexp f) f.dst 1 false (fun p g ts t =>
       let read (t : TRef) : Nat := flushIn .f32 (ftzOf p (modeThread g f.dst t) (f.xf.getLsbD 3)) (srcVal p t .f32 f.a)
       let sig (t : TRef) : Bool := isSnan .f32 (read t)
       ⟨bfpExponent (ts.map read), [], if (if f.dst.file = .k then ts.any sig else sig t) then flNV else 0⟩) ∧
     Does (.pack f) f.dst 1 false (fun p t =>
       let src := packSource f.h.typ
       let sw := (tyElems src).1
       let w := (tyElems f.h.typ).1
       let elems (x : Nat) : List Int := (List.range (tyElems src).2).map fun j => elemInt src sw (x / 2 ^ (sw * j) % 2 ^ sw)
       Res.of (sumOf ((elems (srcVal p t src f.a) ++ elems (srcVal p t src f.b)).zipIdx.map fun e =>
         2 ^ (w * e.2) * narrow f.h.typ f.dst.clp w e.1))) ∧
     Does (.unpack f) f.dst 1 false (fun p t =>
       let w := (tyElems f.h.typ).1
       let j := srcVal p t .n32 f.b % (tyElems f.h.typ).2
       Res.of (wrap 32 (elemInt f.h.typ w (srcVal p t f.h.typ f.a / 2 ^ (w * j) % 2 ^ w)))))

/-- R332-R335: the interval instructions, with the domain bit of a square root and the sign test.

R337-R340: the affine instructions.

The model's own: log entry 82. -/
def Obligations.IntervalsAndFormsCompute : Prop :=
  (∀ f : RForm,
     let one (op : Iv → Iv) (p : State) (t : TRef) : Res := (op (ivOf p t f.a)).res
     let two (op : Iv → Iv → Iv) (p : State) (t : TRef) : Res := (op (ivOf p t f.a) (ivOf p t f.b)).res
     Does (.ivadd f) f.dst 2 false (two Iv.add) ∧ Does (.ivsub f) f.dst 2 false (two Iv.sub) ∧
     Does (.ivmul f) f.dst 2 false (two Iv.mul) ∧ Does (.ivsqr f) f.dst 2 false (one Iv.sqr) ∧
     Does (.ivmin f) f.dst 2 false (two Iv.min) ∧ Does (.ivmax f) f.dst 2 false (two Iv.max) ∧
     Does (.ivabs f) f.dst 2 false (one Iv.abs) ∧
     Does (.ivsqrt f) f.dst 2 false (fun p t =>
       { (ivOf p t f.a).sqrt.res with conds := [(f.b.num.toNat, (ivOf p t f.a).domain)] }) ∧
     Does (.ivhyp f) f.dst 2 false (fun p t =>
       let two := (ivOf p t f.a).sqr.add (ivOf p t f.b).sqr
       (if f.xf = 1 then two.add (ivOf p t f.c).sqr else two).sqrt.res) ∧
     Does (.ivtest f) f.dst 1 true (fun p t =>
       let code := (ivOf p t f.a).signCode
       Res.of (if f.dst.file = .c then code / 2 ^ f.xf.toNat % 2 else code))) ∧
  (∀ f : RForm,
     Does (.afadd f) f.dst 3 false (fun p t => ((afOf p t f.a).add (afOf p t f.b)).res) ∧
     Does (.afmul f) f.dst 3 false (fun p t => ((afOf p t f.a).mul (afOf p t f.b)).res) ∧
     Does (.afsqr f) f.dst 3 false (fun p t => (afOf p t f.a).sqr.res) ∧
     Does (.afsqrt f) f.dst 3 false (fun p t =>
       { (afOf p t f.a).sqrt.res with conds := [(f.b.num.toNat, (afOf p t f.a).domain)] }) ∧
     Does (.afabs f) f.dst 3 false (fun p t => (afOf p t f.a).abs.res) ∧
     Does (.aftoiv f) f.dst 2 false (fun p t => (afOf p t f.a).hull.res))

/-- R342-R344: cross-lane reads, votes, scans and reductions over the executing threads `ts`; `shfl` outside checked
mode, or with each source lane bound and in the group.

The model's own: log entries 28, 140. -/
def Obligations.CrossLaneComputes : Prop :=
  ∀ f : RForm,
    let val (p : State) (t : TRef) : Nat := srcVal p t f.h.typ f.a
    (∀ (s : State) (g : Issue) (b : Block), Issues (.shfl f) .normal s g b →
      (b.checked = true → ∀ t ∈ executing s g b (.shfl f) .normal,
        g.lanes.getLsbD (shflLane (passed s g b (.shfl f) .normal) t f) = true ∧
        (passed s g b (.shfl f) .normal).bound ⟨t.wave, shflLane (passed s g b (.shfl f) .normal) t f⟩ = true) →
      Computes (.shfl f) s g b f.dst f.h.typ.regs false (fun p t => Res.of (shflValue p t f))) ∧
    DoesInGroup (.ballot f) f.dst 1 false (fun p _ ts _ =>
      Res.of (sumOf ((ts.filter fun t => srcVal p t .b32 f.a != 0).map fun t => 2 ^ t.lane))) ∧
    DoesInGroup (.vote f) f.dst 1 true (fun p _ ts _ =>
      let vals := ts.map (val p)
      let r : Bool := match f.xf.toNat with
        | 0 => vals.all (· != 0)
        | 1 => vals.any (· != 0)
        | _ => vals.all fun v => some v == vals.head?
      Res.of (if r then 1 else 0)) ∧
    DoesInGroup (.matchx f) f.dst 1 false (fun p _ ts t =>
      Res.of (sumOf ((ts.filter fun u => val p u == val p t).map fun u => 2 ^ u.lane))) ∧
    DoesInGroup (.scan f) f.dst f.h.typ.regs false (fun p _ ts t =>
      let run := ts.zip (scanRun f.h.typ f.xf (ts.map (val p)))
      Res.of (match run.find? fun e => e.1 == t with
        | some e => if f.xf.getLsbD 3 then e.2.1 else e.2.2
        | none => 0)) ∧
    DoesInGroup (.redx f) f.dst f.h.typ.regs false (fun p _ ts _ =>
      Res.of (((scanRun f.h.typ f.xf (ts.map (val p))).getLast?.map Prod.snd).getD (scanIdentity f.h.typ f.xf)))

/-! ### Moves to k registers, float mode, flags and seed -/

/-- R301, R326-R328: `movk` writes the lowest lane's value once for the group; `frmset` and `fflags` return the old
value; `srseed` seeds the core's generators from the end of its cycle, or the wave's in deterministic mode. In checked
mode `movk` and `srseed` run when every lane of the group holds the same value.

R345: the execution masks, in every thread of the group whatever its E.

The model's own: log entries 82, 86. -/
def Obligations.MasksModesAndSeeds : Prop :=
  (∀ (f : RForm) (s : State) (g : Issue) (b : Block),
    (Issues (.movk f) .normal s g b →
      let p := passed s g b (.movk f) .normal
      let ts := executing s g b (.movk f) .normal
      let v := srcVal p (lowLane g) f.h.typ f.a
      (b.checked = true → ∀ t ∈ wholeGroup p g ts, srcVal p t f.h.typ f.a = v) →
      exec (.movk f) s = .next (ts.foldl advance (setKs p g f.dst.num.toNat (toWords f.h.typ.regs v)))) ∧
    (Issues (.srseed f) .normal s g b →
      let p := passed s g b (.srseed f) .normal
      let ts := executing s g b (.srseed f) .normal
      let v := srcWord p (lowLane g) f.a
      (b.checked = true → ∀ t ∈ wholeGroup p g ts, srcWord p t f.a = v) →
      let seed : Word := if v = 0 then 1 else v
      exec (.srseed f) s = .next (ts.foldl advance (
        if b.deterministic then p.modWave g.wave fun w => { w with sr := seed, seeded := some seed }
        else p.modCore b.core fun c => { c with seedNext := some seed })))) ∧
  (∀ (f : IForm) (s p : State) (g : Issue) (b : Block) (t : TRef),
    (IssuesTo (.frmset f) .normal s g b t p → exec (.frmset f) s =
      .next (advance (setV (p.modThread t fun x => { x with fmode := f.imm }) t f.dst.num.toNat (p.thread t).fmode) t)) ∧
    (IssuesTo (.fflags f) .normal s g b t p → exec (.fflags f) s =
      .next (advance (setV (p.modThread t fun x => { x with fflags := (p.thread t).fflags &&& ~~~f.imm }) t
        f.dst.num.toNat (p.thread t).fflags) t))) ∧
  (∀ (f : RForm) (s p : State) (g : Issue) (b : Block) (t : TRef),
     (IssuesTo (.msksave f) .all s g b t p → exec (.msksave f) s =
       .next (advance (setV p t f.dst.num.toNat ((vreg p t f.a.num.toNat <<< 1) ||| (if (p.thread t).e then 1 else 0))) t)) ∧
     (IssuesTo (.mskand f) .all s g b t p → exec (.mskand f) s =
       .next (advance (p.modThread t fun x => { x with e := x.e && srcVal p t .b32 f.a != 0 }) t)) ∧
     (IssuesTo (.mskrest f) .all s g b t p → exec (.mskrest f) s =
       .next (advance (setV (p.modThread t fun x => { x with e := (vreg p t f.a.num.toNat).getLsbD 0 }) t f.dst.num.toNat
         (vreg p t f.a.num.toNat >>> 1)) t)) ∧
     (IssuesTo (.mskelse f) .all s g b t p → exec (.mskelse f) s =
       .next (advance (p.modThread t fun x => { x with e := (vreg p t f.a.num.toNat).getLsbD 0 && !x.e }) t)))

/-! ### Control transfer -/

/-- R245, R280-R284: a transfer to a target that is a slot of a fetched line with its TGT bit set; calls write the
link pair; an untaken `ubra` goes on.

R283: `callsh` reads the table entry through the constant path, then calls it. -/
def Obligations.TransfersReachTargets : Prop :=
  (∀ (s p s1 : State) (g : Issue) (b : Block) (t : TRef) (target : BitVec 64) (c : Code),
     bits target 63 57 = 0 → slotOffset target = true →
     fetchLine p t (target.toNat / 64 * 64) = (s1, .ok c) → lineTgt c.raw (slotOf target.toNat) = true →
     (∀ f : BForm, branchTarget g.pc f = target →
       (IssuesTo (.bra f) .guarded s g b t p → exec (.bra f) s = .next (setPc s1 t target)) ∧
       (IssuesTo (.call f) .guarded s g b t p → exec (.call f) s =
         .next (setPc (writeLink s1 g t f.lnkK f.lnk.toNat (nextPc g.pc)) t target)) ∧
       (IssuesTo (.ubra f) .normal s g b t p → rawSrc p t .b32 f.cond ≠ 0 → exec (.ubra f) s = .next (setPc s1 t target)) ∧
       (IssuesTo (.ubra f) .normal s g b t p → rawSrc p t .b32 f.cond = 0 → exec (.ubra f) s = .next (advance p t))) ∧
     (∀ f : RForm, q (rawSrc p t .b64 f.a) = target →
       (IssuesTo (.brx f) .guarded s g b t p → exec (.brx f) s = .next (setPc s1 t target)) ∧
       (IssuesTo (.ret f) .guarded s g b t p → exec (.ret f) s = .next (setPc s1 t target)))) ∧
  (∀ (f : RForm) (s p s1 s2 : State) (g : Issue) (b : Block) (t : TRef) (v : BitVec 1024 × Bool) (c : Code),
     IssuesTo (.callsh f) .normal s g b t p →
     let ea := srcPair p t f.a + q (8 * srcVal p t .n32 f.b)
     let target := q (lineGet v.1 (ea.toNat % 128) 8)
     bits ea 2 0 = 0 → bits ea 63 57 = 0 →
     cacheRead p ⟨waveCore t.wave, .const, t, .default⟩ (threadReq p t 0 true) (ea.toNat / 128 * 128)
       (byteMask (ea.toNat % 128) 8) = (s1, .ok v) →
     target ≠ 0 → bits target 63 57 = 0 → slotOffset target = true →
     fetchLine s1 t (target.toNat / 64 * 64) = (s2, .ok c) → lineTgt c.raw (slotOf target.toNat) = true →
     exec (.callsh f) s = .next (setPc (writeLink s2 g t (f.dst.file == .k) f.dst.num.toNat (nextPc g.pc)) t target))

/-- R245, R280-R284: the traps of every transfer of control, in the order of its checks: an address beyond 2^57 (0x0B), one
that is no slot (0x03), a slot without its TGT bit (0x03); each with the target in tval.

R283: of `callsh` also those of its table entry: an address that is not 8-byte aligned (0x12) or lies beyond 2^57 (0x0B), and
an entry of 0 (0x03). -/
def Obligations.TransfersTrap : Prop :=
  let traps (p : State) (t : TRef) (target : BitVec 64) (o : Host.Outcome State Fault Refusal) : Prop :=
    (bits target 63 57 ≠ 0 → o = .next (trapAt p t ⟨0x0B, target, 0, false, 0⟩)) ∧
    (bits target 63 57 = 0 → slotOffset target = false → o = .next (trapAt p t ⟨0x03, target, 0, false, 0⟩)) ∧
    (∀ (s1 : State) (c : Code), bits target 63 57 = 0 → slotOffset target = true →
      fetchLine p t (target.toNat / 64 * 64) = (s1, .ok c) → lineTgt c.raw (slotOf target.toNat) = false →
      o = .next (trapAt s1 t ⟨0x03, target, 0, false, 0⟩))
  ∀ (s p : State) (g : Issue) (b : Block) (t : TRef),
    (∀ f : BForm,
      (IssuesTo (.bra f) .guarded s g b t p → traps p t (branchTarget g.pc f) (exec (.bra f) s)) ∧
      (IssuesTo (.call f) .guarded s g b t p → traps p t (branchTarget g.pc f) (exec (.call f) s)) ∧
      (IssuesTo (.ubra f) .normal s g b t p → rawSrc p t .b32 f.cond ≠ 0 →
        traps p t (branchTarget g.pc f) (exec (.ubra f) s))) ∧
    (∀ f : RForm,
      (IssuesTo (.brx f) .guarded s g b t p → traps p t (q (rawSrc p t .b64 f.a)) (exec (.brx f) s)) ∧
      (IssuesTo (.ret f) .guarded s g b t p → traps p t (q (rawSrc p t .b64 f.a)) (exec (.ret f) s)) ∧
      (IssuesTo (.callsh f) .normal s g b t p →
        let ea := srcPair p t f.a + q (8 * srcVal p t .n32 f.b)
        (bits ea 2 0 ≠ 0 → exec (.callsh f) s = .next (trapAt p t ⟨0x12, ea, 0, false, 0⟩)) ∧
        (bits ea 2 0 = 0 → bits ea 63 57 ≠ 0 → exec (.callsh f) s = .next (trapAt p t ⟨0x0B, ea, 0, false, 0⟩)) ∧
        (∀ (s1 : State) (v : BitVec 1024 × Bool), bits ea 2 0 = 0 → bits ea 63 57 = 0 →
          cacheRead p ⟨waveCore t.wave, .const, t, .default⟩ (threadReq p t 0 true) (ea.toNat / 128 * 128)
            (byteMask (ea.toNat % 128) 8) = (s1, .ok v) →
          let target := q (lineGet v.1 (ea.toNat % 128) 8)
          (target = 0 → exec (.callsh f) s = .next (trapAt s1 t ⟨0x03, 0, 0, false, 0⟩)) ∧
          (target ≠ 0 → traps s1 t target (exec (.callsh f) s)))))

/-- R279, R285-R287, R289, R292: `nop` and `sleep 0` go on; `exit` ends its thread or frees an item's; `yield` and
`sleep` wait in cycles, counted from the end of the present one; `join` holds the thread and counts its arrival; `trap`
and `brk` take their deferred trap with the next slot as its return address.

R40-R42, R288: `waitc` over descriptors that raise no trap: it completes with the acquires and the mask of the
conditions that hold when its mode is satisfied, completes with bit 4 when its time-out is 0, and waits otherwise.

The model's own: log entries 10, 81. -/
def Obligations.WaitsEndsAndSoftwareTraps : Prop :=
  ((∀ (f : RForm) (s p : State) (g : Issue) (b : Block) (t : TRef),
     (IssuesTo (.nop f) .normal s g b t p → exec (.nop f) s = .next (advance p t)) ∧
     (IssuesTo (.exit f) .guarded s g b t p → exec (.exit f) s = .next (exitThread p t)) ∧
     (IssuesTo (.yield f) .normal s g b t p → exec (.yield f) s =
       .next (setWait (p.modWave g.wave fun w => { w with bonus := 0, waited := 0 }) t (.cycles 17)))) ∧
   (∀ (f : IForm) (s p : State) (g : Issue) (b : Block) (t : TRef),
     (IssuesTo (.sleep f) .normal s g b t p → f.imm = 0 → exec (.sleep f) s = .next (advance p t)) ∧
     (IssuesTo (.sleep f) .normal s g b t p → f.imm ≠ 0 → exec (.sleep f) s = .next (setWait p t (.cycles (f.imm.toNat + 1)))) ∧
     (IssuesTo (.join f) .normal s g b t p →
       exec (.join f) s = .next (settle (setWait p t (.join (f.imm.toNat + 1))) b.id)) ∧
     (IssuesTo (.trap f) .normal s g b t p → exec (.trap f) s =
       .next (effects p [.trap t ⟨0x18, g.pc, f.imm.zeroExtend 64, true, 0⟩ (nextPc g.pc)])) ∧
     (IssuesTo (.brk f) .normal s g b t p → exec (.brk f) s =
       .next (effects p [.trap t ⟨0x19, g.pc, f.imm.zeroExtend 64, true, 0⟩ (nextPc g.pc)])))) ∧
  (∀ (f : IForm) (s p : State) (g : Issue) (b : Block) (t : TRef),
     IssuesTo (.waitc f) .normal s g b t p →
     let n := bits f.xf 2 1 + 1
     let all := f.xf.getLsbD 0
     let cs := (List.range n).map fun j =>
       pair (kreg p t.wave (f.a.num.toNat + 2 * j)) (kreg p t.wave (f.a.num.toNat + 2 * j + 1))
     let held := condBits p t b cs
     let acquired := (cs.filter (condHolds p t b)).foldl (fun s c => condAcquire s t b c) p
     (∀ c ∈ cs, condTrap p (.waitc f) b c = none) →
     (condMet n all held = true →
       exec (.waitc f) s = .next (advance (setV acquired t f.dst.num.toNat (d (held + 0))) t)) ∧
     (condMet n all held = false → f.imm = 0 →
       exec (.waitc f) s = .next (advance (setV acquired t f.dst.num.toNat (d (held + 16))) t)) ∧
     (condMet n all held = false → f.imm ≠ 0 →
       exec (.waitc f) s = .next (setWait p t (.waitc f.dst.num.toNat cs all
         (if f.imm = 0xFFFFFFFF then none else some (p.tick.toNat + f.imm.toNat))))))

/-! ### Extension blocks and `wsync` -/

/-- R29, R346, R347: `xacq` goes on when the wave holds the blocks, takes free ones, and waits for the rest; `xrel` gives
back what is not in use; `wsync` holds a thread its mask names and traps another with 0x06.

The model's own: log entries 10, 89, 96. -/
def Obligations.ExtensionBlocksAndWsync : Prop :=
  ∀ (f : IForm) (s p : State) (g : Issue) (b : Block) (t : TRef),
    let n := f.imm.toNat
    (IssuesTo (.xacq f) .normal s g b t p → n ≤ (p.wave g.wave).ext → exec (.xacq f) s = .next (advance p t)) ∧
    (IssuesTo (.xacq f) .normal s g b t p → (p.wave g.wave).ext < n →
      exec (.xacq f) s = .next (requestExt p [t] n false)) ∧
    (IssuesTo (.xrel f) .normal s g b t p → (p.wave g.wave).ext ≤ n → exec (.xrel f) s = .next (advance p t)) ∧
    (IssuesTo (.xrel f) .normal s g b t p → n < (p.wave g.wave).ext → extBusy p g.wave n = false →
      exec (.xrel f) s = .next (releaseExt (advance p t) g.wave n)) ∧
    (IssuesTo (.xrel f) .normal s g b t p → n < (p.wave g.wave).ext → extBusy p g.wave n = true →
      exec (.xrel f) s = .next (setWait p t .recheck)) ∧
    (IssuesTo (.wsync f) .normal s g b t p → f.imm.getLsbD t.lane = true →
      exec (.wsync f) s = .next (settle (setWait p t (.wsync f.imm)) b.id)) ∧
    (IssuesTo (.wsync f) .normal s g b t p → f.imm.getLsbD t.lane = false →
      exec (.wsync f) s = .next (settle (trapAt p t (simpleTrap 0x06)) b.id))

/-! ### Loads and stores -/

/-- R56, R351, R352: the loads of the generic, constant and tile-layout paths. The address is checked, the line is read
through its path (without clean bytes of the L1 where the load acquires), the generic path is race checked, an acquire
follows; then the value is on its way to the registers.

R57, R352: the scratch load, from the bytes of its place.

The model's own: log entries 27, 59, 67, 113. -/
def Obligations.LoadsRun : Prop :=
  (∀ (f : MForm) (s p s1 s2 : State) (g : Issue) (b : Block) (t : TRef) (i : Instr) (k : Cache) (v : BitVec 1024) (hit : Bool),
     (i, k) ∈ [(Instr.ld f, Cache.l1), (Instr.ldc f, Cache.const), (Instr.ldt f, Cache.tile)] →
     IssuesTo i .normal s g b t p → (p.thread t).ld < 63 →
     let ea := genericAddr p t f
     let n := accSize f
     let line := ea.toNat / 128 * 128
     let m := byteMask (ea.toNat % 128) n
     let r := threadReq p t 0 true
     let acq := isAcquire f.ord
     bits ea 63 57 = 0 → ea.toNat % n = 0 →
     cacheRead (if acq && Scope.wide f.scp then dropClean p (waveCore t.wave) r.asid r.agen line else p)
       ⟨waveCore t.wave, k, t, f.ret⟩ r line m = (s1, .ok (v, hit)) →
     raceOn k s1 t false (if acq then some f.scp else none) false line m = (s2, .ok ()) →
     exec i s = .next (sampledAt 0 (loadPlace k f) p g b t (loadLeft f g t
       (if acq then doAcquire s2 t f.scp (relRead s2 t r.asid r.agen line m (ownBytes s2 t k r.asid r.agen line)) else s2)
       (lineGet v (ea.toNat % 128) n) (if hit then 4 else cacheTracker k)))) ∧
  (∀ (f : MForm) (s p : State) (g : Issue) (b : Block) (t : TRef) (a : Place),
     IssuesTo (.ldl f) .normal s g b t p → (p.thread t).ld < 63 →
     let n := accSize f
     localPlace p b (localAddr p t f) n = some a → (localAddr p t f).toNat % n = 0 →
     exec (.ldl f) s = .next (loadLeft f g t (if isAcquire f.ord then scratchAcquire p t f.scp else p)
       (placeRead p t a n) 4))

/-- R62, R107, R352: a plain store of the generic or tile-layout path writes its bytes as speculative bytes of its
thread's region and is counted on ST; one that carries release ordering ends the region, releases and is then performed.

R57, R58, R352: the scratch store ends the region, releases where it carries release ordering, stores the bytes of
its registers at its place, and begins the next region.

The model's own: log entries 60, 67. -/
def Obligations.StoresRun : Prop :=
  (∀ (f : MForm) (s p : State) (g : Issue) (b : Block) (t : TRef) (i : Instr) (k : Cache),
     (i, k) ∈ [(Instr.st f, Cache.l1), (Instr.stt f, Cache.tile)] →
     IssuesTo i .normal s g b t p → (p.thread t).st < 63 →
     let ea := genericAddr p t f
     let n := accSize f
     let line := ea.toNat / 128 * 128
     let m := byteMask (ea.toNat % 128) n
     let val := linePut (ea.toNat % 128) (storeVal p t f)
     let left (r : State) : Host.Outcome State Fault Refusal := .next (sampledAt 1 (storePlace k f) p g b t r)
     bits ea 63 57 = 0 → ea.toNat % n = 0 →
     (∀ (s1 s2 s3 : State), isRelease f.ord = false →
       let r := threadReq p t 1 true
       let away := leavesCore p ⟨waveCore t.wave, k, t, f.ret⟩ r line
       storeTouch p (waveCore t.wave) k t r line = (s1, .ok ()) →
       cacheWrite s1 ⟨waveCore t.wave, k, t, f.ret⟩ r line m val = (s2, .ok ()) →
       raceOn k s2 t true none false line m = (s3, .ok ()) →
       exec i s = left (advance (pendStore s3 t (if away then 5 else 4) away) t)) ∧
     (∀ (s2 s3 : State) (rel : Option RelTag), isRelease f.ord = true → Scope.wide f.scp = true →
       doRelease (endRegion p t) t f.scp = (s2, .ok rel) →
       homeStore k s2 t (threadReq s2 t 1 false) line m val f.ret rel = (s3, .ok ()) →
       exec i s = left (nextRegion (pendStore s3 t 4 false) t)) ∧
     (∀ (s1 s2 s3 : State) (rel : Option RelTag), isRelease f.ord = true → Scope.wide f.scp = false →
       doRelease (endRegion p t) t f.scp = (s1, .ok rel) →
       let r := threadReq s1 t 1 false
       let path : Machine.Path := ⟨waveCore t.wave, k, t, f.ret⟩
       storeTouch s1 (waveCore t.wave) k t r line = (s2, .ok ()) → storeRoom s2 path r line = true →
       raceOn k s2 t true none false line m = (s3, .ok ()) →
       let c := cacheStore s3 path r.part r line m val
       exec i s = left (nextRegion (pendStore c.1 t (if c.2 then 5 else 4) c.2) t))) ∧
  (∀ (f : MForm) (s p s2 s3 : State) (g : Issue) (b : Block) (t : TRef) (a : Place) (rel : Option RelTag),
     IssuesTo (.stl f) .normal s g b t p → (p.thread t).st < 63 →
     let n := accSize f
     localPlace p b (localAddr p t f) n = some a → (localAddr p t f).toNat % n = 0 →
     (if isRelease f.ord then doRelease (endRegion p t) t f.scp else (endRegion p t, .ok none)) = (s2, .ok rel) →
     placeWrite s2 t a (toBytes n (storeVal p t f)) = (s3, none) →
     exec (.stl f) s = .next (nextRegion (pendStore s3 t 7 false) t))

/-- R56, R57, R351: every load, store, atomic and reduction traps at its address before anything else: beyond 2^57 (0x0B),
misaligned (0x12, with the address), and on scratch outside the block's memory (0x15), then misaligned. A load or store
whose counter is full waits first (R38), and a returning atomic of deterministic mode traps as it issues (R361). -/
def Obligations.AccessesTrapAtTheirAddress : Prop :=
  ∀ (f : MForm) (s p : State) (g : Issue) (b : Block) (t : TRef) (i : Instr) (align : Nat),
    (∀ (kind : Nat) (place : State → TRef → BitVec 64 × Nat),
      (i, align, kind, place) ∈ [
        (Instr.ld f, accSize f, 0, loadPlace .l1 f), (.ldc f, accSize f, 0, loadPlace .const f),
        (.ldt f, accSize f, 0, loadPlace .tile f),
        (.st f, accSize f, 1, storePlace .l1 f), (.stt f, accSize f, 1, storePlace .tile f),
        (.atom f, atomSize f, 2, bankPlace (atomSize f) f), (.cas f, atomSize f, 2, bankPlace (atomSize f) f),
        (.red f, atomSize f, 2, bankPlace (atomSize f) f), (.bupd f, 128, 2, bankPlace 128 f),
        (.bred f, 128, 2, bankPlace 128 f)] →
      IssuesTo i .normal s g b t p → (kind = 0 → (p.thread t).ld < 63) → (kind = 1 → (p.thread t).st < 63) →
      (i ∈ [Instr.atom f, .cas f] → b.deterministic = false) →
      let ea := genericAddr p t f
      let left (x : Trap) : Host.Outcome State Fault Refusal := .next (sampledAt kind place p g b t (trapAt p t x))
      (bits ea 63 57 ≠ 0 → exec i s = left ⟨0x0B, 0, 0, false, 0⟩) ∧
      (bits ea 63 57 = 0 → ea.toNat % align ≠ 0 → exec i s = left ⟨0x12, ea, 0, false, 0⟩)) ∧
    (∀ left : State → State,
      (i, align, left) ∈ [
        (Instr.ldl f, accSize f, fun r => r), (.stl f, accSize f, fun r => r),
        (.atoml f, atomSize f, sampledAt 2 (localSample f) p g b t),
        (.casl f, atomSize f, sampledAt 2 (localSample f) p g b t)] →
      IssuesTo i .normal s g b t p → (i = .ldl f → (p.thread t).ld < 63) → (i = .stl f → (p.thread t).st < 63) →
      let ea := localAddr p t f
      (localPlace p b ea align = none → exec i s = .next (left (trapAt p t ⟨0x15, 0, 0, false, 0⟩))) ∧
      (localPlace p b ea align ≠ none → ea.toNat % align ≠ 0 →
        exec i s = .next (left (trapAt p t ⟨0x12, ea.zeroExtend 64, 0, false, 0⟩))))

/-- R354-R358: prefetch, fence, path fence, instruction fence, write-back and invalidation. A fence with acquire ordering
and `ifence` wait for the thread's earlier accesses.

The model's own: log entries 10, 27, 114. -/
def Obligations.FencesAndCacheControlRun : Prop :=
  (∀ (f : MForm) (s p : State) (g : Issue) (b : Block) (t : TRef),
    (IssuesTo (.prf f) .normal s g b t p → exec (.prf f) s = .next (advance (prefetch f p t) t)) ∧
    (IssuesTo (.fence f) .normal s g b t p → isAcquire f.ord = true → (p.thread t).ld ≠ 0 →
      exec (.fence f) s = .next (setWait p t .recheck)) ∧
    (IssuesTo (.fence f) .normal s g b t p → isAcquire f.ord = true → isRelease f.ord = false → (p.thread t).ld = 0 →
      exec (.fence f) s = .next (advance (scratchAcquire p t f.scp) t)) ∧
    (∀ (s1 : State) (rel : Option RelTag), IssuesTo (.fence f) .normal s g b t p → isRelease f.ord = true →
      (isAcquire f.ord = true → (p.thread t).ld = 0) → doRelease (endRegion p t) t f.scp = (s1, .ok rel) →
      exec (.fence f) s = .next (nextRegion (if isAcquire f.ord then scratchAcquire s1 t f.scp else s1) t)) ∧
    (IssuesTo (.wb f) .normal s g b t p → (p.thread t).st < 63 → bits (genericAddr p t f) 63 57 = 0 →
      let core := waveCore t.wave
      let hit := inRange (threadReq p t 1 false) ((genericAddr p t f).toNat / 128 * 128) f.cnt.val
      let closes := (lines p core .l1 ++ lines p core .tile).any fun l => l.spec == some t && hit l
      let s1 := pendStore (writeBack (writeBack (if closes then endRegion p t else p) core .l1 hit) core .tile hit) t 4 false
      exec (.wb f) s = .next (if closes then nextRegion s1 t else advance s1 t)) ∧
    (IssuesTo (.inv f) .normal s g b t p → bits (genericAddr p t f) 63 57 = 0 →
      let core := waveCore t.wave
      let hit := inRange (threadReq p t 0 false) ((genericAddr p t f).toNat / 128 * 128) f.cnt.val
      exec (.inv f) s = .next (advance (invalidate (invalidate p core .l1 hit) core .tile hit) t))) ∧
  (∀ (f : IForm) (s p : State) (g : Issue) (b : Block) (t : TRef), IssuesTo (.pfence f) .normal s g b t p →
    exec (.pfence f) s = .next (advance (pathFence p (waveCore t.wave) f.imm.toNat) t)) ∧
  (∀ (f : RForm) (s p : State) (g : Issue) (b : Block) (t : TRef), IssuesTo (.ifence f) .normal s g b t p →
    (unperformed p t = true → exec (.ifence f) s = .next (setWait p t .recheck)) ∧
    (unperformed p t = false → exec (.ifence f) s = .next (advance (setLines p (waveCore t.wave) .icache []) t)))

/-! ### Atomics and reductions -/

/-- R361, R362: the returning atomics at a home bank: the region ends, the bank performs the one update, and the old value
is on its way to the DAT registers. In deterministic mode they trap 0x16.

R363: the same on scratch, at the place its local address names.

The model's own: log entry 75. -/
def Obligations.AtomicsRun : Prop :=
  (∀ (f : MForm) (s p : State) (g : Issue) (b : Block) (t : TRef) (i : Instr) (upd : State → TRef → Nat → Nat),
     (i, upd) ∈ [(Instr.atom f, atomUpd f), (Instr.cas f, casUpd f)] → IssuesTo i .normal s g b t p →
     let left (r : State) : Host.Outcome State Fault Refusal := .next (sampledAt 2 (bankPlace (atomSize f) f) p g b t r)
     (b.deterministic = true → exec i s = left (trapAt p t ⟨0x16, (p.thread t).pc, 0, false, 0⟩)) ∧
     (∀ (s1 : State) (v : BitVec 1024), b.deterministic = false → (p.thread t).ld < 63 →
       let ea := genericAddr p t f
       let o := ea.toNat % 128
       let n := atomSize f
       bits ea 63 57 = 0 → ea.toNat % n = 0 →
       homeOp (endRegion p t) t f (ea.toNat / 128 * 128) (fun v => (byteMask o n, linePut o (upd p t (lineGet v o n)))) =
         (s1, .ok v) →
       let regs := ((List.range f.h.typ.regs).zip (toWords f.h.typ.regs (lineGet v o n))).map fun e => (f.dat.num.toNat + e.1, e.2)
       exec i s = left (nextRegion (pendLoad (claimRegs s1 t false (regs.map Prod.fst)) t 4 0 false regs) t))) ∧
  (∀ (f : MForm) (s p s2 s3 : State) (g : Issue) (b : Block) (t : TRef) (i : Instr) (upd : State → TRef → Nat → Nat)
     (a : Place) (rel : Option RelTag),
     (i, upd) ∈ [(Instr.atoml f, atomUpd f), (Instr.casl f, casUpd f)] → IssuesTo i .normal s g b t p →
     (p.thread t).ld < 63 →
     let n := atomSize f
     localPlace p b (localAddr p t f) n = some a → (localAddr p t f).toNat % n = 0 →
     (if isRelease f.ord then doRelease (endRegion p t) t f.scp else (endRegion p t, .ok none)) = (s2, .ok rel) →
     let old := placeRead s2 t a n
     placeWrite s2 t a (toBytes n (upd p t old)) = (s3, none) →
     let s4 := if isAcquire f.ord then scratchAcquire s3 t f.scp else s3
     let regs := ((List.range f.h.typ.regs).zip (toWords f.h.typ.regs old)).map fun e => (f.dat.num.toNat + e.1, e.2)
     exec i s = .next (sampledAt 2 (localSample f) p g b t
       (nextRegion (pendLoad (claimRegs s4 t false (regs.map Prod.fst)) t 4 0 false regs) t)))

/-- R361, R364-R367: the reductions outside deterministic mode: one update of a word, one update a line over a range, one
update of a line by the lanes' values; and `aflush`, which waits for the thread's reductions. A `bupd` that a fault stopped
has performed its earlier lines, and goes on with the rest when its thread executes it again; a count outside 1 to 65,536
traps 0x01.

R366, R367: in deterministic mode a reduction enters the block's buffer, or traps 0x16 when the buffer of 512 would
overflow, and `aflush` is a collective.

The model's own: log entries 10, 60, 76. -/
def Obligations.ReductionsRun : Prop :=
  (∀ (s p : State) (g : Issue) (b : Block) (t : TRef), b.deterministic = false →
     (∀ (f : MForm), (p.thread t).st < 63 →
       let ea := genericAddr p t f
       let o := ea.toNat % 128
       let n := atomSize f
       let left (n : Nat) (r : State) : Host.Outcome State Fault Refusal := .next (sampledAt 2 (bankPlace n f) p g b t r)
       bits ea 63 57 = 0 →
       (∀ (s1 : State) (v : BitVec 1024), IssuesTo (.red f) .normal s g b t p → ea.toNat % n = 0 →
         homeOp (endRegion p t) t f (ea.toNat / 128 * 128)
           (fun v => (byteMask o n, linePut o (bankOp f.xf f.h.typ (lineGet v o n) (datVal p t f 0 f.h.typ.regs)))) = (s1, .ok v) →
         exec (.red f) s = left n (nextRegion (pendStore s1 t 6 false) t)) ∧
       (∀ (s1 : State) (v : BitVec 1024), IssuesTo (.bred f) .normal s g b t p → ea.toNat % 128 = 0 →
         homeOp (endRegion p t) t f ea.toNat
           (fun v => lineOp f.xf f.h.typ v [(bredOffset f t.lane, datVal p t f 0 f.h.typ.regs)]) = (s1, .ok v) →
         standing s1 g t = true →
         exec (.bred f) s = left 128 (nextRegion (pendStore s1 t 6 false) t)) ∧
       (IssuesTo (.bupd f) .normal s g b t p → ea.toNat % 128 = 0 →
         (bupdCount f p t = 0 ∨ 65536 < bupdCount f p t → exec (.bupd f) s = left 128 (trapAt p t (illegal (.bupd f)))) ∧
         (∀ (s2 : State) (rel : Option RelTag), 1 ≤ bupdCount f p t → bupdCount f p t ≤ 65536 →
           let pc := (p.thread t).pc
           let past := match (p.thread t).bupdAt with | some x => if x.1 = pc then x.2 else 0 | none => 0
           let s1 := (endRegion p t).modThread t fun x => { x with bupdAt := some (pc, past) }
           (if isRelease f.ord then doRelease s1 t f.scp else (s1, .ok none)) = (s2, .ok rel) →
           let lines := bupdLines f (datVal p t f 0 f.h.typ.regs) t rel (bupdCount f p t - past) (ea.toNat + 128 * past) s2
           (∀ s3, lines = (s3, .ok ()) →
             exec (.bupd f) s = left 128 (nextRegion (pendStore (s3.modThread t fun x => { x with bupdAt := none }) t 6 false) t)) ∧
           (∀ s3 x, lines = (s3, .error (.trap x)) → exec (.bupd f) s = left 128 (trapAt s3 t x)) ∧
           (∀ s3 m, lines = (s3, .error (.miss m)) → exec (.bupd f) s = left 128 (meet s3 t false m))))) ∧
     (∀ f : RForm, IssuesTo (.aflush f) .normal s g b t p →
       ((p.stores.any fun x => x.t == t && x.tracker == 6 && !x.fin) = true →
         exec (.aflush f) s = .next (setWait (endRegion p t) t .recheck)) ∧
       ((p.stores.any fun x => x.t == t && x.tracker == 6 && !x.fin) = false →
         exec (.aflush f) s = .next (nextRegion (endRegion p t) t)))) ∧
  (∀ (s p : State) (g : Issue) (b : Block) (t : TRef), b.deterministic = true →
     (∀ (f : MForm) (i : Instr) (vals : List (Nat × BitVec 64)) (n align : Nat),
       (i, vals, n, align) ∈ [
         (Instr.red f, [(0, q (datVal p t f 0 f.h.typ.regs))], 0, atomSize f),
         (.bupd f, [(0, q (datVal p t f 0 f.h.typ.regs))], bupdCount f p t, 128),
         (.bred f, [(bredOffset f t.lane, q (datVal p t f 0 f.h.typ.regs))], 0, 128)] →
       IssuesTo i .normal s g b t p → (p.thread t).st < 63 →
       (i = .bupd f → 1 ≤ bupdCount f p t ∧ bupdCount f p t ≤ 65536) →
       let ea := genericAddr p t f
       let left (r : State) : Host.Outcome State Fault Refusal := .next (sampledAt 2 (bankPlace align f) p g b t r)
       bits ea 63 57 = 0 → ea.toNat % align = 0 →
       (512 ≤ b.detBuf.length → exec i s = left (trapAt p t ⟨0x16, g.pc, 2, false, 0⟩)) ∧
       (b.detBuf.length < 512 →
         let s1 := endRegion p t
         let e : BufAtomic := { t := t, order := s1.seq, pc := g.pc, va := ea, op := f.xf, ty := f.h.typ, ord := f.ord
                                scp := f.scp, vals := vals, lines := n, ret := f.ret, fate := none }
         let s2 := { s1 with seq := s1.seq + 1 }.modBlock b.id fun x => { x with detBuf := x.detBuf ++ [e] }
         exec i s = left (nextRegion (pendStore s2 t 6 true) t))) ∧
     (∀ f : RForm, IssuesTo (.aflush f) .normal s g b t p →
       exec (.aflush f) s = .next (settle (setWait (endRegion p t) t .aflush) b.id)))

/-! ### Barriers, arrival objects, timelines, counters, messages -/

/-- R368: an arrival at a block barrier ends the region, is recorded with its phase, and may complete the phase; `bar`
then waits for it, `barr` goes on with the phase as its token; `barw` acquires once its token's phase is over. A count
beyond the block's threads traps 0x01; a second arrival, or another count, traps 0x06.

R369, R379: the cluster and grid barriers end the region, release at their scope and wait for the others; `rgnb` ends
the region, and the next one begins at it. A grid barrier outside a cooperative launch traps 0x01.

The model's own: log entry 10. -/
def Obligations.BarriersRun : Prop :=
  (∀ (f : IForm) (s p : State) (g : Issue) (b : Block) (t : TRef),
     let n := barNumber f
     let x := barrierOf p b n
     let came := (arriveRace (endRegion p t) t .block).modBlock b.id fun y =>
       { y with barriers := y.barriers.put n ⟨barExpected f, x.arrived ++ [t], x.phase⟩ }
     (IssuesTo (.bar f) .normal s g b t p → barTooMany p b f = true →
       exec (.bar f) s = .next (trapAt p t (illegal (.bar f)))) ∧
     (IssuesTo (.bar f) .normal s g b t p → barTooMany p b f = false →
       (t ∈ x.arrived ∨ (x.arrived ≠ [] ∧ x.expected ≠ barExpected f)) →
       exec (.bar f) s = .next (trapAt p t ⟨0x06, 0, 0, false, 0⟩)) ∧
     (barTooMany p b f = false → t ∉ x.arrived → (x.arrived = [] ∨ x.expected = barExpected f) →
       (IssuesTo (.bar f) .normal s g b t p →
         exec (.bar f) s = .next (settleBarrier (setWait came t (.barrier n x.phase.toNat)) b.id n)) ∧
       (IssuesTo (.barr f) .normal s g b t p →
         exec (.barr f) s = .next (settleBarrier (nextRegion (setV came t f.dst.num.toNat x.phase) t) b.id n))) ∧
     (IssuesTo (.barw f) .normal s g b t p → barTooMany p b f = false →
       (tokenPassed x.phase (srcWord p t f.a) = true →
         exec (.barw f) s = .next (advance (edgeAcquire p t .block) t)) ∧
       (tokenPassed x.phase (srcWord p t f.a) = false → exec (.barw f) s = .next (setWait p t .recheck)))) ∧
  ((∀ (f : IForm) (s p s1 : State) (g : Issue) (b : Block) (t : TRef) (rel : Option RelTag),
     (IssuesTo (.cbar f) .normal s g b t p → doRelease (endRegion p t) t .cluster = (s1, .ok rel) →
       exec (.cbar f) s = .next (settle (setWait s1 t (.cbar f.imm.toNat)) b.id)) ∧
     (IssuesTo (.gbar f) .normal s g b t p → b.cooperative = true → doRelease (endRegion p t) t .device = (s1, .ok rel) →
       exec (.gbar f) s = .next (settle (setWait s1 t .gbar) b.id)) ∧
     (IssuesTo (.gbar f) .normal s g b t p → b.cooperative = false →
       exec (.gbar f) s = .next (trapAt p t (illegal (.gbar f))))) ∧
   (∀ (f : RForm) (s p : State) (g : Issue) (b : Block) (t : TRef), IssuesTo (.rgnb f) .normal s g b t p →
     exec (.rgnb f) s = .next (advance (endRegion p t) t)))

/-- R370: outside deterministic mode an arrival at an aligned object counts it down at the home bank as a device-scope
release and acquire, and answers 1 to the last arriver and 0 to the others; the phase rises with the last.

R371: `tlwait` goes on with an acquire once the counter has reached its value; `tlread` reads the counter, its pair
counted on LD; both trap 0x0B on a context outside the allocation.

R67, R373, R374: `boinit` arms a byte barrier of the block's own scratch: the remaining bytes, the phase word without
its error bit, no waiters; `bowait` at a barrier that holds zero takes the phase word as a block-scope acquire, and else
counts itself a waiter.

The model's own: log entries 10, 76. -/
def Obligations.ObjectsAndCountersRun : Prop :=
  (∀ (f : IForm) (s p s1 : State) (g : Issue) (b : Block) (t : TRef) (v : BitVec 1024),
     IssuesTo (.larr f) .normal s g b t p → b.deterministic = false →
     let ea := q (rawSrc p t .b64 f.a)
     let o := ea.toNat % 128
     let access : MForm := { h := f.h, dat := f.dst, base := f.a, ofs := 0, ret := .default, ord := .ar, scp := .device
                             cnt := .one, xf := 0 }
     let left (v : BitVec 1024) : Nat := if lineGet v o 4 = 0 then f.imm.toNat - 1 else lineGet v o 4 - 1
     let phase (v : BitVec 1024) : Nat := (if left v = 0 then lineGet v (o + 4) 4 + 1 else lineGet v (o + 4) 4) % 2 ^ 32
     bits ea 63 57 = 0 → ea.toNat % 16 = 0 →
     homeOp (endRegion p t) t access (ea.toNat / 128 * 128)
       (fun v => (byteMask o 12, linePut o (left v + 2 ^ 32 * phase v + 2 ^ 64 * lineGet v (o + 8) 4))) = (s1, .ok v) →
     standing s1 g t = true →
     exec (.larr f) s = .next (nextRegion (setV s1 t f.dst.num.toNat (if left v = 0 then 1 else 0)) t)) ∧
  (∀ (f : SForm) (s p : State) (g : Issue) (b : Block) (t : TRef),
     (∀ (i : Instr), i ∈ [Instr.tlwait f, Instr.tlread f] → IssuesTo i .normal s g b t p → timelineOf p t b f = none →
       exec i s = .next (trapAt p t ⟨0x0B, 0, 0, false, 0⟩)) ∧
     (∀ c, timelineOf p t b f = some c →
       (IssuesTo (.tlwait f) .normal s g b t p →
         atLeast48 (bits (p.ctx c).counter 47 0) (bits (srcPair p t f.a) 47 0) = true →
         exec (.tlwait f) s = .next (advance (doAcquireAll p t) t)) ∧
       (IssuesTo (.tlwait f) .normal s g b t p →
         atLeast48 (bits (p.ctx c).counter 47 0) (bits (srcPair p t f.a) 47 0) = false →
         exec (.tlwait f) s = .next (setWait p t .retest)) ∧
       (IssuesTo (.tlread f) .normal s g b t p → (p.thread t).ld < 63 →
         exec (.tlread f) s =
           .next (advance (loadResult p t 4 0 f.dst.num.toNat [lo32 (p.ctx c).counter, hi32 (p.ctx c).counter]) t)))) ∧
  (∀ (f : SForm) (s p : State) (g : Issue) (b : Block) (t : TRef) (o : Nat),
     (IssuesTo (.boinit f) .normal s g b t p → barrierAt p b (.boinit f) (srcWord p t f.a) = .ok o → (p.thread t).st < 63 →
       let s1 := setOwnWord (endRegion p t) b o (d (srcVal p t .n32 f.b))
       let s2 := setOwnWord (setOwnWord s1 b (o + 4) (ownWord s1 b (o + 4) &&& 0x7FFFFFFF)) b (o + 8) 0
       exec (.boinit f) s = .next (nextRegion (pendStore (wakeBarriers s2 b.id) t 7 false) t)) ∧
     (IssuesTo (.bowait f) .normal s g b t p → barrierAt p b (.bowait f) (srcWord p t f.a) = .ok o →
       (ownWord p b o = 0 → exec (.bowait f) s =
         .next (advance (edgeAcquire (setV p t f.dst.num.toNat (ownWord p b (o + 4))) t .block) t)) ∧
       (ownWord p b o ≠ 0 → exec (.bowait f) s =
         .next (setWait (setOwnWord p b (o + 8) (ownWord p b (o + 8) + 1)) t (.bowait f.dst.num.toNat o)))) ∧
     (∀ x, IssuesTo (.bowait f) .normal s g b t p → barrierAt p b (.bowait f) (srcWord p t f.a) = .error x →
       exec (.bowait f) s = .next (trapAt p t x)))

/-- R375-R377: `msgpost` posts a receive under the lowest free index and answers it, taking a message that already waits;
`msgsend` releases, sends its bytes to the named core and waits for the answer.

The model's own: log entry 68. -/
def Obligations.MessagesRun : Prop :=
  ∀ (f : SForm) (s p : State) (g : Issue) (b : Block) (t : TRef),
    let w := srcPair p t f.a
    let size := bits f.imm 12 0
    bits w 63 48 = 0 →
    (∀ (n o : Nat), IssuesTo (.msgpost f) .normal s g b t p →
      (lo32 w = wildcard ∨ ∃ d, nameTarget p b.part (.msgpost f) (lo32 w) = .ok d) →
      (lo32 w = wildcard → b.deterministic = false) → ownOffset b (srcWord p t f.b) (16 + size) 16 = .ok o →
      let s1 := endRegion p t
      freeReceive (s1.core b.core) = some n →
      let r : Receive := { block := b.id, source := lo32 w, tag := BitVec.ofNat 16 (bits w 47 32), buf := srcWord p t f.b
                           cap := size, matched := false, order := (s1.core b.core).posted, scope := .thread }
      let s2 := s1.modCore b.core fun c => { c with receives := c.receives.put n r, posted := c.posted + 1 }
      let s3 := match (s2.core b.core).overflow.find? r.takes with
        | none => s2
        | some m => deliver (s2.modCore b.core fun c => { c with overflow := dropFirst (·.id == m.id) c.overflow }) b.core n r m
      exec (.msgpost f) s = .next (nextRegion (setV s3 t f.dst.num.toNat (d n)) t)) ∧
    (∀ (dest o : Nat) (s1 : State) (rel : Option RelTag), IssuesTo (.msgsend f) .normal s g b t p →
      let scope : Scope := match bits f.imm 15 13 with | 3 => .cluster | 4 => .device | _ => .system
      nameTarget p b.part (.msgsend f) (lo32 w) = .ok dest → (65536 ≤ dest → scope = .system) →
      ownOffset b (srcWord p t f.b) size 4 = .ok o → doRelease (endRegion p t) t scope = (s1, .ok rel) →
      let m : Message := { id := s1.nextMsg, sender := some t, source := senderName b, dest := dest
                           tag := BitVec.ofNat 16 (bits w 47 32)
                           data := toBytes size (scratchRead s1 b.core (b.scratchOff + o) size), scope := scope
                           tick := s1.tick.toNat }
      exec (.msgsend f) s =
        .next (setWait { s1 with messages := s1.messages ++ [m], nextMsg := s1.nextMsg + 1 } t (.message m.id)))

/-! ### Engines, contexts and FIFOs -/

/-- R59, R359: `wayset` on a core that holds only its launch's blocks, with the ways it takes from scratch unheld and
not written to: ways turned to scratch are written back and invalidated, ways turned to the L1 emptied, and the mask is
the new one. More than 14 ways trap 0x01; another launch's block or a held way traps 0x15.

R384: `kick` of records that all pass their checks, with room for them: a release at the widest scope a record names,
the records accepted in order under the next numbers, and the last number as the answer; without room it waits.

R386-R388: `cpcancel` cancels the block's requests that no engine has started and answers how many; `tlsig`
releases at device scope and raises its timeline to the value; `ctxsel` selects the wave's context and answers its last
number.

The model's own: log entries 10, 76, 80, 116. -/
def Obligations.EngineInstructionsRun : Prop :=
  (∀ (f : IForm) (s p : State) (g : Issue) (b : Block) (t : TRef), IssuesTo (.wayset f) .normal s g b t p →
     let mask : BitVec 16 := f.imm.extractLsb' 0 16
     let old := (p.core b.core).wayMask
     let up := (List.range 16).filter fun i => mask.getLsbD i && !old.getLsbD i
     let down := (List.range 16).filter fun i => old.getLsbD i && !mask.getLsbD i
     let other := p.blocks.any fun x => x.core == b.core && !(x.launch == b.launch && x.gen == b.gen)
     let held := down.any fun i => (heldWays p b.core).contains i
     (14 < popcount 16 mask.toNat → exec (.wayset f) s = .next (trapAt p t (illegal (.wayset f)))) ∧
     (popcount 16 mask.toNat ≤ 14 → (other = true ∨ held = true) →
       exec (.wayset f) s = .next (trapAt p t ⟨0x15, 0, 0, false, 0⟩)) ∧
     (popcount 16 mask.toNat ≤ 14 → other = false → held = false → down.any (wayBusy p b.core) = false →
       let s1 := down.foldl (wayToL1 b.core) (up.foldl (wayToScratch b.core) (endRegion p t))
       let s2 := s1.modCore b.core fun c => { c with wayMask := mask }
       standing s2 g t = true → exec (.wayset f) s = .next (nextRegion s2 t))) ∧
  ((∀ (f : SForm) (s p s1 s2 : State) (g : Issue) (b : Block) (t : TRef) (o last : Nat) (rel : Option RelTag),
      IssuesTo (.kick f) .normal s g b t p →
      let n := f.imm.toNat
      let addr := srcWord p t f.a
      let s0 := endRegion p t
      ownOffset b addr (64 * n) 64 = .ok o →
      ((64 < heldRecords p b.core + n ∨ 63 < (p.thread t).cp + n) → exec (.kick f) s = .next (setWait s0 t .retest)) ∧
      (heldRecords p b.core + n ≤ 64 → (p.thread t).cp + n ≤ 63 →
        let scope := scopeOfCode (maxOf ((List.range n).map fun j =>
          recScope (BitVec.ofNat 512 (ofBytes (homeRead p b (o + 64 * j) 64)))))
        doRelease s0 t scope = (s1, .ok rel) →
        submitAll t b n addr 0 (if Scope.wide scope then s1 else arriveRace s1 t scope) = (s2, .ok last) →
        exec (.kick f) s = .next (nextRegion (setVs s2 t f.dst.num.toNat [lo32 (q last), hi32 (q last)]) t))) ∧
   (∀ (f : SForm) (s p : State) (g : Issue) (b : Block) (t : TRef) (c : Nat),
      (IssuesTo (.cpcancel f) .normal s g b t p → groupCtx p (.cpcancel f) b f.a [t] = .ok c →
        let rs := (p.ctx c).reqs.filter fun r => r.block == b.id && !r.started && !r.fin
        let s1 := cancelAll (endRegion p t) c rs
        standing s1 g t = true →
        exec (.cpcancel f) s = .next (nextRegion (setV s1 t f.dst.num.toNat (d rs.length)) t)) ∧
      (∀ (s1 : State) (rel : Option RelTag), IssuesTo (.tlsig f) .normal s g b t p → timelineOf p t b f = some c →
        doRelease (endRegion p t) t .device = (s1, .ok rel) →
        let v := bits (srcPair p t f.a) 47 0
        exec (.tlsig f) s = .next (nextRegion (s1.modCtx c fun x =>
          { x with counter := q (x.counter.toNat / 2 ^ 48 * 2 ^ 48 + max (bits x.counter 47 0) v) }) t)) ∧
      (IssuesTo (.ctxsel f) .normal s g b t p → groupCtx p (.ctxsel f) b f.a [t] = .ok c →
        let n := q (issuedCount p c)
        exec (.ctxsel f) s = .next (advance (setVs (p.modWave g.wave fun w => { w with ctxSel := some c }) t
          f.dst.num.toNat [lo32 n, hi32 n]) t)) ∧
      (∀ x, IssuesTo (.ctxsel f) .normal s g b t p → groupCtx p (.ctxsel f) b f.a [t] = .error x →
        exec (.ctxsel f) s = .next (trapAt p t x))))

/-- R64, R65, R390-R394: the FIFO instructions on a FIFO the block holds: `cbinit` writes an empty descriptor; a push
reserves slot TAIL or waits for a free one, and commits the slot the thread reserved as a cluster-scope release; a pop
takes slot HEAD, or waits, or answers the end or (`.try`) the empty FIFO; `cbrel` releases a popped slot; `cbstat` reads
the descriptor. Slots that a drain's begun row keeps are neither free nor filled for a thread.

The model's own: log entries 10, 78, 89, 115. -/
def Obligations.FifosRun : Prop :=
  ∀ (f : SForm) (s p : State) (g : Issue) (b : Block) (t : TRef) (o k : Nat) (x : Fifo),
    let n := fifoNum f
    let dst := f.dst.num.toNat
    let s0 := endRegion p t
    (IssuesTo (.cbinit f) .normal s g b t p →
      let a := srcWord p t f.a
      let c := srcWord p t f.b
      let count := bits c 8 0
      bits a 31 20 = 0 → bits c 31 16 = 0 → 1 ≤ count → count ≤ 256 → n < b.nfifo →
      (1 < Block.stages p b → n ≠ 30 ∧ n ≠ 31) → (∀ y, b.fifos.find? n = some y → y.free = y.count) →
      fifoNamed p b n = false → bits a 19 0 % 128 = 0 → bits a 19 0 + count * (64 * (bits c 15 9 + 1)) ≤ b.scratchBytes →
      let y : Fifo := { base := bits a 19 0, slotb := bits c 15 9, count := count, head := 0, tail := 0, free := count
                        filled := 0, eng := f.imm.getLsbD 5, mxc := f.imm.getLsbD 6, chan := false, fin := false
                        resv := [], popped := [] }
      let s1 := s0.modBlock b.id fun z => { z with fifos := z.fifos.put n y }
      standing s1 g t = true → exec (.cbinit f) s = .next (nextRegion s1 t)) ∧
    (fifoRef p b n = .held o k x →
      (IssuesTo (.cbpushReserve f) .normal s g b t p → x.eng = false →
        let kept := drainKeeps true p o k
        (x.free ≤ kept → exec (.cbpushReserve f) s = .next (setWait s0 t .retest)) ∧
        (kept < x.free → exec (.cbpushReserve f) s = .next (nextRegion (scratchAcquire
          (setV (modFifo s0 o k fun y => y.reserve (some t)) t dst (slotAddr p b n x x.tail)) t .cluster) t))) ∧
      (∀ (j : Nat) (s1 : State) (rel : Option RelTag), IssuesTo (.cbpushCommit f) .normal s g b t p → x.eng = false →
        slotAt p b n x (srcWord p t f.a) = some j → (j, false, some t) ∈ x.resv →
        doRelease s0 t .cluster = (s1, .ok rel) →
        exec (.cbpushCommit f) s = .next (nextRegion (modFifo s1 o k fun y => y.commit j) t)) ∧
      (∀ i ∈ [Instr.cbpop f, Instr.cbpopTry f], IssuesTo i .normal s g b t p → x.mxc = false →
        let kept := drainKeeps false p o k
        (kept < x.filled → exec i s = .next (nextRegion (scratchAcquire
          (setV (modFifo s0 o k Fifo.pop) t dst (slotAddr p b n x x.head)) t .cluster) t)) ∧
        (x.filled = 0 → x.fin = true → exec i s = .next (nextRegion (setV s0 t dst 0xFFFFFFFF) t)) ∧
        (x.filled ≤ kept → ¬(x.fin = true ∧ x.filled = 0) → exec i s =
          if i = .cbpopTry f then .next (nextRegion (setV s0 t dst 0xFFFFFFFE) t) else .next (setWait s0 t .retest))) ∧
      (∀ (j : Nat) (s1 : State) (rel : Option RelTag), IssuesTo (.cbrel f) .normal s g b t p → x.mxc = false →
        slotAt p b n x (srcWord p t f.a) = some j → (j, false) ∈ x.popped → doRelease s0 t .cluster = (s1, .ok rel) →
        exec (.cbrel f) s = .next (nextRegion (modFifo s1 o k fun y => y.release j) t)) ∧
      (IssuesTo (.cbstat f) .normal s g b t p → exec (.cbstat f) s = .next (advance (setVs p t dst x.words) t))) ∧
    (fifoRef p b n = .absent → IssuesTo (.cbstat f) .normal s g b t p →
      exec (.cbstat f) s = .next (trapAt p t (illegal (.cbstat f)))) ∧
    (fifoRef p b n = .blank → IssuesTo (.cbstat f) .normal s g b t p →
      exec (.cbstat f) s = .next (advance (setVs p t dst [0, 0, 0, 0]) t))

/-! ### The matrix arrays -/

/-- R36, R118, R131-R134, R395: a matrix operation signs its convergence register. Without a matrix allocation or such a
register it traps 0x01; while another block holds the state it waits; an undeclared register, a second signature, or one
that differs from the first traps 0x06; the first meets the checks of its fields. A signature short of the count is
complete; the last one enters the operation in its array's queue; while the new holder's clearing is under way, or behind
operations that wait for it, the operation waits to enter. Where the queue has no room, the last signature is not taken: it
waits with its thread, the round stays open, and no other signature of that register is taken.

R396: `cvset` declares how many threads sign an allocated register that no one has signed this round.

The model's own: log entries 79, 99, 136. -/
def Obligations.MatrixSignaturesRun : Prop :=
  (∀ (f : MXForm) (s p : State) (g : Issue) (b : Block) (t : TRef),
     ∀ e ∈ [(Instr.mxwld f, 0), (Instr.mxwsw f, 1), (Instr.mxmul f, 2), (Instr.mxzero f, 3), (Instr.mxdrn f, 4),
         (Instr.mxperm f, 5)],
     IssuesTo e.1 .matrix s g b t p →
     let cv := f.cv.toNat
     let m := (p.core b.core).mx
     let v := ((p.block? b.id).bind fun x => x.cvs.find? cv).getD noCv
     let k := drainKs p t.wave e.2 f
     let s0 := endRegion p t
     (b.ncv ≤ cv ∨ b.matrix = false → exec e.1 s = .next (trapAt p t (illegal e.1))) ∧
     (cv < b.ncv → b.matrix = true →
       (m.holder ≠ none → m.holder ≠ some b.id → exec e.1 s = .next (setWait s0 t .matrixHolder)) ∧
       (m.holder = none ∨ m.holder = some b.id → heldRound p b.core cv = true →
         exec e.1 s = .next (setWait s0 t .recheck)) ∧
       (m.holder = none ∨ m.holder = some b.id → heldRound p b.core cv = false →
         (v.declared = 0 ∨ (v.signers.any fun x => x.1 == t) = true →
           exec e.1 s = .next (trapAt s0 t ⟨0x06, 0, 0, false, 0⟩)) ∧
         (v.declared ≠ 0 → (v.signers.any fun x => x.1 == t) = false →
           (∀ x, v.fields = none → mxCheck p b e.1 e.2 f k = some x → exec e.1 s = .next (trapAt s0 t x)) ∧
           (v.fields ≠ none → ¬(v.fields = some f ∧ v.opcode = e.2 ∧ v.kvals = k) →
             exec e.1 s = .next (trapAt s0 t ⟨0x06, 0, 0, false, 0⟩)) ∧
           ((v.fields = none ∧ mxCheck p b e.1 e.2 f k = none) ∨ (v.fields = some f ∧ v.opcode = e.2 ∧ v.kvals = k) →
             (63 ≤ (p.thread t).mx → exec e.1 s = .next (setWait s0 t (.counterRoom 3))) ∧
             ((p.thread t).mx < 63 → scratchBusy p t = true → exec e.1 s = .next (setWait s0 t .recheck)) ∧
             ((p.thread t).mx < 63 → scratchBusy p t = false →
               (v.signers.length + 1 ≠ v.declared → exec e.1 s = .next (nextRegion (signedState p s0 b t e.2 f v) t)) ∧
               (v.signers.length + 1 = v.declared →
                 let arr := if f.arr then 1 else 0
                 (queueRoom s0 b arr cv = none → exec e.1 s =
                   .next (holdRound s0 b.core arr (roundOp s0 (signedCv p b t e.2 f 0 v) cv f) t)) ∧
                 (∀ r, queueRoom s0 b arr cv = some r →
                   let s1 := (signedState p r b t e.2 f v).modBlock b.id fun x =>
                     { x with cvs := x.cvs.modify cv fun v => { v with signers := [], fields := none } }
                   let op := roundOp s1 (signedCv p b t e.2 f r.seq v) cv f
                   let behind := (s1.core b.core).mx.clear ||
                     (s1.core b.core).mx.waiting.any fun e => e.1 == arr && !e.2.held
                   exec e.1 s = .next (nextRegion
                     (if behind then addWaiting s1 b.core arr op else enterQueue s1 b arr op) t))))))))) ∧
  (∀ (f : SForm) (s p : State) (g : Issue) (b : Block) (t : TRef),
     let n := bits f.imm 3 0
     let count := bits f.imm 13 4
     let v := (b.cvs.find? n).getD noCv
     (IssuesTo (.cvset f) .normal s g b t p →
       (b.ncv ≤ n ∨ (blockThreads p b).length < count → exec (.cvset f) s = .next (trapAt p t (illegal (.cvset f)))) ∧
       (n < b.ncv → count ≤ (blockThreads p b).length →
         (v.signers ≠ [] → exec (.cvset f) s = .next (trapAt p t ⟨0x06, 0, 0, false, 0⟩)) ∧
         (v.signers = [] →
           let s1 := (endRegion p t).modBlock b.id fun x => { x with cvs := x.cvs.put n { v with declared := count } }
           standing s1 g t = true → exec (.cvset f) s = .next (nextRegion s1 t)))))

/-! ### Templates, fills and phases -/

/-- R193, R195, R201, R398, R399: `freeze` outside a procedural region, in a prologue or in a nested first-level item,
waits for its counters and (in an item) for a bank entry on each core of its cluster, releases at device scope, and makes
the template; elsewhere it traps 0x01. `nest` gives a first-level item its sub-items, once.

The model's own: log entries 10, 70. -/
def Obligations.TemplatesFreezeAndNest : Prop :=
  (∀ (f : RForm) (s p : State) (g : Issue) (b : Block) (t : TRef), IssuesTo (.freeze f) .normal s g b t p →
    let x := p.thread t
    let s0 := endRegion p t
    let first : Prop := x.stamp = .prologue
    let second : Prop := x.stamp = .item ∧ x.tlevel = 1 ∧ x.nest ≠ none
    (b.gen = true ∨ ¬(first ∨ second) → exec (.freeze f) s = .next (trapAt p t (illegal (.freeze f)))) ∧
    (b.gen = false → first ∨ second →
      (¬(x.ld = 0 ∧ x.st = 0 ∧ x.cp = 0 ∧ x.mx = 0) → exec (.freeze f) s = .next (setWait s0 t .recheck)) ∧
      (x.ld = 0 → x.st = 0 → x.cp = 0 → x.mx = 0 →
        let s2 := s0.modThread t Thread.noContexts
        (second → ((clusterCores s2 b).all (bankFree s2)) = false → exec (.freeze f) s = .next (setWait s2 t .bankEntry)) ∧
        (first ∨ (clusterCores s2 b).all (bankFree s2) = true →
          (∀ s3 e, doRelease s2 t .device = (s3, .error (.trap e)) → exec (.freeze f) s = .next (trapAt s3 t e)) ∧
          (∀ s3 rel, doRelease s2 t .device = (s3, .ok rel) →
            (first → exec (.freeze f) s = .next (settleOf (freezeFirst s3 t b) t)) ∧
            (second → exec (.freeze f) s = .next (settleOf (freezeSecond s3 t b (x.nest.getD 0)) t))))))) ∧
  (∀ (f : IForm) (s p : State) (g : Issue) (b : Block) (t : TRef), IssuesTo (.nest f) .normal s g b t p →
    let x := p.thread t
    (b.gen = true ∨ x.stamp ≠ .item ∨ x.tlevel ≠ 1 ∨ x.nest ≠ none ∨ f.imm = 0 →
      exec (.nest f) s = .next (trapAt p t (illegal (.nest f)))) ∧
    (b.gen = false → x.stamp = .item → x.tlevel = 1 → x.nest = none → f.imm ≠ 0 →
      exec (.nest f) s = .next (advance (p.modThread t fun x => { x with nest := some f.imm.toNat }) t)))

/-- R209, R217, R400-R402: the first `fillend` of a generator waits until the accesses its threads have issued and the
copies they have kicked by then are done, releases at device scope and completes its fill; another traps 0x01. `filld`
evicts a filled block that is not pinned; `fillq` reads a block's state, and with its bits pins, unpins or touches it;
both trap 0x0B outside a region. `phase` passes its boundary in order.

The model's own: log entries 70, 142. -/
def Obligations.FillsAndPhasesRun : Prop :=
  (∀ (f : RForm) (s p : State) (g : Issue) (b : Block) (t : TRef), IssuesTo (.fillend f) .normal s g b t p →
    ((b.gen = false ∧ b.fillendAt = none) ∨ (∃ n lanes, b.fillendAt = some (n, lanes) ∧ lanes.getLsbD t.lane = false) →
      exec (.fillend f) s = .next (trapAt p t (illegal (.fillend f)))) ∧
    (b.gen = true → b.fillendAt = none →
      let s0 := ((blockAlive p b).foldl commitSpec (endRegion p t)).tickSeq
      let s1 := s0.2.modBlock b.id fun x => { x with fillendAt := some (s0.1, maskOf [t.lane]) }
      (itemBusy s1 b s0.1 = true → standing s1 g t = true → exec (.fillend f) s = .next (setWait s1 t .recheck)) ∧
      (∀ (s2 : State) (rel : Option RelTag), itemBusy s1 b s0.1 = false →
        doRelease s1 (lowLane g) .device = (s2, .ok rel) →
        let s3 := (fillOfGen s2 b.id).elim s2 (completeFill s2)
        let leave (e : Nat × BitVec 32) : Nat × BitVec 32 := (e.1, e.2 &&& ~~~maskOf [t.lane])
        let s4 := s3.modBlock b.id fun x => { x with filled := true, fillendAt := x.fillendAt.map leave }
        standing s4 g t = true → exec (.fillend f) s = .next (nextRegion s4 t))) ∧
    (∀ n lanes, b.fillendAt = some (n, lanes) → lanes.getLsbD t.lane = true → b.filled = false → itemBusy p b n = true →
      exec (.fillend f) s = .next (setWait p t .recheck))) ∧
  (∀ (f : SForm) (s p : State) (g : Issue) (b : Block) (t : TRef),
    let va := (q (rawSrc p t .b64 f.a)).toNat
    let s0 := endRegion p t
    (∀ i ∈ [Instr.fillq f, Instr.filld f], IssuesTo i .normal s g b t p → regionAt p b.part b.asid va = none →
      exec i s = .next (trapAt p t ⟨0x0B, 0, 0, false, 0⟩)) ∧
    (∀ (n k : Nat) (r : Machine.Region), regionAt p b.part b.asid va = some (n, r, k) →
      (IssuesTo (.fillq f) .normal s g b t p →
        let pinned := f.xf.getLsbD 0 || f.xf.getLsbD 1
        let pin := pinStep (r.pins k) (f.xf.getLsbD 0) (f.xf.getLsbD 1)
        let s2 := if pinned then setPin s0 b.part n k pin.1 else p
        let left (s3 : State) (started : Bool) : State :=
          let s4 := setV s3 t f.dst.num.toNat (fillWord s3 b.part n k started pin.2)
          if pinned then nextRegion s4 t else advance s4 t
        (f.xf.getLsbD 2 = false → exec (.fillq f) s = .next (left s2 false)) ∧
        (f.xf.getLsbD 2 = true → ∀ s3 fate, touch s2 { threadReq s2 t 0 false with waiter := none } va = (s3, fate) →
          (∀ x y, fate = .error (.recursion x y) → exec (.fillq f) s = .next (meet s3 t false (.recursion x y))) ∧
          ((∀ x y, fate ≠ .error (.recursion x y)) → exec (.fillq f) s =
            .next (left s3 (r.state k == 0 && (region? s3 b.part n).any fun x => x.state k == 1))))) ∧
      (IssuesTo (.filld f) .normal s g b t p →
        (r.state k = 2 → r.pins k = 0 →
          let s1 := wakeHeld (evictBlock s0 b.part n k) b.part n k
          exec (.filld f) s = .next (nextRegion (setV s1 t f.dst.num.toNat (fillWord s1 b.part n k false false)) t)) ∧
        (¬(r.state k = 2 ∧ r.pins k = 0) →
          exec (.filld f) s = .next (nextRegion (setV s0 t f.dst.num.toNat (fillWord s0 b.part n k false true)) t))))) ∧
  (∀ (f : IForm) (s p : State) (g : Issue) (b : Block) (t : TRef), IssuesTo (.phase f) .normal s g b t p →
    (b.gen = true ∨ f.imm.toNat ≠ (p.thread t).phase % 65536 →
      exec (.phase f) s = .next (trapAt p t (illegal (.phase f)))) ∧
    (b.gen = false → f.imm.toNat = (p.thread t).phase % 65536 →
      exec (.phase f) s = .next (nextRegion (settlePhase
        ((endRegion p t).modThread t fun x => { x with phase := x.phase + 1 }) b.launch) t)))

/-! ### Sampling, targets and task queues -/

/-- R406-R411: `tex` and `texg` check their descriptor and sample the texture at their coordinates and level, as a load;
`texq` answers a level's size, or 0 past the last; `brick` samples a distance grid at a point, as a load. A sample that a
fetch held goes on with the operands it issued with, a `brick` with its fetches too. In checked mode a `tex` that issues
afresh traps 0x17 when a bound partner lane is outside the fetch group.

The model's own: log entries 59, 71, 72, 73, 138. -/
def Obligations.TexturesAndBricksSample : Prop :=
  ∀ (f : RForm) (s p : State) (g : Issue) (b : Block) (t : TRef),
    let k := srcRegs p t f.b 4
    (IssuesTo (.tex f) .normal s g b t p → b.checked = true → (p.thread t).holds 3 = false → partnerMissing p g t = true →
      exec (.tex f) s = .next (trapAt p t ⟨0x17, 0, 0, false, 0⟩)) ∧
    (∀ e ∈ [(Instr.tex f, laneDerivs p f t, srcVal p t .f32 f.c), (Instr.texg f, (srcRegs p t f.c 4).map BitVec.toNat, 0)],
      IssuesTo e.1 .normal s g b t p →
      (e.1 = .tex f → (b.checked && !(p.thread t).holds 3 && partnerMissing p g t) = false) →
      let args := runArgs p t (k ++ srcRegs p t f.a 2 ++ (e.2.1 ++ [e.2.2]).map d)
      (∀ x, texOf e.1 (args.take 4) = .error x → exec e.1 s = .next (trapAt p t x)) ∧
      (∀ x, texOf e.1 (args.take 4) = .ok x →
        (63 ≤ (p.thread t).ld → exec e.1 s = .next (setWait p t (.counterRoom 0))) ∧
        ((p.thread t).ld < 63 → ∀ s1 c,
          texSample x t (texLevel x (((args.drop 6).take 4).map BitVec.toNat) (wAt args 10).toNat) (beginRun p t 3 args)
            (wAt args 4).toNat (wAt args 5).toNat = (s1, .ok c) →
          exec e.1 s = .next (lineLoad p (endRun s1 t) t .tex f.dst.num.toNat (c.map d))))) ∧
    (IssuesTo (.texq f) .normal s g b t p →
      (∀ x, texOf (.texq f) k = .error x → exec (.texq f) s = .next (trapAt p t x)) ∧
      (∀ x, texOf (.texq f) k = .ok x →
        let n := srcVal p t .n32 f.a
        exec (.texq f) s = .next (advance (setV p t f.dst.num.toNat
          (d (if x.levels ≤ n then 0 else x.levelW n + 2 ^ 16 * x.levelH n))) t))) ∧
    (IssuesTo (.brick f) .normal s g b t p →
      let args := runArgs p t (srcRegs p t f.b 2 ++ srcRegs p t f.a 3)
      let va := pair (wAt args 0) (wAt args 1)
      (∀ x, blockVa va 64 = some x → exec (.brick f) s = .next (trapAt p t x)) ∧
      (blockVa va 64 = none → (p.thread t).ld < 63 → ∀ s1 v s2 r1 r2 grid,
        logged t (cachedRead .const t) (beginRun p t 0 args) va.toNat 64 = (s1, .ok v) → gridOf v 0 = .ok grid →
        brickPoint grid (logged t (engineRead t)) (logged t (cachedRead .brick t)) s1
          (((args.drop 2).take 3).map BitVec.toNat) = (s2, .ok (r1, r2)) →
        exec (.brick f) s = .next (lineLoad p (endRun s2 t) t .brick f.dst.num.toNat ((r1 :: r2).map d))))

/-- R181-R183, R412-R415: `rtw` writes a pixel's colour into the raster cache, `zt` and `vbw` update a pixel's depth pair
at its home bank by the pair minimum, `covq` answers which pixels of a tile lie nearer than a depth; a pixel outside the
target changes nothing.

R188-R190, R416, R417: `emit` releases at device scope and appends its record, answering 1 when the queue is full;
`taskpop` takes the oldest committed record as an acquire, and waits when there is none; `taskpop.try` says instead
whether it took one.

The model's own: log entries 10, 71, 74, 132. -/
def Obligations.TargetsAndTaskQueuesRun : Prop :=
  (∀ (f : RForm) (s p : State) (g : Issue) (b : Block) (t : TRef),
     let k := srcRegs p t f.c 4
     let px := (wAt (srcRegs p t f.a 2) 0).toNat
     let py := (wAt (srcRegs p t f.a 2) 1).toNat
     let s0 := endRegion p t
     (∀ e ∈ [(Instr.rtw f, false), (Instr.zt f, true), (Instr.vbw f, true), (Instr.covq f, true)],
       IssuesTo e.1 .normal s g b t p → ∀ x, targetOf e.1 e.2 k = .error x → exec e.1 s = .next (trapAt p t x)) ∧
     (IssuesTo (.rtw f) .normal s g b t p → ∀ x, targetOf (.rtw f) false k = .ok x →
       let n := pixelBytes x.format
       (x.pixel n px py = none → exec (.rtw f) s = .next (advance p t)) ∧
       (∀ va s1, x.pixel n px py = some va → (p.thread t).st < 63 → va + n ≤ 2 ^ 57 →
         let r := threadReq p t 1 false
         let line := va / 128 * 128
         rasterTouch p t r line = (s1, .ok ()) →
         rasterRoom s1 (waveCore t.wave) r.asid r.agen line = true →
         let v := colourBytes x.format ((srcRegs p t f.b 4).map BitVec.toNat)
         exec (.rtw f) s = .next (advance (pendStore
           (rasterWrite s1 t r line (byteMask (va % 128) n) (linePut (va % 128) v)) t 4 false) t))) ∧
     (∀ e ∈ [(Instr.zt f, some ((wAt (srcRegs p t f.b 2) 0).toNat, (wAt (srcRegs p t f.b 2) 1).toNat)),
         (Instr.vbw f, let r := srcRegs p t f.b 8
           if bits (wAt r 0) 3 0 = 1 then some ((wAt r 1).toNat, hitWord r) else none)],
       IssuesTo e.1 .normal s g b t p → ∀ x, targetOf e.1 true k = .ok x →
       (x.pixel 8 px py = none ∨ e.2 = none → exec e.1 s = .next (nextRegion s0 t)) ∧
       (∀ va depth word, x.pixel 8 px py = some va → e.2 = some (depth, word) → (p.thread t).st < 63 → va + 8 ≤ 2 ^ 57 →
         (depthOk depth = false → exec e.1 s = .next (nextRegion (pendStore s0 t 4 false) t)) ∧
         (depthOk depth = true → ∀ s1, depthUpdate s0 (threadReq s0 t 2 false) va depth word = (s1, .ok ()) →
           exec e.1 s = .next (nextRegion (pendStore s1 t 4 false) t)))) ∧
     (IssuesTo (.covq f) .normal s g b t p → ∀ x, targetOf (.covq f) true k = .ok x → (p.thread t).ld < 63 →
       let give (s : State) (m : Nat) : State := advance (loadResult s t 4 0 f.dst.num.toNat (toWords 2 m)) t
       (x.pixel 8 (8 * px) (8 * py) = none → exec (.covq f) s = .next (give p 0)) ∧
       (∀ va s1 ps, x.pixel 8 (8 * px) (8 * py) = some va → va + 512 ≤ 2 ^ 57 →
         tilePairs p (threadReq p t 0 true) va = (s1, .ok ps) →
         exec (.covq f) s = .next (give s1 (maskBits (ps.map fun v => b32Lt (v % 2 ^ 32) (srcWord p t f.b).toNat)))))) ∧
  (∀ (f : SForm) (s p : State) (g : Issue) (b : Block) (t : TRef),
     let va := q (rawSrc p t .b64 f.a)
     let s0 := endRegion p t
     let dst := f.dst.num.toNat
     (∀ i ∈ [Instr.emit f, Instr.taskpop f, Instr.taskpopTry f], IssuesTo i .normal s g b t p →
       ∀ x, blockVa va 64 = some x → exec i s = .next (trapAt p t x)) ∧
     (blockVa va 64 = none →
       (IssuesTo (.emit f) .normal s g b t p → ∀ s1 rel s2 took, doRelease s0 t .device = (s1, .ok rel) →
         pushRecord (illegal (.emit f)) s1 (threadReq s1 t 2 false) va.toNat
           ((srcRegs p t f.b 16).flatMap fun w => toBytes 4 w.toNat) = (s2, .ok took) →
         exec (.emit f) s = .next (nextRegion (setV s2 t dst (if took then 0 else 1)) t)) ∧
       (∀ i ∈ [Instr.taskpop f, Instr.taskpopTry f], IssuesTo i .normal s g b t p → ∀ s1 got,
         popRecord (illegal i) s0 (threadReq s0 t 2 false) va.toNat = (s1, .ok got) →
         let taken (bs : List Byte) : State := setVs (doAcquireAll s1 t) t dst (toWords 16 (ofBytes bs))
         (i = .taskpop f → exec i s = .next ((got.map taken).elim (setWait s1 t .retest) (nextRegion · t))) ∧
         (i = .taskpopTry f → exec i s =
           .next (nextRegion (setC ((got.map taken).getD s1) t f.b.num.toNat got.isSome) t)))))

/-! ### The marcher, the traversal unit and beams -/

/-- R154, R158-R161, R419, R421: `march` with good parameters and a checked image, and `opqret` with the mode its callout
was left in, run the marcher as a load; `march` waits for a context; a bad parameter, or an `opqret` without such a
callout, traps 0x01, a bad image address 0x15 or 0x12.

R420: `mhit` waits while a march of its thread runs, and reads the last one's record; `mhit.co` reads a callout's
values, and traps 0x01 when the record is none of a callout.

R165: a run that a fetch held goes on with its own operands, and what it had fetched is not fetched again.

R162-R164, R199, R422: `bcprune` writes a pruned image into the block's own footprint and answers its status and length; with
too little room it writes none. In the template segment a ninth private granule traps 0x10.

The model's own: log entries 10, 61, 62, 65, 100, 101, 125, 137, 139. -/
def Obligations.MarchesRun : Prop :=
  ((∀ (f : RForm) (s p : State) (g : Issue) (b : Block) (t : TRef),
      let th := p.thread t
      let dst := f.dst.num.toNat
      (IssuesTo (.march f) .normal s g b t p →
        let args := runArgs p t (srcRegs p t f.a 8 ++ srcRegs p t f.b 4)
        let k := args.drop 8
        (imageField k = true ∨ marchField k = true → exec (.march f) s = .next (trapAt p t (illegal (.march f)))) ∧
        (imageField k = false → marchField k = false →
          (∀ x, imageCheck p b k = some x → exec (.march f) s = .next (trapAt p t x)) ∧
          (imageCheck p b k = none → th.ld < 63 →
            (th.march = none → th.holds 1 = false → 64 ≤ marchContexts p (waveCore t.wave) →
              exec (.march f) s = .next (setWait p t .recheck)) ∧
            (th.march ≠ none ∨ th.holds 1 = true ∨ marchContexts p (waveCore t.wave) < 64 → ∀ s1 x,
              marchRun (imageIO b t k) (args.take 8) k (beginRun p t 1 args) = (s1, .ok x) →
              exec (.march f) s = .next (advance (startMarch (endRun s1 t) t dst none x) t))))) ∧
      (IssuesTo (.opqret f) .normal s g b t p →
        ((th.march.all fun c => c.mode != opqretMode f.xf) = true →
          exec (.opqret f) s = .next (trapAt p t (illegal (.opqret f)))) ∧
        (∀ c s1 x, th.march = some c → c.mode = opqretMode f.xf → th.ld < 63 →
          let args := runArgs p t (srcRegs p t f.a (opqretRegs f.xf).1)
          marchResume (imageIO b t c.params) c args (beginRun p t 1 args) = (s1, .ok x) →
          exec (.opqret f) s = .next (advance (startMarch (endRun s1 t) t dst (some c) x) t)))) ∧
   (∀ (f : RForm) (s p : State) (g : Issue) (b : Block) (t : TRef),
      let r := (p.thread t).marchRec
      let w0 := wAt r.words 0
      (∀ i ∈ [Instr.mhit f, Instr.mhitCo f], IssuesTo i .normal s g b t p → (p.thread t).marchRuns ≠ [] →
        exec i s = .next (setWait p t .recheck)) ∧
      ((p.thread t).marchRuns = [] →
        (IssuesTo (.mhit f) .normal s g b t p → exec (.mhit f) s = .next (advance (setVs p t f.dst.num.toNat r.words) t)) ∧
        (IssuesTo (.mhitCo f) .normal s g b t p →
          (bits w0 3 0 ≠ 4 → exec (.mhitCo f) s = .next (trapAt p t (illegal (.mhitCo f)))) ∧
          (bits w0 3 0 = 4 → exec (.mhitCo f) s =
            .next (advance (setVs p t f.dst.num.toNat (r.callout.take (calloutRegs w0))) t)))))) ∧
  (∀ (f : RForm) (s p : State) (g : Issue) (b : Block) (t : TRef), IssuesTo (.bcprune f) .normal s g b t p →
     let args := runArgs p t (srcRegs p t f.a 4 ++ srcRegs p t f.b 6)
     let k := args.take 4
     let v := args.drop 4
     let box := (List.range 3).map fun i => SVal.iv (Iv.read ⟨(wAt v i).toNat, (wAt v (3 + i)).toNat⟩)
     (pruneField k = true → exec (.bcprune f) s = .next (trapAt p t (illegal (.bcprune f)))) ∧
     (pruneField k = false →
       (∀ x, pruneCheck p b k = some x → exec (.bcprune f) s = .next (trapAt p t x)) ∧
       (pruneCheck p b k = none → ∀ s1 status n out,
         pruneImage (imageIO b t k) (bits (wAt k 3) 16 0) box (beginRun (endRegion p t) t 0 args) =
           (s1, .ok (status, n, out)) →
         let done (s3 : State) := nextRegion (setVs s3 t f.dst.num.toNat [d status, d n]) t
         let s2 := endRun s1 t
         (out = none → exec (.bcprune f) s = .next (done s2)) ∧
         (∀ bs place, out = some bs → prunePlace b (wAt k 2).toNat (bits (wAt k 3) 16 0) = some place →
           (∀ s3, placeWrite s2 t place bs = (s3, none) → exec (.bcprune f) s = .next (done s3)) ∧
           (∀ s3 x, placeWrite s2 t place bs = (s3, some x) → exec (.bcprune f) s = .next (trapAt s3 t x))))))

/-- R173-R177, R423: `trace` with its reserved bits 0 starts a traversal, waiting for a context, or resumes the thread's
candidate, committed or not, as a load; a resume without one traps 0x01, and a structure above 2^57 traps 0x0B.

The model's own: log entries 10, 61, 62, 63, 102, 103, 125. -/
def Obligations.TraversalsRun : Prop :=
  ∀ (f : RForm) (s p : State) (g : Issue) (b : Block) (t : TRef), IssuesTo (.trace f) .normal s g b t p →
    let args := runArgs p t (srcRegs p t f.a 8 ++ srcRegs p t f.b 4)
    let ray := args.take 8
    let k := args.drop 8
    let read := logged t (engineRead t)
    let s0 := beginRun p t 2 args
    let th := p.thread t
    let resume := (wAt k 2).getLsbD 11
    let dst := f.dst.num.toNat
    (bits (wAt k 2) 31 13 ≠ 0 ∨ wAt k 3 ≠ 0 ∨ (resume = true ∧ th.trav = none) →
      exec (.trace f) s = .next (trapAt p t (illegal (.trace f)))) ∧
    (bits (wAt k 2) 31 13 = 0 → wAt k 3 = 0 → resume = false →
      (bits (wAt k 1) 31 25 ≠ 0 → exec (.trace f) s = .next (trapAt p t ⟨0x0B, 0, 0, false, 0⟩)) ∧
      (bits (wAt k 1) 31 25 = 0 → th.ld < 63 →
        (th.trav = none → th.holds 2 = false → 64 ≤ travContexts p (waveCore t.wave) →
          exec (.trace f) s = .next (setWait p t .recheck)) ∧
        (th.trav ≠ none ∨ th.holds 2 = true ∨ travContexts p (waveCore t.wave) < 64 → ∀ s1 x,
          traceRun read ray k s0 = (s1, .ok x) →
          exec (.trace f) s = .next (advance (startTrace (endRun s1 t) t dst none x) t)))) ∧
    (∀ c, bits (wAt k 2) 31 13 = 0 → wAt k 3 = 0 → resume = true → th.trav = some c → th.ld < 63 → ∀ s1 x,
      travLoop read travFuel s0 (if (wAt k 2).getLsbD 12 then c.commit (wAt ray 7) else c) .pop = (s1, .ok x) →
      exec (.trace f) s = .next (advance (startTrace (endRun s1 t) t dst (some c) x) t))

/-- R424-R426: `thit` waits while a traversal of its thread runs and reads the last one's record; `thit.ray` reads a
candidate's ray, and traps 0x01 when the record is none of a candidate; `tstack` reads the state of the candidate held,
and traps 0x01 when there is none or its index is above 3; `beam` walks its tile's rays as a load, behind the quad's
earlier beams.

The model's own: log entries 10, 61, 64, 104, 117, 131, 132, 143. -/
def Obligations.HitsAndBeamsRun : Prop :=
  ∀ (f : RForm) (s p : State) (g : Issue) (b : Block) (t : TRef),
    let r := (p.thread t).hitRec
    let dst := f.dst.num.toNat
    (∀ i ∈ [Instr.thit f, Instr.thitRay f], IssuesTo i .normal s g b t p → (p.thread t).travRuns ≠ [] →
      exec i s = .next (setWait p t .recheck)) ∧
    ((p.thread t).travRuns = [] →
      (IssuesTo (.thit f) .normal s g b t p → exec (.thit f) s = .next (advance (setVs p t dst r.words) t)) ∧
      (IssuesTo (.thitRay f) .normal s g b t p →
        (bits (wAt r.words 0) 3 0 ≠ 2 → exec (.thitRay f) s = .next (trapAt p t (illegal (.thitRay f)))) ∧
        (bits (wAt r.words 0) 3 0 = 2 → exec (.thitRay f) s = .next (advance (setVs p t dst r.ray) t)))) ∧
    (IssuesTo (.tstack f) .normal s g b t p →
      let n := srcVal p t .n32 f.a
      ((p.thread t).trav = none ∨ 3 < n → exec (.tstack f) s = .next (trapAt p t (illegal (.tstack f)))) ∧
      (∀ c, (p.thread t).trav = some c → n ≤ 3 →
        let first := c.stack.length + (if c.dropped then 16 else 0) + 2 ^ 8 * c.level + 2 ^ 16 * min c.restarts 65535
        let second := sumOf ((List.range 16).map fun m => 4 ^ m * (c.trail.getD (16 * n + m) 0 % 4))
        exec (.tstack f) s = .next (advance (setVs p t dst [d first, d second]) t))) ∧
    (IssuesTo (.beam f) .normal s g b t p →
      let va := q (rawSrc p t .b64 f.a)
      (∀ x, blockVa va 128 = some x → exec (.beam f) s = .next (trapAt p t x)) ∧
      (blockVa va 128 = none → (p.thread t).ld < 63 → ∀ s1 status queue records,
        let s0 := endRegion p t
        beamRun (illegal (.beam f)) (threadReq s0 t 0 false) va.toNat s0 = (s1, .ok (status, queue, records)) →
        let e : Beam := { t := t, block := b.id, dst := some dst, va := va, pc := (p.thread t).pc, bad := illegal (.beam f)
                          walked := true, queue := q queue, asid := b.asid, agen := b.agen, part := b.part
                          pending := records, retry := none, status := status, fin := false, hold := none, owed := none
                          genItem := b.genItem }
        let queued (s : State) (e : Beam) : State := { s with beams := s.beams.upd [] (coreQuad b.core) (· ++ [e]) }
        (headBeam p (coreQuad b.core) = none →
          exec (.beam f) s = .next (nextRegion (loadResult (queued s1 e) t 4 3 dst [0]) t)) ∧
        (headBeam p (coreQuad b.core) ≠ none → exec (.beam f) s = .next (nextRegion (loadResult
          (queued s0 { e with walked := false, queue := 0, pending := [], status := 0 }) t 4 3 dst [0]) t))))

/-! ### Control and status registers, handlers, services and markers -/

/-- R227, R265, R427: `csrr` reads and `csrw` writes the eight control registers: a number from 0x100 on traps 0x0B; one
of 8 to 0xFF, or a 64-bit access to a 32-bit register, traps 0x01; so does a rounding mode that `fmode` does not take.

The model's own: log entry 88. -/
def Obligations.ControlRegistersRun : Prop :=
  ∀ (f : IForm) (s p : State) (g : Issue) (b : Block) (t : TRef),
    let n := bits f.imm 11 0
    let wide := f.h.typ.is64
    let v := q (rawSrc p t f.h.typ f.a)
    let known : Prop := n < 8 ∧ (wide = true → n = 2 ∨ n = 4 ∨ n = 5 ∨ n = 7)
    (∀ i ∈ [Instr.csrr f, Instr.csrw f], IssuesTo i .normal s g b t p →
      (0x100 ≤ n → exec i s = .next (trapAt p t ⟨0x0B, 0, 0, false, 0⟩)) ∧
      (n < 0x100 → ¬known → exec i s = .next (trapAt p t (illegal i)))) ∧
    (known →
      (IssuesTo (.csrr f) .normal s g b t p → exec (.csrr f) s =
        .next (advance (setVs p t f.dst.num.toNat (toWords f.h.typ.regs ((p.thread t).csr n).toNat)) t)) ∧
      (IssuesTo (.csrw f) .normal s g b t p →
        (n = 0 → (bits v 31 4 ≠ 0 ∨ bits v 2 0 = 0 ∨ bits v 2 0 = 7) →
          exec (.csrw f) s = .next (trapAt p t (illegal (.csrw f)))) ∧
        (n ≠ 0 ∨ (bits v 31 4 = 0 ∧ bits v 2 0 ≠ 0 ∧ bits v 2 0 ≠ 7) →
          exec (.csrw f) s = .next (advance (p.modThread t fun x => x.setCsr n wide v) t))))

/-- R266, R428: `tret` in a handler leaves it: E is `tcause` bit 31 and the thread goes on at `tepc`; outside a handler it
traps 0x01, and with a `tepc` that is no code address 0x0B or 0x03.

The model's own: log entry 58. -/
def Obligations.HandlersReturn : Prop :=
  ∀ (f : RForm) (s p : State) (g : Issue) (b : Block) (t : TRef), IssuesTo (.tret f) .normal s g b t p →
    let x := p.thread t
    (x.handler = none → exec (.tret f) s = .next (trapAt p t (illegal (.tret f)))) ∧
    (x.handler ≠ none →
      (bits x.tepc 63 57 ≠ 0 → exec (.tret f) s = .next (trapAt p t ⟨0x0B, 0, 0, false, 0⟩)) ∧
      (bits x.tepc 63 57 = 0 → slotOffset x.tepc = false → exec (.tret f) s = .next (trapAt p t ⟨0x03, 0, 0, false, 0⟩)) ∧
      (bits x.tepc 63 57 = 0 → slotOffset x.tepc = true → exec (.tret f) s = .next (p.modThread t fun y =>
        { y with handler := none, e := y.tcause.getLsbD 31, pc := y.tepc, entry := .none
                 bupdAt := y.bupdAt.filter fun w => w.1 = y.tepc })))

/-- R429, R430, R477, R501: `svc` releases at system scope, appends its call record to the partition's ring, raises vector 2
where the host serves, and waits for the answer, and waits for room in a full ring; `trc` gives the trace unit its marker.

The model's own: log entries 66, 109. -/
def Obligations.ServicesAndMarkersRun : Prop :=
  ∀ (f : IForm) (s p : State) (g : Issue) (b : Block) (t : TRef),
    (IssuesTo (.svc f) .normal s g b t p → ∀ s1 rel, doRelease (endRegion p t) t .system = (s1, .ok rel) →
      let y := s1.part b.part
      let arg := q (rawSrc p t .b64 f.a)
      (y.servicesFull = true → exec (.svc f) s = .next (setWait s1 t .serviceRoom)) ∧
      (y.servicesFull = false →
        let record := toBytes 2 f.imm.toNat ++ toBytes 2 (blockHandle b) ++ toBytes 2 b.coord.1 ++ toBytes 2 b.coord.2.1
          ++ toBytes 2 b.coord.2.2 ++ toBytes 2 b.bid ++ toBytes 4 (threadIndex s1 t) ++ toBytes 8 arg.toNat
          ++ toBytes 8 (s1.thread t).pc.toNat
        let j := y.svtail
        let s2 := strandCall b.part j (ringWrite s1 b.part (y.svbase.toNat + 32 * j) record)
        let s3 := s2.modPart b.part fun z => { z with calls := z.calls.filter (·.1 != j) ++ [(j, false)], svtail := (j + 1) % 256 }
        exec (.svc f) s = .next (setWait (raiseMsix s3 b.part 2 y.svch) t (.service f.dst.num.toNat j)))) ∧
    (IssuesTo (.trc f) .normal s g b t p →
      exec (.trc f) s = .next (advance (traceMarker p t b (bits f.imm 15 0) (srcWord p t f.a)) t))

/-! ### What the device does by itself -/

/-- R21, R23, R25, R29, R38, R40, R42, R77, R198, R287: a starved thread is the one to issue next; a wave passed over
512 times gains ageing, to 7 at most; a wait in cycles, of `join` or `sleep`, ends at its instruction's successor;
`waitc` ends when its conditions hold or its time is over, with its result and acquires; a thread held on a full counter
or tracker goes on when there is room; extension blocks are granted in their order.

The model's own: log entries 7, 8, 96, 108. -/
def Obligations.WaitsEnd : Prop :=
  ∀ (s : State) (w l : Nat),
    let t : TRef := ⟨w, l⟩
    (∀ ls, exec (.starvedIssue ls) s = .next { s with forced := starvedThread s ls }) ∧
    ((s.waves.find? w).isSome = true → 512 ≤ (s.wave w).waited →
      exec (.ageingBonus w) s = .next (s.modWave w fun x => { x with bonus := min 7 (x.bonus + 1), waited := 0 })) ∧
    (s.alive t = true →
      ((s.thread t).wait = some (.join 0) → exec (.joinTimeout w l) s = .next (releaseTogether s (joinedWith s t))) ∧
      ((s.thread t).wait = some (.cycles 0) → exec (.sleepExpire w l) s = .next (advance (clearWait s t) t)) ∧
      (∀ dst cs all n b, (s.thread t).wait = some (.waitc dst cs all n) → s.threadBlock? t = some b →
        (condMet cs.length all (condBits s t b cs) = true →
          exec (.waitcWake w l) s = .next (advance (clearWait (finishWaitc s t b dst cs false) t) t)) ∧
        (∀ m, n = some m → m ≤ s.tick.toNat →
          exec (.waitcTimeout w l) s = .next (advance (clearWait (finishWaitc s t b dst cs true) t) t)))) ∧
    (∀ c, (s.thread t).wait = some (.counterRoom c) →
      (counterOf (s.thread t) c < 63 → exec (.counterRoom w l) s = .next (clearWait s t)) ∧
      (63 ≤ counterOf (s.thread t) c → exec (.counterRoom w l) s = .next s)) ∧
    (∀ core k, trackerFull s core k = false → exec (.trackerEntryFree core k) s =
      .next ((laneSetThreads s (2 * core) ++ laneSetThreads s (2 * core + 1)).foldl (fun s t =>
        if (s.thread t).wait = some (.trackerRoom k) then clearWait s t else s) s)) ∧
    (∀ ls, exec (.extensionBlockGrant ls) s = .next (grantExt s ls)) ∧
    (∀ u ∈ waveThreads s w, ∀ n k, (s.thread u).wait = some (.ext n k true) →
      exec (.implicitAcquire w) s = .next (grantExt s (waveLaneSet w)))

/-- R133, R195, R201, R202, R243, R262: a matrix trap owed to a thread is a deferred trap at its next issue; a free
thread takes the next sub-item of its cluster, or the next item, and ends when there is neither; a free bank entry lets
a waiting `freeze` go on; words that no instruction has trap 0x01 with those words in the threads that execute them,
which the opcode says of E and the guard as for its instructions (R33, R34, R131, R345), and a failing line traps 0x02
with its address and what failed, in every thread of the group.

The model's own: log entries 56, 57, 70. -/
def Obligations.OwedTrapsAndItems : Prop :=
  ∀ (s : State) (w l : Nat),
    let t : TRef := ⟨w, l⟩
    (∀ x rest, s.alive t = true → (s.thread t).mxTraps = x :: rest →
      exec (.matrixTrapDelivery w l) s = .next (effects (s.modThread t fun y => { y with mxTraps := rest })
        [.trap t ⟨x.code, x.pc, q (x.cv + 2 ^ 16 * x.seq), true, 0⟩ (s.thread t).pc])) ∧
    (∀ b, s.threadBlock? t = some b → s.alive t = true → (s.thread t).stamp = .free → b.halted = false →
      (∀ y, openSecond s b = some y → exec (.stampItem w l) s = .next (stampThread
        ((s.modTpl y.id fun y => { y with next := y.next + 1, live := y.live + 1 }).modLaunch b.launch fun l =>
          { l with itemsLive := l.itemsLive + 1 }) t y y.next)) ∧
      (∀ lc, openSecond s b = none → s.launch? b.launch = some lc →
        (∀ i y, nextItem s b lc t = some i → lc.tpl.bind s.tpl? = some y → exec (.stampItem w l) s = .next (stampThread
          ((s.modLaunch b.launch fun l => { l with itemNext := l.itemNext + 1, itemsLive := l.itemsLive + 1 }).modThread t
            fun x => { x with taken := x.taken + 1 }) t y i)) ∧
        (nextItem s b lc t = none → exec (.stampItem w l) s = .next (endThread s t)))) ∧
    (∀ core, bankFree s core = true → exec (.templateBankEntryFree core) s =
      .next ((s.blocks.flatMap fun b => if (clusterCores s b).contains core then blockAlive s b else []).foldl
        (fun s t => if (s.thread t).wait = some .bankEntry then clearWait s t else s) s)) ∧
    (∀ (g : Issue) (b : Block) (w0 w1 : BitVec 32), s.cur = some g → s.waveBlock? g.wave = some b →
      let op := bits w0 7 0
      let who : Who := if op ∈ [0x01, 0x02, 0x03, 0x04, 0x06] then .guarded else if 0x66 ≤ op ∧ op ≤ 0x69 then .all
        else if 0xB0 ≤ op ∧ op ≤ 0xB5 then .matrix else .normal
      let go (t : TRef) : Bool := executes s b ⟨.b32, w0.getLsbD 12, w0.extractLsb' 8 4⟩ who t
      exec (.illegalInstruction w0 w1) s = .next (((groupThreads s g).filter go).foldl
        (fun s t => trapAt s t ⟨0x01, w0.zeroExtend 64, w1.zeroExtend 64, false, 0⟩)
        (((groupThreads s g).filter fun t => !go t).foldl advance s))) ∧
    (∀ (g : Issue) (failed : BitVec 6), s.cur = some g → exec (.illegalLine failed) s = .next ((groupThreads s g).foldl
      (fun s t => trapAt s t ⟨0x02, q (g.pc.toNat / 64 * 64), failed.zeroExtend 64, false, 0⟩) s))

/-- R38, R487, R537: an outstanding load returns, writing what registers it still has, and LD falls in issue order; a
store is performed, and ST falls in issue order; the oldest write-back of a line reaches its home bank; an evicted line
goes to DRAM, or stays dirty where its page is not resident.

R154, R174, R187, R377, R506, R534: a marcher's or traversal unit's oldest run publishes its record and holds its
callout or candidate, but not while its block is halted; a beam that waited is walked at its turn, or stopped there, queues
its records and completes, and after 4,096 ticks at a full queue completes with status 1; a message is delivered to the receive that takes it; an access to a failed peer,
or a load under way to one, traps 0x0B after 10,000 ticks; a sampled access completes.

The model's own: log entries 53, 59, 60, 61, 64, 90, 105, 111, 143. -/
def Obligations.MemoryAndUnitsFinish : Prop :=
  (∀ (s : State) (i : Nat),
     (∀ l, s.loads[i]? = some l → l.live = false → l.unit = 0 → l.stranded s = false →
       let s1 := if l.uniform then
           s.modWave l.t.wave fun w => { w with k := l.regs.foldl (fun k r => Table.set 0 k r.1 r.2) w.k }
         else l.regs.foldl (fun s r => setV s l.t r.1 r.2) s
       exec (.loadComplete i) s =
         .next (retireLoads { s1 with loads := s1.loads.modify i fun x => { x with live := true, regs := [] } } l.t)) ∧
     (∀ l, s.loads[i]? = some l → l.unit = 0 → l.stranded s = true →
       exec (.loadComplete i) s =
         .next (if l.since.any fun n => n + 10000 ≤ s.tick.toNat then refuseLoad s l else s)) ∧
     (∀ p, s.stores[i]? = some p → p.fin = false → p.buffered = false →
       exec (.storePerformed i) s = .next (retireStores { s with stores := s.stores.modify i fun x => { x with fin := true } } p.t)) ∧
     (∀ y x, s.wbs[i]? = some y →
       let same (x : WriteBack) : Bool := x.core == y.core && x.asid == y.asid && x.agen == y.agen && x.va == y.va
       s.wbs.find? same = some x →
       exec (.homeBankWriteJudged i) s = .next (judgeWb { s with wbs := dropFirst same s.wbs } x)) ∧
     (∀ l s1 clean, s.csm[i]? = some l → writeLineBack s l = (s1, clean) →
       exec (.csmLineToDram i) s =
         .next (if clean then { s1 with csm := s1.csm.filter fun x => !x.is l.asid l.agen l.va } else s1))) ∧
  (∀ (s : State) (w l : Nat),
     let t : TRef := ⟨w, l⟩
     (∀ r rest, (s.thread t).marchRuns = r :: rest → runsHalted s t = false →
       exec (.marchStop w l) s = .next (unitDone (s.modThread t fun x =>
         { x with marchRuns := rest, marchRec := r.left, march := r.next.orElse fun _ => x.march
                  unitsWere := (x.marchStops r).unitsWere }) t 1 (wAt r.left.words 0))) ∧
     (∀ r rest, (s.thread t).travRuns = r :: rest → runsHalted s t = false →
       exec (.traversalStop w l) s = .next (unitDone (s.modThread t fun x =>
         { x with travRuns := rest, hitRec := r.left, trav := r.next.orElse fun _ => x.trav
                  unitsWere := (x.travStops r).unitsWere }) t 2 (wAt r.left.words 0))) ∧
     (runsHalted s t = true → exec (.marchStop w l) s = .next s ∧ exec (.traversalStop w l) s = .next s) ∧
     (∀ quad e, headBeam s quad = some e →
       (∀ x, e.owed = some x → exec (.beamComplete quad) s = .next (beamTrap s quad e x)) ∧
       (e.walked = false → beamReady e = true → e.owed = none →
         (∀ s1 x, beamRun e.bad (beamReq s e 0) e.va.toNat s = (s1, .error x) →
           exec (.beamComplete quad) s = .next (beamStop s1 quad e x)) ∧
         (∀ s1 status queue records, beamRun e.bad (beamReq s e 0) e.va.toNat s = (s1, .ok (status, queue, records)) →
           exec (.beamComplete quad) s = .next (modHeadBeam s1 quad fun x =>
             { x with walked := true, queue := q queue, pending := records, status := status, hold := none }))) ∧
       (∀ s1, e.walked = true → beamReady e = true → e.owed = none →
         queueRecords e.bad (beamReq s e 2) e.queue.toNat (e.pending.length + 1) s e.pending = (s1, [], none) →
         exec (.beamComplete quad) s = .next (completeBeam s1 quad { e with pending := [] })) ∧
       (∀ n, e.retry = some n → n + 4096 ≤ s.tick.toNat →
         exec (.beamQueueRetryExpire quad) s = .next (completeBeam s quad { e with pending := [], status := 1 }))) ∧
     (∀ core m n r, s.messages.find? (fun m => m.dest == core) = some m → core < 65536 →
       let s1 := { s with messages := dropFirst (fun x => x.id == m.id) s.messages }
       receiveFor (s1.core core) m = some (n, r) →
       exec (.messageArrival core) s = .next (acceptMessage (deliver s1 core n r m) m)) ∧
     (∀ i h since, s.peerHolds[i]? = some h → h.tick + 10000 ≤ s.tick.toNat → (s.thread h.t).wait = some (.peer since) →
       s.alive h.t = true → exec (.peerAccessTimeout i) s =
         .next (trapAt { s with peerHolds := s.peerHolds.eraseIdx i } h.t ⟨0x0B, 0, 0, false, 0⟩)) ∧
     (∀ core e,
       let p := corePart s core
       (s.part p).trace.samples.find? (fun e => e.core == core) = some e → e.waits s = false →
       let s1 := modTrace s p fun u => { u with samples := dropFirst (fun x => x.core == core) u.samples }
       let r := finishSample s1 e.body
       exec (.memorySample core) s = .next (if (r.1.part p).trace.opened then postTrace r.1 p r.2 else r.1)))

/-- R118, R130, R134-R136: a new holder's matrix state is cleared; when the state is free, signers waiting for it go on;
once the state is cleared, a completed round enters the queue that has room, and a last signature that waited is taken; the
oldest operation of an array starts after the cycle of its issue, when its stream is present; a drain goes on to its next output slot; a finished
operation, a drain's once its last slot is counted, leaves and counts down its signers' MX, and its block ends if that
was all it waited for.

The model's own: log entries 79, 98, 115, 136. -/
def Obligations.MatrixOperationsProceed : Prop :=
  ∀ (s : State) (core arr : Nat),
    ((s.core core).mx.clear = true → exec (.matrixStateClear core) s = .next (modMatrix s core fun m =>
      { m with clear := false, arrays := m.arrays.map fun a => { MxArray.init with queue := a.queue, gen := a.gen } })) ∧
    ((s.core core).mx.holder = none → exec (.matrixHolderFree core) s =
      .next (((s.blocks.filter fun b => b.core == core).flatMap (blockAlive s)).foldl
        (fun s t => if (s.thread t).wait = some .matrixHolder then clearWait s t else s) s)) ∧
    (∀ e b, (s.core core).mx.waiting.find? (fun e => e.1 == arr) = some e → mxHolder s core = some b →
      (s.core core).mx.clear = false → (mxArray s core arr).queue.length < 8 →
      let s1 := modMatrix s core fun m => { m with waiting := dropFirst (fun x => x.1 == arr) m.waiting }
      (e.2.held = false → exec (.matrixQueueRoom core arr) s = .next (enterQueue s1 b arr e.2)) ∧
      (∀ t pc n, e.2.held = true → e.2.signers.getLast? = some (t, pc, n) → exec (.matrixQueueRoom core arr) s =
        .next (if s1.alive t = true ∧ (s1.thread t).wait = some .matrixQueue then lastSigns s1 b arr e.2 t pc else s1))) ∧
    (∀ op rest b n s1 op1, (mxArray s core arr).queue = op :: rest → mxHolder s core = some b → op.started = false →
      (s.core core).mx.clear = false → b.halted = false → op.cycle < s.cycle → streamReady s b op = some n → startOp s b arr op n = (s1, op1) →
      exec (.matrixOperationStart core arr) s = .next (setHead s1 core arr op1)) ∧
    (∀ op rest, (mxArray s core arr).queue = op :: rest →
      (op.opcode = 4 → op.started = true → op.done = false →
        exec (.drainRow core arr) s = .next (drainForward core arr s)) ∧
      (op.done = true → op.opcode ≠ 4 ∨ (∀ b, mxHolder s core = some b → lastCounted s b op = true) →
        let s1 := op.signers.foldl (countMatrix op) (modArray s core arr fun a => { a with queue := a.queue.drop 1 })
        exec (.matrixOperationComplete core arr) s = .next (match (s1.core core).mx.holder.bind (tryBlockEnd s1) with
          | some (s2, e) => effects s2 e
          | none => s1)))

/-- R96, R210, R211, R385, R518: a copy request starts when its context may; a started one performs its next piece on a
healthy engine; a finished one retires in order; a queued generator binds in a free reserve slot; one past its fill's
time-out is halted, and its fill fails with cause 0xFF.

The model's own: log entries 40, 41, 48, 116. -/
def Obligations.EnginesProceed : Prop :=
  ∀ (s : State) (n : Nat),
    (∀ r, startable s n = some r → exec (.copyRequestStart n) s = .next (modReq s n r.seq fun x => { x with started := true })) ∧
    (∀ r, (s.ctx n).reqs.find? (canMove s) = some r → s.failedEngines.contains (ctxEngine s n) = false →
      exec (.copyPieceWritten n) s = .next (pieceStep s r)) ∧
    (∀ r, (s.ctx n).reqs.find? (fun r => !r.retired) = some r → r.fin = true →
      let s1 := match r.error with
        | some e => postFault s r.part (copyRecord s r e)
        | none => s
      exec (.copyRequestRetire n) s = .next (settleCp (modReq (moveTimeline s1 n r.seq r.error.isSome) n r.seq fun x =>
        { x with retired := true }) r.t r.block)) ∧
    (∀ f r, (queuedFills s n).find? (fun e => generatorSlots s n e.1 e.2 != []) = some (f, r) →
      ∃ e ∈ generatorSlots s n f r, exec (.generatorBind n) s = .next (bindGenerator s.fresh.2 f r e.1 e.2)) ∧
    (∀ f b r, fillOfGen s n = some f → s.block? n = some b → region? s f.part f.region = some r → r.timeout ≠ 0 →
      b.fillendAt = none → f.bindTick + r.timeout ≤ s.tick.toNat → ∃ pc,
      exec (.fillTimeout n) s = .next (effects (s.modBlock n fun x => { x with faulted := true })
        (.failFill f.part f.region f.block 0x0E 0xFF pc :: endBlockThreads s n))) ∧
    (∀ f r, (queuedFills s n).find? (fun e =>
        e.2.matrix && e.1.waitTick + 4096 ≤ s.tick.toNat && !freeMatrixCore s n) = some (f, r) →
      displaceable s n ≠ [] → ∃ b ∈ displaceable s n, exec (.generatorMatrixPreempt n) s =
        .next (haltCoord (modFill s.fresh.2 f.part f.region f.block fun x => { x with waitTick := s.tick.toNat })
          b.launch b.coord false))

/-! ### Queues, binders and the pager -/

/-- R461-R464, R467, R468, R472: a tail within its queue's size rings it, and one beyond stops it with ERR; RESET
empties the queue, and drops what it had submitted and its launches that nothing of is bound; the queue's next entry is
read, and its descriptor validated, once every earlier launch is rejected or admitted; a validated launch whose wait is
satisfied is admitted at its queue's cap, and under a firmware binder its record goes to the event ring; EVHEAD lets
held records go on.

The model's own: log entries 33, 35, 120, 121. -/
def Obligations.LaunchesAreQueuedAndAdmitted : Prop :=
  ∀ (s : State) (p i : Nat) (v : BitVec 64),
    let s1 := modQueue s p i fun x => { x with tail := v.extractLsb' 0 16 }
    ((launchQueue s1 p i).pending ≤ 2 ^ (launchQueue s1 p i).sz - 1 → exec (.qtailWrite p i v) s = .next s1) ∧
    (2 ^ (launchQueue s1 p i).sz - 1 < (launchQueue s1 p i).pending →
      exec (.qtailWrite p i v) s = .next (cutQueue (modQueue s1 p i fun x => { x with err := true, en := false }) p i 2)) ∧
    (let s1 := cutQueue (modQueue (dropSubmitted s p i) p i fun x =>
       { x.settled with en := false, err := false, head := 0, tail := 0 }) p i 1
     exec (.queueReset p i) s = .next (((queueLaunches s1 p i).filter fun l =>
       !(s.blocks.any fun b => !b.gen && b.launch == l.handle) && !s.images.any fun m => m.launch == l.handle).foldl
         dropLaunch s1)) ∧
    (let x := launchQueue s p i
     x.hold = none → ((queueLaunches s p i).any fun l => l.state == .validated) = false →
     (∀ va, x.ptr = some va → exec (.launchSubmit p i) s = .next (validate s p i va)) ∧
     (x.ptr = none → x.en = true → x.err = false → x.head ≠ x.tail →
       exec (.launchSubmit p i) s = .next (readEntry s p i))) ∧
    (∀ h l, s.launch? h = some l → l.state = .validated → waitMet s l.d = true → (s.part l.part).swapped = false →
      let n := nextSeq s l.part
      let prio := min l.d.prio (launchQueue s l.part l.queue).pcap
      let s2 := (s.modLaunch h fun l => { l with state := .admitted, prio := prio, admSeq := n, admTick := s.tick.toNat }).modPart
        l.part fun p => { p with admitSeq := (n + 1) % 2 ^ 29 }
      ((s.part l.part).mode = 0 → exec (.launchAdmit h) s = .next s2) ∧
      ((s.part l.part).mode ≠ 0 → (s.part l.part).eventsFull = false → (s.part l.part).events = [] →
        exec (.launchAdmit h) s =
          .next (writeEvent s2 l.part (eventRecord 1 l.queue h (n + 2 ^ 29 * prio) l.descVa)))) ∧
    (let s1 := s.modPart p fun x => { x with evhead := bits v 7 0 }
     exec (.eventRingHeadWrite p v) s = .next (flushEvents s1 p ((s1.part p).events.length + 1)))

/-- R459, R470-R474, R477: a binder's records are stored in the ring and BRTAIL, MODE and SVCH, GCORE and GSLOT are
written (a MODE of 11, or a GCORE of 0, above 48 or above the partition's cores, changes nothing); the ring's next
record is judged by its op, its status written in it and BRHEAD advanced; the arbiter's own moves are made while the
ring is empty; an expired reservation goes and its extension blocks are granted; the reserve changes slot by slot; a
back-off ends; a waiting launch ages; an answer reaches its caller, and one to a record with no waiting call is ignored.

The model's own: log entries 29, 30, 31, 66, 93, 109, 124. -/
def Obligations.BindersProceed : Prop :=
  ∀ (s : State) (p : Nat) (v : BitVec 64),
    (∀ tail,
      let n := (tail + 128 - (s.part p).brtail) % 128
      exec (.bindRingWrite p tail) s = .next ((writeRecords s p ((s.part p).binderOut.take n)).modPart p fun x =>
        { x with brtail := tail % 128, binderOut := x.binderOut.drop n })) ∧
    (let s1 := s.modPart p fun x =>
       { x with svch := v.getLsbD 2, mode := if bits v 1 0 = 3 then x.mode else v.extractLsb' 0 2 }
     exec (.binderModeWrite p v) s = .next (if (s1.part p).mode = 0 then dropEvents s1 p else s1)) ∧
    (1 ≤ bits v 5 0 → bits v 5 0 ≤ 48 → bits v 5 0 ≤ (enabledCores s p).length →
      exec (.generatorReserveWrite p v) s = .next (s.modPart p fun x => { x with gcore := bits v 5 0, gslot := bits v 9 8 })) ∧
    (bits v 5 0 = 0 ∨ 48 < bits v 5 0 ∨ (enabledCores s p).length < bits v 5 0 → exec (.generatorReserveWrite p v) s = .next s) ∧
    (∀ x s1 st tag, nextRecord s p = some x → judgeRecord s p x = (s1, st, tag) →
      let op := recField x 0 1
      let a := (s.part p).brbase.toNat + 32 * (s.part p).brhead + 0x1C
      let left := (ringWrite s1 p a (toBytes 4 (st + 2 ^ 8 * tag))).modPart p fun x => { x with brhead := (x.brhead + 1) % 128 }
      (op = 1 → exec (.bindReserve p) s = .next left) ∧ (op = 2 → exec (.bindCommit p) s = .next left) ∧
      (op = 3 → exec (.bindAbandon p) s = .next left) ∧
      (op = 0 ∨ 3 < op → exec (.bindRecordMalformed p) s = .next left)) ∧
    (nextRecord s p = none →
      (∀ l r core lcore s1 st tag, arbiterMove s p = some (.reserve l r core lcore) →
        reserveRecord s p r l core lcore = (s1, st, tag) →
        exec (.bindReserve p) s = .next (if st = 2 then arbiterConflict s1 p l r tag else s1)) ∧
      (∀ l x, arbiterMove s p = some (.commit l x) →
        let s1 := if x.r.slotList.any (reservedSlot s p x.core) then dropReservation s x else (commitRecord s p x.r l).1
        exec (.bindCommit p) s = .next
          { s1 with backoffs := s1.backoffs.filter fun b => !(b.handle == l.handle && b.coord == x.r.coord) })) ∧
    (∀ i x, s.reservations[i]? = some x → (liveReservations s).contains x = false →
      exec (.reservationLapse i) s =
        .next (regrant (dropReservation s x) x.core)) ∧
    (∀ core slot, s.waves.find? (core * 16 + slot) = none →
      let want := (wantedReserve s p).contains (core, slot)
      let held := (s.part p).reserve.contains (core, slot)
      (want = true → held = false → exec (.reserveSlotChange p core slot) s =
        .next (s.modPart p fun x => { x with reserve := x.reserve ++ [(core, slot)] })) ∧
      (want = false → held = true → exec (.reserveSlotChange p core slot) s =
        .next (s.modPart p fun x => { x with reserve := x.reserve.filter (· != (core, slot)) }))) ∧
    (∀ i b, s.backoffs[i]? = some b → b.waiting = true → b.untilCycle ≤ s.cycle →
      exec (.arbiterBackoffExpiry i) s = .next { s with backoffs := s.backoffs.modify i fun b => { b with waiting := false } }) ∧
    (∀ h l, s.launch? h = some l → l.state = .admitted → l.admTick + 1000 * (l.bonus + 1) ≤ s.tick.toNat → l.bonus < 7 →
      exec (.arbiterAgeing h) s = .next (s.modLaunch h fun l => { l with bonus := l.bonus + 1 })) ∧
    (∀ i, (s.part p).calls.contains (i, false) = true → callers s p i ≠ [] ∨ savedCaller s p i = true →
      let a := serviceValue s p i
      let answered (x : Part) : Part := { x with calls := x.calls.map fun c => if c.1 = i then (i, true) else c }
      let s1 := s.modPart p fun x => (answered x).keepCalls
      let s2 := (callers s1 p i).foldl (answerThread i a) s1
      exec (.serviceAnswer p i) s = .next (wakeCallers p (freeCalls p 256 (mapSavedPart p (answerSaved i a) s2)))) ∧
    (∀ i, (s.part p).calls.contains (i, false) = false ∨ (callers s p i = [] ∧ savedCaller s p i = false) →
      exec (.serviceAnswer p i) s = .next s)

/-- R484, R485, R488-R490, R493, R499, R500: every pager command completes: with good arguments it does its work, leaves
error 0 and clears PGBUSY, a swap-out only with its last image; with bad ones it only leaves its error. REPLAY has every requester that waits on a page try
again, and writes the lines held for one; UNRESOLVABLE fails those that wait on one fault's page; a TLB invalidation
drops the entries that meet its range; a range write-back sends core-side dirty bytes of the range to their banks and
the banks' to DRAM where their page is resident; a bump raises the generation; a fill the host decides is queued or
fails; a launch is discarded; a counter loses bit 63; a swap-out saves every coordinate on the partition's cores when the
pool has room, and a swap-in restores every image it saved unless the pool cannot hold all.

The model's own: log entries 15, 37, 38, 39. -/
def Obligations.PagerCommandsRun : Prop :=
  ∀ (s : State) (p : Nat),
    let done (s1 : State) (err : Nat) : State := s1.modPart p fun x => { x with pgerr := err, pgbusy := false }
    (exec (.pgcmdUnknown p) s = .next (done s 1)) ∧
    (let fs := s.pageFaults.filter (faultReplayed s p)
     let waits (w : Option Wait) : Bool := (w.bind pageWait).isSome
     let s1 := { s with pageFaults := s.pageFaults.filter fun f => !fs.contains f }
     let s2 := (partThreads s1 p).foldl (fun s t => if waits (s.thread t).wait then clearWait s t else s) s1
     let s3 := freeHolds s2 (fun b _ w => b.part == p && waits (some w)) none
     let s4 := modReqs s3 fun r => if r.part = p ∧ waits r.parked = true then { r with parked := none } else r
     let s5 := modQueues s4 p fun x => { x with hold := none }
     exec (.replay p) s = .next (done ((s5.csm.filter fun l => fs.any fun f => heldLine p f l).foldl
       (fun s l => (writeLineBack s l).1) s5) 0)) ∧
    (∀ f, s.pageFaults.find? (fun f => f.id == pgArg s p 0 && faultWaited s p f) = some f →
      let on (w : Option Wait) : Option (BitVec 64) :=
        (w.bind pageWait).bind fun e => if e.1 = f.id then some e.2 else none
      let s1 := { s with pageFaults := s.pageFaults.filter (· != f) }
      let s2 := freeHolds s1 (fun b _ w => b.part == p && (on (some w)).isSome) (some ⟨0x0A, 0, 0, false, 0⟩)
      let s3 := modReqs s2 fun r => if r.part = p then (on r.parked).elim r fun va =>
        { r with error := r.error.orElse fun _ => some (0x0A, va, 0), dead := true, parked := none } else r
      let s4 := modQueues s3 p fun x => if x.hold = some f.id then
        { x with hold := none, lost := x.lost || !x.table, lostTable := x.lostTable || x.table } else x
      let s5 := (s4.csm.filter (heldLine p f)).foldl
        (fun s l => dropRecord s 9 l.part 0xFFFF l.asid l.agen l.va l.dirty) s4
      let s6 := { s5 with csm := s5.csm.filter fun l => !heldLine p f l }
      exec (.unresolvable p) s = .next (done (effects s6 ((partThreads s6 p).filterMap fun t =>
        (on (s6.thread t).wait).map fun pc => .trap t ⟨0x0A, 0, 0, false, 0⟩ pc)) 0)) ∧
    (s.pageFaults.find? (fun f => f.id == pgArg s p 0 && faultWaited s p f) = none →
      exec (.unresolvable p) s = .next (done s 2)) ∧
    (∀ e ∈ [(Instr.tlbInvalidate p, rangeCheck s p (2 ^ 57)), (.rangeWriteBack p, rangeCheck s p (2 ^ 40)),
        (.generationBump p, asidCheck s p)], ∀ err, e.2 = some err → exec e.1 s = .next (done s err)) ∧
    (rangeCheck s p (2 ^ 57) = none → exec (.tlbInvalidate p) s = .next (done (closeChannels { s with tlb := s.tlb.filter fun e =>
      !(e.asid == pgArg s p 0 && rangesMeet (pgArg s p 1) (pgArg s p 2) e.va (2 ^ e.log2)) }) 0)) ∧
    (rangeCheck s p (2 ^ 40) = none →
      let s1 := ((s.cores.map Prod.fst).filter fun c => corePart s c == p).foldl
        (coreWriteBack (pgArg s p 0) (pgArg s p 1) (pgArg s p 2)) s
      let mine (l : CsmLine) : Bool := l.asid == pgArg s p 0 && l.part == p && l.dirty != 0
        && rangesMeet (pgArg s p 1) (pgArg s p 2) l.va 128
      exec (.rangeWriteBack p) s = .next (done ((s1.csm.filter mine).foldl (fun s l =>
        match peekWalk s l.asid l.va with
        | .leaf _ _ _ _ => (writeLineBack s l).1
        | .absent _ _ => s) s1) 0)) ∧
    (asidCheck s p = none → exec (.generationBump p) s = .next (done (closeChannels (bumpGeneration s (pgArg s p 0))) 0)) ∧
    (fillingCheck s p = none → ∀ i ∈ [Instr.fillGo p, Instr.fillFail p], exec i s = .next (done s 2)) ∧
    (∀ f, fillingCheck s p = some f →
      (f.queued = false → f.gen = none → exec (.fillGo p) s = .next (done { s with
        fills := (s.fills.filter fun x => x != f) ++ [{ f with queued := true, order := s.seq, waitTick := s.tick.toNat }]
        seq := s.seq + 1 } 0)) ∧
      (f.queued = true ∨ f.gen ≠ none → exec (.fillGo p) s = .next (done s 2)) ∧
      (exec (.fillFail p) s = .next (done (effects s (.failFill p f.region f.block 0x0E (BitVec.ofNat 8 (pgArg s p 2)) 0 ::
        (f.gen.map (endBlockThreads s)).getD [])) 0))) ∧
    (let h := pgArg s p 0
     (4096 ≤ h → exec (.endLaunch p) s = .next (done s 2)) ∧
     (h < 4096 → ((s.launch? h).all fun l => l.part != p) = true → exec (.endLaunch p) s = .next (done s 3)) ∧
     (∀ l, h < 4096 → s.launch? h = some l → l.part = p →
       exec (.endLaunch p) s = .next (done (discardLaunch s h) 0))) ∧
    (pgArg s p 0 < 1024 → ctxAllowed s p (pgArg s p 0) = true → exec (.clearTimelineError p) s =
      .next (done (s.modCtx (pgArg s p 0) fun x => { x with counter := q (x.counter.toNat % 2 ^ 63) }) 0)) ∧
    (1024 ≤ pgArg s p 0 → exec (.clearTimelineError p) s = .next (done s 2)) ∧
    (pgArg s p 0 < 1024 → ctxAllowed s p (pgArg s p 0) = false → exec (.clearTimelineError p) s = .next (done s 3)) ∧
    (let s1 := s.modPart p fun x => { x with swapped := false }
     let mine (i : Image) : Bool := i.swapped && i.written && (s1.launch? i.launch).any fun l => l.part == p
     (poolUsed s p ≤ 2 * (s.part p).shways →
       exec (.partitionSwapIn p) s = .next (done ((s1.images.filter mine).foldl swapInImage s1) 0)) ∧
     (2 * (s.part p).shways < poolUsed s p → exec (.partitionSwapIn p) s = .next (done s 4))) ∧
    (let cs := residentCoords s p
     let need := sumOf (cs.map fun c => imageGranules s (coordBlocks s c.1 c.2))
     (granulesFree s p < need → exec (.partitionSwapOut p) s = .next (done s 4)) ∧
     (need ≤ granulesFree s p →
       let s1 := (s.blocks.filter fun b => b.gen && b.part == p).foldl flushGenerator s
       let s2 := cs.foldl (fun s c => haltCoord s c.1 c.2 true) s1
       exec (.partitionSwapOut p) s =
         .next (endSwap (s2.modPart p fun x => { x with swapped := true, pgerr := 0, pgbusy := true }) p)))

/-- R139, R478, R479, R492, R494-R499: a held fault record is written, the thread that it halted goes on to its end, and
FQHEAD lets more go on; the CSM is divided when every slice keeps four cache ways and nothing is admitted; a region is
registered from its descriptor and its tables are cleared, and one with no block FILLING is unregistered; a request's
directive drains, saves or flushes each coordinate it covers; an image is written, and written back once its blocks are bound.

The model's own: log entries 24, 36, 42, 43, 44, 126. -/
def Obligations.StateIsSavedAndRestored : Prop :=
  ∀ (s : State) (p : Nat) (v : BitVec 64),
    (∀ r rest, (s.part p).faultsFull = false → (s.part p).faults = r :: rest →
      let s1 := ringWrite s p ((s.part p).fqbase.toNat + 64 * (s.part p).fqtail) (toBytes 64 r.toNat)
      let s2 := s1.modPart p fun x => { x with faults := rest, fqtail := (x.fqtail + 1) % 256 }
      let s3 := if (s.part p).pghost then s2.modPart p fun x => { x with msix := x.msix ||| 1 } else s2
      exec (.faultRecordWrite p) s = .next (effects s3 (((partThreads s3 p).filter fun t =>
        (s3.thread t).wait == some .halted && haltedBy s3 t r).map Eff.ended))) ∧
    (let s1 := s.modPart p fun x => { x with fqhead := bits v 7 0 }
     exec (.faultQueueHeadWrite p v) s = .next (iter (fun s => writeFault s p) (s1.part p).faults.length s1)) ∧
    (let ok := divisionOk (sliceCount s p) (bits v 25 16) (bits v 9 0) && !anyAdmitted s p
     (ok = true → exec (.csmDivisionWrite p v) s =
       .next (trimCsm (s.modPart p fun x => { x with shways := bits v 25 16, winways := bits v 9 0 }) p)) ∧
     (ok = false → exec (.csmDivisionWrite p v) s = .next (s.modPart p fun x => { x with pgerr := 2 }))) ∧
    (∀ s1 x, v.toNat % 64 = 0 → readVal s (agentReq s p (s.part p).mgmtAsid 5) v.toNat 64 = (s1, .ok x) →
      let i := (s.part p).rgsel
      let r := regionOf (BitVec.ofNat 512 x) (s.part p).mgmtAsid
      (regionOk s1 p i r = true → exec (.regionRegister p v) s = .next (clearTables (s1.modPart p fun y =>
        { y with rgref := false, regions := y.regions.put i r, rgdesc := y.rgdesc.set 0 i v }) p r)) ∧
      (regionOk s1 p i r = false → exec (.regionRegister p v) s = .next (s1.modPart p fun y => { y with rgref := true }))) ∧
    (let i := (s.part p).rgsel
     ((region? s p i).all (fun r => !regionFilling r) = true → exec (.regionUnregister p) s = .next (s.modPart p fun y =>
       { y with rgref := false, regions := y.regions.del i, rgdesc := y.rgdesc.del i }))) ∧
    (∀ e ∈ [(Instr.preemptAutomatic p v, 0), (.preemptDrain p v, 1), (.preemptSave p v, 2), (.preemptFlush p v, 3)],
      let r := preRequest v
      r.directive = e.2 → preBusy s p = false → requestError s p v = none →
      (applyAll r (namedCores s r) (coveredCoords s r) s [] = none →
        exec e.1 s = .next (s.modPart p fun x => { x with pgerr := 2 })) ∧
      (∀ s1 done, applyAll r (namedCores s r) (coveredCoords s r) s [] = some (s1, done) →
        let o := takenOption s1 (done.map fun e => e.1.opt)
        exec e.1 s = .next (o.1.modPart p fun x =>
          { x with preempts := done.map Prod.fst, propt := o.2, prmet := done.all fun e => e.2 }))) ∧
    (∀ i im, s.images[i]? = some im →
      (im.written = true → exec (.haltComplete i) s = .next s) ∧
      (im.written = false → exec (.haltComplete i) s = .next (completeSave s i)) ∧
      (∀ places, im.written = true → im.swapped = false → placesFor s im = some places →
        (places.all fun e => (s.core e.2.core).mx.holder.all (· == e.2.id) || !im.matrix.any fun m => m.1 == e.1.id) = true →
        exec (.restore i) s = .next (restoreImage s i im places)))

/-! ### The trust core and the platform -/

/-- R507-R511: once booted with good firmware, a mailbox command whose word 0 has no bits above 7 answers its status and
response, clears the pending request and raises vector 3 of a partition's function; a command of function 0 is none of a
partition's (status 1), nor is another partition its own (status 3).

The model's own: log entries 15, 18, 19, 20, 21, 119. -/
def Obligations.MailboxCommandsRun : Prop :=
  ∀ (s : State) (fn : Nat),
    let a (i : Nat) : Nat := (mbArg s fn i).toNat
    let all := [Instr.readIdentity fn, .attest fn, .setQuadMap fn, .setContexts fn, .allocateAsid fn, .freeAsid fn
      , .setPageTableRoot fn, .updateStage fn, .updateCommit fn, .mailboxUnknown fn]
    (s.bootOk = false → ∀ i ∈ all, exec i s = .next (reply s fn 6 [])) ∧
    (s.bootOk = true → bits (mbArg s fn 0) 63 8 ≠ 0 → ∀ i ∈ all, exec i s = .next (reply s fn 2 [])) ∧
    (s.bootOk = true → bits (mbArg s fn 0) 63 8 = 0 →
      exec (.mailboxUnknown fn) s = .next (reply s fn 1 []) ∧
      exec (.readIdentity fn) s = .next (reply s fn 0 (identityRecord s)) ∧
      (let r := reportBody s fn
       exec (.attest fn) s = .next (reply r.1 fn 0 (r.2 ++ toBytesBE 96 (Config.attestSignature r.2).toNat))) ∧
      (fn ≠ 0 → exec (.setQuadMap fn) s = .next (reply s fn 1 []) ∧
        ∀ i ∈ [Instr.setContexts fn, .updateStage fn, .updateCommit fn],
          exec i s = .next (reply s fn (if a 1 = fn - 1 then 1 else 3) [])) ∧
      (fn = 0 →
        (let m := mapArg s fn
         let st := mapStatus s m
         exec (.setQuadMap fn) s = .next (if st = 0 then reply (extendConfig { s with quadMap := mapTable m }) fn 0 []
           else reply s fn st [])) ∧
        (8 ≤ a 1 ∨ 1024 < a 2 + a 3 ∨ 1023 < a 2 ∨ 1023 < a 3 → exec (.setContexts fn) s = .next (reply s fn 2 [])) ∧
        (a 1 < 8 → a 2 + a 3 ≤ 1024 → a 2 ≤ 1023 → a 3 ≤ 1023 → exec (.setContexts fn) s =
          .next (if anyAdmitted s (a 1) then reply s fn 4 []
            else reply (clearIssued (s.modPart (a 1) fun x => { x with ctxbase := a 2, ctxcnt := a 3 }) (a 2) (a 3)) fn 0 [])) ∧
        (let good := decide (a 1 < 8) && physOk s (a 2) (a 3)
         exec (.updateStage fn) s = .next (if good then reply (s.modPart (a 1) fun x =>
           { x with staged := some ⟨physBytes s (a 2) (a 3), sha384 (physBytes s (a 2) (a 3))⟩ }) fn 0 []
           else reply s fn 2 [])) ∧
        (∀ y, a 1 < 8 → (s.part (a 1)).staged = some y → (anyAdmitted s (a 1) = false ∨ (s.part (a 1)).swapped = true) →
          let s1 := (closeSession (a 1) s).modPart (a 1) fun x => { x with sextantStopped := true }
          let s2 := (extend { s1 with measure := s1.measure.set 0 (2 + a 1) 0 } (2 + a 1) y.digest).modPart (a 1) fun x =>
            { x with updates := x.updates + 1 }
          exec (.updateCommit fn) s = .next (reply (s2.modPart (a 1) fun x =>
            { x with image := some y.image, staged := none, sextantStopped := false }) fn 0 [])) ∧
        (a 1 < 8 → (s.part (a 1)).staged ≠ none → anyAdmitted s (a 1) = true → (s.part (a 1)).swapped = false →
          exec (.updateCommit fn) s = .next (reply s fn 4 [])) ∧
        (8 ≤ a 1 ∨ (s.part (a 1)).staged = none → exec (.updateCommit fn) s = .next (reply s fn 2 []))) ∧
      (freeAsidOf s = none → exec (.allocateAsid fn) s = .next (reply s fn 5 [])) ∧
      (∀ n, freeAsidOf s = some n → exec (.allocateAsid fn) s = .next (reply
        { setAsid s n (liveEntry (asidEntry s n)) with asidOwner := s.asidOwner.set 0 n fn } fn 0 (toBytes 8 n))) ∧
      (∀ st, asidArgStatus s fn = some st → ∀ i ∈ [Instr.freeAsid fn, .setPageTableRoot fn],
        exec i s = .next (reply s fn st [])) ∧
      (asidArgStatus s fn = none →
        (let used := (s.launches.map Prod.snd).any fun l => l.asid == a 1 && l.state == .admitted
         exec (.freeAsid fn) s = .next (if used then reply s fn 4 [] else reply
           { setAsid s (a 1) (asidEntry s (a 1) &&& ~~~1#128) with asidOwner := s.asidOwner.set 0 (a 1) 0 } fn 0 [])) ∧
        (¬(a 2 % 4096 = 0 ∧ a 2 < 2 ^ 52) → exec (.setPageTableRoot fn) s = .next (reply s fn 2 [])) ∧
        (a 2 % 4096 = 0 → a 2 < 2 ^ 52 →
          let e := asidEntry s (a 1)
          let word := bits e 63 52 * 2 ^ 52 + a 2 + bits e 11 0
          exec (.setPageTableRoot fn) s =
            .next (reply (setAsid s (a 1) (BitVec.ofNat 128 (word + 2 ^ 64 * bits e 127 64))) fn 0 []))))

/-- R5, R502, R503, R505, R506, R509, R514, R517, R529-R531: boot measures the firmware, the configuration and
the Sextant images, or leaves the device in reset; time follows the host's, forward by one jump and else by slew; the
core clock steps by 100 MHz within 1,650 to 3,300, down at the power limit and up below it; a write from the host or a
peer reaches its memory; a snoop takes the host line back that the CSM holds; a failed port and a resent flit are recorded; each Sextant
core's beat is checked, and a partition kept from binding is counted; a trace session opens, closes and goes on.

The model's own: log entries 14, 51, 52, 53, 54, 92, 107. -/
def Obligations.PlatformEventsHappen : Prop :=
  ∀ (s : State) (p n : Nat) (v : BitVec 64),
    (let h := sha384 Config.trustedFirmware
     (Config.firmwareSignatureGood h = false → exec .boot s = .next { s with booted := false, bootOk := false }) ∧
     (Config.firmwareSignatureGood h = true →
       let s1 := (List.range 9).foldl (fun s p => extend s (2 + p) (sha384 (Config.sextantFirmware p))) (extendConfig (extend s 0 h))
       exec .boot s = .next { s1 with booted := true, bootOk := true })) ∧
    (exec .heartbeatCheck s = .next ((List.range 8).foldl countStopped
      (([0, 1, 2, 3] ++ if s.spareUsed then [4] else []).foldl checkBeat ((List.range 8).foldl endTakeover s)))) ∧
    (s.linkUp = true →
      (s.tick.toNat + 1000 < v.toNat / 10 → exec (.ptmExchange v) s = .next { s with tick := q (v.toNat / 10), ptmSlew := 0 }) ∧
      (v.toNat / 10 ≤ s.tick.toNat + 1000 → exec (.ptmExchange v) s =
        .next { s with ptmSlew := ((v.toNat / 10 : Nat) : Int) - (s.tick.toNat : Int) })) ∧
    (∀ up, exec (.linkStateChange up) s = .next { s with linkUp := up, ptmSlew := if up then s.ptmSlew else 0 }) ∧
    (exec .clockStepDown s = .next (if s.powerLimit ≤ s.draw then { s with clockMHz := max 1650 (s.clockMHz - 100) } else s)) ∧
    (exec .clockStepUp s = .next (if s.draw < s.powerLimit then
      { s with clockMHz := if s.clockMHz = 1650 then 1700 else min 3300 (s.clockMHz + 100) } else s)) ∧
    (∀ mask, n / 8 * 8 < tier1Bytes → s.linkUp = true → exec (.hostCxlWrite n v mask) s =
      .next (outsideWrite s (n / 8 * 8) (BitVec.ofNat 128 (mask.toNat * 2 ^ (n / 8 * 8 % 128))) (linePut (n / 8 * 8 % 128) v.toNat))) ∧
    (∀ b, aperturePa (n / 8 * 8) = some b →
      exec (.peerAccessRequest n true v) s = .next (outsideWrite s b (byteMask (b % 128) 8) (linePut (b % 128) v.toNat)) ∧
      exec (.peerAccessRequest n false v) s = .next s) ∧
    (exec (.cxlCacheSnoop n) s =
      .next (if paKind s n = .cxl ∧ s.linkUp = true then (s.csm.filter (linesAt s n)).foldl leaveCsm s else s)) ∧
    (n < 16 → exec (.asterismPortFailure n) s = .next { s with failedPorts := s.failedPorts ||| 1#16 <<< n }) ∧
    (exec (.linkFlitResend n) s = .next { s with resent := s.resent + 1 }) ∧
    ((s.part p).trace.opened = false →
      let s1 := drainHeld (modTrace s p fun u => { u with opened := true, tseq := u.tseq + 1, thead := 0, ttail := 0 }) p
      let u := (s1.part p).trace
      exec (.traceSessionOpen p) s = .next (holdTrace s1 p (traceSessionRecord s1 3 [q u.tseq.toNat, u.tqmask, 0, 0, 0]))) ∧
    ((s.part p).trace.opened = true →
      let s1 := flushSamples p (fun _ => true) s
      let u := (s1.part p).trace
      let r := traceSessionRecord s1 4 [q (u.tseq.toNat + 2 ^ 32 * u.tdrop.toNat), 0, 0, 0, 0]
      exec (.traceSessionClose p) s = .next (modTrace (holdTrace s1 p r) p fun u => { u with opened := false })) ∧
    exec (.traceRingHeadWrite p v) s = .next (drainHeld (modTrace s p fun u => { u with thead := bits v 23 0 }) p)

/-- R459, R478, R494, R504, R530: a management register's write sets the register, or goes to the unit or command that
its number names, and a write to no register, or to one of another window, changes nothing; the operator sets the
module's power limit between 1,500 and 2,400 W (R5).

R515, R516, R529: a failing quad's generators are flushed, its coordinates saved, its caches' dirty lines written back, its
slice evacuated and its index remapped; launches whose coordinates or lines cannot be read end under R500, as one
interruption. Behind a failed router the blocks and generator items end faulted, and the quad is remapped.

R518-R520, R523: a failed engine's contexts move to a healthy one; a scrub counts a corrected error or reports an
uncorrectable one; a channel is retired with its record; blocks of a virtual core and of the core that serves it give
way to each other.

The model's own: log entries 16, 46, 47, 48, 49, 50, 55, 127, 128. -/
def Obligations.FailuresAndRegistersAreHandled : Prop :=
  ∀ (s : State) (p n : Nat) (v : BitVec 64),
    (p < 8 →
      (exec (.registerWrite p 0x102 v) s = .next (s.modPart p fun x => { x with brbase := v })) ∧
      (exec (.registerWrite p 0x104 v) s =
        .next (s.modPart p fun x => { x with resexp := if bits v 15 0 = 0 then x.resexp else bits v 15 0 })) ∧
      (exec (.registerWrite p 0x105 v) s = .next (s.modPart p fun x => { x with evbase := v })) ∧
      (exec (.registerWrite p 0x107 v) s = .next (s.modPart p fun x => { x with qsel := bits v 5 0 })) ∧
      (exec (.registerWrite p 0x10C v) s = .next (s.modPart p fun x => { x with svbase := v })) ∧
      (exec (.registerWrite p 0x10E v) s = .next (s.modPart p fun x => { x with svval := v })) ∧
      (exec (.registerWrite p 0x180 v) s = .next (s.modPart p fun x => { x with fqbase := v })) ∧
      (exec (.registerWrite p 0x182 v) s = .next (s.modPart p fun x => { x with fqdrop := 0 })) ∧
      (exec (.registerWrite p 0x183 v) s = .next (s.modPart p fun x =>
        { x with prhost := v.getLsbD 2, flhost := v.getLsbD 1, pghost := v.getLsbD 0 })) ∧
      (exec (.registerWrite p 0x18B v) s = .next (s.modPart p fun x => { x with shbw := bits v 15 0 })) ∧
      (exec (.registerWrite p 0x18F v) s = .next (s.modPart p fun x => { x with rgsel := bits v 5 0 })) ∧
      (∀ e ∈ [(0x100, Instr.binderModeWrite p v), (0x101, .generatorReserveWrite p v), (0x103, .bindRingWrite p (bits v 6 0))
          , (0x106, .eventRingHeadWrite p v), (0x10B, .qtailWrite p (s.part p).qsel v), (0x10F, .serviceAnswer p (bits v 7 0))
          , (0x181, .faultQueueHeadWrite p v), (0x18A, .csmDivisionWrite p v), (0x1018, .traceRingHeadWrite p v)],
        exec (.registerWrite p e.1 v) s = exec e.2 s) ∧
      (exec (.registerWrite p 0x190 v) s = if v = 0 then exec (.regionUnregister p) s else exec (.regionRegister p v) s) ∧
      ((s.part p).pgbusy = true → exec (.registerWrite p 0x185 v) s = .next s) ∧
      ((s.part p).pgbusy = false → ∀ e ∈ [(1, Instr.replay p), (2, .unresolvable p), (3, .tlbInvalidate p)
          , (4, .rangeWriteBack p), (5, .generationBump p), (6, .fillGo p), (7, .fillFail p), (8, .endLaunch p)
          , (9, .clearTimelineError p), (10, .partitionSwapOut p), (11, .partitionSwapIn p)],
        bits v 7 0 = e.1 →
        exec (.registerWrite p 0x185 v) s = exec e.2 (s.modPart p fun x => { x with pgbusy := true })) ∧
      (0x200 ≤ n → n < 0x208 → exec (.registerWrite p n v) s =
        .next (modMailbox s (p + 1) fun m => { m with request := m.request.set (n - 0x200) v })) ∧
      (0x400 ≤ n → n < 0x5FE → exec (.registerWrite p n v) s = .next s)) ∧
    (8 ≤ p →
      (n < 255 → exec (.registerWrite p (0x400 + 2 * n) v) s = .next (
        if v.getLsbD 0 = true ∧ bits v 16 1 = 0 then s
        else { s with peers := s.peers.put n ⟨v.extractLsb' 32 32, v.extractLsb' 1 16, v.getLsbD 0⟩ })) ∧
      (exec (.registerWrite p 0x300 v) s =
        .next (if 1500 ≤ v.toNat ∧ v.toNat ≤ 2400 then { s with powerLimit := v.toNat } else s)) ∧
      (n < 0x200 ∨ 0x1000 ≤ n → exec (.registerWrite p n v) s = .next s)) ∧
    (n < 0x100 ∨ (0x280 ≤ n ∧ n < 0x300) ∨ (0x300 < n ∧ n < 0x400) ∨ (0x5FE ≤ n ∧ n < 0x1000) →
      exec (.registerWrite p n v) s = .next s) ∧
    (∀ bad, quadEnabled s n = false → exec (.quadFailure n bad) s = .next s) ∧
    (∀ bad, quadEnabled s n = true →
      let old := physQuad s n
      let s1 := (s.blocks.filter fun b => b.gen && coreQuad b.core == old).foldl flushGenerator s
      let cs := quadCoords s1 old
      let r2 := someOf bad s1 cs
      let s3 := endLaunches (interrupted r2.1 (r2.2.map fun c => c.1)) (r2.2.map fun c => c.1).eraseDups
      let kept := cs.filter fun c => (s3.launch? c.1).isSome
      let halted := kept.foldl
        (fun s c => if (coordBlocks s c.1 c.2).any (·.halted) then s else haltCoord s c.1 c.2 false) s3
      let s4 := iterWhile (fun s => (s.images.findIdx? fun i => !i.written && kept.contains (i.launch, i.coord)).map
        (completeSave s)) (halted.images.length + 1) halted
      let r5 := someOf bad s4 (quadDirty s4 old)
      let s6 := writeBackQuad old (loseLines old r5.2 r5.1)
      let r7 := someOf bad s6 (s6.csm.filter fun l => l.dirty != 0 && homeQuad s6 l == old)
      let s8 := { r7.1 with csm := r7.1.csm.filter fun l => !r7.2.contains l }
      let asids := r5.2.map (fun l => l.asid) ++ r7.2.map (fun l => l.asid)
      let victims := ((s8.launches.map Prod.snd).filter fun l => asids.contains l.asid).map fun l => l.handle
      let s9 := evacuate (endLaunches (if r2.2 = [] then interrupted s8 victims else s8) victims) old
      exec (.quadFailure n bad) s = .next (remapQuad (if spareQuads s9 = [] then s9 else keepPlaces kept s9) n)) ∧
    (quadEnabled s n = false → exec (.routerFailure n) s = .next s) ∧
    (quadEnabled s n = true →
      let old := physQuad s n
      let gens := s.blocks.filter fun b => b.gen && coreQuad b.core == old
      let bs := s.blocks.filter fun b => !b.gen && coreQuad b.core == old
      let s1 := interrupted (loseQuad old s) (bs.map fun b => b.launch)
      let s2 := bs.foldl killBlock (gens.foldl killGenerator s1)
      exec (.routerFailure n) s = .next (remapQuad { s2 with
        failedRouters := s2.failedRouters ++ [old], health := { s2.health with detour := satInc s2.health.detour } } n)) ∧
    (∀ target, let s1 := { s with failedEngines := if s.failedEngines.contains n then s.failedEngines else s.failedEngines ++ [n] }
      let healthy (e : Nat) : Bool := e < 16 && !s1.failedEngines.contains e
      ((target :: List.range 16).find? healthy = none → exec (.copyEngineFailure n target) s = .next s1) ∧
      (∀ e, (target :: List.range 16).find? healthy = some e →
        let cs := (List.range 1024).filter fun c => ctxEngine s1 c == n
        let s2 := cs.foldl (fun s c => s.modCtx c fun x =>
          { x with engine := some e, reqs := x.reqs.map CopyReq.resumed }) s1
        exec (.copyEngineFailure n target) s =
          .next { s2 with health := { s2.health with engmv := d (min 0xFFFFFFFF (s2.health.engmv.toNat + cs.length)) } })) ∧
    (s.bad.contains (n / 32) = false → exec (.backgroundScrub n) s =
      .next (if s.fresh.1.getLsbD 0 then countCorrected s.fresh.2 n else s.fresh.2)) ∧
    (s.bad.contains (n / 32) = true → exec (.backgroundScrub n) s = .next (
      (somePart s).2.elim (somePart s).1 fun p => errorRecord (somePart s).1 p 4 0 0 (.memory (n / 32 * 32)) 0 none)) ∧
    (∀ tier, s.retired.contains (tier, n) = true ∨ 48 ≤ n ∨ (tier ≠ 1 ∧ tier ≠ 2) →
      exec (.channelRetirement tier n) s = .next (closeChannels s)) ∧
    (∀ tier, s.retired.contains (tier, n) = false → n < 48 → tier = 1 ∨ tier = 2 →
      let bit : BitVec 48 := 1#48 <<< n
      let h := s.health
      let s1 := { s with
        retired := s.retired ++ [(tier, n)]
        health := { h with ret1 := if tier = 1 then h.ret1 ||| bit else h.ret1
                           ret2 := if tier = 2 then h.ret2 ||| bit else h.ret2 } }
      let s2 := (somePart s1).1.fresh.2
      let s3 := { s2 with health := { s2.health with uncor := d (min 0xFFFFFFFF (s2.health.uncor.toNat + 1)) } }
      let word := q (tier - 1 + 2 ^ 8 * ((somePart s1).1.fresh.1.toNat % 5) + 2 ^ 16 * n + 2 ^ 24 * 2
        + 2 ^ 32 * (h.corr.get 0 (48 * (tier - 1) + n)).toNat)
      exec (.channelRetirement tier n) s = .next (closeChannels ((somePart s1).2.elim s3 fun p =>
        postFault s3 p (record (header s 11 0 0xFFFF 0 0xFFFF 0 ++ [word, 0, 0, 0, Config.eccSyndrome 0]))))) ∧
    (let named := 4 * (partQuads s p).getD (n / 4) 0 + n % 4
     (n / 4 < (partQuads s p).length → quadEnabled s (named / 4) = false → ∀ core l, serveCore s p true named = some (core, l) →
       let own := servedCoords s core (· == n)
       let cs := if own = [] then servedCoords s core (· != n) else own
       let away (s : State) (c : Nat × Nat × Nat × Nat) : State :=
         let s1 := haltCoord s c.1 c.2 false
         { s1 with images := mapIf (fun i => i.launch == c.1 && i.coord == c.2) (fun i => { i with yields := true }) s1.images }
       exec (.virtualCoreAlternation p n) s = .next (cs.foldl (fun s c =>
         if imageGranules s (coordBlocks s c.1 c.2) ≤ granulesFree s p then away s c else s) s)) ∧
     ((partQuads s p).length ≤ n / 4 ∨ quadEnabled s (named / 4) = true ∨ serveCore s p true named = none →
       exec (.virtualCoreAlternation p n) s = .next s))

/-! ### Single rules -/

/-- R279: `nop` has no effect beyond the advance of the program counter, and its words are 0x0000_0F00, 0, 0. -/
def Obligations.NopOnlyAdvances : Prop :=
  (∀ (f : RForm) (s : State) (g : Issue) (b : Block), Issues (.nop f) .normal s g b →
    exec (.nop f) s = .next ((executing s g b (.nop f) .normal).foldl advance (passed s g b (.nop f) .normal))) ∧
  (∀ (s : State) (t u : TRef),
    ((advance s t).thread t).pc = nextPc (s.thread t).pc ∧ (u ≠ t → (advance s t).thread u = s.thread u)) ∧
  (∀ f : RForm, (Instr.nop f).wf = true → f.h.sel = 15 → encode (.nop f) = some 0x000000000000000000000F00) ∧
  decodeTableWord 96 0x000000000000000000000F00 = some (.nop ⟨⟨.b32, false, 15⟩, .zero, .zero, .zero, .zero, 0⟩)

/-- R297: `isel` selects a or b, bit for bit, by a 32-bit c of any file; types b32 and b64, no modifiers, no clamp. -/
def Obligations.IselSelects : Prop :=
  ∀ f : RForm,
    Does (.isel f) f.dst f.h.typ.regs false (fun p t =>
      Res.of (if srcVal p t .b32 f.c ≠ 0 then srcVal p t f.h.typ f.a else srcVal p t f.h.typ f.b)) ∧
    (∀ (s : State) (t : TRef), f.c.file = .c → f.c.neg = false → f.c.abs = false → f.c.perm = .none →
      srcVal s t .b32 f.c = if creg s t f.c.num.toNat then 1 else 0) ∧
    ((Instr.isel f).wf = true → (f.h.typ = .b32 ∨ f.h.typ = .b64) ∧ f.dst.clp = 0) ∧
    ((f.a.neg ∨ f.a.abs ∨ f.b.neg ∨ f.b.abs ∨ f.c.neg ∨ f.c.abs ∨ f.dst.clp ≠ 0 ∨ ¬(f.h.typ = .b32 ∨ f.h.typ = .b64)) →
      ∀ (s : State) (g : Issue) (b : Block), s.cur = some g → s.waveBlock? g.wave = some b →
        exec (.isel f) s = .next ((executing s g b (.isel f) .normal).foldl (fun s t => trapAt s t (illegal (.isel f)))
          (passed s g b (.isel f) .normal)))

/-- R39: `cnwait` waits until every counter is at or below its field; a field of 63 places no condition. -/
def Obligations.CnwaitWaitsForItsCounters : Prop :=
  ∀ (f : SForm) (s p : State) (g : Issue) (b : Block) (t : TRef), IssuesTo (.cnwait f) .normal s g b t p →
    let v := f.imm.toNat + 2 ^ 20 * f.xf.toNat
    let within (n limit : Nat) : Prop := limit = 63 ∨ n ≤ limit
    let x := p.thread t
    let all := within x.ld (v % 64) ∧ within x.st (v / 2 ^ 6 % 64) ∧ within x.cp (v / 2 ^ 12 % 64) ∧
      within x.mx (v / 2 ^ 18 % 64)
    (all → exec (.cnwait f) s = .next (advance p t)) ∧ (¬all → exec (.cnwait f) s = .next (setWait p t .recheck))

/-- R397: `cvstat` reads a register's issue sequence number and signatures, and whether the executing thread has signed
with the declared count; a register that the block does not hold is trap 0x01; nothing else changes. -/
def Obligations.CvstatReadsItsRegister : Prop :=
  ∀ (f : SForm) (s p : State) (g : Issue) (b : Block) (t : TRef), IssuesTo (.cvstat f) .normal s g b t p →
    let n := bits f.imm 3 0
    let v := (b.cvs.find? n).getD noCv
    (b.ncv ≤ n → exec (.cvstat f) s = .next (trapAt p t (illegal (.cvstat f)))) ∧
    (n < b.ncv →
      let signed := if v.signers.any fun e => e.1 == t then 2 ^ 10 else 0
      exec (.cvstat f) s = .next (advance (setVs p t f.dst.num.toNat
        [d (v.seq.toNat * 2 ^ 16 + v.signers.length), d (v.declared + signed)]) t)) ∧
    f.dst.file = .v ∧ f.dst.num.toNat % 2 = 0

/-! ### Traps -/

/-- R33, R34, R248, R263: threads that do not execute an instruction only move past it. One whose fields, guard, type or
mode are refused raises trap 0x01, with its words as values, in each executing thread. An executing thread whose operands
trap (0x04 beyond the wave's range, 0x05 and 0x17 in checked mode) takes that trap, and a first write to a mapped
register asks for its extension block.

The model's own: log entries 56, 57, 140. -/
def Obligations.RefusedOperandsTrap : Prop :=
  ∀ (i : Instr) (who : Who) (s : State) (g : Issue) (b : Block), whoOf i = some who →
    s.cur = some g → s.waveBlock? g.wave = some b →
    (executing s g b i who = [] → exec i s = .next (passed s g b i who)) ∧
    (Rejects i who s g b → exec i s =
      .next ((executing s g b i who).foldl (fun s t => trapAt s t (illegal i)) (passed s g b i who))) ∧
    (∀ t, executing s g b i who = [t] → i.wf = true → modeOk b i who = true →
      (∀ x, operandTrap (passed s g b i who) b g i.uses t = some x → exec i s = .next (trapAt (passed s g b i who) t x)) ∧
      (operandTrap (passed s g b i who) b g i.uses t = none → ∀ n, implicitNeed (passed s g b i who) t i.uses = n →
        0 < n → exec i s = .next (requestExt (passed s g b i who) [t] n true)))

/-- R266: a trap writes tepc, tcause with the bits DEF and SEC, tval and tval2. With a handler whose slot is a target of a
line that passes its check, SE takes E, E is 1, the thread is in its handler and stands at tvec: that is the whole next
state. In a handler, with tvec 0, or with a failing check at tvec, the thread halts and its record names both causes.

The model's own: log entries 12, 87, 142. -/
def Obligations.TrapEntry : Prop :=
  ∀ (s : State) (t : TRef) (x : Trap) (epc : BitVec 64), s.alive t = true →
    let th := s.thread t
    let cause : Word := BitVec.zeroExtend 32 x.code ||| (if x.defer then 0x100 else 0) ||| (if inSecond s t then 0x200 else 0)
    let s1 := (leaveBowait s t).modThread t fun y => { y with tepc := epc, tcause := cause, tval := x.tval, tval2 := x.tval2
                                                              wait := Option.none, heldRun := Option.none, together := 0 }
    let halts (r : State) (second : BitVec 8) : Prop := enterTrap s t x epc = haltThread r t (some (trapRecord r t second x.extra))
    (∀ first, th.handler = some first → halts s1 first) ∧
    (th.handler = none →
      (th.tvec = 0 → halts s1 0) ∧
      (th.tvec ≠ 0 → bits th.tvec 63 57 ≠ 0 → halts s1 0x0B) ∧
      (th.tvec ≠ 0 → bits th.tvec 63 57 = 0 → slotOffset th.tvec = false → halts s1 0x03) ∧
      (th.tvec ≠ 0 → bits th.tvec 63 57 = 0 → slotOffset th.tvec = true →
        (∀ s2 c, fetchLine s1 t (th.tvec.toNat / 64 * 64) = (s2, .ok (.ok c)) →
          (lineTgt c (slotOf th.tvec.toNat) = false → halts s2 0x03) ∧
          (lineTgt c (slotOf th.tvec.toNat) = true → effects s [.trap t x epc] = s2.modThread t fun y =>
            { y with tcause := if y.e then y.tcause ||| 0x80000000 else y.tcause, e := true, handler := some x.code
                     pc := y.tvec, entry := .none })) ∧
        (∀ s2 bad c, fetchLine s1 t (th.tvec.toNat / 64 * 64) = (s2, .ok (.error (bad, c))) →
          halts s2 (if lineTgt c (slotOf th.tvec.toNat) then 0x02 else 0x03))))

/-! ### Encoding -/

/-- The worked encodings of the spec: R279 `nop`, R280 `c3? bra`, R304 `bfx.n32 v4, v7, 8, 12`, R312
`ffma.f32.rup v4, v1, v2, -v3`, R329 `ivmul v4, v0, v2`, R348 `ld.b32.acq.dev v4, [v6+16]`, R368 `bar b2`, R372
`cnwait 2, 63, 63, 63`, R395 `mxmul.s4 mx1, cv2, a8, 4, f3`, R398 `freeze`, R400 `fillend`, R419 `march v1, v8, k4`,
R428 `tret`. -/
def Obligations.WorkedWordsDecode : Prop :=
  let h : Head := ⟨.b32, false, 15⟩
  let v (n : BitVec 8) : Src := ⟨false, false, 0, .none, .v, n⟩
  let k (n : BitVec 8) : Src := ⟨false, false, 0, .none, .k, n⟩
  let dv (n : BitVec 8) : Dst := ⟨0, 0, .v, n⟩
  decodeTableWord 96 0x000000000003FFFFFFFC0301 = some (.bra ⟨⟨.b32, false, 3⟩, 0xFFFFFFFE, 1, 0, false, 0, .zero⟩) ∧
  decodeTableWord 96 0x00000000B080000700084F28 = some (.bfx ⟨⟨.n32, false, 15⟩, dv 4, v 7, 0x00000B08, 0⟩) ∧
  decodeTableWord 96 0x440003000020000100086F33 =
    some (.ffma ⟨⟨.f32, false, 15⟩, dv 4, v 1, v 2, ⟨false, true, 0, .none, .v, 3⟩, 4⟩) ∧
  decodeTableWord 96 0x000000000020000000086F52 = some (.ivmul ⟨⟨.f32, false, 15⟩, dv 4, v 0, v 2, .zero, 0⟩) ∧
  decodeTableWord 96 0x000450000100000600080F70 = some (.ld ⟨h, dv 4, v 6, 16, .default, .acq, .device, .one, 0⟩) ∧
  decodeTableWord 96 0x000000000020000000000F90 = some (.bar ⟨h, .zero, .zero, 2, 0⟩) ∧
  decodeTableWord 96 0xFFFFC2000000000000000F98 = some (.cnwait ⟨h, .zero, .zero, .zero, 0xFFFC2, 15⟩) ∧
  decodeTableWord 96 0x000000000016401810220FB2 = some (.mxmul ⟨h, true, 8, 4, 3, 0, 2, 3, true, false, 0, 0, 0, 0⟩) ∧
  decodeTableWord 96 0x000000000000000000000FE0 = some (.freeze ⟨h, .zero, .zero, .zero, .zero, 0⟩) ∧
  decodeTableWord 96 0x000000000000000000000FE2 = some (.fillend ⟨h, .zero, .zero, .zero, .zero, 0⟩) ∧
  decodeTableWord 96 0x000000001040000800020FD0 = some (.march ⟨h, dv 1, v 8, k 4, .zero, 0⟩) ∧
  decodeTableWord 96 0x000000000000000000000FF2 = some (.tret ⟨h, .zero, .zero, .zero, .zero, 0⟩)

/-- R257, R262: no bit of an encoding is dropped: every well-formed instruction of the table, with every operand at every
value its encoding admits, decodes from the words it encodes to. -/
def Obligations.EncodingsDecode : Prop :=
  ∀ (i : Instr) (w : BitVec 96), i.wf = true → encode i = some w → decodeSlot w = .ok i

/-- R257, R262: a word that decodes is the encoding of the instruction it decodes to, so no two words name one
instruction and no reserved bit is ignored; what decodes is well formed. -/
def Obligations.DecodedWordsEncode : Prop :=
  ∀ (w : BitVec 96) (i : Instr), decodeSlot w = .ok i → encode i = some w ∧ i.wf = true

/-! ### Steps -/

/-- R20-R23, R104, R243, R247: when a lane set's group is fetched, a step runs the instruction that its slot decodes to,
and after the first of a pair the second in the threads that still stand there; then no group is issuing. The group is
the wave's choice, or a starved thread's: itself alone, or with the threads it was released with.

The model's own: log entries 6, 7, 8, 108. -/
def Obligations.AStepRunsTheDecodedInstruction : Prop :=
  ∀ (s p : State) (ls : Nat) (g g1 : Issue) (chosen : Bool) (c : BitVec 512) (i : Instr),
    let s0 := { s with cur := Option.none }
    let j := slotOf g.pc.toNat
    s.agenda = [] → s.booted = true → nextLaneSet s0 = some ls →
    ((∃ w, chosen = true ∧ s.forced = none ∧ starvedThread s0 ls = none ∧ chooseWave s0 ls = some w ∧
        g = groupOf s0 (chooseGroup s0 w)) ∨
     (∃ t, chosen = false ∧ s.forced = some t ∧ waveLaneSet t.wave = ls ∧ ready s0 t = true ∧
        g = groupOf s0 (starvedGroup s0 t))) →
    LineFetched s0 g chosen p g1 c → decodeSlot (slotBits c j) = .ok i →
    (linePair c j = false → Machine.step s = andThen (exec i { parted p g1 with cur := some g1 }) fun r => .next (tidy r)) ∧
    (∀ i2, linePair c j = true → decodeSlot (slotBits c (j + 1)) = .ok i2 →
      Machine.step s = andThen (exec i { parted p g1 with cur := some g1 }) fun r =>
        andThen (exec i2 { r with cur := some (stillAt r { g1 with pc := nextPc g.pc, second := true }) }) fun r =>
          .next (tidy r))

/-- R506 and the model's own convention: after every step no group is issuing, and an access to a failed peer is held only
for a thread that waits for that hold.

The model's own: log entry 6. -/
def Obligations.HoldsBelongToWaitingThreads : Prop :=
  ∀ s t : State, Steps s t →
    t.cur = none ∧ ∀ h ∈ t.peerHolds, (t.thread h.t).wait = some (.peer h.tick)

/-- R18, R231, R265, R459, R478, R530: the reset values the spec states, for every partition and every thread at its
start; memory is in canonical form, and no group is issuing.

The model's own: log entries 5, 107. -/
def Obligations.ResetState : Prop :=
  (∀ p, p < 8 →
    let x := State.reset.part p
    x.svch = false ∧ x.mode = 1 ∧ x.gslot = 0 ∧ x.gcore = 8 ∧ x.brbase = 0 ∧ x.brhead = 0 ∧ x.brtail = 0 ∧ x.resexp = 100 ∧
    x.evbase = 0 ∧ x.evtail = 0 ∧ x.evhead = 0 ∧ x.qsel = 0 ∧ x.svbase = 0 ∧ x.svtail = 0 ∧ x.svhead = 0 ∧ x.svval = 0 ∧
    x.fqbase = 0 ∧ x.fqtail = 0 ∧ x.fqhead = 0 ∧ x.fqdrop = 0 ∧ x.prhost = false ∧ x.flhost = false ∧ x.pghost = false ∧
    x.pgarg = [0, 0, 0] ∧ x.pgerr = 0 ∧ x.pgbusy = false ∧ x.shways = 512 ∧ x.winways = 0 ∧ x.shbw = 5632 ∧
    x.prmet = false ∧ x.propt = 0 ∧ x.rgsel = 0 ∧ x.rgref = false ∧ (∀ q, (x.queues.get .init q).pcap = 7 ∧
      (x.queues.get .init q).sz = 4 ∧ (x.queues.get .init q).en = false ∧ (x.queues.get .init q).err = false) ∧
    x.trace.tqmask = 0 ∧ x.trace.tbase = 0 ∧ x.trace.sp = 16 ∧ x.trace.smp = false ∧ x.trace.opened = false ∧
    x.trace.tsz = 14 ∧ x.trace.ttail = 0 ∧ x.trace.thead = 0 ∧ x.trace.tdrop = 0 ∧ x.trace.tseq = 0) ∧
  (∀ t : TRef,
    let x := State.reset.thread t
    x.e = true ∧ x.cond = 0 ∧ x.ld = 0 ∧ x.st = 0 ∧ x.cp = 0 ∧ x.mx = 0 ∧ x.tvec = 0 ∧ x.tcause = 0 ∧ x.tepc = 0 ∧
    x.tval = 0 ∧ x.tval2 = 0 ∧ x.tscratch = 0 ∧ x.handler = none ∧ ∀ n, vreg State.reset t n = 0) ∧
  Memory.wf State.reset.mem = true ∧ State.reset.cur = none ∧ State.reset.peerHolds = []

/-! ### Memory -/

/-- R10: a masked write to a physical line leaves its bytes there, every other byte as it was, and memory in its canonical
form; so does a write of scratch bytes, on its own core.

The model's own: log entry 2. -/
def Obligations.MemoryHoldsWhatIsWritten : Prop :=
  (∀ (m : Memory) (pa : Nat) (mask : BitVec 128) (val : BitVec 1024),
    (Memory.wf m = true → Memory.wf (memWriteLine m pa mask val) = true) ∧
    (∀ a, Memory.byte (memWriteLine m pa mask val) a =
      if pa ≤ a ∧ a < pa + 128 ∧ mask.getLsbD (a - pa) = true then BitVec.ofNat 8 (lineGet val (a - pa) 1)
      else Memory.byte m a)) ∧
  (∀ (s : State) (core a : Nat) (bs : List Byte),
    (∀ c, Memory.wf (s.core c).scratch = true → Memory.wf ((scratchWrite s core a bs).core c).scratch = true) ∧
    (∀ c x, Memory.byte ((scratchWrite s core a bs).core c).scratch x =
      if c = core ∧ a ≤ x ∧ x < a + bs.length then bs.getD (x - a) 0 else Memory.byte (s.core c).scratch x) ∧
    (scratchWrite s core a bs).mem = s.mem ∧ (scratchWrite s core a bs).csm = s.csm)

/-- R57, R62, R67, R107: the frame of the stores. A plain scratch store leaves every byte of every core's scratch but
those it stores to, and the waiters word of a byte barrier that it completes, as they were. A plain store of the generic
or the tile-layout path leaves DRAM, the window, all scratch, the bytes of every CSM line, and every other cache and core
as they were. In its cache, lines of other addresses stay or leave; those of the address it stores to stay but for
their retention hint, save its thread's own; and every byte there that it does not store to reads, for every thread, as
before. The only write-backs it adds are those of dirty lines that the cache held.

The model's own: log entries 27, 60. -/
def Obligations.StoresLeaveOtherBytes : Prop :=
  (∀ (f : MForm) (s p r : State) (g : Issue) (b : Block) (t : TRef) (core a owner : Nat),
     IssuesTo (.stl f) .normal s g b t p → isRelease f.ord = false →
     localPlace p b (localAddr p t f) (accSize f) = some (.scratch core a owner) →
     exec (.stl f) s = .next r → (p.thread t).st < 63 → (localAddr p t f).toNat % accSize f = 0 →
     r.mem = s.mem ∧ r.csm = s.csm ∧
     ∀ c x, ¬(c = core ∧ a ≤ x ∧ x < a + accSize f) → ¬waitersWord p owner c x →
       Memory.byte (r.core c).scratch x = Memory.byte (s.core c).scratch x) ∧
  (∀ (f : MForm) (s p s1 s2 s3 r : State) (g : Issue) (b : Block) (t : TRef) (i : Instr) (k : Cache),
     (i, k) ∈ [(Instr.st f, Cache.l1), (Instr.stt f, Cache.tile)] →
     IssuesTo i .normal s g b t p → (p.thread t).st < 63 → isRelease f.ord = false →
     let core := waveCore t.wave
     let ea := genericAddr p t f
     let line := ea.toNat / 128 * 128
     let m := byteMask (ea.toNat % 128) (accSize f)
     let q := threadReq p t 1 true
     bits ea 63 57 = 0 → ea.toNat % accSize f = 0 →
     storeTouch p core k t q line = (s1, .ok ()) →
     cacheWrite s1 ⟨core, k, t, f.ret⟩ q line m (linePut (ea.toNat % 128) (storeVal p t f)) = (s2, .ok ()) →
     raceOn k s2 t true none false line m = (s3, .ok ()) →
     exec i s = .next r →
     r.mem = s.mem ∧ (∀ c, (r.core c).scratch = (s.core c).scratch) ∧
     r.csm.map (fun l => (l.asid, l.agen, l.va, l.val, l.valid, l.dirty)) =
       s.csm.map (fun l => (l.asid, l.agen, l.va, l.val, l.valid, l.dirty)) ∧
     (∀ c k', c ≠ core ∨ k' ≠ k → lines r c k' = lines s c k') ∧
     (∀ l ∈ lines r core k, l.at q.asid q.agen line = false → l ∈ lines s core k) ∧
     (∀ l ∈ lines r core k, l.at q.asid q.agen line = true → l.spec ≠ some t →
       ∃ l0 ∈ lines s core k, l = { l0 with ret := l.ret }) ∧
     (∀ u n, n < 128 → u ≠ t ∨ m.getLsbD n = false →
       coreByte r core k u q.asid q.agen line n = coreByte s core k u q.asid q.agen line n) ∧
     ∃ sent, r.wbs = s.wbs ++ sent ∧
       ∀ w ∈ sent, ∃ v ∈ lines s core k, v.dirty ≠ 0 ∧ w = lineWb core (corePart s core) (cacheTracker k) v)
end

