-- ==== Sys2Proof/Laws/State.lean ====
section
/-! SUPPORT. What each update of the state leaves alone: one lemma a field and an update. -/

namespace Sys2Proof.Machine

/-! ### State.setWave -/

@[simp] theorem State.setWave_agenda (s : State) (w : Nat) (x : Wave) : (s.setWave w x).agenda = s.agenda := rfl
@[simp] theorem State.setWave_cur (s : State) (w : Nat) (x : Wave) : (s.setWave w x).cur = s.cur := rfl
@[simp] theorem State.setWave_forced (s : State) (w : Nat) (x : Wave) : (s.setWave w x).forced = s.forced := rfl
@[simp] theorem State.setWave_turn (s : State) (w : Nat) (x : Wave) : (s.setWave w x).turn = s.turn := rfl
@[simp] theorem State.setWave_free (s : State) (w : Nat) (x : Wave) : (s.setWave w x).free = s.free := rfl
@[simp] theorem State.setWave_seq (s : State) (w : Nat) (x : Wave) : (s.setWave w x).seq = s.seq := rfl
@[simp] theorem State.setWave_nextBlock (s : State) (w : Nat) (x : Wave) : (s.setWave w x).nextBlock = s.nextBlock := rfl
@[simp] theorem State.setWave_nextTpl (s : State) (w : Nat) (x : Wave) : (s.setWave w x).nextTpl = s.nextTpl := rfl
@[simp] theorem State.setWave_nextFault (s : State) (w : Nat) (x : Wave) : (s.setWave w x).nextFault = s.nextFault := rfl
@[simp] theorem State.setWave_nextMsg (s : State) (w : Nat) (x : Wave) : (s.setWave w x).nextMsg = s.nextMsg := rfl
@[simp] theorem State.setWave_cycle (s : State) (w : Nat) (x : Wave) : (s.setWave w x).cycle = s.cycle := rfl
@[simp] theorem State.setWave_tick (s : State) (w : Nat) (x : Wave) : (s.setWave w x).tick = s.tick := rfl
@[simp] theorem State.setWave_tickAcc (s : State) (w : Nat) (x : Wave) : (s.setWave w x).tickAcc = s.tickAcc := rfl
@[simp] theorem State.setWave_clockMHz (s : State) (w : Nat) (x : Wave) : (s.setWave w x).clockMHz = s.clockMHz := rfl
@[simp] theorem State.setWave_powerLimit (s : State) (w : Nat) (x : Wave) : (s.setWave w x).powerLimit = s.powerLimit := rfl
@[simp] theorem State.setWave_draw (s : State) (w : Nat) (x : Wave) : (s.setWave w x).draw = s.draw := rfl
@[simp] theorem State.setWave_ptmSlew (s : State) (w : Nat) (x : Wave) : (s.setWave w x).ptmSlew = s.ptmSlew := rfl
@[simp] theorem State.setWave_ptmCount (s : State) (w : Nat) (x : Wave) : (s.setWave w x).ptmCount = s.ptmCount := rfl
@[simp] theorem State.setWave_linkUp (s : State) (w : Nat) (x : Wave) : (s.setWave w x).linkUp = s.linkUp := rfl
@[simp] theorem State.setWave_booted (s : State) (w : Nat) (x : Wave) : (s.setWave w x).booted = s.booted := rfl
@[simp] theorem State.setWave_bootOk (s : State) (w : Nat) (x : Wave) : (s.setWave w x).bootOk = s.bootOk := rfl
@[simp] theorem State.setWave_variant (s : State) (w : Nat) (x : Wave) : (s.setWave w x).variant = s.variant := rfl
@[simp] theorem State.setWave_enabled (s : State) (w : Nat) (x : Wave) : (s.setWave w x).enabled = s.enabled := rfl
@[simp] theorem State.setWave_quadMap (s : State) (w : Nat) (x : Wave) : (s.setWave w x).quadMap = s.quadMap := rfl
@[simp] theorem State.setWave_remap (s : State) (w : Nat) (x : Wave) : (s.setWave w x).remap = s.remap := rfl
@[simp] theorem State.setWave_failedQuads (s : State) (w : Nat) (x : Wave) : (s.setWave w x).failedQuads = s.failedQuads := rfl
@[simp] theorem State.setWave_failedRouters (s : State) (w : Nat) (x : Wave) : (s.setWave w x).failedRouters = s.failedRouters := rfl
@[simp] theorem State.setWave_blocks (s : State) (w : Nat) (x : Wave) : (s.setWave w x).blocks = s.blocks := rfl
@[simp] theorem State.setWave_launches (s : State) (w : Nat) (x : Wave) : (s.setWave w x).launches = s.launches := rfl
@[simp] theorem State.setWave_templates (s : State) (w : Nat) (x : Wave) : (s.setWave w x).templates = s.templates := rfl
@[simp] theorem State.setWave_parts (s : State) (w : Nat) (x : Wave) : (s.setWave w x).parts = s.parts := rfl
@[simp] theorem State.setWave_reservations (s : State) (w : Nat) (x : Wave) : (s.setWave w x).reservations = s.reservations := rfl
@[simp] theorem State.setWave_backoffs (s : State) (w : Nat) (x : Wave) : (s.setWave w x).backoffs = s.backoffs := rfl
@[simp] theorem State.setWave_images (s : State) (w : Nat) (x : Wave) : (s.setWave w x).images = s.images := rfl
@[simp] theorem State.setWave_fills (s : State) (w : Nat) (x : Wave) : (s.setWave w x).fills = s.fills := rfl
@[simp] theorem State.setWave_cores (s : State) (w : Nat) (x : Wave) : (s.setWave w x).cores = s.cores := rfl
@[simp] theorem State.setWave_raster (s : State) (w : Nat) (x : Wave) : (s.setWave w x).raster = s.raster := rfl
@[simp] theorem State.setWave_csm (s : State) (w : Nat) (x : Wave) : (s.setWave w x).csm = s.csm := rfl
@[simp] theorem State.setWave_raceLines (s : State) (w : Nat) (x : Wave) : (s.setWave w x).raceLines = s.raceLines := rfl
@[simp] theorem State.setWave_mem (s : State) (w : Nat) (x : Wave) : (s.setWave w x).mem = s.mem := rfl
@[simp] theorem State.setWave_tlb (s : State) (w : Nat) (x : Wave) : (s.setWave w x).tlb = s.tlb := rfl
@[simp] theorem State.setWave_asidOwner (s : State) (w : Nat) (x : Wave) : (s.setWave w x).asidOwner = s.asidOwner := rfl
@[simp] theorem State.setWave_pageFaults (s : State) (w : Nat) (x : Wave) : (s.setWave w x).pageFaults = s.pageFaults := rfl
@[simp] theorem State.setWave_loads (s : State) (w : Nat) (x : Wave) : (s.setWave w x).loads = s.loads := rfl
@[simp] theorem State.setWave_stores (s : State) (w : Nat) (x : Wave) : (s.setWave w x).stores = s.stores := rfl
@[simp] theorem State.setWave_wbs (s : State) (w : Nat) (x : Wave) : (s.setWave w x).wbs = s.wbs := rfl
@[simp] theorem State.setWave_retired (s : State) (w : Nat) (x : Wave) : (s.setWave w x).retired = s.retired := rfl
@[simp] theorem State.setWave_closed (s : State) (w : Nat) (x : Wave) : (s.setWave w x).closed = s.closed := rfl
@[simp] theorem State.setWave_bad (s : State) (w : Nat) (x : Wave) : (s.setWave w x).bad = s.bad := rfl
@[simp] theorem State.setWave_atBase (s : State) (w : Nat) (x : Wave) : (s.setWave w x).atBase = s.atBase := rfl
@[simp] theorem State.setWave_ctxs (s : State) (w : Nat) (x : Wave) : (s.setWave w x).ctxs = s.ctxs := rfl
@[simp] theorem State.setWave_failedEngines (s : State) (w : Nat) (x : Wave) : (s.setWave w x).failedEngines = s.failedEngines := rfl
@[simp] theorem State.setWave_beams (s : State) (w : Nat) (x : Wave) : (s.setWave w x).beams = s.beams := rfl
@[simp] theorem State.setWave_messages (s : State) (w : Nat) (x : Wave) : (s.setWave w x).messages = s.messages := rfl
@[simp] theorem State.setWave_peers (s : State) (w : Nat) (x : Wave) : (s.setWave w x).peers = s.peers := rfl
@[simp] theorem State.setWave_failedPorts (s : State) (w : Nat) (x : Wave) : (s.setWave w x).failedPorts = s.failedPorts := rfl
@[simp] theorem State.setWave_peerHolds (s : State) (w : Nat) (x : Wave) : (s.setWave w x).peerHolds = s.peerHolds := rfl
@[simp] theorem State.setWave_measure (s : State) (w : Nat) (x : Wave) : (s.setWave w x).measure = s.measure := rfl
@[simp] theorem State.setWave_mailbox (s : State) (w : Nat) (x : Wave) : (s.setWave w x).mailbox = s.mailbox := rfl
@[simp] theorem State.setWave_missed (s : State) (w : Nat) (x : Wave) : (s.setWave w x).missed = s.missed := rfl
@[simp] theorem State.setWave_sextantOf (s : State) (w : Nat) (x : Wave) : (s.setWave w x).sextantOf = s.sextantOf := rfl
@[simp] theorem State.setWave_spareUsed (s : State) (w : Nat) (x : Wave) : (s.setWave w x).spareUsed = s.spareUsed := rfl
@[simp] theorem State.setWave_health (s : State) (w : Nat) (x : Wave) : (s.setWave w x).health = s.health := rfl
@[simp] theorem State.setWave_resent (s : State) (w : Nat) (x : Wave) : (s.setWave w x).resent = s.resent := rfl

/-! ### State.modWave -/

@[simp] theorem State.modWave_agenda (s : State) (w : Nat) (f : Wave → Wave) : (s.modWave w f).agenda = s.agenda := rfl
@[simp] theorem State.modWave_cur (s : State) (w : Nat) (f : Wave → Wave) : (s.modWave w f).cur = s.cur := rfl
@[simp] theorem State.modWave_forced (s : State) (w : Nat) (f : Wave → Wave) : (s.modWave w f).forced = s.forced := rfl
@[simp] theorem State.modWave_turn (s : State) (w : Nat) (f : Wave → Wave) : (s.modWave w f).turn = s.turn := rfl
@[simp] theorem State.modWave_free (s : State) (w : Nat) (f : Wave → Wave) : (s.modWave w f).free = s.free := rfl
@[simp] theorem State.modWave_seq (s : State) (w : Nat) (f : Wave → Wave) : (s.modWave w f).seq = s.seq := rfl
@[simp] theorem State.modWave_nextBlock (s : State) (w : Nat) (f : Wave → Wave) : (s.modWave w f).nextBlock = s.nextBlock := rfl
@[simp] theorem State.modWave_nextTpl (s : State) (w : Nat) (f : Wave → Wave) : (s.modWave w f).nextTpl = s.nextTpl := rfl
@[simp] theorem State.modWave_nextFault (s : State) (w : Nat) (f : Wave → Wave) : (s.modWave w f).nextFault = s.nextFault := rfl
@[simp] theorem State.modWave_nextMsg (s : State) (w : Nat) (f : Wave → Wave) : (s.modWave w f).nextMsg = s.nextMsg := rfl
@[simp] theorem State.modWave_cycle (s : State) (w : Nat) (f : Wave → Wave) : (s.modWave w f).cycle = s.cycle := rfl
@[simp] theorem State.modWave_tick (s : State) (w : Nat) (f : Wave → Wave) : (s.modWave w f).tick = s.tick := rfl
@[simp] theorem State.modWave_tickAcc (s : State) (w : Nat) (f : Wave → Wave) : (s.modWave w f).tickAcc = s.tickAcc := rfl
@[simp] theorem State.modWave_clockMHz (s : State) (w : Nat) (f : Wave → Wave) : (s.modWave w f).clockMHz = s.clockMHz := rfl
@[simp] theorem State.modWave_powerLimit (s : State) (w : Nat) (f : Wave → Wave) : (s.modWave w f).powerLimit = s.powerLimit := rfl
@[simp] theorem State.modWave_draw (s : State) (w : Nat) (f : Wave → Wave) : (s.modWave w f).draw = s.draw := rfl
@[simp] theorem State.modWave_ptmSlew (s : State) (w : Nat) (f : Wave → Wave) : (s.modWave w f).ptmSlew = s.ptmSlew := rfl
@[simp] theorem State.modWave_ptmCount (s : State) (w : Nat) (f : Wave → Wave) : (s.modWave w f).ptmCount = s.ptmCount := rfl
@[simp] theorem State.modWave_linkUp (s : State) (w : Nat) (f : Wave → Wave) : (s.modWave w f).linkUp = s.linkUp := rfl
@[simp] theorem State.modWave_booted (s : State) (w : Nat) (f : Wave → Wave) : (s.modWave w f).booted = s.booted := rfl
@[simp] theorem State.modWave_bootOk (s : State) (w : Nat) (f : Wave → Wave) : (s.modWave w f).bootOk = s.bootOk := rfl
@[simp] theorem State.modWave_variant (s : State) (w : Nat) (f : Wave → Wave) : (s.modWave w f).variant = s.variant := rfl
@[simp] theorem State.modWave_enabled (s : State) (w : Nat) (f : Wave → Wave) : (s.modWave w f).enabled = s.enabled := rfl
@[simp] theorem State.modWave_quadMap (s : State) (w : Nat) (f : Wave → Wave) : (s.modWave w f).quadMap = s.quadMap := rfl
@[simp] theorem State.modWave_remap (s : State) (w : Nat) (f : Wave → Wave) : (s.modWave w f).remap = s.remap := rfl
@[simp] theorem State.modWave_failedQuads (s : State) (w : Nat) (f : Wave → Wave) : (s.modWave w f).failedQuads = s.failedQuads := rfl
@[simp] theorem State.modWave_failedRouters (s : State) (w : Nat) (f : Wave → Wave) : (s.modWave w f).failedRouters = s.failedRouters := rfl
@[simp] theorem State.modWave_blocks (s : State) (w : Nat) (f : Wave → Wave) : (s.modWave w f).blocks = s.blocks := rfl
@[simp] theorem State.modWave_launches (s : State) (w : Nat) (f : Wave → Wave) : (s.modWave w f).launches = s.launches := rfl
@[simp] theorem State.modWave_templates (s : State) (w : Nat) (f : Wave → Wave) : (s.modWave w f).templates = s.templates := rfl
@[simp] theorem State.modWave_parts (s : State) (w : Nat) (f : Wave → Wave) : (s.modWave w f).parts = s.parts := rfl
@[simp] theorem State.modWave_reservations (s : State) (w : Nat) (f : Wave → Wave) : (s.modWave w f).reservations = s.reservations := rfl
@[simp] theorem State.modWave_backoffs (s : State) (w : Nat) (f : Wave → Wave) : (s.modWave w f).backoffs = s.backoffs := rfl
@[simp] theorem State.modWave_images (s : State) (w : Nat) (f : Wave → Wave) : (s.modWave w f).images = s.images := rfl
@[simp] theorem State.modWave_fills (s : State) (w : Nat) (f : Wave → Wave) : (s.modWave w f).fills = s.fills := rfl
@[simp] theorem State.modWave_cores (s : State) (w : Nat) (f : Wave → Wave) : (s.modWave w f).cores = s.cores := rfl
@[simp] theorem State.modWave_raster (s : State) (w : Nat) (f : Wave → Wave) : (s.modWave w f).raster = s.raster := rfl
@[simp] theorem State.modWave_csm (s : State) (w : Nat) (f : Wave → Wave) : (s.modWave w f).csm = s.csm := rfl
@[simp] theorem State.modWave_raceLines (s : State) (w : Nat) (f : Wave → Wave) : (s.modWave w f).raceLines = s.raceLines := rfl
@[simp] theorem State.modWave_mem (s : State) (w : Nat) (f : Wave → Wave) : (s.modWave w f).mem = s.mem := rfl
@[simp] theorem State.modWave_tlb (s : State) (w : Nat) (f : Wave → Wave) : (s.modWave w f).tlb = s.tlb := rfl
@[simp] theorem State.modWave_asidOwner (s : State) (w : Nat) (f : Wave → Wave) : (s.modWave w f).asidOwner = s.asidOwner := rfl
@[simp] theorem State.modWave_pageFaults (s : State) (w : Nat) (f : Wave → Wave) : (s.modWave w f).pageFaults = s.pageFaults := rfl
@[simp] theorem State.modWave_loads (s : State) (w : Nat) (f : Wave → Wave) : (s.modWave w f).loads = s.loads := rfl
@[simp] theorem State.modWave_stores (s : State) (w : Nat) (f : Wave → Wave) : (s.modWave w f).stores = s.stores := rfl
@[simp] theorem State.modWave_wbs (s : State) (w : Nat) (f : Wave → Wave) : (s.modWave w f).wbs = s.wbs := rfl
@[simp] theorem State.modWave_retired (s : State) (w : Nat) (f : Wave → Wave) : (s.modWave w f).retired = s.retired := rfl
@[simp] theorem State.modWave_closed (s : State) (w : Nat) (f : Wave → Wave) : (s.modWave w f).closed = s.closed := rfl
@[simp] theorem State.modWave_bad (s : State) (w : Nat) (f : Wave → Wave) : (s.modWave w f).bad = s.bad := rfl
@[simp] theorem State.modWave_atBase (s : State) (w : Nat) (f : Wave → Wave) : (s.modWave w f).atBase = s.atBase := rfl
@[simp] theorem State.modWave_ctxs (s : State) (w : Nat) (f : Wave → Wave) : (s.modWave w f).ctxs = s.ctxs := rfl
@[simp] theorem State.modWave_failedEngines (s : State) (w : Nat) (f : Wave → Wave) : (s.modWave w f).failedEngines = s.failedEngines := rfl
@[simp] theorem State.modWave_beams (s : State) (w : Nat) (f : Wave → Wave) : (s.modWave w f).beams = s.beams := rfl
@[simp] theorem State.modWave_messages (s : State) (w : Nat) (f : Wave → Wave) : (s.modWave w f).messages = s.messages := rfl
@[simp] theorem State.modWave_peers (s : State) (w : Nat) (f : Wave → Wave) : (s.modWave w f).peers = s.peers := rfl
@[simp] theorem State.modWave_failedPorts (s : State) (w : Nat) (f : Wave → Wave) : (s.modWave w f).failedPorts = s.failedPorts := rfl
@[simp] theorem State.modWave_peerHolds (s : State) (w : Nat) (f : Wave → Wave) : (s.modWave w f).peerHolds = s.peerHolds := rfl
@[simp] theorem State.modWave_measure (s : State) (w : Nat) (f : Wave → Wave) : (s.modWave w f).measure = s.measure := rfl
@[simp] theorem State.modWave_mailbox (s : State) (w : Nat) (f : Wave → Wave) : (s.modWave w f).mailbox = s.mailbox := rfl
@[simp] theorem State.modWave_missed (s : State) (w : Nat) (f : Wave → Wave) : (s.modWave w f).missed = s.missed := rfl
@[simp] theorem State.modWave_sextantOf (s : State) (w : Nat) (f : Wave → Wave) : (s.modWave w f).sextantOf = s.sextantOf := rfl
@[simp] theorem State.modWave_spareUsed (s : State) (w : Nat) (f : Wave → Wave) : (s.modWave w f).spareUsed = s.spareUsed := rfl
@[simp] theorem State.modWave_health (s : State) (w : Nat) (f : Wave → Wave) : (s.modWave w f).health = s.health := rfl
@[simp] theorem State.modWave_resent (s : State) (w : Nat) (f : Wave → Wave) : (s.modWave w f).resent = s.resent := rfl

/-! ### State.setThread -/

@[simp] theorem State.setThread_agenda (s : State) (t : TRef) (x : Thread) : (s.setThread t x).agenda = s.agenda := rfl
@[simp] theorem State.setThread_cur (s : State) (t : TRef) (x : Thread) : (s.setThread t x).cur = s.cur := rfl
@[simp] theorem State.setThread_forced (s : State) (t : TRef) (x : Thread) : (s.setThread t x).forced = s.forced := rfl
@[simp] theorem State.setThread_turn (s : State) (t : TRef) (x : Thread) : (s.setThread t x).turn = s.turn := rfl
@[simp] theorem State.setThread_free (s : State) (t : TRef) (x : Thread) : (s.setThread t x).free = s.free := rfl
@[simp] theorem State.setThread_seq (s : State) (t : TRef) (x : Thread) : (s.setThread t x).seq = s.seq := rfl
@[simp] theorem State.setThread_nextBlock (s : State) (t : TRef) (x : Thread) : (s.setThread t x).nextBlock = s.nextBlock := rfl
@[simp] theorem State.setThread_nextTpl (s : State) (t : TRef) (x : Thread) : (s.setThread t x).nextTpl = s.nextTpl := rfl
@[simp] theorem State.setThread_nextFault (s : State) (t : TRef) (x : Thread) : (s.setThread t x).nextFault = s.nextFault := rfl
@[simp] theorem State.setThread_nextMsg (s : State) (t : TRef) (x : Thread) : (s.setThread t x).nextMsg = s.nextMsg := rfl
@[simp] theorem State.setThread_cycle (s : State) (t : TRef) (x : Thread) : (s.setThread t x).cycle = s.cycle := rfl
@[simp] theorem State.setThread_tick (s : State) (t : TRef) (x : Thread) : (s.setThread t x).tick = s.tick := rfl
@[simp] theorem State.setThread_tickAcc (s : State) (t : TRef) (x : Thread) : (s.setThread t x).tickAcc = s.tickAcc := rfl
@[simp] theorem State.setThread_clockMHz (s : State) (t : TRef) (x : Thread) : (s.setThread t x).clockMHz = s.clockMHz := rfl
@[simp] theorem State.setThread_powerLimit (s : State) (t : TRef) (x : Thread) : (s.setThread t x).powerLimit = s.powerLimit := rfl
@[simp] theorem State.setThread_draw (s : State) (t : TRef) (x : Thread) : (s.setThread t x).draw = s.draw := rfl
@[simp] theorem State.setThread_ptmSlew (s : State) (t : TRef) (x : Thread) : (s.setThread t x).ptmSlew = s.ptmSlew := rfl
@[simp] theorem State.setThread_ptmCount (s : State) (t : TRef) (x : Thread) : (s.setThread t x).ptmCount = s.ptmCount := rfl
@[simp] theorem State.setThread_linkUp (s : State) (t : TRef) (x : Thread) : (s.setThread t x).linkUp = s.linkUp := rfl
@[simp] theorem State.setThread_booted (s : State) (t : TRef) (x : Thread) : (s.setThread t x).booted = s.booted := rfl
@[simp] theorem State.setThread_bootOk (s : State) (t : TRef) (x : Thread) : (s.setThread t x).bootOk = s.bootOk := rfl
@[simp] theorem State.setThread_variant (s : State) (t : TRef) (x : Thread) : (s.setThread t x).variant = s.variant := rfl
@[simp] theorem State.setThread_enabled (s : State) (t : TRef) (x : Thread) : (s.setThread t x).enabled = s.enabled := rfl
@[simp] theorem State.setThread_quadMap (s : State) (t : TRef) (x : Thread) : (s.setThread t x).quadMap = s.quadMap := rfl
@[simp] theorem State.setThread_remap (s : State) (t : TRef) (x : Thread) : (s.setThread t x).remap = s.remap := rfl
@[simp] theorem State.setThread_failedQuads (s : State) (t : TRef) (x : Thread) : (s.setThread t x).failedQuads = s.failedQuads := rfl
@[simp] theorem State.setThread_failedRouters (s : State) (t : TRef) (x : Thread) : (s.setThread t x).failedRouters = s.failedRouters := rfl
@[simp] theorem State.setThread_blocks (s : State) (t : TRef) (x : Thread) : (s.setThread t x).blocks = s.blocks := rfl
@[simp] theorem State.setThread_launches (s : State) (t : TRef) (x : Thread) : (s.setThread t x).launches = s.launches := rfl
@[simp] theorem State.setThread_templates (s : State) (t : TRef) (x : Thread) : (s.setThread t x).templates = s.templates := rfl
@[simp] theorem State.setThread_parts (s : State) (t : TRef) (x : Thread) : (s.setThread t x).parts = s.parts := rfl
@[simp] theorem State.setThread_reservations (s : State) (t : TRef) (x : Thread) : (s.setThread t x).reservations = s.reservations := rfl
@[simp] theorem State.setThread_backoffs (s : State) (t : TRef) (x : Thread) : (s.setThread t x).backoffs = s.backoffs := rfl
@[simp] theorem State.setThread_images (s : State) (t : TRef) (x : Thread) : (s.setThread t x).images = s.images := rfl
@[simp] theorem State.setThread_fills (s : State) (t : TRef) (x : Thread) : (s.setThread t x).fills = s.fills := rfl
@[simp] theorem State.setThread_cores (s : State) (t : TRef) (x : Thread) : (s.setThread t x).cores = s.cores := rfl
@[simp] theorem State.setThread_raster (s : State) (t : TRef) (x : Thread) : (s.setThread t x).raster = s.raster := rfl
@[simp] theorem State.setThread_csm (s : State) (t : TRef) (x : Thread) : (s.setThread t x).csm = s.csm := rfl
@[simp] theorem State.setThread_raceLines (s : State) (t : TRef) (x : Thread) : (s.setThread t x).raceLines = s.raceLines := rfl
@[simp] theorem State.setThread_mem (s : State) (t : TRef) (x : Thread) : (s.setThread t x).mem = s.mem := rfl
@[simp] theorem State.setThread_tlb (s : State) (t : TRef) (x : Thread) : (s.setThread t x).tlb = s.tlb := rfl
@[simp] theorem State.setThread_asidOwner (s : State) (t : TRef) (x : Thread) : (s.setThread t x).asidOwner = s.asidOwner := rfl
@[simp] theorem State.setThread_pageFaults (s : State) (t : TRef) (x : Thread) : (s.setThread t x).pageFaults = s.pageFaults := rfl
@[simp] theorem State.setThread_loads (s : State) (t : TRef) (x : Thread) : (s.setThread t x).loads = s.loads := rfl
@[simp] theorem State.setThread_stores (s : State) (t : TRef) (x : Thread) : (s.setThread t x).stores = s.stores := rfl
@[simp] theorem State.setThread_wbs (s : State) (t : TRef) (x : Thread) : (s.setThread t x).wbs = s.wbs := rfl
@[simp] theorem State.setThread_retired (s : State) (t : TRef) (x : Thread) : (s.setThread t x).retired = s.retired := rfl
@[simp] theorem State.setThread_closed (s : State) (t : TRef) (x : Thread) : (s.setThread t x).closed = s.closed := rfl
@[simp] theorem State.setThread_bad (s : State) (t : TRef) (x : Thread) : (s.setThread t x).bad = s.bad := rfl
@[simp] theorem State.setThread_atBase (s : State) (t : TRef) (x : Thread) : (s.setThread t x).atBase = s.atBase := rfl
@[simp] theorem State.setThread_ctxs (s : State) (t : TRef) (x : Thread) : (s.setThread t x).ctxs = s.ctxs := rfl
@[simp] theorem State.setThread_failedEngines (s : State) (t : TRef) (x : Thread) : (s.setThread t x).failedEngines = s.failedEngines := rfl
@[simp] theorem State.setThread_beams (s : State) (t : TRef) (x : Thread) : (s.setThread t x).beams = s.beams := rfl
@[simp] theorem State.setThread_messages (s : State) (t : TRef) (x : Thread) : (s.setThread t x).messages = s.messages := rfl
@[simp] theorem State.setThread_peers (s : State) (t : TRef) (x : Thread) : (s.setThread t x).peers = s.peers := rfl
@[simp] theorem State.setThread_failedPorts (s : State) (t : TRef) (x : Thread) : (s.setThread t x).failedPorts = s.failedPorts := rfl
@[simp] theorem State.setThread_peerHolds (s : State) (t : TRef) (x : Thread) : (s.setThread t x).peerHolds = s.peerHolds := rfl
@[simp] theorem State.setThread_measure (s : State) (t : TRef) (x : Thread) : (s.setThread t x).measure = s.measure := rfl
@[simp] theorem State.setThread_mailbox (s : State) (t : TRef) (x : Thread) : (s.setThread t x).mailbox = s.mailbox := rfl
@[simp] theorem State.setThread_missed (s : State) (t : TRef) (x : Thread) : (s.setThread t x).missed = s.missed := rfl
@[simp] theorem State.setThread_sextantOf (s : State) (t : TRef) (x : Thread) : (s.setThread t x).sextantOf = s.sextantOf := rfl
@[simp] theorem State.setThread_spareUsed (s : State) (t : TRef) (x : Thread) : (s.setThread t x).spareUsed = s.spareUsed := rfl
@[simp] theorem State.setThread_health (s : State) (t : TRef) (x : Thread) : (s.setThread t x).health = s.health := rfl
@[simp] theorem State.setThread_resent (s : State) (t : TRef) (x : Thread) : (s.setThread t x).resent = s.resent := rfl

/-! ### State.modThread -/

@[simp] theorem State.modThread_agenda (s : State) (t : TRef) (f : Thread → Thread) : (s.modThread t f).agenda = s.agenda := rfl
@[simp] theorem State.modThread_cur (s : State) (t : TRef) (f : Thread → Thread) : (s.modThread t f).cur = s.cur := rfl
@[simp] theorem State.modThread_forced (s : State) (t : TRef) (f : Thread → Thread) : (s.modThread t f).forced = s.forced := rfl
@[simp] theorem State.modThread_turn (s : State) (t : TRef) (f : Thread → Thread) : (s.modThread t f).turn = s.turn := rfl
@[simp] theorem State.modThread_free (s : State) (t : TRef) (f : Thread → Thread) : (s.modThread t f).free = s.free := rfl
@[simp] theorem State.modThread_seq (s : State) (t : TRef) (f : Thread → Thread) : (s.modThread t f).seq = s.seq := rfl
@[simp] theorem State.modThread_nextBlock (s : State) (t : TRef) (f : Thread → Thread) : (s.modThread t f).nextBlock = s.nextBlock := rfl
@[simp] theorem State.modThread_nextTpl (s : State) (t : TRef) (f : Thread → Thread) : (s.modThread t f).nextTpl = s.nextTpl := rfl
@[simp] theorem State.modThread_nextFault (s : State) (t : TRef) (f : Thread → Thread) : (s.modThread t f).nextFault = s.nextFault := rfl
@[simp] theorem State.modThread_nextMsg (s : State) (t : TRef) (f : Thread → Thread) : (s.modThread t f).nextMsg = s.nextMsg := rfl
@[simp] theorem State.modThread_cycle (s : State) (t : TRef) (f : Thread → Thread) : (s.modThread t f).cycle = s.cycle := rfl
@[simp] theorem State.modThread_tick (s : State) (t : TRef) (f : Thread → Thread) : (s.modThread t f).tick = s.tick := rfl
@[simp] theorem State.modThread_tickAcc (s : State) (t : TRef) (f : Thread → Thread) : (s.modThread t f).tickAcc = s.tickAcc := rfl
@[simp] theorem State.modThread_clockMHz (s : State) (t : TRef) (f : Thread → Thread) : (s.modThread t f).clockMHz = s.clockMHz := rfl
@[simp] theorem State.modThread_powerLimit (s : State) (t : TRef) (f : Thread → Thread) : (s.modThread t f).powerLimit = s.powerLimit := rfl
@[simp] theorem State.modThread_draw (s : State) (t : TRef) (f : Thread → Thread) : (s.modThread t f).draw = s.draw := rfl
@[simp] theorem State.modThread_ptmSlew (s : State) (t : TRef) (f : Thread → Thread) : (s.modThread t f).ptmSlew = s.ptmSlew := rfl
@[simp] theorem State.modThread_ptmCount (s : State) (t : TRef) (f : Thread → Thread) : (s.modThread t f).ptmCount = s.ptmCount := rfl
@[simp] theorem State.modThread_linkUp (s : State) (t : TRef) (f : Thread → Thread) : (s.modThread t f).linkUp = s.linkUp := rfl
@[simp] theorem State.modThread_booted (s : State) (t : TRef) (f : Thread → Thread) : (s.modThread t f).booted = s.booted := rfl
@[simp] theorem State.modThread_bootOk (s : State) (t : TRef) (f : Thread → Thread) : (s.modThread t f).bootOk = s.bootOk := rfl
@[simp] theorem State.modThread_variant (s : State) (t : TRef) (f : Thread → Thread) : (s.modThread t f).variant = s.variant := rfl
@[simp] theorem State.modThread_enabled (s : State) (t : TRef) (f : Thread → Thread) : (s.modThread t f).enabled = s.enabled := rfl
@[simp] theorem State.modThread_quadMap (s : State) (t : TRef) (f : Thread → Thread) : (s.modThread t f).quadMap = s.quadMap := rfl
@[simp] theorem State.modThread_remap (s : State) (t : TRef) (f : Thread → Thread) : (s.modThread t f).remap = s.remap := rfl
@[simp] theorem State.modThread_failedQuads (s : State) (t : TRef) (f : Thread → Thread) : (s.modThread t f).failedQuads = s.failedQuads := rfl
@[simp] theorem State.modThread_failedRouters (s : State) (t : TRef) (f : Thread → Thread) : (s.modThread t f).failedRouters = s.failedRouters := rfl
@[simp] theorem State.modThread_blocks (s : State) (t : TRef) (f : Thread → Thread) : (s.modThread t f).blocks = s.blocks := rfl
@[simp] theorem State.modThread_launches (s : State) (t : TRef) (f : Thread → Thread) : (s.modThread t f).launches = s.launches := rfl
@[simp] theorem State.modThread_templates (s : State) (t : TRef) (f : Thread → Thread) : (s.modThread t f).templates = s.templates := rfl
@[simp] theorem State.modThread_parts (s : State) (t : TRef) (f : Thread → Thread) : (s.modThread t f).parts = s.parts := rfl
@[simp] theorem State.modThread_reservations (s : State) (t : TRef) (f : Thread → Thread) : (s.modThread t f).reservations = s.reservations := rfl
@[simp] theorem State.modThread_backoffs (s : State) (t : TRef) (f : Thread → Thread) : (s.modThread t f).backoffs = s.backoffs := rfl
@[simp] theorem State.modThread_images (s : State) (t : TRef) (f : Thread → Thread) : (s.modThread t f).images = s.images := rfl
@[simp] theorem State.modThread_fills (s : State) (t : TRef) (f : Thread → Thread) : (s.modThread t f).fills = s.fills := rfl
@[simp] theorem State.modThread_cores (s : State) (t : TRef) (f : Thread → Thread) : (s.modThread t f).cores = s.cores := rfl
@[simp] theorem State.modThread_raster (s : State) (t : TRef) (f : Thread → Thread) : (s.modThread t f).raster = s.raster := rfl
@[simp] theorem State.modThread_csm (s : State) (t : TRef) (f : Thread → Thread) : (s.modThread t f).csm = s.csm := rfl
@[simp] theorem State.modThread_raceLines (s : State) (t : TRef) (f : Thread → Thread) : (s.modThread t f).raceLines = s.raceLines := rfl
@[simp] theorem State.modThread_mem (s : State) (t : TRef) (f : Thread → Thread) : (s.modThread t f).mem = s.mem := rfl
@[simp] theorem State.modThread_tlb (s : State) (t : TRef) (f : Thread → Thread) : (s.modThread t f).tlb = s.tlb := rfl
@[simp] theorem State.modThread_asidOwner (s : State) (t : TRef) (f : Thread → Thread) : (s.modThread t f).asidOwner = s.asidOwner := rfl
@[simp] theorem State.modThread_pageFaults (s : State) (t : TRef) (f : Thread → Thread) : (s.modThread t f).pageFaults = s.pageFaults := rfl
@[simp] theorem State.modThread_loads (s : State) (t : TRef) (f : Thread → Thread) : (s.modThread t f).loads = s.loads := rfl
@[simp] theorem State.modThread_stores (s : State) (t : TRef) (f : Thread → Thread) : (s.modThread t f).stores = s.stores := rfl
@[simp] theorem State.modThread_wbs (s : State) (t : TRef) (f : Thread → Thread) : (s.modThread t f).wbs = s.wbs := rfl
@[simp] theorem State.modThread_retired (s : State) (t : TRef) (f : Thread → Thread) : (s.modThread t f).retired = s.retired := rfl
@[simp] theorem State.modThread_closed (s : State) (t : TRef) (f : Thread → Thread) : (s.modThread t f).closed = s.closed := rfl
@[simp] theorem State.modThread_bad (s : State) (t : TRef) (f : Thread → Thread) : (s.modThread t f).bad = s.bad := rfl
@[simp] theorem State.modThread_atBase (s : State) (t : TRef) (f : Thread → Thread) : (s.modThread t f).atBase = s.atBase := rfl
@[simp] theorem State.modThread_ctxs (s : State) (t : TRef) (f : Thread → Thread) : (s.modThread t f).ctxs = s.ctxs := rfl
@[simp] theorem State.modThread_failedEngines (s : State) (t : TRef) (f : Thread → Thread) : (s.modThread t f).failedEngines = s.failedEngines := rfl
@[simp] theorem State.modThread_beams (s : State) (t : TRef) (f : Thread → Thread) : (s.modThread t f).beams = s.beams := rfl
@[simp] theorem State.modThread_messages (s : State) (t : TRef) (f : Thread → Thread) : (s.modThread t f).messages = s.messages := rfl
@[simp] theorem State.modThread_peers (s : State) (t : TRef) (f : Thread → Thread) : (s.modThread t f).peers = s.peers := rfl
@[simp] theorem State.modThread_failedPorts (s : State) (t : TRef) (f : Thread → Thread) : (s.modThread t f).failedPorts = s.failedPorts := rfl
@[simp] theorem State.modThread_peerHolds (s : State) (t : TRef) (f : Thread → Thread) : (s.modThread t f).peerHolds = s.peerHolds := rfl
@[simp] theorem State.modThread_measure (s : State) (t : TRef) (f : Thread → Thread) : (s.modThread t f).measure = s.measure := rfl
@[simp] theorem State.modThread_mailbox (s : State) (t : TRef) (f : Thread → Thread) : (s.modThread t f).mailbox = s.mailbox := rfl
@[simp] theorem State.modThread_missed (s : State) (t : TRef) (f : Thread → Thread) : (s.modThread t f).missed = s.missed := rfl
@[simp] theorem State.modThread_sextantOf (s : State) (t : TRef) (f : Thread → Thread) : (s.modThread t f).sextantOf = s.sextantOf := rfl
@[simp] theorem State.modThread_spareUsed (s : State) (t : TRef) (f : Thread → Thread) : (s.modThread t f).spareUsed = s.spareUsed := rfl
@[simp] theorem State.modThread_health (s : State) (t : TRef) (f : Thread → Thread) : (s.modThread t f).health = s.health := rfl
@[simp] theorem State.modThread_resent (s : State) (t : TRef) (f : Thread → Thread) : (s.modThread t f).resent = s.resent := rfl

/-! ### State.modBlock -/

@[simp] theorem State.modBlock_agenda (s : State) (b : Nat) (f : Block → Block) : (s.modBlock b f).agenda = s.agenda := rfl
@[simp] theorem State.modBlock_cur (s : State) (b : Nat) (f : Block → Block) : (s.modBlock b f).cur = s.cur := rfl
@[simp] theorem State.modBlock_forced (s : State) (b : Nat) (f : Block → Block) : (s.modBlock b f).forced = s.forced := rfl
@[simp] theorem State.modBlock_turn (s : State) (b : Nat) (f : Block → Block) : (s.modBlock b f).turn = s.turn := rfl
@[simp] theorem State.modBlock_free (s : State) (b : Nat) (f : Block → Block) : (s.modBlock b f).free = s.free := rfl
@[simp] theorem State.modBlock_seq (s : State) (b : Nat) (f : Block → Block) : (s.modBlock b f).seq = s.seq := rfl
@[simp] theorem State.modBlock_nextBlock (s : State) (b : Nat) (f : Block → Block) : (s.modBlock b f).nextBlock = s.nextBlock := rfl
@[simp] theorem State.modBlock_nextTpl (s : State) (b : Nat) (f : Block → Block) : (s.modBlock b f).nextTpl = s.nextTpl := rfl
@[simp] theorem State.modBlock_nextFault (s : State) (b : Nat) (f : Block → Block) : (s.modBlock b f).nextFault = s.nextFault := rfl
@[simp] theorem State.modBlock_nextMsg (s : State) (b : Nat) (f : Block → Block) : (s.modBlock b f).nextMsg = s.nextMsg := rfl
@[simp] theorem State.modBlock_cycle (s : State) (b : Nat) (f : Block → Block) : (s.modBlock b f).cycle = s.cycle := rfl
@[simp] theorem State.modBlock_tick (s : State) (b : Nat) (f : Block → Block) : (s.modBlock b f).tick = s.tick := rfl
@[simp] theorem State.modBlock_tickAcc (s : State) (b : Nat) (f : Block → Block) : (s.modBlock b f).tickAcc = s.tickAcc := rfl
@[simp] theorem State.modBlock_clockMHz (s : State) (b : Nat) (f : Block → Block) : (s.modBlock b f).clockMHz = s.clockMHz := rfl
@[simp] theorem State.modBlock_powerLimit (s : State) (b : Nat) (f : Block → Block) : (s.modBlock b f).powerLimit = s.powerLimit := rfl
@[simp] theorem State.modBlock_draw (s : State) (b : Nat) (f : Block → Block) : (s.modBlock b f).draw = s.draw := rfl
@[simp] theorem State.modBlock_ptmSlew (s : State) (b : Nat) (f : Block → Block) : (s.modBlock b f).ptmSlew = s.ptmSlew := rfl
@[simp] theorem State.modBlock_ptmCount (s : State) (b : Nat) (f : Block → Block) : (s.modBlock b f).ptmCount = s.ptmCount := rfl
@[simp] theorem State.modBlock_linkUp (s : State) (b : Nat) (f : Block → Block) : (s.modBlock b f).linkUp = s.linkUp := rfl
@[simp] theorem State.modBlock_booted (s : State) (b : Nat) (f : Block → Block) : (s.modBlock b f).booted = s.booted := rfl
@[simp] theorem State.modBlock_bootOk (s : State) (b : Nat) (f : Block → Block) : (s.modBlock b f).bootOk = s.bootOk := rfl
@[simp] theorem State.modBlock_variant (s : State) (b : Nat) (f : Block → Block) : (s.modBlock b f).variant = s.variant := rfl
@[simp] theorem State.modBlock_enabled (s : State) (b : Nat) (f : Block → Block) : (s.modBlock b f).enabled = s.enabled := rfl
@[simp] theorem State.modBlock_quadMap (s : State) (b : Nat) (f : Block → Block) : (s.modBlock b f).quadMap = s.quadMap := rfl
@[simp] theorem State.modBlock_remap (s : State) (b : Nat) (f : Block → Block) : (s.modBlock b f).remap = s.remap := rfl
@[simp] theorem State.modBlock_failedQuads (s : State) (b : Nat) (f : Block → Block) : (s.modBlock b f).failedQuads = s.failedQuads := rfl
@[simp] theorem State.modBlock_failedRouters (s : State) (b : Nat) (f : Block → Block) : (s.modBlock b f).failedRouters = s.failedRouters := rfl
@[simp] theorem State.modBlock_waves (s : State) (b : Nat) (f : Block → Block) : (s.modBlock b f).waves = s.waves := rfl
@[simp] theorem State.modBlock_launches (s : State) (b : Nat) (f : Block → Block) : (s.modBlock b f).launches = s.launches := rfl
@[simp] theorem State.modBlock_templates (s : State) (b : Nat) (f : Block → Block) : (s.modBlock b f).templates = s.templates := rfl
@[simp] theorem State.modBlock_parts (s : State) (b : Nat) (f : Block → Block) : (s.modBlock b f).parts = s.parts := rfl
@[simp] theorem State.modBlock_reservations (s : State) (b : Nat) (f : Block → Block) : (s.modBlock b f).reservations = s.reservations := rfl
@[simp] theorem State.modBlock_backoffs (s : State) (b : Nat) (f : Block → Block) : (s.modBlock b f).backoffs = s.backoffs := rfl
@[simp] theorem State.modBlock_images (s : State) (b : Nat) (f : Block → Block) : (s.modBlock b f).images = s.images := rfl
@[simp] theorem State.modBlock_fills (s : State) (b : Nat) (f : Block → Block) : (s.modBlock b f).fills = s.fills := rfl
@[simp] theorem State.modBlock_cores (s : State) (b : Nat) (f : Block → Block) : (s.modBlock b f).cores = s.cores := rfl
@[simp] theorem State.modBlock_raster (s : State) (b : Nat) (f : Block → Block) : (s.modBlock b f).raster = s.raster := rfl
@[simp] theorem State.modBlock_csm (s : State) (b : Nat) (f : Block → Block) : (s.modBlock b f).csm = s.csm := rfl
@[simp] theorem State.modBlock_raceLines (s : State) (b : Nat) (f : Block → Block) : (s.modBlock b f).raceLines = s.raceLines := rfl
@[simp] theorem State.modBlock_mem (s : State) (b : Nat) (f : Block → Block) : (s.modBlock b f).mem = s.mem := rfl
@[simp] theorem State.modBlock_tlb (s : State) (b : Nat) (f : Block → Block) : (s.modBlock b f).tlb = s.tlb := rfl
@[simp] theorem State.modBlock_asidOwner (s : State) (b : Nat) (f : Block → Block) : (s.modBlock b f).asidOwner = s.asidOwner := rfl
@[simp] theorem State.modBlock_pageFaults (s : State) (b : Nat) (f : Block → Block) : (s.modBlock b f).pageFaults = s.pageFaults := rfl
@[simp] theorem State.modBlock_loads (s : State) (b : Nat) (f : Block → Block) : (s.modBlock b f).loads = s.loads := rfl
@[simp] theorem State.modBlock_stores (s : State) (b : Nat) (f : Block → Block) : (s.modBlock b f).stores = s.stores := rfl
@[simp] theorem State.modBlock_wbs (s : State) (b : Nat) (f : Block → Block) : (s.modBlock b f).wbs = s.wbs := rfl
@[simp] theorem State.modBlock_retired (s : State) (b : Nat) (f : Block → Block) : (s.modBlock b f).retired = s.retired := rfl
@[simp] theorem State.modBlock_closed (s : State) (b : Nat) (f : Block → Block) : (s.modBlock b f).closed = s.closed := rfl
@[simp] theorem State.modBlock_bad (s : State) (b : Nat) (f : Block → Block) : (s.modBlock b f).bad = s.bad := rfl
@[simp] theorem State.modBlock_atBase (s : State) (b : Nat) (f : Block → Block) : (s.modBlock b f).atBase = s.atBase := rfl
@[simp] theorem State.modBlock_ctxs (s : State) (b : Nat) (f : Block → Block) : (s.modBlock b f).ctxs = s.ctxs := rfl
@[simp] theorem State.modBlock_failedEngines (s : State) (b : Nat) (f : Block → Block) : (s.modBlock b f).failedEngines = s.failedEngines := rfl
@[simp] theorem State.modBlock_beams (s : State) (b : Nat) (f : Block → Block) : (s.modBlock b f).beams = s.beams := rfl
@[simp] theorem State.modBlock_messages (s : State) (b : Nat) (f : Block → Block) : (s.modBlock b f).messages = s.messages := rfl
@[simp] theorem State.modBlock_peers (s : State) (b : Nat) (f : Block → Block) : (s.modBlock b f).peers = s.peers := rfl
@[simp] theorem State.modBlock_failedPorts (s : State) (b : Nat) (f : Block → Block) : (s.modBlock b f).failedPorts = s.failedPorts := rfl
@[simp] theorem State.modBlock_peerHolds (s : State) (b : Nat) (f : Block → Block) : (s.modBlock b f).peerHolds = s.peerHolds := rfl
@[simp] theorem State.modBlock_measure (s : State) (b : Nat) (f : Block → Block) : (s.modBlock b f).measure = s.measure := rfl
@[simp] theorem State.modBlock_mailbox (s : State) (b : Nat) (f : Block → Block) : (s.modBlock b f).mailbox = s.mailbox := rfl
@[simp] theorem State.modBlock_missed (s : State) (b : Nat) (f : Block → Block) : (s.modBlock b f).missed = s.missed := rfl
@[simp] theorem State.modBlock_sextantOf (s : State) (b : Nat) (f : Block → Block) : (s.modBlock b f).sextantOf = s.sextantOf := rfl
@[simp] theorem State.modBlock_spareUsed (s : State) (b : Nat) (f : Block → Block) : (s.modBlock b f).spareUsed = s.spareUsed := rfl
@[simp] theorem State.modBlock_health (s : State) (b : Nat) (f : Block → Block) : (s.modBlock b f).health = s.health := rfl
@[simp] theorem State.modBlock_resent (s : State) (b : Nat) (f : Block → Block) : (s.modBlock b f).resent = s.resent := rfl

/-! ### State.modCore -/

@[simp] theorem State.modCore_agenda (s : State) (c : Nat) (f : Core → Core) : (s.modCore c f).agenda = s.agenda := rfl
@[simp] theorem State.modCore_cur (s : State) (c : Nat) (f : Core → Core) : (s.modCore c f).cur = s.cur := rfl
@[simp] theorem State.modCore_forced (s : State) (c : Nat) (f : Core → Core) : (s.modCore c f).forced = s.forced := rfl
@[simp] theorem State.modCore_turn (s : State) (c : Nat) (f : Core → Core) : (s.modCore c f).turn = s.turn := rfl
@[simp] theorem State.modCore_free (s : State) (c : Nat) (f : Core → Core) : (s.modCore c f).free = s.free := rfl
@[simp] theorem State.modCore_seq (s : State) (c : Nat) (f : Core → Core) : (s.modCore c f).seq = s.seq := rfl
@[simp] theorem State.modCore_nextBlock (s : State) (c : Nat) (f : Core → Core) : (s.modCore c f).nextBlock = s.nextBlock := rfl
@[simp] theorem State.modCore_nextTpl (s : State) (c : Nat) (f : Core → Core) : (s.modCore c f).nextTpl = s.nextTpl := rfl
@[simp] theorem State.modCore_nextFault (s : State) (c : Nat) (f : Core → Core) : (s.modCore c f).nextFault = s.nextFault := rfl
@[simp] theorem State.modCore_nextMsg (s : State) (c : Nat) (f : Core → Core) : (s.modCore c f).nextMsg = s.nextMsg := rfl
@[simp] theorem State.modCore_cycle (s : State) (c : Nat) (f : Core → Core) : (s.modCore c f).cycle = s.cycle := rfl
@[simp] theorem State.modCore_tick (s : State) (c : Nat) (f : Core → Core) : (s.modCore c f).tick = s.tick := rfl
@[simp] theorem State.modCore_tickAcc (s : State) (c : Nat) (f : Core → Core) : (s.modCore c f).tickAcc = s.tickAcc := rfl
@[simp] theorem State.modCore_clockMHz (s : State) (c : Nat) (f : Core → Core) : (s.modCore c f).clockMHz = s.clockMHz := rfl
@[simp] theorem State.modCore_powerLimit (s : State) (c : Nat) (f : Core → Core) : (s.modCore c f).powerLimit = s.powerLimit := rfl
@[simp] theorem State.modCore_draw (s : State) (c : Nat) (f : Core → Core) : (s.modCore c f).draw = s.draw := rfl
@[simp] theorem State.modCore_ptmSlew (s : State) (c : Nat) (f : Core → Core) : (s.modCore c f).ptmSlew = s.ptmSlew := rfl
@[simp] theorem State.modCore_ptmCount (s : State) (c : Nat) (f : Core → Core) : (s.modCore c f).ptmCount = s.ptmCount := rfl
@[simp] theorem State.modCore_linkUp (s : State) (c : Nat) (f : Core → Core) : (s.modCore c f).linkUp = s.linkUp := rfl
@[simp] theorem State.modCore_booted (s : State) (c : Nat) (f : Core → Core) : (s.modCore c f).booted = s.booted := rfl
@[simp] theorem State.modCore_bootOk (s : State) (c : Nat) (f : Core → Core) : (s.modCore c f).bootOk = s.bootOk := rfl
@[simp] theorem State.modCore_variant (s : State) (c : Nat) (f : Core → Core) : (s.modCore c f).variant = s.variant := rfl
@[simp] theorem State.modCore_enabled (s : State) (c : Nat) (f : Core → Core) : (s.modCore c f).enabled = s.enabled := rfl
@[simp] theorem State.modCore_quadMap (s : State) (c : Nat) (f : Core → Core) : (s.modCore c f).quadMap = s.quadMap := rfl
@[simp] theorem State.modCore_remap (s : State) (c : Nat) (f : Core → Core) : (s.modCore c f).remap = s.remap := rfl
@[simp] theorem State.modCore_failedQuads (s : State) (c : Nat) (f : Core → Core) : (s.modCore c f).failedQuads = s.failedQuads := rfl
@[simp] theorem State.modCore_failedRouters (s : State) (c : Nat) (f : Core → Core) : (s.modCore c f).failedRouters = s.failedRouters := rfl
@[simp] theorem State.modCore_waves (s : State) (c : Nat) (f : Core → Core) : (s.modCore c f).waves = s.waves := rfl
@[simp] theorem State.modCore_blocks (s : State) (c : Nat) (f : Core → Core) : (s.modCore c f).blocks = s.blocks := rfl
@[simp] theorem State.modCore_launches (s : State) (c : Nat) (f : Core → Core) : (s.modCore c f).launches = s.launches := rfl
@[simp] theorem State.modCore_templates (s : State) (c : Nat) (f : Core → Core) : (s.modCore c f).templates = s.templates := rfl
@[simp] theorem State.modCore_parts (s : State) (c : Nat) (f : Core → Core) : (s.modCore c f).parts = s.parts := rfl
@[simp] theorem State.modCore_reservations (s : State) (c : Nat) (f : Core → Core) : (s.modCore c f).reservations = s.reservations := rfl
@[simp] theorem State.modCore_backoffs (s : State) (c : Nat) (f : Core → Core) : (s.modCore c f).backoffs = s.backoffs := rfl
@[simp] theorem State.modCore_images (s : State) (c : Nat) (f : Core → Core) : (s.modCore c f).images = s.images := rfl
@[simp] theorem State.modCore_fills (s : State) (c : Nat) (f : Core → Core) : (s.modCore c f).fills = s.fills := rfl
@[simp] theorem State.modCore_raster (s : State) (c : Nat) (f : Core → Core) : (s.modCore c f).raster = s.raster := rfl
@[simp] theorem State.modCore_csm (s : State) (c : Nat) (f : Core → Core) : (s.modCore c f).csm = s.csm := rfl
@[simp] theorem State.modCore_raceLines (s : State) (c : Nat) (f : Core → Core) : (s.modCore c f).raceLines = s.raceLines := rfl
@[simp] theorem State.modCore_mem (s : State) (c : Nat) (f : Core → Core) : (s.modCore c f).mem = s.mem := rfl
@[simp] theorem State.modCore_tlb (s : State) (c : Nat) (f : Core → Core) : (s.modCore c f).tlb = s.tlb := rfl
@[simp] theorem State.modCore_asidOwner (s : State) (c : Nat) (f : Core → Core) : (s.modCore c f).asidOwner = s.asidOwner := rfl
@[simp] theorem State.modCore_pageFaults (s : State) (c : Nat) (f : Core → Core) : (s.modCore c f).pageFaults = s.pageFaults := rfl
@[simp] theorem State.modCore_loads (s : State) (c : Nat) (f : Core → Core) : (s.modCore c f).loads = s.loads := rfl
@[simp] theorem State.modCore_stores (s : State) (c : Nat) (f : Core → Core) : (s.modCore c f).stores = s.stores := rfl
@[simp] theorem State.modCore_wbs (s : State) (c : Nat) (f : Core → Core) : (s.modCore c f).wbs = s.wbs := rfl
@[simp] theorem State.modCore_retired (s : State) (c : Nat) (f : Core → Core) : (s.modCore c f).retired = s.retired := rfl
@[simp] theorem State.modCore_closed (s : State) (c : Nat) (f : Core → Core) : (s.modCore c f).closed = s.closed := rfl
@[simp] theorem State.modCore_bad (s : State) (c : Nat) (f : Core → Core) : (s.modCore c f).bad = s.bad := rfl
@[simp] theorem State.modCore_atBase (s : State) (c : Nat) (f : Core → Core) : (s.modCore c f).atBase = s.atBase := rfl
@[simp] theorem State.modCore_ctxs (s : State) (c : Nat) (f : Core → Core) : (s.modCore c f).ctxs = s.ctxs := rfl
@[simp] theorem State.modCore_failedEngines (s : State) (c : Nat) (f : Core → Core) : (s.modCore c f).failedEngines = s.failedEngines := rfl
@[simp] theorem State.modCore_beams (s : State) (c : Nat) (f : Core → Core) : (s.modCore c f).beams = s.beams := rfl
@[simp] theorem State.modCore_messages (s : State) (c : Nat) (f : Core → Core) : (s.modCore c f).messages = s.messages := rfl
@[simp] theorem State.modCore_peers (s : State) (c : Nat) (f : Core → Core) : (s.modCore c f).peers = s.peers := rfl
@[simp] theorem State.modCore_failedPorts (s : State) (c : Nat) (f : Core → Core) : (s.modCore c f).failedPorts = s.failedPorts := rfl
@[simp] theorem State.modCore_peerHolds (s : State) (c : Nat) (f : Core → Core) : (s.modCore c f).peerHolds = s.peerHolds := rfl
@[simp] theorem State.modCore_measure (s : State) (c : Nat) (f : Core → Core) : (s.modCore c f).measure = s.measure := rfl
@[simp] theorem State.modCore_mailbox (s : State) (c : Nat) (f : Core → Core) : (s.modCore c f).mailbox = s.mailbox := rfl
@[simp] theorem State.modCore_missed (s : State) (c : Nat) (f : Core → Core) : (s.modCore c f).missed = s.missed := rfl
@[simp] theorem State.modCore_sextantOf (s : State) (c : Nat) (f : Core → Core) : (s.modCore c f).sextantOf = s.sextantOf := rfl
@[simp] theorem State.modCore_spareUsed (s : State) (c : Nat) (f : Core → Core) : (s.modCore c f).spareUsed = s.spareUsed := rfl
@[simp] theorem State.modCore_health (s : State) (c : Nat) (f : Core → Core) : (s.modCore c f).health = s.health := rfl
@[simp] theorem State.modCore_resent (s : State) (c : Nat) (f : Core → Core) : (s.modCore c f).resent = s.resent := rfl

/-! ### State.modLaunch -/

@[simp] theorem State.modLaunch_agenda (s : State) (h : Nat) (f : Launch → Launch) : (s.modLaunch h f).agenda = s.agenda := rfl
@[simp] theorem State.modLaunch_cur (s : State) (h : Nat) (f : Launch → Launch) : (s.modLaunch h f).cur = s.cur := rfl
@[simp] theorem State.modLaunch_forced (s : State) (h : Nat) (f : Launch → Launch) : (s.modLaunch h f).forced = s.forced := rfl
@[simp] theorem State.modLaunch_turn (s : State) (h : Nat) (f : Launch → Launch) : (s.modLaunch h f).turn = s.turn := rfl
@[simp] theorem State.modLaunch_free (s : State) (h : Nat) (f : Launch → Launch) : (s.modLaunch h f).free = s.free := rfl
@[simp] theorem State.modLaunch_seq (s : State) (h : Nat) (f : Launch → Launch) : (s.modLaunch h f).seq = s.seq := rfl
@[simp] theorem State.modLaunch_nextBlock (s : State) (h : Nat) (f : Launch → Launch) : (s.modLaunch h f).nextBlock = s.nextBlock := rfl
@[simp] theorem State.modLaunch_nextTpl (s : State) (h : Nat) (f : Launch → Launch) : (s.modLaunch h f).nextTpl = s.nextTpl := rfl
@[simp] theorem State.modLaunch_nextFault (s : State) (h : Nat) (f : Launch → Launch) : (s.modLaunch h f).nextFault = s.nextFault := rfl
@[simp] theorem State.modLaunch_nextMsg (s : State) (h : Nat) (f : Launch → Launch) : (s.modLaunch h f).nextMsg = s.nextMsg := rfl
@[simp] theorem State.modLaunch_cycle (s : State) (h : Nat) (f : Launch → Launch) : (s.modLaunch h f).cycle = s.cycle := rfl
@[simp] theorem State.modLaunch_tick (s : State) (h : Nat) (f : Launch → Launch) : (s.modLaunch h f).tick = s.tick := rfl
@[simp] theorem State.modLaunch_tickAcc (s : State) (h : Nat) (f : Launch → Launch) : (s.modLaunch h f).tickAcc = s.tickAcc := rfl
@[simp] theorem State.modLaunch_clockMHz (s : State) (h : Nat) (f : Launch → Launch) : (s.modLaunch h f).clockMHz = s.clockMHz := rfl
@[simp] theorem State.modLaunch_powerLimit (s : State) (h : Nat) (f : Launch → Launch) : (s.modLaunch h f).powerLimit = s.powerLimit := rfl
@[simp] theorem State.modLaunch_draw (s : State) (h : Nat) (f : Launch → Launch) : (s.modLaunch h f).draw = s.draw := rfl
@[simp] theorem State.modLaunch_ptmSlew (s : State) (h : Nat) (f : Launch → Launch) : (s.modLaunch h f).ptmSlew = s.ptmSlew := rfl
@[simp] theorem State.modLaunch_ptmCount (s : State) (h : Nat) (f : Launch → Launch) : (s.modLaunch h f).ptmCount = s.ptmCount := rfl
@[simp] theorem State.modLaunch_linkUp (s : State) (h : Nat) (f : Launch → Launch) : (s.modLaunch h f).linkUp = s.linkUp := rfl
@[simp] theorem State.modLaunch_booted (s : State) (h : Nat) (f : Launch → Launch) : (s.modLaunch h f).booted = s.booted := rfl
@[simp] theorem State.modLaunch_bootOk (s : State) (h : Nat) (f : Launch → Launch) : (s.modLaunch h f).bootOk = s.bootOk := rfl
@[simp] theorem State.modLaunch_variant (s : State) (h : Nat) (f : Launch → Launch) : (s.modLaunch h f).variant = s.variant := rfl
@[simp] theorem State.modLaunch_enabled (s : State) (h : Nat) (f : Launch → Launch) : (s.modLaunch h f).enabled = s.enabled := rfl
@[simp] theorem State.modLaunch_quadMap (s : State) (h : Nat) (f : Launch → Launch) : (s.modLaunch h f).quadMap = s.quadMap := rfl
@[simp] theorem State.modLaunch_remap (s : State) (h : Nat) (f : Launch → Launch) : (s.modLaunch h f).remap = s.remap := rfl
@[simp] theorem State.modLaunch_failedQuads (s : State) (h : Nat) (f : Launch → Launch) : (s.modLaunch h f).failedQuads = s.failedQuads := rfl
@[simp] theorem State.modLaunch_failedRouters (s : State) (h : Nat) (f : Launch → Launch) : (s.modLaunch h f).failedRouters = s.failedRouters := rfl
@[simp] theorem State.modLaunch_waves (s : State) (h : Nat) (f : Launch → Launch) : (s.modLaunch h f).waves = s.waves := rfl
@[simp] theorem State.modLaunch_blocks (s : State) (h : Nat) (f : Launch → Launch) : (s.modLaunch h f).blocks = s.blocks := rfl
@[simp] theorem State.modLaunch_templates (s : State) (h : Nat) (f : Launch → Launch) : (s.modLaunch h f).templates = s.templates := rfl
@[simp] theorem State.modLaunch_parts (s : State) (h : Nat) (f : Launch → Launch) : (s.modLaunch h f).parts = s.parts := rfl
@[simp] theorem State.modLaunch_reservations (s : State) (h : Nat) (f : Launch → Launch) : (s.modLaunch h f).reservations = s.reservations := rfl
@[simp] theorem State.modLaunch_backoffs (s : State) (h : Nat) (f : Launch → Launch) : (s.modLaunch h f).backoffs = s.backoffs := rfl
@[simp] theorem State.modLaunch_images (s : State) (h : Nat) (f : Launch → Launch) : (s.modLaunch h f).images = s.images := rfl
@[simp] theorem State.modLaunch_fills (s : State) (h : Nat) (f : Launch → Launch) : (s.modLaunch h f).fills = s.fills := rfl
@[simp] theorem State.modLaunch_cores (s : State) (h : Nat) (f : Launch → Launch) : (s.modLaunch h f).cores = s.cores := rfl
@[simp] theorem State.modLaunch_raster (s : State) (h : Nat) (f : Launch → Launch) : (s.modLaunch h f).raster = s.raster := rfl
@[simp] theorem State.modLaunch_csm (s : State) (h : Nat) (f : Launch → Launch) : (s.modLaunch h f).csm = s.csm := rfl
@[simp] theorem State.modLaunch_raceLines (s : State) (h : Nat) (f : Launch → Launch) : (s.modLaunch h f).raceLines = s.raceLines := rfl
@[simp] theorem State.modLaunch_mem (s : State) (h : Nat) (f : Launch → Launch) : (s.modLaunch h f).mem = s.mem := rfl
@[simp] theorem State.modLaunch_tlb (s : State) (h : Nat) (f : Launch → Launch) : (s.modLaunch h f).tlb = s.tlb := rfl
@[simp] theorem State.modLaunch_asidOwner (s : State) (h : Nat) (f : Launch → Launch) : (s.modLaunch h f).asidOwner = s.asidOwner := rfl
@[simp] theorem State.modLaunch_pageFaults (s : State) (h : Nat) (f : Launch → Launch) : (s.modLaunch h f).pageFaults = s.pageFaults := rfl
@[simp] theorem State.modLaunch_loads (s : State) (h : Nat) (f : Launch → Launch) : (s.modLaunch h f).loads = s.loads := rfl
@[simp] theorem State.modLaunch_stores (s : State) (h : Nat) (f : Launch → Launch) : (s.modLaunch h f).stores = s.stores := rfl
@[simp] theorem State.modLaunch_wbs (s : State) (h : Nat) (f : Launch → Launch) : (s.modLaunch h f).wbs = s.wbs := rfl
@[simp] theorem State.modLaunch_retired (s : State) (h : Nat) (f : Launch → Launch) : (s.modLaunch h f).retired = s.retired := rfl
@[simp] theorem State.modLaunch_closed (s : State) (h : Nat) (f : Launch → Launch) : (s.modLaunch h f).closed = s.closed := rfl
@[simp] theorem State.modLaunch_bad (s : State) (h : Nat) (f : Launch → Launch) : (s.modLaunch h f).bad = s.bad := rfl
@[simp] theorem State.modLaunch_atBase (s : State) (h : Nat) (f : Launch → Launch) : (s.modLaunch h f).atBase = s.atBase := rfl
@[simp] theorem State.modLaunch_ctxs (s : State) (h : Nat) (f : Launch → Launch) : (s.modLaunch h f).ctxs = s.ctxs := rfl
@[simp] theorem State.modLaunch_failedEngines (s : State) (h : Nat) (f : Launch → Launch) : (s.modLaunch h f).failedEngines = s.failedEngines := rfl
@[simp] theorem State.modLaunch_beams (s : State) (h : Nat) (f : Launch → Launch) : (s.modLaunch h f).beams = s.beams := rfl
@[simp] theorem State.modLaunch_messages (s : State) (h : Nat) (f : Launch → Launch) : (s.modLaunch h f).messages = s.messages := rfl
@[simp] theorem State.modLaunch_peers (s : State) (h : Nat) (f : Launch → Launch) : (s.modLaunch h f).peers = s.peers := rfl
@[simp] theorem State.modLaunch_failedPorts (s : State) (h : Nat) (f : Launch → Launch) : (s.modLaunch h f).failedPorts = s.failedPorts := rfl
@[simp] theorem State.modLaunch_peerHolds (s : State) (h : Nat) (f : Launch → Launch) : (s.modLaunch h f).peerHolds = s.peerHolds := rfl
@[simp] theorem State.modLaunch_measure (s : State) (h : Nat) (f : Launch → Launch) : (s.modLaunch h f).measure = s.measure := rfl
@[simp] theorem State.modLaunch_mailbox (s : State) (h : Nat) (f : Launch → Launch) : (s.modLaunch h f).mailbox = s.mailbox := rfl
@[simp] theorem State.modLaunch_missed (s : State) (h : Nat) (f : Launch → Launch) : (s.modLaunch h f).missed = s.missed := rfl
@[simp] theorem State.modLaunch_sextantOf (s : State) (h : Nat) (f : Launch → Launch) : (s.modLaunch h f).sextantOf = s.sextantOf := rfl
@[simp] theorem State.modLaunch_spareUsed (s : State) (h : Nat) (f : Launch → Launch) : (s.modLaunch h f).spareUsed = s.spareUsed := rfl
@[simp] theorem State.modLaunch_health (s : State) (h : Nat) (f : Launch → Launch) : (s.modLaunch h f).health = s.health := rfl
@[simp] theorem State.modLaunch_resent (s : State) (h : Nat) (f : Launch → Launch) : (s.modLaunch h f).resent = s.resent := rfl

/-! ### State.modPart -/

@[simp] theorem State.modPart_agenda (s : State) (p : Nat) (f : Part → Part) : (s.modPart p f).agenda = s.agenda := rfl
@[simp] theorem State.modPart_cur (s : State) (p : Nat) (f : Part → Part) : (s.modPart p f).cur = s.cur := rfl
@[simp] theorem State.modPart_forced (s : State) (p : Nat) (f : Part → Part) : (s.modPart p f).forced = s.forced := rfl
@[simp] theorem State.modPart_turn (s : State) (p : Nat) (f : Part → Part) : (s.modPart p f).turn = s.turn := rfl
@[simp] theorem State.modPart_free (s : State) (p : Nat) (f : Part → Part) : (s.modPart p f).free = s.free := rfl
@[simp] theorem State.modPart_seq (s : State) (p : Nat) (f : Part → Part) : (s.modPart p f).seq = s.seq := rfl
@[simp] theorem State.modPart_nextBlock (s : State) (p : Nat) (f : Part → Part) : (s.modPart p f).nextBlock = s.nextBlock := rfl
@[simp] theorem State.modPart_nextTpl (s : State) (p : Nat) (f : Part → Part) : (s.modPart p f).nextTpl = s.nextTpl := rfl
@[simp] theorem State.modPart_nextFault (s : State) (p : Nat) (f : Part → Part) : (s.modPart p f).nextFault = s.nextFault := rfl
@[simp] theorem State.modPart_nextMsg (s : State) (p : Nat) (f : Part → Part) : (s.modPart p f).nextMsg = s.nextMsg := rfl
@[simp] theorem State.modPart_cycle (s : State) (p : Nat) (f : Part → Part) : (s.modPart p f).cycle = s.cycle := rfl
@[simp] theorem State.modPart_tick (s : State) (p : Nat) (f : Part → Part) : (s.modPart p f).tick = s.tick := rfl
@[simp] theorem State.modPart_tickAcc (s : State) (p : Nat) (f : Part → Part) : (s.modPart p f).tickAcc = s.tickAcc := rfl
@[simp] theorem State.modPart_clockMHz (s : State) (p : Nat) (f : Part → Part) : (s.modPart p f).clockMHz = s.clockMHz := rfl
@[simp] theorem State.modPart_powerLimit (s : State) (p : Nat) (f : Part → Part) : (s.modPart p f).powerLimit = s.powerLimit := rfl
@[simp] theorem State.modPart_draw (s : State) (p : Nat) (f : Part → Part) : (s.modPart p f).draw = s.draw := rfl
@[simp] theorem State.modPart_ptmSlew (s : State) (p : Nat) (f : Part → Part) : (s.modPart p f).ptmSlew = s.ptmSlew := rfl
@[simp] theorem State.modPart_ptmCount (s : State) (p : Nat) (f : Part → Part) : (s.modPart p f).ptmCount = s.ptmCount := rfl
@[simp] theorem State.modPart_linkUp (s : State) (p : Nat) (f : Part → Part) : (s.modPart p f).linkUp = s.linkUp := rfl
@[simp] theorem State.modPart_booted (s : State) (p : Nat) (f : Part → Part) : (s.modPart p f).booted = s.booted := rfl
@[simp] theorem State.modPart_bootOk (s : State) (p : Nat) (f : Part → Part) : (s.modPart p f).bootOk = s.bootOk := rfl
@[simp] theorem State.modPart_variant (s : State) (p : Nat) (f : Part → Part) : (s.modPart p f).variant = s.variant := rfl
@[simp] theorem State.modPart_enabled (s : State) (p : Nat) (f : Part → Part) : (s.modPart p f).enabled = s.enabled := rfl
@[simp] theorem State.modPart_quadMap (s : State) (p : Nat) (f : Part → Part) : (s.modPart p f).quadMap = s.quadMap := rfl
@[simp] theorem State.modPart_remap (s : State) (p : Nat) (f : Part → Part) : (s.modPart p f).remap = s.remap := rfl
@[simp] theorem State.modPart_failedQuads (s : State) (p : Nat) (f : Part → Part) : (s.modPart p f).failedQuads = s.failedQuads := rfl
@[simp] theorem State.modPart_failedRouters (s : State) (p : Nat) (f : Part → Part) : (s.modPart p f).failedRouters = s.failedRouters := rfl
@[simp] theorem State.modPart_waves (s : State) (p : Nat) (f : Part → Part) : (s.modPart p f).waves = s.waves := rfl
@[simp] theorem State.modPart_blocks (s : State) (p : Nat) (f : Part → Part) : (s.modPart p f).blocks = s.blocks := rfl
@[simp] theorem State.modPart_launches (s : State) (p : Nat) (f : Part → Part) : (s.modPart p f).launches = s.launches := rfl
@[simp] theorem State.modPart_templates (s : State) (p : Nat) (f : Part → Part) : (s.modPart p f).templates = s.templates := rfl
@[simp] theorem State.modPart_reservations (s : State) (p : Nat) (f : Part → Part) : (s.modPart p f).reservations = s.reservations := rfl
@[simp] theorem State.modPart_backoffs (s : State) (p : Nat) (f : Part → Part) : (s.modPart p f).backoffs = s.backoffs := rfl
@[simp] theorem State.modPart_images (s : State) (p : Nat) (f : Part → Part) : (s.modPart p f).images = s.images := rfl
@[simp] theorem State.modPart_fills (s : State) (p : Nat) (f : Part → Part) : (s.modPart p f).fills = s.fills := rfl
@[simp] theorem State.modPart_cores (s : State) (p : Nat) (f : Part → Part) : (s.modPart p f).cores = s.cores := rfl
@[simp] theorem State.modPart_raster (s : State) (p : Nat) (f : Part → Part) : (s.modPart p f).raster = s.raster := rfl
@[simp] theorem State.modPart_csm (s : State) (p : Nat) (f : Part → Part) : (s.modPart p f).csm = s.csm := rfl
@[simp] theorem State.modPart_raceLines (s : State) (p : Nat) (f : Part → Part) : (s.modPart p f).raceLines = s.raceLines := rfl
@[simp] theorem State.modPart_mem (s : State) (p : Nat) (f : Part → Part) : (s.modPart p f).mem = s.mem := rfl
@[simp] theorem State.modPart_tlb (s : State) (p : Nat) (f : Part → Part) : (s.modPart p f).tlb = s.tlb := rfl
@[simp] theorem State.modPart_asidOwner (s : State) (p : Nat) (f : Part → Part) : (s.modPart p f).asidOwner = s.asidOwner := rfl
@[simp] theorem State.modPart_pageFaults (s : State) (p : Nat) (f : Part → Part) : (s.modPart p f).pageFaults = s.pageFaults := rfl
@[simp] theorem State.modPart_loads (s : State) (p : Nat) (f : Part → Part) : (s.modPart p f).loads = s.loads := rfl
@[simp] theorem State.modPart_stores (s : State) (p : Nat) (f : Part → Part) : (s.modPart p f).stores = s.stores := rfl
@[simp] theorem State.modPart_wbs (s : State) (p : Nat) (f : Part → Part) : (s.modPart p f).wbs = s.wbs := rfl
@[simp] theorem State.modPart_retired (s : State) (p : Nat) (f : Part → Part) : (s.modPart p f).retired = s.retired := rfl
@[simp] theorem State.modPart_closed (s : State) (p : Nat) (f : Part → Part) : (s.modPart p f).closed = s.closed := rfl
@[simp] theorem State.modPart_bad (s : State) (p : Nat) (f : Part → Part) : (s.modPart p f).bad = s.bad := rfl
@[simp] theorem State.modPart_atBase (s : State) (p : Nat) (f : Part → Part) : (s.modPart p f).atBase = s.atBase := rfl
@[simp] theorem State.modPart_ctxs (s : State) (p : Nat) (f : Part → Part) : (s.modPart p f).ctxs = s.ctxs := rfl
@[simp] theorem State.modPart_failedEngines (s : State) (p : Nat) (f : Part → Part) : (s.modPart p f).failedEngines = s.failedEngines := rfl
@[simp] theorem State.modPart_beams (s : State) (p : Nat) (f : Part → Part) : (s.modPart p f).beams = s.beams := rfl
@[simp] theorem State.modPart_messages (s : State) (p : Nat) (f : Part → Part) : (s.modPart p f).messages = s.messages := rfl
@[simp] theorem State.modPart_peers (s : State) (p : Nat) (f : Part → Part) : (s.modPart p f).peers = s.peers := rfl
@[simp] theorem State.modPart_failedPorts (s : State) (p : Nat) (f : Part → Part) : (s.modPart p f).failedPorts = s.failedPorts := rfl
@[simp] theorem State.modPart_peerHolds (s : State) (p : Nat) (f : Part → Part) : (s.modPart p f).peerHolds = s.peerHolds := rfl
@[simp] theorem State.modPart_measure (s : State) (p : Nat) (f : Part → Part) : (s.modPart p f).measure = s.measure := rfl
@[simp] theorem State.modPart_mailbox (s : State) (p : Nat) (f : Part → Part) : (s.modPart p f).mailbox = s.mailbox := rfl
@[simp] theorem State.modPart_missed (s : State) (p : Nat) (f : Part → Part) : (s.modPart p f).missed = s.missed := rfl
@[simp] theorem State.modPart_sextantOf (s : State) (p : Nat) (f : Part → Part) : (s.modPart p f).sextantOf = s.sextantOf := rfl
@[simp] theorem State.modPart_spareUsed (s : State) (p : Nat) (f : Part → Part) : (s.modPart p f).spareUsed = s.spareUsed := rfl
@[simp] theorem State.modPart_health (s : State) (p : Nat) (f : Part → Part) : (s.modPart p f).health = s.health := rfl
@[simp] theorem State.modPart_resent (s : State) (p : Nat) (f : Part → Part) : (s.modPart p f).resent = s.resent := rfl

/-! ### State.modCtx -/

@[simp] theorem State.modCtx_agenda (s : State) (c : Nat) (f : CopyCtx → CopyCtx) : (s.modCtx c f).agenda = s.agenda := rfl
@[simp] theorem State.modCtx_cur (s : State) (c : Nat) (f : CopyCtx → CopyCtx) : (s.modCtx c f).cur = s.cur := rfl
@[simp] theorem State.modCtx_forced (s : State) (c : Nat) (f : CopyCtx → CopyCtx) : (s.modCtx c f).forced = s.forced := rfl
@[simp] theorem State.modCtx_turn (s : State) (c : Nat) (f : CopyCtx → CopyCtx) : (s.modCtx c f).turn = s.turn := rfl
@[simp] theorem State.modCtx_free (s : State) (c : Nat) (f : CopyCtx → CopyCtx) : (s.modCtx c f).free = s.free := rfl
@[simp] theorem State.modCtx_seq (s : State) (c : Nat) (f : CopyCtx → CopyCtx) : (s.modCtx c f).seq = s.seq := rfl
@[simp] theorem State.modCtx_nextBlock (s : State) (c : Nat) (f : CopyCtx → CopyCtx) : (s.modCtx c f).nextBlock = s.nextBlock := rfl
@[simp] theorem State.modCtx_nextTpl (s : State) (c : Nat) (f : CopyCtx → CopyCtx) : (s.modCtx c f).nextTpl = s.nextTpl := rfl
@[simp] theorem State.modCtx_nextFault (s : State) (c : Nat) (f : CopyCtx → CopyCtx) : (s.modCtx c f).nextFault = s.nextFault := rfl
@[simp] theorem State.modCtx_nextMsg (s : State) (c : Nat) (f : CopyCtx → CopyCtx) : (s.modCtx c f).nextMsg = s.nextMsg := rfl
@[simp] theorem State.modCtx_cycle (s : State) (c : Nat) (f : CopyCtx → CopyCtx) : (s.modCtx c f).cycle = s.cycle := rfl
@[simp] theorem State.modCtx_tick (s : State) (c : Nat) (f : CopyCtx → CopyCtx) : (s.modCtx c f).tick = s.tick := rfl
@[simp] theorem State.modCtx_tickAcc (s : State) (c : Nat) (f : CopyCtx → CopyCtx) : (s.modCtx c f).tickAcc = s.tickAcc := rfl
@[simp] theorem State.modCtx_clockMHz (s : State) (c : Nat) (f : CopyCtx → CopyCtx) : (s.modCtx c f).clockMHz = s.clockMHz := rfl
@[simp] theorem State.modCtx_powerLimit (s : State) (c : Nat) (f : CopyCtx → CopyCtx) : (s.modCtx c f).powerLimit = s.powerLimit := rfl
@[simp] theorem State.modCtx_draw (s : State) (c : Nat) (f : CopyCtx → CopyCtx) : (s.modCtx c f).draw = s.draw := rfl
@[simp] theorem State.modCtx_ptmSlew (s : State) (c : Nat) (f : CopyCtx → CopyCtx) : (s.modCtx c f).ptmSlew = s.ptmSlew := rfl
@[simp] theorem State.modCtx_ptmCount (s : State) (c : Nat) (f : CopyCtx → CopyCtx) : (s.modCtx c f).ptmCount = s.ptmCount := rfl
@[simp] theorem State.modCtx_linkUp (s : State) (c : Nat) (f : CopyCtx → CopyCtx) : (s.modCtx c f).linkUp = s.linkUp := rfl
@[simp] theorem State.modCtx_booted (s : State) (c : Nat) (f : CopyCtx → CopyCtx) : (s.modCtx c f).booted = s.booted := rfl
@[simp] theorem State.modCtx_bootOk (s : State) (c : Nat) (f : CopyCtx → CopyCtx) : (s.modCtx c f).bootOk = s.bootOk := rfl
@[simp] theorem State.modCtx_variant (s : State) (c : Nat) (f : CopyCtx → CopyCtx) : (s.modCtx c f).variant = s.variant := rfl
@[simp] theorem State.modCtx_enabled (s : State) (c : Nat) (f : CopyCtx → CopyCtx) : (s.modCtx c f).enabled = s.enabled := rfl
@[simp] theorem State.modCtx_quadMap (s : State) (c : Nat) (f : CopyCtx → CopyCtx) : (s.modCtx c f).quadMap = s.quadMap := rfl
@[simp] theorem State.modCtx_remap (s : State) (c : Nat) (f : CopyCtx → CopyCtx) : (s.modCtx c f).remap = s.remap := rfl
@[simp] theorem State.modCtx_failedQuads (s : State) (c : Nat) (f : CopyCtx → CopyCtx) : (s.modCtx c f).failedQuads = s.failedQuads := rfl
@[simp] theorem State.modCtx_failedRouters (s : State) (c : Nat) (f : CopyCtx → CopyCtx) : (s.modCtx c f).failedRouters = s.failedRouters := rfl
@[simp] theorem State.modCtx_waves (s : State) (c : Nat) (f : CopyCtx → CopyCtx) : (s.modCtx c f).waves = s.waves := rfl
@[simp] theorem State.modCtx_blocks (s : State) (c : Nat) (f : CopyCtx → CopyCtx) : (s.modCtx c f).blocks = s.blocks := rfl
@[simp] theorem State.modCtx_launches (s : State) (c : Nat) (f : CopyCtx → CopyCtx) : (s.modCtx c f).launches = s.launches := rfl
@[simp] theorem State.modCtx_templates (s : State) (c : Nat) (f : CopyCtx → CopyCtx) : (s.modCtx c f).templates = s.templates := rfl
@[simp] theorem State.modCtx_parts (s : State) (c : Nat) (f : CopyCtx → CopyCtx) : (s.modCtx c f).parts = s.parts := rfl
@[simp] theorem State.modCtx_reservations (s : State) (c : Nat) (f : CopyCtx → CopyCtx) : (s.modCtx c f).reservations = s.reservations := rfl
@[simp] theorem State.modCtx_backoffs (s : State) (c : Nat) (f : CopyCtx → CopyCtx) : (s.modCtx c f).backoffs = s.backoffs := rfl
@[simp] theorem State.modCtx_images (s : State) (c : Nat) (f : CopyCtx → CopyCtx) : (s.modCtx c f).images = s.images := rfl
@[simp] theorem State.modCtx_fills (s : State) (c : Nat) (f : CopyCtx → CopyCtx) : (s.modCtx c f).fills = s.fills := rfl
@[simp] theorem State.modCtx_cores (s : State) (c : Nat) (f : CopyCtx → CopyCtx) : (s.modCtx c f).cores = s.cores := rfl
@[simp] theorem State.modCtx_raster (s : State) (c : Nat) (f : CopyCtx → CopyCtx) : (s.modCtx c f).raster = s.raster := rfl
@[simp] theorem State.modCtx_csm (s : State) (c : Nat) (f : CopyCtx → CopyCtx) : (s.modCtx c f).csm = s.csm := rfl
@[simp] theorem State.modCtx_raceLines (s : State) (c : Nat) (f : CopyCtx → CopyCtx) : (s.modCtx c f).raceLines = s.raceLines := rfl
@[simp] theorem State.modCtx_mem (s : State) (c : Nat) (f : CopyCtx → CopyCtx) : (s.modCtx c f).mem = s.mem := rfl
@[simp] theorem State.modCtx_tlb (s : State) (c : Nat) (f : CopyCtx → CopyCtx) : (s.modCtx c f).tlb = s.tlb := rfl
@[simp] theorem State.modCtx_asidOwner (s : State) (c : Nat) (f : CopyCtx → CopyCtx) : (s.modCtx c f).asidOwner = s.asidOwner := rfl
@[simp] theorem State.modCtx_pageFaults (s : State) (c : Nat) (f : CopyCtx → CopyCtx) : (s.modCtx c f).pageFaults = s.pageFaults := rfl
@[simp] theorem State.modCtx_loads (s : State) (c : Nat) (f : CopyCtx → CopyCtx) : (s.modCtx c f).loads = s.loads := rfl
@[simp] theorem State.modCtx_stores (s : State) (c : Nat) (f : CopyCtx → CopyCtx) : (s.modCtx c f).stores = s.stores := rfl
@[simp] theorem State.modCtx_wbs (s : State) (c : Nat) (f : CopyCtx → CopyCtx) : (s.modCtx c f).wbs = s.wbs := rfl
@[simp] theorem State.modCtx_retired (s : State) (c : Nat) (f : CopyCtx → CopyCtx) : (s.modCtx c f).retired = s.retired := rfl
@[simp] theorem State.modCtx_closed (s : State) (c : Nat) (f : CopyCtx → CopyCtx) : (s.modCtx c f).closed = s.closed := rfl
@[simp] theorem State.modCtx_bad (s : State) (c : Nat) (f : CopyCtx → CopyCtx) : (s.modCtx c f).bad = s.bad := rfl
@[simp] theorem State.modCtx_atBase (s : State) (c : Nat) (f : CopyCtx → CopyCtx) : (s.modCtx c f).atBase = s.atBase := rfl
@[simp] theorem State.modCtx_failedEngines (s : State) (c : Nat) (f : CopyCtx → CopyCtx) : (s.modCtx c f).failedEngines = s.failedEngines := rfl
@[simp] theorem State.modCtx_beams (s : State) (c : Nat) (f : CopyCtx → CopyCtx) : (s.modCtx c f).beams = s.beams := rfl
@[simp] theorem State.modCtx_messages (s : State) (c : Nat) (f : CopyCtx → CopyCtx) : (s.modCtx c f).messages = s.messages := rfl
@[simp] theorem State.modCtx_peers (s : State) (c : Nat) (f : CopyCtx → CopyCtx) : (s.modCtx c f).peers = s.peers := rfl
@[simp] theorem State.modCtx_failedPorts (s : State) (c : Nat) (f : CopyCtx → CopyCtx) : (s.modCtx c f).failedPorts = s.failedPorts := rfl
@[simp] theorem State.modCtx_peerHolds (s : State) (c : Nat) (f : CopyCtx → CopyCtx) : (s.modCtx c f).peerHolds = s.peerHolds := rfl
@[simp] theorem State.modCtx_measure (s : State) (c : Nat) (f : CopyCtx → CopyCtx) : (s.modCtx c f).measure = s.measure := rfl
@[simp] theorem State.modCtx_mailbox (s : State) (c : Nat) (f : CopyCtx → CopyCtx) : (s.modCtx c f).mailbox = s.mailbox := rfl
@[simp] theorem State.modCtx_missed (s : State) (c : Nat) (f : CopyCtx → CopyCtx) : (s.modCtx c f).missed = s.missed := rfl
@[simp] theorem State.modCtx_sextantOf (s : State) (c : Nat) (f : CopyCtx → CopyCtx) : (s.modCtx c f).sextantOf = s.sextantOf := rfl
@[simp] theorem State.modCtx_spareUsed (s : State) (c : Nat) (f : CopyCtx → CopyCtx) : (s.modCtx c f).spareUsed = s.spareUsed := rfl
@[simp] theorem State.modCtx_health (s : State) (c : Nat) (f : CopyCtx → CopyCtx) : (s.modCtx c f).health = s.health := rfl
@[simp] theorem State.modCtx_resent (s : State) (c : Nat) (f : CopyCtx → CopyCtx) : (s.modCtx c f).resent = s.resent := rfl

/-! ### State.modTpl -/

@[simp] theorem State.modTpl_agenda (s : State) (i : Nat) (f : Template → Template) : (s.modTpl i f).agenda = s.agenda := rfl
@[simp] theorem State.modTpl_cur (s : State) (i : Nat) (f : Template → Template) : (s.modTpl i f).cur = s.cur := rfl
@[simp] theorem State.modTpl_forced (s : State) (i : Nat) (f : Template → Template) : (s.modTpl i f).forced = s.forced := rfl
@[simp] theorem State.modTpl_turn (s : State) (i : Nat) (f : Template → Template) : (s.modTpl i f).turn = s.turn := rfl
@[simp] theorem State.modTpl_free (s : State) (i : Nat) (f : Template → Template) : (s.modTpl i f).free = s.free := rfl
@[simp] theorem State.modTpl_seq (s : State) (i : Nat) (f : Template → Template) : (s.modTpl i f).seq = s.seq := rfl
@[simp] theorem State.modTpl_nextBlock (s : State) (i : Nat) (f : Template → Template) : (s.modTpl i f).nextBlock = s.nextBlock := rfl
@[simp] theorem State.modTpl_nextTpl (s : State) (i : Nat) (f : Template → Template) : (s.modTpl i f).nextTpl = s.nextTpl := rfl
@[simp] theorem State.modTpl_nextFault (s : State) (i : Nat) (f : Template → Template) : (s.modTpl i f).nextFault = s.nextFault := rfl
@[simp] theorem State.modTpl_nextMsg (s : State) (i : Nat) (f : Template → Template) : (s.modTpl i f).nextMsg = s.nextMsg := rfl
@[simp] theorem State.modTpl_cycle (s : State) (i : Nat) (f : Template → Template) : (s.modTpl i f).cycle = s.cycle := rfl
@[simp] theorem State.modTpl_tick (s : State) (i : Nat) (f : Template → Template) : (s.modTpl i f).tick = s.tick := rfl
@[simp] theorem State.modTpl_tickAcc (s : State) (i : Nat) (f : Template → Template) : (s.modTpl i f).tickAcc = s.tickAcc := rfl
@[simp] theorem State.modTpl_clockMHz (s : State) (i : Nat) (f : Template → Template) : (s.modTpl i f).clockMHz = s.clockMHz := rfl
@[simp] theorem State.modTpl_powerLimit (s : State) (i : Nat) (f : Template → Template) : (s.modTpl i f).powerLimit = s.powerLimit := rfl
@[simp] theorem State.modTpl_draw (s : State) (i : Nat) (f : Template → Template) : (s.modTpl i f).draw = s.draw := rfl
@[simp] theorem State.modTpl_ptmSlew (s : State) (i : Nat) (f : Template → Template) : (s.modTpl i f).ptmSlew = s.ptmSlew := rfl
@[simp] theorem State.modTpl_ptmCount (s : State) (i : Nat) (f : Template → Template) : (s.modTpl i f).ptmCount = s.ptmCount := rfl
@[simp] theorem State.modTpl_linkUp (s : State) (i : Nat) (f : Template → Template) : (s.modTpl i f).linkUp = s.linkUp := rfl
@[simp] theorem State.modTpl_booted (s : State) (i : Nat) (f : Template → Template) : (s.modTpl i f).booted = s.booted := rfl
@[simp] theorem State.modTpl_bootOk (s : State) (i : Nat) (f : Template → Template) : (s.modTpl i f).bootOk = s.bootOk := rfl
@[simp] theorem State.modTpl_variant (s : State) (i : Nat) (f : Template → Template) : (s.modTpl i f).variant = s.variant := rfl
@[simp] theorem State.modTpl_enabled (s : State) (i : Nat) (f : Template → Template) : (s.modTpl i f).enabled = s.enabled := rfl
@[simp] theorem State.modTpl_quadMap (s : State) (i : Nat) (f : Template → Template) : (s.modTpl i f).quadMap = s.quadMap := rfl
@[simp] theorem State.modTpl_remap (s : State) (i : Nat) (f : Template → Template) : (s.modTpl i f).remap = s.remap := rfl
@[simp] theorem State.modTpl_failedQuads (s : State) (i : Nat) (f : Template → Template) : (s.modTpl i f).failedQuads = s.failedQuads := rfl
@[simp] theorem State.modTpl_failedRouters (s : State) (i : Nat) (f : Template → Template) : (s.modTpl i f).failedRouters = s.failedRouters := rfl
@[simp] theorem State.modTpl_waves (s : State) (i : Nat) (f : Template → Template) : (s.modTpl i f).waves = s.waves := rfl
@[simp] theorem State.modTpl_blocks (s : State) (i : Nat) (f : Template → Template) : (s.modTpl i f).blocks = s.blocks := rfl
@[simp] theorem State.modTpl_launches (s : State) (i : Nat) (f : Template → Template) : (s.modTpl i f).launches = s.launches := rfl
@[simp] theorem State.modTpl_parts (s : State) (i : Nat) (f : Template → Template) : (s.modTpl i f).parts = s.parts := rfl
@[simp] theorem State.modTpl_reservations (s : State) (i : Nat) (f : Template → Template) : (s.modTpl i f).reservations = s.reservations := rfl
@[simp] theorem State.modTpl_backoffs (s : State) (i : Nat) (f : Template → Template) : (s.modTpl i f).backoffs = s.backoffs := rfl
@[simp] theorem State.modTpl_images (s : State) (i : Nat) (f : Template → Template) : (s.modTpl i f).images = s.images := rfl
@[simp] theorem State.modTpl_fills (s : State) (i : Nat) (f : Template → Template) : (s.modTpl i f).fills = s.fills := rfl
@[simp] theorem State.modTpl_cores (s : State) (i : Nat) (f : Template → Template) : (s.modTpl i f).cores = s.cores := rfl
@[simp] theorem State.modTpl_raster (s : State) (i : Nat) (f : Template → Template) : (s.modTpl i f).raster = s.raster := rfl
@[simp] theorem State.modTpl_csm (s : State) (i : Nat) (f : Template → Template) : (s.modTpl i f).csm = s.csm := rfl
@[simp] theorem State.modTpl_raceLines (s : State) (i : Nat) (f : Template → Template) : (s.modTpl i f).raceLines = s.raceLines := rfl
@[simp] theorem State.modTpl_mem (s : State) (i : Nat) (f : Template → Template) : (s.modTpl i f).mem = s.mem := rfl
@[simp] theorem State.modTpl_tlb (s : State) (i : Nat) (f : Template → Template) : (s.modTpl i f).tlb = s.tlb := rfl
@[simp] theorem State.modTpl_asidOwner (s : State) (i : Nat) (f : Template → Template) : (s.modTpl i f).asidOwner = s.asidOwner := rfl
@[simp] theorem State.modTpl_pageFaults (s : State) (i : Nat) (f : Template → Template) : (s.modTpl i f).pageFaults = s.pageFaults := rfl
@[simp] theorem State.modTpl_loads (s : State) (i : Nat) (f : Template → Template) : (s.modTpl i f).loads = s.loads := rfl
@[simp] theorem State.modTpl_stores (s : State) (i : Nat) (f : Template → Template) : (s.modTpl i f).stores = s.stores := rfl
@[simp] theorem State.modTpl_wbs (s : State) (i : Nat) (f : Template → Template) : (s.modTpl i f).wbs = s.wbs := rfl
@[simp] theorem State.modTpl_retired (s : State) (i : Nat) (f : Template → Template) : (s.modTpl i f).retired = s.retired := rfl
@[simp] theorem State.modTpl_closed (s : State) (i : Nat) (f : Template → Template) : (s.modTpl i f).closed = s.closed := rfl
@[simp] theorem State.modTpl_bad (s : State) (i : Nat) (f : Template → Template) : (s.modTpl i f).bad = s.bad := rfl
@[simp] theorem State.modTpl_atBase (s : State) (i : Nat) (f : Template → Template) : (s.modTpl i f).atBase = s.atBase := rfl
@[simp] theorem State.modTpl_ctxs (s : State) (i : Nat) (f : Template → Template) : (s.modTpl i f).ctxs = s.ctxs := rfl
@[simp] theorem State.modTpl_failedEngines (s : State) (i : Nat) (f : Template → Template) : (s.modTpl i f).failedEngines = s.failedEngines := rfl
@[simp] theorem State.modTpl_beams (s : State) (i : Nat) (f : Template → Template) : (s.modTpl i f).beams = s.beams := rfl
@[simp] theorem State.modTpl_messages (s : State) (i : Nat) (f : Template → Template) : (s.modTpl i f).messages = s.messages := rfl
@[simp] theorem State.modTpl_peers (s : State) (i : Nat) (f : Template → Template) : (s.modTpl i f).peers = s.peers := rfl
@[simp] theorem State.modTpl_failedPorts (s : State) (i : Nat) (f : Template → Template) : (s.modTpl i f).failedPorts = s.failedPorts := rfl
@[simp] theorem State.modTpl_peerHolds (s : State) (i : Nat) (f : Template → Template) : (s.modTpl i f).peerHolds = s.peerHolds := rfl
@[simp] theorem State.modTpl_measure (s : State) (i : Nat) (f : Template → Template) : (s.modTpl i f).measure = s.measure := rfl
@[simp] theorem State.modTpl_mailbox (s : State) (i : Nat) (f : Template → Template) : (s.modTpl i f).mailbox = s.mailbox := rfl
@[simp] theorem State.modTpl_missed (s : State) (i : Nat) (f : Template → Template) : (s.modTpl i f).missed = s.missed := rfl
@[simp] theorem State.modTpl_sextantOf (s : State) (i : Nat) (f : Template → Template) : (s.modTpl i f).sextantOf = s.sextantOf := rfl
@[simp] theorem State.modTpl_spareUsed (s : State) (i : Nat) (f : Template → Template) : (s.modTpl i f).spareUsed = s.spareUsed := rfl
@[simp] theorem State.modTpl_health (s : State) (i : Nat) (f : Template → Template) : (s.modTpl i f).health = s.health := rfl
@[simp] theorem State.modTpl_resent (s : State) (i : Nat) (f : Template → Template) : (s.modTpl i f).resent = s.resent := rfl

/-! ### advance -/

@[simp] theorem advance_agenda (s : State) (t : TRef) : (advance s t).agenda = s.agenda := rfl
@[simp] theorem advance_cur (s : State) (t : TRef) : (advance s t).cur = s.cur := rfl
@[simp] theorem advance_forced (s : State) (t : TRef) : (advance s t).forced = s.forced := rfl
@[simp] theorem advance_turn (s : State) (t : TRef) : (advance s t).turn = s.turn := rfl
@[simp] theorem advance_free (s : State) (t : TRef) : (advance s t).free = s.free := rfl
@[simp] theorem advance_seq (s : State) (t : TRef) : (advance s t).seq = s.seq := rfl
@[simp] theorem advance_nextBlock (s : State) (t : TRef) : (advance s t).nextBlock = s.nextBlock := rfl
@[simp] theorem advance_nextTpl (s : State) (t : TRef) : (advance s t).nextTpl = s.nextTpl := rfl
@[simp] theorem advance_nextFault (s : State) (t : TRef) : (advance s t).nextFault = s.nextFault := rfl
@[simp] theorem advance_nextMsg (s : State) (t : TRef) : (advance s t).nextMsg = s.nextMsg := rfl
@[simp] theorem advance_cycle (s : State) (t : TRef) : (advance s t).cycle = s.cycle := rfl
@[simp] theorem advance_tick (s : State) (t : TRef) : (advance s t).tick = s.tick := rfl
@[simp] theorem advance_tickAcc (s : State) (t : TRef) : (advance s t).tickAcc = s.tickAcc := rfl
@[simp] theorem advance_clockMHz (s : State) (t : TRef) : (advance s t).clockMHz = s.clockMHz := rfl
@[simp] theorem advance_powerLimit (s : State) (t : TRef) : (advance s t).powerLimit = s.powerLimit := rfl
@[simp] theorem advance_draw (s : State) (t : TRef) : (advance s t).draw = s.draw := rfl
@[simp] theorem advance_ptmSlew (s : State) (t : TRef) : (advance s t).ptmSlew = s.ptmSlew := rfl
@[simp] theorem advance_ptmCount (s : State) (t : TRef) : (advance s t).ptmCount = s.ptmCount := rfl
@[simp] theorem advance_linkUp (s : State) (t : TRef) : (advance s t).linkUp = s.linkUp := rfl
@[simp] theorem advance_booted (s : State) (t : TRef) : (advance s t).booted = s.booted := rfl
@[simp] theorem advance_bootOk (s : State) (t : TRef) : (advance s t).bootOk = s.bootOk := rfl
@[simp] theorem advance_variant (s : State) (t : TRef) : (advance s t).variant = s.variant := rfl
@[simp] theorem advance_enabled (s : State) (t : TRef) : (advance s t).enabled = s.enabled := rfl
@[simp] theorem advance_quadMap (s : State) (t : TRef) : (advance s t).quadMap = s.quadMap := rfl
@[simp] theorem advance_remap (s : State) (t : TRef) : (advance s t).remap = s.remap := rfl
@[simp] theorem advance_failedQuads (s : State) (t : TRef) : (advance s t).failedQuads = s.failedQuads := rfl
@[simp] theorem advance_failedRouters (s : State) (t : TRef) : (advance s t).failedRouters = s.failedRouters := rfl
@[simp] theorem advance_blocks (s : State) (t : TRef) : (advance s t).blocks = s.blocks := rfl
@[simp] theorem advance_launches (s : State) (t : TRef) : (advance s t).launches = s.launches := rfl
@[simp] theorem advance_templates (s : State) (t : TRef) : (advance s t).templates = s.templates := rfl
@[simp] theorem advance_parts (s : State) (t : TRef) : (advance s t).parts = s.parts := rfl
@[simp] theorem advance_reservations (s : State) (t : TRef) : (advance s t).reservations = s.reservations := rfl
@[simp] theorem advance_backoffs (s : State) (t : TRef) : (advance s t).backoffs = s.backoffs := rfl
@[simp] theorem advance_images (s : State) (t : TRef) : (advance s t).images = s.images := rfl
@[simp] theorem advance_fills (s : State) (t : TRef) : (advance s t).fills = s.fills := rfl
@[simp] theorem advance_cores (s : State) (t : TRef) : (advance s t).cores = s.cores := rfl
@[simp] theorem advance_raster (s : State) (t : TRef) : (advance s t).raster = s.raster := rfl
@[simp] theorem advance_csm (s : State) (t : TRef) : (advance s t).csm = s.csm := rfl
@[simp] theorem advance_raceLines (s : State) (t : TRef) : (advance s t).raceLines = s.raceLines := rfl
@[simp] theorem advance_mem (s : State) (t : TRef) : (advance s t).mem = s.mem := rfl
@[simp] theorem advance_tlb (s : State) (t : TRef) : (advance s t).tlb = s.tlb := rfl
@[simp] theorem advance_asidOwner (s : State) (t : TRef) : (advance s t).asidOwner = s.asidOwner := rfl
@[simp] theorem advance_pageFaults (s : State) (t : TRef) : (advance s t).pageFaults = s.pageFaults := rfl
@[simp] theorem advance_loads (s : State) (t : TRef) : (advance s t).loads = s.loads := rfl
@[simp] theorem advance_stores (s : State) (t : TRef) : (advance s t).stores = s.stores := rfl
@[simp] theorem advance_wbs (s : State) (t : TRef) : (advance s t).wbs = s.wbs := rfl
@[simp] theorem advance_retired (s : State) (t : TRef) : (advance s t).retired = s.retired := rfl
@[simp] theorem advance_closed (s : State) (t : TRef) : (advance s t).closed = s.closed := rfl
@[simp] theorem advance_bad (s : State) (t : TRef) : (advance s t).bad = s.bad := rfl
@[simp] theorem advance_atBase (s : State) (t : TRef) : (advance s t).atBase = s.atBase := rfl
@[simp] theorem advance_ctxs (s : State) (t : TRef) : (advance s t).ctxs = s.ctxs := rfl
@[simp] theorem advance_failedEngines (s : State) (t : TRef) : (advance s t).failedEngines = s.failedEngines := rfl
@[simp] theorem advance_beams (s : State) (t : TRef) : (advance s t).beams = s.beams := rfl
@[simp] theorem advance_messages (s : State) (t : TRef) : (advance s t).messages = s.messages := rfl
@[simp] theorem advance_peers (s : State) (t : TRef) : (advance s t).peers = s.peers := rfl
@[simp] theorem advance_failedPorts (s : State) (t : TRef) : (advance s t).failedPorts = s.failedPorts := rfl
@[simp] theorem advance_peerHolds (s : State) (t : TRef) : (advance s t).peerHolds = s.peerHolds := rfl
@[simp] theorem advance_measure (s : State) (t : TRef) : (advance s t).measure = s.measure := rfl
@[simp] theorem advance_mailbox (s : State) (t : TRef) : (advance s t).mailbox = s.mailbox := rfl
@[simp] theorem advance_missed (s : State) (t : TRef) : (advance s t).missed = s.missed := rfl
@[simp] theorem advance_sextantOf (s : State) (t : TRef) : (advance s t).sextantOf = s.sextantOf := rfl
@[simp] theorem advance_spareUsed (s : State) (t : TRef) : (advance s t).spareUsed = s.spareUsed := rfl
@[simp] theorem advance_health (s : State) (t : TRef) : (advance s t).health = s.health := rfl
@[simp] theorem advance_resent (s : State) (t : TRef) : (advance s t).resent = s.resent := rfl

/-! ### setPc -/

@[simp] theorem setPc_agenda (s : State) (t : TRef) (pc : BitVec 64) : (setPc s t pc).agenda = s.agenda := rfl
@[simp] theorem setPc_cur (s : State) (t : TRef) (pc : BitVec 64) : (setPc s t pc).cur = s.cur := rfl
@[simp] theorem setPc_forced (s : State) (t : TRef) (pc : BitVec 64) : (setPc s t pc).forced = s.forced := rfl
@[simp] theorem setPc_turn (s : State) (t : TRef) (pc : BitVec 64) : (setPc s t pc).turn = s.turn := rfl
@[simp] theorem setPc_free (s : State) (t : TRef) (pc : BitVec 64) : (setPc s t pc).free = s.free := rfl
@[simp] theorem setPc_seq (s : State) (t : TRef) (pc : BitVec 64) : (setPc s t pc).seq = s.seq := rfl
@[simp] theorem setPc_nextBlock (s : State) (t : TRef) (pc : BitVec 64) : (setPc s t pc).nextBlock = s.nextBlock := rfl
@[simp] theorem setPc_nextTpl (s : State) (t : TRef) (pc : BitVec 64) : (setPc s t pc).nextTpl = s.nextTpl := rfl
@[simp] theorem setPc_nextFault (s : State) (t : TRef) (pc : BitVec 64) : (setPc s t pc).nextFault = s.nextFault := rfl
@[simp] theorem setPc_nextMsg (s : State) (t : TRef) (pc : BitVec 64) : (setPc s t pc).nextMsg = s.nextMsg := rfl
@[simp] theorem setPc_cycle (s : State) (t : TRef) (pc : BitVec 64) : (setPc s t pc).cycle = s.cycle := rfl
@[simp] theorem setPc_tick (s : State) (t : TRef) (pc : BitVec 64) : (setPc s t pc).tick = s.tick := rfl
@[simp] theorem setPc_tickAcc (s : State) (t : TRef) (pc : BitVec 64) : (setPc s t pc).tickAcc = s.tickAcc := rfl
@[simp] theorem setPc_clockMHz (s : State) (t : TRef) (pc : BitVec 64) : (setPc s t pc).clockMHz = s.clockMHz := rfl
@[simp] theorem setPc_powerLimit (s : State) (t : TRef) (pc : BitVec 64) : (setPc s t pc).powerLimit = s.powerLimit := rfl
@[simp] theorem setPc_draw (s : State) (t : TRef) (pc : BitVec 64) : (setPc s t pc).draw = s.draw := rfl
@[simp] theorem setPc_ptmSlew (s : State) (t : TRef) (pc : BitVec 64) : (setPc s t pc).ptmSlew = s.ptmSlew := rfl
@[simp] theorem setPc_ptmCount (s : State) (t : TRef) (pc : BitVec 64) : (setPc s t pc).ptmCount = s.ptmCount := rfl
@[simp] theorem setPc_linkUp (s : State) (t : TRef) (pc : BitVec 64) : (setPc s t pc).linkUp = s.linkUp := rfl
@[simp] theorem setPc_booted (s : State) (t : TRef) (pc : BitVec 64) : (setPc s t pc).booted = s.booted := rfl
@[simp] theorem setPc_bootOk (s : State) (t : TRef) (pc : BitVec 64) : (setPc s t pc).bootOk = s.bootOk := rfl
@[simp] theorem setPc_variant (s : State) (t : TRef) (pc : BitVec 64) : (setPc s t pc).variant = s.variant := rfl
@[simp] theorem setPc_enabled (s : State) (t : TRef) (pc : BitVec 64) : (setPc s t pc).enabled = s.enabled := rfl
@[simp] theorem setPc_quadMap (s : State) (t : TRef) (pc : BitVec 64) : (setPc s t pc).quadMap = s.quadMap := rfl
@[simp] theorem setPc_remap (s : State) (t : TRef) (pc : BitVec 64) : (setPc s t pc).remap = s.remap := rfl
@[simp] theorem setPc_failedQuads (s : State) (t : TRef) (pc : BitVec 64) : (setPc s t pc).failedQuads = s.failedQuads := rfl
@[simp] theorem setPc_failedRouters (s : State) (t : TRef) (pc : BitVec 64) : (setPc s t pc).failedRouters = s.failedRouters := rfl
@[simp] theorem setPc_blocks (s : State) (t : TRef) (pc : BitVec 64) : (setPc s t pc).blocks = s.blocks := rfl
@[simp] theorem setPc_launches (s : State) (t : TRef) (pc : BitVec 64) : (setPc s t pc).launches = s.launches := rfl
@[simp] theorem setPc_templates (s : State) (t : TRef) (pc : BitVec 64) : (setPc s t pc).templates = s.templates := rfl
@[simp] theorem setPc_parts (s : State) (t : TRef) (pc : BitVec 64) : (setPc s t pc).parts = s.parts := rfl
@[simp] theorem setPc_reservations (s : State) (t : TRef) (pc : BitVec 64) : (setPc s t pc).reservations = s.reservations := rfl
@[simp] theorem setPc_backoffs (s : State) (t : TRef) (pc : BitVec 64) : (setPc s t pc).backoffs = s.backoffs := rfl
@[simp] theorem setPc_images (s : State) (t : TRef) (pc : BitVec 64) : (setPc s t pc).images = s.images := rfl
@[simp] theorem setPc_fills (s : State) (t : TRef) (pc : BitVec 64) : (setPc s t pc).fills = s.fills := rfl
@[simp] theorem setPc_cores (s : State) (t : TRef) (pc : BitVec 64) : (setPc s t pc).cores = s.cores := rfl
@[simp] theorem setPc_raster (s : State) (t : TRef) (pc : BitVec 64) : (setPc s t pc).raster = s.raster := rfl
@[simp] theorem setPc_csm (s : State) (t : TRef) (pc : BitVec 64) : (setPc s t pc).csm = s.csm := rfl
@[simp] theorem setPc_raceLines (s : State) (t : TRef) (pc : BitVec 64) : (setPc s t pc).raceLines = s.raceLines := rfl
@[simp] theorem setPc_mem (s : State) (t : TRef) (pc : BitVec 64) : (setPc s t pc).mem = s.mem := rfl
@[simp] theorem setPc_tlb (s : State) (t : TRef) (pc : BitVec 64) : (setPc s t pc).tlb = s.tlb := rfl
@[simp] theorem setPc_asidOwner (s : State) (t : TRef) (pc : BitVec 64) : (setPc s t pc).asidOwner = s.asidOwner := rfl
@[simp] theorem setPc_pageFaults (s : State) (t : TRef) (pc : BitVec 64) : (setPc s t pc).pageFaults = s.pageFaults := rfl
@[simp] theorem setPc_loads (s : State) (t : TRef) (pc : BitVec 64) : (setPc s t pc).loads = s.loads := rfl
@[simp] theorem setPc_stores (s : State) (t : TRef) (pc : BitVec 64) : (setPc s t pc).stores = s.stores := rfl
@[simp] theorem setPc_wbs (s : State) (t : TRef) (pc : BitVec 64) : (setPc s t pc).wbs = s.wbs := rfl
@[simp] theorem setPc_retired (s : State) (t : TRef) (pc : BitVec 64) : (setPc s t pc).retired = s.retired := rfl
@[simp] theorem setPc_closed (s : State) (t : TRef) (pc : BitVec 64) : (setPc s t pc).closed = s.closed := rfl
@[simp] theorem setPc_bad (s : State) (t : TRef) (pc : BitVec 64) : (setPc s t pc).bad = s.bad := rfl
@[simp] theorem setPc_atBase (s : State) (t : TRef) (pc : BitVec 64) : (setPc s t pc).atBase = s.atBase := rfl
@[simp] theorem setPc_ctxs (s : State) (t : TRef) (pc : BitVec 64) : (setPc s t pc).ctxs = s.ctxs := rfl
@[simp] theorem setPc_failedEngines (s : State) (t : TRef) (pc : BitVec 64) : (setPc s t pc).failedEngines = s.failedEngines := rfl
@[simp] theorem setPc_beams (s : State) (t : TRef) (pc : BitVec 64) : (setPc s t pc).beams = s.beams := rfl
@[simp] theorem setPc_messages (s : State) (t : TRef) (pc : BitVec 64) : (setPc s t pc).messages = s.messages := rfl
@[simp] theorem setPc_peers (s : State) (t : TRef) (pc : BitVec 64) : (setPc s t pc).peers = s.peers := rfl
@[simp] theorem setPc_failedPorts (s : State) (t : TRef) (pc : BitVec 64) : (setPc s t pc).failedPorts = s.failedPorts := rfl
@[simp] theorem setPc_peerHolds (s : State) (t : TRef) (pc : BitVec 64) : (setPc s t pc).peerHolds = s.peerHolds := rfl
@[simp] theorem setPc_measure (s : State) (t : TRef) (pc : BitVec 64) : (setPc s t pc).measure = s.measure := rfl
@[simp] theorem setPc_mailbox (s : State) (t : TRef) (pc : BitVec 64) : (setPc s t pc).mailbox = s.mailbox := rfl
@[simp] theorem setPc_missed (s : State) (t : TRef) (pc : BitVec 64) : (setPc s t pc).missed = s.missed := rfl
@[simp] theorem setPc_sextantOf (s : State) (t : TRef) (pc : BitVec 64) : (setPc s t pc).sextantOf = s.sextantOf := rfl
@[simp] theorem setPc_spareUsed (s : State) (t : TRef) (pc : BitVec 64) : (setPc s t pc).spareUsed = s.spareUsed := rfl
@[simp] theorem setPc_health (s : State) (t : TRef) (pc : BitVec 64) : (setPc s t pc).health = s.health := rfl
@[simp] theorem setPc_resent (s : State) (t : TRef) (pc : BitVec 64) : (setPc s t pc).resent = s.resent := rfl

/-! ### setWait -/

@[simp] theorem setWait_agenda (s : State) (t : TRef) (w : Wait) : (setWait s t w).agenda = s.agenda := rfl
@[simp] theorem setWait_cur (s : State) (t : TRef) (w : Wait) : (setWait s t w).cur = s.cur := rfl
@[simp] theorem setWait_forced (s : State) (t : TRef) (w : Wait) : (setWait s t w).forced = s.forced := rfl
@[simp] theorem setWait_turn (s : State) (t : TRef) (w : Wait) : (setWait s t w).turn = s.turn := rfl
@[simp] theorem setWait_free (s : State) (t : TRef) (w : Wait) : (setWait s t w).free = s.free := rfl
@[simp] theorem setWait_seq (s : State) (t : TRef) (w : Wait) : (setWait s t w).seq = s.seq := rfl
@[simp] theorem setWait_nextBlock (s : State) (t : TRef) (w : Wait) : (setWait s t w).nextBlock = s.nextBlock := rfl
@[simp] theorem setWait_nextTpl (s : State) (t : TRef) (w : Wait) : (setWait s t w).nextTpl = s.nextTpl := rfl
@[simp] theorem setWait_nextFault (s : State) (t : TRef) (w : Wait) : (setWait s t w).nextFault = s.nextFault := rfl
@[simp] theorem setWait_nextMsg (s : State) (t : TRef) (w : Wait) : (setWait s t w).nextMsg = s.nextMsg := rfl
@[simp] theorem setWait_cycle (s : State) (t : TRef) (w : Wait) : (setWait s t w).cycle = s.cycle := rfl
@[simp] theorem setWait_tick (s : State) (t : TRef) (w : Wait) : (setWait s t w).tick = s.tick := rfl
@[simp] theorem setWait_tickAcc (s : State) (t : TRef) (w : Wait) : (setWait s t w).tickAcc = s.tickAcc := rfl
@[simp] theorem setWait_clockMHz (s : State) (t : TRef) (w : Wait) : (setWait s t w).clockMHz = s.clockMHz := rfl
@[simp] theorem setWait_powerLimit (s : State) (t : TRef) (w : Wait) : (setWait s t w).powerLimit = s.powerLimit := rfl
@[simp] theorem setWait_draw (s : State) (t : TRef) (w : Wait) : (setWait s t w).draw = s.draw := rfl
@[simp] theorem setWait_ptmSlew (s : State) (t : TRef) (w : Wait) : (setWait s t w).ptmSlew = s.ptmSlew := rfl
@[simp] theorem setWait_ptmCount (s : State) (t : TRef) (w : Wait) : (setWait s t w).ptmCount = s.ptmCount := rfl
@[simp] theorem setWait_linkUp (s : State) (t : TRef) (w : Wait) : (setWait s t w).linkUp = s.linkUp := rfl
@[simp] theorem setWait_booted (s : State) (t : TRef) (w : Wait) : (setWait s t w).booted = s.booted := rfl
@[simp] theorem setWait_bootOk (s : State) (t : TRef) (w : Wait) : (setWait s t w).bootOk = s.bootOk := rfl
@[simp] theorem setWait_variant (s : State) (t : TRef) (w : Wait) : (setWait s t w).variant = s.variant := rfl
@[simp] theorem setWait_enabled (s : State) (t : TRef) (w : Wait) : (setWait s t w).enabled = s.enabled := rfl
@[simp] theorem setWait_quadMap (s : State) (t : TRef) (w : Wait) : (setWait s t w).quadMap = s.quadMap := rfl
@[simp] theorem setWait_remap (s : State) (t : TRef) (w : Wait) : (setWait s t w).remap = s.remap := rfl
@[simp] theorem setWait_failedQuads (s : State) (t : TRef) (w : Wait) : (setWait s t w).failedQuads = s.failedQuads := rfl
@[simp] theorem setWait_failedRouters (s : State) (t : TRef) (w : Wait) : (setWait s t w).failedRouters = s.failedRouters := rfl
@[simp] theorem setWait_blocks (s : State) (t : TRef) (w : Wait) : (setWait s t w).blocks = s.blocks := rfl
@[simp] theorem setWait_launches (s : State) (t : TRef) (w : Wait) : (setWait s t w).launches = s.launches := rfl
@[simp] theorem setWait_templates (s : State) (t : TRef) (w : Wait) : (setWait s t w).templates = s.templates := rfl
@[simp] theorem setWait_parts (s : State) (t : TRef) (w : Wait) : (setWait s t w).parts = s.parts := rfl
@[simp] theorem setWait_reservations (s : State) (t : TRef) (w : Wait) : (setWait s t w).reservations = s.reservations := rfl
@[simp] theorem setWait_backoffs (s : State) (t : TRef) (w : Wait) : (setWait s t w).backoffs = s.backoffs := rfl
@[simp] theorem setWait_images (s : State) (t : TRef) (w : Wait) : (setWait s t w).images = s.images := rfl
@[simp] theorem setWait_fills (s : State) (t : TRef) (w : Wait) : (setWait s t w).fills = s.fills := rfl
@[simp] theorem setWait_cores (s : State) (t : TRef) (w : Wait) : (setWait s t w).cores = s.cores := rfl
@[simp] theorem setWait_raster (s : State) (t : TRef) (w : Wait) : (setWait s t w).raster = s.raster := rfl
@[simp] theorem setWait_csm (s : State) (t : TRef) (w : Wait) : (setWait s t w).csm = s.csm := rfl
@[simp] theorem setWait_raceLines (s : State) (t : TRef) (w : Wait) : (setWait s t w).raceLines = s.raceLines := rfl
@[simp] theorem setWait_mem (s : State) (t : TRef) (w : Wait) : (setWait s t w).mem = s.mem := rfl
@[simp] theorem setWait_tlb (s : State) (t : TRef) (w : Wait) : (setWait s t w).tlb = s.tlb := rfl
@[simp] theorem setWait_asidOwner (s : State) (t : TRef) (w : Wait) : (setWait s t w).asidOwner = s.asidOwner := rfl
@[simp] theorem setWait_pageFaults (s : State) (t : TRef) (w : Wait) : (setWait s t w).pageFaults = s.pageFaults := rfl
@[simp] theorem setWait_loads (s : State) (t : TRef) (w : Wait) : (setWait s t w).loads = s.loads := rfl
@[simp] theorem setWait_stores (s : State) (t : TRef) (w : Wait) : (setWait s t w).stores = s.stores := rfl
@[simp] theorem setWait_wbs (s : State) (t : TRef) (w : Wait) : (setWait s t w).wbs = s.wbs := rfl
@[simp] theorem setWait_retired (s : State) (t : TRef) (w : Wait) : (setWait s t w).retired = s.retired := rfl
@[simp] theorem setWait_closed (s : State) (t : TRef) (w : Wait) : (setWait s t w).closed = s.closed := rfl
@[simp] theorem setWait_bad (s : State) (t : TRef) (w : Wait) : (setWait s t w).bad = s.bad := rfl
@[simp] theorem setWait_atBase (s : State) (t : TRef) (w : Wait) : (setWait s t w).atBase = s.atBase := rfl
@[simp] theorem setWait_ctxs (s : State) (t : TRef) (w : Wait) : (setWait s t w).ctxs = s.ctxs := rfl
@[simp] theorem setWait_failedEngines (s : State) (t : TRef) (w : Wait) : (setWait s t w).failedEngines = s.failedEngines := rfl
@[simp] theorem setWait_beams (s : State) (t : TRef) (w : Wait) : (setWait s t w).beams = s.beams := rfl
@[simp] theorem setWait_messages (s : State) (t : TRef) (w : Wait) : (setWait s t w).messages = s.messages := rfl
@[simp] theorem setWait_peers (s : State) (t : TRef) (w : Wait) : (setWait s t w).peers = s.peers := rfl
@[simp] theorem setWait_failedPorts (s : State) (t : TRef) (w : Wait) : (setWait s t w).failedPorts = s.failedPorts := rfl
@[simp] theorem setWait_peerHolds (s : State) (t : TRef) (w : Wait) : (setWait s t w).peerHolds = s.peerHolds := rfl
@[simp] theorem setWait_measure (s : State) (t : TRef) (w : Wait) : (setWait s t w).measure = s.measure := rfl
@[simp] theorem setWait_mailbox (s : State) (t : TRef) (w : Wait) : (setWait s t w).mailbox = s.mailbox := rfl
@[simp] theorem setWait_missed (s : State) (t : TRef) (w : Wait) : (setWait s t w).missed = s.missed := rfl
@[simp] theorem setWait_sextantOf (s : State) (t : TRef) (w : Wait) : (setWait s t w).sextantOf = s.sextantOf := rfl
@[simp] theorem setWait_spareUsed (s : State) (t : TRef) (w : Wait) : (setWait s t w).spareUsed = s.spareUsed := rfl
@[simp] theorem setWait_health (s : State) (t : TRef) (w : Wait) : (setWait s t w).health = s.health := rfl
@[simp] theorem setWait_resent (s : State) (t : TRef) (w : Wait) : (setWait s t w).resent = s.resent := rfl

/-! ### clearWait -/

@[simp] theorem clearWait_agenda (s : State) (t : TRef) : (clearWait s t).agenda = s.agenda := rfl
@[simp] theorem clearWait_cur (s : State) (t : TRef) : (clearWait s t).cur = s.cur := rfl
@[simp] theorem clearWait_forced (s : State) (t : TRef) : (clearWait s t).forced = s.forced := rfl
@[simp] theorem clearWait_turn (s : State) (t : TRef) : (clearWait s t).turn = s.turn := rfl
@[simp] theorem clearWait_free (s : State) (t : TRef) : (clearWait s t).free = s.free := rfl
@[simp] theorem clearWait_seq (s : State) (t : TRef) : (clearWait s t).seq = s.seq := rfl
@[simp] theorem clearWait_nextBlock (s : State) (t : TRef) : (clearWait s t).nextBlock = s.nextBlock := rfl
@[simp] theorem clearWait_nextTpl (s : State) (t : TRef) : (clearWait s t).nextTpl = s.nextTpl := rfl
@[simp] theorem clearWait_nextFault (s : State) (t : TRef) : (clearWait s t).nextFault = s.nextFault := rfl
@[simp] theorem clearWait_nextMsg (s : State) (t : TRef) : (clearWait s t).nextMsg = s.nextMsg := rfl
@[simp] theorem clearWait_cycle (s : State) (t : TRef) : (clearWait s t).cycle = s.cycle := rfl
@[simp] theorem clearWait_tick (s : State) (t : TRef) : (clearWait s t).tick = s.tick := rfl
@[simp] theorem clearWait_tickAcc (s : State) (t : TRef) : (clearWait s t).tickAcc = s.tickAcc := rfl
@[simp] theorem clearWait_clockMHz (s : State) (t : TRef) : (clearWait s t).clockMHz = s.clockMHz := rfl
@[simp] theorem clearWait_powerLimit (s : State) (t : TRef) : (clearWait s t).powerLimit = s.powerLimit := rfl
@[simp] theorem clearWait_draw (s : State) (t : TRef) : (clearWait s t).draw = s.draw := rfl
@[simp] theorem clearWait_ptmSlew (s : State) (t : TRef) : (clearWait s t).ptmSlew = s.ptmSlew := rfl
@[simp] theorem clearWait_ptmCount (s : State) (t : TRef) : (clearWait s t).ptmCount = s.ptmCount := rfl
@[simp] theorem clearWait_linkUp (s : State) (t : TRef) : (clearWait s t).linkUp = s.linkUp := rfl
@[simp] theorem clearWait_booted (s : State) (t : TRef) : (clearWait s t).booted = s.booted := rfl
@[simp] theorem clearWait_bootOk (s : State) (t : TRef) : (clearWait s t).bootOk = s.bootOk := rfl
@[simp] theorem clearWait_variant (s : State) (t : TRef) : (clearWait s t).variant = s.variant := rfl
@[simp] theorem clearWait_enabled (s : State) (t : TRef) : (clearWait s t).enabled = s.enabled := rfl
@[simp] theorem clearWait_quadMap (s : State) (t : TRef) : (clearWait s t).quadMap = s.quadMap := rfl
@[simp] theorem clearWait_remap (s : State) (t : TRef) : (clearWait s t).remap = s.remap := rfl
@[simp] theorem clearWait_failedQuads (s : State) (t : TRef) : (clearWait s t).failedQuads = s.failedQuads := rfl
@[simp] theorem clearWait_failedRouters (s : State) (t : TRef) : (clearWait s t).failedRouters = s.failedRouters := rfl
@[simp] theorem clearWait_blocks (s : State) (t : TRef) : (clearWait s t).blocks = s.blocks := rfl
@[simp] theorem clearWait_launches (s : State) (t : TRef) : (clearWait s t).launches = s.launches := rfl
@[simp] theorem clearWait_templates (s : State) (t : TRef) : (clearWait s t).templates = s.templates := rfl
@[simp] theorem clearWait_parts (s : State) (t : TRef) : (clearWait s t).parts = s.parts := rfl
@[simp] theorem clearWait_reservations (s : State) (t : TRef) : (clearWait s t).reservations = s.reservations := rfl
@[simp] theorem clearWait_backoffs (s : State) (t : TRef) : (clearWait s t).backoffs = s.backoffs := rfl
@[simp] theorem clearWait_images (s : State) (t : TRef) : (clearWait s t).images = s.images := rfl
@[simp] theorem clearWait_fills (s : State) (t : TRef) : (clearWait s t).fills = s.fills := rfl
@[simp] theorem clearWait_cores (s : State) (t : TRef) : (clearWait s t).cores = s.cores := rfl
@[simp] theorem clearWait_raster (s : State) (t : TRef) : (clearWait s t).raster = s.raster := rfl
@[simp] theorem clearWait_csm (s : State) (t : TRef) : (clearWait s t).csm = s.csm := rfl
@[simp] theorem clearWait_raceLines (s : State) (t : TRef) : (clearWait s t).raceLines = s.raceLines := rfl
@[simp] theorem clearWait_mem (s : State) (t : TRef) : (clearWait s t).mem = s.mem := rfl
@[simp] theorem clearWait_tlb (s : State) (t : TRef) : (clearWait s t).tlb = s.tlb := rfl
@[simp] theorem clearWait_asidOwner (s : State) (t : TRef) : (clearWait s t).asidOwner = s.asidOwner := rfl
@[simp] theorem clearWait_pageFaults (s : State) (t : TRef) : (clearWait s t).pageFaults = s.pageFaults := rfl
@[simp] theorem clearWait_loads (s : State) (t : TRef) : (clearWait s t).loads = s.loads := rfl
@[simp] theorem clearWait_stores (s : State) (t : TRef) : (clearWait s t).stores = s.stores := rfl
@[simp] theorem clearWait_wbs (s : State) (t : TRef) : (clearWait s t).wbs = s.wbs := rfl
@[simp] theorem clearWait_retired (s : State) (t : TRef) : (clearWait s t).retired = s.retired := rfl
@[simp] theorem clearWait_closed (s : State) (t : TRef) : (clearWait s t).closed = s.closed := rfl
@[simp] theorem clearWait_bad (s : State) (t : TRef) : (clearWait s t).bad = s.bad := rfl
@[simp] theorem clearWait_atBase (s : State) (t : TRef) : (clearWait s t).atBase = s.atBase := rfl
@[simp] theorem clearWait_ctxs (s : State) (t : TRef) : (clearWait s t).ctxs = s.ctxs := rfl
@[simp] theorem clearWait_failedEngines (s : State) (t : TRef) : (clearWait s t).failedEngines = s.failedEngines := rfl
@[simp] theorem clearWait_beams (s : State) (t : TRef) : (clearWait s t).beams = s.beams := rfl
@[simp] theorem clearWait_messages (s : State) (t : TRef) : (clearWait s t).messages = s.messages := rfl
@[simp] theorem clearWait_peers (s : State) (t : TRef) : (clearWait s t).peers = s.peers := rfl
@[simp] theorem clearWait_failedPorts (s : State) (t : TRef) : (clearWait s t).failedPorts = s.failedPorts := rfl
@[simp] theorem clearWait_peerHolds (s : State) (t : TRef) : (clearWait s t).peerHolds = s.peerHolds := rfl
@[simp] theorem clearWait_measure (s : State) (t : TRef) : (clearWait s t).measure = s.measure := rfl
@[simp] theorem clearWait_mailbox (s : State) (t : TRef) : (clearWait s t).mailbox = s.mailbox := rfl
@[simp] theorem clearWait_missed (s : State) (t : TRef) : (clearWait s t).missed = s.missed := rfl
@[simp] theorem clearWait_sextantOf (s : State) (t : TRef) : (clearWait s t).sextantOf = s.sextantOf := rfl
@[simp] theorem clearWait_spareUsed (s : State) (t : TRef) : (clearWait s t).spareUsed = s.spareUsed := rfl
@[simp] theorem clearWait_health (s : State) (t : TRef) : (clearWait s t).health = s.health := rfl
@[simp] theorem clearWait_resent (s : State) (t : TRef) : (clearWait s t).resent = s.resent := rfl

/-! ### setC -/

@[simp] theorem setC_agenda (s : State) (t : TRef) (n : Nat) (b : Bool) : (setC s t n b).agenda = s.agenda := rfl
@[simp] theorem setC_cur (s : State) (t : TRef) (n : Nat) (b : Bool) : (setC s t n b).cur = s.cur := rfl
@[simp] theorem setC_forced (s : State) (t : TRef) (n : Nat) (b : Bool) : (setC s t n b).forced = s.forced := rfl
@[simp] theorem setC_turn (s : State) (t : TRef) (n : Nat) (b : Bool) : (setC s t n b).turn = s.turn := rfl
@[simp] theorem setC_free (s : State) (t : TRef) (n : Nat) (b : Bool) : (setC s t n b).free = s.free := rfl
@[simp] theorem setC_seq (s : State) (t : TRef) (n : Nat) (b : Bool) : (setC s t n b).seq = s.seq := rfl
@[simp] theorem setC_nextBlock (s : State) (t : TRef) (n : Nat) (b : Bool) : (setC s t n b).nextBlock = s.nextBlock := rfl
@[simp] theorem setC_nextTpl (s : State) (t : TRef) (n : Nat) (b : Bool) : (setC s t n b).nextTpl = s.nextTpl := rfl
@[simp] theorem setC_nextFault (s : State) (t : TRef) (n : Nat) (b : Bool) : (setC s t n b).nextFault = s.nextFault := rfl
@[simp] theorem setC_nextMsg (s : State) (t : TRef) (n : Nat) (b : Bool) : (setC s t n b).nextMsg = s.nextMsg := rfl
@[simp] theorem setC_cycle (s : State) (t : TRef) (n : Nat) (b : Bool) : (setC s t n b).cycle = s.cycle := rfl
@[simp] theorem setC_tick (s : State) (t : TRef) (n : Nat) (b : Bool) : (setC s t n b).tick = s.tick := rfl
@[simp] theorem setC_tickAcc (s : State) (t : TRef) (n : Nat) (b : Bool) : (setC s t n b).tickAcc = s.tickAcc := rfl
@[simp] theorem setC_clockMHz (s : State) (t : TRef) (n : Nat) (b : Bool) : (setC s t n b).clockMHz = s.clockMHz := rfl
@[simp] theorem setC_powerLimit (s : State) (t : TRef) (n : Nat) (b : Bool) : (setC s t n b).powerLimit = s.powerLimit := rfl
@[simp] theorem setC_draw (s : State) (t : TRef) (n : Nat) (b : Bool) : (setC s t n b).draw = s.draw := rfl
@[simp] theorem setC_ptmSlew (s : State) (t : TRef) (n : Nat) (b : Bool) : (setC s t n b).ptmSlew = s.ptmSlew := rfl
@[simp] theorem setC_ptmCount (s : State) (t : TRef) (n : Nat) (b : Bool) : (setC s t n b).ptmCount = s.ptmCount := rfl
@[simp] theorem setC_linkUp (s : State) (t : TRef) (n : Nat) (b : Bool) : (setC s t n b).linkUp = s.linkUp := rfl
@[simp] theorem setC_booted (s : State) (t : TRef) (n : Nat) (b : Bool) : (setC s t n b).booted = s.booted := rfl
@[simp] theorem setC_bootOk (s : State) (t : TRef) (n : Nat) (b : Bool) : (setC s t n b).bootOk = s.bootOk := rfl
@[simp] theorem setC_variant (s : State) (t : TRef) (n : Nat) (b : Bool) : (setC s t n b).variant = s.variant := rfl
@[simp] theorem setC_enabled (s : State) (t : TRef) (n : Nat) (b : Bool) : (setC s t n b).enabled = s.enabled := rfl
@[simp] theorem setC_quadMap (s : State) (t : TRef) (n : Nat) (b : Bool) : (setC s t n b).quadMap = s.quadMap := rfl
@[simp] theorem setC_remap (s : State) (t : TRef) (n : Nat) (b : Bool) : (setC s t n b).remap = s.remap := rfl
@[simp] theorem setC_failedQuads (s : State) (t : TRef) (n : Nat) (b : Bool) : (setC s t n b).failedQuads = s.failedQuads := rfl
@[simp] theorem setC_failedRouters (s : State) (t : TRef) (n : Nat) (b : Bool) : (setC s t n b).failedRouters = s.failedRouters := rfl
@[simp] theorem setC_blocks (s : State) (t : TRef) (n : Nat) (b : Bool) : (setC s t n b).blocks = s.blocks := rfl
@[simp] theorem setC_launches (s : State) (t : TRef) (n : Nat) (b : Bool) : (setC s t n b).launches = s.launches := rfl
@[simp] theorem setC_templates (s : State) (t : TRef) (n : Nat) (b : Bool) : (setC s t n b).templates = s.templates := rfl
@[simp] theorem setC_parts (s : State) (t : TRef) (n : Nat) (b : Bool) : (setC s t n b).parts = s.parts := rfl
@[simp] theorem setC_reservations (s : State) (t : TRef) (n : Nat) (b : Bool) : (setC s t n b).reservations = s.reservations := rfl
@[simp] theorem setC_backoffs (s : State) (t : TRef) (n : Nat) (b : Bool) : (setC s t n b).backoffs = s.backoffs := rfl
@[simp] theorem setC_images (s : State) (t : TRef) (n : Nat) (b : Bool) : (setC s t n b).images = s.images := rfl
@[simp] theorem setC_fills (s : State) (t : TRef) (n : Nat) (b : Bool) : (setC s t n b).fills = s.fills := rfl
@[simp] theorem setC_cores (s : State) (t : TRef) (n : Nat) (b : Bool) : (setC s t n b).cores = s.cores := rfl
@[simp] theorem setC_raster (s : State) (t : TRef) (n : Nat) (b : Bool) : (setC s t n b).raster = s.raster := rfl
@[simp] theorem setC_csm (s : State) (t : TRef) (n : Nat) (b : Bool) : (setC s t n b).csm = s.csm := rfl
@[simp] theorem setC_raceLines (s : State) (t : TRef) (n : Nat) (b : Bool) : (setC s t n b).raceLines = s.raceLines := rfl
@[simp] theorem setC_mem (s : State) (t : TRef) (n : Nat) (b : Bool) : (setC s t n b).mem = s.mem := rfl
@[simp] theorem setC_tlb (s : State) (t : TRef) (n : Nat) (b : Bool) : (setC s t n b).tlb = s.tlb := rfl
@[simp] theorem setC_asidOwner (s : State) (t : TRef) (n : Nat) (b : Bool) : (setC s t n b).asidOwner = s.asidOwner := rfl
@[simp] theorem setC_pageFaults (s : State) (t : TRef) (n : Nat) (b : Bool) : (setC s t n b).pageFaults = s.pageFaults := rfl
@[simp] theorem setC_loads (s : State) (t : TRef) (n : Nat) (b : Bool) : (setC s t n b).loads = s.loads := rfl
@[simp] theorem setC_stores (s : State) (t : TRef) (n : Nat) (b : Bool) : (setC s t n b).stores = s.stores := rfl
@[simp] theorem setC_wbs (s : State) (t : TRef) (n : Nat) (b : Bool) : (setC s t n b).wbs = s.wbs := rfl
@[simp] theorem setC_retired (s : State) (t : TRef) (n : Nat) (b : Bool) : (setC s t n b).retired = s.retired := rfl
@[simp] theorem setC_closed (s : State) (t : TRef) (n : Nat) (b : Bool) : (setC s t n b).closed = s.closed := rfl
@[simp] theorem setC_bad (s : State) (t : TRef) (n : Nat) (b : Bool) : (setC s t n b).bad = s.bad := rfl
@[simp] theorem setC_atBase (s : State) (t : TRef) (n : Nat) (b : Bool) : (setC s t n b).atBase = s.atBase := rfl
@[simp] theorem setC_ctxs (s : State) (t : TRef) (n : Nat) (b : Bool) : (setC s t n b).ctxs = s.ctxs := rfl
@[simp] theorem setC_failedEngines (s : State) (t : TRef) (n : Nat) (b : Bool) : (setC s t n b).failedEngines = s.failedEngines := rfl
@[simp] theorem setC_beams (s : State) (t : TRef) (n : Nat) (b : Bool) : (setC s t n b).beams = s.beams := rfl
@[simp] theorem setC_messages (s : State) (t : TRef) (n : Nat) (b : Bool) : (setC s t n b).messages = s.messages := rfl
@[simp] theorem setC_peers (s : State) (t : TRef) (n : Nat) (b : Bool) : (setC s t n b).peers = s.peers := rfl
@[simp] theorem setC_failedPorts (s : State) (t : TRef) (n : Nat) (b : Bool) : (setC s t n b).failedPorts = s.failedPorts := rfl
@[simp] theorem setC_peerHolds (s : State) (t : TRef) (n : Nat) (b : Bool) : (setC s t n b).peerHolds = s.peerHolds := rfl
@[simp] theorem setC_measure (s : State) (t : TRef) (n : Nat) (b : Bool) : (setC s t n b).measure = s.measure := rfl
@[simp] theorem setC_mailbox (s : State) (t : TRef) (n : Nat) (b : Bool) : (setC s t n b).mailbox = s.mailbox := rfl
@[simp] theorem setC_missed (s : State) (t : TRef) (n : Nat) (b : Bool) : (setC s t n b).missed = s.missed := rfl
@[simp] theorem setC_sextantOf (s : State) (t : TRef) (n : Nat) (b : Bool) : (setC s t n b).sextantOf = s.sextantOf := rfl
@[simp] theorem setC_spareUsed (s : State) (t : TRef) (n : Nat) (b : Bool) : (setC s t n b).spareUsed = s.spareUsed := rfl
@[simp] theorem setC_health (s : State) (t : TRef) (n : Nat) (b : Bool) : (setC s t n b).health = s.health := rfl
@[simp] theorem setC_resent (s : State) (t : TRef) (n : Nat) (b : Bool) : (setC s t n b).resent = s.resent := rfl

/-! ### setV -/

@[simp] theorem setV_agenda (s : State) (t : TRef) (n : Nat) (v : Word) : (setV s t n v).agenda = s.agenda := rfl
@[simp] theorem setV_cur (s : State) (t : TRef) (n : Nat) (v : Word) : (setV s t n v).cur = s.cur := rfl
@[simp] theorem setV_forced (s : State) (t : TRef) (n : Nat) (v : Word) : (setV s t n v).forced = s.forced := rfl
@[simp] theorem setV_turn (s : State) (t : TRef) (n : Nat) (v : Word) : (setV s t n v).turn = s.turn := rfl
@[simp] theorem setV_free (s : State) (t : TRef) (n : Nat) (v : Word) : (setV s t n v).free = s.free := rfl
@[simp] theorem setV_seq (s : State) (t : TRef) (n : Nat) (v : Word) : (setV s t n v).seq = s.seq := rfl
@[simp] theorem setV_nextBlock (s : State) (t : TRef) (n : Nat) (v : Word) : (setV s t n v).nextBlock = s.nextBlock := rfl
@[simp] theorem setV_nextTpl (s : State) (t : TRef) (n : Nat) (v : Word) : (setV s t n v).nextTpl = s.nextTpl := rfl
@[simp] theorem setV_nextFault (s : State) (t : TRef) (n : Nat) (v : Word) : (setV s t n v).nextFault = s.nextFault := rfl
@[simp] theorem setV_nextMsg (s : State) (t : TRef) (n : Nat) (v : Word) : (setV s t n v).nextMsg = s.nextMsg := rfl
@[simp] theorem setV_cycle (s : State) (t : TRef) (n : Nat) (v : Word) : (setV s t n v).cycle = s.cycle := rfl
@[simp] theorem setV_tick (s : State) (t : TRef) (n : Nat) (v : Word) : (setV s t n v).tick = s.tick := rfl
@[simp] theorem setV_tickAcc (s : State) (t : TRef) (n : Nat) (v : Word) : (setV s t n v).tickAcc = s.tickAcc := rfl
@[simp] theorem setV_clockMHz (s : State) (t : TRef) (n : Nat) (v : Word) : (setV s t n v).clockMHz = s.clockMHz := rfl
@[simp] theorem setV_powerLimit (s : State) (t : TRef) (n : Nat) (v : Word) : (setV s t n v).powerLimit = s.powerLimit := rfl
@[simp] theorem setV_draw (s : State) (t : TRef) (n : Nat) (v : Word) : (setV s t n v).draw = s.draw := rfl
@[simp] theorem setV_ptmSlew (s : State) (t : TRef) (n : Nat) (v : Word) : (setV s t n v).ptmSlew = s.ptmSlew := rfl
@[simp] theorem setV_ptmCount (s : State) (t : TRef) (n : Nat) (v : Word) : (setV s t n v).ptmCount = s.ptmCount := rfl
@[simp] theorem setV_linkUp (s : State) (t : TRef) (n : Nat) (v : Word) : (setV s t n v).linkUp = s.linkUp := rfl
@[simp] theorem setV_booted (s : State) (t : TRef) (n : Nat) (v : Word) : (setV s t n v).booted = s.booted := rfl
@[simp] theorem setV_bootOk (s : State) (t : TRef) (n : Nat) (v : Word) : (setV s t n v).bootOk = s.bootOk := rfl
@[simp] theorem setV_variant (s : State) (t : TRef) (n : Nat) (v : Word) : (setV s t n v).variant = s.variant := rfl
@[simp] theorem setV_enabled (s : State) (t : TRef) (n : Nat) (v : Word) : (setV s t n v).enabled = s.enabled := rfl
@[simp] theorem setV_quadMap (s : State) (t : TRef) (n : Nat) (v : Word) : (setV s t n v).quadMap = s.quadMap := rfl
@[simp] theorem setV_remap (s : State) (t : TRef) (n : Nat) (v : Word) : (setV s t n v).remap = s.remap := rfl
@[simp] theorem setV_failedQuads (s : State) (t : TRef) (n : Nat) (v : Word) : (setV s t n v).failedQuads = s.failedQuads := rfl
@[simp] theorem setV_failedRouters (s : State) (t : TRef) (n : Nat) (v : Word) : (setV s t n v).failedRouters = s.failedRouters := rfl
@[simp] theorem setV_blocks (s : State) (t : TRef) (n : Nat) (v : Word) : (setV s t n v).blocks = s.blocks := rfl
@[simp] theorem setV_launches (s : State) (t : TRef) (n : Nat) (v : Word) : (setV s t n v).launches = s.launches := rfl
@[simp] theorem setV_templates (s : State) (t : TRef) (n : Nat) (v : Word) : (setV s t n v).templates = s.templates := rfl
@[simp] theorem setV_parts (s : State) (t : TRef) (n : Nat) (v : Word) : (setV s t n v).parts = s.parts := rfl
@[simp] theorem setV_reservations (s : State) (t : TRef) (n : Nat) (v : Word) : (setV s t n v).reservations = s.reservations := rfl
@[simp] theorem setV_backoffs (s : State) (t : TRef) (n : Nat) (v : Word) : (setV s t n v).backoffs = s.backoffs := rfl
@[simp] theorem setV_images (s : State) (t : TRef) (n : Nat) (v : Word) : (setV s t n v).images = s.images := rfl
@[simp] theorem setV_fills (s : State) (t : TRef) (n : Nat) (v : Word) : (setV s t n v).fills = s.fills := rfl
@[simp] theorem setV_cores (s : State) (t : TRef) (n : Nat) (v : Word) : (setV s t n v).cores = s.cores := rfl
@[simp] theorem setV_raster (s : State) (t : TRef) (n : Nat) (v : Word) : (setV s t n v).raster = s.raster := rfl
@[simp] theorem setV_csm (s : State) (t : TRef) (n : Nat) (v : Word) : (setV s t n v).csm = s.csm := rfl
@[simp] theorem setV_raceLines (s : State) (t : TRef) (n : Nat) (v : Word) : (setV s t n v).raceLines = s.raceLines := rfl
@[simp] theorem setV_mem (s : State) (t : TRef) (n : Nat) (v : Word) : (setV s t n v).mem = s.mem := rfl
@[simp] theorem setV_tlb (s : State) (t : TRef) (n : Nat) (v : Word) : (setV s t n v).tlb = s.tlb := rfl
@[simp] theorem setV_asidOwner (s : State) (t : TRef) (n : Nat) (v : Word) : (setV s t n v).asidOwner = s.asidOwner := rfl
@[simp] theorem setV_pageFaults (s : State) (t : TRef) (n : Nat) (v : Word) : (setV s t n v).pageFaults = s.pageFaults := rfl
@[simp] theorem setV_stores (s : State) (t : TRef) (n : Nat) (v : Word) : (setV s t n v).stores = s.stores := rfl
@[simp] theorem setV_wbs (s : State) (t : TRef) (n : Nat) (v : Word) : (setV s t n v).wbs = s.wbs := rfl
@[simp] theorem setV_retired (s : State) (t : TRef) (n : Nat) (v : Word) : (setV s t n v).retired = s.retired := rfl
@[simp] theorem setV_closed (s : State) (t : TRef) (n : Nat) (v : Word) : (setV s t n v).closed = s.closed := rfl
@[simp] theorem setV_bad (s : State) (t : TRef) (n : Nat) (v : Word) : (setV s t n v).bad = s.bad := rfl
@[simp] theorem setV_atBase (s : State) (t : TRef) (n : Nat) (v : Word) : (setV s t n v).atBase = s.atBase := rfl
@[simp] theorem setV_ctxs (s : State) (t : TRef) (n : Nat) (v : Word) : (setV s t n v).ctxs = s.ctxs := rfl
@[simp] theorem setV_failedEngines (s : State) (t : TRef) (n : Nat) (v : Word) : (setV s t n v).failedEngines = s.failedEngines := rfl
@[simp] theorem setV_beams (s : State) (t : TRef) (n : Nat) (v : Word) : (setV s t n v).beams = s.beams := rfl
@[simp] theorem setV_messages (s : State) (t : TRef) (n : Nat) (v : Word) : (setV s t n v).messages = s.messages := rfl
@[simp] theorem setV_peers (s : State) (t : TRef) (n : Nat) (v : Word) : (setV s t n v).peers = s.peers := rfl
@[simp] theorem setV_failedPorts (s : State) (t : TRef) (n : Nat) (v : Word) : (setV s t n v).failedPorts = s.failedPorts := rfl
@[simp] theorem setV_peerHolds (s : State) (t : TRef) (n : Nat) (v : Word) : (setV s t n v).peerHolds = s.peerHolds := rfl
@[simp] theorem setV_measure (s : State) (t : TRef) (n : Nat) (v : Word) : (setV s t n v).measure = s.measure := rfl
@[simp] theorem setV_mailbox (s : State) (t : TRef) (n : Nat) (v : Word) : (setV s t n v).mailbox = s.mailbox := rfl
@[simp] theorem setV_missed (s : State) (t : TRef) (n : Nat) (v : Word) : (setV s t n v).missed = s.missed := rfl
@[simp] theorem setV_sextantOf (s : State) (t : TRef) (n : Nat) (v : Word) : (setV s t n v).sextantOf = s.sextantOf := rfl
@[simp] theorem setV_spareUsed (s : State) (t : TRef) (n : Nat) (v : Word) : (setV s t n v).spareUsed = s.spareUsed := rfl
@[simp] theorem setV_health (s : State) (t : TRef) (n : Nat) (v : Word) : (setV s t n v).health = s.health := rfl
@[simp] theorem setV_resent (s : State) (t : TRef) (n : Nat) (v : Word) : (setV s t n v).resent = s.resent := rfl

end Sys2Proof.Machine
end

