-- ==== Sys2Proof/Laws/Table.lean ====
section
/-! SUPPORT. Tables: what a read answers after a write, and that writes keep the canonical form. -/

namespace Sys2Proof.Table

variable {α : Type}

theorem find?_put (t : Table α) (i j : Nat) (v : α) :
    find? (put t i v) j = if j = i then some v else find? t j := by
  induction t with
  | nil =>
    by_cases h : j = i
    · subst h; simp [put, find?]
    · have h' : ¬ i = j := fun e => h e.symm
      simp [put, find?, h, h']
  | cons p t ih =>
    obtain ⟨k, w⟩ := p
    simp only [put]
    by_cases hj : j = i
    · subst hj
      by_cases h1 : j < k
      · simp [h1, find?]
      · by_cases h2 : j = k
        · subst h2; simp [find?]
        · have h3 : ¬ k = j := fun e => h2 e.symm
          simp [h1, h2, h3, find?, ih]
    · have hj' : ¬ i = j := fun e => hj e.symm
      by_cases h1 : i < k
      · simp [h1, find?, hj, hj']
      · by_cases h2 : i = k
        · subst h2; simp [find?, hj, hj']
        · simp only [h1, h2, if_false, find?, ih, hj]

theorem find?_del (t : Table α) (i j : Nat) : find? (del t i) j = if j = i then none else find? t j := by
  induction t with
  | nil => simp [del, find?]
  | cons p t ih =>
    obtain ⟨k, w⟩ := p
    simp only [del]
    by_cases hk : k = i
    · subst hk
      by_cases hj : j = k
      · subst hj; simp [ih]
      · have hj' : ¬ k = j := fun e => hj e.symm
        simp [ih, find?, hj, hj']
    · by_cases hj : j = i
      · subst hj; simp [hk, find?, ih]
      · simp only [hk, if_false, find?, ih, hj]

theorem get_put (d : α) (t : Table α) (i j : Nat) (v : α) : get d (put t i v) j = if j = i then v else get d t j := by
  by_cases h : j = i <;> simp [get, find?_put, h]

@[simp] theorem get_put_self (d : α) (t : Table α) (i : Nat) (v : α) : get d (put t i v) i = v := by
  simp [get_put]

theorem get_put_other (d : α) (t : Table α) {i j : Nat} (v : α) (h : j ≠ i) : get d (put t i v) j = get d t j := by
  simp [get_put, h]

/-- Reading after writing: the value written there, everything else as before. -/
theorem get_set [DecidableEq α] (d : α) (t : Table α) (i j : Nat) (v : α) :
    get d (set d t i v) j = if j = i then v else get d t j := by
  simp only [set]
  split
  · by_cases h : j = i <;> simp_all [get, find?_del]
  · exact get_put d t i j v

@[simp] theorem get_set_self [DecidableEq α] (d : α) (t : Table α) (i : Nat) (v : α) : get d (set d t i v) i = v := by
  simp [get_set]

theorem get_set_other [DecidableEq α] (d : α) (t : Table α) {i j : Nat} (v : α) (h : j ≠ i) :
    get d (set d t i v) j = get d t j := by
  simp [get_set, h]

@[simp] theorem get_upd_self (d : α) (t : Table α) (i : Nat) (f : α → α) : get d (upd d t i f) i = f (get d t i) := by
  simp [upd]

theorem get_upd_other (d : α) (t : Table α) {i j : Nat} (f : α → α) (h : j ≠ i) :
    get d (upd d t i f) j = get d t j := by
  simp [upd, get_put, h]

theorem find?_modify (t : Table α) (i j : Nat) (f : α → α) :
    find? (modify t i f) j = if j = i then (find? t i).map f else find? t j := by
  induction t with
  | nil => simp [modify, find?]
  | cons p t ih =>
    obtain ⟨k, w⟩ := p
    simp only [modify, List.map] at ih ⊢
    by_cases h : k = i
    · subst h
      by_cases hj : j = k
      · subst hj; simp [find?]
      · have hk : ¬ k = j := fun e => hj e.symm
        simp only [find?, if_true, hj, hk, if_false] at ih ⊢
        exact ih
    · by_cases hj : k = j
      · subst hj; simp [find?, h]
      · simp only [find?, h, hj, if_false] at ih ⊢
        exact ih

/-! ### The canonical form -/

theorem risingFrom_mono {t : Table α} {a b : Nat} (h : risingFrom b t = true) (l : a ≤ b) : risingFrom a t = true := by
  cases t with
  | nil => rfl
  | cons p t =>
    obtain ⟨k, w⟩ := p
    simp only [risingFrom, Bool.and_eq_true, decide_eq_true_eq] at h ⊢
    exact ⟨by omega, h.2⟩

theorem risingFrom_put (t : Table α) (i lo : Nat) (v : α) (h : risingFrom lo t = true) (l : lo ≤ i) :
    risingFrom lo (put t i v) = true := by
  induction t generalizing lo with
  | nil => simp [put, risingFrom, l]
  | cons p t ih =>
    obtain ⟨k, w⟩ := p
    simp only [risingFrom, Bool.and_eq_true, decide_eq_true_eq] at h
    simp only [put]
    split
    · simp only [risingFrom, Bool.and_eq_true, decide_eq_true_eq]
      exact ⟨l, by omega, h.2⟩
    · split
      · simp only [risingFrom, Bool.and_eq_true, decide_eq_true_eq]
        subst_vars; exact ⟨l, h.2⟩
      · simp only [risingFrom, Bool.and_eq_true, decide_eq_true_eq]
        exact ⟨h.1, ih _ h.2 (by omega)⟩

theorem risingFrom_del (t : Table α) (i lo : Nat) (h : risingFrom lo t = true) : risingFrom lo (del t i) = true := by
  induction t generalizing lo with
  | nil => rfl
  | cons p t ih =>
    obtain ⟨k, w⟩ := p
    simp only [risingFrom, Bool.and_eq_true, decide_eq_true_eq] at h
    simp only [del]
    split
    · exact risingFrom_mono (ih _ h.2) (by omega)
    · simp only [risingFrom, Bool.and_eq_true, decide_eq_true_eq]
      exact ⟨h.1, ih _ h.2⟩

theorem risingFrom_filter (t : Table α) (p : Nat × α → Bool) (lo : Nat) (h : risingFrom lo t = true) :
    risingFrom lo (List.filter p t) = true := by
  induction t generalizing lo with
  | nil => rfl
  | cons e t ih =>
    obtain ⟨k, w⟩ := e
    simp only [risingFrom, Bool.and_eq_true, decide_eq_true_eq] at h
    simp only [List.filter]
    split
    · simp only [risingFrom, Bool.and_eq_true, decide_eq_true_eq]
      exact ⟨h.1, ih _ h.2⟩
    · exact risingFrom_mono (ih _ h.2) (by omega)

theorem all_put (t : Table α) (i : Nat) (v : α) (p : Nat × α → Bool) (h : List.all t p = true) (hv : p (i, v) = true) :
    List.all (put t i v) p = true := by
  induction t with
  | nil => simp [put, hv]
  | cons e t ih =>
    obtain ⟨k, w⟩ := e
    simp only [List.all_cons, Bool.and_eq_true] at h
    simp only [put]
    split
    · simp [hv, h.1, h.2]
    · split
      · simp [hv, h.2]
      · simp [h.1, ih h.2]

theorem all_del (t : Table α) (i : Nat) (p : Nat × α → Bool) (h : List.all t p = true) : List.all (del t i) p = true := by
  induction t with
  | nil => rfl
  | cons e t ih =>
    obtain ⟨k, w⟩ := e
    simp only [List.all_cons, Bool.and_eq_true] at h
    simp only [del]
    split
    · exact ih h.2
    · simp [h.1, ih h.2]

/-- Every write keeps the canonical form. -/
theorem wf_set [DecidableEq α] (d : α) (t : Table α) (i : Nat) (v : α) (h : wf d t = true) : wf d (set d t i v) = true := by
  simp only [wf, Bool.and_eq_true] at h ⊢
  simp only [set]
  split
  · exact ⟨risingFrom_del t i 0 h.1, all_del t i _ h.2⟩
  · exact ⟨risingFrom_put t i 0 v h.1 (Nat.zero_le i), all_put t i v _ h.2 (by simpa)⟩

theorem wf_filter [DecidableEq α] (d : α) (t : Table α) (p : Nat × α → Bool) (h : wf d t = true) :
    wf d (List.filter p t) = true := by
  simp only [wf, Bool.and_eq_true] at h ⊢
  refine ⟨risingFrom_filter t p 0 h.1, ?_⟩
  simp only [List.all_eq_true, List.mem_filter] at h ⊢
  exact fun x hx => h.2 x hx.1

end Sys2Proof.Table
end

