-- ==== Sys2Proof/Laws/Thread.lean ====
section
/-! SUPPORT. Reads of waves, threads and blocks after an update of a wave or a thread. -/

namespace Sys2Proof.Machine

theorem wave_setWave (s : State) (w v : Nat) (x : Wave) :
    (s.setWave w x).wave v = if v = w then x else s.wave v := Table.get_put _ _ _ _ _

theorem wave_modWave (s : State) (w v : Nat) (f : Wave → Wave) :
    (s.modWave w f).wave v = if v = w then f (s.wave w) else s.wave v := wave_setWave s w v _

@[simp] theorem wave_modWave_self (s : State) (w : Nat) (f : Wave → Wave) : (s.modWave w f).wave w = f (s.wave w) := by
  simp [wave_modWave]

theorem wave_modWave_other (s : State) {w v : Nat} (f : Wave → Wave) (h : v ≠ w) : (s.modWave w f).wave v = s.wave v := by
  simp [wave_modWave, h]

theorem thread_setThread (s : State) (t u : TRef) (x : Thread) :
    (s.setThread t x).thread u = if u = t then x else s.thread u := by
  simp only [State.thread, State.setThread, wave_modWave]
  by_cases hw : u.wave = t.wave
  · simp only [hw, if_true, Table.get_put]
    by_cases hl : u.lane = t.lane
    · have : u = t := by cases u; cases t; simp_all
      simp [this]
    · have : u ≠ t := fun e => hl (by rw [e])
      simp [hl, this]
  · have : u ≠ t := fun e => hw (by rw [e])
    simp [hw, this]

theorem thread_modThread (s : State) (t u : TRef) (f : Thread → Thread) :
    (s.modThread t f).thread u = if u = t then f (s.thread t) else s.thread u := thread_setThread s t u _

@[simp] theorem thread_modThread_self (s : State) (t : TRef) (f : Thread → Thread) :
    (s.modThread t f).thread t = f (s.thread t) := by simp [thread_modThread]

theorem thread_modThread_other (s : State) {t u : TRef} (f : Thread → Thread) (h : u ≠ t) :
    (s.modThread t f).thread u = s.thread u := by simp [thread_modThread, h]

@[simp] theorem block?_modThread (s : State) (t : TRef) (f : Thread → Thread) (i : Nat) :
    (s.modThread t f).block? i = s.block? i := rfl

@[simp] theorem block?_modWave (s : State) (w : Nat) (f : Wave → Wave) (i : Nat) :
    (s.modWave w f).block? i = s.block? i := rfl

/-- A thread's update leaves every wave as it was but for its threads. -/
theorem wave_modThread (s : State) (t : TRef) (f : Thread → Thread) (w : Nat) :
    (s.modThread t f).wave w = { s.wave w with threads := ((s.modThread t f).wave w).threads } := by
  simp only [State.modThread, State.setThread, wave_modWave]
  split
  · next h => subst h; rfl
  · rfl

theorem find?_modThread (s : State) (t : TRef) (f : Thread → Thread) (w : Nat)
    (h : (s.waves.find? t.wave).isSome) :
    (Table.find? (s.modThread t f).waves w).map Wave.block = (Table.find? s.waves w).map Wave.block := by
  simp only [State.modThread, State.setThread, State.modWave, State.setWave, Table.find?_put]
  split
  · next e =>
    subst e
    obtain ⟨x, hx⟩ := Option.isSome_iff_exists.mp h
    simp [State.wave, Table.get, hx]
  · rfl

theorem waveBlock?_eq (s : State) (w : Nat) : s.waveBlock? w = ((Table.find? s.waves w).map Wave.block).bind s.block? := by
  simp only [State.waveBlock?]
  cases Table.find? s.waves w <;> rfl

theorem waveBlock?_modThread (s : State) (t : TRef) (f : Thread → Thread) (w : Nat) (h : (s.waves.find? t.wave).isSome) :
    (s.modThread t f).waveBlock? w = s.waveBlock? w := by
  have e := find?_modThread s t f w h
  simp only [waveBlock?_eq, e]
  rfl

theorem find?_isSome_modThread (s : State) (t : TRef) (f : Thread → Thread) (w : Nat) :
    (Table.find? (s.modThread t f).waves w).isSome = (w == t.wave || (Table.find? s.waves w).isSome) := by
  simp only [State.modThread, State.setThread, State.modWave, State.setWave, Table.find?_put]
  split <;> simp_all

theorem bound_iff (s : State) (t : TRef) : s.bound t = (Table.find? (s.wave t.wave).threads t.lane).isSome := by
  simp only [State.bound, State.wave, Table.get]
  cases Table.find? s.waves t.wave <;> rfl

theorem bound_modThread (s : State) (t u : TRef) (f : Thread → Thread) :
    (s.modThread t f).bound u = (u == t || s.bound u) := by
  simp only [bound_iff, State.modThread, State.setThread, wave_modWave]
  by_cases hw : u.wave = t.wave
  · simp only [hw, if_true, Table.find?_put]
    by_cases hl : u.lane = t.lane
    · have : u = t := by cases u; cases t; simp_all
      simp [this]
    · have : (u == t) = false := by simp only [beq_eq_false_iff_ne, ne_eq]; exact fun e => hl (by rw [e])
      simp [hl, this]
  · have : (u == t) = false := by simp only [beq_eq_false_iff_ne, ne_eq]; exact fun e => hw (by rw [e])
    simp [hw, this]

theorem alive_modThread_other (s : State) {t u : TRef} (f : Thread → Thread) (h : u ≠ t) :
    (s.modThread t f).alive u = s.alive u := by
  have e : (u == t) = false := by simpa using h
  simp [State.alive, bound_modThread, thread_modThread, h, e]

theorem alive_bound {s : State} {t : TRef} (h : s.alive t = true) : s.bound t = true := by
  simp only [State.alive, Bool.and_eq_true] at h; exact h.1

theorem bound_wave {s : State} {t : TRef} (h : s.bound t = true) : (Table.find? s.waves t.wave).isSome = true := by
  simp only [State.bound] at h
  cases e : Table.find? s.waves t.wave <;> simp_all

theorem standing_modThread_other (s : State) (g : Issue) {t u : TRef} (f : Thread → Thread) (h : u ≠ t) :
    standing (s.modThread t f) g u = standing s g u := by
  simp [standing, alive_modThread_other s f h, thread_modThread_other s f h]

theorem standing_alive {s : State} {g : Issue} {t : TRef} (h : standing s g t = true) : s.alive t = true := by
  simp only [standing, Bool.and_eq_true] at h; exact h.1.1

/-! ### The threads of a fetch group -/

theorem mem_groupThreads {s : State} {g : Issue} {t : TRef} (h : t ∈ groupThreads s g) :
    t.wave = g.wave ∧ g.lanes.getLsbD t.lane = true ∧ standing s g t = true := by
  simp only [groupThreads, List.mem_filter, List.mem_map, lanesOf, List.mem_range] at h
  obtain ⟨⟨l, ⟨_, hl⟩, rfl⟩, hs⟩ := h
  exact ⟨rfl, hl, hs⟩

theorem nodup_lanesOf (m : BitVec 32) : (lanesOf m).Nodup := List.Pairwise.filter _ List.nodup_range

theorem nodup_groupThreads (s : State) (g : Issue) : (groupThreads s g).Nodup := by
  apply List.Pairwise.filter
  rw [List.pairwise_map]
  exact List.Pairwise.imp (fun h e => h (by injection e)) (nodup_lanesOf g.lanes)

theorem mem_executing {s : State} {g : Issue} {b : Block} {i : Instr} {who : Who} {t : TRef}
    (h : t ∈ executing s g b i who) : t ∈ groupThreads s g := (List.mem_filter.mp h).1

theorem nodup_executing (s : State) (g : Issue) (b : Block) (i : Instr) (who : Who) : (executing s g b i who).Nodup :=
  List.Pairwise.filter _ (nodup_groupThreads s g)

end Sys2Proof.Machine
end

