-- ==== Sys2Proof/Laws/Issue.lean ====
section
/-! SUPPORT. What the issue of an instruction does, once its conditions hold: the effect, on the executing threads, of the
state in which the others have moved past it. -/

namespace Sys2Proof.Machine

theorem foldl_same {α β : Type} (l : List α) (f : β → α → β) (b : β) (h : ∀ a ∈ l, ∀ x, f x a = x) : l.foldl f b = b := by
  induction l generalizing b with
  | nil => rfl
  | cons a l ih =>
    simp only [List.foldl_cons, h a List.mem_cons_self]
    exact ih b fun c hc => h c (List.mem_cons_of_mem a hc)

theorem foldl_max (l : List Nat) (a : Nat) (h : ∀ x ∈ l, x = 0) : l.foldl max a = a := by
  induction l generalizing a with
  | nil => rfl
  | cons x l ih =>
    simp only [List.foldl_cons, h x List.mem_cons_self, Nat.max_zero]
    exact ih a fun y hy => h y (List.mem_cons_of_mem x hy)

theorem foldl_congr_mem {α β : Type} (l : List α) {f f' : β → α → β} (h : ∀ a ∈ l, ∀ x, f x a = f' x a) (b : β) :
    l.foldl f b = l.foldl f' b := by
  induction l generalizing b with
  | nil => rfl
  | cons a l ih =>
    simp only [List.foldl_cons, h a List.mem_cons_self]
    exact ih (fun c hc => h c (List.mem_cons_of_mem a hc)) _

/-- The issue of an instruction that meets its conditions is its effect. -/
theorem issue_eq {i : Instr} {who : Who} {s : State} {g : Issue} {b : Block} (h : Issues i who s g b)
    (body : State → Issue → Block → List TRef → State) :
    issue i who body s = body (passed s g b i who) g b (executing s g b i who) := by
  have hop := h.operands
  have hbl := h.blocks
  have hne := h.some
  unfold executing passed at *
  simp only [issue, h.group, h.block, h.fields, h.mode, Bool.not_true, Bool.false_eq_true, or_self, if_false]
  have hok : (((groupThreads s g).filter (executes s b i.head who)).filter fun t =>
      (operandTrap (((groupThreads s g).filter fun t => !executes s b i.head who t).foldl advance s) b g i.uses t).isNone)
      = (groupThreads s g).filter (executes s b i.head who) :=
    List.filter_eq_self.mpr fun t ht => by rw [hop t ht]; rfl
  rw [hok]
  rw [foldl_same _ _ _ (fun t ht x => by rw [hop t ht])]
  have hneed : maxOf (((groupThreads s g).filter (executes s b i.head who)).map fun t =>
      implicitNeed (((groupThreads s g).filter fun t => !executes s b i.head who t).foldl advance s) t i.uses) = 0 := by
    apply foldl_max
    intro x hx
    obtain ⟨t, ht, rfl⟩ := List.mem_map.mp hx
    exact hbl t ht
  rw [hneed]
  split
  · next e => exact absurd e hne
  · simp

theorem foldl_advance_other (l : List TRef) (s : State) (t : TRef) (h : t ∉ l) :
    (l.foldl advance s).thread t = s.thread t := by
  induction l generalizing s with
  | nil => rfl
  | cons a l ih =>
    simp only [List.mem_cons, not_or] at h
    simp only [List.foldl_cons]
    rw [ih _ h.2]
    exact thread_modThread_other s _ h.1

theorem standing_foldl_advance (l : List TRef) (s : State) (g : Issue) (t : TRef) (h : t ∉ l) :
    standing (l.foldl advance s) g t = standing s g t := by
  induction l generalizing s with
  | nil => rfl
  | cons a l ih =>
    simp only [List.mem_cons, not_or] at h
    simp only [List.foldl_cons]
    rw [ih _ h.2]
    exact standing_modThread_other s g _ h.1

theorem executing_not_held {s : State} {g : Issue} {b : Block} {i : Instr} {who : Who} {t : TRef}
    (h : t ∈ executing s g b i who) : t ∉ (groupThreads s g).filter fun t => !executes s b i.head who t := by
  simp only [executing, List.mem_filter] at h ⊢
  simp [h.2]

/-- An executing thread still stands at the instruction once the others have moved past it, with its registers as they
were. -/
theorem standing_passed {s : State} {g : Issue} {b : Block} {i : Instr} {who : Who} {t : TRef}
    (h : t ∈ executing s g b i who) : standing (passed s g b i who) g t = true := by
  rw [passed, standing_foldl_advance _ _ _ _ (executing_not_held h)]
  exact (mem_groupThreads (mem_executing h)).2.2

theorem thread_passed {s : State} {g : Issue} {b : Block} {i : Instr} {who : Who} {t : TRef}
    (h : t ∈ executing s g b i who) : (passed s g b i who).thread t = s.thread t := by
  rw [passed, foldl_advance_other _ _ _ (executing_not_held h)]

/-- The issue of a lane-wise instruction to one executing thread. -/
theorem issue_to {i : Instr} {who : Who} {s p : State} {g : Issue} {b : Block} {t : TRef} (h : IssuesTo i who s g b t p)
    (f : State → Issue → Block → State → TRef → State × Lane) :
    issue i who (fun s g b ts => eachLane g (f s g b) s ts) s = finishLane (f p g b p t).1 t (f p g b p t).2 := by
  have hs : standing p g t = true := by
    rw [← h.past]; exact standing_passed (by rw [h.one]; exact List.mem_singleton.mpr rfl)
  rw [issue_eq h.toIssues]
  simp [h.one, h.past, eachLane, hs]

/-- An instruction whose fields or mode are refused raises trap 0x01 in each thread that would execute it. -/
theorem issue_rejected {i : Instr} {who : Who} {s : State} {g : Issue} {b : Block} (h : Rejects i who s g b)
    (body : State → Issue → Block → List TRef → State) :
    issue i who body s =
      (executing s g b i who).foldl (fun s t => trapAt s t (illegal i)) (passed s g b i who) := by
  have hb : (!i.wf) = true ∨ (!modeOk b i who) = true := by simpa using h.bad
  simp only [issue, h.group, h.block, executing, passed]
  rw [if_pos hb]

/-- With no group issuing, nothing happens. -/
theorem issue_none (i : Instr) (who : Who) (body : State → Issue → Block → List TRef → State) (s : State)
    (h : s.cur = none) : issue i who body s = s := by
  simp [issue, h]

@[simp] theorem finishLane_done (s : State) (t : TRef) : finishLane s t .done = advance s t := rfl
@[simp] theorem finishLane_jump (s : State) (t : TRef) (pc : BitVec 64) : finishLane s t (.jump pc) = setPc s t pc := rfl
@[simp] theorem finishLane_stay (s : State) (t : TRef) (w : Wait) : finishLane s t (.stay w) = setWait s t w := rfl
@[simp] theorem finishLane_trap (s : State) (t : TRef) (x : Trap) : finishLane s t (.trap x) = trapAt s t x := rfl
@[simp] theorem finishLane_moved (s : State) (t : TRef) : finishLane s t .moved = s := rfl

/-- A sole executing thread stands at the instruction. -/
theorem IssuesTo.standing {i : Instr} {who : Who} {s p : State} {g : Issue} {b : Block} {t : TRef}
    (h : IssuesTo i who s g b t p) : Machine.standing p g t = true := by
  rw [← h.past]; exact standing_passed (by rw [h.one]; exact List.mem_singleton.mpr rfl)

theorem eachLane_one (g : Issue) (f : State → TRef → State × Lane) (s : State) (t : TRef) (h : standing s g t = true) :
    eachLane g f s [t] = finishLane (f s t).1 t (f s t).2 := by
  simp [eachLane, h]

/-- The effect of an issue whose only executing thread is `t`. -/
theorem issue_one {i : Instr} {who : Who} {s p : State} {g : Issue} {b : Block} {t : TRef} (h : IssuesTo i who s g b t p)
    (body : State → Issue → Block → List TRef → State) : issue i who body s = body p g b [t] := by
  rw [issue_eq h.toIssues, h.one, h.past]

theorem standing_modWave (s : State) (g : Issue) (w : Nat) (f : Wave → Wave) (h : ∀ x, (f x).threads = x.threads)
    (t : TRef) : standing (s.modWave w f) g t = standing s g t := by
  have e : (s.modWave w f).thread t = s.thread t := by
    simp only [State.thread, wave_modWave]; split
    · next h' => rw [h, h']
    · rfl
  have e2 : (s.modWave w f).bound t = s.bound t := by
    simp only [bound_iff, wave_modWave]; split
    · next h' => rw [h, h']
    · rfl
  simp only [standing, State.alive, e, e2]

end Sys2Proof.Machine
end

