-- ==== Sys2Proof/Laws/Compute.lean ====
section
/-! SUPPORT. What writing a result does: the registers written, and everything left alone. -/

namespace Sys2Proof.Machine

namespace OnlyRegisters

theorem refl (s : State) : OnlyRegisters s s := ⟨rfl, rfl, fun _ => rfl, fun _ => rfl⟩

theorem trans {a b c : State} (h : OnlyRegisters a b) (k : OnlyRegisters b c) : OnlyRegisters a c where
  rest := by rw [k.rest, h.rest]
  loads := k.loads.trans h.loads
  waves w := by rw [k.waves w, h.waves w]
  threads t := by rw [k.threads t, h.threads t]

/-- An update of a thread's registers, condition bits, flags and program counter alone. -/
theorem modThread (s : State) (t : TRef) (f : Thread → Thread)
    (h : ∀ x, f x = { x with v := (f x).v, mapped := (f x).mapped, cond := (f x).cond, fflags := (f x).fflags, pc := (f x).pc }) :
    OnlyRegisters s (s.modThread t f) where
  rest := rfl
  loads := rfl
  waves w := by rw [wave_modThread]
  threads u := by
    rw [thread_modThread]
    split
    · next e => rw [e]; exact h _
    · rfl

theorem dropRegs (s : State) (q : PendLoad → Bool) (r : Nat × Word → Bool) :
    OnlyRegisters s { s with loads := s.loads.map fun l => if q l then { l with regs := l.regs.filter r } else l } where
  rest := rfl
  loads := by
    simp only [List.map_map]
    apply List.map_congr_left
    intro l _
    simp only [Function.comp]
    split <;> rfl
  waves _ := rfl
  threads _ := rfl

end OnlyRegisters

/-- The write of one v register, as an update of its thread. -/
def Thread.putV (n : Nat) (w : Word) (x : Thread) : Thread :=
  { x with v := x.v.set 0 n w, mapped := x.mapped &&& ~~~(1#256 <<< n) }

theorem thread_setV (s : State) (t u : TRef) (n : Nat) (w : Word) :
    (setV s t n w).thread u = if u = t then (s.thread t).putV n w else s.thread u :=
  thread_modThread s t u (Thread.putV n w)

theorem wave_setV (s : State) (t : TRef) (n : Nat) (w : Word) (x : Nat) :
    (setV s t n w).wave x = { s.wave x with threads := ((setV s t n w).wave x).threads } :=
  wave_modThread s t (Thread.putV n w) x

theorem vreg_setV (s : State) (t u : TRef) (n m : Nat) (w : Word) :
    vreg (setV s t n w) u m = if u = t ∧ m = n then w else vreg s u m := by
  simp only [vreg, thread_setV]
  by_cases hu : u = t
  · subst hu
    simp only [if_true, true_and]
    by_cases hm : m = n
    · subst hm
      have : ((s.thread u).mapped &&& ~~~(1#256 <<< m)).getLsbD m = false := by
        simp [BitVec.getLsbD_and, BitVec.getLsbD_not, BitVec.getLsbD_shiftLeft]
      simp [Thread.putV, this]
    · have : ((s.thread u).mapped &&& ~~~(1#256 <<< n)).getLsbD m = (s.thread u).mapped.getLsbD m := by
        simp only [BitVec.getLsbD_and, BitVec.getLsbD_not, BitVec.getLsbD_shiftLeft]
        by_cases h256 : m < 256
        · by_cases hlt : m < n
          · simp [h256, hlt]
          · have : m - n ≠ 0 := by omega
            simp [h256, hlt, this]
        · simp [BitVec.getLsbD_of_ge _ _ (Nat.le_of_not_lt h256)]
      simp only [Thread.putV, this, hm, if_false, Table.get_set_other 0 _ w hm]
      rfl
  · simp only [hu, if_false, false_and]
    rfl

theorem onlyRegisters_setV (s : State) (t : TRef) (n : Nat) (w : Word) : OnlyRegisters s (setV s t n w) := by
  refine OnlyRegisters.trans (OnlyRegisters.modThread s t (Thread.putV n w) (fun _ => rfl)) ?_
  exact OnlyRegisters.dropRegs _ (fun l => l.t == t && !l.uniform) (fun r => r.1 != n)

theorem bound_setV (s : State) (t u : TRef) (n : Nat) (w : Word) (h : s.bound t = true) :
    (setV s t n w).bound u = s.bound u := by
  have : (setV s t n w).bound u = (s.modThread t (Thread.putV n w)).bound u := rfl
  rw [this, bound_modThread]
  by_cases e : u = t
  · subst e; simp [h]
  · have : (u == t) = false := by simpa using e
    simp [this]

/-- The fold of `setVs`. -/
def setVsFrom (t : TRef) : State → Nat → List Word → State
  | s, _, [] => s
  | s, n, w :: ws => setVsFrom t (setV s t n w) (n + 1) ws

theorem setVs_eq (s : State) (t : TRef) (n : Nat) (ws : List Word) : setVs s t n ws = setVsFrom t s n ws := by
  unfold setVs
  induction ws generalizing s n with
  | nil => rfl
  | cons w ws ih => simp only [List.foldl_cons, setVsFrom]; exact ih _ _

theorem onlyRegisters_setVs (s : State) (t : TRef) (n : Nat) (ws : List Word) : OnlyRegisters s (setVs s t n ws) := by
  rw [setVs_eq]
  induction ws generalizing s n with
  | nil => exact OnlyRegisters.refl s
  | cons w ws ih => exact (onlyRegisters_setV s t n w).trans (ih _ _)

theorem bound_setVs (s : State) (t u : TRef) (n : Nat) (ws : List Word) (h : s.bound t = true) :
    (setVs s t n ws).bound u = s.bound u := by
  rw [setVs_eq]
  induction ws generalizing s n with
  | nil => rfl
  | cons w ws ih => rw [setVsFrom, ih _ _ (by rw [bound_setV _ _ _ _ _ h]; exact h), bound_setV _ _ _ _ _ h]

theorem vreg_setVs (s : State) (t u : TRef) (n m : Nat) (ws : List Word) :
    vreg (setVs s t n ws) u m = if u = t ∧ n ≤ m ∧ m < n + ws.length then ws.getD (m - n) 0 else vreg s u m := by
  rw [setVs_eq]
  induction ws generalizing s n with
  | nil =>
    have : ¬(u = t ∧ n ≤ m ∧ m < n + ([] : List Word).length) := by simp only [List.length_nil]; omega
    rw [if_neg this]; rfl
  | cons w ws ih =>
    rw [setVsFrom, ih, vreg_setV]
    simp only [List.length_cons]
    by_cases hu : u = t
    · by_cases h1 : m = n
      · subst h1
        have a : ¬(u = t ∧ m + 1 ≤ m ∧ m < m + 1 + ws.length) := by omega
        have b : u = t ∧ m ≤ m ∧ m < m + (ws.length + 1) := ⟨hu, by omega, by omega⟩
        rw [if_neg a, if_pos b]; simp [hu]
      · by_cases h2 : n + 1 ≤ m ∧ m < n + 1 + ws.length
        · have b : n ≤ m ∧ m < n + (ws.length + 1) := by omega
          obtain ⟨k, hk⟩ : ∃ k, m - n = k + 1 := ⟨m - n - 1, by omega⟩
          have hk' : m - (n + 1) = k := by omega
          simp [hu, h2, b, hk, hk']
        · have b : ¬(n ≤ m ∧ m < n + (ws.length + 1)) := by omega
          rw [if_neg (fun h => h2 h.2), if_neg (fun h : u = t ∧ m = n => h1 h.2), if_neg (fun h => b h.2)]
    · simp [hu]

/-- Register writes leave condition bits, flags, program counters and k registers alone. -/
theorem others_setVs (s : State) (t u : TRef) (n : Nat) (ws : List Word) :
    ((setVs s t n ws).thread u).cond = (s.thread u).cond ∧ ((setVs s t n ws).thread u).fflags = (s.thread u).fflags ∧
    ((setVs s t n ws).thread u).pc = (s.thread u).pc ∧ ∀ w, ((setVs s t n ws).wave w).k = (s.wave w).k := by
  rw [setVs_eq]
  induction ws generalizing s n with
  | nil => exact ⟨rfl, rfl, rfl, fun _ => rfl⟩
  | cons w ws ih =>
    have h := ih (setV s t n w) (n + 1)
    have e : ∀ w', ((setV s t n w).wave w').k = (s.wave w').k := fun w' => by rw [wave_setV]
    simp only [setVsFrom]
    refine ⟨h.1.trans ?_, h.2.1.trans ?_, h.2.2.1.trans ?_, fun w' => (h.2.2.2 w').trans (e w')⟩ <;>
    · rw [thread_setV]; split
      · next hu => rw [hu]; rfl
      · rfl

theorem length_toWords (n x : Nat) : (toWords n x).length = n := by
  induction n generalizing x with
  | zero => rfl
  | succ n ih => simp [toWords, ih]

theorem getD_toWords (n x j : Nat) (h : j < n) : (toWords n x).getD j 0 = wordOf x j := by
  induction n generalizing x j with
  | zero => omega
  | succ n ih =>
    cases j with
    | zero => simp [toWords, wordOf]
    | succ j =>
      have := ih (x / 2 ^ 32) j (by omega)
      simp only [toWords, List.getD_cons_succ, this, wordOf]
      rw [Nat.div_div_eq_div_mul, ← Nat.pow_add, show 32 + 32 * j = 32 * (j + 1) by omega]

/-! ### Thread updates -/

theorem vreg_modThread (s : State) (t u : TRef) (f : Thread → Thread) (n : Nat)
    (h : ∀ x, (f x).v = x.v ∧ (f x).mapped = x.mapped ∧ (f x).tpl = x.tpl) :
    vreg (s.modThread t f) u n = vreg s u n := by
  simp only [vreg, thread_modThread]
  by_cases e : u = t
  · subst e
    obtain ⟨h1, h2, h3⟩ := h (s.thread u)
    simp only [if_true, h1, h2, h3]
    rfl
  · simp only [e, if_false]
    rfl

theorem kreg_modThread (s : State) (t : TRef) (f : Thread → Thread) (w n : Nat) :
    kreg (s.modThread t f) w n = kreg s w n := by
  simp only [kreg]; rw [wave_modThread]

theorem bound_modThread_same (s : State) (t u : TRef) (f : Thread → Thread) (h : s.bound t = true) :
    (s.modThread t f).bound u = s.bound u := by
  rw [bound_modThread]
  by_cases e : u = t
  · subst e; simp [h]
  · have : (u == t) = false := by simpa using e
    simp [this]

/-! ### k registers -/

/-- The fold of `setKs`. -/
def setKsFrom (g : Issue) : State → Nat → List Word → State
  | s, _, [] => s
  | s, n, w :: ws => setKsFrom g (setK s g n w) (n + 1) ws

theorem setKs_eq (s : State) (g : Issue) (n : Nat) (ws : List Word) : setKs s g n ws = setKsFrom g s n ws := by
  unfold setKs
  induction ws generalizing s n with
  | nil => rfl
  | cons w ws ih => simp only [List.foldl_cons, setKsFrom]; exact ih _ _

/-- The write of one k register, as an update of its wave. -/
def Wave.putK (whole : Bool) (g : Issue) (n : Nat) (v : Word) (x : Wave) : Wave :=
  { x with k := x.k.set 0 n v, kMask := x.kMask.set 0 n g.lanes
           kPartial := if whole then x.kPartial &&& ~~~(1#64 <<< n) else x.kPartial ||| (1#64 <<< n) }

theorem wave_setK (s : State) (g : Issue) (n : Nat) (v : Word) (w : Nat) :
    (setK s g n v).wave w = if w = g.wave then (s.wave g.wave).putK (groupWhole s g) g n v else s.wave w :=
  wave_modWave s g.wave w (Wave.putK (groupWhole s g) g n v)

theorem thread_setK (s : State) (g : Issue) (n : Nat) (v : Word) (u : TRef) : (setK s g n v).thread u = s.thread u := by
  simp only [State.thread, wave_setK]
  split
  · next h => rw [h]; rfl
  · rfl

theorem onlyRegisters_setK (s : State) (g : Issue) (n : Nat) (v : Word) : OnlyRegisters s (setK s g n v) where
  rest := rfl
  loads := (OnlyRegisters.dropRegs s (fun l => l.t.wave == g.wave && l.uniform) (fun r => r.1 != n)).loads
  waves w := by
    simp only [wave_setK]
    split
    · next h => rw [h]; rfl
    · rfl
  threads u := by rw [thread_setK]

theorem bound_setK (s : State) (g : Issue) (n : Nat) (v : Word) (u : TRef) : (setK s g n v).bound u = s.bound u := by
  simp only [bound_iff, wave_setK]
  split
  · next h => rw [h]; rfl
  · rfl

theorem kreg_setK (s : State) (g : Issue) (n m : Nat) (v : Word) (w : Nat) :
    kreg (setK s g n v) w m = if w = g.wave ∧ m = n then v else kreg s w m := by
  simp only [kreg, wave_setK]
  by_cases hw : w = g.wave
  · subst hw
    simp only [if_true, true_and, Wave.putK, Table.get_set]
  · simp [hw]

theorem onlyRegisters_setKs (s : State) (g : Issue) (n : Nat) (ws : List Word) : OnlyRegisters s (setKs s g n ws) := by
  rw [setKs_eq]
  induction ws generalizing s n with
  | nil => exact OnlyRegisters.refl s
  | cons w ws ih => exact (onlyRegisters_setK s g n w).trans (ih _ _)

theorem thread_setKs (s : State) (g : Issue) (n : Nat) (ws : List Word) (u : TRef) :
    (setKs s g n ws).thread u = s.thread u := by
  rw [setKs_eq]
  induction ws generalizing s n with
  | nil => rfl
  | cons w ws ih => rw [setKsFrom, ih, thread_setK]

theorem bound_setKs (s : State) (g : Issue) (n : Nat) (ws : List Word) (u : TRef) :
    (setKs s g n ws).bound u = s.bound u := by
  rw [setKs_eq]
  induction ws generalizing s n with
  | nil => rfl
  | cons w ws ih => rw [setKsFrom, ih, bound_setK]

theorem kreg_setKs (s : State) (g : Issue) (w n m : Nat) (ws : List Word) :
    kreg (setKs s g n ws) w m = if w = g.wave ∧ n ≤ m ∧ m < n + ws.length then ws.getD (m - n) 0 else kreg s w m := by
  rw [setKs_eq]
  induction ws generalizing s n with
  | nil =>
    have : ¬(w = g.wave ∧ n ≤ m ∧ m < n + ([] : List Word).length) := by simp only [List.length_nil]; omega
    rw [if_neg this]; rfl
  | cons v ws ih =>
    rw [setKsFrom, ih, kreg_setK]
    simp only [List.length_cons]
    by_cases hu : w = g.wave
    · by_cases h1 : m = n
      · subst h1
        have a : ¬(w = g.wave ∧ m + 1 ≤ m ∧ m < m + 1 + ws.length) := by omega
        have b : w = g.wave ∧ m ≤ m ∧ m < m + (ws.length + 1) := ⟨hu, by omega, by omega⟩
        rw [if_neg a, if_pos b]; simp [hu]
      · by_cases h2 : n + 1 ≤ m ∧ m < n + 1 + ws.length
        · have b : n ≤ m ∧ m < n + (ws.length + 1) := by omega
          obtain ⟨k, hk⟩ : ∃ k, m - n = k + 1 := ⟨m - n - 1, by omega⟩
          have hk' : m - (n + 1) = k := by omega
          simp [hu, h2, b, hk, hk']
        · have b : ¬(n ≤ m ∧ m < n + (ws.length + 1)) := by omega
          rw [if_neg (fun h => h2 h.2), if_neg (fun h : w = g.wave ∧ m = n => h1 h.2), if_neg (fun h => b h.2)]
    · simp [hu]

theorem vreg_thread (s s' : State) (u : TRef) (n : Nat) (h : s'.thread u = s.thread u)
    (k : s'.templates = s.templates) : vreg s' u n = vreg s u n := by
  have : s'.tpl? = s.tpl? := by funext i; simp [State.tpl?, k]
  simp only [vreg, h, this]

/-! ### Condition bits, flags and the next slot -/

/-- The write of one condition bit, as an update of its thread. -/
def Thread.putC (n : Nat) (b : Bool) (x : Thread) : Thread :=
  { x with cond := if b then x.cond ||| (1#12 <<< n) else x.cond &&& ~~~(1#12 <<< n) }

theorem thread_setC (s : State) (t u : TRef) (n : Nat) (b : Bool) :
    (setC s t n b).thread u = if u = t then (s.thread t).putC n b else s.thread u :=
  thread_modThread s t u (Thread.putC n b)

theorem onlyRegisters_setC (s : State) (t : TRef) (n : Nat) (b : Bool) : OnlyRegisters s (setC s t n b) :=
  OnlyRegisters.modThread s t (Thread.putC n b) fun _ => rfl

theorem creg_setC (s : State) (t u : TRef) (n m : Nat) (b : Bool) (h : m < 12) :
    creg (setC s t n b) u m = if u = t ∧ m = n then b else creg s u m := by
  simp only [creg, thread_setC]
  by_cases hu : u = t
  · subst hu
    simp only [if_true, true_and, Thread.putC]
    by_cases hm : m = n
    · subst hm
      cases b <;> simp [BitVec.getLsbD_or, BitVec.getLsbD_and, BitVec.getLsbD_not, BitVec.getLsbD_shiftLeft, h]
    · by_cases hlt : m < n
      · cases b <;>
          simp [BitVec.getLsbD_or, BitVec.getLsbD_and, BitVec.getLsbD_not, BitVec.getLsbD_shiftLeft, h, hlt, hm]
      · have : m - n ≠ 0 := by omega
        cases b <;>
          simp [BitVec.getLsbD_or, BitVec.getLsbD_and, BitVec.getLsbD_not, BitVec.getLsbD_shiftLeft, h, hlt, hm, this]
  · simp [hu]

/-- What an update that touches no v register leaves alone. -/
structure CondsOnly (s s' : State) : Prop where
  only  : OnlyRegisters s s'
  vregs : ∀ u n, vreg s' u n = vreg s u n
  pcs   : ∀ u, (s'.thread u).pc = (s.thread u).pc
  flags : ∀ u, (s'.thread u).fflags = (s.thread u).fflags
  kregs : ∀ w n, kreg s' w n = kreg s w n

theorem CondsOnly.refl (s : State) : CondsOnly s s :=
  ⟨OnlyRegisters.refl s, fun _ _ => rfl, fun _ => rfl, fun _ => rfl, fun _ _ => rfl⟩

theorem CondsOnly.trans {a b c : State} (h : CondsOnly a b) (k : CondsOnly b c) : CondsOnly a c :=
  ⟨h.only.trans k.only, fun u n => (k.vregs u n).trans (h.vregs u n), fun u => (k.pcs u).trans (h.pcs u),
   fun u => (k.flags u).trans (h.flags u), fun w n => (k.kregs w n).trans (h.kregs w n)⟩

theorem condsOnly_setC (s : State) (t : TRef) (n : Nat) (b : Bool) : CondsOnly s (setC s t n b) where
  only := onlyRegisters_setC s t n b
  vregs u m := vreg_modThread s t u (Thread.putC n b) m fun _ => ⟨rfl, rfl, rfl⟩
  pcs u := by rw [thread_setC]; split <;> simp_all [Thread.putC]
  flags u := by rw [thread_setC]; split <;> simp_all [Thread.putC]
  kregs w m := kreg_modThread s t (Thread.putC n b) w m

theorem bound_setC (s : State) (t u : TRef) (n : Nat) (b : Bool) (h : s.bound t = true) :
    (setC s t n b).bound u = s.bound u := bound_modThread_same s t u (Thread.putC n b) h

theorem condsOnly_setCs (s : State) (t : TRef) (l : List (Nat × Bool)) :
    CondsOnly s (l.foldl (fun s c => setC s t c.1 c.2) s) := by
  induction l generalizing s with
  | nil => exact CondsOnly.refl s
  | cons c l ih => exact (condsOnly_setC s t c.1 c.2).trans (ih _)

theorem bound_setCs (s : State) (t u : TRef) (l : List (Nat × Bool)) (h : s.bound t = true) :
    (l.foldl (fun s c => setC s t c.1 c.2) s).bound u = s.bound u := by
  induction l generalizing s with
  | nil => rfl
  | cons c l ih => rw [List.foldl_cons, ih _ (by rw [bound_setC _ _ _ _ _ h]; exact h), bound_setC _ _ _ _ _ h]

theorem creg_setCs (s : State) (t u : TRef) (l : List (Nat × Bool)) (m : Nat) (h : m < 12) :
    creg (l.foldl (fun s c => setC s t c.1 c.2) s) u m =
      if u = t then (match l.reverse.find? fun c => c.1 = m with | some c => c.2 | none => creg s u m) else creg s u m := by
  induction l generalizing s with
  | nil => simp
  | cons c l ih =>
    rw [List.foldl_cons, ih, creg_setC _ _ _ _ _ _ h, List.reverse_cons, List.find?_append]
    by_cases hu : u = t
    · simp only [hu, if_true, true_and]
      cases e : l.reverse.find? fun c => decide (c.1 = m) with
      | some x => simp
      | none =>
        simp only [Option.none_or, List.find?_cons]
        by_cases hm : c.1 = m
        · simp [hm]
        · have : ¬ m = c.1 := fun e => hm e.symm
          simp [hm, this]
    · simp [hu]

/-! ### A result in one thread -/

/-- A thread's next slot after its result is written. -/
theorem thread_advance (s : State) (t u : TRef) :
    (advance s t).thread u = if u = t then { s.thread t with pc := nextPc (s.thread t).pc } else s.thread u :=
  thread_modThread s t u fun x => { x with pc := nextPc x.pc }

theorem thread_raiseFlags (s : State) (t u : TRef) (fl : Nat) :
    (raiseFlags s t fl).thread u =
      if u = t then { s.thread t with fflags := (s.thread t).fflags ||| d fl } else s.thread u := by
  unfold raiseFlags
  split
  · next h =>
    subst h
    split
    · next e => rw [e]; simp [d]
    · rfl
  · exact thread_modThread s t u fun x => { x with fflags := x.fflags ||| d fl }

theorem onlyRegisters_raiseFlags (s : State) (t : TRef) (fl : Nat) : OnlyRegisters s (raiseFlags s t fl) := by
  unfold raiseFlags
  split
  · exact OnlyRegisters.refl s
  · exact OnlyRegisters.modThread s t (fun x => { x with fflags := x.fflags ||| d fl }) fun _ => rfl

theorem onlyRegisters_advance (s : State) (t : TRef) : OnlyRegisters s (advance s t) :=
  OnlyRegisters.modThread s t (fun x => { x with pc := nextPc x.pc }) fun _ => rfl

theorem vreg_raiseFlags (s : State) (t u : TRef) (fl n : Nat) : vreg (raiseFlags s t fl) u n = vreg s u n := by
  unfold raiseFlags
  split
  · rfl
  · exact vreg_modThread s t u (fun x => { x with fflags := x.fflags ||| d fl }) n fun _ => ⟨rfl, rfl, rfl⟩

theorem kreg_raiseFlags (s : State) (t : TRef) (fl w n : Nat) : kreg (raiseFlags s t fl) w n = kreg s w n := by
  unfold raiseFlags
  split
  · rfl
  · exact kreg_modThread s t _ w n

theorem bound_raiseFlags (s : State) (t u : TRef) (fl : Nat) (h : s.bound t = true) :
    (raiseFlags s t fl).bound u = s.bound u := by
  unfold raiseFlags
  split
  · rfl
  · exact bound_modThread_same s t u _ h

theorem vreg_advance (s : State) (t u : TRef) (n : Nat) : vreg (advance s t) u n = vreg s u n :=
  vreg_modThread s t u (fun x => { x with pc := nextPc x.pc }) n fun _ => ⟨rfl, rfl, rfl⟩

theorem kreg_advance (s : State) (t : TRef) (w n : Nat) : kreg (advance s t) w n = kreg s w n :=
  kreg_modThread s t _ w n

theorem bound_advance (s : State) (t u : TRef) (h : s.bound t = true) : (advance s t).bound u = s.bound u :=
  bound_modThread_same s t u _ h

/-- What one thread's result leaves. -/
structure Stepped (s s' : State) (b : Block) (t : TRef) (dst : Dst) (regs : Nat) (cmp : Bool) (r : Res) : Prop where
  only  : OnlyRegisters s s'
  bound : ∀ u, s'.bound u = s.bound u
  pcs   : ∀ u, (s'.thread u).pc = if u = t then nextPc (s.thread u).pc else (s.thread u).pc
  vregs : ∀ u n, vreg s' u n =
    if u = t ∧ dst.file = .v ∧ dst.num.toNat ≤ n ∧ n < dst.num.toNat + regs then wordOf r.val (n - dst.num.toNat)
    else vreg s u n
  kregs : ∀ w n, kreg s' w n = kreg s w n
  conds : ∀ u n, n < 12 → creg s' u n = if u = t then condsAfter b dst cmp r (creg s u) n else creg s u n
  flags : ∀ u, (s'.thread u).fflags =
    if u = t then (s.thread u).fflags ||| BitVec.ofNat 32 r.flags else (s.thread u).fflags

theorem stepped_writeRes (s : State) (b : Block) (t : TRef) (dst : Dst) (regs : Nat) (cmp : Bool) (r : Res)
    (hb : s.bound t = true) (hk : dst.file ≠ .k) :
    Stepped s (advance (writeRes b dst regs cmp s t r) t) b t dst regs cmp r := by
  -- the destination's own write
  obtain ⟨s1, e1, o1, b1, v1, k1, p1, f1, c1⟩ : ∃ s1,
      (match dst.file with
        | .v => setVs s t dst.num.toNat (toWords regs r.val)
        | .k => s
        | .c =>
          let bit := r.val % 2 == 1
          let s1 := setC s t dst.num.toNat bit
          if b.forerunner ∧ cmp then setC s1 t (dst.num.toNat ^^^ 1) (!bit) else s1) = s1 ∧
      OnlyRegisters s s1 ∧ (∀ u, s1.bound u = s.bound u) ∧
      (∀ u n, vreg s1 u n =
        if u = t ∧ dst.file = .v ∧ dst.num.toNat ≤ n ∧ n < dst.num.toNat + regs then wordOf r.val (n - dst.num.toNat)
        else vreg s u n) ∧
      (∀ w n, kreg s1 w n = kreg s w n) ∧ (∀ u, (s1.thread u).pc = (s.thread u).pc) ∧
      (∀ u, (s1.thread u).fflags = (s.thread u).fflags) ∧
      (∀ u n, n < 12 → creg s1 u n = if u = t then
        (if dst.file = .c ∧ b.forerunner ∧ cmp ∧ n = dst.num.toNat ^^^ 1 then !(r.val % 2 == 1)
         else if dst.file = .c ∧ n = dst.num.toNat then r.val % 2 == 1 else creg s u n) else creg s u n) := by
    refine ⟨_, rfl, ?_⟩
    cases hf : dst.file with
    | k => exact absurd hf hk
    | v =>
      have ho := others_setVs s t
      refine ⟨onlyRegisters_setVs _ _ _ _, fun u => bound_setVs _ _ _ _ _ hb, fun u n => ?_, fun w n => ?_, fun u => (ho u _ _).2.2.1,
        fun u => (ho u _ _).2.1, fun u n _ => ?_⟩
      · simp only [vreg_setVs, length_toWords, true_and]
        by_cases c : u = t ∧ dst.num.toNat ≤ n ∧ n < dst.num.toNat + regs
        · rw [if_pos c, if_pos c, getD_toWords _ _ _ (by omega)]
        · rw [if_neg c, if_neg c]
      · simp only [kreg]; rw [(ho t _ _).2.2.2 w]
      · simp only [creg, (ho u _ _).1]; simp
    | c =>
      by_cases hc : b.forerunner ∧ cmp
      · simp only [hc, and_self, if_true]
        have h2 := (condsOnly_setC s t dst.num.toNat (r.val % 2 == 1)).trans
          (condsOnly_setC (setC s t dst.num.toNat (r.val % 2 == 1)) t (dst.num.toNat ^^^ 1) (!(r.val % 2 == 1)))
        refine ⟨h2.only, fun u => ?_, fun u n => ?_, h2.kregs, h2.pcs, h2.flags, fun u n hn => ?_⟩
        · rw [bound_setC _ _ _ _ _ (by rw [bound_setC _ _ _ _ _ hb]; exact hb), bound_setC _ _ _ _ _ hb]
        · rw [h2.vregs]; simp
        · rw [creg_setC _ _ _ _ _ _ hn, creg_setC _ _ _ _ _ _ hn]
          by_cases hu : u = t <;> simp [hu]
      · rw [if_neg hc]
        have h2 := condsOnly_setC s t dst.num.toNat (r.val % 2 == 1)
        refine ⟨h2.only, fun u => bound_setC _ _ _ _ _ hb, fun u n => ?_, h2.kregs, h2.pcs, h2.flags, fun u n hn => ?_⟩
        · rw [h2.vregs]; simp
        · rw [creg_setC _ _ _ _ _ _ hn]
          have hc' : ¬(True ∧ b.forerunner = true ∧ cmp = true ∧ n = dst.num.toNat ^^^ 1) := fun h => hc ⟨h.2.1, h.2.2.1⟩
          by_cases hu : u = t <;> simp [hu, hc']
  have h2 := condsOnly_setCs s1 t r.conds
  have hb1 : s1.bound t = true := by rw [b1]; exact hb
  have e : writeRes b dst regs cmp s t r = raiseFlags (r.conds.foldl (fun s c => setC s t c.1 c.2) s1) t r.flags := by
    rw [← e1]; rfl
  rw [e]
  have hb2 : (r.conds.foldl (fun s c => setC s t c.1 c.2) s1).bound t = true := by rw [bound_setCs _ _ _ _ hb1]; exact hb1
  refine ⟨o1.trans (h2.only.trans ((onlyRegisters_raiseFlags _ _ _).trans (onlyRegisters_advance _ _))), fun u => ?_,
    fun u => ?_, fun u n => ?_, fun w n => ?_, fun u n hn => ?_, fun u => ?_⟩
  · rw [bound_advance _ _ _ (by rw [bound_raiseFlags _ _ _ _ hb2]; exact hb2), bound_raiseFlags _ _ _ _ hb2,
      bound_setCs _ _ _ _ hb1, b1]
  · rw [thread_advance, thread_raiseFlags, thread_raiseFlags]
    by_cases hu : u = t
    · subst hu; simp [h2.pcs, p1]
    · simp [hu, h2.pcs, p1]
  · rw [vreg_advance, vreg_raiseFlags, h2.vregs, v1]
  · rw [kreg_advance, kreg_raiseFlags, h2.kregs, k1]
  · have hc : creg (advance (raiseFlags (r.conds.foldl (fun s c => setC s t c.1 c.2) s1) t r.flags) t) u n =
        creg (r.conds.foldl (fun s c => setC s t c.1 c.2) s1) u n := by
      simp only [creg, thread_advance, thread_raiseFlags]
      by_cases hu : u = t
      · subst hu; simp
      · simp [hu]
    rw [hc, creg_setCs _ _ _ _ _ hn]
    by_cases hu : u = t
    · subst hu
      have c2 := c1 u n hn
      rw [if_pos rfl] at c2
      rw [if_pos rfl, if_pos rfl, c2]
      rfl
    · simp only [hu, if_false, c1 _ _ hn]
  · rw [thread_advance, thread_raiseFlags, thread_raiseFlags]
    by_cases hu : u = t
    · subst hu; simp [h2.flags, f1, d]
    · simp [hu, h2.flags, f1]

/-! ### A result in every executing thread -/

theorem foldl_stepped (b : Block) (dst : Dst) (regs : Nat) (cmp : Bool) (f : TRef → Res) (hk : dst.file ≠ .k) (g : Issue)
    (ts : List TRef) (p : State) (hn : ts.Nodup) (hb : ∀ t ∈ ts, p.bound t = true) :
    Computed p ((ts.map fun t => (t, f t)).foldl (fun s e => advance (writeRes b dst regs cmp s e.1 e.2) e.1) p)
      g b ts dst regs cmp f := by
  induction ts generalizing p with
  | nil =>
    exact ⟨OnlyRegisters.refl p, fun _ => rfl, fun _ => by simp, fun _ _ => by simp, fun _ _ => by simp [hk],
      fun _ _ _ => by simp, fun _ => by simp⟩
  | cons t ts ih =>
    simp only [List.nodup_cons] at hn
    have st := stepped_writeRes p b t dst regs cmp (f t) (hb t List.mem_cons_self) hk
    have r := ih (advance (writeRes b dst regs cmp p t (f t)) t) hn.2
      (fun u hu => by rw [st.bound]; exact hb u (List.mem_cons_of_mem t hu))
    simp only [List.map_cons, List.foldl_cons]
    have hx : ∀ u, u = t → u ∉ ts := fun u e => e ▸ hn.1
    refine ⟨st.only.trans r.only, fun u => (r.bound u).trans (st.bound u), fun u => ?_, fun u n => ?_, fun w n => ?_,
      fun u n h => ?_, fun u => ?_⟩
    · rw [r.pcs, st.pcs]
      by_cases hu : u = t
      · simp [hu, hn.1]
      · simp [hu]
    · rw [r.vregs, st.vregs]
      by_cases hu : u = t
      · subst hu; simp [hn.1]
      · simp [hu]
    · rw [r.kregs, st.kregs]; simp [hk]
    · rw [r.conds u n h]
      have sc : ∀ m, m < 12 → creg (advance (writeRes b dst regs cmp p t (f t)) t) u m =
        if u = t then condsAfter b dst cmp (f t) (creg p u) m else creg p u m := fun m hm => st.conds u m hm
      by_cases hu : u = t
      · subst hu; simp [hn.1, hk, st.conds _ _ h]
      · have : ∀ r, condsAfter b dst cmp r (creg (advance (writeRes b dst regs cmp p t (f t)) t) u) n =
            condsAfter b dst cmp r (creg p u) n := by
          intro r; simp only [condsAfter, st.conds u n h, hu, if_false]
        simp [hu, this, st.conds u n h]
    · rw [r.flags, st.flags]
      by_cases hu : u = t
      · subst hu; simp [hn.1, hk]
      · simp [hu, hk]

theorem foldl_raised (ts : List TRef) (p : State) (fl : Nat) (hn : ts.Nodup) (hb : ∀ t ∈ ts, p.bound t = true) :
    let s' := ts.foldl (fun s t => advance (raiseFlags s t fl) t) p
    OnlyRegisters p s' ∧ (∀ u, s'.bound u = p.bound u) ∧
    (∀ u, (s'.thread u).pc = if u ∈ ts then nextPc (p.thread u).pc else (p.thread u).pc) ∧
    (∀ u n, vreg s' u n = vreg p u n) ∧ (∀ w n, kreg s' w n = kreg p w n) ∧
    (∀ u, (s'.thread u).cond = (p.thread u).cond) ∧
    (∀ u, (s'.thread u).fflags = if u ∈ ts then (p.thread u).fflags ||| d fl else (p.thread u).fflags) := by
  induction ts generalizing p with
  | nil => exact ⟨OnlyRegisters.refl p, fun _ => rfl, fun _ => by simp, fun _ _ => rfl, fun _ _ => rfl, fun _ => rfl, fun _ => by simp⟩
  | cons t ts ih =>
    simp only [List.nodup_cons] at hn
    have ht := hb t List.mem_cons_self
    have hb1 : ∀ u, (advance (raiseFlags p t fl) t).bound u = p.bound u := fun u => by
      rw [bound_advance _ _ _ (by rw [bound_raiseFlags _ _ _ _ ht]; exact ht), bound_raiseFlags _ _ _ _ ht]
    obtain ⟨h1, h2, h3, h4, h5, h6, h7⟩ := ih (advance (raiseFlags p t fl) t) hn.2
      (fun u hu => by rw [hb1]; exact hb u (List.mem_cons_of_mem t hu))
    simp only [List.foldl_cons]
    have hth : ∀ u, (advance (raiseFlags p t fl) t).thread u = if u = t then
        { p.thread t with fflags := (p.thread t).fflags ||| d fl, pc := nextPc (p.thread t).pc } else p.thread u := fun u => by
      rw [thread_advance, thread_raiseFlags, thread_raiseFlags]
      by_cases hu : u = t <;> simp [hu]
    refine ⟨(onlyRegisters_raiseFlags p t fl).trans ((onlyRegisters_advance _ _).trans h1), fun u => (h2 u).trans (hb1 u),
      fun u => ?_, fun u n => ?_, fun w n => ?_, fun u => ?_, fun u => ?_⟩
    · rw [h3, hth]
      by_cases hu : u = t
      · subst hu; simp [hn.1]
      · simp [hu]
    · rw [h4, vreg_advance, vreg_raiseFlags]
    · rw [h5, kreg_advance, kreg_raiseFlags]
    · rw [h6, hth]
      by_cases hu : u = t
      · subst hu; simp
      · simp [hu]
    · rw [h7, hth]
      by_cases hu : u = t
      · subst hu; simp [hn.1]
      · simp [hu]

/-- Everything that writing the results of a group does. -/
theorem finishRes_computed (dst : Dst) (regs : Nat) (cmp : Bool) (f : TRef → Res) (p : State) (g : Issue) (b : Block)
    (ts : List TRef) (hne : ts ≠ []) (hn : ts.Nodup) (hb : ∀ t ∈ ts, p.bound t = true) :
    Computed p (finishRes dst regs cmp f p g b ts) g b ts dst regs cmp f := by
  cases hf : dst.file with
  | v =>
    have e : finishRes dst regs cmp f p g b ts =
        (ts.map fun t => (t, f t)).foldl (fun s e => advance (writeRes b dst regs cmp s e.1 e.2) e.1) p := by
      simp only [finishRes, hf]
    rw [e]; exact foldl_stepped b dst regs cmp f (by simp [hf]) g ts p hn hb
  | c =>
    have e : finishRes dst regs cmp f p g b ts =
        (ts.map fun t => (t, f t)).foldl (fun s e => advance (writeRes b dst regs cmp s e.1 e.2) e.1) p := by
      simp only [finishRes, hf]
    rw [e]; exact foldl_stepped b dst regs cmp f (by simp [hf]) g ts p hn hb
  | k =>
    cases ts with
    | nil => exact absurd rfl hne
    | cons t0 ts =>
      have e : finishRes dst regs cmp f p g b (t0 :: ts) =
          (t0 :: ts).foldl (fun s t => advance (raiseFlags s t (f t0).flags) t)
            (setKs p g dst.num.toNat (toWords regs (f t0).val)) := by
        simp only [finishRes, hf]
      have hr := foldl_raised (t0 :: ts) (setKs p g dst.num.toNat (toWords regs (f t0).val)) (f t0).flags hn
        (fun t ht => by rw [bound_setKs]; exact hb t ht)
      rw [← e] at hr
      obtain ⟨h1, h2, h3, h4, h5, h6, h7⟩ := hr
      refine ⟨(onlyRegisters_setKs _ _ _ _).trans h1, fun u => (h2 u).trans (bound_setKs _ _ _ _ _), fun u => ?_,
        fun u n => ?_, fun w n => ?_, fun u n _ => ?_, fun u => ?_⟩
      · rw [h3, thread_setKs]
      · rw [h4, vreg_thread _ _ _ _ (thread_setKs _ _ _ _ _) (by rw [(onlyRegisters_setKs _ _ _ _).rest])]
        simp [hf]
      · rw [h5, kreg_setKs, length_toWords]
        by_cases c : w = g.wave ∧ dst.num.toNat ≤ n ∧ n < dst.num.toNat + regs
        · rw [if_pos c, if_pos ⟨c.1, hf, c.2⟩, getD_toWords _ _ _ (by omega)]; rfl
        · rw [if_neg c, if_neg fun h => c ⟨h.1, h.2.2⟩]
      · simp only [creg, h6, thread_setKs]; simp [hf]
      · rw [h7, thread_setKs]; simp [hf, d]

/-- An arithmetic instruction that issues computes. -/
theorem computes_of_finish {i : Instr} {s : State} {g : Issue} {b : Block} (h : Issues i .normal s g b) {dst : Dst} {regs : Nat}
    {cmp : Bool} {f : State → TRef → Res}
    (e : exec i s = .next (finishRes dst regs cmp (f (passed s g b i .normal)) (passed s g b i .normal) g b
      (executing s g b i .normal))) :
    Computes i s g b dst regs cmp f :=
  ⟨_, e, finishRes_computed dst regs cmp _ _ g b _ h.some (nodup_executing s g b i .normal) fun _ ht =>
    alive_bound (standing_alive (standing_passed ht))⟩

theorem compute_eq {i : Instr} {s : State} {g : Issue} {b : Block} (h : Issues i .normal s g b) (dst : Dst) (regs : Nat)
    (cmp : Bool) (f : State → Issue → TRef → Res) :
    compute i dst regs cmp f s = finishRes dst regs cmp (f (passed s g b i .normal) g) (passed s g b i .normal) g b
      (executing s g b i .normal) := issue_eq h _

/-- `compute` does what it computes. -/
theorem does_of {i : Instr} {dst : Dst} {regs : Nat} {cmp : Bool} {f : State → TRef → Res}
    (e : ∀ s, exec i s = .next (compute i dst regs cmp (fun s _ t => f s t) s)) : Does i dst regs cmp f :=
  fun s _ _ h => computes_of_finish h (by rw [e, compute_eq h])

theorem doesInGroup_of {i : Instr} {dst : Dst} {regs : Nat} {cmp : Bool} {f : State → Issue → List TRef → TRef → Res}
    (e : ∀ s, exec i s = .next (issue i .normal (fun s g b ts => finishRes dst regs cmp (f s g ts) s g b ts) s)) :
    DoesInGroup i dst regs cmp f :=
  fun s g b h => computes_of_finish (f := fun p => f p g (executing s g b i .normal)) h (by rw [e, issue_eq h])

end Sys2Proof.Machine
end

