-- ==== Sys2Proof/Laws/Encoding.lean ====
section
/-! SUPPORT. The fields and formats of a slot: what the decoder reads back from the encoder's bits. -/

namespace Sys2Proof

theorem ofBits_dfile (f : DFile) : DFile.ofBits f.toBits = some f := by cases f <;> rfl
theorem ofBits_sfile (f : SFile) : SFile.ofBits f.toBits = f := by cases f <;> rfl
theorem ofBits_perm (f : Perm) : Perm.ofBits f.toBits = some f := by cases f <;> rfl
theorem ofBits_ty (f : Ty) : Ty.ofBits f.toBits = f := by cases f <;> rfl
theorem ofBits_ord (f : Ord) : Ord.ofBits f.toBits = f := by cases f <;> rfl
theorem ofBits_scope (f : Scope) : Scope.ofBits f.toBits = some f := by cases f <;> rfl
theorem ofBits_ret (f : Ret) : Ret.ofBits f.toBits = f := by cases f <;> rfl
theorem ofBits_cnt (f : Cnt) : Cnt.ofBits f.toBits = f := by cases f <;> rfl

/-- A field that lies above the low part of a word. -/
theorem field_high {v w : Nat} (hi : BitVec v) (lo : BitVec w) (start len : Nat) (h : w ≤ start) :
    (hi ++ lo).extractLsb' start len = hi.extractLsb' (start - w) len := BitVec.extractLsb'_append_eq_of_le h

/-- A field that lies in the low part of a word. -/
theorem field_low {v w : Nat} (hi : BitVec v) (lo : BitVec w) (start len : Nat) (h : start + len ≤ w) :
    (hi ++ lo).extractLsb' start len = lo.extractLsb' start len := BitVec.extractLsb'_append_eq_of_add_le h

theorem bit_high {v w : Nat} (hi : BitVec v) (lo : BitVec w) (i : Nat) (h : w ≤ i) :
    (hi ++ lo).getLsbD i = hi.getLsbD (i - w) := by
  simp only [BitVec.getLsbD_append]; rw [if_neg (by omega)]

theorem bit_low {v w : Nat} (hi : BitVec v) (lo : BitVec w) (i : Nat) (h : i < w) :
    (hi ++ lo).getLsbD i = lo.getLsbD i := by
  simp only [BitVec.getLsbD_append]; rw [if_pos h]

@[simp] theorem getLsbD_bit (b : Bool) : (bit b).getLsbD 0 = b := by cases b <;> rfl

theorem decDst_encDst (x : Dst) : decDst (encDst x) = some x := by
  obtain ⟨scl, clp, file, num⟩ := x
  unfold decDst encDst
  repeat first | rw [field_high (h := by omega)] | rw [field_low (h := by omega)]
  simp [ofBits_dfile]

theorem decSrc_encSrc (x : Src) : decSrc (encSrc x) = some x := by
  obtain ⟨abs, neg, param, perm, file, num⟩ := x
  unfold decSrc encSrc
  repeat first | rw [field_high (h := by omega)] | rw [field_low (h := by omega)]
  repeat first | rw [bit_high (h := by omega)] | rw [bit_low (h := by omega)]
  simp [ofBits_perm, ofBits_sfile, bit]
  cases abs <;> cases neg <;> simp

/-- The R format: the decoder reads every field that the encoder wrote, and the opcode. -/
theorem decR_encR (op : BitVec 8) (f : RForm) : decR (encR op f) = some f := by
  obtain ⟨⟨typ, inv, sel⟩, dst, a, b, c, xf⟩ := f
  unfold decR encR decHead encHead
  repeat first | rw [field_high (h := by omega)] | rw [field_low (h := by omega)]
  repeat first | rw [bit_high (h := by omega)] | rw [bit_low (h := by omega)]
  simp [ofBits_ty, ofBits_ord, ofBits_scope, ofBits_ret, ofBits_cnt, decDst_encDst, decSrc_encSrc, bit]
  cases inv <;> simp

theorem opcode_encR (op : BitVec 8) (f : RForm) : (encR op f).extractLsb' 0 8 = op := by
  unfold encR encHead
  repeat first | rw [field_high (h := by omega)] | rw [field_low (h := by omega)]
  simp

theorem decHead_encR (op : BitVec 8) (f : RForm) : decHead (encR op f) = f.h := by
  obtain ⟨⟨typ, inv, sel⟩, dst, a, b, c, xf⟩ := f
  unfold encR decHead encHead
  repeat first | rw [field_high (h := by omega)] | rw [field_low (h := by omega)]
  repeat first | rw [bit_high (h := by omega)] | rw [bit_low (h := by omega)]
  simp [ofBits_ty, bit]
  cases inv <;> simp

/-- The I format: the decoder reads every field that the encoder wrote, and the opcode. -/
theorem decI_encI (op : BitVec 8) (f : IForm) : decI (encI op f) = some f := by
  obtain ⟨⟨typ, inv, sel⟩, dst, a, imm, xf⟩ := f
  unfold decI encI decHead encHead
  repeat first | rw [field_high (h := by omega)] | rw [field_low (h := by omega)]
  repeat first | rw [bit_high (h := by omega)] | rw [bit_low (h := by omega)]
  simp [ofBits_ty, ofBits_ord, ofBits_scope, ofBits_ret, ofBits_cnt, decDst_encDst, decSrc_encSrc, bit]
  cases inv <;> simp

theorem opcode_encI (op : BitVec 8) (f : IForm) : (encI op f).extractLsb' 0 8 = op := by
  unfold encI encHead
  repeat first | rw [field_high (h := by omega)] | rw [field_low (h := by omega)]
  simp

theorem decHead_encI (op : BitVec 8) (f : IForm) : decHead (encI op f) = f.h := by
  obtain ⟨⟨typ, inv, sel⟩, dst, a, imm, xf⟩ := f
  unfold encI decHead encHead
  repeat first | rw [field_high (h := by omega)] | rw [field_low (h := by omega)]
  repeat first | rw [bit_high (h := by omega)] | rw [bit_low (h := by omega)]
  simp [ofBits_ty, bit]
  cases inv <;> simp

/-- The S format: the decoder reads every field that the encoder wrote, and the opcode. -/
theorem decS_encS (op : BitVec 8) (f : SForm) : decS (encS op f) = some f := by
  obtain ⟨⟨typ, inv, sel⟩, dst, a, b, imm, xf⟩ := f
  unfold decS encS decHead encHead
  repeat first | rw [field_high (h := by omega)] | rw [field_low (h := by omega)]
  repeat first | rw [bit_high (h := by omega)] | rw [bit_low (h := by omega)]
  simp [ofBits_ty, ofBits_ord, ofBits_scope, ofBits_ret, ofBits_cnt, decDst_encDst, decSrc_encSrc, bit]
  cases inv <;> simp

theorem opcode_encS (op : BitVec 8) (f : SForm) : (encS op f).extractLsb' 0 8 = op := by
  unfold encS encHead
  repeat first | rw [field_high (h := by omega)] | rw [field_low (h := by omega)]
  simp

theorem decHead_encS (op : BitVec 8) (f : SForm) : decHead (encS op f) = f.h := by
  obtain ⟨⟨typ, inv, sel⟩, dst, a, b, imm, xf⟩ := f
  unfold encS decHead encHead
  repeat first | rw [field_high (h := by omega)] | rw [field_low (h := by omega)]
  repeat first | rw [bit_high (h := by omega)] | rw [bit_low (h := by omega)]
  simp [ofBits_ty, bit]
  cases inv <;> simp

/-- The M format: the decoder reads every field that the encoder wrote, and the opcode. -/
theorem decM_encM (op : BitVec 8) (f : MForm) : decM (encM op f) = some f := by
  obtain ⟨⟨typ, inv, sel⟩, dat, base, ofs, ret, ord, scp, cnt, xf⟩ := f
  unfold decM encM decHead encHead
  repeat first | rw [field_high (h := by omega)] | rw [field_low (h := by omega)]
  repeat first | rw [bit_high (h := by omega)] | rw [bit_low (h := by omega)]
  simp [ofBits_ty, ofBits_ord, ofBits_scope, ofBits_ret, ofBits_cnt, decDst_encDst, decSrc_encSrc, bit]
  cases inv <;> simp

theorem opcode_encM (op : BitVec 8) (f : MForm) : (encM op f).extractLsb' 0 8 = op := by
  unfold encM encHead
  repeat first | rw [field_high (h := by omega)] | rw [field_low (h := by omega)]
  simp

theorem decHead_encM (op : BitVec 8) (f : MForm) : decHead (encM op f) = f.h := by
  obtain ⟨⟨typ, inv, sel⟩, dat, base, ofs, ret, ord, scp, cnt, xf⟩ := f
  unfold encM decHead encHead
  repeat first | rw [field_high (h := by omega)] | rw [field_low (h := by omega)]
  repeat first | rw [bit_high (h := by omega)] | rw [bit_low (h := by omega)]
  simp [ofBits_ty, bit]
  cases inv <;> simp

/-- The B format: the decoder reads every field that the encoder wrote, and the opcode. -/
theorem decB_encB (op : BitVec 8) (f : BForm) : decB (encB op f) = some f := by
  obtain ⟨⟨typ, inv, sel⟩, loff, ts, lnk, lnkK, hint, cond⟩ := f
  unfold decB encB decHead encHead
  repeat first | rw [field_high (h := by omega)] | rw [field_low (h := by omega)]
  repeat first | rw [bit_high (h := by omega)] | rw [bit_low (h := by omega)]
  simp [ofBits_ty, ofBits_ord, ofBits_scope, ofBits_ret, ofBits_cnt, decDst_encDst, decSrc_encSrc, bit]
  cases inv <;> cases lnkK <;> simp

theorem opcode_encB (op : BitVec 8) (f : BForm) : (encB op f).extractLsb' 0 8 = op := by
  unfold encB encHead
  repeat first | rw [field_high (h := by omega)] | rw [field_low (h := by omega)]
  simp

theorem decHead_encB (op : BitVec 8) (f : BForm) : decHead (encB op f) = f.h := by
  obtain ⟨⟨typ, inv, sel⟩, loff, ts, lnk, lnkK, hint, cond⟩ := f
  unfold encB decHead encHead
  repeat first | rw [field_high (h := by omega)] | rw [field_low (h := by omega)]
  repeat first | rw [bit_high (h := by omega)] | rw [bit_low (h := by omega)]
  simp [ofBits_ty, bit]
  cases inv <;> simp

/-- The MX format: the decoder reads every field that the encoder wrote, and the opcode. -/
theorem decX_encX (op : BitVec 8) (f : MXForm) : decX (encX op f) = some f := by
  obtain ⟨⟨typ, inv, sel⟩, arr, ar, m, f1, f2, cv, bits, sgn, acc, rm, kx, ky, kz⟩ := f
  unfold decX encX decHead encHead
  repeat first | rw [field_high (h := by omega)] | rw [field_low (h := by omega)]
  repeat first | rw [bit_high (h := by omega)] | rw [bit_low (h := by omega)]
  simp [ofBits_ty, ofBits_ord, ofBits_scope, ofBits_ret, ofBits_cnt, decDst_encDst, decSrc_encSrc, bit]
  cases inv <;> cases arr <;> cases sgn <;> cases acc <;> simp

theorem opcode_encX (op : BitVec 8) (f : MXForm) : (encX op f).extractLsb' 0 8 = op := by
  unfold encX encHead
  repeat first | rw [field_high (h := by omega)] | rw [field_low (h := by omega)]
  simp

theorem decHead_encX (op : BitVec 8) (f : MXForm) : decHead (encX op f) = f.h := by
  obtain ⟨⟨typ, inv, sel⟩, arr, ar, m, f1, f2, cv, bits, sgn, acc, rm, kx, ky, kz⟩ := f
  unfold encX decHead encHead
  repeat first | rw [field_high (h := by omega)] | rw [field_low (h := by omega)]
  repeat first | rw [bit_high (h := by omega)] | rw [bit_low (h := by omega)]
  simp [ofBits_ty, bit]
  cases inv <;> simp

end Sys2Proof
end

