-- ==== Sys2Proof/Laws/Memory.lean ====
section
/-! SUPPORT. Memories: what a byte reads as after a write of a line or of scratch, and that writes keep the canonical
form. -/

namespace Sys2Proof.Machine

@[simp] theorem wf_empty : Memory.wf [] = true := rfl

theorem byte_set (m : Memory) (i j : Nat) (v : Byte) :
    Memory.byte (Table.set 0 m i v) j = if j = i then v else Memory.byte m j := Table.get_set 0 m i j v

theorem wf_setByte (m : Memory) (i : Nat) (v : Byte) (h : Memory.wf m = true) : Memory.wf (Table.set 0 m i v) = true :=
  Table.wf_set 0 m i v h

/-- Writing the bytes that a test selects, one after another, keeps the canonical form. -/
theorem wf_foldSet (l : List Nat) (m : Memory) (pa : Nat) (sel : Nat → Bool) (val : Nat → Byte) (h : Memory.wf m = true) :
    Memory.wf (l.foldl (fun m i => if sel i then Table.set 0 m (pa + i) (val i) else m) m) = true := by
  induction l generalizing m with
  | nil => exact h
  | cons i l ih =>
    simp only [List.foldl_cons]
    exact ih _ (by split; exact wf_setByte _ _ _ h; exact h)

theorem byte_foldSet (l : List Nat) (m : Memory) (pa a : Nat) (sel : Nat → Bool) (val : Nat → Byte) :
    Memory.byte (l.foldl (fun m i => if sel i then Table.set 0 m (pa + i) (val i) else m) m) a =
      if pa ≤ a ∧ a - pa ∈ l ∧ sel (a - pa) = true then val (a - pa) else Memory.byte m a := by
  induction l generalizing m with
  | nil => simp
  | cons i l ih =>
    simp only [List.foldl_cons, ih, List.mem_cons]
    by_cases hp : pa ≤ a ∧ a - pa ∈ l ∧ sel (a - pa) = true
    · simp [hp]
    · rw [if_neg hp]
      by_cases hi : pa ≤ a ∧ a - pa = i
      · obtain ⟨h1, rfl⟩ := hi
        by_cases hs : sel (a - pa) = true
        · simp only [hs, if_true, h1, true_and, and_true, true_or]
          rw [byte_set, if_pos (by omega)]
        · simp [hs]
      · have hne : a ≠ pa + i := by omega
        have : ¬(pa ≤ a ∧ (a - pa = i ∨ a - pa ∈ l) ∧ sel (a - pa) = true) := by
          rintro ⟨h1, h2 | h2, h3⟩
          · exact hi ⟨h1, h2⟩
          · exact hp ⟨h1, h2, h3⟩
        rw [if_neg this]
        split
        · rw [byte_set, if_neg hne]
        · rfl

/-- A line write keeps memory canonical. -/
theorem wf_memWriteLine (m : Memory) (pa : Nat) (mask : BitVec 128) (val : BitVec 1024) (h : Memory.wf m = true) :
    Memory.wf (memWriteLine m pa mask val) = true :=
  wf_foldSet _ m pa (fun i => mask.getLsbD i) (fun i => BitVec.ofNat 8 (lineGet val i 1)) h

/-- After a line write the masked bytes are the line's, and all others are as before. -/
theorem byte_memWriteLine (m : Memory) (pa : Nat) (mask : BitVec 128) (val : BitVec 1024) (a : Nat) :
    Memory.byte (memWriteLine m pa mask val) a =
      if pa ≤ a ∧ a - pa < 128 ∧ mask.getLsbD (a - pa) = true then BitVec.ofNat 8 (lineGet val (a - pa) 1)
      else Memory.byte m a := by
  have h := byte_foldSet (List.range 128) m pa a (fun i => mask.getLsbD i) (fun i => BitVec.ofNat 8 (lineGet val i 1))
  simpa [memWriteLine] using h

theorem scratchPut_cons (m : Memory) (a : Nat) (b : Byte) (bs : List Byte) :
    scratchPut m a (b :: bs) = scratchPut (Table.set 0 m a b) (a + 1) bs := rfl

/-- A scratch write keeps the local memory canonical. -/
theorem wf_scratchPut (m : Memory) (a : Nat) (bs : List Byte) (h : Memory.wf m = true) :
    Memory.wf (scratchPut m a bs) = true := by
  induction bs generalizing m a with
  | nil => exact h
  | cons b bs ih => rw [scratchPut_cons]; exact ih _ _ (wf_setByte _ _ _ h)

/-- After a scratch write the written bytes stand there, and all others are as before. -/
theorem byte_scratchPut (m : Memory) (a : Nat) (bs : List Byte) (x : Nat) :
    Memory.byte (scratchPut m a bs) x = if a ≤ x ∧ x < a + bs.length then bs.getD (x - a) 0 else Memory.byte m x := by
  induction bs generalizing m a with
  | nil => rw [if_neg (by simp only [List.length_nil]; omega)]; rfl
  | cons b bs ih =>
    rw [scratchPut_cons, ih, byte_set]
    simp only [List.length_cons]
    by_cases h : a + 1 ≤ x ∧ x < a + 1 + bs.length
    · rw [if_pos h, if_pos (by omega)]
      have : x - a = (x - (a + 1)) + 1 := by omega
      rw [this]; simp
    · rw [if_neg h]
      by_cases h2 : x = a
      · subst h2; simp
      · rw [if_neg h2, if_neg (by omega)]

theorem core_modCore (s : State) (c e : Nat) (f : Core → Core) :
    (s.modCore c f).core e = if e = c then f (s.core c) else s.core e := by
  simp only [State.core, State.modCore, Table.upd, Table.get_put]

/-- A scratch write is one of its own core's scratch, and of nothing else. -/
theorem scratch_scratchWrite (s : State) (core a : Nat) (bs : List Byte) (c : Nat) :
    ((scratchWrite s core a bs).core c).scratch =
      if c = core then scratchPut (s.core core).scratch a bs else (s.core c).scratch := by
  simp only [scratchWrite, core_modCore]; split <;> rfl

/-- An error's record changes no byte of memory. -/
@[simp] theorem errorRecord_mem (s : State) (part consumer action va : Nat) (place : ErrorPlace) (pc : BitVec 64)
    (t : Option TRef) : (errorRecord s part consumer action va place pc t).mem = s.mem := by
  have hi (s : State) (hs : List Nat) : (interrupted s hs).mem = s.mem := by unfold interrupted; split <;> rfl
  have hj (s : State) (t : TRef) (k : Nat) : (jobError s t k).mem = s.mem := by
    unfold jobError
    split
    · split
      · rfl
      · exact hi ..
    · rfl
  have hn (s : State) (pa : Nat) (u : Bool) : (noteError s pa u).mem = s.mem := by unfold noteError; split <;> rfl
  have hp (s : State) (p : Nat) (r : BitVec 512) : (postFault s p r).mem = s.mem := rfl
  unfold errorRecord
  cases place <;> cases t <;> simp [hp, hn, hj]

/-- The canonical form through the two results of a granule's write. -/
theorem wf_granuleTake (s : State) (part va pa : Nat) (place : ErrorPlace) (mask : BitVec 128) (val : BitVec 1024) (g : Nat)
    (h : Memory.wf s.mem = true) : Memory.wf (granuleTake s part va pa place mask val g).mem = true := by
  have key : (if s.bad.contains (pa / 32 + g) then errorRecord s part 3 0 va place 0 none else s).mem = s.mem := by
    split
    · exact errorRecord_mem ..
    · rfl
  have two : (granuleTake s part va pa place mask val g).mem =
      match paKind s pa with
      | .peer _ => (if s.bad.contains (pa / 32 + g) then errorRecord s part 3 0 va place 0 none else s).mem
      | _ => memWriteLine (if s.bad.contains (pa / 32 + g) then errorRecord s part 3 0 va place 0 none else s).mem pa
          (mask &&& byteMask (32 * g) 32) val := by
    simp only [granuleTake]
    cases paKind s pa <;> rfl
  rw [two, key]
  split
  · exact h
  · exact wf_memWriteLine _ _ _ _ h

/-- A write to physical memory keeps its canonical form, whatever it meets (R520). -/
theorem wf_granulesWrite (s : State) (part va pa : Nat) (place : Nat → ErrorPlace) (mask : BitVec 128) (val : BitVec 1024)
    (h : Memory.wf s.mem = true) : Memory.wf (granulesWrite s part va pa place mask val).mem = true := by
  unfold granulesWrite
  generalize [0, 1, 2, 3] = l
  induction l generalizing s with
  | nil => exact h
  | cons g l ih =>
    refine ih _ ?_
    dsimp only
    split
    · exact h
    · split
      · rw [errorRecord_mem]; exact h
      · exact wf_granuleTake _ _ _ _ _ _ _ _ h

/-- A line without an uncorrectable granule has no part of one to write. -/
theorem badParts_good (l : CsmLine) (mask : BitVec 128) (h : l.bad = 0) : l.badParts mask = [] := by
  simp [CsmLine.badParts, h]

/-- A line without an uncorrectable granule takes bytes as any line does, and leaves no record. -/
theorem takeIn_good (s : State) (l : CsmLine) (mask : BitVec 128) (val : BitVec 1024) (ret : Option Ret) (h : l.bad = 0) :
    takeIn s l mask val ret = (s, l.take mask val ret) := by
  simp only [takeIn, badWriteRecords, CsmLine.droppedBytes, CsmLine.mended, badParts_good l mask h, List.foldl_nil]
  have z (n : Nat) (x : BitVec n) : x &&& ~~~(0 : BitVec n) = x := by
    simp
  rw [z, z]

/-- Such a line is written back as it stands. -/
theorem soundLine_good (s : State) (l : CsmLine) (h : l.bad = 0) : soundLine s l = (s, l) := by
  simp [soundLine, badParts_good l _ h]

end Sys2Proof.Machine
end

