-- ==== Sys2Proof/Laws/PerInstr.lean ====
section
/-! SUPPORT. Said of every instruction by one lemma a constructor: its encoding starts with an assigned opcode, its guard
and its type (R248, R262). -/

namespace Sys2Proof.Laws.Encodes

/-- Whatever words an instruction has, their opcode is an assigned one and their head is the instruction's (R248, R262). -/
def Statement (i : Instr) : Prop :=
  ∀ w, encode i = some w → opcodeAssigned (w.extractLsb' 0 8).toNat = true ∧ decHead w = i.head

/-- The claim of an instruction whose words are known. -/
theorem of_words {i : Instr} {w : BitVec 96} {op : BitVec 8} (e : encode i = some w) (o : w.extractLsb' 0 8 = op)
    (a : opcodeAssigned op.toNat = true) (h : decHead w = i.head) : Statement i := by
  intro v hv
  rw [e] at hv
  cases hv
  rw [o]
  exact ⟨a, h⟩

/-- The claim of an event, which has no words. -/
theorem of_event {i : Instr} (e : encode i = none) : Statement i := by
  intro w h
  rw [e] at h
  cases h

theorem nop (f : RForm) : Statement (.nop f) := of_words rfl (opcode_encR 0x00 f) rfl (decHead_encR 0x00 f)
theorem bra (f : BForm) : Statement (.bra f) := of_words rfl (opcode_encB 0x01 f) rfl (decHead_encB 0x01 f)
theorem brx (f : RForm) : Statement (.brx f) := of_words rfl (opcode_encR 0x02 f) rfl (decHead_encR 0x02 f)
theorem call (f : BForm) : Statement (.call f) := of_words rfl (opcode_encB 0x03 f) rfl (decHead_encB 0x03 f)
theorem ret (f : RForm) : Statement (.ret f) := of_words rfl (opcode_encR 0x04 f) rfl (decHead_encR 0x04 f)
theorem callsh (f : RForm) : Statement (.callsh f) := of_words rfl (opcode_encR 0x05 f) rfl (decHead_encR 0x05 f)
theorem exit (f : RForm) : Statement (.exit f) := of_words rfl (opcode_encR 0x06 f) rfl (decHead_encR 0x06 f)
theorem yield (f : RForm) : Statement (.yield f) := of_words rfl (opcode_encR 0x07 f) rfl (decHead_encR 0x07 f)
theorem sleep (f : IForm) : Statement (.sleep f) := of_words rfl (opcode_encI 0x08 f) rfl (decHead_encI 0x08 f)
theorem waitc (f : IForm) : Statement (.waitc f) := of_words rfl (opcode_encI 0x09 f) rfl (decHead_encI 0x09 f)
theorem trap (f : IForm) : Statement (.trap f) := of_words rfl (opcode_encI 0x0A f) rfl (decHead_encI 0x0A f)
theorem brk (f : IForm) : Statement (.brk f) := of_words rfl (opcode_encI 0x0B f) rfl (decHead_encI 0x0B f)
theorem ubra (f : BForm) : Statement (.ubra f) := of_words rfl (opcode_encB 0x0C f) rfl (decHead_encB 0x0C f)
theorem join (f : IForm) : Statement (.join f) := of_words rfl (opcode_encI 0x0D f) rfl (decHead_encI 0x0D f)
theorem iadd (f : RForm) : Statement (.iadd f) := of_words rfl (opcode_encR 0x10 f) rfl (decHead_encR 0x10 f)
theorem isub (f : RForm) : Statement (.isub f) := of_words rfl (opcode_encR 0x11 f) rfl (decHead_encR 0x11 f)
theorem imul (f : RForm) : Statement (.imul f) := of_words rfl (opcode_encR 0x12 f) rfl (decHead_encR 0x12 f)
theorem imulhi (f : RForm) : Statement (.imulhi f) := of_words rfl (opcode_encR 0x13 f) rfl (decHead_encR 0x13 f)
theorem imad (f : RForm) : Statement (.imad f) := of_words rfl (opcode_encR 0x14 f) rfl (decHead_encR 0x14 f)
theorem imadw (f : RForm) : Statement (.imadw f) := of_words rfl (opcode_encR 0x15 f) rfl (decHead_encR 0x15 f)
theorem imin (f : RForm) : Statement (.imin f) := of_words rfl (opcode_encR 0x16 f) rfl (decHead_encR 0x16 f)
theorem imax (f : RForm) : Statement (.imax f) := of_words rfl (opcode_encR 0x17 f) rfl (decHead_encR 0x17 f)
theorem iabsd (f : RForm) : Statement (.iabsd f) := of_words rfl (opcode_encR 0x18 f) rfl (decHead_encR 0x18 f)
theorem idot4 (f : RForm) : Statement (.idot4 f) := of_words rfl (opcode_encR 0x19 f) rfl (decHead_encR 0x19 f)
theorem icmp (f : RForm) : Statement (.icmp f) := of_words rfl (opcode_encR 0x1A f) rfl (decHead_encR 0x1A f)
theorem isel (f : RForm) : Statement (.isel f) := of_words rfl (opcode_encR 0x1B f) rfl (decHead_encR 0x1B f)
theorem lea (f : IForm) : Statement (.lea f) := of_words rfl (opcode_encI 0x1C f) rfl (decHead_encI 0x1C f)
theorem iaddc (f : RForm) : Statement (.iaddc f) := of_words rfl (opcode_encR 0x1D f) rfl (decHead_encR 0x1D f)
theorem movImmediate (f : IForm) : Statement (.movImmediate f) := of_words rfl (opcode_encI 0x1E f) rfl (decHead_encI 0x1E f)
theorem movRegister (f : IForm) : Statement (.movRegister f) := of_words rfl (opcode_encI 0x1E f) rfl (decHead_encI 0x1E f)
theorem movk (f : RForm) : Statement (.movk f) := of_words rfl (opcode_encR 0x1F f) rfl (decHead_encR 0x1F f)
theorem andd (f : RForm) : Statement (.andd f) := of_words rfl (opcode_encR 0x20 f) rfl (decHead_encR 0x20 f)
theorem orr (f : RForm) : Statement (.orr f) := of_words rfl (opcode_encR 0x21 f) rfl (decHead_encR 0x21 f)
theorem xorr (f : RForm) : Statement (.xorr f) := of_words rfl (opcode_encR 0x22 f) rfl (decHead_encR 0x22 f)
theorem andn (f : RForm) : Statement (.andn f) := of_words rfl (opcode_encR 0x23 f) rfl (decHead_encR 0x23 f)
theorem shl (f : RForm) : Statement (.shl f) := of_words rfl (opcode_encR 0x24 f) rfl (decHead_encR 0x24 f)
theorem shr (f : RForm) : Statement (.shr f) := of_words rfl (opcode_encR 0x25 f) rfl (decHead_encR 0x25 f)
theorem sar (f : RForm) : Statement (.sar f) := of_words rfl (opcode_encR 0x26 f) rfl (decHead_encR 0x26 f)
theorem rotl (f : RForm) : Statement (.rotl f) := of_words rfl (opcode_encR 0x27 f) rfl (decHead_encR 0x27 f)
theorem bfx (f : IForm) : Statement (.bfx f) := of_words rfl (opcode_encI 0x28 f) rfl (decHead_encI 0x28 f)
theorem bfi (f : RForm) : Statement (.bfi f) := of_words rfl (opcode_encR 0x29 f) rfl (decHead_encR 0x29 f)
theorem popc (f : RForm) : Statement (.popc f) := of_words rfl (opcode_encR 0x2A f) rfl (decHead_encR 0x2A f)
theorem clz (f : RForm) : Statement (.clz f) := of_words rfl (opcode_encR 0x2B f) rfl (decHead_encR 0x2B f)
theorem brev (f : RForm) : Statement (.brev f) := of_words rfl (opcode_encR 0x2C f) rfl (decHead_encR 0x2C f)
theorem ffs (f : RForm) : Statement (.ffs f) := of_words rfl (opcode_encR 0x2D f) rfl (decHead_encR 0x2D f)
theorem prmb (f : IForm) : Statement (.prmb f) := of_words rfl (opcode_encI 0x2E f) rfl (decHead_encI 0x2E f)
theorem mix32 (f : RForm) : Statement (.mix32 f) := of_words rfl (opcode_encR 0x2F f) rfl (decHead_encR 0x2F f)
theorem fadd (f : RForm) : Statement (.fadd f) := of_words rfl (opcode_encR 0x30 f) rfl (decHead_encR 0x30 f)
theorem fsub (f : RForm) : Statement (.fsub f) := of_words rfl (opcode_encR 0x31 f) rfl (decHead_encR 0x31 f)
theorem fmul (f : RForm) : Statement (.fmul f) := of_words rfl (opcode_encR 0x32 f) rfl (decHead_encR 0x32 f)
theorem ffma (f : RForm) : Statement (.ffma f) := of_words rfl (opcode_encR 0x33 f) rfl (decHead_encR 0x33 f)
theorem fmin (f : RForm) : Statement (.fmin f) := of_words rfl (opcode_encR 0x34 f) rfl (decHead_encR 0x34 f)
theorem fmax (f : RForm) : Statement (.fmax f) := of_words rfl (opcode_encR 0x35 f) rfl (decHead_encR 0x35 f)
theorem fdiv (f : RForm) : Statement (.fdiv f) := of_words rfl (opcode_encR 0x36 f) rfl (decHead_encR 0x36 f)
theorem fsqrt (f : RForm) : Statement (.fsqrt f) := of_words rfl (opcode_encR 0x37 f) rfl (decHead_encR 0x37 f)
theorem frcp (f : RForm) : Statement (.frcp f) := of_words rfl (opcode_encR 0x38 f) rfl (decHead_encR 0x38 f)
theorem frsq (f : RForm) : Statement (.frsq f) := of_words rfl (opcode_encR 0x39 f) rfl (decHead_encR 0x39 f)
theorem fexp2 (f : RForm) : Statement (.fexp2 f) := of_words rfl (opcode_encR 0x3A f) rfl (decHead_encR 0x3A f)
theorem flog2 (f : RForm) : Statement (.flog2 f) := of_words rfl (opcode_encR 0x3B f) rfl (decHead_encR 0x3B f)
theorem fsin (f : RForm) : Statement (.fsin f) := of_words rfl (opcode_encR 0x3C f) rfl (decHead_encR 0x3C f)
theorem fcos (f : RForm) : Statement (.fcos f) := of_words rfl (opcode_encR 0x3D f) rfl (decHead_encR 0x3D f)
theorem ffract (f : RForm) : Statement (.ffract f) := of_words rfl (opcode_encR 0x3E f) rfl (decHead_encR 0x3E f)
theorem frnd (f : RForm) : Statement (.frnd f) := of_words rfl (opcode_encR 0x3F f) rfl (decHead_encR 0x3F f)
theorem fcmp (f : RForm) : Statement (.fcmp f) := of_words rfl (opcode_encR 0x40 f) rfl (decHead_encR 0x40 f)
theorem fclass (f : RForm) : Statement (.fclass f) := of_words rfl (opcode_encR 0x41 f) rfl (decHead_encR 0x41 f)
theorem cvtf (f : RForm) : Statement (.cvtf f) := of_words rfl (opcode_encR 0x42 f) rfl (decHead_encR 0x42 f)
theorem cvtfi (f : RForm) : Statement (.cvtfi f) := of_words rfl (opcode_encR 0x43 f) rfl (decHead_encR 0x43 f)
theorem cvtif (f : RForm) : Statement (.cvtif f) := of_words rfl (opcode_encR 0x44 f) rfl (decHead_encR 0x44 f)
theorem cvtbfp (f : RForm) : Statement (.cvtbfp f) := of_words rfl (opcode_encR 0x45 f) rfl (decHead_encR 0x45 f)
theorem bfpexp (f : RForm) : Statement (.bfpexp f) := of_words rfl (opcode_encR 0x46 f) rfl (decHead_encR 0x46 f)
theorem pack (f : RForm) : Statement (.pack f) := of_words rfl (opcode_encR 0x47 f) rfl (decHead_encR 0x47 f)
theorem unpack (f : RForm) : Statement (.unpack f) := of_words rfl (opcode_encR 0x48 f) rfl (decHead_encR 0x48 f)
theorem frmset (f : IForm) : Statement (.frmset f) := of_words rfl (opcode_encI 0x49 f) rfl (decHead_encI 0x49 f)
theorem fflags (f : IForm) : Statement (.fflags f) := of_words rfl (opcode_encI 0x4A f) rfl (decHead_encI 0x4A f)
theorem srseed (f : RForm) : Statement (.srseed f) := of_words rfl (opcode_encR 0x4B f) rfl (decHead_encR 0x4B f)
theorem ivadd (f : RForm) : Statement (.ivadd f) := of_words rfl (opcode_encR 0x50 f) rfl (decHead_encR 0x50 f)
theorem ivsub (f : RForm) : Statement (.ivsub f) := of_words rfl (opcode_encR 0x51 f) rfl (decHead_encR 0x51 f)
theorem ivmul (f : RForm) : Statement (.ivmul f) := of_words rfl (opcode_encR 0x52 f) rfl (decHead_encR 0x52 f)
theorem ivsqr (f : RForm) : Statement (.ivsqr f) := of_words rfl (opcode_encR 0x53 f) rfl (decHead_encR 0x53 f)
theorem ivsqrt (f : RForm) : Statement (.ivsqrt f) := of_words rfl (opcode_encR 0x54 f) rfl (decHead_encR 0x54 f)
theorem ivmin (f : RForm) : Statement (.ivmin f) := of_words rfl (opcode_encR 0x55 f) rfl (decHead_encR 0x55 f)
theorem ivmax (f : RForm) : Statement (.ivmax f) := of_words rfl (opcode_encR 0x56 f) rfl (decHead_encR 0x56 f)
theorem ivabs (f : RForm) : Statement (.ivabs f) := of_words rfl (opcode_encR 0x57 f) rfl (decHead_encR 0x57 f)
theorem ivhyp (f : RForm) : Statement (.ivhyp f) := of_words rfl (opcode_encR 0x58 f) rfl (decHead_encR 0x58 f)
theorem ivtest (f : RForm) : Statement (.ivtest f) := of_words rfl (opcode_encR 0x59 f) rfl (decHead_encR 0x59 f)
theorem afadd (f : RForm) : Statement (.afadd f) := of_words rfl (opcode_encR 0x5A f) rfl (decHead_encR 0x5A f)
theorem afmul (f : RForm) : Statement (.afmul f) := of_words rfl (opcode_encR 0x5B f) rfl (decHead_encR 0x5B f)
theorem afsqr (f : RForm) : Statement (.afsqr f) := of_words rfl (opcode_encR 0x5C f) rfl (decHead_encR 0x5C f)
theorem afsqrt (f : RForm) : Statement (.afsqrt f) := of_words rfl (opcode_encR 0x5D f) rfl (decHead_encR 0x5D f)
theorem afabs (f : RForm) : Statement (.afabs f) := of_words rfl (opcode_encR 0x5E f) rfl (decHead_encR 0x5E f)
theorem aftoiv (f : RForm) : Statement (.aftoiv f) := of_words rfl (opcode_encR 0x5F f) rfl (decHead_encR 0x5F f)
theorem shfl (f : RForm) : Statement (.shfl f) := of_words rfl (opcode_encR 0x60 f) rfl (decHead_encR 0x60 f)
theorem ballot (f : RForm) : Statement (.ballot f) := of_words rfl (opcode_encR 0x61 f) rfl (decHead_encR 0x61 f)
theorem vote (f : RForm) : Statement (.vote f) := of_words rfl (opcode_encR 0x62 f) rfl (decHead_encR 0x62 f)
theorem scan (f : RForm) : Statement (.scan f) := of_words rfl (opcode_encR 0x63 f) rfl (decHead_encR 0x63 f)
theorem redx (f : RForm) : Statement (.redx f) := of_words rfl (opcode_encR 0x64 f) rfl (decHead_encR 0x64 f)
theorem matchx (f : RForm) : Statement (.matchx f) := of_words rfl (opcode_encR 0x65 f) rfl (decHead_encR 0x65 f)
theorem msksave (f : RForm) : Statement (.msksave f) := of_words rfl (opcode_encR 0x66 f) rfl (decHead_encR 0x66 f)
theorem mskand (f : RForm) : Statement (.mskand f) := of_words rfl (opcode_encR 0x67 f) rfl (decHead_encR 0x67 f)
theorem mskrest (f : RForm) : Statement (.mskrest f) := of_words rfl (opcode_encR 0x68 f) rfl (decHead_encR 0x68 f)
theorem mskelse (f : RForm) : Statement (.mskelse f) := of_words rfl (opcode_encR 0x69 f) rfl (decHead_encR 0x69 f)
theorem xacq (f : IForm) : Statement (.xacq f) := of_words rfl (opcode_encI 0x6A f) rfl (decHead_encI 0x6A f)
theorem xrel (f : IForm) : Statement (.xrel f) := of_words rfl (opcode_encI 0x6B f) rfl (decHead_encI 0x6B f)
theorem wsync (f : IForm) : Statement (.wsync f) := of_words rfl (opcode_encI 0x6C f) rfl (decHead_encI 0x6C f)
theorem ld (f : MForm) : Statement (.ld f) := of_words rfl (opcode_encM 0x70 f) rfl (decHead_encM 0x70 f)
theorem st (f : MForm) : Statement (.st f) := of_words rfl (opcode_encM 0x71 f) rfl (decHead_encM 0x71 f)
theorem ldl (f : MForm) : Statement (.ldl f) := of_words rfl (opcode_encM 0x72 f) rfl (decHead_encM 0x72 f)
theorem stl (f : MForm) : Statement (.stl f) := of_words rfl (opcode_encM 0x73 f) rfl (decHead_encM 0x73 f)
theorem ldc (f : MForm) : Statement (.ldc f) := of_words rfl (opcode_encM 0x74 f) rfl (decHead_encM 0x74 f)
theorem prf (f : MForm) : Statement (.prf f) := of_words rfl (opcode_encM 0x75 f) rfl (decHead_encM 0x75 f)
theorem ldt (f : MForm) : Statement (.ldt f) := of_words rfl (opcode_encM 0x76 f) rfl (decHead_encM 0x76 f)
theorem stt (f : MForm) : Statement (.stt f) := of_words rfl (opcode_encM 0x77 f) rfl (decHead_encM 0x77 f)
theorem fence (f : MForm) : Statement (.fence f) := of_words rfl (opcode_encM 0x78 f) rfl (decHead_encM 0x78 f)
theorem pfence (f : IForm) : Statement (.pfence f) := of_words rfl (opcode_encI 0x79 f) rfl (decHead_encI 0x79 f)
theorem ifence (f : RForm) : Statement (.ifence f) := of_words rfl (opcode_encR 0x7A f) rfl (decHead_encR 0x7A f)
theorem wb (f : MForm) : Statement (.wb f) := of_words rfl (opcode_encM 0x7B f) rfl (decHead_encM 0x7B f)
theorem inv (f : MForm) : Statement (.inv f) := of_words rfl (opcode_encM 0x7C f) rfl (decHead_encM 0x7C f)
theorem wayset (f : IForm) : Statement (.wayset f) := of_words rfl (opcode_encI 0x7D f) rfl (decHead_encI 0x7D f)
theorem atom (f : MForm) : Statement (.atom f) := of_words rfl (opcode_encM 0x80 f) rfl (decHead_encM 0x80 f)
theorem red (f : MForm) : Statement (.red f) := of_words rfl (opcode_encM 0x81 f) rfl (decHead_encM 0x81 f)
theorem cas (f : MForm) : Statement (.cas f) := of_words rfl (opcode_encM 0x82 f) rfl (decHead_encM 0x82 f)
theorem atoml (f : MForm) : Statement (.atoml f) := of_words rfl (opcode_encM 0x83 f) rfl (decHead_encM 0x83 f)
theorem casl (f : MForm) : Statement (.casl f) := of_words rfl (opcode_encM 0x84 f) rfl (decHead_encM 0x84 f)
theorem bupd (f : MForm) : Statement (.bupd f) := of_words rfl (opcode_encM 0x85 f) rfl (decHead_encM 0x85 f)
theorem bred (f : MForm) : Statement (.bred f) := of_words rfl (opcode_encM 0x86 f) rfl (decHead_encM 0x86 f)
theorem aflush (f : RForm) : Statement (.aflush f) := of_words rfl (opcode_encR 0x87 f) rfl (decHead_encR 0x87 f)
theorem bar (f : IForm) : Statement (.bar f) := of_words rfl (opcode_encI 0x90 f) rfl (decHead_encI 0x90 f)
theorem barr (f : IForm) : Statement (.barr f) := of_words rfl (opcode_encI 0x91 f) rfl (decHead_encI 0x91 f)
theorem barw (f : IForm) : Statement (.barw f) := of_words rfl (opcode_encI 0x92 f) rfl (decHead_encI 0x92 f)
theorem cbar (f : IForm) : Statement (.cbar f) := of_words rfl (opcode_encI 0x93 f) rfl (decHead_encI 0x93 f)
theorem gbar (f : IForm) : Statement (.gbar f) := of_words rfl (opcode_encI 0x94 f) rfl (decHead_encI 0x94 f)
theorem larr (f : IForm) : Statement (.larr f) := of_words rfl (opcode_encI 0x95 f) rfl (decHead_encI 0x95 f)
theorem tlwait (f : SForm) : Statement (.tlwait f) := of_words rfl (opcode_encS 0x96 f) rfl (decHead_encS 0x96 f)
theorem tlread (f : SForm) : Statement (.tlread f) := of_words rfl (opcode_encS 0x97 f) rfl (decHead_encS 0x97 f)
theorem cnwait (f : SForm) : Statement (.cnwait f) := of_words rfl (opcode_encS 0x98 f) rfl (decHead_encS 0x98 f)
theorem boinit (f : SForm) : Statement (.boinit f) := of_words rfl (opcode_encS 0x99 f) rfl (decHead_encS 0x99 f)
theorem bowait (f : SForm) : Statement (.bowait f) := of_words rfl (opcode_encS 0x9A f) rfl (decHead_encS 0x9A f)
theorem msgsend (f : SForm) : Statement (.msgsend f) := of_words rfl (opcode_encS 0x9B f) rfl (decHead_encS 0x9B f)
theorem msgpost (f : SForm) : Statement (.msgpost f) := of_words rfl (opcode_encS 0x9C f) rfl (decHead_encS 0x9C f)
theorem rgnb (f : RForm) : Statement (.rgnb f) := of_words rfl (opcode_encR 0x9D f) rfl (decHead_encR 0x9D f)
theorem kick (f : SForm) : Statement (.kick f) := of_words rfl (opcode_encS 0xA0 f) rfl (decHead_encS 0xA0 f)
theorem cbinit (f : SForm) : Statement (.cbinit f) := of_words rfl (opcode_encS 0xA1 f) rfl (decHead_encS 0xA1 f)
theorem cbpushReserve (f : SForm) : Statement (.cbpushReserve f) := of_words rfl (opcode_encS 0xA2 f) rfl (decHead_encS 0xA2 f)
theorem cbpushCommit (f : SForm) : Statement (.cbpushCommit f) := of_words rfl (opcode_encS 0xA2 f) rfl (decHead_encS 0xA2 f)
theorem cbpop (f : SForm) : Statement (.cbpop f) := of_words rfl (opcode_encS 0xA3 f) rfl (decHead_encS 0xA3 f)
theorem cbpopTry (f : SForm) : Statement (.cbpopTry f) := of_words rfl (opcode_encS 0xA3 f) rfl (decHead_encS 0xA3 f)
theorem cbrel (f : SForm) : Statement (.cbrel f) := of_words rfl (opcode_encS 0xA4 f) rfl (decHead_encS 0xA4 f)
theorem cbstat (f : SForm) : Statement (.cbstat f) := of_words rfl (opcode_encS 0xA5 f) rfl (decHead_encS 0xA5 f)
theorem cpcancel (f : SForm) : Statement (.cpcancel f) := of_words rfl (opcode_encS 0xA6 f) rfl (decHead_encS 0xA6 f)
theorem tlsig (f : SForm) : Statement (.tlsig f) := of_words rfl (opcode_encS 0xA7 f) rfl (decHead_encS 0xA7 f)
theorem ctxsel (f : SForm) : Statement (.ctxsel f) := of_words rfl (opcode_encS 0xA8 f) rfl (decHead_encS 0xA8 f)
theorem mxwld (f : MXForm) : Statement (.mxwld f) := of_words rfl (opcode_encX 0xB0 f) rfl (decHead_encX 0xB0 f)
theorem mxwsw (f : MXForm) : Statement (.mxwsw f) := of_words rfl (opcode_encX 0xB1 f) rfl (decHead_encX 0xB1 f)
theorem mxmul (f : MXForm) : Statement (.mxmul f) := of_words rfl (opcode_encX 0xB2 f) rfl (decHead_encX 0xB2 f)
theorem mxzero (f : MXForm) : Statement (.mxzero f) := of_words rfl (opcode_encX 0xB3 f) rfl (decHead_encX 0xB3 f)
theorem mxdrn (f : MXForm) : Statement (.mxdrn f) := of_words rfl (opcode_encX 0xB4 f) rfl (decHead_encX 0xB4 f)
theorem mxperm (f : MXForm) : Statement (.mxperm f) := of_words rfl (opcode_encX 0xB5 f) rfl (decHead_encX 0xB5 f)
theorem cvset (f : SForm) : Statement (.cvset f) := of_words rfl (opcode_encS 0xB6 f) rfl (decHead_encS 0xB6 f)
theorem cvstat (f : SForm) : Statement (.cvstat f) := of_words rfl (opcode_encS 0xB7 f) rfl (decHead_encS 0xB7 f)
theorem freeze (f : RForm) : Statement (.freeze f) := of_words rfl (opcode_encR 0xE0 f) rfl (decHead_encR 0xE0 f)
theorem nest (f : IForm) : Statement (.nest f) := of_words rfl (opcode_encI 0xE1 f) rfl (decHead_encI 0xE1 f)
theorem fillend (f : RForm) : Statement (.fillend f) := of_words rfl (opcode_encR 0xE2 f) rfl (decHead_encR 0xE2 f)
theorem fillq (f : SForm) : Statement (.fillq f) := of_words rfl (opcode_encS 0xE3 f) rfl (decHead_encS 0xE3 f)
theorem filld (f : SForm) : Statement (.filld f) := of_words rfl (opcode_encS 0xE4 f) rfl (decHead_encS 0xE4 f)
theorem phase (f : IForm) : Statement (.phase f) := of_words rfl (opcode_encI 0xE5 f) rfl (decHead_encI 0xE5 f)
theorem tex (f : RForm) : Statement (.tex f) := of_words rfl (opcode_encR 0xC0 f) rfl (decHead_encR 0xC0 f)
theorem texg (f : RForm) : Statement (.texg f) := of_words rfl (opcode_encR 0xC1 f) rfl (decHead_encR 0xC1 f)
theorem brick (f : RForm) : Statement (.brick f) := of_words rfl (opcode_encR 0xC2 f) rfl (decHead_encR 0xC2 f)
theorem texq (f : RForm) : Statement (.texq f) := of_words rfl (opcode_encR 0xC3 f) rfl (decHead_encR 0xC3 f)
theorem rtw (f : RForm) : Statement (.rtw f) := of_words rfl (opcode_encR 0xC4 f) rfl (decHead_encR 0xC4 f)
theorem zt (f : RForm) : Statement (.zt f) := of_words rfl (opcode_encR 0xC5 f) rfl (decHead_encR 0xC5 f)
theorem covq (f : RForm) : Statement (.covq f) := of_words rfl (opcode_encR 0xC6 f) rfl (decHead_encR 0xC6 f)
theorem vbw (f : RForm) : Statement (.vbw f) := of_words rfl (opcode_encR 0xC7 f) rfl (decHead_encR 0xC7 f)
theorem emit (f : SForm) : Statement (.emit f) := of_words rfl (opcode_encS 0xC8 f) rfl (decHead_encS 0xC8 f)
theorem taskpop (f : SForm) : Statement (.taskpop f) := of_words rfl (opcode_encS 0xC9 f) rfl (decHead_encS 0xC9 f)
theorem taskpopTry (f : SForm) : Statement (.taskpopTry f) := of_words rfl (opcode_encS 0xC9 f) rfl (decHead_encS 0xC9 f)
theorem march (f : RForm) : Statement (.march f) := of_words rfl (opcode_encR 0xD0 f) rfl (decHead_encR 0xD0 f)
theorem mhit (f : RForm) : Statement (.mhit f) := of_words rfl (opcode_encR 0xD1 f) rfl (decHead_encR 0xD1 f)
theorem mhitCo (f : RForm) : Statement (.mhitCo f) := of_words rfl (opcode_encR 0xD1 f) rfl (decHead_encR 0xD1 f)
theorem bcprune (f : RForm) : Statement (.bcprune f) := of_words rfl (opcode_encR 0xD2 f) rfl (decHead_encR 0xD2 f)
theorem opqret (f : RForm) : Statement (.opqret f) := of_words rfl (opcode_encR 0xD3 f) rfl (decHead_encR 0xD3 f)
theorem trace (f : RForm) : Statement (.trace f) := of_words rfl (opcode_encR 0xD4 f) rfl (decHead_encR 0xD4 f)
theorem thit (f : RForm) : Statement (.thit f) := of_words rfl (opcode_encR 0xD5 f) rfl (decHead_encR 0xD5 f)
theorem thitRay (f : RForm) : Statement (.thitRay f) := of_words rfl (opcode_encR 0xD5 f) rfl (decHead_encR 0xD5 f)
theorem tstack (f : RForm) : Statement (.tstack f) := of_words rfl (opcode_encR 0xD6 f) rfl (decHead_encR 0xD6 f)
theorem beam (f : RForm) : Statement (.beam f) := of_words rfl (opcode_encR 0xD7 f) rfl (decHead_encR 0xD7 f)
theorem csrr (f : IForm) : Statement (.csrr f) := of_words rfl (opcode_encI 0xF0 f) rfl (decHead_encI 0xF0 f)
theorem csrw (f : IForm) : Statement (.csrw f) := of_words rfl (opcode_encI 0xF1 f) rfl (decHead_encI 0xF1 f)
theorem tret (f : RForm) : Statement (.tret f) := of_words rfl (opcode_encR 0xF2 f) rfl (decHead_encR 0xF2 f)
theorem svc (f : IForm) : Statement (.svc f) := of_words rfl (opcode_encI 0xF3 f) rfl (decHead_encI 0xF3 f)
theorem trc (f : IForm) : Statement (.trc f) := of_words rfl (opcode_encI 0xF4 f) rfl (decHead_encI 0xF4 f)
theorem starvedIssue (ls : Nat) : Statement (.starvedIssue ls) := of_event rfl
theorem ageingBonus (wave : Nat) : Statement (.ageingBonus wave) := of_event rfl
theorem joinTimeout (wave : Nat) (lane : Nat) : Statement (.joinTimeout wave lane) := of_event rfl
theorem sleepExpire (wave : Nat) (lane : Nat) : Statement (.sleepExpire wave lane) := of_event rfl
theorem waitcTimeout (wave : Nat) (lane : Nat) : Statement (.waitcTimeout wave lane) := of_event rfl
theorem waitcWake (wave : Nat) (lane : Nat) : Statement (.waitcWake wave lane) := of_event rfl
theorem extensionBlockGrant (ls : Nat) : Statement (.extensionBlockGrant ls) := of_event rfl
theorem implicitAcquire (wave : Nat) : Statement (.implicitAcquire wave) := of_event rfl
theorem loadComplete (i : Nat) : Statement (.loadComplete i) := of_event rfl
theorem storePerformed (i : Nat) : Statement (.storePerformed i) := of_event rfl
theorem counterRoom (wave : Nat) (lane : Nat) : Statement (.counterRoom wave lane) := of_event rfl
theorem trackerEntryFree (core : Nat) (tracker : Nat) : Statement (.trackerEntryFree core tracker) := of_event rfl
theorem homeBankWriteJudged (i : Nat) : Statement (.homeBankWriteJudged i) := of_event rfl
theorem csmLineToDram (i : Nat) : Statement (.csmLineToDram i) := of_event rfl
theorem matrixStateClear (core : Nat) : Statement (.matrixStateClear core) := of_event rfl
theorem matrixHolderFree (core : Nat) : Statement (.matrixHolderFree core) := of_event rfl
theorem matrixQueueRoom (core : Nat) (arr : Nat) : Statement (.matrixQueueRoom core arr) := of_event rfl
theorem matrixOperationStart (core : Nat) (arr : Nat) : Statement (.matrixOperationStart core arr) := of_event rfl
theorem matrixOperationComplete (core : Nat) (arr : Nat) : Statement (.matrixOperationComplete core arr) := of_event rfl
theorem drainRow (core : Nat) (arr : Nat) : Statement (.drainRow core arr) := of_event rfl
theorem matrixTrapDelivery (wave : Nat) (lane : Nat) : Statement (.matrixTrapDelivery wave lane) := of_event rfl
theorem stampItem (wave : Nat) (lane : Nat) : Statement (.stampItem wave lane) := of_event rfl
theorem templateBankEntryFree (core : Nat) : Statement (.templateBankEntryFree core) := of_event rfl
theorem generatorBind (part : Nat) : Statement (.generatorBind part) := of_event rfl
theorem fillTimeout (gen : Nat) : Statement (.fillTimeout gen) := of_event rfl
theorem generatorMatrixPreempt (part : Nat) : Statement (.generatorMatrixPreempt part) := of_event rfl
theorem copyRequestStart (ctx : Nat) : Statement (.copyRequestStart ctx) := of_event rfl
theorem copyPieceWritten (ctx : Nat) : Statement (.copyPieceWritten ctx) := of_event rfl
theorem copyRequestRetire (ctx : Nat) : Statement (.copyRequestRetire ctx) := of_event rfl
theorem marchStop (wave : Nat) (lane : Nat) : Statement (.marchStop wave lane) := of_event rfl
theorem traversalStop (wave : Nat) (lane : Nat) : Statement (.traversalStop wave lane) := of_event rfl
theorem beamComplete (quad : Nat) : Statement (.beamComplete quad) := of_event rfl
theorem beamQueueRetryExpire (quad : Nat) : Statement (.beamQueueRetryExpire quad) := of_event rfl
theorem messageArrival (core : Nat) : Statement (.messageArrival core) := of_event rfl
theorem peerAccessTimeout (i : Nat) : Statement (.peerAccessTimeout i) := of_event rfl
theorem qtailWrite (part : Nat) (q : Nat) (value : BitVec 64) : Statement (.qtailWrite part q value) := of_event rfl
theorem queueReset (part : Nat) (q : Nat) : Statement (.queueReset part q) := of_event rfl
theorem launchSubmit (part : Nat) (q : Nat) : Statement (.launchSubmit part q) := of_event rfl
theorem launchAdmit (handle : Nat) : Statement (.launchAdmit handle) := of_event rfl
theorem bindRingWrite (part : Nat) (tail : Nat) : Statement (.bindRingWrite part tail) :=
  of_event rfl
theorem bindReserve (part : Nat) : Statement (.bindReserve part) := of_event rfl
theorem bindCommit (part : Nat) : Statement (.bindCommit part) := of_event rfl
theorem bindAbandon (part : Nat) : Statement (.bindAbandon part) := of_event rfl
theorem bindRecordMalformed (part : Nat) : Statement (.bindRecordMalformed part) := of_event rfl
theorem reservationLapse (i : Nat) : Statement (.reservationLapse i) := of_event rfl
theorem binderModeWrite (part : Nat) (value : BitVec 64) : Statement (.binderModeWrite part value) := of_event rfl
theorem generatorReserveWrite (part : Nat) (value : BitVec 64) : Statement (.generatorReserveWrite part value) := of_event rfl
theorem reserveSlotChange (part : Nat) (core : Nat) (slot : Nat) : Statement (.reserveSlotChange part core slot) := of_event rfl
theorem serviceAnswer (part : Nat) (i : Nat) : Statement (.serviceAnswer part i) := of_event rfl
theorem faultRecordWrite (part : Nat) : Statement (.faultRecordWrite part) := of_event rfl
theorem csmDivisionWrite (part : Nat) (value : BitVec 64) : Statement (.csmDivisionWrite part value) := of_event rfl
theorem replay (part : Nat) : Statement (.replay part) := of_event rfl
theorem unresolvable (part : Nat) : Statement (.unresolvable part) := of_event rfl
theorem tlbInvalidate (part : Nat) : Statement (.tlbInvalidate part) := of_event rfl
theorem rangeWriteBack (part : Nat) : Statement (.rangeWriteBack part) := of_event rfl
theorem generationBump (part : Nat) : Statement (.generationBump part) := of_event rfl
theorem fillGo (part : Nat) : Statement (.fillGo part) := of_event rfl
theorem fillFail (part : Nat) : Statement (.fillFail part) := of_event rfl
theorem endLaunch (part : Nat) : Statement (.endLaunch part) := of_event rfl
theorem clearTimelineError (part : Nat) : Statement (.clearTimelineError part) := of_event rfl
theorem partitionSwapOut (part : Nat) : Statement (.partitionSwapOut part) := of_event rfl
theorem partitionSwapIn (part : Nat) : Statement (.partitionSwapIn part) := of_event rfl
theorem pgcmdUnknown (part : Nat) : Statement (.pgcmdUnknown part) := of_event rfl
theorem regionRegister (part : Nat) (va : BitVec 64) : Statement (.regionRegister part va) := of_event rfl
theorem regionUnregister (part : Nat) : Statement (.regionUnregister part) := of_event rfl
theorem preemptAutomatic (part : Nat) (value : BitVec 64) : Statement (.preemptAutomatic part value) := of_event rfl
theorem preemptDrain (part : Nat) (value : BitVec 64) : Statement (.preemptDrain part value) := of_event rfl
theorem preemptSave (part : Nat) (value : BitVec 64) : Statement (.preemptSave part value) := of_event rfl
theorem preemptFlush (part : Nat) (value : BitVec 64) : Statement (.preemptFlush part value) := of_event rfl
theorem haltComplete (i : Nat) : Statement (.haltComplete i) := of_event rfl
theorem restore (i : Nat) : Statement (.restore i) := of_event rfl
theorem readIdentity (fn : Nat) : Statement (.readIdentity fn) := of_event rfl
theorem attest (fn : Nat) : Statement (.attest fn) := of_event rfl
theorem setQuadMap (fn : Nat) : Statement (.setQuadMap fn) := of_event rfl
theorem setContexts (fn : Nat) : Statement (.setContexts fn) := of_event rfl
theorem allocateAsid (fn : Nat) : Statement (.allocateAsid fn) := of_event rfl
theorem freeAsid (fn : Nat) : Statement (.freeAsid fn) := of_event rfl
theorem setPageTableRoot (fn : Nat) : Statement (.setPageTableRoot fn) := of_event rfl
theorem updateStage (fn : Nat) : Statement (.updateStage fn) := of_event rfl
theorem updateCommit (fn : Nat) : Statement (.updateCommit fn) := of_event rfl
theorem mailboxUnknown (fn : Nat) : Statement (.mailboxUnknown fn) := of_event rfl
theorem boot : Statement .boot := of_event rfl
theorem ptmExchange (host : BitVec 64) : Statement (.ptmExchange host) := of_event rfl
theorem linkStateChange (up : Bool) : Statement (.linkStateChange up) := of_event rfl
theorem hostCxlWrite (pa : Nat) (data : BitVec 64) (mask : BitVec 8) : Statement (.hostCxlWrite pa data mask) := of_event rfl
theorem clockStepDown : Statement .clockStepDown := of_event rfl
theorem clockStepUp : Statement .clockStepUp := of_event rfl
theorem heartbeatCheck : Statement .heartbeatCheck := of_event rfl
theorem quadFailure (quad : Nat) (bad : Bool) : Statement (.quadFailure quad bad) := of_event rfl
theorem routerFailure (quad : Nat) : Statement (.routerFailure quad) := of_event rfl
theorem copyEngineFailure (engine : Nat) (target : Nat) : Statement (.copyEngineFailure engine target) := of_event rfl
theorem linkFlitResend (link : Nat) : Statement (.linkFlitResend link) := of_event rfl
theorem channelRetirement (tier : Nat) (channel : Nat) : Statement (.channelRetirement tier channel) := of_event rfl
theorem backgroundScrub (pa : Nat) : Statement (.backgroundScrub pa) := of_event rfl
theorem traceSessionOpen (part : Nat) : Statement (.traceSessionOpen part) := of_event rfl
theorem traceSessionClose (part : Nat) : Statement (.traceSessionClose part) := of_event rfl
theorem memorySample (core : Nat) : Statement (.memorySample core) := of_event rfl
theorem registerWrite (part : Nat) (csr : Nat) (value : BitVec 64) : Statement (.registerWrite part csr value) := of_event rfl
theorem illegalInstruction (w0 : BitVec 32) (w1 : BitVec 32) : Statement (.illegalInstruction w0 w1) := of_event rfl
theorem illegalLine (failed : BitVec 6) : Statement (.illegalLine failed) := of_event rfl
theorem faultQueueHeadWrite (part : Nat) (value : BitVec 64) : Statement (.faultQueueHeadWrite part value) := of_event rfl
theorem eventRingHeadWrite (part : Nat) (value : BitVec 64) : Statement (.eventRingHeadWrite part value) := of_event rfl
theorem traceRingHeadWrite (part : Nat) (value : BitVec 64) : Statement (.traceRingHeadWrite part value) := of_event rfl
theorem asterismPortFailure (port : Nat) : Statement (.asterismPortFailure port) := of_event rfl
theorem peerAccessRequest (pa : Nat) (write : Bool) (data : BitVec 64) : Statement (.peerAccessRequest pa write data) := of_event rfl
theorem cxlCacheSnoop (pa : Nat) : Statement (.cxlCacheSnoop pa) := of_event rfl
theorem arbiterBackoffExpiry (i : Nat) : Statement (.arbiterBackoffExpiry i) := of_event rfl
theorem arbiterAgeing (handle : Nat) : Statement (.arbiterAgeing handle) := of_event rfl
theorem virtualCoreAlternation (part : Nat) (vcore : Nat) : Statement (.virtualCoreAlternation part vcore) := of_event rfl

end Sys2Proof.Laws.Encodes
end

