-- ==== Sys2Proof/Laws/Round.lean ====
section
/-! SUPPORT. What the issue of a rounding instruction does. -/

namespace Sys2Proof.Machine

theorem bound_modWave (s : State) (w : Nat) (f : Wave → Wave) (h : ∀ x, (f x).threads = x.threads) (u : TRef) :
    (s.modWave w f).bound u = s.bound u := by
  simp only [bound_iff, wave_modWave]
  split
  · next e => rw [h, e]
  · rfl

/-- Drawing a random word binds and unbinds no thread. -/
theorem bound_srDrawn (p : State) (g : Issue) (b : Block) (dst : Dst) (m : RoundBy) (ts : List TRef) (u : TRef) :
    (srDrawn p g b dst m ts).1.bound u = p.bound u := by
  unfold srDrawn
  split
  · unfold advanceSr
    split
    · exact bound_modWave p g.wave (fun x => { x with sr := xorshift (p.wave g.wave).sr }) (fun _ => rfl) u
    · rfl
  · rfl

theorem doesRounded_of {i : Instr} {dst : Dst} {regs : Nat} {m : RoundBy} {f : State → TRef → (Bool → Nat → Rnd) → Res}
    (e : ∀ s, exec i s = .next (computeRound i dst regs m false (fun s _ t r => f s t r) s)) :
    DoesRounded i dst regs m f := by
  intro s g b h
  refine ⟨_, (e s).trans (by rw [computeRound, issue_eq h]), ?_⟩
  exact finishRes_computed dst regs false _ _ g b _ h.some (nodup_executing s g b i .normal) fun t ht => by
    have := bound_srDrawn (passed s g b i .normal) g b dst m (executing s g b i .normal) t
    exact this.trans (alive_bound (standing_alive (standing_passed ht)))

end Sys2Proof.Machine
end

