-- ==== Sys2Proof/Tests/Slice0.lean ====
section
/-! SUPPORT. Tests: words decode as the spec writes them, ill-formed terms are refused, instructions give the spec's
worked values, and for every statement with hypotheses a state and operands that meet them. -/

open Sys2Proof Sys2Proof.Machine

namespace Sys2Proof.Tests

set_option Elab.async false

/-! ### Operands and a small state -/

def hd (t : Ty) : Head := ⟨t, false, 15⟩
def vS (n : BitVec 8) : Src := ⟨false, false, 0, .none, .v, n⟩
def kS (n : BitVec 8) : Src := ⟨false, false, 0, .none, .k, n⟩
def cS (n : BitVec 8) : Src := ⟨false, false, 0, .none, .c, n⟩
def xS (n : BitVec 8) : Src := ⟨false, false, 0, .none, .x, n⟩
def vD (n : BitVec 8) : Dst := ⟨0, 0, .v, n⟩
def kD (n : BitVec 8) : Dst := ⟨0, 0, .k, n⟩
def cD (n : BitVec 8) : Dst := ⟨0, 0, .c, n⟩

/-- A form of each format whose operands are register 0. -/
def rf (t : Ty) : RForm := ⟨hd t, vD 0, vS 0, vS 0, vS 0, 0⟩
def jf (t : Ty) : IForm := ⟨hd t, vD 0, vS 0, 0, 0⟩
def sf : SForm := ⟨hd .b32, vD 0, vS 0, vS 0, 0, 0⟩
def mf (t : Ty) : MForm := ⟨hd t, vD 0, vS 0, 0, .default, .plain, .thread, .one, 0⟩
def bf : BForm := ⟨hd .b32, 0, 0, 0, false, 0, vS 0⟩
def xf : MXForm := ⟨hd .b32, false, 0, 0, 0, 0, 0, 0, false, false, 0, 0, 0, 0⟩

/-- The one thread of the small state, and the group it issues in. -/
def me : TRef := ⟨0, 0⟩
def grp : Issue := ⟨0, 1, 0x1000, false⟩

/-- A device that runs one thread at 0x1000 in block 0 of core 0, and its group is issuing. -/
def base : State := { seatSlot State.reset 0 with cur := some grp }

def withThread (f : Thread → Thread) : State := base.modThread me f
def withBlock (f : Block → Block) : State := base.modBlock 0 f
def withV (l : List (Nat × Word)) (s : State := base) : State := l.foldl (fun s e => setV s me e.1 e.2) s
def withK (l : List (Nat × Word)) (s : State := base) : State := s.modWave 0 fun w => { w with k := l.foldl (fun k e => Table.set 0 k e.1 e.2) w.k }

/-- An instruction, a state that it issues to one thread in, and what else that state and thread meet. -/
structure Case where
  i    : Instr
  s    : State
  also : State → Issue → Block → TRef → Bool

def Case.Met (c : Case) : Prop :=
  ∃ who g b t p, whoOf c.i = some who ∧ IssuesTo c.i who c.s g b t p ∧ c.also p g b t = true

def Case.check (c : Case) : Bool :=
  match whoOf c.i, c.s.cur with
  | some who, some g =>
    match c.s.waveBlock? g.wave with
    | some b =>
      match executing c.s g b c.i who with
      | [t] =>
        let p := passed c.s g b c.i who
        c.i.wf && modeOk b c.i who && operandTrap p b g c.i.uses t == none && implicitNeed p t c.i.uses == 0
          && c.also p g b t
      | _ => false
    | none => false
  | _, _ => false

theorem met_of_check {c : Case} (h : c.check = true) : c.Met := by
  unfold Case.check at h
  split at h
  case h_1 who g hw hg =>
    split at h
    case h_1 b hb =>
      split at h
      case h_1 t ht =>
        simp only [Bool.and_eq_true, beq_iff_eq] at h
        obtain ⟨⟨⟨⟨h1, h2⟩, h3⟩, h4⟩, h5⟩ := h
        exact ⟨who, g, b, t, _, hw, { group := hg, block := hb, some := by simp [ht], fields := h1, mode := h2, operands := by simpa [ht] using h3, blocks := by simpa [ht] using h4, one := ht, past := rfl }, h5⟩
      all_goals simp at h
    all_goals simp at h
  all_goals simp at h

/-- Every case of a list is met. -/
def AllMet (l : List Case) : Prop := ∀ c ∈ l, c.Met

theorem all_met {l : List Case} (h : l.all Case.check = true) : AllMet l :=
  fun c hc => met_of_check (List.all_eq_true.mp h c hc)

/-- A case that asks nothing more. -/
def run (s : State) (i : Instr) : Case := ⟨i, s, fun _ _ _ _ => true⟩
def runIf (s : State) (i : Instr) (also : State → Issue → Block → TRef → Bool) : Case := ⟨i, s, also⟩

/-! ### States the witnesses use -/

/-- Did an access answer. -/
def isOk {ε α : Type} (r : State × Except ε α) : Bool := match r.2 with | .ok _ => true | .error _ => false

/-- Two threads in lanes 0 and 1, both issuing. -/
def pairGroup : Issue := ⟨0, 3, 0x1000, false⟩
def two : State := { base.modWave 0 fun w => { w with threads := w.threads ++ [(1, base.thread me)] } with cur := some pairGroup }

/-- A core-side or CSM line of address space 0 that holds every byte. -/
def lineAt (va : Nat) (v : BitVec 1024) : Line := { newLine 0 0 va with val := v, valid := fullMask, ret := .default }
def csmAt (va : Nat) (v : BitVec 1024) : CsmLine := { newCsmLine 0 0 0 va (some true) .default with val := v, valid := fullMask }

/-- Address space 0 is live, and the CSM holds these lines of it. -/
def withCsm (l : List CsmLine) (s : State := base) : State := { s with mem := [(0, 1)], csm := l }
def withLine (k : Cache) (l : Line) (s : State := base) : State := setLines s 0 k (l :: lines s 0 k)

/-- A code line at `a`, already in the core. -/
def withCode (a : Nat) (w : BitVec 512) (s : State := base) : State :=
  withLine .icache { newLine 0 0 a with val := w.zeroExtend 1024, valid := byteMask 0 64 } s

/-- A line word whose five slots are all targets, and one whose are not. -/
def targets : BitVec 512 := 0x1F000 <<< 480

/-- A launch's flags on the block (R53). -/
def flagged (n : BitVec 16) (s : State := base) : State := s.modBlock 0 fun b => { b with flags := n }

/-! ### Registers from registers -/

theorem witness_IntegersCompute : AllMet ([Instr.iadd (rf .n32), .isub (rf .n32), .imul (rf .n32), .imulhi (rf .n32),
    .imad (rf .n32), .imin (rf .n32), .imax (rf .n32), .iabsd (rf .n32), .imadw (rf .n32), .idot4 (rf .i8x4), .icmp (rf .n32),
    .isel (rf .b32), .iaddc { rf .n32 with c := cS 11 }, .lea (jf .b64), .movImmediate (jf .b32),
    .movRegister { jf .b32 with xf := 1 }, .iadd { rf .i64 with dst := vD 254 }, .imad { rf .n16x2 with dst := kD 63, a := kS 0, b := xS 2, c := xS 0xCF }].map
      (run base)) := all_met (by decide +kernel)

theorem witness_LogicAndBitsCompute : AllMet ([Instr.andd (rf .b32), .orr (rf .b32), .xorr (rf .b32), .andn (rf .b32),
    .shl (rf .b32), .shr (rf .b32), .sar (rf .i32), .rotl (rf .b32), .bfx (jf .n32), .bfi (rf .b32), .popc (rf .b32),
    .clz (rf .b32), .brev (rf .b32), .ffs (rf .b32), .prmb (jf .b32), .mix32 (rf .b32), .brev (rf .b64),
    .bfx { jf .i64 with imm := 0x3F00 }].map (run base)) := all_met (by decide +kernel)

theorem witness_FloatArithmeticComputes : AllMet ([Instr.fadd (rf .f32), .fsub (rf .f32), .fmul (rf .f32), .ffma (rf .f32),
    .fmin (rf .f32), .fmax (rf .f32), .fdiv (rf .f32), .fsqrt (rf .f32), .frcp (rf .f32), .frsq (rf .f32), .fexp2 (rf .f32),
    .flog2 (rf .f32), .fsin (rf .f32), .fcos (rf .f32), .ffract (rf .f32), .frnd (rf .f32), .ffma (rf .f64),
    .fadd (rf .bf16x2)].map (run base)) := all_met (by decide +kernel)

theorem witness_FloatCompareAndClassCompute : AllMet ([Instr.fcmp { rf .f32 with dst := cD 11 }, .fcmp (rf .f64),
    .fclass (rf .f32), .fclass (rf .f16x2)].map (run base)) := all_met (by decide +kernel)

theorem witness_ConversionsAndPacksCompute : AllMet ([Instr.cvtf { rf .f16x2 with b := xS 0xA3 },
    .cvtfi { rf .n32 with b := xS 0xA3 }, .cvtif { rf .f32 with b := xS 0xA1 }, .cvtbfp { rf .n32 with c := xS 0xA3 },
    .bfpexp (rf .f32), .pack (rf .i8x4), .unpack (rf .i8x4)].map (run base)) := all_met (by decide +kernel)

theorem witness_IntervalsAndFormsCompute : AllMet ([Instr.ivadd (rf .f32), .ivsub (rf .f32), .ivmul (rf .f32), .ivsqr (rf .f32),
    .ivmin (rf .f32), .ivmax (rf .f32), .ivabs (rf .f32), .ivsqrt { rf .f32 with b := cS 11 }, .ivhyp { rf .f32 with xf := 1 },
    .ivtest { rf .f32 with dst := cD 0, xf := 2 }, .afadd (rf .f32), .afmul (rf .f32), .afsqr (rf .f32),
    .afsqrt { rf .f32 with b := cS 0 }, .afabs (rf .f32), .aftoiv (rf .f32)].map (run base)) := all_met (by decide +kernel)

/-- A group of two threads issues an instruction that both execute. -/
def bothRun (s : State) (i : Instr) (also : State → Block → Bool) : Bool :=
  match s.waveBlock? 0 with
  | none => false
  | some b =>
    let p := passed s pairGroup b i .normal
    s.cur == some pairGroup && executing s pairGroup b i .normal == [⟨0, 0⟩, ⟨0, 1⟩] && i.wf && modeOk b i .normal
      && [⟨0, 0⟩, ⟨0, 1⟩].all (fun t => operandTrap p b pairGroup i.uses t == none && implicitNeed p t i.uses == 0)
      && also p b

theorem both_issue {s : State} {i : Instr} {also : State → Block → Bool} (h : bothRun s i also = true) :
    ∃ b, Issues i .normal s pairGroup b ∧ also (passed s pairGroup b i .normal) b = true := by
  unfold bothRun at h
  split at h
  case h_1 => simp at h
  case h_2 b hb =>
    simp only [Bool.and_eq_true, beq_iff_eq, List.all_eq_true] at h
    obtain ⟨⟨⟨⟨⟨h1, h2⟩, h3⟩, h4⟩, h5⟩, h6⟩ := h
    exact ⟨b, { group := h1, block := hb, some := by simp [h2], fields := h3, mode := h4
                operands := fun t ht => (h5 t (h2 ▸ ht)).1, blocks := fun t ht => (h5 t (h2 ▸ ht)).2 }, h6⟩

def BothMet (s : State) (l : List Instr) : Prop := ∀ i ∈ l, ∃ b, Issues i .normal s pairGroup b

theorem both_met {s : State} {l : List Instr} (h : l.all (fun i => bothRun s i fun _ _ => true) = true) : BothMet s l :=
  fun i hi => have ⟨b, hb, _⟩ := both_issue (List.all_eq_true.mp h i hi); ⟨b, hb⟩

theorem witness_CrossLaneComputes :
    BothMet two [.shfl (rf .b64), .ballot (rf .b32), .vote (rf .b32), .vote { rf .b32 with dst := cD 0, xf := 2 },
      .matchx (rf .b64), .scan (rf .n32), .scan { rf .n64 with xf := 8 }, .redx (rf .i32)] := both_met (by decide +kernel)

/-- Lane 0's value for both, in checked mode: each source lane is bound and in the group. -/
def crossed : RForm := { rf .b32 with b := xS 0xA0 }
def crossedState : State := flagged 0x190 two
def crossedOk (p : State) (b : Block) : Bool :=
  b.checked && [⟨0, 0⟩, ⟨0, 1⟩].all fun t =>
    pairGroup.lanes.getLsbD (shflLane p t crossed) && p.bound ⟨0, shflLane p t crossed⟩

theorem witness_shfl_checked : ∃ b, Issues (.shfl crossed) .normal crossedState pairGroup b ∧
    crossedOk (passed crossedState pairGroup b (.shfl crossed) .normal) b = true :=
  both_issue (by decide +kernel)

theorem witness_MasksModesAndSeeds : AllMet (
    [run base (.movk { rf .b32 with dst := kD 63 }), run base (.srseed (rf .b32)), run (flagged 0x112) (.srseed (rf .b32)),
     runIf (flagged 0x190) (.movk { rf .b32 with dst := kD 0 }) (fun _ _ b _ => b.checked),
     runIf (flagged 0x190) (.srseed (rf .b32)) (fun _ _ b _ => b.checked),
     run base (.frmset { jf .b32 with imm := 1 }), run base (.frmset { jf .b32 with imm := 14 }), run base (.fflags (jf .b32))]
    ++ ([Instr.msksave (rf .b32), .mskand (rf .b32), .mskrest (rf .b32), .mskelse (rf .b32)].map (run base))
    ++ ([Instr.msksave (rf .b32), .mskand (rf .b32), .mskrest (rf .b32), .mskelse (rf .b32)].map
      (run (withThread fun t => { t with e := false })))) := all_met (by decide +kernel)

/-! ### Control transfer -/

/-- A target is a slot, with its TGT bit, of a line that is fetched. -/
def reaches (s : State) (t : TRef) (a : BitVec 64) : Bool :=
  bits a 63 57 == 0 && slotOffset a &&
    match fetchLine s t (a.toNat / 64 * 64) with
    | (_, .ok c) => lineTgt c.raw (slotOf a.toNat)
    | _ => false

/-- The line at 0x2000 has five targets; v0 holds the address of its first slot, v2 of its last. -/
def jumpState : State := withV [(0, 0x2000), (2, 0x2030)] (withCode 0x2000 targets)
/-- `loff` 0x40 lines on from the line at 0x1000 is the line at 0x2000. -/
def jump (ts : BitVec 3) : BForm := { bf with loff := 0x40, ts := ts }
/-- Its callable table's first entry, read through the constant path, is 0x2030. -/
def tableState : State := withLine .const (lineAt 0x2000 0x2030) jumpState

theorem witness_TransfersReachTargets : AllMet (
    ([Instr.bra (jump 4), .call (jump 0), .ubra { jump 4 with cond := xS 0xA1 }, .ubra { jump 0 with cond := xS 0xA0 }].map fun i =>
      runIf jumpState i fun p g _ t => branchTarget g.pc (jump 4) == 0x2030 && reaches p t (branchTarget g.pc (jump 4)))
    ++ [runIf jumpState (.brx { rf .b64 with a := vS 2 }) (fun p _ _ t => reaches p t (q (rawSrc p t .b64 (vS 2)))),
      runIf jumpState (.ret (rf .b64)) (fun p _ _ t => reaches p t (q (rawSrc p t .b64 (vS 0)))),
      runIf tableState (.callsh { rf .b64 with b := xS 0xA0 }) fun p _ _ t =>
        let ea := srcPair p t (vS 0) + q (8 * srcVal p t .n32 (xS 0xA0))
        bits ea 2 0 == 0 && bits ea 63 57 == 0 &&
          match cacheRead p ⟨waveCore t.wave, .const, t, .default⟩ (threadReq p t 0 true) (ea.toNat / 128 * 128)
            (byteMask (ea.toNat % 128) 8) with
          | (s1, .ok v) => let a := q (lineGet v.1 (ea.toNat % 128) 8); a != 0 && reaches s1 t a
          | _ => false]) := all_met (by decide +kernel)

theorem witness_TransfersTrap : AllMet (
    [runIf (withV [(1, 0x02000000)]) (.brx (rf .b64)) (fun p _ _ t => bits (q (rawSrc p t .b64 (vS 0))) 63 57 != 0),
     runIf (withV [(0, 0x203C)]) (.brx (rf .b64)) (fun p _ _ t =>
       let a := q (rawSrc p t .b64 (vS 0)); bits a 63 57 == 0 && !slotOffset a),
     runIf (withV [(0, 0x2030)] (withCode 0x2000 0)) (.brx (rf .b64)) fun p _ _ t =>
       let a := q (rawSrc p t .b64 (vS 0))
       bits a 63 57 == 0 && slotOffset a && match fetchLine p t (a.toNat / 64 * 64) with
         | (_, .ok c) => !lineTgt c.raw (slotOf a.toNat)
         | _ => false,
     runIf base (.bra { jump 0 with loff := 0xFFFFFF80 }) (fun _ g _ _ => bits (branchTarget g.pc { jump 0 with loff := 0xFFFFFF80 }) 63 57 != 0),
     runIf (withCode 0x2000 0) (.call (jump 4)) (fun p g _ t =>
       let a := branchTarget g.pc (jump 4)
       bits a 63 57 == 0 && slotOffset a && match fetchLine p t (a.toNat / 64 * 64) with
         | (_, .ok c) => !lineTgt c.raw (slotOf a.toNat)
         | _ => false),
     runIf (withV [(0, 0x2004)]) (.callsh { rf .b64 with b := xS 0xA0 }) (fun p _ _ t => bits (srcPair p t (vS 0) + q (8 * srcVal p t .n32 (xS 0xA0))) 2 0 == 4),
     runIf (withV [(1, 0x02000000)]) (.callsh { rf .b64 with b := xS 0xA0 }) (fun p _ _ t => bits (srcPair p t (vS 0) + q (8 * srcVal p t .n32 (xS 0xA0))) 63 57 == 1),
     runIf (withLine .const (lineAt 0x2000 0) (withV [(0, 0x2000)])) (.callsh { rf .b64 with b := xS 0xA0 }) fun p _ _ t =>
       match cacheRead p ⟨waveCore t.wave, .const, t, .default⟩ (threadReq p t 0 true) 0x2000 (byteMask 0 8) with
       | (_, .ok v) => q (lineGet v.1 0 8) == 0
       | _ => false]) := all_met (by decide +kernel)

/-! ### Waits, ends and software traps -/

/-- The descriptors that a `waitc` reads, none of which traps. -/
def descriptors (f : IForm) (p : State) (t : TRef) : List (BitVec 64) :=
  (List.range (bits f.xf 2 1 + 1)).map fun j => pair (kreg p t.wave (f.a.num.toNat + 2 * j)) (kreg p t.wave (f.a.num.toNat + 2 * j + 1))
def waits (f : IForm) (met : Bool) (s : State) : Case :=
  runIf s (.waitc f) fun p _ b t =>
    let cs := descriptors f p t
    cs.all (fun c => condTrap p (.waitc f) b c == none) && condMet cs.length (f.xf.getLsbD 0) (condBits p t b cs) == met

theorem witness_WaitsEndsAndSoftwareTraps : AllMet (
    ([Instr.nop (rf .b32), .exit (rf .b32), .yield (rf .b32), .sleep (jf .b32), .sleep { jf .b32 with imm := 1 },
      .join (jf .b32), .join { jf .b32 with imm := 4095 }, .trap { jf .b32 with imm := 7 }, .brk (jf .b32)].map (run base))
    ++ [waits { jf .b32 with a := kS 0 } true base, waits { jf .b32 with a := kS 0, xf := 7 } true base,
      waits { jf .b32 with a := kS 0, xf := 7 } false (withK [(6, 1)]), waits { jf .b32 with a := kS 0 } false (withK [(0, 1)]),
      waits { jf .b32 with a := kS 0, imm := 1 } false (withK [(0, 1)]),
      waits { jf .b32 with a := kS 0, imm := 0xFFFFFFFF } false (withK [(0, 1)])]) := all_met (by decide +kernel)

theorem witness_CnwaitWaitsForItsCounters : AllMet (
    let all (v : Nat) (p : State) (t : TRef) : Bool :=
      let within (n limit : Nat) : Bool := limit == 63 || decide (n ≤ limit)
      let x := p.thread t
      within x.ld (v % 64) && within x.st (v / 2 ^ 6 % 64) && within x.cp (v / 2 ^ 12 % 64) && within x.mx (v / 2 ^ 18 % 64)
    [runIf (withThread fun x => { x with ld := 2, st := 63, cp := 63, mx := 63 }) (.cnwait { sf with a := .zero, b := .zero, imm := 0xFFFC2, xf := 15 })
       (fun p _ _ t => all 0xFFFFC2 p t),
     runIf (withThread fun x => { x with mx := 1 }) (.cnwait sf) (fun p _ _ t => !all 0 p t)]) := all_met (by decide +kernel)

theorem witness_CvstatReadsItsRegister : AllMet
    [runIf base (.cvstat { sf with imm := 15 }) (fun _ _ b _ => decide (15 < b.ncv)),
     runIf (base.modBlock 0 fun b => { b with ncv := 15 }) (.cvstat { sf with imm := 15 }) (fun _ _ b _ => decide (b.ncv ≤ 15))] :=
  all_met (by decide +kernel)

/-! ### Extension blocks and `wsync` -/

/-- The wave holds `n` extension blocks. -/
def holding (n : Nat) (s : State := base) : State := s.modWave 0 fun w => { w with ext := n }

theorem witness_ExtensionBlocksAndWsync : AllMet (
    let x (n : BitVec 32) : IForm := { jf .b32 with imm := n }
    [runIf base (.xacq (x 3)) (fun p g _ _ => decide (3 ≤ (p.wave g.wave).ext)),
     runIf (holding 0) (.xacq (x 1)) (fun p g _ _ => decide ((p.wave g.wave).ext < 1)),
     runIf base (.xrel (x 3)) (fun p g _ _ => decide ((p.wave g.wave).ext ≤ 3)),
     runIf base (.xrel (x 2)) (fun p g _ _ => decide (2 < (p.wave g.wave).ext) && !extBusy p g.wave 2),
     runIf { base with loads := [⟨me, 4, false, [(192, 0)], false, 0, 0, 0, 1, 0, 0, 0, none, none⟩] } (.xrel (x 2)) (fun p g _ _ =>
       decide (2 < (p.wave g.wave).ext) && extBusy p g.wave 2),
     runIf base (.wsync (x 1)) (fun _ _ _ t => (x 1).imm.getLsbD t.lane),
     runIf base (.wsync (x 2)) (fun _ _ _ t => !(x 2).imm.getLsbD t.lane)]) := all_met (by decide +kernel)

/-! ### Loads, stores and cache control -/

/-- The line at 0x3F80 of address space 0 in the CSM; v0 names its last word. -/
def dataState : State := withV [(0, 0x3FFC)] (withCsm [csmAt 0x3F80 0x1234])

def addressed (f : MForm) (p : State) (t : TRef) : Bool :=
  bits (genericAddr p t f) 63 57 == 0 && (genericAddr p t f).toNat % accSize f == 0

def loads (i : Instr) (k : Cache) (f : MForm) (s : State) : Case := runIf s i fun p _ _ t =>
  let ea := genericAddr p t f
  let line := ea.toNat / 128 * 128
  let m := byteMask (ea.toNat % 128) (accSize f)
  let r := threadReq p t 0 true
  (p.thread t).ld == 62 && addressed f p t &&
    match cacheRead (if isAcquire f.ord && Scope.wide f.scp then dropClean p (waveCore t.wave) r.asid r.agen line else p)
      ⟨waveCore t.wave, k, t, f.ret⟩ r line m with
    | (s1, .ok _) => isOk (raceOn k s1 t false (if isAcquire f.ord then some f.scp else none) false line m)
    | _ => false

def busy : Thread → Thread := fun x => { x with ld := 62, st := 62 }

theorem witness_LoadsRun : AllMet (
    let s := dataState.modThread me busy
    let m := mf .b32
    let l := { mf .b64 with cnt := .two, base := vS 2 }
    [loads (.ld m) .l1 m s, loads (.ld { m with ord := .acq, scp := .device }) .l1 { m with ord := .acq, scp := .device } s,
     loads (.ld m) .l1 m (withLine .l1 (lineAt 0x3F80 5) s), loads (.ldc m) .const m s, loads (.ldt m) .tile m s,
     loads (.ld { m with dat := kD 63, base := kS 0 }) .l1 { m with dat := kD 63, base := kS 0 } (withK [(0, 0x3F80)] s)]
    ++ ([(l, base), (l, withV [(2, 0x7FF8)]), ({ l with ord := .acq, scp := .cluster }, base)].map fun e =>
      runIf (e.2.modThread me busy) (.ldl { e.1 with ret := .short }) fun p _ b t =>
        (p.thread t).ld == 62 && (localPlace p b (localAddr p t e.1) 8).isSome && (localAddr p t e.1).toNat % 8 == 0)) :=
  all_met (by decide +kernel)

def stores (i : Instr) (k : Cache) (f : MForm) (s : State) (also : State → TRef → Bool) : Case := runIf s i fun p _ _ t =>
  (p.thread t).st == 62 && addressed f p t && also p t && (k == .l1 || k == .tile)

/-- A plain store's line can be touched, raced and written. -/
def storeGoes (k : Cache) (f : MForm) (p : State) (t : TRef) : Bool :=
  let ea := genericAddr p t f
  let line := ea.toNat / 128 * 128
  let m := byteMask (ea.toNat % 128) (accSize f)
  let r := threadReq p t 1 true
  !isRelease f.ord && match storeTouch p (waveCore t.wave) k t r line with
    | (s1, .ok _) => (match cacheWrite s1 ⟨waveCore t.wave, k, t, f.ret⟩ r line m (linePut (ea.toNat % 128) (storeVal p t f)) with
      | (s2, .ok _) => isOk (raceOn k s2 t true none false line m)
      | _ => false)
    | _ => false

/-- A releasing store's release and its store at the home bank, or at a narrow scope in the cache. -/
def releaseGoes (k : Cache) (f : MForm) (p : State) (t : TRef) : Bool :=
  let ea := genericAddr p t f
  let line := ea.toNat / 128 * 128
  let m := byteMask (ea.toNat % 128) (accSize f)
  isRelease f.ord && (if Scope.wide f.scp then
    match doRelease (endRegion p t) t f.scp with
    | (s2, .ok rel) => isOk (homeStore k s2 t (threadReq s2 t 1 false) line m (linePut (ea.toNat % 128) (storeVal p t f)) f.ret rel)
    | _ => false
  else
    let s1 := endRegion p t
    isOk (Mem.bind (storeTouch s1 (waveCore t.wave) k t (threadReq s1 t 1 false) line)
      (fun s _ => if storeRoom s ⟨waveCore t.wave, k, t, f.ret⟩ (threadReq s t 1 false) line then raceOn k s t true none false line m
        else Mem.fail s .specRoom)))

def scratchStores (f : MForm) (s : State) : Case := runIf (s.modThread me busy) (.stl f) fun p _ b t =>
  (p.thread t).st == 62 && (localAddr p t f).toNat % accSize f == 0 &&
    match localPlace p b (localAddr p t f) (accSize f),
      (if isRelease f.ord then doRelease (endRegion p t) t f.scp else (endRegion p t, .ok none)) with
    | some a, (s2, .ok _) => (placeWrite s2 t a (toBytes (accSize f) (storeVal p t f))).2.isNone
    | _, _ => false

theorem witness_StoresRun : AllMet (
    let s := dataState.modThread me busy
    let m := mf .b32
    let dev := { m with ord := .rel, scp := .device }
    let blk := { m with ord := .rel, scp := .block }
    let away := { m with ret := .bypass }
    [stores (.st m) .l1 m s (storeGoes .l1 m), stores (.stt m) .tile m s (storeGoes .tile m),
     stores (.st away) .l1 away s (storeGoes .l1 away),
     stores (.st dev) .l1 dev s (releaseGoes .l1 dev), stores (.stt dev) .tile dev s (releaseGoes .tile dev),
     stores (.st blk) .l1 blk s (releaseGoes .l1 blk), stores (.stt blk) .tile blk s (releaseGoes .tile blk)]
    ++ (let l := { m with base := vS 2, ret := .short }
      [scratchStores l base, scratchStores l (withV [(2, 0x7FFC)]), scratchStores { l with ord := .rel, scp := .cluster } base])) :=
  all_met (by decide +kernel)

theorem witness_AccessesTrapAtTheirAddress : AllMet (
    let m := mf .b32
    let l := { m with ret := .short }
    let n : MForm := { mf .n32 with dat := vD 4 }
    let u : MForm := { n with base := vS 2, cnt := .two }
    [runIf (withV [(1, 0x02000000)]) (.st m) (fun p _ _ t => bits (genericAddr p t m) 63 57 != 0),
     runIf (withV [(0, 0x3FFE)]) (.st m) (fun p _ _ t => bits (genericAddr p t m) 63 57 == 0 && (genericAddr p t m).toNat % 4 != 0),
     runIf (withV [(0, 0x3FFE)]) (.ld m) (fun p _ _ t => bits (genericAddr p t m) 63 57 == 0 && (genericAddr p t m).toNat % 4 != 0),
     runIf (withV [(1, 0x02000000)]) (.atom n) (fun p _ b t => !b.deterministic && bits (genericAddr p t n) 63 57 != 0),
     runIf (withV [(2, 0x3F84)]) (.bupd u) (fun p _ _ t => bits (genericAddr p t u) 63 57 == 0 && (genericAddr p t u).toNat % 128 != 0),
     runIf (withV [(0, 0x8000)]) (.stl l) (fun p _ b t => (localPlace p b (localAddr p t l) 4).isNone),
     runIf (withV [(0, 0x7FFD)]) (.stl l) (fun p _ b t => (localPlace p b (localAddr p t l) 4).isNone),
     runIf (withV [(0, 0x7FFA)]) (.stl l) (fun p _ b t =>
       (localPlace p b (localAddr p t l) 4).isSome && (localAddr p t l).toNat % 4 != 0)]) := all_met (by decide +kernel)

/-- The thread holds speculative bytes over the line at 0x3F80. -/
def specState : State := withLine .l1 { lineAt 0x3F80 7 with valid := 1, dirty := 1, spec := some me, writer := some me } dataState

theorem witness_FencesAndCacheControlRun : AllMet (
    let m : MForm := { mf .b32 with ret := .short }
    let fen (o : Ord) (c : Scope) : MForm := { m with ord := o, scp := c }
    let loading := withThread fun x => { x with ld := 1 }
    [run dataState (.prf m), run base (.prf m),
     runIf loading (.fence (fen .acq .device)) (fun p _ _ t => (p.thread t).ld != 0),
     runIf base (.fence (fen .acq .system)) (fun p _ _ t => (p.thread t).ld == 0),
     runIf loading (.fence (fen .rel .device)) (fun p _ _ t => isOk (doRelease (endRegion p t) t .device)),
     runIf base (.fence (fen .ar .block)) (fun p _ _ t => (p.thread t).ld == 0 && isOk (doRelease (endRegion p t) t .block)),
     runIf dataState (.wb m) (fun p _ _ t => decide ((p.thread t).st < 63) && bits (genericAddr p t m) 63 57 == 0),
     runIf specState (.wb { m with cnt := .eight }) (fun p _ _ t =>
       (lines p 0 .l1).any fun l => l.spec == some t && inRange (threadReq p t 1 false) ((genericAddr p t m).toNat / 128 * 128) 8 l),
     runIf specState (.inv m) (fun p _ _ t => bits (genericAddr p t m) 63 57 == 0),
     run base (.pfence { jf .b32 with imm := 1 }), run base (.pfence { jf .b32 with imm := 63 }),
     runIf { base with loads := [⟨me, 0, false, [], false, 0, 0, 0, 1, 0, 0, 0, none, none⟩] } (.ifence (rf .b32)) (fun p _ _ t => unperformed p t),
     runIf base (.ifence (rf .b32)) (fun p _ _ t => !unperformed p t)]) := all_met (by decide +kernel)

/-! ### Atomics -/

def homes (f : MForm) (line : Nat) (upd : BitVec 1024 → BitVec 128 × BitVec 1024) (p : State) (t : TRef) : Bool :=
  isOk (homeOp (endRegion p t) t f line upd)

def atomics (i : Instr) (upd : State → TRef → Nat → Nat) (f : MForm) (s : State) : Case := runIf s i fun p _ b t =>
  let ea := genericAddr p t f
  let o := ea.toNat % 128
  !b.deterministic && (p.thread t).ld == 62 && bits ea 63 57 == 0 && ea.toNat % atomSize f == 0 &&
    homes f (ea.toNat / 128 * 128) (fun v => (byteMask o (atomSize f), linePut o (upd p t (lineGet v o (atomSize f))))) p t

def localAtomics (i : Instr) (upd : State → TRef → Nat → Nat) (f : MForm) (s : State) : Case := runIf s i fun p _ b t =>
  let n := atomSize f
  (p.thread t).ld == 62 && (localAddr p t f).toNat % n == 0 &&
    match localPlace p b (localAddr p t f) n,
      (if isRelease f.ord then doRelease (endRegion p t) t f.scp else (endRegion p t, .ok none)) with
    | some a, (s2, .ok _) => (placeWrite s2 t a (toBytes n (upd p t (placeRead s2 t a n)))).2.isNone
    | _, _ => false

theorem witness_AtomicsRun : AllMet (
    let s := dataState.modThread me busy
    let a : MForm := mf .n32
    let c : MForm := { mf .b32 with cnt := .two }
    let ar : MForm := { a with ord := .ar, scp := .device, xf := 12, h := hd .f32 }
    let al : MForm := { a with ret := .short, base := vS 2, ord := .ar, scp := .cluster }
    let cl : MForm := { c with ret := .short, base := vS 2 }
    [runIf (flagged 0x112) (.atom a) (fun _ _ b _ => b.deterministic), runIf (flagged 0x112) (.cas c) (fun _ _ b _ => b.deterministic),
     atomics (.atom a) (atomUpd a) a s, atomics (.atom ar) (atomUpd ar) ar s, atomics (.cas c) (casUpd c) c s,
     localAtomics (.atoml al) (atomUpd al) al (base.modThread me busy),
     localAtomics (.casl cl) (casUpd cl) cl (withV [(2, 0x7FFC)] (base.modThread me busy))]) := all_met (by decide +kernel)

theorem witness_ReductionsRun : AllMet (
    let s := withV [(2, 0x3F80), (5, 1)] (dataState.modThread me busy)
    let r : MForm := mf .n32
    let b : MForm := { r with base := kS 0 }
    let u : MForm := { r with base := vS 2, cnt := .two, dat := vD 4 }
    let row := withK [(0, 0x3F80)] s
    let full (n : Nat) : State := (flagged 0x112 row).modBlock 0 fun b => { b with
      detBuf := List.replicate n { t := me, order := 0, pc := 0, va := 0, op := 0, ty := .n32, ord := .plain, scp := .thread, vals := [], lines := 0, ret := .default, fate := none } }
    [runIf s (.red r) (fun p _ x t =>
       let ea := genericAddr p t r
       !x.deterministic && addressed r p t && homes r (ea.toNat / 128 * 128) (fun v => (byteMask (ea.toNat % 128) 4,
         linePut (ea.toNat % 128) (bankOp r.xf r.h.typ (lineGet v (ea.toNat % 128) 4) (datVal p t r 0 1)))) p t),
     runIf row (.bred b) (fun p g x t =>
       let ea := genericAddr p t b
       !x.deterministic && ea.toNat % 128 == 0 && bits ea 63 57 == 0 &&
         match homeOp (endRegion p t) t b ea.toNat (fun v => lineOp b.xf b.h.typ v [(bredOffset b t.lane, datVal p t b 0 1)]) with
         | (s1, .ok _) => standing s1 g t
         | _ => false),
     runIf s (.bupd u) (fun p _ x t =>
       let ea := genericAddr p t u
       let s1 := (endRegion p t).modThread t fun x => { x with bupdAt := some ((p.thread t).pc, 0) }
       !x.deterministic && ea.toNat % 128 == 0 && bupdCount u p t == 1 && (p.thread t).bupdAt.isNone &&
         isOk (bupdLines u (datVal p t u 0 1) t none (bupdCount u p t) ea.toNat s1)),
     runIf (withV [(5, 3)] (s.modThread me fun x => { x with bupdAt := some (x.pc, 2) })) (.bupd { u with base := vS 6 }) (fun p _ x t =>
       let u : MForm := { u with base := vS 6 }
       !x.deterministic && (genericAddr p t u).toNat % 128 == 0 && bupdCount u p t == 3 && (p.thread t).bupdAt == some ((p.thread t).pc, 2)),
     runIf (withV [(5, 65537)] s) (.bupd u) (fun p _ x t => !x.deterministic && bupdCount u p t == 65537),
     runIf { base with stores := [⟨me, 6, false, false, 0, 0⟩] } (.aflush (rf .b32)) (fun p _ x t =>
       !x.deterministic && p.stores.any fun y => y.t == t && y.tracker == 6 && !y.fin),
     runIf base (.aflush (rf .b32)) (fun p _ x t => !x.deterministic && !p.stores.any fun y => y.t == t && y.tracker == 6 && !y.fin),
     runIf (full 511) (.red r) (fun p _ x t => x.deterministic && x.detBuf.length == 511 && addressed r p t),
     runIf (full 512) (.red r) (fun p _ x t => x.deterministic && x.detBuf.length == 512 && addressed r p t),
     runIf (full 511) (.bred b) (fun p _ x t => x.deterministic && (genericAddr p t b).toNat % 128 == 0),
     runIf (withV [(5, 65536)] (full 511)) (.bupd u) (fun p _ x t => x.deterministic && x.detBuf.length == 511
       && (genericAddr p t u).toNat % 128 == 0 && bupdCount u p t == 65536),
     runIf (flagged 0x112) (.aflush (rf .b32)) (fun _ _ x _ => x.deterministic)]) := all_met (by decide +kernel)

/-! ### Barriers, objects and messages -/

def bars (i : Instr) (f : IForm) (s : State) (also : Barrier → TRef → Bool) : Case := runIf s i fun p _ b t =>
  !barTooMany p b f && also (barrierOf p b (barNumber f)) t

/-- Barrier 15 in the middle of a phase of `n` threads, which these have reached. -/
def arrivedAt (n : Nat) (l : List TRef) (phase : Word) : State :=
  base.modBlock 0 fun b => { b with barriers := b.barriers.put 15 ⟨n, l, phase⟩ }

theorem witness_BarriersRun : AllMet (
    let f : IForm := { jf .b32 with imm := 0x1F }
    let r : IForm := { f with a := .zero }
    let w : IForm := { f with dst := .zero }
    [bars (.bar f) f base (fun x t => !x.arrived.contains t && x.arrived == []), bars (.barr r) r base (fun x t => !x.arrived.contains t),
     bars (.bar f) f (arrivedAt 1 [⟨0, 5⟩] 7) (fun x t => !x.arrived.contains t && x.expected == barExpected f),
     bars (.barr r) r (arrivedAt 0 [] 7) (fun x _ => x.arrived == []),
     bars (.bar f) f (arrivedAt 1 [me] 7) (fun x t => x.arrived.contains t),
     bars (.bar f) f (arrivedAt 2 [⟨0, 5⟩] 7) (fun x _ => x.arrived != [] && x.expected != barExpected f),
     runIf base (.bar { f with imm := 0x2F }) (fun p _ b _ => barTooMany p b { f with imm := 0x2F }),
     bars (.barw w) w (arrivedAt 0 [] 1) (fun x _ => tokenPassed x.phase 0), bars (.barw w) w base (fun x _ => !tokenPassed x.phase 0),
     runIf base (.cbar { jf .b32 with imm := 3 }) (fun p _ _ t => isOk (doRelease (endRegion p t) t .cluster)),
     runIf (flagged 0x111) (.gbar (jf .b32)) (fun p _ b t => b.cooperative && isOk (doRelease (endRegion p t) t .device)),
     runIf base (.gbar (jf .b32)) (fun _ _ b _ => !b.cooperative), run base (.rgnb (rf .b32))]) := all_met (by decide +kernel)

/-- Partition 0 may use copy contexts 5 to 6. -/
def withContexts (s : State := base) : State := s.modPart 0 fun p => { p with ctxbase := 5, ctxcnt := 2 }

theorem witness_ObjectsAndCountersRun : AllMet (
    let l : IForm := { jf .b32 with a := kS 0, imm := 0xFFFFFF }
    let t (n : BitVec 20) : SForm := { sf with imm := n }
    let bo : SForm := { sf with b := vS 2, dst := .zero }
    [runIf (withK [(0, 0x3FF0)] dataState) (.larr l) (fun p g b t =>
       let ea := q (rawSrc p t .b64 l.a)
       let o := ea.toNat % 128
       let access : MForm := { h := l.h, dat := l.dst, base := l.a, ofs := 0, ret := .default, ord := .ar, scp := .device
                               cnt := .one, xf := 0 }
       !b.deterministic && bits ea 63 57 == 0 && ea.toNat % 16 == 0 &&
         match homeOp (endRegion p t) t access (ea.toNat / 128 * 128) (fun v => (byteMask o 12,
             linePut o (lineGet v o 4 + 2 ^ 64 * lineGet v (o + 8) 4))) with
         | (s1, .ok _) => standing s1 g t
         | _ => false),
     runIf withContexts (.tlwait (t 4)) (fun p _ b u => (timelineOf p u b (t 4)).isNone),
     runIf withContexts (.tlread (t 7)) (fun p _ b u => (timelineOf p u b (t 7)).isNone),
     runIf withContexts (.tlwait (t 5)) (fun p _ b u => timelineOf p u b (t 5) == some 5 &&
       atLeast48 (bits (p.ctx 5).counter 47 0) (bits (srcPair p u (vS 0)) 47 0)),
     runIf (withV [(0, 1)] withContexts) (.tlwait (t 6)) (fun p _ b u => timelineOf p u b (t 6) == some 6 &&
       !atLeast48 (bits (p.ctx 6).counter 47 0) (bits (srcPair p u (vS 0)) 47 0)),
     runIf withContexts (.tlread { t 6 with a := .zero }) (fun p _ b u => timelineOf p u b (t 6) == some 6),
     runIf (withV [(0, 0x7FF0)] (base.modThread me busy)) (.boinit bo) (fun p _ b u =>
       (barrierAt p b (.boinit bo) (srcWord p u bo.a)).toOption == some 0x7FF0 && (p.thread u).st == 62),
     runIf base (.bowait sf) (fun p _ b u => (barrierAt p b (.bowait sf) (srcWord p u sf.a)).toOption == some 0 && ownWord p b 0 == 0),
     runIf (scratchWrite base 0 0 [1]) (.bowait sf) (fun p _ b u =>
       (barrierAt p b (.bowait sf) (srcWord p u sf.a)).toOption == some 0 && ownWord p b 0 != 0),
     runIf (withV [(0, 0x8000)]) (.bowait sf) (fun p _ b u => (barrierAt p b (.bowait sf) (srcWord p u sf.a)).toOption.isNone),
     runIf (scratchWrite base 0 12 [1]) (.bowait sf) (fun p _ b u =>
       (barrierAt p b (.bowait sf) (srcWord p u sf.a)).toOption.isNone)]) := all_met (by decide +kernel)

theorem witness_MessagesRun : AllMet (
    let post : SForm := { sf with b := vS 2, imm := 4096 }
    let send : SForm := { post with dst := .zero, imm := 0x9000 }
    let posts (s : State) : Case := runIf s (.msgpost post) fun p _ b t =>
      let w := srcPair p t post.a
      bits w 63 48 == 0 && (lo32 w == wildcard || (nameTarget p b.part (.msgpost post) (lo32 w)).toOption.isSome)
        && (lo32 w != wildcard || !b.deterministic) && (ownOffset b (srcWord p t post.b) (16 + 4096) 16).toOption.isSome
        && (freeReceive ((endRegion p t).core b.core)).isSome
    [posts (withV [(0, 0xFFFFFFFF), (2, 0x6FF0)]), posts (withV [(0, 0xFF000000)]),
     runIf (withV [(0, 0xFF000003), (2, 0x7000)]) (.msgsend send) (fun p _ b t =>
       let w := srcPair p t send.a
       bits w 63 48 == 0 && (match nameTarget p b.part (.msgsend send) (lo32 w) with | .ok n => n == 3 | .error _ => false)
         && (ownOffset b (srcWord p t send.b) 4096 4).toOption.isSome && isOk (doRelease (endRegion p t) t .device))]) :=
  all_met (by decide +kernel)

/-! ### Engines and FIFOs -/

theorem witness_EngineInstructionsRun : AllMet (
    let w (m : BitVec 32) : IForm := { jf .b32 with a := .zero, imm := m }
    let other (b : Block) : State := { base with blocks := base.blocks ++ [b] }
    let mine := (base.block? 0).getD (seatBlock State.reset)
    let down (m : BitVec 32) (p : State) (b : Block) : List Nat := (List.range 16).filter fun i => (p.core b.core).wayMask.getLsbD i && !m.getLsbD i
    let foreign (p : State) (b : Block) : Bool := p.blocks.any fun x => x.core == b.core && !(x.launch == b.launch && x.gen == b.gen)
    let heldDown (m : BitVec 32) (p : State) (b : Block) : Bool := (down m p b).any fun i => (heldWays p b.core).contains i
    let wide := base.modCore 0 fun c => { c with wayMask := 3 }
    let k : SForm := { sf with imm := 1 }
    let c : SForm := { sf with a := kS 0 }
    [runIf base (.wayset (w 0x7FFF)) (fun _ _ _ _ => decide (14 < popcount 16 0x7FFF)),
     runIf (other { mine with id := 9, launch := 1 }) (.wayset (w 0x3FFF)) (fun p _ b _ => foreign p b),
     runIf (base.modCore 0 fun c => { c with wayMask := 1 }) (.wayset (w 0)) (fun p _ b _ => heldDown 0 p b),
     runIf wide (.wayset (w 0x3FFD)) (fun p g b t => !foreign p b && !heldDown 0x3FFD p b && !(down 0x3FFD p b).any (wayBusy p b.core)
       && standing (endRegion p t) g t),
     runIf (withContexts.modPart 0 fun p => { p with ctxbase := 0 }) (.kick k) (fun p _ b t =>
       let s0 := endRegion p t
       (ownOffset b (srcWord p t k.a) 64 64).toOption == some 0 && heldRecords p b.core + 1 ≤ 64 && (p.thread t).cp + 1 ≤ 63 &&
         match doRelease s0 t (scopeOfCode (maxOf ((List.range 1).map fun j =>
             recScope (BitVec.ofNat 512 (ofBytes (homeRead p b (64 * j) 64)))))) with
         | (s1, .ok _) => isOk (submitAll t b 1 (srcWord p t k.a) 0 s1)
         | _ => false),
     runIf (withThread fun x => { x with cp := 63 }) (.kick k) (fun p _ b t =>
       (ownOffset b (srcWord p t k.a) 64 64).toOption == some 0 && decide (63 < (p.thread t).cp + 1)),
     runIf (withK [(0, 5)] withContexts) (.cpcancel c) (fun p g b t =>
       (groupCtx p (.cpcancel c) b c.a [t]).toOption == some 5 &&
         standing (cancelAll (endRegion p t) 5 ((p.ctx 5).reqs.filter fun r => r.block == b.id && !r.started && !r.fin)) g t),
     runIf withContexts (.tlsig { sf with imm := 6 }) (fun p _ b t =>
       timelineOf p t b { sf with imm := 6 } == some 6 && isOk (doRelease (endRegion p t) t .device)),
     runIf (withK [(0, 6)] withContexts) (.ctxsel c) (fun p _ b t => (groupCtx p (.ctxsel c) b c.a [t]).toOption == some 6),
     runIf (withK [(0, 7)] withContexts) (.ctxsel c) (fun p _ b t => (groupCtx p (.ctxsel c) b c.a [t]).toOption.isNone)]) :=
  all_met (by decide +kernel)

/-- FIFO 3 of the block, of two slots of 64 bytes. -/
def queue (free filled : Nat) (fin eng mxc : Bool) (resv : List (Nat × Bool × Option TRef)) (popped : List (Nat × Bool)) : Fifo :=
  { base := 0, slotb := 0, count := 2, head := 0, tail := 0, free := free, filled := filled, eng := eng, mxc := mxc, chan := false
    fin := fin, resv := resv, popped := popped }
def withFifo (n : Nat) (x : Fifo) (s : State := base) : State := s.modBlock 0 fun b => { b with fifos := b.fifos.put n x }
def fifos (i : Instr) (s : State) (also : State → Block → TRef → Fifo → Bool) : Case := runIf s i fun p _ b t =>
  match fifoRef p b 3 with
  | .held _ _ x => also p b t x
  | _ => false

theorem witness_FifosRun : AllMet (
    let f : SForm := { sf with imm := 3 }
    let fa : SForm := { f with dst := .zero }
    let fd : SForm := { f with a := .zero }
    let init : SForm := { fa with b := vS 2, imm := 0x43 }
    let released (p : State) (t : TRef) : Bool := isOk (doRelease (endRegion p t) t .cluster)
    [runIf (withV [(0, 0x4000), (2, 0x100)]) (.cbinit init) (fun p g b t =>
       let a := srcWord p t init.a
       let c := srcWord p t init.b
       bits a 31 20 == 0 && bits c 31 16 == 0 && bits c 8 0 == 256 && decide (3 < b.nfifo) && b.fifos.find? 3 == none
         && !fifoNamed p b 3 && bits a 19 0 % 128 == 0 && bits a 19 0 + 256 * 64 ≤ b.scratchBytes && Block.stages p b == 1
         && standing (endRegion p t) g t),
     fifos (.cbpushReserve fd) (withFifo 3 (queue 0 2 false false false [] [])) (fun _ _ _ x => !x.eng && x.free == 0),
     fifos (.cbpushReserve fd) (withFifo 3 (queue 1 1 false false false [] [])) (fun p _ _ x => !x.eng && decide (drainKeeps true p 0 3 < x.free)),
     fifos (.cbpushCommit { fa with xf := 1 }) (withFifo 3 (queue 1 0 false false false [(0, false, some me)] [])) (fun p b t x =>
       !x.eng && slotAt p b 3 x (srcWord p t f.a) == some 0 && x.resv.contains (0, false, some t) && released p t),
     fifos (.cbpop fd) (withFifo 3 (queue 1 1 false false false [] [])) (fun p _ _ x => !x.mxc && decide (drainKeeps false p 0 3 < x.filled)),
     fifos (.cbpopTry { fd with xf := 1 }) (withFifo 3 (queue 1 1 false false false [] [])) (fun p _ _ x => !x.mxc && decide (drainKeeps false p 0 3 < x.filled)),
     fifos (.cbpop fd) (withFifo 3 (queue 2 0 true false false [] [])) (fun _ _ _ x => !x.mxc && x.filled == 0 && x.fin),
     fifos (.cbpopTry { fd with xf := 1 }) (withFifo 3 (queue 2 0 true false false [] [])) (fun _ _ _ x => !x.mxc && x.filled == 0 && x.fin),
     fifos (.cbpop fd) (withFifo 3 (queue 2 0 false false false [] [])) (fun _ _ _ x => !x.mxc && x.filled == 0 && !x.fin),
     fifos (.cbpopTry { fd with xf := 1 }) (withFifo 3 (queue 2 0 false false false [] [])) (fun _ _ _ x => !x.mxc && x.filled == 0 && !x.fin),
     fifos (.cbrel fa) (withFifo 3 (queue 1 0 false false false [] [(0, false)])) (fun p b t x =>
       !x.mxc && slotAt p b 3 x (srcWord p t f.a) == some 0 && x.popped.contains (0, false) && released p t),
     fifos (.cbstat fd) (withFifo 3 (queue 1 1 false false false [] [])) (fun _ _ _ _ => true),
     runIf (base.modBlock 0 fun b => { b with nfifo := 3 }) (.cbstat fd) (fun p _ b _ =>
       match fifoRef p b 3 with | .absent => true | _ => false),
     runIf base (.cbstat fd) (fun p _ b _ => match fifoRef p b 3 with | .blank => true | _ => false)]) := all_met (by decide +kernel)

/-! ### The matrix arrays, templates and fills -/

def mxOps (f : MXForm) : List (Instr × Nat) :=
  [(.mxwld f, 0), (.mxwsw f, 1), (.mxmul f, 2), (.mxzero f, 3), (.mxdrn f, 4), (.mxperm f, 5)]

/-- A register of four declared signers, of which these have signed the operation. -/
def cvReg (declared : Nat) (fields : Option MXForm) (op : Nat) (signers : List TRef) : Cv :=
  { noCv with declared := declared, fields := fields, opcode := op, signers := signers.map fun t => (t, 0, 0) }
def withCv (v : Cv) (s : State := base) : State := s.modBlock 0 fun b => { b with cvs := b.cvs.put 2 v }
def withMx (f : Matrix → Matrix) (s : State) : State := s.modCore 0 fun c => { c with mx := f c.mx }

structure Signing where
  p : State
  b : Block
  t : TRef
  m : Matrix
  v : Cv

def signs (e : Instr × Nat) (s : State) (also : Signing → Bool) : Case := runIf s e.1 fun p _ b t =>
  decide (2 < b.ncv) && b.matrix && also ⟨p, b, t, (p.core b.core).mx, ((p.block? b.id).bind fun x => x.cvs.find? 2).getD noCv⟩

def Signing.free (x : Signing) : Bool := x.m.holder.isNone || x.m.holder == some x.b.id
def Signing.room (x : Signing) : Bool := (queueRoom (endRegion x.p x.t) x.b 0 2).isSome
def Signing.declared (x : Signing) : Bool := x.free && !heldRound x.p x.b.core 2 && x.v.declared != 0 && !x.v.signers.any fun y => y.1 == x.t

/-- A form of each operation that its first signature accepts, with FIFO 3 marked as the operation needs it. -/
def mxForm (op : Nat) : MXForm :=
  match op with
  | 0 => { xf with cv := 2, f1 := 3, bits := 7 }
  | 2 => { xf with cv := 2, f1 := 3, bits := 3, m := 4 }
  | 4 => { xf with cv := 2, f1 := 3, h := hd .f32, m := 1, kx := 1, ky := 2, kz := 3 }
  | 5 => { xf with cv := 2, f1 := 3 }
  | _ => { xf with cv := 2 }
def mxInstr (op : Nat) : Instr × Nat := (mxOps (mxForm op)).getD op (.mxzero xf, 3)
def mxState (op : Nat) (v : Cv) : State :=
  withK [(3, 0x11)] (withFifo 3 (queue 2 0 false false (op != 4) [] []) (withCv v))

/-- An operation whose round is complete, entered or not. -/
def opOf (op : Nat) (started fin : Bool) : MxOp :=
  { opcode := op, f := mxForm op, kvals := [0, 0, 0x11], rm := 1, cv := 2, seq := 0, seed := 0, signers := [(me, 0x1000, 0)]
    cycle := 0, held := false, started := started, row := 0, begun := false, col := 0, exps := [], prior := [], taken := []
    freed := 0, xs := [], out := [], sent := 0, last := none, trap := 0, done := fin }

theorem witness_MatrixSignaturesRun : AllMet (
    let ops := [0, 1, 2, 3, 4, 5]
    let first (op : Nat) (x : Signing) : Bool :=
      x.declared && x.v.fields.isNone && mxCheck x.p x.b (mxInstr op).1 op (mxForm op) (drainKs x.p x.t.wave op (mxForm op)) == none
    let last (op : Nat) (x : Signing) : Bool :=
      x.declared && x.v.fields == some (mxForm op) && x.v.opcode == op && x.v.kvals == drainKs x.p x.t.wave op (mxForm op)
        && x.v.signers.length + 1 == x.v.declared
    (ops.map fun op => signs (mxInstr op) (mxState op (cvReg 2 none 0 [])) fun x => first op x && (x.p.thread x.t).mx == 0)
    ++ (ops.map fun op => signs (mxInstr op) ((mxState op (cvReg 2 none 0 [])).modThread me fun x => { x with mx := 63 }) fun x =>
      first op x && (x.p.thread x.t).mx == 63)
    ++ ([0, 1, 2, 3, 5].map fun op => signs (mxInstr op) (mxState op (cvReg 2 (some (mxForm op)) op [⟨0, 7⟩])) fun x => last op x && x.room)
    ++ [signs (mxInstr 1) (mxState 1 (cvReg 1 none 0 [])) (fun x => first 1 x && x.v.declared == 1),
        signs (mxInstr 1) (withMx (fun m => { m with waiting := [(0, opOf 1 false false)] })
          (mxState 1 (cvReg 2 (some (mxForm 1)) 1 [⟨0, 7⟩]))) (fun x => last 1 x && x.room && x.m.waiting.any fun e => e.1 == 0 && !e.2.held),
        signs (mxInstr 1) (withMx (fun m => { m with clear := true }) (mxState 1 (cvReg 1 none 0 []))) (fun x => first 1 x && x.m.clear),
        signs (mxInstr 1) (withMx (fun m => { m with waiting := List.replicate 8 (0, opOf 1 false false) })
          (mxState 1 (cvReg 2 (some (mxForm 1)) 1 [⟨0, 7⟩]))) (fun x => last 1 x && !x.room),
        signs (mxInstr 1) (withMx (fun m => { m with waiting := [(0, { opOf 1 false false with held := true })] })
          (mxState 1 (cvReg 2 (some (mxForm 1)) 1 [⟨0, 7⟩]))) (fun x => x.free && heldRound x.p x.b.core 2),
        signs (mxInstr 1) { mxState 1 (cvReg 1 none 0 []) with stores := [⟨me, 7, false, false, 0, 0⟩] } (fun x => first 1 x && scratchBusy x.p x.t),
        signs (mxInstr 3) (withMx (fun m => { m with holder := some 9 }) (mxState 3 (cvReg 1 none 0 []))) (fun x => !x.free),
        signs (mxInstr 3) (mxState 3 noCv) (fun x => x.free && x.v.declared == 0),
        signs (mxInstr 3) (mxState 3 (cvReg 2 (some (mxForm 3)) 3 [me])) (fun x => x.free && x.v.signers.any fun y => y.1 == x.t),
        signs (.mxwld { xf with cv := 2 }, 0) (mxState 0 (cvReg 1 none 0 [])) (fun x => x.declared && x.v.fields.isNone &&
          (mxCheck x.p x.b (.mxwld { xf with cv := 2 }) 0 { xf with cv := 2 } []).isSome),
        signs (mxInstr 3) (mxState 3 (cvReg 2 (some (mxForm 1)) 1 [⟨0, 7⟩])) (fun x => x.declared && x.v.fields.isSome &&
          !(x.v.fields == some (mxForm 3) && x.v.opcode == 3)),
        runIf (base.modBlock 0 fun b => { b with ncv := 2 }) (mxInstr 3).1 (fun _ _ b _ => decide (b.ncv ≤ 2)),
        runIf (flagged 0x10) (mxInstr 3).1 (fun _ _ b _ => !b.matrix)]
    ++ (let c : SForm := { sf with a := .zero, b := .zero, dst := .zero, imm := 0x1F }
        [runIf base (.cvset c) (fun p g b t => decide (15 < b.ncv) && 1 ≤ (blockThreads p b).length &&
           ((b.cvs.find? 15).getD noCv).signers == [] && standing (endRegion p t) g t),
         runIf base (.cvset { c with imm := 0x2F }) (fun p _ b _ => decide ((blockThreads p b).length < 2)),
         runIf (base.modBlock 0 fun b => { b with cvs := b.cvs.put 15 (cvReg 1 none 0 [me]) }) (.cvset c) (fun _ _ b _ =>
           ((b.cvs.find? 15).getD noCv).signers != [])])) := all_met (by decide +kernel)

/-- The launch's prologue thread, and a nested thread of an item of its template. -/
def prologue (s : State := base) : State := (flagged 0x114 s).modThread me fun x => { x with stamp := .prologue }
def nested (s : State := base) : State := (flagged 0x114 s).modThread me fun x => { x with stamp := .item, tlevel := 1, nest := some 3 }
def still (p : State) (t : TRef) : Bool :=
  let x := p.thread t
  x.ld == 0 && x.st == 0 && x.cp == 0 && x.mx == 0

theorem witness_TemplatesFreezeAndNest : AllMet (
    let f := Instr.freeze (rf .b32)
    let n (k : BitVec 32) := Instr.nest { jf .b32 with a := .zero, dst := .zero, imm := k }
    let out (p : State) (t : TRef) : Bool := isOk (doRelease ((endRegion p t).modThread t Thread.noContexts) t .device)
    let item := (flagged 0x114).modThread me fun x => { x with stamp := .item, tlevel := 1 }
    [runIf base f (fun p _ b t => !b.gen && (p.thread t).stamp == .plain),
     runIf (prologue.modThread me fun x => { x with mx := 1 }) f (fun p _ b t => !b.gen && (p.thread t).stamp == .prologue && !still p t),
     runIf prologue f (fun p _ b t => !b.gen && (p.thread t).stamp == .prologue && still p t && out p t),
     runIf (withLine .l1 { lineAt 0x3F80 1 with dirty := 1 } (withCsm [{ csmAt 0x3F80 0 with w := some false }] prologue)) f
       (fun p _ b t => !b.gen && (p.thread t).stamp == .prologue && still p t && !out p t),
     runIf nested f (fun p _ b t => !b.gen && (p.thread t).nest.isSome && still p t && (clusterCores p b).all (bankFree p) && out p t),
     runIf (nested.modCore 0 fun c => { c with banks := (List.range 8).map fun i => (i, 1) }) f (fun p _ b t =>
       !b.gen && (p.thread t).nest.isSome && still p t && !(clusterCores p b).all (bankFree p)),
     runIf item (n 0xFFFF) (fun p _ b t => let x := p.thread t; !b.gen && x.stamp == .item && x.tlevel == 1 && x.nest.isNone),
     run item (n 0), runIf nested (n 1) (fun p _ _ t => (p.thread t).nest.isSome), run base (n 1)]) := all_met (by decide +kernel)

/-- Region 1 of partition 0: 16 blocks of 64 KiB from 0x100000, its tables at 0x200000; block 0's state and pins. -/
def regionDesc : BitVec 512 :=
  0x100000 + (0x100000 <<< 64) + (16 <<< 128) + (1 <<< 144) + (1 <<< 384) + (0x200000 <<< 448)
def theRegion (st pins : Nat) : Machine.Region :=
  { desc := regionDesc, asid := 0, fill := (Table.put [] 0 st), pin := if pins = 0 then [] else Table.put [] 0 pins, touch := [], overCnt := 0 }
def withRegion (st pins : Nat) (s : State := base) : State := s.modPart 0 fun p => { p with regions := [(1, theRegion st pins)] }
/-- A generator's block, whose `fillend` these lanes have issued. -/
def asGen (fin : Option (BitVec 32)) : State :=
  base.modBlock 0 fun b => { b with gen := true, genItem := some ⟨0, 1, 5, 1, 1⟩, fillendAt := fin.map fun l => (7, l) }

theorem witness_FillsAndPhasesRun : AllMet (
    let fe := Instr.fillend (rf .b32)
    let fq : SForm := { sf with b := .zero }
    let at? (s : State) : State := withV [(0, 0x100000)] s
    let found (i : Instr) (s : State) (also : Machine.Region → Nat → State → TRef → Bool) : Case := runIf (at? s) i fun p _ b t =>
      match regionAt p b.part b.asid (q (rawSrc p t .b64 (vS 0))).toNat with
      | some (_, r, k) => also r k p t
      | none => false
    let ph (n : BitVec 32) := Instr.phase { jf .b32 with a := .zero, dst := .zero, imm := n }
    let begun (p : State) (b : Block) (t : TRef) : Nat × State :=
      let s0 := ((blockAlive p b).foldl commitSpec (endRegion p t)).tickSeq
      (s0.1, s0.2.modBlock b.id fun x => { x with fillendAt := some (s0.1, maskOf [t.lane]) })
    let owed (s : State) : State := { s with loads := [⟨me, 0, false, [(3, 7)], false, 0, 0, 0, 1, 0, 0, 0, none, none⟩] }
    [runIf base fe (fun _ _ b _ => !b.gen && b.fillendAt.isNone),
     runIf (asGen (some 2)) fe (fun _ _ b t => b.fillendAt == some (7, 2) && !(2 : BitVec 32).getLsbD t.lane),
     runIf (owed (asGen none)) fe (fun p g b t =>
       b.gen && b.fillendAt.isNone && itemBusy (begun p b t).2 b (begun p b t).1 && standing (begun p b t).2 g t),
     runIf (asGen none) fe (fun p g b t =>
       b.gen && b.fillendAt.isNone && !itemBusy (begun p b t).2 b (begun p b t).1 &&
         match doRelease (begun p b t).2 (lowLane g) .device with
         | (s2, .ok _) =>
           let s3 := (fillOfGen s2 b.id).elim s2 (completeFill s2)
           let leave (e : Nat × BitVec 32) : Nat × BitVec 32 := (e.1, e.2 &&& ~~~maskOf [t.lane])
           standing (s3.modBlock b.id fun x => { x with filled := true, fillendAt := x.fillendAt.map leave }) g t
         | _ => false),
     runIf (owed (asGen (some 1))) fe (fun p _ b t =>
       b.fillendAt == some (7, 1) && (1 : BitVec 32).getLsbD t.lane && !b.filled && itemBusy p b 7),
     runIf base (.fillq fq) (fun p _ b _ => (regionAt p b.part b.asid 0).isNone),
     runIf base (.filld fq) (fun p _ b _ => (regionAt p b.part b.asid 0).isNone),
     found (.fillq fq) (withRegion 2 0) (fun _ _ _ _ => true), found (.fillq { fq with xf := 1 }) (withRegion 2 255) (fun r k _ _ => r.pins k == 255),
     found (.fillq { fq with xf := 2 }) (withRegion 2 0) (fun r k _ _ => r.pins k == 0),
     found (.fillq { fq with xf := 4 }) (withRegion 0 0) (fun r k p t => r.state k == 0 &&
       match touch p { threadReq p t 0 false with waiter := none } 0x100000 with | (_, .error (.recursion _ _)) => false | _ => true),
     found (.fillq { fq with xf := 4 }) (withRegion 0 0 (asGen none))
       (fun _ _ p t => match touch p { threadReq p t 0 false with waiter := none } 0x100000 with
         | (_, .error (.recursion _ _)) => true
         | _ => false),
     found (.filld fq) (withRegion 2 0) (fun r k _ _ => r.state k == 2 && r.pins k == 0),
     found (.filld fq) (withRegion 2 1) (fun r k _ _ => !(r.state k == 2 && r.pins k == 0)),
     found (.filld fq) (withRegion 1 0) (fun r k _ _ => !(r.state k == 2 && r.pins k == 0)),
     runIf (asGen none) (ph 0) (fun _ _ b _ => b.gen), runIf base (ph 1) (fun p _ _ t => (p.thread t).phase % 65536 != 1),
     runIf base (ph 0) (fun p _ b t => !b.gen && (p.thread t).phase % 65536 == 0),
     runIf (withThread fun x => { x with phase := 65535 }) (ph 65535) (fun p _ b t => !b.gen && (p.thread t).phase % 65536 == 65535)]) :=
  all_met (by decide +kernel)

/-! ### Textures, targets and task queues -/

/-- Four words in k0-k3: an address and two words of a descriptor. -/
def kBlockOf (a b c e : Word) (s : State := base) : State := withK [(0, a), (1, b), (2, c), (3, e)] s
/-- Lines of zeros at 0x3E00 to 0x3F80 in the CSM. -/
def tileState : State := withCsm [csmAt 0x3E00 0, csmAt 0x3E80 0, csmAt 0x3F00 0, csmAt 0x3F80 0]
/-- A grid descriptor at 0x3F80: origin 0, voxel 1, one brick, 1 outside. -/
def gridLine : BitVec 1024 := (0x3F800000 <<< 96) + (1 <<< 128) + (1 <<< 144) + (1 <<< 160) + (0x3F800000 <<< 192)

theorem witness_TexturesAndBricksSample : AllMet (
    let f : RForm := { rf .f32 with b := kS 0 }
    let fq : RForm := { rf .b32 with a := xS 0xA0, b := kS 0 }
    let desc (p : State) (t : TRef) := srcRegs p t (kS 0) 4
    let ok (n : Nat) : State := kBlockOf 0x3F80 0 0x10001 0 (tileState.modThread me fun x => { x with ld := n })
    let wrong := kBlockOf 0x3F80 0 0x10000 0
    let samplesAt (s : State) (i : Instr) (e : State → TRef → List Nat × Nat) : Case := runIf s i fun p _ _ t =>
      let a := runArgs p t (desc p t ++ srcRegs p t f.a 2 ++ ((e p t).1 ++ [(e p t).2]).map d)
      (p.thread t).ld == 62 && match texOf i (a.take 4) with
        | .ok x => isOk (texSample x t (texLevel x (((a.drop 6).take 4).map BitVec.toNat) (wAt a 10).toNat) (beginRun p t 3 a)
            (wAt a 4).toNat (wAt a 5).toNat)
        | _ => false
    let samples := samplesAt (ok 62)
    let held := (ok 62).modThread me fun x => { x with heldRun := some ⟨3, [0x3F80, 0, 0x10001, 0] ++ List.replicate 7 0, [], []⟩ }
    let br : RForm := { f with c := .zero }
    [runIf (flagged 0x190 { two with cur := some grp }) (.tex f) (fun p g b t => b.checked && !(p.thread t).holds 3 && partnerMissing p g t),
     samplesAt held (.tex f) (fun p t => (laneDerivs p f t, srcVal p t .f32 f.c)),
     runIf wrong (.tex f) (fun p _ _ t => (texOf (.tex f) (desc p t)).toOption.isNone),
     runIf wrong (.texg f) (fun p _ _ t => (texOf (.texg f) (desc p t)).toOption.isNone),
     runIf (ok 63) (.tex f) (fun p _ _ t => (texOf (.tex f) (desc p t)).toOption.isSome && (p.thread t).ld == 63),
     runIf (ok 63) (.texg f) (fun p _ _ t => (texOf (.texg f) (desc p t)).toOption.isSome && (p.thread t).ld == 63),
     samples (.tex f) (fun p t => (laneDerivs p f t, srcVal p t .f32 f.c)),
     samples (.texg f) (fun p t => ((srcRegs p t f.c 4).map BitVec.toNat, 0)),
     runIf wrong (.texq fq) (fun p _ _ t => (texOf (.texq fq) (desc p t)).toOption.isNone),
     runIf (ok 0) (.texq fq) (fun p _ _ t => (texOf (.texq fq) (desc p t)).toOption.isSome),
     runIf (kBlockOf 0x3FA0 0 0 0) (.brick br) (fun p _ _ t => (blockVa (q (rawSrc p t .b64 (kS 0))) 64).isSome),
     runIf (kBlockOf 0x3F80 0 0 0 (withV [(0, 0xBF800000)] (withCsm [csmAt 0x3F80 gridLine] (base.modThread me busy)))) (.brick br)
       (fun p _ _ t =>
         let args := runArgs p t (srcRegs p t br.b 2 ++ srcRegs p t br.a 3)
         let va := pair (wAt args 0) (wAt args 1)
         blockVa va 64 == none && (p.thread t).ld == 62 && match logged t (cachedRead .const t) (beginRun p t 0 args) va.toNat 64 with
           | (s1, .ok v) => (match gridOf v 0 with
             | .ok grid => isOk (brickPoint grid (logged t (engineRead t)) (logged t (cachedRead .brick t)) s1
                 (((args.drop 2).take 3).map BitVec.toNat))
             | .error _ => false)
           | _ => false)]) := all_met (by decide +kernel)

/-- A task queue's descriptor at 0x3F80: two slots at 0x3F00, with these counters. -/
def queueLine (reserved committed popped : BitVec 1024) : BitVec 1024 :=
  0x3F00 + (1 <<< 64) + (reserved <<< 128) + (committed <<< 192) + (popped <<< 256)
def queueState (reserved committed popped : BitVec 1024) : State :=
  withV [(0, 0x3F80)] (withCsm [csmAt 0x3F00 0, csmAt 0x3F80 (queueLine reserved committed popped)])

theorem witness_TargetsAndTaskQueuesRun : AllMet (
    let f : RForm := { rf .b32 with a := vS 2, b := vS 8, c := kS 0, dst := .zero }
    let cv : RForm := { f with b := vS 8 }
    let all := [(Instr.rtw { f with b := vS 8 }, false), (.zt f, true), (.vbw f, true), (.covq cv, true)]
    let desc (p : State) (t : TRef) := srcRegs p t f.c 4
    let ok (x y z : Word) : State := kBlockOf 0x3E00 0 0x10001 0 (withV [(2, x), (3, y), (8, z)] (tileState.modThread me busy))
    let wrong := kBlockOf 0x3E00 0 1 0
    let px (p : State) (t : TRef) (n : Nat) (x : Target) := x.pixel n (wAt (srcRegs p t f.a 2) 0).toNat (wAt (srcRegs p t f.a 2) 1).toNat
    let aim (i : Instr) (depth : Bool) (s : State) (also : State → TRef → Target → Bool) : Case := runIf s i fun p _ _ t =>
      match targetOf i depth (desc p t) with
      | .ok x => also p t x
      | .error _ => false
    let updates (p : State) (t : TRef) (x : Target) (depth word : Nat) : Bool := match px p t 8 x with
      | some va => (p.thread t).st == 62 && depthOk depth && isOk (depthUpdate (endRegion p t) (threadReq (endRegion p t) t 2 false) va depth word)
      | none => false
    let e : SForm := { sf with a := vS 0, b := vS 16, dst := vD 1 }
    let tp : SForm := { sf with b := .zero, dst := vD 16 }
    let tt : SForm := { tp with b := cS 11, xf := 1 }
    (all.map fun i => runIf wrong i.1 fun p _ _ t => (targetOf i.1 i.2 (desc p t)).toOption.isNone)
    ++ [aim (.rtw f) false (ok 8 0 0) (fun p t x => px p t 4 x == none),
        aim (.rtw f) false (ok 7 7 0) (fun p t x => match px p t 4 x with
          | some va => (p.thread t).st == 62 && va + 4 ≤ 2 ^ 57 && (match rasterTouch p t (threadReq p t 1 false) (va / 128 * 128) with
              | (s1, .ok _) => rasterRoom s1 (waveCore t.wave) (threadReq p t 1 false).asid (threadReq p t 1 false).agen (va / 128 * 128)
              | _ => false)
          | none => false),
        aim (.zt f) true (ok 0 8 0) (fun p t x => px p t 8 x == none), aim (.vbw f) true (ok 0 8 1) (fun p t x => px p t 8 x == none),
        aim (.vbw f) true (ok 0 0 2) (fun p t _ => bits (wAt (srcRegs p t f.b 8) 0) 3 0 != 1),
        aim (.zt f) true (ok 7 7 0x80000000) (fun p t x => (px p t 8 x).isSome && !depthOk (wAt (srcRegs p t f.b 2) 0).toNat),
        aim (.zt f) true (ok 7 7 0x3F800000) (fun p t x => updates p t x (wAt (srcRegs p t f.b 2) 0).toNat (wAt (srcRegs p t f.b 2) 1).toNat),
        aim (.vbw f) true (ok 0 0 1) (fun p t x => updates p t x (wAt (srcRegs p t f.b 8) 1).toNat (hitWord (srcRegs p t f.b 8))),
        aim (.covq cv) true (ok 1 0 0) (fun p t x => (p.thread t).ld == 62 && (x.pixel 8 8 0).isNone),
        aim (.covq cv) true (ok 0 0 0) (fun p t x => match x.pixel 8 0 0 with
          | some va => (p.thread t).ld == 62 && isOk (tilePairs p (threadReq p t 0 true) va)
          | none => false)]
    ++ ([Instr.emit e, .taskpop tp, .taskpopTry tt].map fun i => runIf (withV [(0, 0x3FA0)]) i fun p _ _ t =>
      (blockVa (q (rawSrc p t .b64 (vS 0))) 64).isSome)
    ++ ([queueState 0 0 0, queueState 2 2 0].map fun s => runIf s (.emit e) fun p _ _ t =>
      match doRelease (endRegion p t) t .device with
      | (s1, .ok _) => isOk (pushRecord (illegal (.emit e)) s1 (threadReq s1 t 2 false) 0x3F80 ((srcRegs p t e.b 16).flatMap fun w => toBytes 4 w.toNat))
      | _ => false)
    ++ ([(Instr.taskpop tp, queueState 1 1 0), (.taskpop tp, queueState 0 0 0), (.taskpopTry tt, queueState 1 1 0), (.taskpopTry tt, queueState 0 0 0)].map fun e =>
      runIf e.2 e.1 fun p _ _ t => isOk (popRecord (illegal e.1) (endRegion p t) (threadReq (endRegion p t) t 2 false) 0x3F80))) :=
  all_met (by decide +kernel)

/-! ### The marcher, the traversal unit and beams -/

/-- A scene image in the block's scratch: one constant, then END (R140, R142). -/
def sceneBytes : List Byte := [0x31, 0x43, 0x42, 0x53, 22, 0, 0, 0, 32, 0, 0, 0, 1, 0, 0, 0, 0x01, 0, 0, 0x80, 0x3F, 0x00]
def sceneState : State := kBlockOf 0 0x80000000 0 100 (scratchWrite base 0 0 sceneBytes)
def callout (mode : Nat) : MarchCtx :=
  { ray := List.replicate 8 0, params := [0, 0x80000000, 0, 100], segs := [], steps := 1, a := 0, b := 0, mode := mode, pos := 21
    vals := [], frames := [(List.replicate 3 (SVal.pt 0 [0, 0, 0]).words)] }
/-- The thread holds a callout, or 64 threads of the core do. -/
def calling (mode : Nat) : State := sceneState.modThread me fun x => { x with march := some (callout mode) }
def run64 : List MarchRun := List.replicate 64 { pc := 0, region := 0, left := ⟨[], []⟩, next := none, back := none }

theorem witness_MarchesRun : AllMet (
    let f : RForm := { rf .b32 with b := kS 0, c := .zero }
    let o (n : BitVec 4) : RForm := { rf .b32 with xf := n }
    let args (p : State) (t : TRef) := runArgs p t (srcRegs p t f.a 8 ++ srcRegs p t f.b 4)
    let k (p : State) (t : TRef) := (args p t).drop 8
    let marched (p : State) (b : Block) (t : TRef) : Bool :=
      isOk (marchRun (imageIO b t (k p t)) ((args p t).take 8) (k p t) (beginRun p t 1 (args p t)))
    let good (p : State) (b : Block) (t : TRef) : Bool := !imageField (k p t) && !marchField (k p t) && imageCheck p b (k p t) == none
    let mh : RForm := { rf .b32 with a := .zero, b := .zero, c := .zero }
    let recorded (n : Word) : State := withThread fun x => { x with marchRec := ⟨n :: List.replicate 7 0, List.replicate 16 0⟩ }
    let bc : RForm := { rf .b32 with a := kS 0, b := vS 8, c := .zero }
    let cap (n off : Word) (s : State := base) : State := kBlockOf 0 0x80000000 off n (scratchWrite s 0 0 sceneBytes)
    let eight : State := ((flagged 0x114).modBlock 0 fun b => { b with segBytes := 1024 }).modThread me fun x =>
      { x with stamp := .item, granules := (List.range 8).map fun i => (100 + i, 0) }
    let pruned (p : State) (b : Block) (t : TRef) : Bool :=
      let a := runArgs p t (srcRegs p t bc.a 4 ++ srcRegs p t bc.b 6)
      let k := a.take 4
      let v := a.drop 4
      let box := (List.range 3).map fun i => SVal.iv (Iv.read ⟨(wAt v i).toNat, (wAt v (3 + i)).toNat⟩)
      !pruneField k && pruneCheck p b k == none &&
        isOk (pruneImage (imageIO b t k) (bits (wAt k 3) 16 0) box (beginRun (endRegion p t) t 0 a))
    [runIf (kBlockOf 0 0x80000001 0 100) (.march f) (fun p _ _ t => imageField (k p t)),
     runIf (kBlockOf 0 0x80000000 0 0) (.march f) (fun p _ _ t => marchField (k p t)),
     runIf (kBlockOf 0x8000 0x80000000 0 1) (.march f) (fun p _ b t => !imageField (k p t) && !marchField (k p t) && (imageCheck p b (k p t)).isSome),
     runIf (sceneState.modThread me fun x => { x with marchRuns := run64 }) (.march f) (fun p _ b t => good p b t &&
       (p.thread t).march.isNone && !(p.thread t).holds 1 && marchContexts p (waveCore t.wave) == 64 && decide ((p.thread t).ld < 63)),
     runIf sceneState (.march f) (fun p _ b t => good p b t && marchContexts p (waveCore t.wave) < 64 && decide ((p.thread t).ld < 63) &&
       marched p b t),
     runIf (calling 2) (.march f) (fun p _ b t => good p b t && (p.thread t).march.isSome &&
       marched p b t),
     runIf (sceneState.modThread me fun x => { x with heldRun := some ⟨1, List.replicate 8 0 ++ [0, 0x80000000, 0, 100], [], []⟩ }) (.march f)
       (fun p _ b t => good p b t && (p.thread t).holds 1 && marched p b t),
     runIf base (.opqret (o 0)) (fun p _ _ t => (p.thread t).march.all fun c => c.mode != opqretMode 0),
     runIf (calling 1) (.opqret (o 0)) (fun p _ _ t => (p.thread t).march.all fun c => c.mode != opqretMode 0)]
    ++ ([0, 1, 2].map fun n => runIf (calling n) (.opqret (o (BitVec.ofNat 4 n))) fun p _ b t => match (p.thread t).march with
      | some c => c.mode == opqretMode (BitVec.ofNat 4 n) && decide ((p.thread t).ld < 63) &&
          
            (let a := runArgs p t (srcRegs p t (vS 0) (opqretRegs (BitVec.ofNat 4 n)).1)
             isOk (marchResume (imageIO b t c.params) c a (beginRun p t 1 a)))
      | none => false)
    ++ ([Instr.mhit mh, .mhitCo { mh with xf := 1 }].map fun i => runIf (withThread fun x => { x with marchRuns := run64 }) i fun p _ _ t =>
      (p.thread t).marchRuns != [])
    ++ [runIf base (.mhit mh) (fun p _ _ t => (p.thread t).marchRuns == []),
        runIf (recorded 3) (.mhitCo { mh with xf := 1 }) (fun p _ _ t => (p.thread t).marchRuns == [] && bits (wAt (p.thread t).marchRec.words 0) 3 0 != 4),
        runIf (recorded 4) (.mhitCo { mh with xf := 1 }) (fun p _ _ t => (p.thread t).marchRuns == [] && bits (wAt (p.thread t).marchRec.words 0) 3 0 == 4),
        runIf (cap 15 0x400) (.bcprune bc) (fun p _ _ t => pruneField (srcRegs p t bc.a 4)),
        runIf (cap 16 0x7FF1) (.bcprune bc) (fun p _ b t => !pruneField (srcRegs p t bc.a 4) && (pruneCheck p b (srcRegs p t bc.a 4)).isSome),
        runIf (cap 16 0x7FF0) (.bcprune bc) (fun p _ b t => pruned p b t), runIf (cap 64 0x400) (.bcprune bc) (fun p _ b t => pruned p b t),
        runIf (cap 64 0xF0000 eight) (.bcprune bc) (fun p _ b t => pruned p b t && segmentOverflow p t 0 32)]) :=
  all_met (by decide +kernel)

/-- A traversal that holds a candidate of the structure at 0x3F80. -/
def candidate : TravCtx :=
  { ray := List.replicate 8 0, params := [0x3F80, 0, 0, 0], tClosest := 0, best := none, stack := [], trail := List.replicate 64 0, dropped := false
    restarts := 0, steps := 0, level := 0, cand := 0, space := ⟨0, 0, 0, [], [], none⟩, epochs := [] }
def travs64 : List TravRun := List.replicate 64 { pc := 0, region := 0, left := ⟨[], []⟩, next := none, back := none }

theorem witness_TraversalsRun : AllMet (
    let f : RForm := { rf .b32 with b := kS 0, c := .zero }
    let st (c : Word) (k1 : Word) : State := kBlockOf 0x3F80 k1 c 0 tileState
    let holds (s : State) : State := s.modThread me fun x => { x with trav := some candidate, ld := 62 }
    let args (p : State) (t : TRef) := runArgs p t (srcRegs p t f.a 8 ++ srcRegs p t f.b 4)
    let k (p : State) (t : TRef) := (args p t).drop 8
    let begun (p : State) (t : TRef) : State := beginRun p t 2 (args p t)
    let traced (p : State) (t : TRef) : Bool :=
      isOk (traceRun (logged t (engineRead t)) ((args p t).take 8) (k p t) (begun p t))
    let good (p : State) (t : TRef) : Bool := bits (wAt (k p t) 2) 31 13 == 0 && wAt (k p t) 3 == 0
    [runIf (st 0x2000 0) (.trace f) (fun p _ _ t => bits (wAt (k p t) 2) 31 13 != 0),
     runIf (kBlockOf 0 0 0 1) (.trace f) (fun p _ _ t => wAt (k p t) 3 != 0),
     runIf (st 0x800 0) (.trace f) (fun p _ _ t => (wAt (k p t) 2).getLsbD 11 && (p.thread t).trav.isNone),
     runIf (st 0 0x2000000) (.trace f) (fun p _ _ t => good p t && !(wAt (k p t) 2).getLsbD 11 && bits (wAt (k p t) 1) 31 25 != 0),
     runIf ((st 0 0).modThread me fun x => { x with travRuns := travs64 }) (.trace f) (fun p _ _ t => good p t && (p.thread t).trav.isNone && !(p.thread t).holds 2 &&
       travContexts p (waveCore t.wave) == 64 && decide ((p.thread t).ld < 63)),
     runIf (st 0 0) (.trace f) (fun p _ _ t => good p t && travContexts p (waveCore t.wave) < 64 && decide ((p.thread t).ld < 63) &&
       traced p t),
     runIf (holds (st 0 0)) (.trace f) (fun p _ _ t => good p t && (p.thread t).trav.isSome &&
       traced p t)]
    ++ ([st 0x800 0, st 0x1800 0].map fun s => runIf (holds s) (.trace f) fun p _ _ t => match (p.thread t).trav with
      | some c => good p t && (wAt (k p t) 2).getLsbD 11 && (p.thread t).ld == 62 &&
          isOk (travLoop (logged t (engineRead t)) travFuel (begun p t) (if (wAt (k p t) 2).getLsbD 12 then c.commit (wAt (args p t) 7) else c) .pop)
      | none => false)) := all_met (by decide +kernel)

/-- A beam of the block, with a record to be queued. -/
def beamAt (pending : List (List Byte)) (retry : Option Nat) : Beam :=
  { t := me, block := 0, dst := some 1, va := 0x3F80, pc := 0x1000, bad := simpleTrap 1, walked := true, queue := 0x3F80, asid := 0
    agen := 0, part := 0, pending := pending, retry := retry, status := 0, fin := false, hold := none, owed := none, genItem := none }

theorem witness_HitsAndBeamsRun : AllMet (
    let h : RForm := { rf .b32 with a := .zero, b := .zero, c := .zero }
    let hr : RForm := { h with xf := 1 }
    let recorded (n : Word) : State := withThread fun x => { x with hitRec := ⟨n :: List.replicate 7 0, List.replicate 8 0⟩ }
    let ts (n : BitVec 8) : RForm := { h with a := xS n }
    let held := withThread fun x => { x with trav := some candidate }
    [runIf (withThread fun x => { x with travRuns := travs64 }) (.thit h) (fun p _ _ t => (p.thread t).travRuns != []),
     runIf (withThread fun x => { x with travRuns := travs64 }) (.thitRay hr) (fun p _ _ t => (p.thread t).travRuns != []),
     runIf base (.thit h) (fun p _ _ t => (p.thread t).travRuns == []),
     runIf (recorded 1) (.thitRay hr) (fun p _ _ t => (p.thread t).travRuns == [] && bits (wAt (p.thread t).hitRec.words 0) 3 0 != 2),
     runIf (recorded 2) (.thitRay hr) (fun p _ _ t => (p.thread t).travRuns == [] && bits (wAt (p.thread t).hitRec.words 0) 3 0 == 2),
     runIf base (.tstack (ts 0xA0)) (fun p _ _ t => (p.thread t).trav.isNone),
     runIf held (.tstack (ts 0xA4)) (fun p _ _ t => decide (3 < srcVal p t .n32 (xS 0xA4))),
     runIf held (.tstack (ts 0xA3)) (fun p _ _ t => (p.thread t).trav.isSome && decide (srcVal p t .n32 (xS 0xA3) ≤ 3)),
     runIf (withV [(0, 0x3FC0)]) (.beam { h with a := vS 0 }) (fun p _ _ t => (blockVa (q (rawSrc p t .b64 (vS 0))) 128).isSome),
     runIf (withV [(0, 0x3F80)] (tileState.modThread me busy)) (.beam { h with a := vS 0 }) (fun p _ b t =>
       blockVa (q (rawSrc p t .b64 (vS 0))) 128 == none && (p.thread t).ld == 62 &&
         headBeam p (coreQuad b.core) == none &&
         isOk (beamRun (illegal (.beam { h with a := vS 0 })) (threadReq (endRegion p t) t 0 false) 0x3F80 (endRegion p t))),
     runIf { withV [(0, 0x3F80)] (tileState.modThread me busy) with beams := [(0, [beamAt [] none])] } (.beam { h with a := vS 0 })
       (fun p _ b t => blockVa (q (rawSrc p t .b64 (vS 0))) 128 == none && (p.thread t).ld == 62 &&
         headBeam p (coreQuad b.core) != none &&
         isOk (beamRun (illegal (.beam { h with a := vS 0 })) (threadReq (endRegion p t) t 0 false) 0x3F80 (endRegion p t)))]) := all_met (by decide +kernel)

/-! ### Control registers, handlers, services and markers -/

theorem witness_ControlRegistersRun : AllMet (
    let r (t : Ty) (n : BitVec 32) := Instr.csrr { jf t with imm := n }
    let w (t : Ty) (n : BitVec 32) := Instr.csrw { jf t with imm := n }
    ([r .b32 0x100, r .b32 0xFFF, w .b32 0x100, w .b64 0xFFF, r .b32 8, r .b32 0xFF, w .b32 8, w .b64 0xFF, r .b64 0, r .b64 3, w .b64 1, w .b64 6]
      ++ [r .b32 0, r .b32 1, r .b32 2, r .b32 3, r .b32 4, r .b32 5, r .b32 6, r .b32 7, r .b64 2, r .b64 4, r .b64 5, r .b64 7]
      ++ [w .b32 1, w .b32 2, w .b32 3, w .b32 4, w .b32 5, w .b32 6, w .b32 7, w .b64 2, w .b64 4, w .b64 5, w .b64 7]).map (run base)
    ++ ([0, 7, 0x10].map fun v => runIf (withV [(0, v)]) (w .b32 0) fun p _ _ t =>
      let x := q (rawSrc p t .b32 (vS 0)); bits x 31 4 != 0 || bits x 2 0 == 0 || bits x 2 0 == 7)
    ++ ([1, 14].map fun v => runIf (withV [(0, v)]) (w .b32 0) fun p _ _ t =>
      let x := q (rawSrc p t .b32 (vS 0)); bits x 31 4 == 0 && bits x 2 0 != 0 && bits x 2 0 != 7)) := all_met (by decide +kernel)

/-- The thread is in its handler and will return to an address. -/
def handling (a : BitVec 64) : State := withThread fun x => { x with handler := some 1, tepc := a }

theorem witness_HandlersReturn : AllMet (
    let i := Instr.tret (rf .b32)
    [runIf base i (fun p _ _ t => (p.thread t).handler.isNone),
     runIf (handling (2 ^ 57)) i (fun p _ _ t => (p.thread t).handler.isSome && bits (p.thread t).tepc 63 57 != 0),
     runIf (handling 0x203C) i (fun p _ _ t => (p.thread t).handler.isSome && bits (p.thread t).tepc 63 57 == 0 && !slotOffset (p.thread t).tepc),
     runIf (handling 0x01FFFFFFFFFFFFF0) i (fun p _ _ t => (p.thread t).handler.isSome && bits (p.thread t).tepc 63 57 == 0 && slotOffset (p.thread t).tepc)]) :=
  all_met (by decide +kernel)

theorem witness_ServicesAndMarkersRun : AllMet (
    let i := Instr.svc { jf .b32 with a := kS 0, imm := 0xFFFF }
    let calls (s : State) (full : Bool) : Case := runIf s i fun p _ b t => match doRelease (endRegion p t) t .system with
      | (s1, .ok _) => (s1.part b.part).servicesFull == full
      | _ => false
    [calls (base.modPart 0 fun p => { p with svtail := 255 }) true, calls base false, run base (.trc { jf .b32 with dst := .zero, imm := 0xFFFF })]) :=
  all_met (by decide +kernel)

theorem witness_NopOnlyAdvances : AllMet [run base (.nop (rf .b32)), run (flagged 0x118) (.nop { rf .b32 with h := ⟨.b32, true, 11⟩ })] :=
  all_met (by decide +kernel)

theorem witness_IselSelects : AllMet [run base (.isel { rf .b64 with c := cS 11 }), run base (.isel (rf .b32))] := all_met (by decide +kernel)

/-- What an instruction's rejection needs: its group, its block, and what else holds. -/
def inGroup (s : State) (i : Instr) (also : Issue → Block → Who → Bool) : Bool :=
  match whoOf i, s.cur with
  | some who, some g => (match s.waveBlock? g.wave with | some b => also g b who | none => false)
  | _, _ => false

theorem witness_refused : ([
    -- fields, the launch's mode, a group none of whose threads execute
    inGroup base (.isel { rf .b32 with h := hd .f32 }) (fun g b who => !(Instr.isel { rf .b32 with h := hd .f32 }).wf && executing base g b (.isel { rf .b32 with h := hd .f32 }) who == [me]),
    inGroup (flagged 0x100) (.tex { rf .f32 with b := kS 0 }) (fun _ b who => !modeOk b (.tex { rf .f32 with b := kS 0 }) who),
    inGroup base (.iadd { rf .n32 with h := ⟨.n32, false, 3⟩ }) (fun _ b who => !modeOk b (.iadd { rf .n32 with h := ⟨.n32, false, 3⟩ }) who),
    inGroup (withThread fun x => { x with e := false }) (.iadd (rf .n32)) (fun g b who =>
      executing (withThread fun x => { x with e := false }) g b (.iadd (rf .n32)) who == []) ]).all id = true := by decide +kernel

def alone (s : State) (i : Instr) (also : State → Issue → Block → Bool) : Bool :=
  inGroup s i fun g b who => executing s g b i who == [me] && i.wf && modeOk b i who && also (passed s g b i who) g b

/-- Its first source stands in the next lane. -/
def rotated : RForm := { rf .n32 with a := ⟨false, false, 1, .rotate, .v, 0⟩ }

theorem witness_RefusedOperandsTrap : ([
    alone (holding 0) (.iadd { rf .n32 with a := vS 64 }) (fun p g b => (operandTrap p b g (Instr.iadd { rf .n32 with a := vS 64 }).uses me).isSome),
    alone (flagged 0x190 { two with cur := some grp }) (.iadd rotated) (fun p g b => operandTrap p b g (Instr.iadd rotated).uses me == some (simpleTrap 0x17)),
    alone ((holding 0).modThread me fun x => { x with mapped := 2 ^ 64 }) (.iadd { rf .n32 with dst := vD 64 }) (fun p g b =>
      operandTrap p b g (Instr.iadd { rf .n32 with dst := vD 64 }).uses me == none &&
        implicitNeed p me (Instr.iadd { rf .n32 with dst := vD 64 }).uses == 1) ]).all id = true := by decide +kernel

/-! ### Traps -/

/-- A code line whose reserved bits are set, with its targets, fails its check. -/
def spoiled (tgt : Bool) : BitVec 512 := (if tgt then targets else 0) + (0x80000 <<< 480)
def vectored (a : BitVec 64) (s : State) : State := s.modThread me fun x => { x with tvec := a }
/-- How the line of `tvec` answers: good or spoiled, its slot a target or not. -/
def vectorLine (s : State) : Option (Bool × Bool) :=
  let a := (s.thread me).tvec
  match fetchLine s me (a.toNat / 64 * 64) with
  | (_, .ok (.ok c)) => some (true, lineTgt c (slotOf a.toNat))
  | (_, .ok (.error (_, c))) => some (false, lineTgt c (slotOf a.toNat))
  | _ => none

theorem witness_TrapEntry : ([
    (let s := handling 0; s.alive me && (s.thread me).handler.isSome),
    (base.alive me && (base.thread me).handler.isNone && (base.thread me).tvec == 0),
    (let s := vectored (2 ^ 57) base; s.alive me && bits (s.thread me).tvec 63 57 != 0),
    (let s := vectored 0x203C base; s.alive me && bits (s.thread me).tvec 63 57 == 0 && !slotOffset (s.thread me).tvec) ]
    ++ [(0, true, false), (targets, true, true), (spoiled false, false, false), (spoiled true, false, true)].map fun e =>
      let s := vectored 0x3FB0 (withCsm [csmAt 0x3F80 (e.1.zeroExtend 1024)])
      s.alive me && (s.thread me).handler.isNone && slotOffset (s.thread me).tvec && vectorLine s == some e.2).all id = true := by
  decide +kernel

/-! ### Encoding and steps -/

theorem witness_EncodingsDecode : (Instr.nop (rf .b32)).wf = true ∧ encode (.nop (rf .b32)) = some 0xF00 := by decide +kernel

/-- The words decode to an instruction. -/
def decodes (w : BitVec 96) : Bool := match decodeSlot w with | .ok _ => true | .error _ => false
theorem witness_DecodedWordsEncode : decodes 0xF00 = true := by decide +kernel

/-- A group's code line comes in, and these are the state after, the ready threads and the line. -/
def lineOf (s : State) (g : Issue) (chosen : Bool) : Option (State × Issue × BitVec 512) :=
  match groupThreads (book s g chosen) g with
  | [] => none
  | t :: _ =>
    match fetchLine (book s g chosen) t (g.pc.toNat / 64 * 64) with
    | (s1, .ok (.ok c)) =>
      let p := (groupThreads s1 g).foldl (checkEntry c) s1
      some (p, readyAtLine p g, c)
    | _ => none

def fetched (s : State) (g : Issue) (chosen : Bool) (also : BitVec 512 → Bool) : Bool :=
  (groupRefs g).all (fun t => (s.thread t).mxTraps == []) && bits g.pc 63 57 == 0 &&
    match lineOf s g chosen with
    | some (_, g1, c) => g1.lanes != 0 && also c
    | none => false

theorem line_fetched {s : State} {g : Issue} {chosen : Bool} {also : BitVec 512 → Bool} (h : fetched s g chosen also = true) :
    ∃ p g1 c, LineFetched s g chosen p g1 c ∧ also c = true := by
  simp only [fetched, Bool.and_eq_true, List.all_eq_true, beq_iff_eq] at h
  obtain ⟨⟨h1, h2⟩, h3⟩ := h
  split at h3
  case h_2 => simp at h3
  case h_1 p g1 c hl =>
    simp only [Bool.and_eq_true, bne_iff_ne, ne_eq] at h3
    unfold lineOf at hl
    split at hl
    case h_1 => simp at hl
    case h_2 t ts ht =>
      split at hl
      case h_2 => simp at hl
      case h_1 s1 c1 hf =>
        simp only [Option.some.injEq, Prod.mk.injEq] at hl
        obtain ⟨rfl, rfl, rfl⟩ := hl
        exact ⟨_, _, _, { free := h1, low := h2, line := ⟨t, ts, s1, ht, hf, rfl⟩, ready := rfl, some := h3.1 }, h3.2⟩

/-- Two instructions that pair, in a line whose slot 0 begins a pair. -/
def logicWord : BitVec 512 := ((encode (.andd (rf .b32))).getD 0).zeroExtend 512
def pairLine : BitVec 512 := logicWord + (logicWord <<< 96) + (0x100 <<< 480)
def starved : State := { seatSlot State.reset 0xF00 with cur := none }
def chooses : State := { withCode 0x1000 pairLine starved with forced := none, cur := none }

theorem witness_step_forced : starved.agenda = [] ∧ starved.booted = true ∧ nextLaneSet starved = some 0 ∧ starved.forced = some me ∧
    waveLaneSet me.wave = 0 ∧ ready starved me = true ∧ groupOf starved (starvedGroup starved me) = grp ∧
    ∃ p g1 c, LineFetched starved grp false p g1 c ∧
      (match decodeSlot (slotBits c 0) with | .ok _ => !linePair c 0 | .error _ => false) = true :=
  ⟨by decide +kernel, by decide +kernel, by decide +kernel, by decide +kernel, by decide +kernel, by decide +kernel, by decide +kernel,
    line_fetched (also := fun c => match decodeSlot (slotBits c 0) with | .ok _ => !linePair c 0 | .error _ => false) (by decide +kernel)⟩

theorem witness_step_chosen : chooses.agenda = [] ∧ chooses.booted = true ∧ nextLaneSet chooses = some 0 ∧ chooses.forced = none ∧
    starvedThread chooses 0 = none ∧ chooseWave chooses 0 = some 0 ∧ groupOf chooses (chooseGroup chooses 0) = grp ∧
    ∃ p g1 c, LineFetched chooses grp true p g1 c ∧ (linePair c 0 && decodes (slotBits c 0) && decodes (slotBits c 1)) = true :=
  ⟨by decide +kernel, by decide +kernel, by decide +kernel, by decide +kernel, by decide +kernel, by decide +kernel, by decide +kernel,
    line_fetched (also := fun c => linePair c 0 && decodes (slotBits c 0) && decodes (slotBits c 1)) (by decide +kernel)⟩

/-- Does a step go on. -/
def goes (o : Host.Outcome State Fault Refusal) (also : State → Bool) : Bool :=
  match o with | .next t => also t | _ => false
theorem goes_next {o : Host.Outcome State Fault Refusal} {also : State → Bool} (h : goes o also = true) :
    ∃ t, o = .next t ∧ also t = true := by
  unfold goes at h
  split at h
  case h_1 t => exact ⟨t, rfl, h⟩
  case h_2 => simp at h

theorem witness_HoldsBelongToWaitingThreads : ∃ t, Steps starved t ∧ (t.cur.isNone && (t.thread me).pc == 0x100C) = true :=
  goes_next (by decide +kernel)

/-- The stores whose frame is stated run: a plain store to scratch and one of the generic path. -/
theorem witness_StoresLeaveOtherBytes : AllMet (
    let l : MForm := { mf .b32 with base := vS 2, ret := .short }
    [runIf (base.modThread me busy) (.stl l) (fun p _ b t =>
       (match localPlace p b (localAddr p t l) 4 with | some (.scratch _ _ _) => true | _ => false) && goes (exec (.stl l) (base.modThread me busy)) (fun _ => true)),
     stores (.st (mf .b32)) .l1 (mf .b32) (dataState.modThread me busy) fun p t =>
       storeGoes .l1 (mf .b32) p t && goes (exec (.st (mf .b32)) (dataState.modThread me busy)) fun _ => true,
     stores (.stt (mf .b32)) .tile (mf .b32) (dataState.modThread me busy) fun p t =>
       storeGoes .tile (mf .b32) p t && goes (exec (.stt (mf .b32)) (dataState.modThread me busy)) fun _ => true]) := all_met (by decide +kernel)

/-! ### What the device does by itself -/

/-- Every one of a list of conditions holds. -/
abbrev AllHold (l : List Bool) : Prop := l.all id = true

def waiting (w : Wait) (s : State := base) : State := setWait s me w
def isNext (o : Host.Outcome State Fault Refusal) : Bool := goes o fun _ => true

theorem witness_WaitsEnd : AllHold [
    (let s := base.modWave 0 fun w => { w with waited := 512 }; (s.waves.find? 0).isSome && decide (512 ≤ (s.wave 0).waited)),
    (let s := waiting (.join 0); s.alive me && (s.thread me).wait == some (.join 0)),
    (let s := waiting (.cycles 0); s.alive me && (s.thread me).wait == some (.cycles 0)),
    (let s := waiting (.waitc 0 [0] true none)
     s.alive me && (match s.threadBlock? me with | some b => condMet 1 true (condBits s me b [0]) | none => false)),
    (let s := waiting (.waitc 0 [1] true (some 7)) { base with tick := 7 }
     s.alive me && (s.threadBlock? me).isSome && decide (7 ≤ s.tick.toNat)),
    (let s := waiting (.counterRoom 3) (withThread fun x => { x with mx := 62 }); counterOf (s.thread me) 3 == 62),
    (let s := waiting (.counterRoom 0) (withThread fun x => { x with ld := 63 }); counterOf (s.thread me) 0 == 63),
    !trackerFull base 0 0,
    (let s := waiting (.ext 3 0 true); (waveThreads s 0).contains me && (s.thread me).wait == some (.ext 3 0 true)) ] := by decide +kernel

/-- A thread of a template launch that waits for work; two items, and a second-level template with a sub-item left. -/
def idle (s : State := base) : State := s.modThread me fun x => { x with stamp := .free }
def tplOf (level : Nat) : Template :=
  { id := level, launch := 0, level := level, range := 0, v := [], cond := 0, e := true, fmode := 1, k := [], resume := 0x1000, segment := []
    parent := none, coord := (0, 0, 0), stage := 0, subs := 1, next := 0, live := 0 }
def stocked (items : Nat) (l : List Template) : State :=
  { idle.modLaunch 0 fun l => { l with tpl := some 1, d := { l.d with items := items } } with templates := l }
def freeThread (s : State) (also : Block → Bool) : Bool :=
  match s.threadBlock? me with
  | some b => s.alive me && (s.thread me).stamp == .free && !b.halted && also b
  | none => false

theorem witness_OwedTrapsAndItems : AllHold [
    (let s := withThread fun x => { x with mxTraps := [⟨7, 0x1000, 2, 3⟩] }; s.alive me && (s.thread me).mxTraps == [⟨7, 0x1000, 2, 3⟩]),
    (let s := stocked 0 [tplOf 2]; freeThread s fun b => openSecond s b == some (tplOf 2)),
    (let s := stocked 1 [tplOf 1]
     freeThread s fun b => openSecond s b == none && (match s.launch? b.launch with
       | some l => nextItem s b l me == some 0 && l.tpl.bind s.tpl? == some (tplOf 1) | none => false)),
    (let s := stocked 0 [tplOf 1]
     freeThread s fun b => openSecond s b == none && (match s.launch? b.launch with | some l => nextItem s b l me == none | none => false)),
    bankFree (base.modCore 0 fun c => { c with banks := (List.range 7).map fun i => (i, 1) }) 0,
    (base.cur == some grp && (base.waveBlock? 0).isSome) ] := by decide +kernel

/-- A write-back of the line at 0x3F80. -/
def wbAt : WriteBack := { lineWb 0 0 0 { lineAt 0x3F80 1 with dirty := 1 } with owner := none }
def mail : Message := { id := 4, sender := some me, source := 0xFF000003, dest := 0, tag := 9, data := [1], scope := .device, tick := 0 }
def posted : State := { base with messages := [mail] }.modCore 0 fun c => { c with
  receives := [(2, ⟨0, 0xFFFFFFFF, 9, 0x100, 64, false, 0, .thread⟩)] }

/-- A load that has gone out. -/
def loadOut : PendLoad := ⟨me, 0, false, [(3, 7)], false, 0, 0, 0, 1, 0, 0, 0x1000, none, none⟩

theorem witness_MemoryAndUnitsFinish : AllHold [
    (let s := { base with loads := [loadOut, { loadOut with uniform := true }] }
     s.loads[0]? == some loadOut && !loadOut.live && loadOut.unit == 0 && !loadOut.stranded s && s.loads[1]?.any (·.uniform)),
    (let l := { loadOut with peer := some 3, since := some 1 }; let s := { base with loads := [l], tick := 10001 }
     l.stranded s && l.since.any fun n => n + 10000 ≤ s.tick.toNat),
    (let p : PendStore := ⟨me, 4, false, false, 0, 0⟩; ({ base with stores := [p] }).stores[0]? == some p && !p.fin && !p.buffered),
    ({ withCsm [csmAt 0x3F80 0] with wbs := [wbAt] }.wbs[0]? == some wbAt),
    (withCsm [{ csmAt 0x3F80 1 with dirty := 1 }]).csm[0]?.isSome,
    (let s := withThread fun x => { x with marchRuns := run64 }
     (s.thread me).marchRuns.length == 64 && !runsHalted s me && runsHalted (s.modBlock 0 fun b => { b with halted := true }) me),
    (let s := withThread fun x => { x with travRuns := travs64 }
     (s.thread me).travRuns.length == 64 && !runsHalted s me),
    (let s := { queueState 0 0 0 with beams := [(0, [{ beamAt [] none with walked := false }])] }
     match headBeam s 0 with
     | some e => !e.walked && beamReady e && e.owed.isNone && isOk (beamRun e.bad (beamReq s e 0) e.va.toNat s)
     | none => false),
    (let s := { base with beams := [(0, [{ beamAt [] none with walked := false }])] }
     match headBeam s 0 with
     | some e => !e.walked && beamReady e && e.owed.isNone && !isOk (beamRun e.bad (beamReq s e 0) e.va.toNat s)
     | none => false),
    ((headBeam { base with beams := [(0, [{ beamAt [] none with owed := some (simpleTrap 0x0A) }])] } 0).any fun e => e.owed.isSome),
    (let s := { queueState 0 0 0 with beams := [(0, [beamAt [List.replicate 64 0] none])] }
     match headBeam s 0 with
     | some e => beamReady e && (queueRecords e.bad (beamReq s e 2) e.queue.toNat (e.pending.length + 1) s e.pending).2 == ([], none)
     | none => false),
    (let s := { queueState 2 2 0 with beams := [(0, [beamAt [[]] (some 5)])], tick := 4101 }
     match headBeam s 0 with | some e => e.retry == some 5 && 5 + 4096 ≤ s.tick.toNat | none => false),
    (match posted.messages.find? fun m => m.dest == 0 with | some m => (receiveFor (posted.core 0) m).isSome | none => false),
    (let s := setWait { base with peerHolds := [⟨me, 3⟩], tick := 10003 } me (.peer 3)
     s.peerHolds[0]? == some ⟨me, 3⟩ && 3 + 10000 ≤ s.tick.toNat && (s.thread me).wait == some (.peer 3) && s.alive me),
    (let e : Sample := ⟨0, me, 0, 0, 0, 0, 0⟩
     let s := base.modPart 0 fun p => { p with trace := { p.trace with samples := [e], opened := true } }
     ((s.part (corePart s 0)).trace.samples.find? fun e => e.core == 0) == some e && !e.waits s) ] := by decide +kernel

def queued (l : List MxOp) : State := modArray (withMx (fun m => { m with holder := some 0 }) (withCv (cvReg 1 none 0 []))) 0 1 fun a => { a with queue := l }
def completes (s : State) (op : MxOp) : Bool :=
  let s1 := op.signers.foldl (countMatrix op) (modArray s 0 1 fun a => { a with queue := a.queue.drop 1 })
  (s1.core 0).mx.holder.bind (tryBlockEnd s1) == none

theorem witness_MatrixOperationsProceed : AllHold [
    (withMx (fun m => { m with clear := true }) base |>.core 0).mx.clear, (base.core 0).mx.holder == none,
    (let s := waiting .matrixQueue (withMx (fun m => { m with waiting := [(1, opOf 3 false false)] }) (queued []))
     match (s.core 0).mx.waiting.find? fun e => e.1 == 1, mxHolder s 0 with
     | some e, some _ => (mxArray s 0 1).queue.length < 8 && !e.2.held
     | _, _ => false),
    (let s := waiting .matrixQueue (withMx (fun m => { m with waiting := [(1, { opOf 3 false false with held := true })] }) (queued []))
     match (s.core 0).mx.waiting.find? fun e => e.1 == 1, mxHolder s 0 with
     | some e, some _ => (mxArray s 0 1).queue.length < 8 && e.2.held && e.2.signers.getLast? == some (me, 0x1000, 0) &&
         s.alive me && (s.thread me).wait == some .matrixQueue
     | _, _ => false),
    (let s := { queued [opOf 3 false false] with cycle := 1 }
     match mxHolder s 0 with
     | some b => (mxArray s 0 1).queue == [opOf 3 false false] && (opOf 3 false false).cycle < s.cycle && !(s.core 0).mx.clear && !b.halted && (streamReady s b (opOf 3 false false)).isSome
     | none => false),
    (let o := opOf 4 true false; (mxArray (queued [o]) 0 1).queue == [o] && o.opcode == 4 && o.started && !o.done),
    (let o := opOf 3 true true; (mxArray (queued [o]) 0 1).queue == [o] && o.done && completes (queued [o]) o),
    (let o := { opOf 4 true true with last := some 0 }
     let s := withFifo 3 (queue 1 1 false false true [] []) (queued [o])
     (mxArray s 0 1).queue == [o] && o.opcode == 4 && match mxHolder s 0 with | some b => lastCounted s b o | none => false) ] := by decide +kernel

/-- An accepted request of context 5. -/
def request (started fin : Bool) : CopyReq := { newReq base me ((base.block? 0).getD (seatBlock State.reset)) 0 0 5 1 with started := started, fin := fin }
def requested (r : CopyReq) : State := withContexts.modCtx 5 fun x => { x with reqs := [r] }
def filling (q : Bool) (gen : Option Nat) : Fill := ⟨0, 1, 0, 1, 1, [], q, 0, gen, 0, 0⟩
def reserve : State → State := fun s => s.modPart 0 fun p => { p with reserve := [(1, 7), (2, 7), (3, 7), (4, 7)] }
/-- The region asks for the matrix arrays and has a time-out of 100 ticks. -/
def strict (r : Machine.Region) : Machine.Region := { r with desc := r.desc ||| (1 <<< 152) ||| (100 <<< 416) }
def demanding (f : Fill) (s : State := base) : State :=
  { s.modPart 0 fun p => { p with regions := [(1, strict (theRegion 1 0))], shways := 512 } with fills := [f], tick := 4096 }
def heldCore : State := withMx (fun m => { m with holder := some 0 }) (base.modPart 0 fun p => { p with reserve := [(0, 7)] })

theorem witness_EnginesProceed : AllHold [
    startable (requested (request false false)) 5 == some (request false false),
    (((requested (request true false)).ctx 5).reqs.find? (canMove (requested (request true false)))) == some (request true false) &&
      !(requested (request true false)).failedEngines.contains (ctxEngine (requested (request true false)) 5),
    (((requested (request true true)).ctx 5).reqs.find? fun r => !r.retired) == some (request true true),
    (let s := reserve { withRegion 1 0 with fills := [filling true none] }
     ((queuedFills s 0).find? fun e => generatorSlots s 0 e.1 e.2 != []).isSome),
    (let s := demanding (filling true (some 0))
     match fillOfGen s 0 with
     | some f => (s.block? 0).isSome && (match region? s f.part f.region with | some r => r.timeout == 100 && f.bindTick + 100 ≤ s.tick.toNat | none => false)
     | none => false),
    (let s := demanding (filling true none) heldCore
     ((queuedFills s 0).find? fun e => e.2.matrix && e.1.waitTick + 4096 ≤ s.tick.toNat && !freeMatrixCore s 0).isSome && displaceable s 0 != []) ] := by
  decide +kernel

/-! ### Queues, binders and the pager -/

def withQueue (f : Queue → Queue) (s : State := base) : State := modQueue s 0 3 f
def launched (f : Launch → Launch) : State := base.modLaunch 0 f
def settledQueue (s : State) : Bool := (launchQueue s 0 3).hold == none && !(queueLaunches s 0 3).any fun l => l.state == .validated

theorem witness_LaunchesAreQueuedAndAdmitted : AllHold [
    decide ((launchQueue (withQueue fun x => { x with tail := 15 }) 0 3).pending ≤ 2 ^ (launchQueue base 0 3).sz - 1),
    decide (2 ^ (launchQueue base 0 3).sz - 1 < (launchQueue (withQueue fun x => { x with tail := 16 }) 0 3).pending),
    (let s := withQueue fun x => { x with ptr := some 0x3F80 }; settledQueue s && (launchQueue s 0 3).ptr == some 0x3F80),
    (let s := withQueue fun x => { x with en := true, tail := 1 }
     let x := launchQueue s 0 3; settledQueue s && x.ptr == none && x.en && !x.err && x.head != x.tail),
    (let s := (launched fun l => { l with state := .validated }).modPart 0 fun p => { p with mode := 0 }
     match s.launch? 0 with | some l => l.state == .validated && waitMet s l.d && !(s.part 0).swapped && (s.part 0).mode == 0 | none => false),
    (let s := launched fun l => { l with state := .validated }
     match s.launch? 0 with
     | some l => l.state == .validated && waitMet s l.d && !(s.part 0).swapped && (s.part 0).mode != 0 && !(s.part 0).eventsFull && (s.part 0).events == []
     | none => false) ] := by decide +kernel

/-- A bind record of an op stands at the head of the ring. -/
def recorded (op : Nat) : State :=
  (withCsm [csmAt 0x3E00 (BitVec.ofNat 1024 op)]).modPart 0 fun p => { p with brbase := 0x3E00, brtail := 1 }
/-- An admitted launch of one block that nothing of is bound, under the built-in arbiter. -/
def unbound : State :=
  (({ base with waves := [], blocks := [] } : State).modLaunch 0 fun l => { l with bound := [] }).modPart 0 fun p => { p with mode := 0 }
def reserved : State :=
  match arbiterMove unbound 0 with
  | some (.reserve l r core lcore) => (reserveRecord unbound 0 r l core lcore).1
  | _ => unbound

/-- R473: a host binder's record stands in the ring before BRTAIL passes it (R469's op at offset 0, handle at 2). -/
theorem test_bindRingWrite : (match execBindRingWrite 0 2 ((recorded 0).modPart 0 fun p => { p with binderOut := [0x50001] }) with
    | .next s => (s.part 0).brtail == 2 && (s.part 0).binderOut == [] && ringRead s 0 0x3E20 4 == 0x50001
    | _ => false) = true := by decide +kernel

theorem witness_BindersProceed : AllHold ([
    1 ≤ bits (1 : BitVec 64) 5 0 && bits (1 : BitVec 64) 5 0 ≤ (enabledCores base 0).length, 1 ≤ bits (48 : BitVec 64) 5 0 && bits (48 : BitVec 64) 5 0 ≤ 48 && bits (48 : BitVec 64) 5 0 ≤ (enabledCores base 0).length,
    48 < bits (49 : BitVec 64) 5 0, (enabledCores { base with quadMap := (List.range 96).map fun i => (i, 15) } 0).length < 1,
    bits (0 : BitVec 64) 5 0 == 0 ] ++ [0, 1, 2, 3, 4].map (fun op => match nextRecord (recorded op) 0 with | some x => recField x 0 1 == op | none => false)
    ++ [nextRecord unbound 0 == none && (match arbiterMove unbound 0 with | some (.reserve _ _ _ _) => true | _ => false),
      nextRecord reserved 0 == none && (match arbiterMove reserved 0 with | some (.commit _ _) => true | _ => false),
      (let x : Reservation := ⟨0, seatRecord, 0, 0, 0⟩
       let s := { base with reservations := [x], tick := 100 }; s.reservations[0]? == some x && !(liveReservations s).contains x),
      (let s := unbound.modPart 0 fun p => { p with gcore := 1, reserve := [] }; match wantedReserve s 0 with
       | (c, k) :: _ => (s.waves.find? (c * 16 + k)).isNone && !(s.part 0).reserve.contains (c, k)
       | [] => false),
      (let s := unbound.modPart 0 fun p => { p with reserve := [(9, 0)] }
       (s.waves.find? (9 * 16 + 0)).isNone && !(wantedReserve s 0).contains (9, 0) && (s.part 0).reserve.contains (9, 0)),
      (let b : Backoff := ⟨0, (0, 0, 0), 1, true, 5⟩
       let s := { base with backoffs := [b], cycle := 5 }; s.backoffs[0]? == some b && b.waiting && b.untilCycle ≤ s.cycle),
      (let s := { launched fun l => { l with bonus := 6 } with tick := 7000 }
       match s.launch? 0 with | some l => l.state == .admitted && l.admTick + 1000 * (l.bonus + 1) ≤ s.tick.toNat && l.bonus == 6 | none => false),
      (let s := waiting (.service 2 4) (base.modPart 0 fun p => { p with calls := [(4, false)] })
       (s.part 0).calls.contains (4, false) && callers s 0 4 == [me]),
      (let s := base.modPart 0 fun p => { p with calls := [(4, false)] }
       (s.part 0).calls.contains (4, false) && callers s 0 4 == [] && !savedCaller s 0 4) ]) := by decide +kernel

/-- Commands of partition 0, which owns address space 0, with their arguments. -/
def commanded (a b c : BitVec 64) (s : State := base) : State :=
  { s with mem := [(0, 1)], asidOwner := [(0, 1)] }.modPart 0 fun p => { p with pgarg := [a, b, c] }
def paged : State := waiting (.page 6 0) { commanded 6 0 0 with pageFaults := [⟨6, 0, 0, 16⟩] }

theorem witness_PagerCommandsRun : AllHold [
    ((paged.pageFaults.find? fun f => f.id == pgArg paged 0 0 && faultWaited paged 0 f).isSome),
    ((base.pageFaults.find? fun f => f.id == pgArg base 0 0 && faultWaited base 0 f).isNone),
    (rangeCheck (commanded 65536 0 1) 0 (2 ^ 57)).isSome, (rangeCheck (commanded 1 0 1) 0 (2 ^ 40)).isSome,
    (rangeCheck (commanded 0 0 0) 0 (2 ^ 40)).isSome, (asidCheck (commanded 1 0 0) 0).isSome,
    rangeCheck (commanded 0 0 (2 ^ 57)) 0 (2 ^ 57) == none, rangeCheck (commanded 0 0 (2 ^ 40)) 0 (2 ^ 40) == none,
    asidCheck (commanded 0 0 0) 0 == none, fillingCheck (commanded 1 0 0) 0 == none,
    (let s := commanded 1 0 0 (withRegion 1 0 { base with fills := [filling false none] })
     match fillingCheck s 0 with | some f => !f.queued && f.gen == none | none => false),
    (let s := commanded 1 0 0 (withRegion 1 0 { base with fills := [filling true none] })
     match fillingCheck s 0 with | some f => f.queued | none => false),
    4096 ≤ pgArg (commanded 4096 0 0) 0 0, ((commanded 4095 0 0).launch? (pgArg (commanded 4095 0 0) 0 0)).all fun l => l.part != 0,
    ((commanded 0 0 0).launch? (pgArg (commanded 0 0 0) 0 0)).any fun l => l.part == 0,
    (let s := commanded 6 0 0 withContexts; pgArg s 0 0 < 1024 && ctxAllowed s 0 (pgArg s 0 0)),
    1024 ≤ pgArg (commanded 1024 0 0) 0 0,
    (let s := commanded 7 0 0 withContexts; pgArg s 0 0 < 1024 && !ctxAllowed s 0 (pgArg s 0 0)) ] := by decide +kernel

/-- A region descriptor at 0x3F80, and its tables on a window page of the management context. -/
def describing (desc : BitVec 1024) : State :=
  { (withCsm [csmAt 0x3F80 desc]).modPart 0 fun p => { p with winways := 1, rgsel := 1 } with tlb := [⟨0, 0x200000, 16, 0x300000000000, true, false⟩] }
def registers (s : State) (ok : Bool) : Bool :=
  match readVal s (agentReq s 0 0 5) 0x3F80 64 with
  | (s1, .ok x) => regionOk s1 0 1 (regionOf (BitVec.ofNat 512 x) 0) == ok
  | _ => false
/-- A request of a directive for the launch on every core. -/
def prq (directive : Nat) : BitVec 64 := BitVec.ofNat 64 (0x1FF * 2 ^ 32 + directive * 2 ^ 12)
def asked (n : Nat) (s : State) : Bool := (preRequest (prq n)).directive == n && !preBusy s 0 && requestError s 0 (prq n) == none
def applies (n : Nat) (s : State) : Bool :=
  let r := preRequest (prq n)
  (applyAll r (namedCores s r) (coveredCoords s r) s []).isSome
def savedImage (written : Bool) : Image :=
  { launch := 0, coord := (0, 0, 0), blocks := base.blocks, waves := base.waves, scratch := [], matrix := [], granules := 1, former := [(0, 0)]
    written := written, swapped := false, stays := false, yields := false }
/-- The image's block stands bound again, not started. -/
def restorable : State :=
  { base with blocks := base.blocks.map (fun b => { b with id := 5, started := false }), images := [savedImage true] }

theorem witness_StateIsSavedAndRestored : AllHold ([
    (let s := base.modPart 0 fun p => { p with faults := [1], fqtail := 254 }; !(s.part 0).faultsFull && (s.part 0).faults == [1]),
    (let s := { base with launches := [] }; divisionOk (sliceCount s 0) 0 0 && !anyAdmitted s 0),
    anyAdmitted base 0, (let s := { base with launches := [] }; !divisionOk (sliceCount s 0) 1023 1023),
    registers (describing (regionDesc.zeroExtend 1024)) true, registers (describing 0) false,
    (region? (withRegion 2 0) 0 1).all fun r => !regionFilling r ]
    ++ [0, 1, 2, 3].map (fun n => asked n base && applies n base)
    ++ [(let s := base.modPart 0 fun p => { p with shways := 0 }; asked 2 s && !applies 2 s),
      (let s := base.modPart 0 fun p => { p with shways := 0 }
       let cs := residentCoords s 0; decide (granulesFree s 0 < sumOf (cs.map fun c => imageGranules s (coordBlocks s c.1 c.2)))),
      (let cs := residentCoords base 0; cs != [] && decide (sumOf (cs.map fun c => imageGranules base (coordBlocks base c.1 c.2)) ≤ granulesFree base 0)),
      ({ base with images := [savedImage false] }.images[0]?).any fun m => !m.written,
      (restorable.images[0]?).any fun m => m.written && !m.swapped && match placesFor restorable m with
        | some places => places.all fun e => (restorable.core e.2.core).mx.holder.isNone || !m.matrix.any fun x => x.1 == e.1.id
        | none => false ]) := by decide +kernel

/-! ### The trust core and the platform -/

/-- Booted with good firmware, and a request in a mailbox window. -/
def mailed (fn : Nat) (l : List (BitVec 64)) (s : State := base) : State :=
  { s with bootOk := true, mailbox := [(fn, ⟨l, true, 0, []⟩)] }
/-- An ASID table at address 0 all of whose entries are live (R482). -/
def everyAsid : Memory := (List.range 65536).map fun i => (16 * i, 1)

theorem find_range (n : Nat) : ∀ k a : Nat, k ≤ a → a < k + n →
    Table.find? ((List.range' k n).map fun i => (16 * i, (1 : Byte))) (16 * a) = some 1 := by
  induction n with
  | zero => intro k a h1 h2; omega
  | succ n ih =>
    intro k a h1 h2
    simp only [List.range'_succ, List.map_cons, Table.find?]
    by_cases h : k = a
    · simp [h]
    · rw [if_neg (by omega)]
      exact ih (k + 1) a (by omega) (by omega)

theorem no_free_asid (s : State) (hs : s.mem = everyAsid) (hb : s.atBase = 0) : freeAsidOf s = none := by
  unfold freeAsidOf
  rw [List.find?_eq_none]
  intro a ha
  have h := find_range 65536 0 a (Nat.zero_le a) (by rw [List.mem_range] at ha; omega)
  rw [← List.range_eq_range'] at h
  have e : asidByte s a 0 = 1 := by
    unfold asidByte Memory.byte Table.get
    rw [hs, hb, show (0 : BitVec 64).toNat + 16 * a + 0 = 16 * a by simp, show Table.find? everyAsid (16 * a) = some 1 from h]
  simp [asidLive, e]

theorem witness_no_free_asid : ∃ s : State, s.bootOk = true ∧ freeAsidOf s = none := by
  obtain ⟨l, hl⟩ : ∃ l, l = everyAsid := ⟨_, rfl⟩
  exact ⟨{ mailed 0 [4] with mem := l, atBase := 0 }, rfl, no_free_asid _ hl rfl⟩

theorem witness_MailboxCommandsRun : AllHold [
    !base.bootOk, (let s := mailed 0 [0x100]; s.bootOk && bits (mbArg s 0 0) 63 8 != 0), (let s := mailed 1 [0xFF]; s.bootOk && bits (mbArg s 1 0) 63 8 == 0),
    (let s := mailed 0 [3, 1]; mapStatus s (mapArg s 0) == 4), (let s := mailed 0 [3] State.reset; mapStatus s (mapArg s 0) == 0),
    (let s := mailed 0 [4, 8, 0, 0]; 8 ≤ (mbArg s 0 1).toNat), (let s := mailed 0 [4, 0, 1023, 2]; decide (1024 < (mbArg s 0 2).toNat + (mbArg s 0 3).toNat)),
    (let s := mailed 0 [4, 7, 1023, 1]; (mbArg s 0 1).toNat < 8 && (mbArg s 0 2).toNat + (mbArg s 0 3).toNat ≤ 1024 && !anyAdmitted s 7),
    (let s := mailed 0 [4, 0, 0, 1]; anyAdmitted s 0),
    (let s := mailed 0 [8, 0, 0x1000, 64]; (mbArg s 0 1).toNat < 8 && physOk s (mbArg s 0 2).toNat (mbArg s 0 3).toNat),
    (let s := (mailed 0 [9, 7]).modPart 7 fun p => { p with staged := some ⟨[1], 5⟩ }; (s.part 7).staged == some ⟨[1], 5⟩ && !anyAdmitted s 7),
    (let s := (mailed 0 [9, 0]).modPart 0 fun p => { p with staged := some ⟨[], 5⟩, swapped := true }; (s.part 0).staged == some ⟨[], 5⟩ && (s.part 0).swapped),
    (let s := (mailed 0 [9, 0]).modPart 0 fun p => { p with staged := some ⟨[], 5⟩ }
     (mbArg s 0 1).toNat < 8 && (s.part 0).staged != none && anyAdmitted s 0 && !(s.part 0).swapped),
    (let s := mailed 0 [9, 7]; (s.part 7).staged == none),
    freeAsidOf (mailed 0 [5]) == some 0,
    (asidArgStatus (mailed 1 [6, 65536]) 1).isSome, (asidArgStatus (mailed 1 [6, 9]) 1).isSome, asidArgStatus (mailed 0 [6, 65535]) 0 == none,
    (let s := mailed 0 [6, 0]; asidArgStatus s 0 == none && (s.launches.map Prod.snd).any fun l => l.asid == (mbArg s 0 1).toNat && l.state == .admitted),
    (let s := mailed 0 [7, 0, 0x1001]; asidArgStatus s 0 == none && !((mbArg s 0 2).toNat % 4096 == 0 && (mbArg s 0 2).toNat < 2 ^ 52)),
    (let s := mailed 0 [7, 0, 0xFFFFFFFFFF000]; asidArgStatus s 0 == none && (mbArg s 0 2).toNat % 4096 == 0 && (mbArg s 0 2).toNat < 2 ^ 52) ] := by
  decide +kernel

theorem witness_PlatformEventsHappen : AllHold [
    base.linkUp && 0 + 1000 < (0x271A : BitVec 64).toNat / 10, base.linkUp && (0x2710 : BitVec 64).toNat / 10 ≤ base.tick.toNat + 1000,
    decide (0x1003 / 8 * 8 < tier1Bytes), (aperturePa (0x1003 / 8 * 8)).isSome, !(base.part 0).trace.opened,
    ((base.modPart 0 fun p => { p with trace := { p.trace with opened := true } }).part 0).trace.opened ] := by decide +kernel

/-- Quad 24 is beyond the map; a virtual quad of partition 0 is served by another's cores. -/
def brokenQuad : State := { base with failedQuads := [5] }

theorem witness_FailuresAndRegistersAreHandled : AllHold [
    !quadEnabled brokenQuad 5,
    (let s := { base with blocks := [], csm := [], images := [] }; quadEnabled s 0 && s.blocks == [] && s.csm == [] && s.images == []),
    quadEnabled base 0 && !(quadCoords base (physQuad base 0)).isEmpty,
    (let s := { base with failedEngines := [2] }; s.failedEngines.contains 2 && !s.failedEngines.contains 15), !base.bad.contains (4096 / 32),
    { base with bad := [128] }.bad.contains (4096 / 32), !(base.part 0).pgbusy,
    ((base.modPart 0 fun p => { p with pgbusy := true }).part 0).pgbusy, bits (0x10B : BitVec 64) 7 0 == 11,
    { base with retired := [(1, 7)] }.retired.contains (1, 7), !base.retired.contains (2, 47),
    (partQuads base 0).length ≤ 400 / 4,
    (let named := 4 * (partQuads brokenQuad 0).getD (20 / 4) 0 + 20 % 4
     decide (20 / 4 < (partQuads brokenQuad 0).length) && !quadEnabled brokenQuad (named / 4) && (serveCore brokenQuad 0 true named).isSome) ] := by
  decide +kernel

/-- Memory in its canonical form, with a byte that is listed. -/
theorem witness_MemoryHoldsWhatIsWritten : Memory.wf [(5, 1), (9, 2)] = true := by decide +kernel

/-! ### Ill-formed terms are refused, each check by name (R248-R261) -/

theorem test_wf_plain : (Instr.iadd (rf .i32)).wfError = none := by decide +kernel
theorem test_wf_unusedField : (Instr.nop { rf .b32 with a := vS 1 }).wfError = some .unusedField := by decide +kernel
theorem test_wf_guard : (Instr.nop { rf .b32 with h := ⟨.b32, false, 12⟩ }).wfError = some .guard := by decide +kernel
theorem test_wf_guard_inverted : (Instr.nop { rf .b32 with h := ⟨.b32, true, 15⟩ }).wfError = some .guard := by decide +kernel
theorem test_wf_typ : (Instr.iadd (rf .f32)).wfError = some .typ := by decide +kernel
theorem test_wf_file : (Instr.shfl { rf .b32 with dst := kD 0 }).wfError = some .file := by decide +kernel
theorem test_wf_regNumber : (Instr.iadd { rf .i32 with a := kS 64 }).wfError = some .regNumber := by decide +kernel
theorem test_wf_special_number : (Instr.iadd { rf .i32 with a := xS 0x16 }).wfError = some .regNumber := by decide +kernel
theorem test_wf_misaligned : (Instr.iadd { rf .i64 with b := vS 3 }).wfError = some .misaligned := by decide +kernel
theorem test_wf_modifier : (Instr.andd { rf .b32 with a := ⟨false, true, 0, .none, .v, 0⟩ }).wfError = some .modifier := by decide +kernel
theorem test_wf_permField : (Instr.iadd { rf .i32 with a := ⟨false, false, 1, .none, .v, 0⟩ }).wfError = some .permField := by decide +kernel
theorem test_wf_clamp : (Instr.fadd { rf .f32 with dst := ⟨0, 3, .v, 0⟩ }).wfError = some .clamp := by decide +kernel
theorem test_wf_scale : (Instr.iadd { rf .i32 with dst := ⟨4, 0, .v, 0⟩ }).wfError = some .clamp := by decide +kernel
theorem test_wf_xf : (Instr.fadd { rf .f32 with xf := 7 }).wfError = some .xf := by decide +kernel
theorem test_wf_imm : (Instr.cbar { jf .b32 with imm := 4 }).wfError = some .imm := by decide +kernel
theorem test_wf_ordering : (Instr.ld { mf .b32 with ord := .rel }).wfError = some .ordering := by decide +kernel
theorem test_wf_scope : (Instr.ldl { mf .b32 with ret := .short, scp := .device }).wfError = some .scope := by decide +kernel
theorem test_wf_count : (Instr.ld { mf .b64 with cnt := .one }).wfError = some .count := by decide +kernel
theorem test_wf_uniform : (Instr.iadd { rf .i32 with dst := kD 0 }).wfError = some .uniform := by decide +kernel

/-- Whether a slot's bits are refused with an error. -/
def refuses (w : BitVec 96) (e : WfError) : Bool :=
  match decodeSlot w with | .error x => x == e | .ok _ => false

/-- R248, R250, R253, R257, R262: an unassigned opcode, file 11 as a destination, crossbar code 111 and a nonzero
reserved bit of the I format. -/
theorem test_reserved_words : AllHold [refuses 0x000000000000000000000F0E .unassignedOpcode, refuses 0x0000000000000000060E2F10 .reservedBits,
    refuses 0x0000000000001C0000002F10 .reservedBits, refuses 0x010000000000000000000F90 .reservedBits] := by decide +kernel

/-! ### Words written out from the encodings of R248-R262 -/

/-- R246's worked line: `iadd.i32 v5, v2, 7` and `and.b32 v6, v3, k1`. -/
theorem test_decode_integer : decodeTableWord 96 0x000000003A700002000A2F10 = some (.iadd ⟨hd .i32, vD 5, vS 2, xS 0xA7, .zero, 0⟩) := by decide +kernel
theorem test_decode_logic : decodeTableWord 96 0x0000000010100003000C0F20 = some (.andd ⟨hd .b32, vD 6, vS 3, kS 1, .zero, 0⟩) := by decide +kernel
theorem test_decode_exit : decodeTableWord 96 0x000000000000000000000F06 = some (.exit (rf .b32)) := by decide +kernel
/-- `ubra` on k3 to slot 2 of the next line, unlikely. -/
theorem test_decode_ubra : decodeTableWord 96 0x00000103800400000002_0F0C = some (.ubra ⟨hd .b32, 1, 2, 0, false, 2, kS 3⟩) := by decide +kernel
/-- `cvtf.f16x2.f32.rup v2, v1, v3`. -/
theorem test_decode_convert : decodeTableWord 96 0x400003003A30000100048F42 = some (.cvtf ⟨hd .f16x2, vD 2, vS 1, xS 0xA3, vS 3, 4⟩) := by decide +kernel
/-- `shfl.b32 v3, v1, v2`. -/
theorem test_decode_crosslane : decodeTableWord 96 0x000000000020000100060F60 = some (.shfl ⟨hd .b32, vD 3, vS 1, vS 2, .zero, 0⟩) := by decide +kernel
/-- `atom.add.n32.dev v4, [v6-8]`. -/
theorem test_decode_atomic : decodeTableWord 96 0x00041FFFFF80000600084F80 = some (.atom ⟨hd .n32, vD 4, vS 6, 0xFFFFF8, .default, .plain, .device, .one, 0⟩) := by decide +kernel
/-- `kick v2, v1, 5`. -/
theorem test_decode_engines : decodeTableWord 96 0x000005000000000100040FA0 = some (.kick ⟨hd .b32, vD 2, vS 1, .zero, 5, 0⟩) := by decide +kernel
/-- `tex v4, v2, k4, v6`. -/
theorem test_decode_graphics : decodeTableWord 96 0x000006001040000200086FC0 = some (.tex ⟨hd .f32, vD 4, vS 2, kS 4, vS 6, 0⟩) := by decide +kernel
/-- R427: `csrr.b32 v3, 0x003`. -/
theorem test_decode_system : decodeTableWord 96 0x000000000030000000060FF0 = some (.csrr ⟨hd .b32, vD 3, .zero, 3, 0⟩) := by decide +kernel

/-! ### The spec's worked values -/

/-- What an instruction leaves in v registers of the one thread. -/
def leaves (i : Instr) (s : State) (l : List (Nat × Word)) : Bool :=
  match exec i s with
  | .next t => l.all fun e => vreg t me e.1 == e.2
  | _ => false

def r3 (t : Ty) (d a b : BitVec 8) : RForm := ⟨hd t, vD d, vS a, vS b, .zero, 0⟩
def pair12 (a b : Word) : State := withV [(1, a), (2, b)]

/-- R293's example. -/
theorem test_iabsd : leaves (.iabsd (r3 .i8x4 4 1 2)) (pair12 0x80 0x7F) [(4, 0xFF)] := by decide +kernel
theorem test_iabsd_clamped : leaves (.iabsd { r3 .i8x4 4 1 2 with dst := ⟨0, 3, .v, 4⟩ }) (pair12 0x80 0x7F) [(4, 0x7F)] := by decide +kernel
/-- R294's example. -/
theorem test_imadw_unsigned : leaves (.imadw ⟨hd .n32, vD 4, vS 1, vS 2, vS 6, 0⟩) (withV [(6, 5)] (pair12 0xFFFFFFFF 2)) [(4, 3), (5, 2)] := by decide +kernel
theorem test_imadw_signed : leaves (.imadw ⟨hd .i32, vD 4, vS 1, vS 2, vS 6, 0⟩) (withV [(6, 5)] (pair12 0xFFFFFFFF 2)) [(4, 3), (5, 0)] := by decide +kernel
/-- R304's example, whose words give IMM32 = 0x0B08. -/
theorem test_bfx : leaves (.bfx ⟨hd .n32, vD 4, vS 7, 0xB08, 0⟩) (withV [(7, 0x12345678)]) [(4, 0x456)] := by decide +kernel
theorem test_bfx_signed : leaves (.bfx ⟨hd .i32, vD 4, vS 7, 0xB08, 0⟩) (withV [(7, 0x0008F000)]) [(4, 0xFFFFF8F0)] := by decide +kernel
/-- R307's example. -/
theorem test_prmb : leaves (.prmb ⟨hd .b32, vD 6, vS 4, 0x10070F00, 0⟩) (withV [(4, 0x44332211), (5, 0x88776655)]) [(6, 0x0088FF11)] := by decide +kernel
/-- R312's exact fused sum, R230's example of scale and clamp. -/
theorem test_ffma_scale_clamp : leaves (.ffma ⟨hd .f32, ⟨4, 1, .v, 4⟩, vS 1, vS 2, vS 2, 0⟩) (pair12 0x40400000 0x41000000) [(4, 0x3F800000)] := by decide +kernel
/-- R315's examples: −0.3 upward and downward, −2^−30. -/
theorem test_frnd : AllHold [leaves (.frnd ⟨hd .f32, vD 4, vS 1, .zero, .zero, 4⟩) (pair12 0xBE99999A 0) [(4, 0x80000000)],
    leaves (.frnd ⟨hd .f32, vD 4, vS 1, .zero, .zero, 3⟩) (pair12 0xBE99999A 0) [(4, 0xBF800000)]] := by decide +kernel
theorem test_ffract : leaves (.ffract ⟨hd .f32, vD 4, vS 1, .zero, .zero, 1⟩) (pair12 0xB0800000 0) [(4, 0x3F7FFFFF)] := by decide +kernel
/-- R324's and R325's examples. -/
theorem test_pack : AllHold [leaves (.pack (r3 .i8x4 3 1 2)) (pair12 0x0100FF80 0x0005FFFF) [(3, 0x05FF0080)],
    leaves (.pack { r3 .i8x4 3 1 2 with dst := ⟨0, 3, .v, 3⟩ }) (pair12 0x0100FF80 0x0005FFFF) [(3, 0x05FF7F80)]] := by decide +kernel
theorem test_unpack : leaves (.unpack ⟨hd .i8x4, vD 2, vS 3, xS 0xA2, .zero, 0⟩) (withV [(3, 0x05FF7F80)]) [(2, 0xFFFFFFFF)] := by decide +kernel
/-- R335's examples: a sum one unit outward, and a product of zero and the entire interval. -/
theorem test_ivadd : leaves (.ivadd (r3 .f32 4 0 2)) (withV [(0, 0x3F800000), (1, 0x3F800000), (2, 0x30800000), (3, 0x30800000)])
    [(4, 0x3F800000), (5, 0x3F800001)] := by decide +kernel
theorem test_ivmul : AllHold [leaves (.ivmul (r3 .f32 4 0 2)) (withV [(2, 0xFF800000), (3, 0x7F800000)]) [(4, 0), (5, 0)],
    leaves (.ivmul (r3 .f32 4 0 2)) (withV [(1, 0x3F800000), (2, 0xFF800000), (3, 0x7F800000)]) [(4, 0xFF800000), (5, 0x7F800000)]] := by decide +kernel
theorem test_ivtest : leaves (.ivtest ⟨hd .f32, vD 3, vS 4, .zero, .zero, 0⟩) (withV [(5, 0x3F000000)]) [(3, 4)] := by decide +kernel
/-- R340's example. -/
theorem test_afmul : leaves (.afmul (r3 .f32 8 0 4)) (withV [(0, 0x3F800000), (1, 0x3F000000), (4, 0x40000000), (5, 0xBE800000)])
    [(8, 0x40000000), (9, 0x3F400000), (10, 0x3E000000)] := by decide +kernel
theorem test_aftoiv : leaves (.aftoiv ⟨hd .f32, vD 8, vS 0, .zero, .zero, 0⟩) (withV [(0, 0x40000000), (1, 0x3F400000), (2, 0x3E000000)])
    [(8, 0x3F900000), (9, 0x40380000)] := by decide +kernel

/-- R505's example address lies in the peer's second tier, and the first byte behind its first tier does not. -/
theorem test_peer_capacity : peerBeyond 0x81C0000400000 = false ∧ peerBeyond (0x8000000000000 + 192000000000) = true := by decide +kernel
/-- R533, R535: a record of the queue takes the core's earlier ones with it, and leaves another core's. -/
theorem test_flushed :
    let e (core queue : Nat) : Sample := ⟨core, ⟨0, 0⟩, 0, 0, 0, queue, 0⟩
    flushed (fun e => e.queue == 2) [e 0 1, e 1 1, e 0 2, e 0 3] = ([e 0 1, e 0 2], [e 1 1, e 0 3]) := by decide +kernel
/-- R530 and R536: reset values as they are read. -/
theorem test_reads : traceRead State.reset 0 0x10 = 0x0100000E ∧ healthRead State.reset 0 = 4 ∧ traceRead State.reset 0 0x30 = 0 := by
  decide +kernel

/-! ### A line and a step -/

/-- R246's worked line: its word is 0x0000_1102, and its checks pass; with k1 replaced by v6, bit [4] is reported. -/
def workedLine (b : BitVec 96) : BitVec 512 :=
  (0x00001102 : BitVec 32) ++ (0xF00 : BitVec 96) ++ (0xF00 : BitVec 96) ++ (0xF06 : BitVec 96) ++ b ++ (0x000000003A700002000A2F10 : BitVec 96)

theorem test_line : lineCheck false (workedLine 0x0000000010100003000C0F20) = 0 ∧ lineCheck false (workedLine 0x0000000000600003000C0F20) &&& 16 = 16 := by
  decide +kernel

/-- From reset, the instruction placed next runs: `mov v4, 7` leaves 7 and advances the thread by a slot. -/
def placed : State := State.reset.withFetchWord 96 0x000000000070000000082F1E

theorem test_step :
    (match step placed with
      | .next t => vreg t me 4 == 7 && (t.thread me).pc == nextPc (placed.thread me).pc
      | _ => false) = true := by decide +kernel

end Sys2Proof.Tests
end

section
/-! PROOFS. `cnwait` (R39, R372): its one thread goes on exactly when each of its four counters is at or below its field. -/

namespace Sys2Proof.Machine

/-- A counter meets its 6-bit field: it is at or below it, or the field is 63 and places no condition (R39). -/
def withinField (n limit : Nat) : Bool := limit == 63 || n ≤ limit

theorem withinField_iff (n limit : Nat) : withinField n limit = true ↔ limit = 63 ∨ n ≤ limit := by
  simp [withinField]

/-- A thread's LD, ST, CP and MX counters meet the fields packed in `v`, LD lowest. -/
def countersWithin (x : Thread) (v : Nat) : Bool :=
  withinField x.ld (fld v 5 0) && withinField x.st (fld v 11 6) && withinField x.cp (fld v 17 12) &&
    withinField x.mx (fld v 23 18)

theorem countersWithin_iff (x : Thread) (v : Nat) : countersWithin x v = true ↔
    (v % 64 = 63 ∨ x.ld ≤ v % 64) ∧ (v / 2 ^ 6 % 64 = 63 ∨ x.st ≤ v / 2 ^ 6 % 64) ∧
    (v / 2 ^ 12 % 64 = 63 ∨ x.cp ≤ v / 2 ^ 12 % 64) ∧ (v / 2 ^ 18 % 64 = 63 ∨ x.mx ≤ v / 2 ^ 18 % 64) := by
  simp [countersWithin, withinField_iff, fld, and_assoc]

/-- What `cnwait` does in one executing thread. -/
def cnwaitLane (f : SForm) (s : State) (t : TRef) : State × Lane :=
  if countersWithin (s.thread t) (f.imm.toNat + 2 ^ 20 * f.xf.toNat) then (s, .done) else (s, .stay .recheck)

/-- `cnwait` is `cnwaitLane` in each of its threads. -/
theorem exec_cnwait (f : SForm) (s : State) : exec (.cnwait f) s =
    .next (issue (.cnwait f) .normal (fun s g _ ts => eachLane g (fun s t => cnwaitLane f s t) s ts) s) := rfl

theorem exec_cnwait_of_issuesTo {f : SForm} {s p : State} {g : Issue} {b : Block} {t : TRef}
    (h : IssuesTo (.cnwait f) .normal s g b t p) :
    exec (.cnwait f) s = .next (finishLane (cnwaitLane f p t).1 t (cnwaitLane f p t).2) := by
  rw [exec_cnwait, issue_to h fun _ _ _ s t => cnwaitLane f s t]

/-- Settles O49: the thread's lane outcome is decided by `countersWithin`, which reads the four fields as R39 does. -/
theorem cnwaitWaitsForItsCounters : Obligations.CnwaitWaitsForItsCounters := by
  intro f s p g b t h
  dsimp only
  rw [← countersWithin_iff, exec_cnwait_of_issuesTo h]
  constructor
  · intro hall
    rw [cnwaitLane, if_pos hall, finishLane_done]
  · intro hnot
    rw [cnwaitLane, if_neg hnot, finishLane_stay]

end Sys2Proof.Machine
end

section
/-! PROOFS. The checks that a well-formed instruction has passed (R248-R263), told apart by the field they are about. -/

namespace Sys2Proof

theorem firstError_eq_none_iff (l : List (Bool × WfError)) : firstError l = none ↔ ∀ e ∈ l, e.1 = true := by
  induction l with
  | nil => simp [firstError]
  | cons e l ih =>
    obtain ⟨ok, err⟩ := e
    cases ok <;> simp [firstError, ih]

/-- An instruction is well-formed exactly when its unused fields are zero, its guard and type are admitted, and the
checks of its sources, its destination and its own row hold. -/
theorem Instr.wf_iff (i : Instr) : i.wf = true ↔
    i.uses.unused = true ∧ i.head.grdOk = true ∧ i.head.typ ∈ i.uses.typs ∧
    (∀ u ∈ i.uses.srcs, ∀ e ∈ u.checks, e.1 = true) ∧ (∀ e ∈ i.uses.dstChecks, e.1 = true) ∧
    ∀ e ∈ i.uses.extra, e.1 = true := by
  simp only [Instr.wf, Instr.wfError, Option.isNone_iff_eq_none, firstError_eq_none_iff, List.forall_mem_append,
    List.forall_mem_cons, List.forall_mem_flatMap, List.contains_iff_mem, List.not_mem_nil, false_implies, implies_true,
    and_true, and_assoc]

/-- A source whose row takes no modifiers has none (R222). -/
theorem SrcUse.unmodified_of_checks {u : SrcUse} (hm : u.mods = false) (h : ∀ e ∈ u.checks, e.1 = true) :
    u.s.neg = false ∧ u.s.abs = false := by
  simp only [SrcUse.checks, List.forall_mem_cons] at h
  obtain ⟨-, -, -, -, hmod, -⟩ := h
  simpa [hm, and_comm] using hmod

/-- A destination whose row takes neither scale nor clamp has neither (R230). -/
theorem Uses.unclamped_of_dstChecks {u : Uses} {d : DstUse} (hd : u.dst = some d) (hc : d.clamp = .zero)
    (h : ∀ e ∈ u.dstChecks, e.1 = true) : d.d.clp = 0 ∧ d.d.scl = 0 := by
  have hclamp : d.clampOk = true := h (d.clampOk, .clamp) (by simp [Uses.dstChecks, hd])
  simpa [DstUse.clampOk, hc] using hclamp

/-- A well-formed guard that is always on is not inverted (R248). -/
theorem Head.not_inv_of_always {h : Head} (hg : h.grdOk = true) (hs : h.sel = 15) : h.inv = false := by
  simpa [Head.grdOk, hs] using hg

end Sys2Proof
end

section
/-! PROOFS. `nop` (R279): each executing thread goes to the next slot, and nothing else happens. -/

namespace Sys2Proof.Machine

/-- An effect that completes in each of its threads and does nothing else moves them all to the next slot. -/
theorem eachLane_done {g : Issue} {s : State} {ts : List TRef} (hn : ts.Nodup) (hs : ∀ t ∈ ts, standing s g t = true) :
    eachLane g (fun s _ => (s, .done)) s ts = ts.foldl advance s := by
  induction ts generalizing s with
  | nil => rfl
  | cons t ts ih =>
    obtain ⟨ht, hn⟩ := List.nodup_cons.mp hn
    have hrest : ∀ u ∈ ts, standing (advance s t) g u = true := fun u hu => by
      have hne : u ≠ t := fun e => ht (e ▸ hu)
      rw [advance, standing_modThread_other s g _ hne]
      exact hs u (List.mem_cons_of_mem t hu)
    calc eachLane g (fun s _ => (s, .done)) s (t :: ts)
        = eachLane g (fun s _ => (s, .done)) (advance s t) ts := by
          simp only [eachLane, List.foldl_cons, if_pos (hs t List.mem_cons_self), finishLane_done]
      _ = (t :: ts).foldl advance s := ih hn hrest

theorem exec_nop (f : RForm) (s : State) : exec (.nop f) s =
    .next (issue (.nop f) .normal (fun s g _ ts => eachLane g (fun s _ => (s, .done)) s ts) s) := rfl

theorem exec_nop_of_issues {f : RForm} {s : State} {g : Issue} {b : Block} (h : Issues (.nop f) .normal s g b) :
    exec (.nop f) s =
      .next ((executing s g b (.nop f) .normal).foldl advance (passed s g b (.nop f) .normal)) := by
  rw [exec_nop, issue_eq h, eachLane_done (nodup_executing s g b _ _) fun _ => standing_passed]

/-- The form of the unguarded `nop`. -/
def nopForm : RForm := ⟨⟨.b32, false, 15⟩, .zero, .zero, .zero, .zero, 0⟩

theorem uses_nop (f : RForm) : (Instr.nop f).uses = Uses.r f [.b32] false false false false 0 none [] := rfl

theorem head_nop (f : RForm) : (Instr.nop f).head = f.h := rfl

/-- A well-formed `nop` leaves all its fields but the guard zero (R249), so that only one is unguarded. -/
theorem eq_nopForm_of_wf {f : RForm} (h : (Instr.nop f).wf = true) (hs : f.h.sel = 15) : f = nopForm := by
  rw [Instr.wf_iff, uses_nop, head_nop] at h
  obtain ⟨hunused, hguard, htyp, -⟩ := h
  have hinv : f.h.inv = false := Head.not_inv_of_always hguard hs
  have hb32 : f.h.typ = .b32 := List.mem_singleton.mp htyp
  obtain ⟨⟨typ, inv, sel⟩, dst, a, b, c, xf⟩ := f
  have hxf : xf &&& ~~~(0 : BitVec 4) = xf := BitVec.and_allOnes
  simp only [Uses.r, Bool.false_or, Bool.and_eq_true, beq_iff_eq, hxf] at hunused
  obtain ⟨⟨⟨⟨hdst, ha⟩, hb⟩, hc⟩, hx⟩ := hunused
  subst hinv hb32 hs hdst ha hb hc hx
  rfl

theorem encode_nopForm : encode (.nop nopForm) = some 0x000000000000000000000F00 := by decide +kernel

/-- Settles O47: `nop` completes at once in every executing thread, and the only well-formed unguarded form has the
words of R279. -/
theorem nopOnlyAdvances : Obligations.NopOnlyAdvances := by
  refine ⟨fun f s g b h => exec_nop_of_issues h, fun s t u => ⟨?_, fun hne => ?_⟩, fun f h hs => ?_, ?_⟩
  · rw [thread_advance, if_pos rfl]
  · rw [thread_advance, if_neg hne]
  · rw [eq_nopForm_of_wf h hs, encode_nopForm]
  · decide +kernel

end Sys2Proof.Machine
end

section
/-! PROOFS. `isel` (R297): a choice between two values by a third, and trap 0x01 where a field asks for more. -/

namespace Sys2Proof.Machine

/-- What R297 asks of the fields of an `isel`: a type of 32 or 64 bits, no clamp, no modifier on any source. -/
structure IselFields (f : RForm) : Prop where
  typ   : f.h.typ = .b32 ∨ f.h.typ = .b64
  clamp : f.dst.clp = 0
  a     : f.a.neg = false ∧ f.a.abs = false
  b     : f.b.neg = false ∧ f.b.abs = false
  c     : f.c.neg = false ∧ f.c.abs = false

theorem uses_isel (f : RForm) : (Instr.isel f).uses =
    Uses.r f tyBit true true true true 0 (some (.at f.dst f.h.typ .zero))
      [.at f.a f.h.typ, .at f.b f.h.typ, .at f.c .b32] := rfl

theorem head_isel (f : RForm) : (Instr.isel f).head = f.h := rfl

theorem iselFields_of_wf {f : RForm} (h : (Instr.isel f).wf = true) : IselFields f := by
  rw [Instr.wf_iff, uses_isel, head_isel] at h
  obtain ⟨-, -, htyp, hsrcs, hdst, -⟩ := h
  have htyp : f.h.typ = .b32 ∨ f.h.typ = .b64 := by
    simpa [Uses.r, tyBit] using htyp
  have hbits : f.h.typ.isBits = true := by rcases htyp with e | e <;> rw [e] <;> rfl
  simp only [Uses.r, List.forall_mem_cons] at hsrcs
  obtain ⟨ha, hb, hc, -⟩ := hsrcs
  have hmods : (!f.h.typ.isBits) = false := by rw [hbits]; rfl
  exact ⟨htyp, (Uses.unclamped_of_dstChecks rfl rfl hdst).1, SrcUse.unmodified_of_checks hmods ha,
    SrcUse.unmodified_of_checks hmods hb, SrcUse.unmodified_of_checks rfl hc⟩

theorem not_wf_isel {f : RForm} (h : f.a.neg ∨ f.a.abs ∨ f.b.neg ∨ f.b.abs ∨ f.c.neg ∨ f.c.abs ∨ f.dst.clp ≠ 0 ∨
    ¬(f.h.typ = .b32 ∨ f.h.typ = .b64)) : (Instr.isel f).wf = false := by
  refine Bool.eq_false_iff.mpr fun hwf => ?_
  obtain ⟨htyp, hclamp, ⟨han, haa⟩, ⟨hbn, hba⟩, hcn, hca⟩ := iselFields_of_wf hwf
  simp only [htyp, hclamp, han, haa, hbn, hba, hcn, hca, Bool.false_eq_true, ne_eq, not_true_eq_false, or_self] at h

/-- A source without modifiers reads its raw value. -/
theorem srcVal_of_unmodified (s : State) (t : TRef) (ty : Ty) {x : Src} (hn : x.neg = false) (ha : x.abs = false) :
    srcVal s t ty x = rawSrc s t ty x := by
  simp [srcVal, modVal, hn, ha]

/-- A c source reads its condition bit as 0 or 1 (R252). -/
theorem rawSrc_of_c (s : State) (t : TRef) (ty : Ty) {x : Src} (hc : x.file = .c) :
    rawSrc s t ty x = if creg s t x.num.toNat then 1 else 0 := by
  simp [rawSrc, hc]

theorem exec_isel (f : RForm) (s : State) : exec (.isel f) s =
    .next (compute (.isel f) f.dst f.h.typ.regs false (fun s _ t =>
      Res.of (if srcVal s t .b32 f.c ≠ 0 then srcVal s t f.h.typ f.a else srcVal s t f.h.typ f.b)) s) := rfl

/-- An instruction that computes raises trap 0x01 where its fields or the launch's mode are refused. -/
theorem compute_rejected {i : Instr} {s : State} {g : Issue} {b : Block} (h : Rejects i .normal s g b) (dst : Dst)
    (regs : Nat) (cmp : Bool) (f : State → Issue → TRef → Res) :
    compute i dst regs cmp f s =
      (executing s g b i .normal).foldl (fun s t => trapAt s t (illegal i)) (passed s g b i .normal) :=
  issue_rejected h _

/-- Settles O48: `isel` computes the choice of R297; its checks are those of its encoding row, and a form that fails one
of them raises trap 0x01. -/
theorem iselSelects : Obligations.IselSelects := by
  intro f
  refine ⟨does_of (exec_isel f), fun s t hfile hneg habs _ => ?_, fun hwf => ?_, fun hbad s g b hcur hblock => ?_⟩
  · rw [srcVal_of_unmodified s t .b32 hneg habs, rawSrc_of_c s t .b32 hfile]
  · exact ⟨(iselFields_of_wf hwf).typ, (iselFields_of_wf hwf).clamp⟩
  · rw [exec_isel, compute_rejected ⟨hcur, hblock, .inl (not_wf_isel hbad)⟩]

end Sys2Proof.Machine
end

section
/-! PROOFS. `cvstat` (R397): it reads a convergence register into an even pair of v registers, or raises trap 0x01. -/

namespace Sys2Proof

/-- A destination of consecutive v registers is in file v at a number of its row's alignment. -/
theorem Uses.aligned_of_vec {u : Uses} {d : Dst} {n align : Nat} (hd : u.dst = some (.vec d n align))
    (h : ∀ e ∈ u.dstChecks, e.1 = true) : d.file = .v ∧ d.num.toNat % align = 0 := by
  simp only [Uses.dstChecks, hd, DstUse.vec, List.forall_mem_cons] at h
  obtain ⟨hfiles, -, halign, -⟩ := h
  have hfile : d.file = .v := by simpa using hfiles
  exact ⟨hfile, by simpa [hfile] using halign⟩

namespace Machine

/-- Convergence register `n` as a block keeps it (R35). -/
def Block.cv (b : Block) (n : Nat) : Cv := (b.cvs.find? n).getD noCv

/-- The pair `cvstat` leaves in thread `t`: the sequence number over the signatures, and whether `t` has signed over the
declared count (R397). -/
def cvstatPair (v : Cv) (t : TRef) : List Word :=
  [d (v.seq.toNat * 2 ^ 16 + v.signers.length), d (v.declared + if v.signers.any fun e => e.1 == t then 2 ^ 10 else 0)]

/-- What `cvstat` does in one executing thread, when the block holds the register. -/
def cvstatLane (f : SForm) (v : Cv) (s : State) (t : TRef) : State × Lane :=
  (setVs s t f.dst.num.toNat (cvstatPair v t), .done)

/-- `cvstat` traps in each of its threads or is `cvstatLane` in each. -/
theorem exec_cvstat (f : SForm) (s : State) : exec (.cvstat f) s =
    .next (issue (.cvstat f) .normal (fun s g b ts =>
      if b.ncv ≤ bits f.imm 3 0 then ts.foldl (fun s t => trapAt s t (illegal (.cvstat f))) s
      else eachLane g (cvstatLane f (b.cv (bits f.imm 3 0))) s ts) s) := rfl

section
variable {f : SForm} {s p : State} {g : Issue} {b : Block} {t : TRef}

theorem exec_cvstat_of_not_held (h : IssuesTo (.cvstat f) .normal s g b t p) (hcv : b.ncv ≤ bits f.imm 3 0) :
    exec (.cvstat f) s = .next (trapAt p t (illegal (.cvstat f))) := by
  rw [exec_cvstat, issue_one h, if_pos hcv, List.foldl_cons, List.foldl_nil]

theorem exec_cvstat_of_held (h : IssuesTo (.cvstat f) .normal s g b t p) (hcv : bits f.imm 3 0 < b.ncv) :
    exec (.cvstat f) s =
      .next (advance (setVs p t f.dst.num.toNat (cvstatPair (b.cv (bits f.imm 3 0)) t)) t) := by
  rw [exec_cvstat, issue_one h, if_neg (Nat.not_le_of_lt hcv), eachLane_one _ _ _ _ h.standing, cvstatLane,
    finishLane_done]

end

theorem uses_cvstat (f : SForm) : (Instr.cvstat f).uses =
    Uses.sf f true false false 0xF 0 (some (.vec f.dst 2 2)) [] := rfl

/-- A well-formed `cvstat` names an even pair of v registers. -/
theorem cvstat_dst_of_wf {f : SForm} (h : (Instr.cvstat f).wf = true) :
    f.dst.file = .v ∧ f.dst.num.toNat % 2 = 0 := by
  obtain ⟨-, -, -, -, hdst, -⟩ := (Instr.wf_iff _).mp h
  rw [uses_cvstat] at hdst
  exact Uses.aligned_of_vec rfl hdst

/-- Settles O50: the block's register count decides between the trap and the pair, and the checks of the encoding row
make the destination an even pair in file v. -/
theorem cvstatReadsItsRegister : Obligations.CvstatReadsItsRegister := by
  intro f s p g b t h
  exact ⟨exec_cvstat_of_not_held h, exec_cvstat_of_held h, cvstat_dst_of_wf h.fields⟩

end Machine
end Sys2Proof
end

section
/-! PROOFS. The encoder and the decoder of a slot are inverse to each other (R257, R262). -/

namespace Sys2Proof

theorem DFile.eq_toBits_of_ofBits {b : BitVec 2} {f : DFile} (h : DFile.ofBits b = some f) : b = f.toBits := by
  revert h; revert b; cases f <;> decide
theorem SFile.toBits_ofBits (b : BitVec 2) : (SFile.ofBits b).toBits = b := by
  revert b; decide
theorem Perm.eq_toBits_of_ofBits {b : BitVec 3} {f : Perm} (h : Perm.ofBits b = some f) : b = f.toBits := by
  revert h; revert b; cases f <;> decide
theorem Scope.eq_toBits_of_ofBits {b : BitVec 3} {f : Scope} (h : Scope.ofBits b = some f) : b = f.toBits := by
  revert h; revert b; cases f <;> decide
theorem Ty.toBits_ofBits (b : BitVec 4) : (Ty.ofBits b).toBits = b := by
  revert b; decide
theorem Ord.toBits_ofBits (b : BitVec 2) : (Ord.ofBits b).toBits = b := by
  revert b; decide
theorem Ret.toBits_ofBits (b : BitVec 2) : (Ret.ofBits b).toBits = b := by
  revert b; decide
theorem Cnt.toBits_ofBits (b : BitVec 2) : (Cnt.ofBits b).toBits = b := by
  revert b; decide

/-- Two adjoining fields are one field. -/
theorem slice_append {w : Nat} (x : BitVec w) (a b m n : Nat) (h : b = a + n) :
    x.extractLsb' b m ++ x.extractLsb' a n = x.extractLsb' a (m + n) := by
  subst h
  ext i hi
  simp only [← BitVec.getLsbD_eq_getElem, BitVec.getLsbD_append, BitVec.getLsbD_extractLsb']
  grind

theorem bit_slice {w : Nat} (x : BitVec w) (n : Nat) : bit (x.getLsbD n) = x.extractLsb' n 1 := by
  ext i hi
  obtain rfl : i = 0 := by omega
  simp only [← BitVec.getLsbD_eq_getElem, getLsbD_bit, BitVec.getLsbD_extractLsb']
  simp

theorem encDst_of_decDst {b : BitVec 15} {d : Dst} (h : decDst b = some d) : encDst d = b := by
  simp only [decDst, Option.map_eq_some_iff] at h
  obtain ⟨f, hf, rfl⟩ := h
  simp only [encDst, ← DFile.eq_toBits_of_ofBits hf, slice_append, BitVec.extractLsb'_eq_self]

theorem encSrc_of_decSrc {b : BitVec 20} {d : Src} (h : decSrc b = some d) : encSrc d = b := by
  simp only [decSrc, Option.map_eq_some_iff] at h
  obtain ⟨f, hf, rfl⟩ := h
  simp only [encSrc, ← Perm.eq_toBits_of_ofBits hf, SFile.toBits_ofBits, bit_slice, slice_append, BitVec.extractLsb'_eq_self]

theorem encHead_decHead (w : BitVec 96) : encHead (w.extractLsb' 0 8) (decHead w) = w.extractLsb' 0 17 := by
  simp only [encHead, decHead, Ty.toBits_ofBits, bit_slice, slice_append]

theorem encR_of_decR {w : BitVec 96} {f : RForm} (h : decR w = some f) : encR (w.extractLsb' 0 8) f = w := by
  simp only [decR, Option.bind_eq_bind, Option.bind_eq_some_iff, Option.some_inj] at h
  obtain ⟨dst, hdst, a, ha, b, hb, c, hc, rfl⟩ := h
  simp only [encR, encDst_of_decDst hdst, encSrc_of_decSrc ha, encSrc_of_decSrc hb, encSrc_of_decSrc hc,
    encHead_decHead, slice_append, BitVec.extractLsb'_eq_self]

theorem encI_of_decI {w : BitVec 96} {f : IForm} (h : decI w = some f) : encI (w.extractLsb' 0 8) f = w := by
  simp only [decI, Option.bind_eq_bind, Option.bind_eq_some_iff, Option.some_inj, Option.ite_none_right_eq_some] at h
  obtain ⟨dst, hdst, a, ha, hz, rfl⟩ := h
  simp only [encI, encDst_of_decDst hdst, encSrc_of_decSrc ha, ← hz,
    encHead_decHead, slice_append, BitVec.extractLsb'_eq_self]

theorem encS_of_decS {w : BitVec 96} {f : SForm} (h : decS w = some f) : encS (w.extractLsb' 0 8) f = w := by
  simp only [decS, Option.bind_eq_bind, Option.bind_eq_some_iff, Option.some_inj] at h
  obtain ⟨dst, hdst, a, ha, b, hb, rfl⟩ := h
  simp only [encS, encDst_of_decDst hdst, encSrc_of_decSrc ha, encSrc_of_decSrc hb,
    encHead_decHead, slice_append, BitVec.extractLsb'_eq_self]

theorem encM_of_decM {w : BitVec 96} {f : MForm} (h : decM w = some f) : encM (w.extractLsb' 0 8) f = w := by
  simp only [decM, Option.bind_eq_bind, Option.bind_eq_some_iff, Option.some_inj, Option.ite_none_right_eq_some] at h
  obtain ⟨dat, hdat, base, hbase, scp, hscp, hz, rfl⟩ := h
  simp only [encM, encDst_of_decDst hdat, encSrc_of_decSrc hbase, ← Scope.eq_toBits_of_ofBits hscp, ← hz,
    Ord.toBits_ofBits, Ret.toBits_ofBits, Cnt.toBits_ofBits,
    encHead_decHead, slice_append, BitVec.extractLsb'_eq_self]

theorem encB_of_decB {w : BitVec 96} {f : BForm} (h : decB w = some f) : encB (w.extractLsb' 0 8) f = w := by
  simp only [decB, Option.bind_eq_bind, Option.bind_eq_some_iff, Option.some_inj, Option.ite_none_right_eq_some] at h
  obtain ⟨cond, hcond, ⟨hz, hbit⟩, rfl⟩ := h
  have h61 : (0 : BitVec 1) = w.extractLsb' 61 1 := by rw [← bit_slice, hbit]; rfl
  simp only [encB, encSrc_of_decSrc hcond, h61, ← hz, bit_slice,
    encHead_decHead, slice_append, BitVec.extractLsb'_eq_self]

theorem encX_of_decX {w : BitVec 96} {f : MXForm} (h : decX w = some f) : encX (w.extractLsb' 0 8) f = w := by
  simp only [decX, Option.some_inj, Option.ite_none_right_eq_some] at h
  obtain ⟨⟨hz, hz3⟩, rfl⟩ := h
  simp only [encX, ← hz3, ← hz, bit_slice,
    encHead_decHead, slice_append, BitVec.extractLsb'_eq_self]

theorem decodeSlot_eq_ok_iff (w : BitVec 96) (i : Instr) :
    decodeSlot w = .ok i ↔ decodeFields w = some i ∧ i.wf = true := by
  unfold decodeSlot Instr.wf
  cases h : decodeFields w with
  | none => simp
  | some j => cases hj : j.wfError <;> simp <;> grind

section
set_option maxRecDepth 4000

/-! The opcodes that bit 0 of XF divides between two instructions. -/

theorem decodeFields_mov {w : BitVec 96} (h : w.extractLsb' 0 8 = 0x1E) : decodeFields w =
    (decI w).map fun f => if f.xf.getLsbD 0 then .movRegister f else .movImmediate f := by
  unfold decodeFields; rw [h]; rfl

theorem decodeFields_cbpush {w : BitVec 96} (h : w.extractLsb' 0 8 = 0xA2) : decodeFields w =
    (decS w).map fun f => if f.xf.getLsbD 0 then .cbpushCommit f else .cbpushReserve f := by
  unfold decodeFields; rw [h]; rfl

theorem decodeFields_cbpop {w : BitVec 96} (h : w.extractLsb' 0 8 = 0xA3) : decodeFields w =
    (decS w).map fun f => if f.xf.getLsbD 0 then .cbpopTry f else .cbpop f := by
  unfold decodeFields; rw [h]; rfl

theorem decodeFields_taskpop {w : BitVec 96} (h : w.extractLsb' 0 8 = 0xC9) : decodeFields w =
    (decS w).map fun f => if f.xf.getLsbD 0 then .taskpopTry f else .taskpop f := by
  unfold decodeFields; rw [h]; rfl

theorem decodeFields_mhit {w : BitVec 96} (h : w.extractLsb' 0 8 = 0xD1) : decodeFields w =
    (decR w).map fun f => if f.xf.getLsbD 0 then .mhitCo f else .mhit f := by
  unfold decodeFields; rw [h]; rfl

theorem decodeFields_thit {w : BitVec 96} (h : w.extractLsb' 0 8 = 0xD5) : decodeFields w =
    (decR w).map fun f => if f.xf.getLsbD 0 then .thitRay f else .thit f := by
  unfold decodeFields; rw [h]; rfl

/-- A row that uses no bit of XF has bit 0 clear (R249). -/
theorem xf_clear_of_unused {xf : BitVec 4} {rest : Bool} (h : (rest && (xf &&& ~~~(0 : BitVec 4)) == 0) = true) :
    xf.getLsbD 0 = false := by
  have hxf : xf &&& ~~~(0 : BitVec 4) = xf := BitVec.and_allOnes
  rw [hxf, Bool.and_eq_true, beq_iff_eq] at h
  rw [h.2]; rfl

theorem xf_set_of_eq {xf : BitVec 4} (h : (xf == 1) = true) : xf.getLsbD 0 = true := by
  rw [beq_iff_eq.mp h]; rfl

/-- The decoder reads every well-formed instruction's fields back from its words. -/
theorem decodeFields_of_encode {i : Instr} {w : BitVec 96} (hwf : i.wf = true) (h : encode i = some w) :
    decodeFields w = some i := by
  obtain ⟨hunused, -, -, -, -, hextra⟩ := (Instr.wf_iff i).mp hwf
  cases i with
  | movImmediate f =>
    cases h
    rw [decodeFields_mov (opcode_encI _ f), decI_encI, Option.map_some, xf_clear_of_unused hunused]; rfl
  | movRegister f =>
    cases h
    rw [decodeFields_mov (opcode_encI _ f), decI_encI, Option.map_some, xf_set_of_eq (hextra _ (.tail _ (.head _)))]; rfl
  | cbpushReserve f =>
    cases h
    rw [decodeFields_cbpush (opcode_encS _ f), decS_encS, Option.map_some, xf_clear_of_unused hunused]; rfl
  | cbpushCommit f =>
    cases h
    rw [decodeFields_cbpush (opcode_encS _ f), decS_encS, Option.map_some, xf_set_of_eq (hextra _ (.head _))]; rfl
  | cbpop f =>
    cases h
    rw [decodeFields_cbpop (opcode_encS _ f), decS_encS, Option.map_some, xf_clear_of_unused hunused]; rfl
  | cbpopTry f =>
    cases h
    rw [decodeFields_cbpop (opcode_encS _ f), decS_encS, Option.map_some, xf_set_of_eq (hextra _ (.head _))]; rfl
  | taskpop f =>
    cases h
    rw [decodeFields_taskpop (opcode_encS _ f), decS_encS, Option.map_some, xf_clear_of_unused hunused]; rfl
  | taskpopTry f =>
    cases h
    rw [decodeFields_taskpop (opcode_encS _ f), decS_encS, Option.map_some, xf_set_of_eq (hextra _ (.head _))]; rfl
  | mhit f =>
    cases h
    rw [decodeFields_mhit (opcode_encR _ f), decR_encR, Option.map_some, xf_clear_of_unused hunused]; rfl
  | mhitCo f =>
    cases h
    rw [decodeFields_mhit (opcode_encR _ f), decR_encR, Option.map_some, xf_set_of_eq (hextra _ (.head _))]; rfl
  | thit f =>
    cases h
    rw [decodeFields_thit (opcode_encR _ f), decR_encR, Option.map_some, xf_clear_of_unused hunused]; rfl
  | thitRay f =>
    cases h
    rw [decodeFields_thit (opcode_encR _ f), decR_encR, Option.map_some, xf_set_of_eq (hextra _ (.head _))]; rfl
  | _ =>
    cases h <;>
    ( unfold decodeFields
      generalize hop : BitVec.extractLsb' 0 8 _ = op
      simp only [opcode_encR, opcode_encI, opcode_encS, opcode_encM, opcode_encB, opcode_encX] at hop
      subst hop
      change Option.map _ _ = _
      simp only [decR_encR, decI_encI, decS_encS, decM_encM, decB_encB, decX_encX, Option.map_some])

/-- Settles O54: the fields are read back in the format of the opcode, and the checks have been passed. -/
theorem encodingsDecode : Obligations.EncodingsDecode :=
  fun i w hwf h => (decodeSlot_eq_ok_iff w i).mpr ⟨decodeFields_of_encode hwf h, hwf⟩

/-- How a slot with opcode `op` is read: not at all, or in one format, as an instruction with that opcode or as one of the
two that bit 0 of XF chooses between. -/
inductive Row (w : BitVec 96) (op : BitVec 8) : Option Instr → Prop
  | unassigned : Row w op none
  | rPair {mk mk' : RForm → Instr} : (∀ f, encode (mk f) = some (encR op f)) → (∀ f, encode (mk' f) = some (encR op f)) →
      Row w op ((decR w).map fun f => if f.xf.getLsbD 0 then mk f else mk' f)
  | iPair {mk mk' : IForm → Instr} : (∀ f, encode (mk f) = some (encI op f)) → (∀ f, encode (mk' f) = some (encI op f)) →
      Row w op ((decI w).map fun f => if f.xf.getLsbD 0 then mk f else mk' f)
  | sPair {mk mk' : SForm → Instr} : (∀ f, encode (mk f) = some (encS op f)) → (∀ f, encode (mk' f) = some (encS op f)) →
      Row w op ((decS w).map fun f => if f.xf.getLsbD 0 then mk f else mk' f)
  | r {mk} : (∀ f, encode (mk f) = some (encR op f)) → Row w op ((decR w).map mk)
  | i {mk} : (∀ f, encode (mk f) = some (encI op f)) → Row w op ((decI w).map mk)
  | s {mk} : (∀ f, encode (mk f) = some (encS op f)) → Row w op ((decS w).map mk)
  | m {mk} : (∀ f, encode (mk f) = some (encM op f)) → Row w op ((decM w).map mk)
  | b {mk} : (∀ f, encode (mk f) = some (encB op f)) → Row w op ((decB w).map mk)
  | x {mk} : (∀ f, encode (mk f) = some (encX op f)) → Row w op ((decX w).map mk)

/-- An instruction that bit 0 of XF chooses has the words that both have. -/
theorem encode_ite {c : Bool} {i j : Instr} {x : Option (BitVec 96)} (hi : encode i = x) (hj : encode j = x) :
    encode (if c then i else j) = x := by
  cases c
  · exact hj
  · exact hi

/-- The opcode map, row by row (R262). -/
theorem row_decodeFields (w : BitVec 96) : Row w (w.extractLsb' 0 8) (decodeFields w) := by
  generalize hn : (w.extractLsb' 0 8).toNat = n
  have hop : w.extractLsb' 0 8 = BitVec.ofNat 8 n := by rw [← hn, BitVec.ofNat_toNat, BitVec.setWidth_eq]
  rw [hop]
  unfold decodeFields
  rw [hn]
  split
  all_goals constructor
  all_goals exact fun _ => rfl

end

/-- What a format's decoder reads is what its encoder writes. -/
theorem encode_of_map {α : Type} {w : BitVec 96} {i : Instr} {x : Option α} {mk : α → Instr} {enc : α → BitVec 96}
    (hx : ∀ f, x = some f → enc f = w) (hmk : ∀ f, encode (mk f) = some (enc f)) (h : x.map mk = some i) :
    encode i = some w := by
  obtain ⟨f, hf, rfl⟩ := Option.map_eq_some_iff.mp h
  rw [hmk, hx f hf]

theorem encode_of_row {w : BitVec 96} {x : Option Instr} {i : Instr} (hr : Row w (w.extractLsb' 0 8) x) (h : x = some i) :
    encode i = some w := by
  cases hr with
  | unassigned => cases h
  | rPair hmk hmk' => exact encode_of_map (fun _ => encR_of_decR) (fun f => encode_ite (hmk f) (hmk' f)) h
  | iPair hmk hmk' => exact encode_of_map (fun _ => encI_of_decI) (fun f => encode_ite (hmk f) (hmk' f)) h
  | sPair hmk hmk' => exact encode_of_map (fun _ => encS_of_decS) (fun f => encode_ite (hmk f) (hmk' f)) h
  | r hmk => exact encode_of_map (fun _ => encR_of_decR) hmk h
  | i hmk => exact encode_of_map (fun _ => encI_of_decI) hmk h
  | s hmk => exact encode_of_map (fun _ => encS_of_decS) hmk h
  | m hmk => exact encode_of_map (fun _ => encM_of_decM) hmk h
  | b hmk => exact encode_of_map (fun _ => encB_of_decB) hmk h
  | x hmk => exact encode_of_map (fun _ => encX_of_decX) hmk h

/-- Settles O55: what a row reads in its format is encoded in that format, with the row's opcode. -/
theorem decodedWordsEncode : Obligations.DecodedWordsEncode := by
  intro w i h
  obtain ⟨hfields, hwf⟩ := (decodeSlot_eq_ok_iff w i).mp h
  exact ⟨encode_of_row (row_decodeFields w) hfields, hwf⟩

end Sys2Proof
end

section
/-! PROOFS. The instructions that compute registers from registers: each is `compute`, `computeRound` or the issue of
`finishRes`, whose laws say what is written and what is left alone. -/

namespace Sys2Proof.Machine

/-- Settles O1: every integer instruction is `compute` of its result. -/
theorem integersCompute : Obligations.IntegersCompute :=
  ⟨fun _ => ⟨does_of fun _ => rfl, does_of fun _ => rfl, does_of fun _ => rfl, does_of fun _ => rfl,
     does_of fun _ => rfl, does_of fun _ => rfl, does_of fun _ => rfl, does_of fun _ => rfl⟩,
   fun _ => ⟨does_of fun _ => rfl, does_of fun _ => rfl, does_of fun _ => rfl⟩,
   fun _ => ⟨does_of fun _ => rfl, does_of fun _ => rfl⟩,
   fun _ => ⟨does_of fun _ => rfl, does_of fun _ => rfl, does_of fun _ => rfl⟩⟩

/-- Settles O2: so is every instruction on bits. -/
theorem logicAndBitsCompute : Obligations.LogicAndBitsCompute :=
  ⟨fun _ => ⟨does_of fun _ => rfl, does_of fun _ => rfl, does_of fun _ => rfl, does_of fun _ => rfl,
     does_of fun _ => rfl, does_of fun _ => rfl, does_of fun _ => rfl, does_of fun _ => rfl⟩,
   fun _ => ⟨does_of fun _ => rfl, does_of fun _ => rfl⟩,
   fun _ => ⟨does_of fun _ => rfl, does_of fun _ => rfl, does_of fun _ => rfl, does_of fun _ => rfl,
     does_of fun _ => rfl, does_of fun _ => rfl⟩⟩

/-- Settles O3: every float instruction is `computeRound` of its result. -/
theorem floatArithmeticComputes : Obligations.FloatArithmeticComputes := fun _ =>
  ⟨doesRounded_of fun _ => rfl, doesRounded_of fun _ => rfl, doesRounded_of fun _ => rfl, doesRounded_of fun _ => rfl,
   doesRounded_of fun _ => rfl, doesRounded_of fun _ => rfl, doesRounded_of fun _ => rfl, doesRounded_of fun _ => rfl,
   doesRounded_of fun _ => rfl, doesRounded_of fun _ => rfl, doesRounded_of fun _ => rfl, doesRounded_of fun _ => rfl,
   doesRounded_of fun _ => rfl, doesRounded_of fun _ => rfl, doesRounded_of fun _ => rfl, doesRounded_of fun _ => rfl⟩

/-- Settles O4: the compare reads its mode in the group, the class mask nothing but its source. -/
theorem floatCompareAndClassCompute : Obligations.FloatCompareAndClassCompute := fun _ =>
  ⟨doesInGroup_of fun _ => rfl, does_of fun _ => rfl⟩

/-- A flag that is raised where a test holds is raised for some thread exactly when the test holds of one. -/
theorem any_flag_ne_zero {α : Type} (l : List α) (test : α → Bool) {flag : Nat} (hf : flag ≠ 0) :
    (l.any fun x => (if test x then flag else 0) != 0) = l.any test := by
  congr 1
  funext x
  cases test x <;> simp [hf]

/-- What `bfpexp` leaves in one thread: the exponent over the executing threads, and NV of a signalling NaN, raised for
all of them where the destination is uniform (R323). -/
def bfpexpRes (f : RForm) (s : State) (g : Issue) (ts : List TRef) (t : TRef) : Res :=
  let read (t : TRef) : Nat := flushIn .f32 (ftzOf s (modeThread g f.dst t) (f.xf.getLsbD 3)) (srcVal s t .f32 f.a)
  let sig (t : TRef) : Bool := isSnan .f32 (read t)
  ⟨bfpExponent (ts.map read), [], if (if f.dst.file = .k then ts.any sig else sig t) then flNV else 0⟩

theorem exec_bfpexp (f : RForm) (s : State) : exec (.bfpexp f) s =
    .next (issue (.bfpexp f) .normal (fun s g b ts => finishRes f.dst 1 false (bfpexpRes f s g ts) s g b ts) s) := by
  refine congrArg (fun body => Host.Outcome.next (issue (.bfpexp f) .normal body s)) ?_
  funext s g b ts
  by_cases hk : f.dst.file = .k
  · unfold bfpexpRes
    simp only [hk, if_true, any_flag_ne_zero ts _ (show flNV ≠ 0 by decide)]
  · unfold bfpexpRes
    simp only [hk, if_false]

/-- Settles O5: the conversions round, packing and unpacking compute, and the shared exponent is taken over the group. -/
theorem conversionsAndPacksCompute : Obligations.ConversionsAndPacksCompute :=
  ⟨fun _ => ⟨doesRounded_of fun _ => rfl, doesRounded_of fun _ => rfl, doesRounded_of fun _ => rfl,
     doesRounded_of fun _ => rfl⟩,
   fun f => ⟨doesInGroup_of (exec_bfpexp f), does_of fun _ => rfl, does_of fun _ => rfl⟩⟩

/-- Settles O6: the interval and affine instructions are `compute` of their results. -/
theorem intervalsAndFormsCompute : Obligations.IntervalsAndFormsCompute :=
  ⟨fun _ => ⟨does_of fun _ => rfl, does_of fun _ => rfl, does_of fun _ => rfl, does_of fun _ => rfl,
     does_of fun _ => rfl, does_of fun _ => rfl, does_of fun _ => rfl, does_of fun _ => rfl, does_of fun _ => rfl,
     does_of fun _ => rfl⟩,
   fun _ => ⟨does_of fun _ => rfl, does_of fun _ => rfl, does_of fun _ => rfl, does_of fun _ => rfl,
     does_of fun _ => rfl, does_of fun _ => rfl⟩⟩

/-- A source lane of a `shfl` outside its group, or whose thread is not bound (R342). -/
def shflStray (f : RForm) (s : State) (g : Issue) (t : TRef) : Bool :=
  !g.lanes.getLsbD (shflLane s t f) || !s.bound ⟨t.wave, shflLane s t f⟩

theorem exec_shfl (f : RForm) (s : State) : exec (.shfl f) s =
    .next (issue (.shfl f) .normal (fun s g b ts =>
      if b.checked ∧ ts.any (shflStray f s g) then ts.foldl (fun s t => trapAt s t (simpleTrap 0x17)) s
      else finishRes f.dst f.h.typ.regs false (fun t => Res.of (shflValue s t f)) s g b ts) s) := rfl

theorem shfl_computes {f : RForm} {s : State} {g : Issue} {b : Block} (h : Issues (.shfl f) .normal s g b)
    (hin : b.checked = true → ∀ t ∈ executing s g b (.shfl f) .normal,
      g.lanes.getLsbD (shflLane (passed s g b (.shfl f) .normal) t f) = true ∧
      (passed s g b (.shfl f) .normal).bound ⟨t.wave, shflLane (passed s g b (.shfl f) .normal) t f⟩ = true) :
    Computes (.shfl f) s g b f.dst f.h.typ.regs false (fun p t => Res.of (shflValue p t f)) := by
  refine computes_of_finish h ?_
  rw [exec_shfl, issue_eq h, if_neg]
  rintro ⟨hc, hany⟩
  obtain ⟨t, ht, hstray⟩ := List.any_eq_true.mp hany
  obtain ⟨hlane, hbound⟩ := hin hc t ht
  simp [shflStray, hlane, hbound] at hstray

/-- Settles O7: `shfl` without a stray lane, and the votes, scans and reductions, finish with their results. -/
theorem crossLaneComputes : Obligations.CrossLaneComputes := fun _ =>
  ⟨fun _ _ _ => shfl_computes, doesInGroup_of fun _ => rfl, doesInGroup_of fun _ => rfl, doesInGroup_of fun _ => rfl,
   doesInGroup_of fun _ => rfl, doesInGroup_of fun _ => rfl⟩

end Sys2Proof.Machine
end

section
/-! PROOFS. What a step is (R20-R23, R243, R247), what it leaves behind, and where the machine starts. -/

namespace Sys2Proof.Machine

/-! ### Between steps -/

theorem loseStamps_cur (s : State) : (loseStamps s).cur = s.cur := by
  unfold loseStamps; split <;> rfl

theorem loseStamps_peerHolds (s : State) : (loseStamps s).peerHolds = s.peerHolds := by
  unfold loseStamps; split <;> rfl

theorem thread_loseStamps (s : State) (t : TRef) : (loseStamps s).thread t = s.thread t := by
  unfold loseStamps; split <;> rfl

theorem tidy_cur (s : State) : (tidy s).cur = none := loseStamps_cur _

theorem tidy_peerHolds (s : State) : (tidy s).peerHolds = s.peerHolds.filter (PeerHold.stands s) := loseStamps_peerHolds _

theorem thread_tidy (s : State) (t : TRef) : (tidy s).thread t = s.thread t := thread_loseStamps _ t

/-- A step ends by tidying the state that its move leaves. -/
theorem exists_tidy_of_steps {s t : State} (h : Steps s t) : ∃ r, move { s with cur := none } = .next r ∧ t = tidy r := by
  unfold Steps step oneStep at h
  cases hm : move { s with cur := none } with
  | next r =>
    rw [hm] at h
    exact ⟨r, rfl, (Host.Outcome.next.inj h).symm⟩
  | fault r => rw [hm] at h; cases h
  | refused r => rw [hm] at h; cases h

/-- Settles O57: tidying leaves no group issuing, and keeps just the holds that a thread waits for. -/
theorem holdsBelongToWaitingThreads : Obligations.HoldsBelongToWaitingThreads := by
  intro s t hstep
  obtain ⟨r, -, rfl⟩ := exists_tidy_of_steps hstep
  refine ⟨tidy_cur r, fun h hh => ?_⟩
  rw [tidy_peerHolds] at hh
  have hstands : (r.thread h.t).wait == some (.peer h.tick) := (List.mem_filter.mp hh).2
  rw [thread_tidy]
  exact eq_of_beq hstands

/-! ### A group's issue -/

theorem runSlot_of_decodes {s : State} {g : Issue} {w : BitVec 96} {i : Instr} (h : decodeSlot w = .ok i) :
    runSlot s g w = exec i { s with cur := some g } := by
  rw [runSlot, ((decodeSlot_eq_ok_iff w i).mp h).1]

/-- With nothing on the agenda of a booted device, its move is the issue of its next lane set. -/
theorem move_of_nextLaneSet {s : State} {ls : Nat} (ha : s.agenda = []) (hb : s.booted = true)
    (hls : nextLaneSet s = some ls) : move s = issueLaneSet s ls := by
  simp only [move, ha, hb, hls, Bool.not_true, Bool.false_eq_true, if_false]

theorem step_eq (s : State) : step s = andThen (move { s with cur := none }) fun r => .next (tidy r) := rfl

theorem issueLaneSet_of_choice {s : State} {ls w : Nat} (hf : s.forced = none) (hs : starvedThread s ls = none)
    (hw : chooseWave s ls = some w) : issueLaneSet s ls = issueGroup s (groupOf s (chooseGroup s w)) true := by
  simp only [issueLaneSet, hf, hs, hw, Option.isSome_none, Bool.false_eq_true, if_false]

theorem issueLaneSet_of_starved {s : State} {ls : Nat} {t : TRef} (hf : s.forced = some t) (hls : waveLaneSet t.wave = ls)
    (hr : ready s t = true) : issueLaneSet s ls = issueGroup s (groupOf s (starvedGroup s t)) false := by
  simp only [issueLaneSet, hf, hls, hr, and_self, if_true]

/-- A group whose line comes in runs that line. -/
theorem issueGroup_of_lineFetched {s p : State} {g g1 : Issue} {chosen : Bool} {c : BitVec 512}
    (h : LineFetched s g chosen p g1 c) :
    issueGroup s g chosen = andThen (runSlot (parted p g1) g1 (slotBits c (slotOf g.pc.toNat))) fun s2 =>
      if linePair c (slotOf g.pc.toNat) then
        runSlot s2 (stillAt s2 { g1 with pc := nextPc g.pc, second := true }) (slotBits c (slotOf g.pc.toNat + 1))
      else .next s2 := by
  obtain ⟨t, ts, s1, hts, hline, rfl⟩ := h.line
  have hfree : (groupRefs g).find? (fun t => (s.thread t).mxTraps != []) = none :=
    List.find?_eq_none.mpr fun t ht => by rw [h.free t ht]; decide
  have hready := h.ready.symm
  simp only [issueGroup, hfree, fetchRun, hts, h.low, ne_eq, not_true_eq_false, if_false, hline, runLine, hready, h.some]

/-- Settles O56: the step goes through the lane set's issue and the group's fetch to the slot's instruction, and in a
pair on to the second slot. -/
theorem aStepRunsTheDecodedInstruction : Obligations.AStepRunsTheDecodedInstruction := by
  intro s p ls g g1 chosen c i s0 j ha hb hls hgroup hline hi
  have hissue : issueLaneSet s0 ls = issueGroup s0 g chosen := by
    rcases hgroup with ⟨w, rfl, hf, hs, hw, rfl⟩ | ⟨t, rfl, hf, ht, hr, rfl⟩
    · exact issueLaneSet_of_choice hf hs hw
    · exact issueLaneSet_of_starved hf ht hr
  rw [step_eq, move_of_nextLaneSet (s := s0) ha hb hls, hissue, issueGroup_of_lineFetched hline, runSlot_of_decodes hi]
  constructor
  · intro hpair
    simp only [j, hpair, Bool.false_eq_true, if_false]
    cases exec i { parted p g1 with cur := some g1 } <;> rfl
  · intro i2 hpair hi2
    simp only [j, hpair, if_true, runSlot_of_decodes hi2]
    cases exec i { parted p g1 with cur := some g1 } <;> rfl

/-! ### Reset -/

theorem part_reset (p : Nat) : State.reset.part p = Part.init := rfl

theorem thread_reset (t : TRef) : State.reset.thread t = Thread.init := rfl

/-- No v register of the machine at reset is mapped, and all hold zero. -/
theorem vreg_reset (t : TRef) (n : Nat) : vreg State.reset t n = 0 := by
  simp [vreg, thread_reset, Thread.init, Table.get, Table.find?]

/-- Settles O58: no table lists a partition or a thread at reset, so that each reads as its initial value. -/
theorem resetState : Obligations.ResetState := by
  refine ⟨fun p _ => ?_, fun t => ?_, rfl, rfl, rfl⟩
  · rw [part_reset]
    simp [Part.init, TraceUnit.init, Table.get, Table.find?, Queue.init]
  · rw [thread_reset]
    simp [Thread.init, vreg_reset]

/-! ### Memory -/

/-- Settles O59: the laws of line and scratch writes. -/
theorem memoryHoldsWhatIsWritten : Obligations.MemoryHoldsWhatIsWritten := by
  refine ⟨fun m pa mask val => ⟨wf_memWriteLine m pa mask val, fun a => ?_⟩, fun s core a bs => ⟨fun c h => ?_, fun c x => ?_, rfl, rfl⟩⟩
  · rw [byte_memWriteLine]
    exact ite_congr (propext (and_congr_right fun h => by rw [Nat.sub_lt_iff_lt_add' h])) (fun _ => rfl) fun _ => rfl
  · rw [scratch_scratchWrite]
    split
    · next hc => exact wf_scratchPut _ _ _ (hc ▸ h)
    · exact h
  · rw [scratch_scratchWrite]
    by_cases hc : c = core
    · rw [if_pos hc, byte_scratchPut, hc]
      simp only [true_and]
    · rw [if_neg hc, if_neg fun h => hc h.1]

/-! ### Worked words -/

/-- Settles O53: the decoder runs on each word. -/
theorem workedWordsDecode : Obligations.WorkedWordsDecode := by
  refine ⟨?_, ?_, ?_, ?_, ?_, ?_, ?_, ?_, ?_, ?_, ?_, ?_⟩ <;> decide +kernel

end Sys2Proof.Machine
end

section
/-! PROOFS. Which traps an instruction raises before its own effect, and what trap entry leaves (R33, R34, R263, R266). -/

namespace Sys2Proof.Machine

/-! ### The issue of an instruction -/

/-- The instruction runs as an issue to `who`, whatever its effect. -/
def Issued (i : Instr) (who : Who) : Prop := ∃ body, ∀ s, exec i s = .next (issue i who body s)

section
variable {i : Instr}

theorem issued_compute {dst regs cmp f} (e : ∀ s, exec i s = .next (compute i dst regs cmp f s)) : Issued i .normal :=
  ⟨_, e⟩

theorem issued_computeRound {dst regs m cmp f} (e : ∀ s, exec i s = .next (computeRound i dst regs m cmp f s)) :
    Issued i .normal := ⟨_, e⟩

theorem issued_intOp {f n op} (e : ∀ s, exec i s = .next (intOp i f n op s)) : Issued i .normal := issued_compute e

theorem issued_floatOp {f n m op} (e : ∀ s, exec i s = .next (floatOp i f n m op s)) : Issued i .normal := by
  unfold floatOp at e
  exact issued_computeRound e

theorem issued_logicOp {f op} (e : ∀ s, exec i s = .next (logicOp i f op s)) : Issued i .normal := issued_compute e

theorem issued_shiftOp {f op} (e : ∀ s, exec i s = .next (shiftOp i f op s)) : Issued i .normal := issued_compute e

theorem issued_countOp {f r op} (e : ∀ s, exec i s = .next (countOp i f r op s)) : Issued i .normal := issued_compute e

theorem issued_ivOp2 {f op} (e : ∀ s, exec i s = .next (ivOp2 i f op s)) : Issued i .normal := issued_compute e

theorem issued_ivOp1 {f op} (e : ∀ s, exec i s = .next (ivOp1 i f op s)) : Issued i .normal := issued_compute e

theorem issued_afOp2 {f op} (e : ∀ s, exec i s = .next (afOp2 i f op s)) : Issued i .normal := issued_compute e

theorem issued_afOp1 {f op} (e : ∀ s, exec i s = .next (afOp1 i f op s)) : Issued i .normal := issued_compute e

theorem issued_signAll {op f} (e : ∀ s, exec i s = .next (signAll i op f s)) : Issued i .matrix := ⟨_, e⟩

end

/-- Every instruction of the table runs as an issue: its own, or that of the operation its family shares. -/
theorem issued_of_whoOf {i : Instr} {who : Who} (h : whoOf i = some who) : Issued i who := by
  cases i
  case iadd | isub | imul | imulhi | imad | imin | imax | iabsd => cases h; exact issued_intOp fun _ => rfl
  case imadw | idot4 | icmp | isel | lea | iaddc | movImmediate | movRegister | bfx | bfi | prmb | mix32 | fcmp
    | fclass | pack | unpack | ivsqrt | ivhyp | ivtest | afsqrt | aftoiv => cases h; exact issued_compute fun _ => rfl
  case andd | orr | xorr | andn => cases h; exact issued_logicOp fun _ => rfl
  case shl | shr | sar | rotl => cases h; exact issued_shiftOp fun _ => rfl
  case popc | clz | brev | ffs => cases h; exact issued_countOp fun _ => rfl
  case fadd | fsub | fmul | ffma | fmin | fmax | fdiv | fsqrt | frcp | frsq | fexp2 | flog2 | fsin | fcos | ffract
    | frnd => cases h; exact issued_floatOp fun _ => rfl
  case cvtf | cvtfi | cvtif | cvtbfp => cases h; exact issued_computeRound fun _ => rfl
  case ivadd | ivsub | ivmul | ivmin | ivmax => cases h; exact issued_ivOp2 fun _ => rfl
  case ivsqr | ivabs => cases h; exact issued_ivOp1 fun _ => rfl
  case afadd | afmul => cases h; exact issued_afOp2 fun _ => rfl
  case afsqr | afabs => cases h; exact issued_afOp1 fun _ => rfl
  case mxwld | mxwsw | mxmul | mxzero | mxdrn | mxperm => cases h; exact issued_signAll fun _ => rfl
  all_goals cases h
  all_goals exact ⟨_, fun _ => rfl⟩

section
variable {i : Instr} {who : Who} {s : State} {g : Issue} {b : Block} (hg : s.cur = some g)
  (hb : s.waveBlock? g.wave = some b) (body : State → Issue → Block → List TRef → State)
include hg hb

/-- With no executing thread an issue only moves the group's threads past the instruction. -/
theorem issue_of_nobody (h : executing s g b i who = []) : issue i who body s = passed s g b i who := by
  unfold executing at h
  simp only [issue, hg, hb, h, passed, List.foldl_nil, List.filter_nil, ite_self]

variable {t : TRef} (hone : executing s g b i who = [t]) (hwf : i.wf = true) (hmode : modeOk b i who = true)
include hone hwf hmode

/-- The one executing thread takes the trap of its operands. -/
theorem issue_of_operandTrap {x : Trap} (hx : operandTrap (passed s g b i who) b g i.uses t = some x) :
    issue i who body s = trapAt (passed s g b i who) t x := by
  unfold executing at hone
  unfold passed at hx ⊢
  simp only [issue, hg, hb, hone, hwf, hmode, Bool.not_true, Bool.false_eq_true, or_self, if_false, List.foldl_cons,
    List.foldl_nil, hx, List.filter_cons, List.filter_nil, Option.isNone_some]

/-- The one executing thread asks for the extension blocks that its first writes need (R198). -/
theorem issue_of_implicitNeed (hx : operandTrap (passed s g b i who) b g i.uses t = none)
    (hneed : 0 < implicitNeed (passed s g b i who) t i.uses) : issue i who body s =
      requestExt (passed s g b i who) [t] (implicitNeed (passed s g b i who) t i.uses) true := by
  unfold executing at hone
  unfold passed at hx hneed ⊢
  have hmax (n : Nat) : maxOf [n] = n := Nat.zero_max n
  simp only [issue, hg, hb, hone, hwf, hmode, Bool.not_true, Bool.false_eq_true, or_self, if_false, List.filter_cons,
    List.filter_nil, hx, Option.isNone_none, if_true, List.map_cons, List.map_nil, hmax, gt_iff_lt, hneed,
    List.foldl_cons, List.foldl_nil]

end

/-- Settles O51: these are laws of the issue, and every instruction of the table is one. -/
theorem refusedOperandsTrap : Obligations.RefusedOperandsTrap := by
  intro i who s g b hwho hg hb
  obtain ⟨body, hexec⟩ := issued_of_whoOf hwho
  refine ⟨fun hnone => ?_, fun hrej => ?_, fun t hone hwf hmode => ⟨fun x hx => ?_, fun hx n hn hpos => ?_⟩⟩
  · rw [hexec, issue_of_nobody hg hb body hnone]
  · rw [hexec, issue_rejected hrej]
  · rw [hexec, issue_of_operandTrap hg hb body hone hwf hmode hx]
  · subst hn
    rw [hexec, issue_of_implicitNeed hg hb body hone hwf hmode hx hpos]

/-! ### Trap entry -/

/-- An effect that leaves no further effects. -/
theorem effects_one {s r : State} {e : Eff} (h : runEff s e = (r, [])) : effects s [e] = r := by
  have hfuel : effFuel = 99998 + 1 + 1 := rfl
  rw [effects, hfuel, runEffs, h]
  rfl

theorem runEff_trap (s : State) (t : TRef) (x : Trap) (epc : BitVec 64) :
    runEff s (.trap t x epc) = enterTrap s t x epc := rfl

/-- The registers that a trap writes, in a thread that is waiting for nothing any more (R266). -/
def trapSaved (s : State) (t : TRef) (x : Trap) (epc : BitVec 64) : State :=
  let cause : Word := BitVec.zeroExtend 32 x.code ||| (if x.defer then 0x100 else 0) ||| (if inSecond s t then 0x200 else 0)
  (leaveBowait s t).modThread t fun y => { y with tepc := epc, tcause := cause, tval := x.tval, tval2 := x.tval2
                                                  wait := none, heldRun := none, together := 0 }

section
variable {s : State} {t : TRef} {x : Trap} {epc : BitVec 64} (halive : s.alive t = true)
include halive

theorem enterTrap_in_handler {first : BitVec 8} (hh : (s.thread t).handler = some first) : enterTrap s t x epc =
    haltThread (trapSaved s t x epc) t (some (trapRecord (trapSaved s t x epc) t first x.extra)) := by
  simp only [enterTrap, halive, hh, Bool.not_true, Bool.false_eq_true, if_false, trapSaved]

variable (hh : (s.thread t).handler = none)
include hh

theorem enterTrap_without_vector (hz : (s.thread t).tvec = 0) : enterTrap s t x epc =
    haltThread (trapSaved s t x epc) t (some (trapRecord (trapSaved s t x epc) t 0 x.extra)) := by
  simp only [enterTrap, halive, hh, hz, Bool.not_true, Bool.false_eq_true, if_false, if_true, trapSaved]

variable (hnz : (s.thread t).tvec ≠ 0)
include hnz

theorem enterTrap_beyond (hhigh : bits (s.thread t).tvec 63 57 ≠ 0) : enterTrap s t x epc =
    haltThread (trapSaved s t x epc) t (some (trapRecord (trapSaved s t x epc) t 0x0B x.extra)) := by
  simp only [enterTrap, halive, hh, hnz, hhigh, Bool.not_true, Bool.false_eq_true, if_false, ne_eq, not_false_eq_true,
    if_true, trapSaved]

variable (hlow : bits (s.thread t).tvec 63 57 = 0)
include hlow

theorem enterTrap_no_slot (hoff : slotOffset (s.thread t).tvec = false) : enterTrap s t x epc =
    haltThread (trapSaved s t x epc) t (some (trapRecord (trapSaved s t x epc) t 0x03 x.extra)) := by
  simp only [enterTrap, halive, hh, hnz, hlow, hoff, Bool.not_true, Bool.not_false, Bool.false_eq_true, if_false, ne_eq,
    not_true_eq_false, if_true, trapSaved]

variable (hoff : slotOffset (s.thread t).tvec = true)
include hoff

/-- With a handler address that is a slot, trap entry depends on what its line's fetch answers. -/
theorem enterTrap_at_slot : enterTrap s t x epc =
    match fetchLine (trapSaved s t x epc) t ((s.thread t).tvec.toNat / 64 * 64) with
    | (s2, .ok (.ok c)) =>
      if lineTgt c (slotOf (s.thread t).tvec.toNat) then
        (s2.modThread t fun y => { y with tcause := if y.e then y.tcause ||| 0x80000000 else y.tcause, e := true
                                          handler := some x.code, pc := y.tvec, entry := .none }, [])
      else haltThread s2 t (some (trapRecord s2 t 0x03 x.extra))
    | (s2, .ok (.error e)) =>
      haltThread s2 t (some (trapRecord s2 t (if lineTgt e.2 (slotOf (s.thread t).tvec.toNat) then 0x02 else 0x03) x.extra))
    | (_, .error _) =>
      ((trapSaved s t x epc).modThread t fun y =>
        { y with tcause := if y.e then y.tcause ||| 0x80000000 else y.tcause, e := true
                 handler := some x.code, pc := y.tvec, entry := .handler x.extra }, []) := by
  simp only [enterTrap, halive, hh, hnz, hlow, hoff, Bool.not_true, Bool.false_eq_true, if_false, ne_eq,
    not_true_eq_false, trapSaved] <;> rfl

end

/-- Settles O52: the cases of trap entry, in the order of its checks. -/
theorem trapEntry : Obligations.TrapEntry := by
  intro s t x epc halive th cause s1 halts
  refine ⟨fun first hh => enterTrap_in_handler halive hh, fun hh => ⟨fun hz => enterTrap_without_vector halive hh hz,
    fun hnz hhigh => enterTrap_beyond halive hh hnz hhigh, fun hnz hlow hoff => enterTrap_no_slot halive hh hnz hlow hoff,
    fun hnz hlow hoff => ⟨fun s2 c hline => ⟨fun htgt => ?_, fun htgt => ?_⟩, fun s2 bad c hline => ?_⟩⟩⟩
  all_goals have hentry := enterTrap_at_slot (x := x) (epc := epc) halive hh hnz hlow hoff
  · have hfetch : fetchLine (trapSaved s t x epc) t ((s.thread t).tvec.toNat / 64 * 64) = (s2, .ok (.ok c)) := hline
    simp only [hfetch] at hentry
    exact hentry.trans (if_neg (Bool.eq_false_iff.mp htgt))
  · have hfetch : fetchLine (trapSaved s t x epc) t ((s.thread t).tvec.toNat / 64 * 64) = (s2, .ok (.ok c)) := hline
    simp only [hfetch] at hentry
    exact effects_one (hentry.trans (if_pos htgt))
  · have hfetch : fetchLine (trapSaved s t x epc) t ((s.thread t).tvec.toNat / 64 * 64) = (s2, .ok (.error (bad, c))) :=
      hline
    simp only [hfetch] at hentry
    exact hentry

end Sys2Proof.Machine
end

section
/-! PROOFS. Control flow, waits, software traps, execution masks, seeds and extension blocks (R279-R292, R301, R326-R328,
R345-R347). An instruction of one executing thread is its lane function there, finished by its outcome. -/

namespace Sys2Proof.Machine

/-! ### One executing thread -/

/-- A thread's lane outcome, taken (R244, R263). -/
def finishWith (t : TRef) (r : State × Lane) : State := finishLane r.1 t r.2

@[simp] theorem finishWith_done (t : TRef) (s : State) : finishWith t (s, .done) = advance s t := rfl
@[simp] theorem finishWith_jump (t : TRef) (s : State) (pc : BitVec 64) : finishWith t (s, .jump pc) = setPc s t pc := rfl
@[simp] theorem finishWith_stay (t : TRef) (s : State) (w : Wait) : finishWith t (s, .stay w) = setWait s t w := rfl
@[simp] theorem finishWith_trap (t : TRef) (s : State) (x : Trap) : finishWith t (s, .trap x) = trapAt s t x := rfl
@[simp] theorem finishWith_moved (t : TRef) (s : State) : finishWith t (s, .moved) = s := rfl

section
variable {i : Instr} {who : Who} {s p : State} {g : Issue} {b : Block} {t : TRef}

/-- An instruction that runs lane by lane, in its one executing thread. -/
theorem exec_lane (h : IssuesTo i who s g b t p) {lane : State → Issue → Block → State → TRef → State × Lane}
    (he : exec i s = .next (issue i who (fun s g b ts => eachLane g (lane s g b) s ts) s)) :
    exec i s = .next (finishWith t (lane p g b p t)) := by
  rw [he, issue_to h]; rfl

/-- What a thread's lane function comes to is what the instruction does. -/
theorem exec_finish {o : Out} {r r' : State × Lane} (ho : o = .next (finishWith t r)) (hr : r = r') :
    o = .next (finishWith t r') := hr ▸ ho

/-- An instruction that runs on its group as a whole, with its one executing thread. -/
theorem exec_group (h : IssuesTo i who s g b t p) {body : State → Issue → Block → List TRef → State}
    (he : exec i s = .next (issue i who body s)) : exec i s = .next (body p g b [t]) := by
  rw [he, issue_one h]

/-- Such an instruction, when it is lane by lane on another state. -/
theorem eachLane_standing {p' : State} (h : standing p' g t = true) (lane : State → TRef → State × Lane) :
    eachLane g lane p' [t] = finishWith t (lane p' t) := eachLane_one g lane p' t h

end

/-! ### Moves to k, float mode and flags, seeds and masks -/

/-- In checked mode one value in every lane of the group raises no trap (R301, R328). -/
theorem not_differing {α : Type} [BEq α] [LawfulBEq α] {checked : Bool} {all : List TRef} {val : TRef → α} {v : α}
    (h : checked = true → ∀ t ∈ all, val t = v) : ¬(checked = true ∧ all.any (fun t => val t != v) = true) := by
  rintro ⟨hc, hany⟩
  obtain ⟨t, ht, hne⟩ := List.any_eq_true.mp hany
  simp [h hc t ht] at hne

theorem movk_writes {f : RForm} {s : State} {g : Issue} {b : Block} (h : Issues (.movk f) .normal s g b)
    (hv : b.checked = true → ∀ t ∈ wholeGroup (passed s g b (.movk f) .normal) g (executing s g b (.movk f) .normal),
      srcVal (passed s g b (.movk f) .normal) t f.h.typ f.a =
        srcVal (passed s g b (.movk f) .normal) (lowLane g) f.h.typ f.a) :
    exec (.movk f) s = .next ((executing s g b (.movk f) .normal).foldl advance
      (setKs (passed s g b (.movk f) .normal) g f.dst.num.toNat
        (toWords f.h.typ.regs (srcVal (passed s g b (.movk f) .normal) (lowLane g) f.h.typ f.a)))) :=
  congrArg Host.Outcome.next ((issue_eq h _).trans (if_neg (not_differing hv)))

theorem srseed_writes {f : RForm} {s : State} {g : Issue} {b : Block} (h : Issues (.srseed f) .normal s g b)
    (hv : b.checked = true → ∀ t ∈ wholeGroup (passed s g b (.srseed f) .normal) g (executing s g b (.srseed f) .normal),
      srcWord (passed s g b (.srseed f) .normal) t f.a = srcWord (passed s g b (.srseed f) .normal) (lowLane g) f.a) :
    let p := passed s g b (.srseed f) .normal
    let v := srcWord p (lowLane g) f.a
    let seed : Word := if v = 0 then 1 else v
    exec (.srseed f) s = .next ((executing s g b (.srseed f) .normal).foldl advance (
      if b.deterministic then p.modWave g.wave fun w => { w with sr := seed, seeded := some seed }
      else p.modCore b.core fun c => { c with seedNext := some seed })) :=
  congrArg Host.Outcome.next ((issue_eq h _).trans (if_neg (not_differing hv)))

/-- Every source is read before any mask changes; with one thread that is its own (R345). -/
theorem mskand_ands {f : RForm} {s p : State} {g : Issue} {b : Block} {t : TRef}
    (h : IssuesTo (.mskand f) .all s g b t p) : exec (.mskand f) s =
      .next (advance (p.modThread t fun x => { x with e := x.e && srcVal p t .b32 f.a != 0 }) t) := by
  rw [exec_group h rfl, eachLane_standing h.standing]
  simp [setE, State.modThread]

/-- Settles O8: the group's value is written once where its lanes agree; the rest is one lane function each. -/
theorem masksModesAndSeeds : Obligations.MasksModesAndSeeds :=
  ⟨fun _ _ _ _ => ⟨movk_writes, srseed_writes⟩,
   fun _ _ _ _ _ _ => ⟨fun h => exec_lane h rfl, fun h => exec_lane h rfl⟩,
   fun _ _ _ _ _ _ => ⟨fun h => exec_lane h rfl, mskand_ands, fun h => exec_lane h rfl, fun h => exec_lane h rfl⟩⟩

/-! ### Transfers -/

section
variable {p s1 : State} {t : TRef} {target : BitVec 64}

theorem transfer_beyond (h : bits target 63 57 ≠ 0) : transfer p t target = (p, .trap ⟨0x0B, target, 0, false, 0⟩) := by
  simp only [transfer, h, ne_eq, not_false_eq_true, if_true]

variable (hlow : bits target 63 57 = 0)
include hlow

theorem transfer_no_slot (h : slotOffset target = false) :
    transfer p t target = (p, .trap ⟨0x03, target, 0, false, 0⟩) := by
  simp only [transfer, hlow, h, ne_eq, not_true_eq_false, if_false, Bool.not_false, if_true]

variable {c : Code} (hslot : slotOffset target = true) (hfetch : fetchLine p t (target.toNat / 64 * 64) = (s1, .ok c))
include hslot hfetch

theorem transfer_unmarked (h : lineTgt c.raw (slotOf target.toNat) = false) :
    transfer p t target = (s1, .trap ⟨0x03, target, 0, false, 0⟩) := by
  simp only [transfer, hlow, hslot, hfetch, h, ne_eq, not_true_eq_false, if_false, Bool.not_true, Bool.false_eq_true]

theorem transfer_reaches (h : lineTgt c.raw (slotOf target.toNat) = true) :
    transfer p t target = (s1, .jump target) := by
  simp only [transfer, hlow, hslot, hfetch, h, ne_eq, not_true_eq_false, if_false, Bool.not_true, Bool.false_eq_true,
    if_true]

end

/-- What follows a transfer leaves its trap alone, so that the transfer's own checks decide. -/
theorem transfer_traps {p : State} {t : TRef} {target : BitVec 64} {o : Out} {after : State × Lane → State × Lane}
    (hafter : ∀ r x, after (r, .trap x) = (r, .trap x)) (ho : o = .next (finishWith t (after (transfer p t target)))) :
    (bits target 63 57 ≠ 0 → o = .next (trapAt p t ⟨0x0B, target, 0, false, 0⟩)) ∧
    (bits target 63 57 = 0 → slotOffset target = false → o = .next (trapAt p t ⟨0x03, target, 0, false, 0⟩)) ∧
    (∀ (s1 : State) (c : Code), bits target 63 57 = 0 → slotOffset target = true →
      fetchLine p t (target.toNat / 64 * 64) = (s1, .ok c) → lineTgt c.raw (slotOf target.toNat) = false →
      o = .next (trapAt s1 t ⟨0x03, target, 0, false, 0⟩)) := by
  refine ⟨fun h => ?_, fun hlow h => ?_, fun s1 c hlow hslot hfetch h => ?_⟩
  · rw [ho, transfer_beyond h, hafter, finishWith_trap]
  · rw [ho, transfer_no_slot hlow h, hafter, finishWith_trap]
  · rw [ho, transfer_unmarked hlow hslot hfetch h, hafter, finishWith_trap]

theorem linked_trap (g : Issue) (t : TRef) (k : Bool) (n : Nat) (r : State) (x : Trap) :
    linked g t k n (r, .trap x) = (r, .trap x) := rfl

theorem linked_jump (g : Issue) (t : TRef) (k : Bool) (n : Nat) (r : State) (target : BitVec 64) :
    linked g t k n (r, .jump target) = (writeLink r g t k n (nextPc g.pc), .jump target) := rfl

section
variable {s p : State} {g : Issue} {b : Block} {t : TRef}

theorem exec_bra {f : BForm} (h : IssuesTo (.bra f) .guarded s g b t p) :
    exec (.bra f) s = .next (finishWith t (transfer p t (branchTarget g.pc f))) := exec_lane h rfl

theorem exec_call {f : BForm} (h : IssuesTo (.call f) .guarded s g b t p) : exec (.call f) s =
    .next (finishWith t (linked g t f.lnkK f.lnk.toNat (transfer p t (branchTarget g.pc f)))) := exec_lane h rfl

theorem exec_ubra {f : BForm} (h : IssuesTo (.ubra f) .normal s g b t p) : exec (.ubra f) s =
    .next (finishWith t (if rawSrc p t .b32 f.cond ≠ 0 then transfer p t (branchTarget g.pc f) else (p, .done))) :=
  exec_lane h rfl

theorem exec_brx {f : RForm} (h : IssuesTo (.brx f) .guarded s g b t p) :
    exec (.brx f) s = .next (finishWith t (transfer p t (q (rawSrc p t .b64 f.a)))) := exec_lane h rfl

theorem exec_ret {f : RForm} (h : IssuesTo (.ret f) .guarded s g b t p) :
    exec (.ret f) s = .next (finishWith t (transfer p t (q (rawSrc p t .b64 f.a)))) := exec_lane h rfl

theorem exec_callsh {f : RForm} (h : IssuesTo (.callsh f) .normal s g b t p) : exec (.callsh f) s =
    .next (finishWith t (callTable p g t f (srcPair p t f.a + q (8 * srcVal p t .n32 f.b)))) :=
  exec_lane h rfl

/-- The entry of a call table that is read leads to the call it names, or to none (R283). -/
theorem callTable_of_read {f : RForm} {ea : BitVec 64} {s1 : State} {v : BitVec 1024 × Bool} (halign : bits ea 2 0 = 0)
    (hlow : bits ea 63 57 = 0) (hread : cacheRead p ⟨waveCore t.wave, .const, t, .default⟩ (threadReq p t 0 true)
      (ea.toNat / 128 * 128) (byteMask (ea.toNat % 128) 8) = (s1, .ok v)) :
    callTable p g t f ea =
      if q (lineGet v.1 (ea.toNat % 128) 8) = 0 then (s1, .trap ⟨0x03, 0, 0, false, 0⟩)
      else linked g t (f.dst.file == .k) f.dst.num.toNat (transfer s1 t (q (lineGet v.1 (ea.toNat % 128) 8))) := by
  simp only [callTable, halign, hlow, hread, ne_eq, not_true_eq_false, if_false]

theorem callTable_misaligned {f : RForm} {ea : BitVec 64} (h : bits ea 2 0 ≠ 0) :
    callTable p g t f ea = (p, .trap ⟨0x12, ea, 0, false, 0⟩) := by
  simp only [callTable, h, ne_eq, not_false_eq_true, if_true]

theorem callTable_beyond {f : RForm} {ea : BitVec 64} (halign : bits ea 2 0 = 0) (h : bits ea 63 57 ≠ 0) :
    callTable p g t f ea = (p, .trap ⟨0x0B, ea, 0, false, 0⟩) := by
  simp only [callTable, halign, h, ne_eq, not_true_eq_false, not_false_eq_true, if_false, if_true]

end

/-- Settles O9: each transfer is `transfer` to its target, with the link of a call. -/
theorem transfersReachTargets : Obligations.TransfersReachTargets := by
  refine ⟨fun s p s1 g b t target c hlow hslot hfetch htgt => ⟨fun f hf => ⟨fun h => ?_, fun h => ?_, fun h hc => ?_,
    fun h hc => ?_⟩, fun f hf => ⟨fun h => ?_, fun h => ?_⟩⟩, ?_⟩
  · rw [exec_bra h, hf, transfer_reaches hlow hslot hfetch htgt, finishWith_jump]
  · rw [exec_call h, hf, transfer_reaches hlow hslot hfetch htgt, linked_jump, finishWith_jump]
  · rw [exec_ubra h, if_pos hc, hf, transfer_reaches hlow hslot hfetch htgt, finishWith_jump]
  · rw [exec_ubra h, if_neg (not_not_intro hc), finishWith_done]
  · rw [exec_brx h, hf, transfer_reaches hlow hslot hfetch htgt, finishWith_jump]
  · rw [exec_ret h, hf, transfer_reaches hlow hslot hfetch htgt, finishWith_jump]
  · intro f s p s1 s2 g b t v c h
    dsimp only
    intro halign hea hread hnz hlow hslot hfetch htgt
    rw [exec_callsh h, callTable_of_read halign hea hread, if_neg hnz,
      transfer_reaches hlow hslot hfetch htgt, linked_jump, finishWith_jump]

/-- Settles O10: the checks of `transfer`, and of the table entry before it. -/
theorem transfersTrap : Obligations.TransfersTrap := by
  unfold Obligations.TransfersTrap
  intro traps s p g b t
  refine ⟨fun f => ⟨fun h => ?_, fun h => ?_, fun h hc => ?_⟩, fun f => ⟨fun h => ?_, fun h => ?_, fun h =>
    ⟨fun hmis => ?_, fun halign hhigh => ?_, fun s1 v halign hlow hread => ⟨fun hz => ?_, fun hnz => ?_⟩⟩⟩⟩
  · exact transfer_traps (after := id) (fun _ _ => rfl) (exec_bra h)
  · exact transfer_traps (linked_trap g t _ _) (exec_call h)
  · exact transfer_traps (after := id) (fun _ _ => rfl) (by rw [exec_ubra h, if_pos hc]; rfl)
  · exact transfer_traps (after := id) (fun _ _ => rfl) (exec_brx h)
  · exact transfer_traps (after := id) (fun _ _ => rfl) (exec_ret h)
  · rw [exec_callsh h, callTable_misaligned hmis, finishWith_trap]
  · rw [exec_callsh h, callTable_beyond halign hhigh, finishWith_trap]
  · rw [exec_callsh h, callTable_of_read halign hlow hread, if_pos hz, finishWith_trap]
  · exact transfer_traps (linked_trap g t _ _)
      (by rw [exec_callsh h, callTable_of_read halign hlow hread, if_neg hnz])

/-! ### Waits, ends and software traps -/

section
variable {s p : State} {g : Issue} {b : Block} {t : TRef} {f : IForm}

theorem exec_sleep (h : IssuesTo (.sleep f) .normal s g b t p) : exec (.sleep f) s =
    .next (finishWith t (p, if f.imm = 0 then .done else .stay (.cycles (f.imm.toNat + 1)))) := exec_lane h rfl

theorem exec_yield {f : RForm} (h : IssuesTo (.yield f) .normal s g b t p) : exec (.yield f) s =
    .next (setWait (p.modWave g.wave fun w => { w with bonus := 0, waited := 0 }) t (.cycles 17)) := by
  have hstand : standing (p.modWave g.wave fun w => { w with bonus := 0, waited := 0 }) g t = true := by
    rw [standing_modWave p g g.wave (fun w => { w with bonus := 0, waited := 0 }) fun _ => rfl]; exact h.standing
  rw [exec_group h rfl, eachLane_standing hstand, finishWith_stay]

theorem exec_join (h : IssuesTo (.join f) .normal s g b t p) : exec (.join f) s =
    .next (settle (setWait p t (.join (f.imm.toNat + 1))) b.id) := by
  rw [exec_group h rfl, eachLane_standing h.standing, finishWith_stay]

theorem exec_waitc (h : IssuesTo (.waitc f) .normal s g b t p) :
    exec (.waitc f) s = .next (finishWith t (waitcLane (.waitc f) f p t b)) := exec_lane h rfl

end

/-- The descriptors of a `waitc` (R40). -/
def waitcConds (f : IForm) (p : State) (t : TRef) : List (BitVec 64) :=
  (List.range (bits f.xf 2 1 + 1)).map fun j =>
    pair (kreg p t.wave (f.a.num.toNat + 2 * j)) (kreg p t.wave (f.a.num.toNat + 2 * j + 1))

/-- A `waitc` whose descriptors raise no trap completes when its mode is satisfied or its time-out is 0 (R42, R288). -/
theorem waitcLane_of_no_trap {f : IForm} {p : State} {t : TRef} {b : Block}
    (h : ∀ c ∈ waitcConds f p t, condTrap p (.waitc f) b c = none) : waitcLane (.waitc f) f p t b =
      if condMet (bits f.xf 2 1 + 1) (f.xf.getLsbD 0) (condBits p t b (waitcConds f p t)) then
        (finishWaitc p t b f.dst.num.toNat (waitcConds f p t) false, .done)
      else if f.imm = 0 then (finishWaitc p t b f.dst.num.toNat (waitcConds f p t) true, .done)
      else (p, .stay (.waitc f.dst.num.toNat (waitcConds f p t) (f.xf.getLsbD 0)
        (if f.imm = 0xFFFFFFFF then none else some (p.tick.toNat + f.imm.toNat)))) := by
  have hnone : (waitcConds f p t).filterMap (condTrap p (.waitc f) b) = [] :=
    List.filterMap_eq_nil_iff.mpr h
  unfold waitcConds at hnone ⊢
  simp only [waitcLane, hnone]

/-- Settles O11: one lane function each; `join` then counts its arrival, and `waitc` goes by its conditions. -/
theorem waitsEndsAndSoftwareTraps : Obligations.WaitsEndsAndSoftwareTraps := by
  refine ⟨⟨fun f s p g b t => ⟨fun h => exec_lane h rfl, fun h => exec_lane h rfl, exec_yield⟩,
    fun f s p g b t => ⟨fun h hz => ?_, fun h hnz => ?_, exec_join, fun h => exec_lane h rfl, fun h => exec_lane h rfl⟩⟩,
    fun f s p g b t h hnone => ⟨fun hmet => ?_, fun hmet hz => ?_, fun hmet hnz => ?_⟩⟩
  · rw [exec_sleep h, if_pos hz, finishWith_done]
  · rw [exec_sleep h, if_neg hnz, finishWith_stay]
  · exact exec_finish (exec_waitc h) ((waitcLane_of_no_trap hnone).trans (if_pos hmet))
  · exact exec_finish (exec_waitc h)
      ((waitcLane_of_no_trap hnone).trans ((if_neg (Bool.eq_false_iff.mp hmet)).trans (if_pos hz)))
  · exact exec_finish (exec_waitc h)
      ((waitcLane_of_no_trap hnone).trans ((if_neg (Bool.eq_false_iff.mp hmet)).trans (if_neg hnz)))

/-! ### Extension blocks and `wsync` -/

/-- Settles O12: `xacq` and `xrel` compare with the blocks that the wave holds, `wsync` with its mask. -/
theorem extensionBlocksAndWsync : Obligations.ExtensionBlocksAndWsync := by
  intro f s p g b t n
  refine ⟨fun h hn => ?_, fun h hn => ?_, fun h hn => ?_, fun h hn hb => ?_, fun h hn hb => ?_, fun h hm => ?_,
    fun h hm => ?_⟩
  · rw [exec_group h rfl, if_pos hn]; rfl
  · rw [exec_group h rfl, if_neg (Nat.not_le_of_lt hn)]
  · rw [exec_group h rfl, if_pos hn]; rfl
  · rw [exec_group h rfl, if_neg (Nat.not_le_of_lt hn), if_neg (Bool.eq_false_iff.mp hb)]; rfl
  · rw [exec_group h rfl, if_neg (Nat.not_le_of_lt hn), if_pos hb]; rfl
  · rw [exec_group h rfl, eachLane_standing h.standing, if_pos hm, finishWith_stay]
  · rw [exec_group h rfl, eachLane_standing h.standing, if_neg (Bool.eq_false_iff.mp hm), finishWith_trap]

end Sys2Proof.Machine
end

section
/-! PROOFS. Loads, stores, fences and cache control, and the traps of an access at its address (R56, R57, R348-R358). -/

namespace Sys2Proof.Machine

/-! ### Sampled instructions -/

theorem begun_done (s : State) (t : TRef) : finishWith t (begun t (s, .done)) = nextRegion s t := rfl

section
variable {i : Instr} {who : Who} {s p : State} {g : Issue} {b : Block} {t : TRef} {access : Nat}
  {place : State → TRef → BitVec 64 × Nat}

/-- A sampled instruction with one executing thread leaves what its meaning leaves there, counted by the sampler (R534). -/
theorem exec_sampled (h : IssuesTo i who s g b t p) {body : State → Issue → Block → List TRef → State}
    (he : exec i s = .next (issue i who (sampled access place body) s)) {r : State} (hr : body p g b [t] = r) :
    exec i s = .next (sampledAt access place p g b t r) := by
  rw [exec_group h he, ← hr]; rfl

/-- The same for a meaning that goes lane by lane, by its lane's outcome. -/
theorem exec_sampled_lane (h : IssuesTo i who s g b t p) {lane : Block → State → TRef → State × Lane}
    (he : exec i s = .next (issue i who (sampled access place fun s g b ts => eachLane g (lane b) s ts) s))
    {r : State × Lane} (hr : lane b p t = r) :
    exec i s = .next (sampledAt access place p g b t (finishWith t r)) :=
  exec_sampled h he (by rw [eachLane_standing h.standing, hr])

theorem exec_sampled_done (h : IssuesTo i who s g b t p) {lane : Block → State → TRef → State × Lane}
    (he : exec i s = .next (issue i who (sampled access place fun s g b ts => eachLane g (lane b) s ts) s))
    {r : State} (hr : lane b p t = (r, .done)) :
    exec i s = .next (sampledAt access place p g b t (advance r t)) := by
  rw [exec_sampled_lane h he hr, finishWith_done]

theorem exec_sampled_begun (h : IssuesTo i who s g b t p) {lane : Block → State → TRef → State × Lane}
    (he : exec i s = .next (issue i who (sampled access place fun s g b ts => eachLane g (lane b) s ts) s))
    {r : State} (hr : lane b p t = begun t (r, .done)) :
    exec i s = .next (sampledAt access place p g b t (nextRegion r t)) := by
  rw [exec_sampled_lane h he hr, begun_done]

theorem exec_sampled_trap (h : IssuesTo i who s g b t p) {lane : Block → State → TRef → State × Lane}
    (he : exec i s = .next (issue i who (sampled access place fun s g b ts => eachLane g (lane b) s ts) s))
    {r : State} {x : Trap} (hr : lane b p t = (r, .trap x)) :
    exec i s = .next (sampledAt access place p g b t (trapAt r t x)) := by
  rw [exec_sampled_lane h he hr, finishWith_trap]

end

/-! ### Address checks -/

section
variable {s : State} {b : Block} {t : TRef} {ea : BitVec 64} {align : Nat}

theorem genericTrap_beyond (h : bits ea 63 57 ≠ 0) : genericTrap ea align = some ⟨0x0B, 0, 0, false, 0⟩ := if_pos h

theorem genericTrap_misaligned (hlow : bits ea 63 57 = 0) (h : ea.toNat % align ≠ 0) :
    genericTrap ea align = some ⟨0x12, ea, 0, false, 0⟩ := (if_neg (not_not_intro hlow)).trans (if_pos h)

theorem genericTrap_none (hlow : bits ea 63 57 = 0) (h : ea.toNat % align = 0) : genericTrap ea align = none :=
  (if_neg (not_not_intro hlow)).trans (if_neg (not_not_intro h))

theorem localCheck_outside {ea : Word} {n : Nat} (h : localPlace s b ea n = none) :
    localCheck s b ea n align = .error ⟨0x15, 0, 0, false, 0⟩ := by
  rw [localCheck, h]; rfl

theorem localCheck_misaligned {ea : Word} {n : Nat} (h : localPlace s b ea n ≠ none) (ha : ea.toNat % align ≠ 0) :
    localCheck s b ea n align = .error ⟨0x12, ea.zeroExtend 64, 0, false, 0⟩ := by
  obtain ⟨a, hsome⟩ := Option.ne_none_iff_exists'.mp h
  rw [localCheck, hsome]; exact if_pos ha

theorem localCheck_ok {ea : Word} {n : Nat} {a : Place} (h : localPlace s b ea n = some a) (ha : ea.toNat % align = 0) :
    localCheck s b ea n align = .ok a := by
  rw [localCheck, h]; exact if_neg (not_not_intro ha)

theorem counterFull_of_lt {n : Nat} (h : n < 63) : counterFull n = false := decide_eq_false (Nat.not_le_of_lt h)

end

/-! ### Loads -/

section
variable {f : MForm} {read : State → TRef → Read} {s s1 p : State} {g : Issue} {b : Block} {t : TRef} {v trk : Nat}

/-- A load whose read answers leaves its value on the way to its registers (R352, R353). -/
theorem loadBody_one (hstand : standing p g t = true) (hroom : (p.thread t).ld < 63)
    (hread : read p t = (s1, .ok (v, trk))) : loadBody f read p g [t] = loadLeft f g t s1 v trk := by
  have hfull := counterFull_of_lt hroom
  by_cases hk : f.dat.file = .k
  · simp [loadBody, loadLeft, hk, hfull, hread]
  · unfold loadBody
    split
    · next hfile _ => exact absurd hfile hk
    · rw [eachLane_standing hstand]
      simp only [hfull, Bool.false_eq_true, if_false, hread, loadLeft, hk, finishWith_done]

/-- A load that ends otherwise ends its thread's step as its read says. -/
theorem loadBody_error {l : Lane} (hstand : standing p g t = true) (hroom : (p.thread t).ld < 63)
    (hread : read p t = (s1, .error l)) : loadBody f read p g [t] = finishWith t (s1, l) := by
  have hfull := counterFull_of_lt hroom
  unfold loadBody
  split
  · next ts t0 rest _ hts =>
    obtain ⟨rfl, rfl⟩ := List.cons.inj hts
    simp [hfull, hread, finishWith]
  · rw [eachLane_standing hstand]
    simp only [hfull, Bool.false_eq_true, if_false, hread]

end

section
variable {k : Cache} {f : MForm} {s p : State} {g : Issue} {b : Block} {t : TRef} {i : Instr}

theorem exec_load (hi : (i, k) ∈ [(Instr.ld f, Cache.l1), (.ldc f, .const), (.ldt f, .tile)]) :
    exec i s = .next (issue i .normal (sampled 0 (loadPlace k f) fun s g _ ts => loadBody f (pathRead k f) s g ts) s) := by
  simp only [List.mem_cons, Prod.mk.injEq, List.not_mem_nil, or_false] at hi
  obtain ⟨rfl, rfl⟩ | ⟨rfl, rfl⟩ | ⟨rfl, rfl⟩ := hi <;> rfl

theorem exec_ldl : exec (.ldl f) s = .next (issue (.ldl f) .normal (fun s g b ts => loadBody f (localRead b f) s g ts) s) :=
  rfl

/-- A load that passes its checks, reads its line and meets no race answers its bytes, after its acquire (R352). -/
theorem pathRead_reads {s1 s2 : State} {v : BitVec 1024} {hit : Bool} {ea : BitVec 64} {r : Req} {line n : Nat}
    {m : BitVec 128} (hea : genericAddr p t f = ea) (hr : threadReq p t 0 true = r) (hline : ea.toNat / 128 * 128 = line)
    (hn : accSize f = n) (hm : byteMask (ea.toNat % 128) n = m) (hlow : bits ea 63 57 = 0) (hal : ea.toNat % n = 0)
    (hread : cacheRead (if isAcquire f.ord && Scope.wide f.scp then dropClean p (waveCore t.wave) r.asid r.agen line else p)
      ⟨waveCore t.wave, k, t, f.ret⟩ r line m = (s1, .ok (v, hit)))
    (hrace : raceOn k s1 t false (if isAcquire f.ord then some f.scp else none) false line m = (s2, .ok ())) :
    pathRead k f p t =
      (if isAcquire f.ord then
          doAcquire s2 t f.scp (relRead s2 t r.asid r.agen line m (ownBytes s2 t k r.asid r.agen line)) else s2,
        .ok (lineGet v (ea.toNat % 128) n, if hit then 4 else cacheTracker k)) := by
  subst hea hr hline hn hm
  simp only [pathRead, genericTrap_none hlow hal, hread, hrace]

theorem pathRead_traps {x : Trap} (h : genericTrap (genericAddr p t f) (accSize f) = some x) :
    pathRead k f p t = (p, .error (.trap x)) := by
  simp only [pathRead, h]

theorem localRead_reads {a : Place} (hplace : localPlace p b (localAddr p t f) (accSize f) = some a)
    (hal : (localAddr p t f).toNat % accSize f = 0) : localRead b f p t =
      (if isAcquire f.ord then scratchAcquire p t f.scp else p, .ok (placeRead p t a (accSize f), 4)) := by
  simp only [localRead, localCheck_ok hplace hal]

theorem localRead_traps {x : Trap} (h : localCheck p b (localAddr p t f) (accSize f) (accSize f) = .error x) :
    localRead b f p t = (p, .error (.trap x)) := by
  simp only [localRead, h]

end

/-- Settles O13: the read of each path, then what a load leaves. -/
theorem loadsRun : Obligations.LoadsRun := by
  refine ⟨?_, ?_⟩
  · intro f s p s1 s2 g b t i k v hit hi h hroom ea n line m r acq hlow hal hread hrace
    exact exec_sampled h (exec_load hi)
      (loadBody_one h.standing hroom (pathRead_reads rfl rfl rfl rfl rfl hlow hal hread hrace))
  · intro f s p g b t a h hroom n hplace hal
    rw [exec_group h exec_ldl, loadBody_one h.standing hroom (localRead_reads hplace hal)]

/-! ### Stores -/

section
variable {k : Cache} {f : MForm} {s p : State} {g : Issue} {b : Block} {t : TRef} {i : Instr}

theorem exec_store (hi : (i, k) ∈ [(Instr.st f, Cache.l1), (.stt f, .tile)]) :
    exec i s = .next (issue i .normal (sampled 1 (storePlace k f) fun s g _ ts => eachLane g (pathWrite k f) s ts) s) := by
  simp only [List.mem_cons, Prod.mk.injEq, List.not_mem_nil, or_false] at hi
  obtain ⟨rfl, rfl⟩ | ⟨rfl, rfl⟩ := hi <;> rfl

theorem pathWrite_traps {x : Trap} (hroom : (p.thread t).st < 63)
    (h : genericTrap (genericAddr p t f) (accSize f) = some x) : pathWrite k f p t = (p, .trap x) := by
  simp [pathWrite, counterFull_of_lt hroom, h]

theorem pathWrite_plain (hroom : (p.thread t).st < 63) (h : genericTrap (genericAddr p t f) (accSize f) = none)
    (hrel : isRelease f.ord = false) : pathWrite k f p t =
      plainStore k p t (genericAddr p t f).toNat (accSize f) (storeVal p t f) f.ret := by
  simp [pathWrite, counterFull_of_lt hroom, h, hrel]

theorem pathWrite_release (hroom : (p.thread t).st < 63) (h : genericTrap (genericAddr p t f) (accSize f) = none)
    (hrel : isRelease f.ord = true) : pathWrite k f p t =
      releaseStore k p t (genericAddr p t f).toNat (accSize f) (storeVal p t f) f.ret f.scp := by
  simp [pathWrite, counterFull_of_lt hroom, h, hrel]

/-- A plain store that its cache takes is counted on ST (R38, R62, R107). -/
theorem plainStore_done {ea n v line : Nat} {ret : Ret} {r : Req} {m : BitVec 128} {away : Bool} {s1 s2 s3 : State}
    (hr : threadReq p t 1 true = r) (hline : ea / 128 * 128 = line) (hm : byteMask (ea % 128) n = m)
    (haway : leavesCore p ⟨waveCore t.wave, k, t, ret⟩ r line = away)
    (htouch : storeTouch p (waveCore t.wave) k t r line = (s1, .ok ()))
    (hwrite : cacheWrite s1 ⟨waveCore t.wave, k, t, ret⟩ r line m (linePut (ea % 128) v) = (s2, .ok ()))
    (hrace : raceOn k s2 t true none false line m = (s3, .ok ())) :
    plainStore k p t ea n v ret = (pendStore s3 t (if away then 5 else 4) away, .done) := by
  subst hr hline hm haway
  simp only [plainStore, Mem.bind, htouch, hwrite, hrace]

/-- A wide releasing store is performed at its home bank (R80). -/
theorem releaseStore_wide {ea n v line : Nat} {ret : Ret} {scp : Scope} {m : BitVec 128} {s2 s3 : State} {rel : Option RelTag}
    (hwide : Scope.wide scp = true) (hrel : doRelease (endRegion p t) t scp = (s2, .ok rel))
    (hline : ea / 128 * 128 = line) (hm : byteMask (ea % 128) n = m)
    (hstore : homeStore k s2 t (threadReq s2 t 1 false) line m (linePut (ea % 128) v) ret rel = (s3, .ok ())) :
    releaseStore k p t ea n v ret scp = begun t (pendStore s3 t 4 false, .done) := by
  subst hline hm
  simp only [releaseStore, hrel, hwide, if_true, hstore]

/-- A narrow one is performed in its core's cache, once the line has room there. -/
theorem releaseStore_narrow {ea n v line : Nat} {ret : Ret} {scp : Scope} {m : BitVec 128} {r : Req} {s1 s2 s3 : State}
    {rel : Option RelTag} {c : State × Bool} (hwide : Scope.wide scp = false)
    (hrel : doRelease (endRegion p t) t scp = (s1, .ok rel)) (hr : threadReq s1 t 1 false = r)
    (hline : ea / 128 * 128 = line) (hm : byteMask (ea % 128) n = m)
    (htouch : storeTouch s1 (waveCore t.wave) k t r line = (s2, .ok ()))
    (hroom : storeRoom s2 ⟨waveCore t.wave, k, t, ret⟩ r line = true)
    (hrace : raceOn k s2 t true none false line m = (s3, .ok ()))
    (hc : cacheStore s3 ⟨waveCore t.wave, k, t, ret⟩ r.part r line m (linePut (ea % 128) v) = c) :
    releaseStore k p t ea n v ret scp = begun t (pendStore c.1 t (if c.2 then 5 else 4) c.2, .done) := by
  subst hr hline hm hc
  simp only [releaseStore, hrel, hwide, Bool.false_eq_true, if_false, Mem.bind, htouch, hroom, if_true, hrace]

theorem exec_stl : exec (.stl f) s =
    .next (issue (.stl f) .normal (fun s g b ts => eachLane g (localWrite b f) s ts) s) := rfl

theorem localWrite_traps {x : Trap} (hroom : (p.thread t).st < 63)
    (h : localCheck p b (localAddr p t f) (accSize f) (accSize f) = .error x) : localWrite b f p t = (p, .trap x) := by
  simp only [localWrite, counterFull_of_lt hroom, h, Bool.false_eq_true, if_false]

theorem localWrite_writes {a : Place} {s2 s3 : State} {rel : Option RelTag} (hroom : (p.thread t).st < 63)
    (hplace : localPlace p b (localAddr p t f) (accSize f) = some a) (hal : (localAddr p t f).toNat % accSize f = 0)
    (hrel : (if isRelease f.ord then doRelease (endRegion p t) t f.scp else (endRegion p t, .ok none)) = (s2, .ok rel))
    (hwrite : placeWrite s2 t a (toBytes (accSize f) (storeVal p t f)) = (s3, none)) :
    localWrite b f p t = begun t (pendStore s3 t 7 false, .done) := by
  simp only [localWrite, counterFull_of_lt hroom, Bool.false_eq_true, if_false, localCheck_ok hplace hal, hrel, hwrite]

end

/-- Settles O14: the store of each path by its ordering, and the scratch store. -/
theorem storesRun : Obligations.StoresRun := by
  refine ⟨?_, ?_⟩
  · intro f s p g b t i k hi h hroom ea n line m val left hlow hal
    have hcheck : genericTrap (genericAddr p t f) (accSize f) = none := genericTrap_none hlow hal
    refine ⟨fun s1 s2 s3 hrel => ?_, fun s2 s3 rel hrel hwide hdone hstore => ?_, fun s1 s2 s3 rel hrel hwide hdone => ?_⟩
    · intro r away htouch hwrite hrace
      exact exec_sampled_done h (exec_store hi) (lane := fun _ => pathWrite k f)
        ((pathWrite_plain hroom hcheck hrel).trans (plainStore_done rfl rfl rfl rfl htouch hwrite hrace))
    · exact exec_sampled_begun h (exec_store hi) (lane := fun _ => pathWrite k f)
        ((pathWrite_release hroom hcheck hrel).trans (releaseStore_wide hwide hdone rfl rfl hstore))
    · intro r path htouch hline hrace c
      exact exec_sampled_begun h (exec_store hi) (lane := fun _ => pathWrite k f)
        ((pathWrite_release hroom hcheck hrel).trans
          (releaseStore_narrow hwide hdone rfl rfl rfl htouch hline hrace rfl))
  · intro f s p s2 s3 g b t a rel h hroom n hplace hal hrel hwrite
    rw [exec_lane h exec_stl, localWrite_writes hroom hplace hal hrel hwrite, begun_done]

end Sys2Proof.Machine
end

section
/-! PROOFS. The traps of an access at its address, fences and cache control, atomics and reductions (R56, R57, R351,
R354-R367). -/

namespace Sys2Proof.Machine

/-! ### Returning atomics -/

section
variable {f : MForm} {upd : State → TRef → Nat → Nat} {s p : State} {g : Issue} {b : Block} {t : TRef} {i : Instr}

theorem exec_returning (hi : (i, upd) ∈ [(Instr.atom f, atomUpd f), (.cas f, casUpd f)]) : exec i s =
    .next (issue i .normal (sampled 2 (bankPlace (atomSize f) f) (globalReturning f upd)) s) := by
  simp only [List.mem_cons, Prod.mk.injEq, List.not_mem_nil, or_false] at hi
  obtain ⟨rfl, rfl⟩ | ⟨rfl, rfl⟩ := hi <;> rfl

theorem exec_localReturning (hi : (i, upd) ∈ [(Instr.atoml f, atomUpd f), (.casl f, casUpd f)]) : exec i s =
    .next (issue i .normal
      (sampled 2 (localSample f) fun s g b ts => eachLane g (localReturning b f upd) s ts) s) := by
  simp only [List.mem_cons, Prod.mk.injEq, List.not_mem_nil, or_false] at hi
  obtain ⟨rfl, rfl⟩ | ⟨rfl, rfl⟩ := hi <;> rfl

theorem globalReturning_deterministic (hdet : b.deterministic = true) :
    globalReturning f upd p g b [t] = trapAt p t ⟨0x16, (p.thread t).pc, 0, false, 0⟩ := if_pos hdet

theorem globalReturning_one (hstand : standing p g t = true) (hdet : b.deterministic = false) :
    globalReturning f upd p g b [t] = finishWith t (returning f upd p t) :=
  (if_neg (Bool.eq_false_iff.mp hdet)).trans (eachLane_standing hstand _)

theorem returning_traps {x : Trap} (h : genericTrap (genericAddr p t f) (atomSize f) = some x) :
    returning f upd p t = (p, .trap x) := by
  simp only [returning, h]

theorem returning_returns {s1 : State} {v : BitVec 1024} {ea : BitVec 64} {o n : Nat} (hea : genericAddr p t f = ea)
    (ho : ea.toNat % 128 = o) (hn : atomSize f = n) (hroom : (p.thread t).ld < 63) (hlow : bits ea 63 57 = 0)
    (hal : ea.toNat % n = 0)
    (hop : homeOp (endRegion p t) t f (ea.toNat / 128 * 128)
      (fun v => (byteMask o n, linePut o (upd p t (lineGet v o n)))) = (s1, .ok v)) :
    returning f upd p t = returnOld s1 t f (lineGet v o n) := by
  subst hea ho hn
  simp only [returning, genericTrap_none hlow hal, counterFull_of_lt hroom, Bool.false_eq_true, if_false, hop]

theorem localReturning_traps {x : Trap}
    (h : localCheck p b (localAddr p t f) (atomSize f) (atomSize f) = .error x) :
    localReturning b f upd p t = (p, .trap x) := by
  simp only [localReturning, h]

theorem localReturning_returns {a : Place} {s2 s3 : State} {rel : Option RelTag} (hroom : (p.thread t).ld < 63)
    (hplace : localPlace p b (localAddr p t f) (atomSize f) = some a) (hal : (localAddr p t f).toNat % atomSize f = 0)
    (hrel : (if isRelease f.ord then doRelease (endRegion p t) t f.scp else (endRegion p t, .ok none)) = (s2, .ok rel))
    (hwrite : placeWrite s2 t a (toBytes (atomSize f) (upd p t (placeRead s2 t a (atomSize f)))) = (s3, none)) :
    localReturning b f upd p t = returnOld (if isAcquire f.ord then scratchAcquire s3 t f.scp else s3) t f
      (placeRead s2 t a (atomSize f)) := by
  simp only [localReturning, localCheck_ok hplace hal, counterFull_of_lt hroom, Bool.false_eq_true, if_false, hrel, hwrite]

/-- A returning atomic completes as a load of its old value (R38, R361). -/
theorem finishWith_returnOld (s : State) (v : Nat) : finishWith t (returnOld s t f v) =
    let regs := ((List.range f.h.typ.regs).zip (toWords f.h.typ.regs v)).map fun e => (f.dat.num.toNat + e.1, e.2)
    nextRegion (pendLoad (claimRegs s t false (regs.map Prod.fst)) t 4 0 false regs) t := rfl

end

/-- Settles O17: the lane functions of the two paths, and deterministic mode's trap. -/
theorem atomicsRun : Obligations.AtomicsRun := by
  refine ⟨?_, ?_⟩
  · intro f s p g b t i upd hi h left
    refine ⟨fun hdet => ?_, ?_⟩
    · exact exec_sampled h (exec_returning hi) (globalReturning_deterministic hdet)
    · intro s1 v hdet hroom ea o n hlow hal hop regs
      exact exec_sampled h (exec_returning hi) (by
        rw [globalReturning_one h.standing hdet, returning_returns rfl rfl rfl hroom hlow hal hop, finishWith_returnOld])
  · intro f s p s2 s3 g b t i upd a rel hi h hroom n hplace hal hrel old hwrite s4 regs
    exact exec_sampled h (exec_localReturning hi) (by
      rw [eachLane_standing h.standing, localReturning_returns hroom hplace hal hrel hwrite, finishWith_returnOld])

/-! ### Reductions -/

section
variable {f : MForm} {s p : State} {g : Issue} {b : Block} {t : TRef}

theorem redTrap_none {align : Nat} (hlow : bits (genericAddr p t f) 63 57 = 0)
    (hal : (genericAddr p t f).toNat % align = 0) : redTrap align f p t = none := genericTrap_none hlow hal

/-- A reduction outside deterministic mode runs lane by lane. -/
theorem exec_reduction_plain {i : Instr} {n : Nat} {lane : State → TRef → State × Lane}
    {buffered : State → Issue → Block → List TRef → State} (h : IssuesTo i .normal s g b t p)
    (hdet : b.deterministic = false)
    (he : exec i s = .next (issue i .normal (sampled 2 (bankPlace n f) fun s g b ts =>
      if b.deterministic then buffered s g b ts else eachLane g lane s ts) s)) :
    exec i s = .next (sampledAt 2 (bankPlace n f) p g b t (finishWith t (lane p t))) :=
  exec_sampled h he ((if_neg (Bool.eq_false_iff.mp hdet)).trans (eachLane_standing h.standing lane))

/-- A reduction of deterministic mode enters the block's buffer (R366). -/
theorem exec_reduction_buffered {i : Instr} {n : Nat} {trap : State → TRef → Option Trap}
    {vals : State → TRef → List (Nat × BitVec 64) × Nat} {plain : State → Issue → Block → List TRef → State}
    (h : IssuesTo i .normal s g b t p) (hdet : b.deterministic = true)
    (he : exec i s = .next (issue i .normal (sampled 2 (bankPlace n f) fun s g b ts =>
      if b.deterministic then bufferAll f trap vals s g b ts else plain s g b ts) s)) :
    exec i s = .next (sampledAt 2 (bankPlace n f) p g b t (bufferAll f trap vals p g b [t])) :=
  exec_sampled h he (if_pos hdet)

theorem exec_red : exec (.red f) s = .next (issue (.red f) .normal (sampled 2 (bankPlace (atomSize f) f) fun s g b ts =>
    if b.deterministic then
      bufferAll f (redTrap (atomSize f) f) (fun s t => ([(0, q (datVal s t f 0 f.h.typ.regs))], 0)) s g b ts
    else eachLane g (redLane f) s ts) s) := rfl

theorem exec_bupd : exec (.bupd f) s = .next (issue (.bupd f) .normal (sampled 2 (bankPlace 128 f) fun s g b ts =>
    if b.deterministic then
      bufferAll f (bupdTrap (.bupd f) f) (fun s t => ([(0, q (datVal s t f 0 f.h.typ.regs))], bupdCount f s t)) s g b ts
    else eachLane g (bupdLane f) s ts) s) := rfl

theorem exec_bred : exec (.bred f) s = .next (issue (.bred f) .normal (sampled 2 (bankPlace 128 f) fun s g b ts =>
    if b.deterministic then
      bufferAll f (redTrap 128 f) (fun s t => ([(bredOffset f t.lane, q (datVal s t f 0 f.h.typ.regs))], 0)) s g b ts
    else bredGroup f s g ts) s) := rfl

theorem redLane_traps {x : Trap} (h : genericTrap (genericAddr p t f) (atomSize f) = some x) :
    redLane f p t = (p, .trap x) := by
  simp only [redLane, redTrap, h]

theorem redLane_updates {s1 : State} {v : BitVec 1024} (hroom : (p.thread t).st < 63)
    (hlow : bits (genericAddr p t f) 63 57 = 0) (hal : (genericAddr p t f).toNat % atomSize f = 0)
    (hop : homeOp (endRegion p t) t f ((genericAddr p t f).toNat / 128 * 128) (fun v =>
      (byteMask ((genericAddr p t f).toNat % 128) (atomSize f), linePut ((genericAddr p t f).toNat % 128)
        (atomUpd f p t (lineGet v ((genericAddr p t f).toNat % 128) (atomSize f))))) = (s1, .ok v)) :
    redLane f p t = begun t (pendStore s1 t 6 false, .done) := by
  simp only [redLane, redTrap_none hlow hal, counterFull_of_lt hroom, Bool.false_eq_true, if_false, hop]

theorem bredGroup_traps {x : Trap} (h : genericTrap (genericAddr p t f) 128 = some x) :
    bredGroup f p g [t] = trapAt p t x := by
  simp only [bredGroup, redTrap, h, List.foldl_cons, List.foldl_nil]

theorem bredGroup_updates {s1 : State} {v : BitVec 1024} (hroom : (p.thread t).st < 63)
    (hlow : bits (genericAddr p t f) 63 57 = 0) (hal : (genericAddr p t f).toNat % 128 = 0)
    (hop : homeOp (endRegion p t) t f (genericAddr p t f).toNat (fun v =>
      lineOp f.xf f.h.typ v [(bredOffset f t.lane, datVal p t f 0 f.h.typ.regs)]) = (s1, .ok v))
    (hstand : standing s1 g t = true) :
    bredGroup f p g [t] = nextRegion (pendStore s1 t 6 false) t := by
  have hfull := counterFull_of_lt hroom
  simp only [bredGroup, redTrap_none hlow hal, List.any_cons, List.any_nil, hfull, Bool.or_self, Bool.false_eq_true,
    if_false, List.map_cons, List.map_nil, List.foldl_cons, List.foldl_nil, hop]
  rw [eachLane_standing hstand, begun_done]

theorem bupdTrap_address {x : Trap} (h : genericTrap (genericAddr p t f) 128 = some x) :
    bupdTrap (.bupd f) f p t = some x := by
  simp only [bupdTrap, redTrap, h]

section
variable (hlow : bits (genericAddr p t f) 63 57 = 0) (hal : (genericAddr p t f).toNat % 128 = 0)
include hlow hal

/-- A count of lines outside 1 to 65,536 is no `bupd` (R364). -/
theorem bupdTrap_count (h : bupdCount f p t = 0 ∨ 65536 < bupdCount f p t) :
    bupdTrap (.bupd f) f p t = some (illegal (.bupd f)) := by
  have hout : ¬(1 ≤ bupdCount f p t ∧ bupdCount f p t ≤ 65536) := by omega
  simp only [bupdTrap, redTrap_none hlow hal, hout, if_false]

theorem bupdTrap_none (h1 : 1 ≤ bupdCount f p t) (h2 : bupdCount f p t ≤ 65536) : bupdTrap (.bupd f) f p t = none := by
  simp only [bupdTrap, redTrap_none hlow hal, h1, h2, and_self, if_true]

end

theorem bupdLane_traps {x : Trap} (h : bupdTrap (.bupd f) f p t = some x) : bupdLane f p t = (p, .trap x) := by
  simp only [bupdLane, h]

/-- How many lines of its `bupd` a thread has performed before a fault (R364). -/
def bupdPast (p : State) (t : TRef) : Nat :=
  match (p.thread t).bupdAt with | some x => if x.1 = (p.thread t).pc then x.2 else 0 | none => 0

/-- The release of a `bupd` that has marked itself in its thread. -/
def bupdReleased (f : MForm) (p : State) (t : TRef) : State × Except Stop (Option RelTag) :=
  let s1 := (endRegion p t).modThread t fun x => { x with bupdAt := some ((p.thread t).pc, bupdPast p t) }
  if isRelease f.ord then doRelease s1 t f.scp else (s1, .ok none)

/-- A `bupd` from its release on. -/
def bupdFrom (f : MForm) (p : State) (t : TRef) (r : State × Except Stop (Option RelTag)) : State × Lane :=
  let (s2, rel) := r
  match rel with
  | .error x => stopLane s2 t x
  | .ok tag =>
    match bupdLines f (datVal p t f 0 f.h.typ.regs) t tag (bupdCount f p t - bupdPast p t)
      ((genericAddr p t f).toNat + 128 * bupdPast p t) s2 with
    | (s3, .error x) => stopLane s3 t x
    | (s3, .ok _) => begun t (pendStore (s3.modThread t fun x => { x with bupdAt := none }) t 6 false, .done)

theorem bupdLane_eq : bupdLane f p t =
    match bupdTrap (.bupd f) f p t with
    | some x => (p, .trap x)
    | none => if counterFull (p.thread t).st then (p, .stay (.counterRoom 1)) else bupdFrom f p t (bupdReleased f p t) :=
  rfl

/-- With a good count and its release complete it goes through its lines. -/
theorem bupdLane_from (hroom : (p.thread t).st < 63) (hnone : bupdTrap (.bupd f) f p t = none) :
    bupdLane f p t = bupdFrom f p t (bupdReleased f p t) := by
  simp only [bupdLane_eq, hnone, counterFull_of_lt hroom, Bool.false_eq_true, if_false]

section
variable {s2 s3 : State} {rel : Option RelTag}

theorem bupdFrom_done (h : bupdLines f (datVal p t f 0 f.h.typ.regs) t rel (bupdCount f p t - bupdPast p t)
      ((genericAddr p t f).toNat + 128 * bupdPast p t) s2 = (s3, .ok ())) :
    bupdFrom f p t (s2, .ok rel) =
      begun t (pendStore (s3.modThread t fun x => { x with bupdAt := none }) t 6 false, .done) := by
  simp only [bupdFrom, h]

theorem bupdFrom_stop {x : Stop} (h : bupdLines f (datVal p t f 0 f.h.typ.regs) t rel (bupdCount f p t - bupdPast p t)
      ((genericAddr p t f).toNat + 128 * bupdPast p t) s2 = (s3, .error x)) :
    bupdFrom f p t (s2, .ok rel) = stopLane s3 t x := by
  simp only [bupdFrom, h]

end

/-! ### The buffer of deterministic mode -/

section
variable {trap : State → TRef → Option Trap} {vals : State → TRef → List (Nat × BitVec 64) × Nat}

theorem bufferAll_traps {x : Trap} (hstand : standing p g t = true) (h : trap p t = some x) :
    bufferAll f trap vals p g b [t] = trapAt p t x := by
  unfold bufferAll
  rw [eachLane_standing hstand]
  simp only [h, finishWith_trap]

variable (hstand : standing p g t = true) (hroom : (p.thread t).st < 63) (hnone : trap p t = none)
include hstand hroom hnone

/-- A buffer of 512 entries takes no more (R366). -/
theorem bufferAll_spills (h : 512 ≤ b.detBuf.length) :
    bufferAll f trap vals p g b [t] = trapAt p t ⟨0x16, g.pc, 2, false, 0⟩ := by
  have hspill : 512 < b.detBuf.length + 1 := Nat.lt_succ_of_le h
  unfold bufferAll
  rw [eachLane_standing hstand]
  simp [hnone, counterFull_of_lt hroom, hspill]
  rfl

theorem bufferAll_enters (h : b.detBuf.length < 512) : bufferAll f trap vals p g b [t] =
    let s1 := endRegion p t
    let e : BufAtomic := { t := t, order := s1.seq, pc := g.pc, va := genericAddr p t f, op := f.xf, ty := f.h.typ, ord := f.ord
                           scp := f.scp, vals := (vals p t).1, lines := (vals p t).2, ret := f.ret, fate := none }
    let s2 := { s1 with seq := s1.seq + 1 }.modBlock b.id fun x => { x with detBuf := x.detBuf ++ [e] }
    nextRegion (pendStore s2 t 6 true) t := by
  have hspill : ¬ 512 < b.detBuf.length + 1 := by omega
  unfold bufferAll
  rw [eachLane_standing hstand]
  simp [hnone, counterFull_of_lt hroom, hspill, State.tickSeq, begun_done]

end

/-- `aflush` of deterministic mode is a collective of the block, outside it a wait for the thread's own (R367). -/
theorem exec_aflush {r : RForm} (h : IssuesTo (.aflush r) .normal s g b t p) : exec (.aflush r) s = .next (
    if b.deterministic then settle (setWait (endRegion p t) t .aflush) b.id
    else if p.stores.any fun x => x.t == t && x.tracker == 6 && !x.fin then setWait (endRegion p t) t .recheck
    else nextRegion (endRegion p t) t) := by
  rw [exec_group h rfl]
  by_cases hdet : b.deterministic = true
  · rw [if_pos hdet, if_pos hdet, eachLane_standing h.standing, finishWith_stay]
  · rw [if_neg hdet, if_neg hdet, eachLane_standing h.standing, apply_ite (finishWith t), finishWith_stay, begun_done]

end

/-- Settles O18: outside deterministic mode each reduction's own update, in it the block's buffer; `aflush` by mode. -/
theorem reductionsRun : Obligations.ReductionsRun := by
  refine ⟨fun s p g b t hdet => ⟨?_, fun f h => ⟨fun hleft => ?_, fun hnone => ?_⟩⟩,
    fun s p g b t hdet => ⟨?_, fun f h => ?_⟩⟩
  · intro f hroom ea o n left hlow
    refine ⟨fun s1 v h hal hop => ?_, fun s1 v h hal hop hstand => ?_, fun h hal => ⟨fun hcount => ?_, ?_⟩⟩
    · exact (exec_reduction_plain h hdet exec_red).trans (by rw [redLane_updates hroom hlow hal hop, begun_done])
    · exact exec_sampled h exec_bred
        ((if_neg (Bool.eq_false_iff.mp hdet)).trans (bredGroup_updates hroom hlow hal hop hstand))
    · exact (exec_reduction_plain h hdet exec_bupd).trans
        (by rw [bupdLane_traps (bupdTrap_count hlow hal hcount), finishWith_trap])
    · intro s2 rel h1 h2 pc past s1 hrel lines
      have hreleased : bupdReleased f p t = (s2, .ok rel) := hrel
      have hrun : exec (.bupd f) s = left 128 (finishWith t (bupdFrom f p t (s2, .ok rel))) :=
        (exec_reduction_plain h hdet exec_bupd).trans
          (by rw [bupdLane_from hroom (bupdTrap_none hlow hal h1 h2), hreleased])
      refine ⟨fun s3 hlines => ?_, fun s3 x hlines => ?_, fun s3 m hlines => ?_⟩
      · rw [hrun, bupdFrom_done hlines, begun_done]
      · rw [hrun, bupdFrom_stop hlines]; rfl
      · rw [hrun, bupdFrom_stop hlines]; rfl
  · rw [exec_aflush h, if_neg (Bool.eq_false_iff.mp hdet), if_pos hleft]
  · rw [exec_aflush h, if_neg (Bool.eq_false_iff.mp hdet), if_neg (Bool.eq_false_iff.mp hnone)]
  · intro f i vals n align hi h hroom hcount ea left hlow hal
    simp only [List.mem_cons, Prod.mk.injEq, List.not_mem_nil, or_false] at hi
    obtain ⟨rfl, rfl, rfl, rfl⟩ | ⟨rfl, rfl, rfl, rfl⟩ | ⟨rfl, rfl, rfl, rfl⟩ := hi
    · have hnone := redTrap_none hlow hal
      exact ⟨fun hfull => (exec_reduction_buffered h hdet exec_red).trans (by
          rw [bufferAll_spills h.standing hroom hnone hfull]),
        fun hfull => (exec_reduction_buffered h hdet exec_red).trans (by
          rw [bufferAll_enters h.standing hroom hnone hfull])⟩
    · obtain ⟨h1, h2⟩ := hcount rfl
      have hnone := bupdTrap_none hlow hal h1 h2
      exact ⟨fun hfull => (exec_reduction_buffered h hdet exec_bupd).trans (by
          rw [bufferAll_spills h.standing hroom hnone hfull]),
        fun hfull => (exec_reduction_buffered h hdet exec_bupd).trans (by
          rw [bufferAll_enters h.standing hroom hnone hfull])⟩
    · have hnone := redTrap_none hlow hal
      exact ⟨fun hfull => (exec_reduction_buffered h hdet exec_bred).trans (by
          rw [bufferAll_spills h.standing hroom hnone hfull]),
        fun hfull => (exec_reduction_buffered h hdet exec_bred).trans (by
          rw [bufferAll_enters h.standing hroom hnone hfull])⟩
  · rw [exec_aflush h, if_pos hdet]

/-! ### Traps at an access's address -/

section
variable {f : MForm} {s p : State} {g : Issue} {b : Block} {t : TRef} {i : Instr} {align : Nat} {x : Trap}

/-- A generic-path access whose address fails a check traps by it, whatever its kind (R56, R351). -/
theorem access_traps {kind : Nat} {place : State → TRef → BitVec 64 × Nat}
    (hi : (i, align, kind, place) ∈ [
        (Instr.ld f, accSize f, 0, loadPlace .l1 f), (.ldc f, accSize f, 0, loadPlace .const f),
        (.ldt f, accSize f, 0, loadPlace .tile f),
        (.st f, accSize f, 1, storePlace .l1 f), (.stt f, accSize f, 1, storePlace .tile f),
        (.atom f, atomSize f, 2, bankPlace (atomSize f) f), (.cas f, atomSize f, 2, bankPlace (atomSize f) f),
        (.red f, atomSize f, 2, bankPlace (atomSize f) f), (.bupd f, 128, 2, bankPlace 128 f),
        (.bred f, 128, 2, bankPlace 128 f)])
    (h : IssuesTo i .normal s g b t p) (hld : kind = 0 → (p.thread t).ld < 63) (hst : kind = 1 → (p.thread t).st < 63)
    (hdet : i ∈ [Instr.atom f, .cas f] → b.deterministic = false) (hx : genericTrap (genericAddr p t f) align = some x) :
    exec i s = .next (sampledAt kind place p g b t (trapAt p t x)) := by
  have load (k : Cache) (hi : (i, k) ∈ [(Instr.ld f, Cache.l1), (.ldc f, .const), (.ldt f, .tile)])
      (hal : align = accSize f) (hroom : (p.thread t).ld < 63) :
      exec i s = .next (sampledAt 0 (loadPlace k f) p g b t (trapAt p t x)) :=
    exec_sampled h (exec_load hi)
      ((loadBody_error h.standing hroom (pathRead_traps (hal ▸ hx))).trans (finishWith_trap t p x))
  have store (k : Cache) (hi : (i, k) ∈ [(Instr.st f, Cache.l1), (.stt f, .tile)]) (hal : align = accSize f)
      (hroom : (p.thread t).st < 63) :
      exec i s = .next (sampledAt 1 (storePlace k f) p g b t (trapAt p t x)) :=
    exec_sampled_trap h (exec_store hi) (lane := fun _ => pathWrite k f) (pathWrite_traps hroom (hal ▸ hx))
  have atomic (upd : State → TRef → Nat → Nat) (hi : (i, upd) ∈ [(Instr.atom f, atomUpd f), (.cas f, casUpd f)])
      (hal : align = atomSize f) (hdet : b.deterministic = false) :
      exec i s = .next (sampledAt 2 (bankPlace (atomSize f) f) p g b t (trapAt p t x)) :=
    exec_sampled h (exec_returning hi) (by
      rw [globalReturning_one h.standing hdet, returning_traps (hal ▸ hx), finishWith_trap])
  simp only [List.mem_cons, Prod.mk.injEq, List.not_mem_nil, or_false] at hi
  obtain ⟨rfl, rfl, rfl, rfl⟩ | ⟨rfl, rfl, rfl, rfl⟩ | ⟨rfl, rfl, rfl, rfl⟩ | ⟨rfl, rfl, rfl, rfl⟩ | ⟨rfl, rfl, rfl, rfl⟩ |
    ⟨rfl, rfl, rfl, rfl⟩ | ⟨rfl, rfl, rfl, rfl⟩ | ⟨rfl, rfl, rfl, rfl⟩ | ⟨rfl, rfl, rfl, rfl⟩ | ⟨rfl, rfl, rfl, rfl⟩ := hi
  · exact load .l1 (by simp) rfl (hld rfl)
  · exact load .const (by simp) rfl (hld rfl)
  · exact load .tile (by simp) rfl (hld rfl)
  · exact store .l1 (by simp) rfl (hst rfl)
  · exact store .tile (by simp) rfl (hst rfl)
  · exact atomic (atomUpd f) (by simp) rfl (hdet (by simp))
  · exact atomic (casUpd f) (by simp) rfl (hdet (by simp))
  · by_cases hd : b.deterministic = true
    · exact (exec_reduction_buffered h hd exec_red).trans (by rw [bufferAll_traps h.standing (show redTrap _ f p t = _ from hx)])
    · exact (exec_reduction_plain h (Bool.eq_false_iff.mpr hd) exec_red).trans (by rw [redLane_traps hx, finishWith_trap])
  · by_cases hd : b.deterministic = true
    · exact (exec_reduction_buffered h hd exec_bupd).trans (by rw [bufferAll_traps h.standing (bupdTrap_address hx)])
    · exact (exec_reduction_plain h (Bool.eq_false_iff.mpr hd) exec_bupd).trans
        (by rw [bupdLane_traps (bupdTrap_address hx), finishWith_trap])
  · by_cases hd : b.deterministic = true
    · exact (exec_reduction_buffered h hd exec_bred).trans (by rw [bufferAll_traps h.standing (show redTrap _ f p t = _ from hx)])
    · exact exec_sampled h exec_bred ((if_neg hd).trans (bredGroup_traps hx))

/-- A scratch access whose place fails a check traps by it (R57, R351). -/
theorem scratch_access_traps {left : State → State}
    (hi : (i, align, left) ∈ [
        (Instr.ldl f, accSize f, fun r => r), (.stl f, accSize f, fun r => r),
        (.atoml f, atomSize f, sampledAt 2 (localSample f) p g b t),
        (.casl f, atomSize f, sampledAt 2 (localSample f) p g b t)])
    (h : IssuesTo i .normal s g b t p) (hld : i = .ldl f → (p.thread t).ld < 63) (hst : i = .stl f → (p.thread t).st < 63)
    (hx : localCheck p b (localAddr p t f) align align = .error x) : exec i s = .next (left (trapAt p t x)) := by
  have atomic (upd : State → TRef → Nat → Nat) (hi : (i, upd) ∈ [(Instr.atoml f, atomUpd f), (.casl f, casUpd f)])
      (hal : align = atomSize f) : exec i s = .next (sampledAt 2 (localSample f) p g b t (trapAt p t x)) :=
    exec_sampled_trap h (exec_localReturning hi) (lane := fun b => localReturning b f upd) (localReturning_traps (hal ▸ hx))
  simp only [List.mem_cons, Prod.mk.injEq, List.not_mem_nil, or_false] at hi
  obtain ⟨rfl, rfl, rfl⟩ | ⟨rfl, rfl, rfl⟩ | ⟨rfl, rfl, rfl⟩ | ⟨rfl, rfl, rfl⟩ := hi
  · rw [exec_group h exec_ldl, loadBody_error h.standing (hld rfl) (localRead_traps hx), finishWith_trap]
  · rw [exec_lane h exec_stl, localWrite_traps (hst rfl) hx, finishWith_trap]
  · exact atomic (atomUpd f) (by simp) rfl
  · exact atomic (casUpd f) (by simp) rfl

end

/-- Settles O15: the checks of an address, in their order, are each access's first. -/
theorem accessesTrapAtTheirAddress : Obligations.AccessesTrapAtTheirAddress := by
  intro f s p g b t i align
  refine ⟨?_, ?_⟩
  · intro kind place hi h hld hst hdet ea left
    exact ⟨fun hhigh => access_traps hi h hld hst hdet (genericTrap_beyond hhigh),
      fun hlow hmis => access_traps hi h hld hst hdet (genericTrap_misaligned hlow hmis)⟩
  · intro left hi h hld hst ea
    exact ⟨fun hnone => scratch_access_traps hi h hld hst (localCheck_outside hnone),
      fun hsome hmis => scratch_access_traps hi h hld hst (localCheck_misaligned hsome hmis)⟩

/-! ### Fences and cache control -/

section
variable {f : MForm} {s p : State} {g : Issue} {b : Block} {t : TRef}

theorem exec_fence (h : IssuesTo (.fence f) .normal s g b t p) : exec (.fence f) s = .next (finishWith t (fenceLane f p t)) :=
  exec_lane h rfl

theorem fenceLane_waits (ha : isAcquire f.ord = true) (hld : (p.thread t).ld ≠ 0) :
    fenceLane f p t = (p, .stay .recheck) := if_pos ⟨ha, hld⟩

theorem fenceLane_acquires (ha : isAcquire f.ord = true) (hr : isRelease f.ord = false) (hld : (p.thread t).ld = 0) :
    fenceLane f p t = (scratchAcquire p t f.scp, .done) := by
  simp [fenceLane, ha, hr, hld]

theorem fenceLane_releases {s1 : State} {rel : Option RelTag} (hr : isRelease f.ord = true)
    (hld : isAcquire f.ord = true → (p.thread t).ld = 0) (hrel : doRelease (endRegion p t) t f.scp = (s1, .ok rel)) :
    fenceLane f p t = begun t (if isAcquire f.ord then scratchAcquire s1 t f.scp else s1, .done) := by
  have hgo : ¬(isAcquire f.ord = true ∧ (p.thread t).ld ≠ 0) := fun ⟨ha, hne⟩ => hne (hld ha)
  simp only [fenceLane, hgo, hr, if_true, if_false, hrel]

theorem exec_wb (h : IssuesTo (.wb f) .normal s g b t p) : exec (.wb f) s = .next (finishWith t (wbLane f p t)) :=
  exec_lane h rfl

theorem wbLane_writes (hroom : (p.thread t).st < 63) (hlow : bits (genericAddr p t f) 63 57 = 0) :
    let core := waveCore t.wave
    let hit := inRange (threadReq p t 1 false) ((genericAddr p t f).toNat / 128 * 128) f.cnt.val
    let closes := (lines p core .l1 ++ lines p core .tile).any fun l => l.spec == some t && hit l
    let s1 := pendStore (writeBack (writeBack (if closes then endRegion p t else p) core .l1 hit) core .tile hit) t 4 false
    finishWith t (wbLane f p t) = if closes then nextRegion s1 t else advance s1 t := by
  intro core hit closes s1
  have hlane : wbLane f p t = if closes then begun t (s1, .done) else (s1, .done) := by
    simp only [wbLane, counterFull_of_lt hroom, Bool.false_eq_true, if_false, hlow, ne_eq, not_true_eq_false]
    rfl
  rw [hlane, apply_ite (finishWith t), begun_done, finishWith_done]

theorem exec_inv (h : IssuesTo (.inv f) .normal s g b t p) (hlow : bits (genericAddr p t f) 63 57 = 0) :
    let core := waveCore t.wave
    let hit := inRange (threadReq p t 0 false) ((genericAddr p t f).toNat / 128 * 128) f.cnt.val
    exec (.inv f) s = .next (advance (invalidate (invalidate p core .l1 hit) core .tile hit) t) :=
  exec_finish (exec_lane h rfl) (if_neg (not_not_intro hlow))

theorem exec_ifence {r : RForm} (h : IssuesTo (.ifence r) .normal s g b t p) : exec (.ifence r) s = .next (finishWith t (
    if unperformed p t then (p, .stay .recheck) else (setLines p (waveCore t.wave) .icache [], .done))) := exec_lane h rfl

end

/-- Settles O16: one lane function each, by the conditions that a fence and a write-back test. -/
theorem fencesAndCacheControlRun : Obligations.FencesAndCacheControlRun := by
  refine ⟨fun f s p g b t => ⟨fun h => exec_lane h rfl, fun h ha hld => ?_, fun h ha hr hld => ?_,
    fun s1 rel h hr hld hrel => ?_, fun h hroom hlow => ?_, exec_inv⟩, fun f s p g b t h => exec_lane h rfl,
    fun f s p g b t h => ⟨fun hleft => ?_, fun hnone => ?_⟩⟩
  · rw [exec_fence h, fenceLane_waits ha hld, finishWith_stay]
  · rw [exec_fence h, fenceLane_acquires ha hr hld, finishWith_done]
  · rw [exec_fence h, fenceLane_releases hr hld hrel, begun_done]
  · rw [exec_wb h, wbLane_writes hroom hlow]
  · rw [exec_ifence h, if_pos hleft, finishWith_stay]
  · rw [exec_ifence h, if_neg (Bool.eq_false_iff.mp hnone), finishWith_done]

end Sys2Proof.Machine
end

section
/-! PROOFS. Barriers, arrival objects, timelines, byte barriers and messages (R368-R379). -/

namespace Sys2Proof.Machine

theorem leave_fst (s : State) (t : TRef) : (leave s t).1 = nextRegion s t := rfl

/-- A step that has begun its thread's next region itself (R107). -/
theorem finishWith_leave (s : State) (t : TRef) : finishWith t (leave s t) = nextRegion s t := rfl

/-! ### Block, cluster and grid barriers -/

section
variable {f : IForm} {s p : State} {g : Issue} {b : Block} {t : TRef}

/-- A thread's arrival at a block barrier, as the barrier records it (R368). -/
def arrivedAt (b : Block) (f : IForm) (s : State) (t : TRef) : State :=
  let n := barNumber f
  let x := barrierOf s b n
  (arriveRace (endRegion s t) t .block).modBlock b.id fun y =>
    { y with barriers := y.barriers.put n ⟨barExpected f, x.arrived ++ [t], x.phase⟩ }

theorem arrive_refused {go : State → TRef → Word → State}
    (h : t ∈ (barrierOf p b (barNumber f)).arrived ∨
      ((barrierOf p b (barNumber f)).arrived ≠ [] ∧ (barrierOf p b (barNumber f)).expected ≠ barExpected f)) :
    arrive b f go p t = (p, .trap ⟨0x06, 0, 0, false, 0⟩) :=
  if_pos (h.imp_left List.contains_iff_mem.mpr)

theorem arrive_taken {go : State → TRef → Word → State} (hnew : t ∉ (barrierOf p b (barNumber f)).arrived)
    (hcount : (barrierOf p b (barNumber f)).arrived = [] ∨ (barrierOf p b (barNumber f)).expected = barExpected f) :
    arrive b f go p t = (settleBarrier (go (arrivedAt b f p t) t (barrierOf p b (barNumber f)).phase) b.id (barNumber f),
      .moved) := by
  have hgo : ¬((barrierOf p b (barNumber f)).arrived.contains t ∨
      ((barrierOf p b (barNumber f)).arrived ≠ [] ∧ (barrierOf p b (barNumber f)).expected ≠ barExpected f)) := by
    rintro (hmem | ⟨hne, hdiff⟩)
    · exact hnew (List.contains_iff_mem.mp hmem)
    · exact hcount.elim hne hdiff
  exact if_neg hgo

theorem exec_bar_too_many (h : IssuesTo (.bar f) .normal s g b t p) (hmany : barTooMany p b f = true) :
    exec (.bar f) s = .next (trapAt p t (illegal (.bar f))) := by
  rw [exec_group h rfl, if_pos hmany]; rfl

theorem exec_bar (h : IssuesTo (.bar f) .normal s g b t p) (hmany : barTooMany p b f = false) : exec (.bar f) s =
    .next (finishWith t (arrive b f (fun s t n => setWait s t (.barrier (barNumber f) n.toNat)) p t)) := by
  rw [exec_group h rfl, if_neg (Bool.eq_false_iff.mp hmany), eachLane_standing h.standing]

theorem exec_barr (h : IssuesTo (.barr f) .normal s g b t p) (hmany : barTooMany p b f = false) : exec (.barr f) s =
    .next (finishWith t (arrive b f (fun s t n => (leave (setV s t f.dst.num.toNat n) t).1) p t)) := by
  rw [exec_group h rfl, if_neg (Bool.eq_false_iff.mp hmany), eachLane_standing h.standing]

theorem exec_barw (h : IssuesTo (.barw f) .normal s g b t p) (hmany : barTooMany p b f = false) : exec (.barw f) s =
    .next (finishWith t (if tokenPassed (barrierOf p b (barNumber f)).phase (srcWord p t f.a) then
      (edgeAcquire p t .block, .done) else (p, .stay .recheck))) := by
  rw [exec_group h rfl, if_neg (Bool.eq_false_iff.mp hmany), eachLane_standing h.standing]

theorem arriveWide_waits {scope : Scope} {w : Wait} {s1 : State} {rel : Option RelTag}
    (h : doRelease (endRegion p t) t scope = (s1, .ok rel)) : arriveWide scope w p t = (s1, .stay w) := by
  simp only [arriveWide, h]

theorem exec_cbar (h : IssuesTo (.cbar f) .normal s g b t p) : exec (.cbar f) s =
    .next (settle (finishWith t (arriveWide .cluster (.cbar f.imm.toNat) p t)) b.id) := by
  rw [exec_group h rfl, eachLane_standing h.standing]

theorem exec_gbar (h : IssuesTo (.gbar f) .normal s g b t p) : exec (.gbar f) s = .next (
    if b.cooperative then settle (finishWith t (arriveWide .device .gbar p t)) b.id
    else trapAt p t (illegal (.gbar f))) := by
  rw [exec_group h rfl, eachLane_standing h.standing]
  cases b.cooperative <;> rfl

end

/-- Settles O19: an arrival is `arrive`, with what its barrier does then; the wide ones are `arriveWide`. -/
theorem barriersRun : Obligations.BarriersRun := by
  refine ⟨?_, fun f s p s1 g b t rel => ⟨fun h hrel => ?_, fun h hcoop hrel => ?_, fun h hcoop => ?_⟩,
    fun f s p g b t h => exec_lane h rfl⟩
  · intro f s p g b t n x came
    refine ⟨exec_bar_too_many, fun h hmany hbad => ?_, fun hmany hnew hcount => ⟨fun h => ?_, fun h => ?_⟩,
      fun h hmany => ⟨fun hpassed => ?_, fun hleft => ?_⟩⟩
    · rw [exec_bar h hmany, arrive_refused hbad, finishWith_trap]
    · rw [exec_bar h hmany, arrive_taken hnew hcount, finishWith_moved]; rfl
    · rw [exec_barr h hmany, arrive_taken hnew hcount, finishWith_moved, leave_fst]; rfl
    · rw [exec_barw h hmany, if_pos hpassed, finishWith_done]
    · rw [exec_barw h hmany, if_neg (Bool.eq_false_iff.mp hleft), finishWith_stay]
  · rw [exec_cbar h, arriveWide_waits hrel, finishWith_stay]
  · rw [exec_gbar h, if_pos hcoop, arriveWide_waits hrel, finishWith_stay]
  · rw [exec_gbar h, if_neg (Bool.eq_false_iff.mp hcoop)]

/-! ### Arrival objects, timelines and byte barriers -/

section
variable {f : IForm} {s p s1 : State} {g : Issue} {b : Block} {t : TRef}

/-- The access an arrival makes at its object's home bank (R370). -/
def larrForm (f : IForm) : MForm :=
  { h := f.h, dat := f.dst, base := f.a, ofs := 0, ret := .default, ord := .ar, scp := .device, cnt := .one, xf := 0 }

/-- What an arrival leaves of its object's count (R370). -/
def larrLeft (count rem : Nat) : Nat := if rem = 0 then count - 1 else rem - 1

/-- Outside deterministic mode an object keeps its holder (R370). -/
theorem larrNext_plain (count idx rem phase holder : Nat) : larrNext count false idx rem phase holder =
    (larrLeft count rem, (if larrLeft count rem = 0 then phase + 1 else phase) % 2 ^ 32, holder) := by
  simp only [larrNext, larrLeft, Bool.false_eq_true, false_and, if_false]
  rfl

theorem larrGroup_answers {ea : BitVec 64} {o : Nat} {v : BitVec 1024} (hea : q (rawSrc p t .b64 f.a) = ea)
    (ho : ea.toNat % 128 = o) (hdet : b.deterministic = false) (hlow : bits ea 63 57 = 0) (hal : ea.toNat % 16 = 0)
    (hop : homeOp (endRegion p t) t (larrForm f) (ea.toNat / 128 * 128) (fun v =>
      (byteMask o 12, linePut o (larrLeft f.imm.toNat (lineGet v o 4) + 2 ^ 32 *
        ((if larrLeft f.imm.toNat (lineGet v o 4) = 0 then lineGet v (o + 4) 4 + 1 else lineGet v (o + 4) 4) % 2 ^ 32) +
        2 ^ 64 * lineGet v (o + 8) 4))) = (s1, .ok v))
    (hstand : standing s1 g t = true) : larrGroup f p g b [t] =
      nextRegion (setV s1 t f.dst.num.toNat (if larrLeft f.imm.toNat (lineGet v o 4) = 0 then 1 else 0)) t := by
  subst hea ho
  unfold larrForm at hop
  simp only [larrGroup, hdet, Bool.false_eq_true, false_and, if_false, genericTrap_none hlow hal, List.foldl_cons,
    List.foldl_nil, larrNext_plain, hop, Bool.not_false, if_true]
  rw [eachLane_standing hstand, finishWith_leave]
  simp only [beq_iff_eq]

end

section
variable {f : SForm} {s p : State} {g : Issue} {b : Block} {t : TRef} {c o : Nat}

theorem timeline_traps {i : Instr} (hi : i ∈ [Instr.tlwait f, .tlread f]) (h : IssuesTo i .normal s g b t p)
    (hnone : timelineOf p t b f = none) : exec i s = .next (trapAt p t ⟨0x0B, 0, 0, false, 0⟩) := by
  simp only [List.mem_cons, List.not_mem_nil, or_false] at hi
  obtain rfl | rfl := hi <;> rw [exec_lane h rfl, hnone] <;> rfl

theorem exec_tlwait (h : IssuesTo (.tlwait f) .normal s g b t p) (hc : timelineOf p t b f = some c) :
    exec (.tlwait f) s = .next (finishWith t (
      if atLeast48 (bits (p.ctx c).counter 47 0) (bits (srcPair p t f.a) 47 0) then (doAcquireAll p t, .done)
      else (p, .stay .retest))) := by
  rw [exec_lane h rfl, hc]

theorem exec_tlread (h : IssuesTo (.tlread f) .normal s g b t p) (hc : timelineOf p t b f = some c)
    (hroom : (p.thread t).ld < 63) : exec (.tlread f) s =
      .next (advance (loadResult p t 4 0 f.dst.num.toNat [lo32 (p.ctx c).counter, hi32 (p.ctx c).counter]) t) := by
  rw [exec_lane h rfl, hc]
  simp only [counterFull_of_lt hroom, Bool.false_eq_true, if_false, finishWith_done]

theorem exec_boinit (h : IssuesTo (.boinit f) .normal s g b t p) (hat : barrierAt p b (.boinit f) (srcWord p t f.a) = .ok o)
    (hroom : (p.thread t).st < 63) :
    let s1 := setOwnWord (endRegion p t) b o (d (srcVal p t .n32 f.b))
    let s2 := setOwnWord (setOwnWord s1 b (o + 4) (ownWord s1 b (o + 4) &&& 0x7FFFFFFF)) b (o + 8) 0
    exec (.boinit f) s = .next (nextRegion (pendStore (wakeBarriers s2 b.id) t 7 false) t) := by
  intro s1 s2
  rw [exec_lane h rfl, hat]
  simp only [counterFull_of_lt hroom, Bool.false_eq_true, if_false, begun_done]
  rfl

theorem exec_bowait (h : IssuesTo (.bowait f) .normal s g b t p)
    (hat : barrierAt p b (.bowait f) (srcWord p t f.a) = .ok o) : exec (.bowait f) s = .next (finishWith t (
      if ownWord p b o = 0 then (edgeAcquire (setV p t f.dst.num.toNat (ownWord p b (o + 4))) t .block, .done)
      else (setOwnWord p b (o + 8) (ownWord p b (o + 8) + 1), .stay (.bowait f.dst.num.toNat o)))) := by
  rw [exec_lane h rfl, hat]

theorem exec_bowait_traps {x : Trap} (h : IssuesTo (.bowait f) .normal s g b t p)
    (hat : barrierAt p b (.bowait f) (srcWord p t f.a) = .error x) : exec (.bowait f) s = .next (trapAt p t x) := by
  rw [exec_lane h rfl, hat]; rfl

end

/-- Settles O20: the arrival's update at its home bank, the named counter, and the barrier's own words. -/
theorem objectsAndCountersRun : Obligations.ObjectsAndCountersRun := by
  refine ⟨?_, fun f s p g b t => ⟨fun i hi h hnone => timeline_traps hi h hnone, fun c hc => ⟨fun h hmet => ?_,
    fun h hleft => ?_, fun h hroom => exec_tlread h hc hroom⟩⟩, fun f s p g b t o => ⟨exec_boinit, fun h hat =>
    ⟨fun hz => ?_, fun hnz => ?_⟩, fun x h hat => exec_bowait_traps h hat⟩⟩
  · intro f s p s1 g b t v h hdet ea o access left phase hlow hal hop hstand
    rw [exec_group h rfl]
    exact congrArg Host.Outcome.next (larrGroup_answers rfl rfl hdet hlow hal hop hstand)
  · rw [exec_tlwait h hc, if_pos hmet, finishWith_done]
  · rw [exec_tlwait h hc, if_neg (Bool.eq_false_iff.mp hleft), finishWith_stay]
  · rw [exec_bowait h hat, if_pos hz, finishWith_done]
  · rw [exec_bowait h hat, if_neg hnz, finishWith_stay]

/-! ### Messages -/

section
variable {f : SForm} {s p : State} {g : Issue} {b : Block} {t : TRef}

/-- The receive that a `msgpost` posts (R375). -/
def postedReceive (f : SForm) (b : Block) (p s1 : State) (t : TRef) : Receive :=
  { block := b.id, source := lo32 (srcPair p t f.a), tag := BitVec.ofNat 16 (bits (srcPair p t f.a) 47 32)
    buf := srcWord p t f.b, cap := bits f.imm 12 0, matched := false, order := (s1.core b.core).posted, scope := .thread }

/-- A receive once posted takes a message that already waits (R377). -/
def afterPost (b : Block) (n : Nat) (r : Receive) (s1 : State) : State :=
  let s2 := s1.modCore b.core fun c => { c with receives := c.receives.put n r, posted := c.posted + 1 }
  match (s2.core b.core).overflow.find? r.takes with
  | none => s2
  | some m => deliver (s2.modCore b.core fun c => { c with overflow := dropFirst (·.id == m.id) c.overflow }) b.core n r m

theorem msgpostLane_posts {n o : Nat} (hform : bits (srcPair p t f.a) 63 48 = 0)
    (hname : lo32 (srcPair p t f.a) = wildcard ∨ ∃ d, nameTarget p b.part (.msgpost f) (lo32 (srcPair p t f.a)) = .ok d)
    (hdet : lo32 (srcPair p t f.a) = wildcard → b.deterministic = false)
    (hbuf : ownOffset b (srcWord p t f.b) (16 + bits f.imm 12 0) 16 = .ok o)
    (hfree : freeReceive ((endRegion p t).core b.core) = some n) :
    msgpostLane f b p t = begun t
      (setV (afterPost b n (postedReceive f b p (endRegion p t) t) (endRegion p t)) t f.dst.num.toNat (d n), .done) := by
  have hno : ¬(b.deterministic = true ∧ lo32 (srcPair p t f.a) = wildcard) := fun ⟨hd, hw⟩ => by simp [hdet hw] at hd
  by_cases hw : lo32 (srcPair p t f.a) = wildcard
  · simp only [msgpostLane, hform, if_pos hw, hno, hbuf, hfree, ne_eq, not_true_eq_false, if_false]
    rfl
  · obtain ⟨dest, hdest⟩ := hname.resolve_left hw
    simp only [msgpostLane, hform, if_neg hw, hdest, hno, hbuf, hfree, ne_eq, not_true_eq_false, if_false]
    rfl

/-- The scope that a `msgsend` releases at (R376). -/
def sendScope (f : SForm) : Scope := match bits f.imm 15 13 with | 3 => .cluster | 4 => .device | _ => .system

/-- The message that a `msgsend` sends once its release is complete (R376). -/
def sentMessage (f : SForm) (b : Block) (p s1 : State) (t : TRef) (dest o : Nat) : Message :=
  { id := s1.nextMsg, sender := some t, source := senderName b, dest := dest
    tag := BitVec.ofNat 16 (bits (srcPair p t f.a) 47 32)
    data := toBytes (bits f.imm 12 0) (scratchRead s1 b.core (b.scratchOff + o) (bits f.imm 12 0)), scope := sendScope f
    tick := s1.tick.toNat }

theorem msgsendLane_sends {dest o : Nat} {s1 : State} {rel : Option RelTag} (hform : bits (srcPair p t f.a) 63 48 = 0)
    (hname : nameTarget p b.part (.msgsend f) (lo32 (srcPair p t f.a)) = .ok dest)
    (hscope : 65536 ≤ dest → sendScope f = .system)
    (hbuf : ownOffset b (srcWord p t f.b) (bits f.imm 12 0) 4 = .ok o)
    (hrel : doRelease (endRegion p t) t (sendScope f) = (s1, .ok rel)) :
    msgsendLane f b p t =
      ({ s1 with messages := s1.messages ++ [sentMessage f b p s1 t dest o], nextMsg := s1.nextMsg + 1 },
        .stay (.message (sentMessage f b p s1 t dest o).id)) := by
  have hno : ¬(65536 ≤ dest ∧ sendScope f ≠ .system) := fun ⟨hd, hne⟩ => hne (hscope hd)
  refine (if_neg (not_not_intro hform)).trans ?_
  rw [hname]
  refine (if_neg hno).trans ?_
  rw [hbuf]
  erw [hrel]
  rfl

end

/-- Settles O21: the two lane functions, once their checks pass. -/
theorem messagesRun : Obligations.MessagesRun := by
  intro f s p g b t w size hform
  refine ⟨?_, ?_⟩
  · intro n o h hname hdet hbuf s1 hfree r s2 s3
    have hlane : msgpostLane f b p t = begun t (setV s3 t f.dst.num.toNat (d n), .done) :=
      msgpostLane_posts hform hname hdet hbuf hfree
    exact (exec_lane h rfl).trans (congrArg Host.Outcome.next ((congrArg (finishWith t) hlane).trans (begun_done _ _)))
  · intro dest o s1 rel h scope hname hscope hbuf hrel m
    have hlane : msgsendLane f b p t =
        ({ s1 with messages := s1.messages ++ [m], nextMsg := s1.nextMsg + 1 }, .stay (.message m.id)) :=
      msgsendLane_sends hform hname hscope hbuf hrel
    exact (exec_lane h rfl).trans (congrArg Host.Outcome.next ((congrArg (finishWith t) hlane).trans (finishWith_stay _ _ _)))

end Sys2Proof.Machine
end

section
/-! PROOFS. The way mask, kicks, contexts, timelines' signals and FIFOs (R59, R64-R66, R359, R384-R394). -/

namespace Sys2Proof.Machine

/-! ### The way mask, kicks, contexts and timelines -/

section
variable {f : IForm} {s p : State} {g : Issue} {b : Block} {t : TRef}

theorem exec_wayset (h : IssuesTo (.wayset f) .normal s g b t p) :
    exec (.wayset f) s = .next (waysetGroup f p g b [t]) := exec_group h rfl

theorem waysetGroup_too_many (h : 14 < popcount 16 (f.imm.extractLsb' 0 16).toNat) :
    waysetGroup f p g b [t] = trapAt p t (illegal (.wayset f)) := if_pos h

variable (hfew : popcount 16 (f.imm.extractLsb' 0 16).toNat ≤ 14)
include hfew

theorem waysetGroup_refused
    (h : p.blocks.any (fun x => x.core == b.core && !(x.launch == b.launch && x.gen == b.gen)) = true ∨
      ((List.range 16).filter fun i => (p.core b.core).wayMask.getLsbD i && !(f.imm.extractLsb' 0 16).getLsbD i).any
        (fun i => (heldWays p b.core).contains i) = true) :
    waysetGroup f p g b [t] = trapAt p t ⟨0x15, 0, 0, false, 0⟩ :=
  (if_neg (Nat.not_lt_of_le hfew)).trans (if_pos h)

/-- The ways change once nothing holds or writes those that are taken from scratch (R59, R359). -/
theorem waysetGroup_changes {s2 : State}
    (hother : p.blocks.any (fun x => x.core == b.core && !(x.launch == b.launch && x.gen == b.gen)) = false)
    (hheld : ((List.range 16).filter fun i => (p.core b.core).wayMask.getLsbD i && !(f.imm.extractLsb' 0 16).getLsbD i).any
        (fun i => (heldWays p b.core).contains i) = false)
    (hbusy : ((List.range 16).filter fun i => (p.core b.core).wayMask.getLsbD i && !(f.imm.extractLsb' 0 16).getLsbD i).any
        (wayBusy p b.core) = false)
    (hs2 : (((List.range 16).filter fun i => (p.core b.core).wayMask.getLsbD i && !(f.imm.extractLsb' 0 16).getLsbD i).foldl
        (wayToL1 b.core) (((List.range 16).filter fun i => (f.imm.extractLsb' 0 16).getLsbD i &&
          !(p.core b.core).wayMask.getLsbD i).foldl (wayToScratch b.core) (endRegion p t))).modCore b.core
        (fun c => { c with wayMask := f.imm.extractLsb' 0 16 }) = s2)
    (hstand : standing s2 g t = true) : waysetGroup f p g b [t] = nextRegion s2 t := by
  subst hs2
  refine (if_neg (Nat.not_lt_of_le hfew)).trans ((if_neg ?_).trans ((if_neg (Bool.eq_false_iff.mp hbusy)).trans ?_))
  · rintro (h | h)
    · exact Bool.eq_false_iff.mp hother h
    · exact Bool.eq_false_iff.mp hheld h
  · exact (eachLane_standing hstand _).trans (begun_done _ _)

end

section
variable {f : SForm} {s p s1 s2 : State} {g : Issue} {b : Block} {t : TRef} {o last c : Nat} {rel : Option RelTag}

theorem exec_kick (h : IssuesTo (.kick f) .normal s g b t p) : exec (.kick f) s = .next (finishWith t (kickLane f b p t)) :=
  exec_lane h rfl

theorem kickLane_waits (hbuf : ownOffset b (srcWord p t f.a) (64 * f.imm.toNat) 64 = .ok o)
    (hfull : 64 < heldRecords p b.core + f.imm.toNat ∨ 63 < (p.thread t).cp + f.imm.toNat) :
    kickLane f b p t = (endRegion p t, .stay .retest) := by
  simp only [kickLane, hbuf]
  exact if_pos hfull

/-- The widest scope that the records of a `kick` name (R384). -/
def kickScope (f : SForm) (b : Block) (p : State) (o : Nat) : Scope :=
  scopeOfCode (maxOf ((List.range f.imm.toNat).map fun j =>
    recScope (BitVec.ofNat 512 (ofBytes (homeRead p b (o + 64 * j) 64)))))

theorem kickLane_accepts (hbuf : ownOffset b (srcWord p t f.a) (64 * f.imm.toNat) 64 = .ok o)
    (hheld : heldRecords p b.core + f.imm.toNat ≤ 64) (hcp : (p.thread t).cp + f.imm.toNat ≤ 63)
    (hrel : doRelease (endRegion p t) t (kickScope f b p o) = (s1, .ok rel))
    (hsub : submitAll t b f.imm.toNat (srcWord p t f.a) 0
      (if Scope.wide (kickScope f b p o) then s1 else arriveRace s1 t (kickScope f b p o)) = (s2, .ok last)) :
    kickLane f b p t = begun t (setVs s2 t f.dst.num.toNat [lo32 (q last), hi32 (q last)], .done) := by
  have hroom : ¬(64 < heldRecords p b.core + f.imm.toNat ∨ 63 < (p.thread t).cp + f.imm.toNat) := by omega
  unfold kickScope at hrel hsub
  simp only [kickLane, hbuf, hroom, if_false, hrel, hsub]

theorem exec_cpcancel (h : IssuesTo (.cpcancel f) .normal s g b t p) (hc : groupCtx p (.cpcancel f) b f.a [t] = .ok c) :
    let rs := (p.ctx c).reqs.filter fun r => r.block == b.id && !r.started && !r.fin
    let s1 := cancelAll (endRegion p t) c rs
    standing s1 g t = true →
    exec (.cpcancel f) s = .next (nextRegion (setV s1 t f.dst.num.toNat (d rs.length)) t) := by
  intro rs s1 hstand
  rw [exec_group h rfl, hc]
  exact congrArg Host.Outcome.next ((eachLane_standing hstand _).trans (begun_done _ _))

theorem exec_tlsig (h : IssuesTo (.tlsig f) .normal s g b t p) (hc : timelineOf p t b f = some c)
    (hrel : doRelease (endRegion p t) t .device = (s1, .ok rel)) :
    exec (.tlsig f) s = .next (nextRegion (s1.modCtx c fun x =>
      { x with counter := q (x.counter.toNat / 2 ^ 48 * 2 ^ 48 + max (bits x.counter 47 0) (bits (srcPair p t f.a) 47 0)) })
      t) := by
  rw [exec_lane h rfl, hc]
  simp only [hrel, begun_done]

theorem exec_ctxsel (h : IssuesTo (.ctxsel f) .normal s g b t p) (hc : groupCtx p (.ctxsel f) b f.a [t] = .ok c) :
    exec (.ctxsel f) s = .next (advance (setVs (p.modWave g.wave fun w => { w with ctxSel := some c }) t
      f.dst.num.toNat [lo32 (q (issuedCount p c)), hi32 (q (issuedCount p c))]) t) := by
  have hstand : standing (p.modWave g.wave fun w => { w with ctxSel := some c }) g t = true := by
    rw [standing_modWave p g g.wave (fun w => { w with ctxSel := some c }) fun _ => rfl]; exact h.standing
  rw [exec_group h rfl, hc]
  exact congrArg Host.Outcome.next ((eachLane_standing hstand _).trans (finishWith_done _ _))

theorem exec_ctxsel_traps {x : Trap} (h : IssuesTo (.ctxsel f) .normal s g b t p)
    (hx : groupCtx p (.ctxsel f) b f.a [t] = .error x) : exec (.ctxsel f) s = .next (trapAt p t x) := by
  rw [exec_group h rfl, hx]; rfl

end

/-- Settles O22: the way mask's checks in their order; the others once their context, timeline or buffer is known. -/
theorem engineInstructionsRun : Obligations.EngineInstructionsRun := by
  refine ⟨?_, ?_, fun f s p g b t c => ⟨exec_cpcancel, fun s1 rel h hc hrel => exec_tlsig h hc hrel, exec_ctxsel,
    fun x => exec_ctxsel_traps⟩⟩
  · intro f s p g b t h mask old up down other held
    rw [exec_wayset h]
    refine ⟨fun hmany => ?_, fun hfew hbad => ?_, ?_⟩
    · rw [waysetGroup_too_many hmany]
    · rw [waysetGroup_refused hfew hbad]
    · intro hfew hother hheld hbusy s1 s2 hstand
      rw [waysetGroup_changes hfew hother hheld hbusy rfl hstand]
  · intro f s p s1 s2 g b t o last rel h n addr s0 hbuf
    rw [exec_kick h]
    refine ⟨fun hfull => ?_, ?_⟩
    · rw [kickLane_waits hbuf hfull, finishWith_stay]
    · intro hheld hcp scope hrel hsub
      rw [kickLane_accepts hbuf hheld hcp hrel hsub, begun_done]

/-! ### FIFOs -/

section
variable {f : SForm} {s p s1 : State} {g : Issue} {b : Block} {t : TRef} {o k j : Nat} {x : Fifo} {rel : Option RelTag}

theorem fifoFor_held {ok : Fifo → Bool} {n : Nat} (h : fifoRef p b n = .held o k x) (hok : ok x = true) :
    fifoFor p b n ok = some (o, k, x) := by
  simp only [fifoFor, h, hok, if_true]

/-- An empty FIFO as `cbinit` writes it (R390). -/
def emptyFifo (f : SForm) (p : State) (t : TRef) : Fifo :=
  { base := bits (srcWord p t f.a) 19 0, slotb := bits (srcWord p t f.b) 15 9, count := bits (srcWord p t f.b) 8 0
    head := 0, tail := 0, free := bits (srcWord p t f.b) 8 0, filled := 0, eng := f.imm.getLsbD 5, mxc := f.imm.getLsbD 6
    chan := false, fin := false, resv := [], popped := [] }

theorem cbinitGroup_writes (ha : bits (srcWord p t f.a) 31 20 = 0) (hc : bits (srcWord p t f.b) 31 16 = 0)
    (h1 : 1 ≤ bits (srcWord p t f.b) 8 0) (h2 : bits (srcWord p t f.b) 8 0 ≤ 256) (hn : fifoNum f < b.nfifo)
    (hchan : 1 < Block.stages p b → fifoNum f ≠ 30 ∧ fifoNum f ≠ 31)
    (hfree : ∀ y, b.fifos.find? (fifoNum f) = some y → y.free = y.count) (hnamed : fifoNamed p b (fifoNum f) = false)
    (hal : bits (srcWord p t f.a) 19 0 % 128 = 0)
    (hfit : bits (srcWord p t f.a) 19 0 + bits (srcWord p t f.b) 8 0 * (64 * (bits (srcWord p t f.b) 15 9 + 1))
      ≤ b.scratchBytes)
    (hs1 : ((endRegion p t).modBlock b.id fun z => { z with fifos := z.fifos.put (fifoNum f) (emptyFifo f p t) }) = s1)
    (hstand : standing s1 g t = true) : cbinitGroup f p g b [t] = nextRegion s1 t := by
  subst hs1
  have hzero : ¬ bits (srcWord p t f.b) 8 0 = 0 := by omega
  have hbig : ¬ 256 < bits (srcWord p t f.b) 8 0 := by omega
  have hnum : ¬ b.nfifo ≤ fifoNum f := by omega
  have hends : (1 < Block.stages p b && (fifoNum f == 30 || fifoNum f == 31)) = false := by
    by_cases hst : 1 < Block.stages p b
    · simp [hchan hst]
    · simp [hst]
  have hstuck : ∀ y, b.fifos.find? (fifoNum f) = some y → (y.free != y.count) = false := fun y hy => by simp [hfree y hy]
  have hplace : ¬ b.scratchBytes < bits (srcWord p t f.a) 19 0 + bits (srcWord p t f.b) 8 0 *
      (64 * (bits (srcWord p t f.b) 15 9 + 1)) := by omega
  have hgroup : cbinitGroup f p g b [t] = eachLane g (fun s t => begun t (s, .done))
      ((endRegion p t).modBlock b.id fun z => { z with fifos := z.fifos.put (fifoNum f) (emptyFifo f p t) }) [t] := by
    rcases hfind : b.fifos.find? (fifoNum f) with _ | y
    · simp [cbinitGroup, hfind, ha, hc, hzero, hbig, hnum, hends, hnamed, hal, hplace, emptyFifo]
    · simp [cbinitGroup, hfind, hstuck y hfind, ha, hc, hzero, hbig, hnum, hends, hnamed, hal, hplace, emptyFifo]
  rw [hgroup, eachLane_standing hstand, begun_done]

theorem reserveLane_one (href : fifoRef p b (fifoNum f) = .held o k x) (heng : x.eng = false) :
    reserveLane f b p t =
      if x.free ≤ drainKeeps true p o k then (endRegion p t, .stay .retest)
      else begun t (scratchAcquire (setV (modFifo (endRegion p t) o k fun y => y.reserve (some t)) t f.dst.num.toNat
        (slotAddr p b (fifoNum f) x x.tail)) t .cluster, .done) := by
  simp only [reserveLane, fifoFor_held (ok := fun x => !x.eng) href (by simp [heng])]

theorem commitLane_one (href : fifoRef p b (fifoNum f) = .held o k x) (heng : x.eng = false)
    (hslot : slotAt p b (fifoNum f) x (srcWord p t f.a) = some j) (hmine : (j, false, some t) ∈ x.resv)
    (hrel : doRelease (endRegion p t) t .cluster = (s1, .ok rel)) :
    commitLane f b p t = begun t (modFifo s1 o k fun y => y.commit j, .done) := by
  have hany : x.resv.any (fun e => e.1 == j && !e.2.1 && e.2.2 == some t) = true :=
    List.any_eq_true.mpr ⟨_, hmine, by simp⟩
  simp only [commitLane, fifoFor_held (ok := fun x => !x.eng) href (by simp [heng]), hslot, hany, if_true, hrel]

theorem popLane_one {i : Instr} {try? : Bool} (href : fifoRef p b (fifoNum f) = .held o k x) (hmxc : x.mxc = false) :
    popLane i f try? b p t =
      if drainKeeps false p o k < x.filled then
        begun t (scratchAcquire (setV (modFifo (endRegion p t) o k Fifo.pop) t f.dst.num.toNat
          (slotAddr p b (fifoNum f) x x.head)) t .cluster, .done)
      else if x.fin ∧ x.filled = 0 then begun t (setV (endRegion p t) t f.dst.num.toNat 0xFFFFFFFF, .done)
      else if try? then begun t (setV (endRegion p t) t f.dst.num.toNat 0xFFFFFFFE, .done)
      else (endRegion p t, .stay .retest) := by
  simp only [popLane, fifoFor_held (ok := fun x => !x.mxc) href (by simp [hmxc])]

theorem relLane_one (href : fifoRef p b (fifoNum f) = .held o k x) (hmxc : x.mxc = false)
    (hslot : slotAt p b (fifoNum f) x (srcWord p t f.a) = some j) (hmine : (j, false) ∈ x.popped)
    (hrel : doRelease (endRegion p t) t .cluster = (s1, .ok rel)) :
    relLane f b p t = begun t (modFifo s1 o k fun y => y.release j, .done) := by
  have hany : x.popped.any (fun e => e.1 == j && !e.2) = true := List.any_eq_true.mpr ⟨_, hmine, by simp⟩
  simp only [relLane, fifoFor_held (ok := fun x => !x.mxc) href (by simp [hmxc]), hslot, hany, if_true, hrel]

theorem exec_pop {i : Instr} (hi : i ∈ [Instr.cbpop f, .cbpopTry f]) (h : IssuesTo i .normal s g b t p) :
    exec i s = .next (finishWith t (popLane i f (decide (i = .cbpopTry f)) b p t)) := by
  simp only [List.mem_cons, List.not_mem_nil, or_false] at hi
  obtain rfl | rfl := hi
  · rw [exec_lane h rfl]; simp
  · rw [exec_lane h rfl]; simp

end

/-- Settles O23: each FIFO instruction's lane function on the FIFO that its block holds. -/
theorem fifosRun : Obligations.FifosRun := by
  intro f s p g b t o k x n dst s0
  refine ⟨?_, fun href => ⟨?_, fun j s1 rel h heng hslot hmine hrel => ?_, ?_, fun j s1 rel h hmxc hslot hmine hrel => ?_,
    fun h => ?_⟩, fun href h => ?_, fun href h => ?_⟩
  · intro h a c count ha hc h1 h2 hn hchan hfree hnamed hal hfit y s1 hstand
    rw [exec_group h rfl]
    exact congrArg Host.Outcome.next (cbinitGroup_writes ha hc h1 h2 hn hchan hfree hnamed hal hfit rfl hstand)
  · intro h heng kept
    rw [exec_lane h rfl, reserveLane_one href heng]
    refine ⟨fun hfull => ?_, fun hroom => ?_⟩
    · rw [if_pos hfull, finishWith_stay]
    · rw [if_neg (Nat.not_le_of_lt hroom), begun_done]
  · rw [exec_lane h rfl, commitLane_one href heng hslot hmine hrel, begun_done]
  · intro i hi h hmxc kept
    rw [exec_pop hi h, popLane_one href hmxc]
    refine ⟨fun hfilled => ?_, fun hz hfin => ?_, fun hempty hopen => ?_⟩
    · rw [if_pos hfilled, begun_done]
    · rw [if_neg (by omega), if_pos ⟨hfin, hz⟩, begun_done]
    · rw [if_neg (Nat.not_lt_of_le hempty), if_neg hopen]
      by_cases htry : i = .cbpopTry f
      · rw [if_pos (decide_eq_true htry), if_pos htry, begun_done]
      · rw [if_neg fun hd => htry (of_decide_eq_true hd), if_neg htry, finishWith_stay]
  · rw [exec_lane h rfl, relLane_one href hmxc hslot hmine hrel, begun_done]
  · rw [exec_lane h rfl, href, finishWith_done]
  · rw [exec_lane h rfl, href, finishWith_trap]
  · rw [exec_lane h rfl, href, finishWith_done]

end Sys2Proof.Machine
end

section
/-! PROOFS. Signatures of matrix operations (R36, R118, R131-R134, R395, R396). -/

namespace Sys2Proof.Machine

section
variable {i : Instr} {op : Nat} {f : MXForm} {b : Block} {p : State} {t : TRef} {v : Cv}

/-- A convergence register as a signature finds it (R35). -/
def cvOf (p : State) (b : Block) (f : MXForm) : Cv :=
  ((p.block? b.id).bind fun x => x.cvs.find? f.cv.toNat).getD noCv

/-- What a signature's fields meet: the checks of the first, or a comparison with the first's (R36, R132). -/
def signFate (p : State) (b : Block) (i : Instr) (op : Nat) (f : MXForm) (k : List Word) (v : Cv) : Option Trap :=
  if v.fields.isNone then mxCheck p b i op f k
  else if v.fields = some f ∧ v.opcode = op ∧ v.kvals = k then none else some (simpleTrap 0x06)

/-- The last signature's state before its operation goes on: the round is over (R36). -/
def roundOver (s : State) (b : Block) (cv : Nat) : State :=
  s.modBlock b.id fun x => { x with cvs := x.cvs.modify cv fun v => { v with signers := [], fields := none } }

/-- The core's matrix state with its holder, as a signature leaves it (R118). -/
def heldFor (p s : State) (b : Block) : State :=
  if (p.core b.core).mx.holder.isNone then modMatrix s b.core (·.taken b.id) else s

theorem seq_heldFor (p s : State) (b : Block) : (heldFor p s b).seq = s.seq := by
  unfold heldFor
  split <;> rfl

/-- A signature that meets its checks: the counter and the thread's own stores, then it is taken, or waits as its round's
last (R36, R38, R134, R136). -/
def signTaken (p : State) (b : Block) (op : Nat) (f : MXForm) (t : TRef) (v : Cv) : State × Lane :=
  if counterFull (p.thread t).mx then (endRegion p t, .stay (.counterRoom 3))
  else if scratchBusy p t then (endRegion p t, .stay .recheck)
  else
    let arr := if f.arr then 1 else 0
    match (if v.signers.length + 1 = v.declared then queueRoom (endRegion p t) b arr f.cv.toNat else some (endRegion p t)) with
    | none => (holdRound (endRegion p t) b.core arr (roundOp (endRegion p t) (signedCv p b t op f 0 v) f.cv.toNat f) t, .moved)
    | some s1 =>
      if v.signers.length + 1 = v.declared then
        completeRound (signedState p s1 b t op f v) b (signedCv p b t op f (heldFor p s1 b).seq v) f.cv.toNat f t
      else begun t (signedState p s1 b t op f v, .done)

theorem sign_unallocated (h : b.ncv ≤ f.cv.toNat ∨ b.matrix = false) : sign i op f b p t = (p, .trap (illegal i)) :=
  if_pos (h.imp_right fun hm => by rw [hm]; rfl)

theorem sign_no_other_holder (hhold : (p.core b.core).mx.holder = none ∨ (p.core b.core).mx.holder = some b.id) :
    ¬((p.core b.core).mx.holder.isSome = true ∧ (p.core b.core).mx.holder ≠ some b.id) := by
  rintro ⟨hsome, hne⟩
  exact hne (hhold.resolve_left (Option.isSome_iff_ne_none.mp hsome))

section
variable (hcv : f.cv.toNat < b.ncv) (hm : b.matrix = true)
include hcv hm

theorem sign_allocated : ¬(b.ncv ≤ f.cv.toNat ∨ (!b.matrix) = true) := by
  simp [hm, hcv]

theorem sign_other_holder (hsome : (p.core b.core).mx.holder ≠ none) (hne : (p.core b.core).mx.holder ≠ some b.id) :
    sign i op f b p t = (endRegion p t, .stay .matrixHolder) :=
  (if_neg (sign_allocated hcv hm)).trans (if_pos ⟨Option.isSome_iff_ne_none.mpr hsome, hne⟩)

variable (hhold : (p.core b.core).mx.holder = none ∨ (p.core b.core).mx.holder = some b.id)
include hhold

theorem sign_held_round (h : heldRound p b.core f.cv.toNat = true) :
    sign i op f b p t = (endRegion p t, .stay .recheck) :=
  (if_neg (sign_allocated hcv hm)).trans ((if_neg (sign_no_other_holder hhold)).trans (if_pos h))

variable (hround : heldRound p b.core f.cv.toNat = false)
include hround

theorem sign_no_turn (h : (cvOf p b f).declared = 0 ∨ (cvOf p b f).signers.any (fun x => x.1 == t) = true) :
    sign i op f b p t = (endRegion p t, .trap ⟨0x06, 0, 0, false, 0⟩) :=
  (if_neg (sign_allocated hcv hm)).trans ((if_neg (sign_no_other_holder hhold)).trans
    ((if_neg (Bool.eq_false_iff.mp hround)).trans (if_pos h)))

variable (hdecl : (cvOf p b f).declared ≠ 0) (hnew : (cvOf p b f).signers.any (fun x => x.1 == t) = false)
include hdecl hnew

/-- A thread whose turn it is to sign goes by what its fields meet. -/
theorem sign_turn : sign i op f b p t =
    match signFate p b i op f (drainKs p t.wave op f) (cvOf p b f) with
    | some x => (endRegion p t, .trap x)
    | none => signTaken p b op f t (cvOf p b f) := by
  have hturn : ¬((cvOf p b f).declared = 0 ∨ (cvOf p b f).signers.any (fun x => x.1 == t) = true) := by
    simp [hdecl, hnew]
  exact (if_neg (sign_allocated hcv hm)).trans ((if_neg (sign_no_other_holder hhold)).trans
    ((if_neg (Bool.eq_false_iff.mp hround)).trans ((if_neg hturn).trans rfl)))

theorem sign_traps {x : Trap} (h : signFate p b i op f (drainKs p t.wave op f) (cvOf p b f) = some x) :
    sign i op f b p t = (endRegion p t, .trap x) := by
  rw [sign_turn hcv hm hhold hround hdecl hnew, h]

theorem sign_taken (h : signFate p b i op f (drainKs p t.wave op f) (cvOf p b f) = none) :
    sign i op f b p t = signTaken p b op f t (cvOf p b f) := by
  rw [sign_turn hcv hm hhold hround hdecl hnew, h]

end

theorem signFate_first {k : List Word} (h : v.fields = none) : signFate p b i op f k v = mxCheck p b i op f k :=
  if_pos (by rw [h]; rfl)

theorem signFate_later {k : List Word} (h : v.fields ≠ none) : signFate p b i op f k v =
    if v.fields = some f ∧ v.opcode = op ∧ v.kvals = k then none else some ⟨0x06, 0, 0, false, 0⟩ :=
  if_neg (by simp [h])

theorem signFate_none {k : List Word}
    (h : (v.fields = none ∧ mxCheck p b i op f k = none) ∨ (v.fields = some f ∧ v.opcode = op ∧ v.kvals = k)) :
    signFate p b i op f k v = none := by
  obtain ⟨hfirst, hcheck⟩ | hsame := h
  · rw [signFate_first hfirst, hcheck]
  · rw [signFate_later (by simp [hsame.1]), if_pos hsame]

theorem signTaken_full (h : 63 ≤ (p.thread t).mx) : signTaken p b op f t v = (endRegion p t, .stay (.counterRoom 3)) :=
  if_pos (decide_eq_true h)

section
variable (hroom : (p.thread t).mx < 63)
include hroom

theorem signTaken_busy (h : scratchBusy p t = true) : signTaken p b op f t v = (endRegion p t, .stay .recheck) :=
  (if_neg (Bool.eq_false_iff.mp (counterFull_of_lt hroom))).trans (if_pos h)

variable (hidle : scratchBusy p t = false)
include hidle

theorem signTaken_short (h : v.signers.length + 1 ≠ v.declared) :
    signTaken p b op f t v = begun t (signedState p (endRegion p t) b t op f v, .done) := by
  simp only [signTaken, counterFull_of_lt hroom, hidle, h, Bool.false_eq_true, if_false]

variable (hlast : v.signers.length + 1 = v.declared)
include hlast

theorem signTaken_held (h : queueRoom (endRegion p t) b (if f.arr then 1 else 0) f.cv.toNat = none) :
    signTaken p b op f t v = (holdRound (endRegion p t) b.core (if f.arr then 1 else 0)
      (roundOp (endRegion p t) (signedCv p b t op f 0 v) f.cv.toNat f) t, .moved) := by
  simp only [signTaken, counterFull_of_lt hroom, hidle, hlast, h, Bool.false_eq_true, if_false, if_true]

theorem signTaken_last {r : State} (h : queueRoom (endRegion p t) b (if f.arr then 1 else 0) f.cv.toNat = some r) :
    signTaken p b op f t v =
      completeRound (signedState p r b t op f v) b (signedCv p b t op f r.seq v) f.cv.toNat f t := by
  simp only [signTaken, counterFull_of_lt hroom, hidle, hlast, h, Bool.false_eq_true, if_false, if_true, seq_heldFor]

end

/-- A completed round's operation waits behind the clearing and those before it, or enters its queue (R118, R134). -/
theorem completeRound_eq (s : State) (cv : Nat) :
    let arr := if f.arr then 1 else 0
    let s1 := s.modBlock b.id fun x => { x with cvs := x.cvs.modify cv fun v => { v with signers := [], fields := none } }
    let op := roundOp s1 v cv f
    let behind := (s1.core b.core).mx.clear || (s1.core b.core).mx.waiting.any fun e => e.1 == arr && !e.2.held
    finishWith t (completeRound s b v cv f t) =
      nextRegion (if behind then addWaiting s1 b.core arr op else enterQueue s1 b arr op) t := by
  intro arr s1 op behind
  have hround : completeRound s b v cv f t =
      if (s1.core b.core).mx.clear ∨ (s1.core b.core).mx.waiting.any (fun e => e.1 == arr && !e.2.held) = true then
        begun t (addWaiting s1 b.core arr op, .done)
      else begun t (enterQueue s1 b arr op, .done) := rfl
  rw [hround, apply_ite (finishWith t), begun_done, begun_done, ← apply_ite (fun s => nextRegion s t)]
  simp only [behind, Bool.or_eq_true]

end

/-- The six matrix operations sign, each under its own number. -/
theorem exec_sign {f : MXForm} {s p : State} {g : Issue} {b : Block} {t : TRef} {e : Instr × Nat}
    (he : e ∈ [(Instr.mxwld f, 0), (Instr.mxwsw f, 1), (Instr.mxmul f, 2), (Instr.mxzero f, 3), (Instr.mxdrn f, 4),
      (Instr.mxperm f, 5)]) (h : IssuesTo e.1 .matrix s g b t p) :
    exec e.1 s = .next (finishWith t (sign e.1 e.2 f b p t)) := by
  have hall : exec e.1 s = .next (issue e.1 .matrix (fun s g b ts => eachLane g (sign e.1 e.2 f b) s ts) s) := by
    simp only [List.mem_cons, List.not_mem_nil, or_false] at he
    obtain rfl | rfl | rfl | rfl | rfl | rfl := he <;> rfl
  exact exec_lane h hall

section
variable {f : SForm} {s p : State} {g : Issue} {b : Block} {t : TRef}

/-- `cvset` goes by the register's allocation and its round (R396). -/
theorem exec_cvset (h : IssuesTo (.cvset f) .normal s g b t p) : exec (.cvset f) s = .next (
    if b.ncv ≤ bits f.imm 3 0 ∨ (blockThreads p b).length < bits f.imm 13 4 then trapAt p t (illegal (.cvset f))
    else if ((b.cvs.find? (bits f.imm 3 0)).getD noCv).signers ≠ [] then trapAt p t ⟨0x06, 0, 0, false, 0⟩
    else
      let v := (b.cvs.find? (bits f.imm 3 0)).getD noCv
      let s1 := (endRegion p t).modBlock b.id fun x =>
        { x with cvs := x.cvs.put (bits f.imm 3 0) { v with declared := bits f.imm 13 4 } }
      eachLane g (fun s t => begun t (s, .done)) s1 [t]) := exec_group h rfl

end

/-- Settles O24: a signature goes by its register's state, its fields and its round. -/
theorem matrixSignaturesRun : Obligations.MatrixSignaturesRun := by
  refine ⟨?_, ?_⟩
  · intro f s p g b t e he h cv m v k s0
    rw [exec_sign he h]
    refine ⟨fun hun => ?_, fun hcv hm => ⟨fun hsome hne => ?_, fun hhold hround => ?_, fun hhold hround =>
      ⟨fun hturn => ?_, fun hdecl hnew => ⟨fun x hfirst hcheck => ?_, fun hlater hdiff => ?_, fun hfate =>
      ⟨fun hfull => ?_, fun hroom hbusy => ?_, fun hroom hidle => ⟨fun hshort => ?_, ?_⟩⟩⟩⟩⟩⟩
    · rw [sign_unallocated hun, finishWith_trap]
    · rw [sign_other_holder hcv hm hsome hne, finishWith_stay]
    · rw [sign_held_round hcv hm hhold hround, finishWith_stay]
    · rw [sign_no_turn hcv hm hhold hround hturn, finishWith_trap]
    · rw [sign_traps hcv hm hhold hround hdecl hnew ((signFate_first hfirst).trans hcheck), finishWith_trap]
    · rw [sign_traps hcv hm hhold hround hdecl hnew ((signFate_later hlater).trans (if_neg hdiff)), finishWith_trap]
    · rw [sign_taken hcv hm hhold hround hdecl hnew (signFate_none hfate), signTaken_full (v := cvOf p b f) hfull, finishWith_stay]
    · rw [sign_taken hcv hm hhold hround hdecl hnew (signFate_none hfate), signTaken_busy (v := cvOf p b f) hroom hbusy, finishWith_stay]
    · rw [sign_taken hcv hm hhold hround hdecl hnew (signFate_none hfate), signTaken_short (v := cvOf p b f) hroom hidle hshort, begun_done]
      rfl
    · intro hlast arr
      rw [sign_taken hcv hm hhold hround hdecl hnew (signFate_none hfate)]
      refine ⟨fun hnone => ?_, ?_⟩
      · rw [signTaken_held (v := cvOf p b f) hroom hidle hlast hnone, finishWith_moved]; rfl
      · intro r hr s1 op behind
        rw [signTaken_last (v := cvOf p b f) hroom hidle hlast hr, completeRound_eq]
        rfl
  · intro f s p g b t n count v h
    rw [exec_cvset h]
    refine ⟨fun hbad => ?_, fun hn hcount => ?_⟩
    · rw [if_pos hbad]
    · rw [if_neg (by omega)]
      refine ⟨fun hsigned => ?_, ?_⟩
      · rw [if_pos hsigned]
      · intro hnone s1 hstand
        rw [if_neg (not_not_intro hnone), eachLane_standing hstand, begun_done]

end Sys2Proof.Machine
end

section
/-! PROOFS. Templates, procedural fills and phase boundaries (R193, R195, R201, R209, R217, R398-R402). -/

namespace Sys2Proof.Machine

/-! ### `freeze` and `nest` -/

section
variable {f : RForm} {s p s3 : State} {g : Issue} {b : Block} {t : TRef} {rel : Option RelTag}

theorem exec_freeze (h : IssuesTo (.freeze f) .normal s g b t p) :
    exec (.freeze f) s = .next (finishWith t (freezeLane f b p t)) := exec_lane h rfl

/-- Who may freeze a second-level template: a nested first-level item (R201). -/
def freezesSecond (x : Thread) : Prop := x.stamp = .item ∧ x.tlevel = 1 ∧ x.nest ≠ none

theorem freezes_iff (x : Thread) : ((x.stamp == .prologue) || (x.stamp == .item && x.tlevel == 1 && x.nest.isSome)) = true ↔
    x.stamp = .prologue ∨ freezesSecond x := by
  simp [freezesSecond, Option.isSome_iff_ne_none, and_assoc]

theorem freezeLane_refused (h : b.gen = true ∨ ¬((p.thread t).stamp = .prologue ∨ freezesSecond (p.thread t))) :
    freezeLane f b p t = (p, .trap (illegal (.freeze f))) :=
  if_pos (h.imp_right fun hno => (Bool.not_eq_true' _).mpr (Bool.eq_false_iff.mpr (mt (freezes_iff _).mp hno)))

theorem freezeLane_bank_free (hbank : (p.thread t).stamp = .prologue ∨
      (clusterCores ((endRegion p t).modThread t Thread.noContexts) b).all
        (bankFree ((endRegion p t).modThread t Thread.noContexts)) = true) :
    ¬(!((p.thread t).stamp == .prologue) &&
    !((clusterCores ((endRegion p t).modThread t Thread.noContexts) b).all
      (bankFree ((endRegion p t).modThread t Thread.noContexts)))) = true := by
  obtain hfirst | hfree := hbank
  · simp [hfirst]
  · rw [hfree]; simp

section
variable (hgen : b.gen = false) (hmay : (p.thread t).stamp = .prologue ∨ freezesSecond (p.thread t))
include hgen hmay

theorem freezeLane_allowed : ¬(b.gen = true ∨ (!((p.thread t).stamp == .prologue ||
    ((p.thread t).stamp == .item && (p.thread t).tlevel == 1 && (p.thread t).nest.isSome))) = true) := by
  rw [(freezes_iff (p.thread t)).mpr hmay, hgen]; simp

theorem freezeLane_waits (h : ¬((p.thread t).ld = 0 ∧ (p.thread t).st = 0 ∧ (p.thread t).cp = 0 ∧ (p.thread t).mx = 0)) :
    freezeLane f b p t = (endRegion p t, .stay .recheck) :=
  (if_neg (freezeLane_allowed hgen hmay)).trans (if_pos (by omega))

variable (hld : (p.thread t).ld = 0) (hst : (p.thread t).st = 0) (hcp : (p.thread t).cp = 0) (hmx : (p.thread t).mx = 0)
include hld hst hcp hmx

theorem freezeLane_bank (hsecond : freezesSecond (p.thread t))
    (hbank : (clusterCores ((endRegion p t).modThread t Thread.noContexts) b).all
      (bankFree ((endRegion p t).modThread t Thread.noContexts)) = false) :
    freezeLane f b p t = ((endRegion p t).modThread t Thread.noContexts, .stay .bankEntry) := by
  have hfirst : ((p.thread t).stamp == .prologue) = false := by rw [hsecond.1]; rfl
  exact (if_neg (freezeLane_allowed hgen hmay)).trans ((if_neg (by simp [hld, hst, hcp, hmx])).trans
    (if_pos (by rw [hfirst, hbank]; rfl)))

variable (hbank : (p.thread t).stamp = .prologue ∨
  (clusterCores ((endRegion p t).modThread t Thread.noContexts) b).all
    (bankFree ((endRegion p t).modThread t Thread.noContexts)) = true)
include hbank

theorem freezeLane_stops {e : Stop}
    (hrel : doRelease ((endRegion p t).modThread t Thread.noContexts) t .device = (s3, .error e)) :
    freezeLane f b p t = stopLane s3 t e := by
  refine (if_neg (freezeLane_allowed hgen hmay)).trans ((if_neg (by simp [hld, hst, hcp, hmx])).trans
    ((if_neg (freezeLane_bank_free hbank)).trans ?_))
  rw [hrel]

theorem freezeLane_makes (hrel : doRelease ((endRegion p t).modThread t Thread.noContexts) t .device = (s3, .ok rel)) :
    freezeLane f b p t = (settleOf (if (p.thread t).stamp == .prologue then freezeFirst s3 t b
      else freezeSecond s3 t b ((p.thread t).nest.getD 0)) t, .moved) := by
  refine (if_neg (freezeLane_allowed hgen hmay)).trans ((if_neg (by simp [hld, hst, hcp, hmx])).trans
    ((if_neg (freezeLane_bank_free hbank)).trans ?_))
  rw [hrel]

end

end

section
variable {f : IForm} {s p : State} {g : Issue} {b : Block} {t : TRef}

theorem exec_nest (h : IssuesTo (.nest f) .normal s g b t p) :
    exec (.nest f) s = .next (finishWith t (nestLane f b p t)) := exec_lane h rfl

theorem nestLane_refused (h : b.gen = true ∨ (p.thread t).stamp ≠ .item ∨ (p.thread t).tlevel ≠ 1 ∨
      (p.thread t).nest ≠ none ∨ f.imm = 0) : nestLane f b p t = (p, .trap (illegal (.nest f))) :=
  if_pos (by simpa only [Option.isSome_iff_ne_none] using h)

theorem nestLane_nests (hgen : b.gen = false) (hstamp : (p.thread t).stamp = .item) (hlevel : (p.thread t).tlevel = 1)
    (hnest : (p.thread t).nest = none) (himm : f.imm ≠ 0) :
    nestLane f b p t = (p.modThread t fun x => { x with nest := some f.imm.toNat }, .done) :=
  if_neg (by simpa [hgen, hstamp, hlevel, hnest] using himm)

end

/-- Settles O25: the checks of `freeze` and `nest` in their order. -/
theorem templatesFreezeAndNest : Obligations.TemplatesFreezeAndNest := by
  refine ⟨?_, fun f s p g b t h => ?_⟩
  · intro f s p g b t h x s0 first second
    rw [exec_freeze h]
    refine ⟨fun hno => ?_, fun hgen hmay => ⟨fun hbusy => ?_, fun hld hst hcp hmx => ?_⟩⟩
    · rw [freezeLane_refused hno, finishWith_trap]
    · rw [freezeLane_waits hgen hmay hbusy, finishWith_stay]
    · intro s2
      refine ⟨fun hsecond hbank => ?_, fun hbank => ?_⟩
      · rw [freezeLane_bank hgen hmay hld hst hcp hmx hsecond hbank, finishWith_stay]
      · refine ⟨fun s3 e hrel => ?_, fun s3 rel hrel => ⟨fun hfirst => ?_, fun hsecond => ?_⟩⟩
        · rw [freezeLane_stops hgen hmay hld hst hcp hmx hbank hrel]; rfl
        · have hyes : ((p.thread t).stamp == .prologue) = true := beq_iff_eq.mpr hfirst
          rw [freezeLane_makes hgen hmay hld hst hcp hmx hbank hrel, finishWith_moved, if_pos hyes]
        · have hno : ¬((p.thread t).stamp == .prologue) = true := by rw [hsecond.1]; decide
          rw [freezeLane_makes hgen hmay hld hst hcp hmx hbank hrel, finishWith_moved, if_neg hno]
  · rw [exec_nest h]
    refine ⟨fun hbad => ?_, fun hgen hstamp hlevel hnest himm => ?_⟩
    · rw [nestLane_refused hbad, finishWith_trap]
    · rw [nestLane_nests hgen hstamp hlevel hnest himm, finishWith_done]

/-! ### `fillend` -/

section
variable {f : RForm} {s p s1 s2 : State} {g : Issue} {b : Block} {t : TRef} {n : Nat} {lanes : BitVec 32} {rel : Option RelTag}

theorem exec_fillend (h : IssuesTo (.fillend f) .normal s g b t p) :
    exec (.fillend f) s = .next (fillendGroup f p g b [t]) := exec_group h rfl

theorem fillendGroup_refused
    (h : (b.gen = false ∧ b.fillendAt = none) ∨ (∃ n lanes, b.fillendAt = some (n, lanes) ∧ lanes.getLsbD t.lane = false)) :
    fillendGroup f p g b [t] = trapAt p t (illegal (.fillend f)) := by
  obtain ⟨hgen, hnone⟩ | ⟨n, lanes, hsome, hlane⟩ := h
  · simp [fillendGroup, hnone, hgen]
  · simp [fillendGroup, hsome, hlane]

theorem fillendGroup_first (hgen : b.gen = true) (hnone : b.fillendAt = none) :
    fillendGroup f p g b [t] = fillendDone (fillendStart p b [t]).2 g b (fillendStart p b [t]).1 [t] := by
  simp only [fillendGroup, hnone, hgen, Bool.not_true, Bool.false_eq_true, if_false]

theorem fillendGroup_again (hsome : b.fillendAt = some (n, lanes)) (hlane : lanes.getLsbD t.lane = true)
    (hleft : b.filled = false) : fillendGroup f p g b [t] = fillendDone p g b n [t] := by
  simp [fillendGroup, hsome, hlane, hleft]

theorem fillendDone_waits (hbusy : itemBusy s1 b n = true) (hstand : standing s1 g t = true) :
    fillendDone s1 g b n [t] = setWait s1 t .recheck :=
  (if_pos hbusy).trans ((eachLane_standing hstand _).trans (finishWith_stay _ _ _))

/-- A generator whose fill is complete, and a thread of it past its `fillend` (R400). -/
def fillendLeft (s : State) (b : Block) (t : TRef) : State :=
  let leave (e : Nat × BitVec 32) : Nat × BitVec 32 := (e.1, e.2 &&& ~~~maskOf [t.lane])
  s.modBlock b.id fun x => { x with filled := true, fillendAt := x.fillendAt.map leave }

theorem fillendLeave_one (h : standing (fillendLeft s b t) g t = true) :
    fillendLeave s g b [t] = nextRegion (fillendLeft s b t) t :=
  (eachLane_standing h fun s t => begun t (s, .done)).trans (begun_done _ _)

/-- The fill of a generator completes with its release (R211). -/
theorem fillendDone_done (hidle : itemBusy s1 b n = false) (hrel : doRelease s1 (lowLane g) .device = (s2, .ok rel))
    (hstand : standing (fillendLeft ((fillOfGen s2 b.id).elim s2 (completeFill s2)) b t) g t = true) :
    fillendDone s1 g b n [t] = nextRegion (fillendLeft ((fillOfGen s2 b.id).elim s2 (completeFill s2)) b t) t := by
  refine (if_neg (Bool.eq_false_iff.mp hidle)).trans ?_
  rw [hrel, ← fillendLeave_one hstand]
  dsimp only
  cases fillOfGen s2 b.id <;> rfl

end

/-! ### `fillq`, `filld` and `phase` -/

section
variable {f : SForm} {s p s3 : State} {g : Issue} {b : Block} {t : TRef} {n k : Nat} {r : Machine.Region}

theorem fill_outside {i : Instr} (hi : i ∈ [Instr.fillq f, .filld f]) (h : IssuesTo i .normal s g b t p)
    (hnone : regionAt p b.part b.asid (q (rawSrc p t .b64 f.a)).toNat = none) :
    exec i s = .next (trapAt p t ⟨0x0B, 0, 0, false, 0⟩) := by
  simp only [List.mem_cons, List.not_mem_nil, or_false] at hi
  obtain rfl | rfl := hi
  · rw [exec_lane h rfl, fillqLane, hnone]; rfl
  · rw [exec_lane h rfl, filldLane, hnone]; rfl

/-- Whether a `fillq` pins or unpins its block (R217). -/
def fillqPins (f : SForm) : Bool := f.xf.getLsbD 0 || f.xf.getLsbD 1

/-- The state in which a `fillq` reads its block, after a pin or unpin. -/
def fillqPinned (f : SForm) (b : Block) (p : State) (t : TRef) (n k : Nat) (r : Machine.Region) : State :=
  if fillqPins f then setPin (endRegion p t) b.part n k (pinStep (r.pins k) (f.xf.getLsbD 0) (f.xf.getLsbD 1)).1 else p

/-- What a `fillq` leaves: the block's word, and the next region after a pin. -/
def fillqLeft (f : SForm) (b : Block) (t : TRef) (n k : Nat) (r : Machine.Region) (s3 : State) (started : Bool) : State :=
  let s4 := setV s3 t f.dst.num.toNat (fillWord s3 b.part n k started (pinStep (r.pins k) (f.xf.getLsbD 0) (f.xf.getLsbD 1)).2)
  if fillqPins f then nextRegion s4 t else advance s4 t

theorem fillqPinned_eq : (if f.xf.getLsbD 0 || f.xf.getLsbD 1 then
      setPin (if f.xf.getLsbD 0 || f.xf.getLsbD 1 then endRegion p t else p) b.part n k
        (pinStep (r.pins k) (f.xf.getLsbD 0) (f.xf.getLsbD 1)).1
    else if f.xf.getLsbD 0 || f.xf.getLsbD 1 then endRegion p t else p) = fillqPinned f b p t n k r := by
  unfold fillqPinned fillqPins
  cases f.xf.getLsbD 0 || f.xf.getLsbD 1 <;> rfl

theorem finishWith_begun_if (c : Bool) (s : State) :
    finishWith t (if c then begun t (s, .done) else (s, .done)) = if c then nextRegion s t else advance s t := by
  cases c <;> rfl

section
variable {fate : Except Miss Unit} (hat : regionAt p b.part b.asid (q (rawSrc p t .b64 f.a)).toNat = some (n, r, k))
  (htouch : (if f.xf.getLsbD 2 then
      touch (fillqPinned f b p t n k r) { threadReq (fillqPinned f b p t n k r) t 0 false with waiter := none }
        (q (rawSrc p t .b64 f.a)).toNat
    else (fillqPinned f b p t n k r, .ok ())) = (s3, fate))
include hat htouch

/-- What a `fillq` does once its touch, if it asks for one, is answered (R401). -/
theorem fillqLane_answers (hfate : ∀ x y, fate ≠ .error (.recursion x y)) : finishWith t (fillqLane f b p t) =
    fillqLeft f b t n k r s3 (f.xf.getLsbD 2 && r.state k == 0 && (region? s3 b.part n).any fun x => x.state k == 1) := by
  rw [fillqLane, hat]
  simp only [fillqPinned_eq, htouch]
  cases fate with
  | ok u => cases region? s3 b.part n <;> exact finishWith_begun_if _ _
  | error m =>
    cases m with
    | recursion x y => exact absurd rfl (hfate x y)
    | _ => cases region? s3 b.part n <;> exact finishWith_begun_if _ _

theorem fillqLane_recursion {x y : Nat} (hfate : fate = .error (.recursion x y)) :
    fillqLane f b p t = (meet s3 t false (.recursion x y), .moved) := by
  rw [fillqLane, hat]
  simp only [fillqPinned_eq, htouch, hfate]

end

theorem exec_filld (h : IssuesTo (.filld f) .normal s g b t p)
    (hat : regionAt p b.part b.asid (q (rawSrc p t .b64 f.a)).toNat = some (n, r, k)) :
    let go := r.state k = 2 ∧ r.pins k = 0
    let s2 := if go then wakeHeld (evictBlock (endRegion p t) b.part n k) b.part n k else endRegion p t
    exec (.filld f) s =
      .next (nextRegion (setV s2 t f.dst.num.toNat (fillWord s2 b.part n k false (!(decide go)))) t) := by
  intro go s2
  rw [exec_lane h rfl, filldLane, hat]
  rfl

end

section
variable {f : IForm} {s p : State} {g : Issue} {b : Block} {t : TRef}

theorem exec_phase (h : IssuesTo (.phase f) .normal s g b t p) : exec (.phase f) s = .next (finishWith t (
    if b.gen = true ∨ f.imm.toNat ≠ (p.thread t).phase % 65536 then (p, .trap (illegal (.phase f)))
    else begun t (settlePhase ((endRegion p t).modThread t fun x => { x with phase := x.phase + 1 }) b.launch, .done))) :=
  exec_lane h rfl

end

/-- Settles O26: `fillend` by its first issue or a later one, `fillq` by its pin and its touch, the others as they stand. -/
theorem fillsAndPhasesRun : Obligations.FillsAndPhasesRun := by
  refine ⟨fun f s p g b t h => ?_, ?_, fun f s p g b t h => ?_⟩
  · rw [exec_fillend h]
    refine ⟨fun hbad => ?_, ?_, fun n lanes hsome hlane hleft hbusy => ?_⟩
    · rw [fillendGroup_refused hbad]
    · intro hgen hnone s0 s1
      have hfirst : fillendGroup f p g b [t] = fillendDone s1 g b s0.1 [t] := fillendGroup_first hgen hnone
      rw [hfirst]
      refine ⟨fun hbusy hstand => ?_, ?_⟩
      · rw [fillendDone_waits hbusy hstand]
      · intro s2 rel hidle hrel s3 leave s4 hstand
        exact congrArg Host.Outcome.next (fillendDone_done hidle hrel hstand)
    · rw [fillendGroup_again hsome hlane hleft, fillendDone_waits hbusy h.standing]
  · intro f s p g b t va s0
    refine ⟨fun i hi h hnone => fill_outside hi h hnone, fun n k r hat => ⟨?_, ?_⟩⟩
    · intro h pinned pin s2 left
      have hrun : exec (.fillq f) s = .next (finishWith t (fillqLane f b p t)) := exec_lane h rfl
      rw [hrun]
      refine ⟨fun hx => ?_, fun hx s3 fate htouch => ⟨fun x y hfate => ?_, fun hfate => ?_⟩⟩
      · rw [fillqLane_answers hat (if_neg (Bool.eq_false_iff.mp hx)) (fun x y => nofun), hx]
        rfl
      · rw [fillqLane_recursion hat ((if_pos hx).trans htouch) hfate, finishWith_moved]
      · rw [fillqLane_answers hat ((if_pos hx).trans htouch) hfate, hx]
        rfl
    · intro h
      refine ⟨?_, fun hno => ?_⟩
      · intro hfilled hpins s1
        rw [exec_filld h hat]
        simp only [hfilled, hpins, and_self, if_true, decide_true, Bool.not_true]
        rfl
      · rw [exec_filld h hat]
        simp only [hno, if_false, decide_false, Bool.not_false]
        rfl
  · rw [exec_phase h]
    refine ⟨fun hbad => ?_, fun hgen himm => ?_⟩
    · rw [if_pos hbad, finishWith_trap]
    · rw [if_neg (by simp [hgen, himm]), begun_done]

end Sys2Proof.Machine
end

section
/-! PROOFS. Sampling, bricks, targets and task queues (R181-R183, R188-R190, R406-R417). -/

namespace Sys2Proof.Machine

/-! ### Fetched results -/

section
variable {before after : State} {t : TRef} {k : Cache} {dst : Nat} {ws : List Word}

/-- A fetched result is what a load through that cache leaves (R77). -/
theorem finishWith_fetched : finishWith t (fetched before after t k dst ws) = lineLoad before after t k dst ws := by
  unfold fetched lineLoad
  simp only [apply_ite (finishWith t), finishWith_done, finishWith_stay]

/-- A run that ends with a result goes on with it, the run forgotten (R165). -/
theorem ranLane_ok {α : Type} {r : Fetch α} {s : State} {a : α} (h : r = (s, .ok a)) (f : State → α → State × Lane) :
    ranLane t r f = f (endRun s t) a := by
  rw [h]; rfl

end

/-! ### Textures and bricks -/

section
variable {f : RForm} {s p s1 : State} {g : Issue} {b : Block} {t : TRef} {i : Instr} {args : TRef → List Word} {x : Tex}

theorem sampleLane_traps {e : Trap} (h : texOf i ((runArgs p t (args t)).take 4) = .error e) :
    sampleLane i f args p t = (p, .trap e) := by
  simp only [sampleLane, h]

theorem sampleLane_full (h : texOf i ((runArgs p t (args t)).take 4) = .ok x) (hfull : 63 ≤ (p.thread t).ld) :
    sampleLane i f args p t = (p, .stay (.counterRoom 0)) := by
  have hf : counterFull (p.thread t).ld = true := decide_eq_true hfull
  simp only [sampleLane, h, hf, if_true]

theorem sampleLane_samples {a : List Word} {c : List Nat} (ha : runArgs p t (args t) = a) (h : texOf i (a.take 4) = .ok x)
    (hroom : (p.thread t).ld < 63)
    (hsample : texSample x t (texLevel x (((a.drop 6).take 4).map BitVec.toNat) (wAt a 10).toNat) (beginRun p t 3 a)
      (wAt a 4).toNat (wAt a 5).toNat = (s1, .ok c)) :
    finishWith t (sampleLane i f args p t) = lineLoad p (endRun s1 t) t .tex f.dst.num.toNat (c.map d) := by
  subst ha
  simp only [sampleLane, h, counterFull_of_lt hroom, Bool.false_eq_true, if_false, ranLane_ok hsample, finishWith_fetched]

/-- The operands matter only in the thread itself. -/
theorem sampleLane_congr {args' : TRef → List Word} (h : args t = args' t) :
    sampleLane i f args p t = sampleLane i f args' p t := by
  simp only [sampleLane, h]

/-- The operands of a `tex` as it issues: its derivatives are its quad's (R409). -/
def texArgs (f : RForm) (p : State) (t : TRef) : List Word := sampleArgs f p (laneDerivs p f t) (srcVal p t .f32 f.c) t

/-- Those of a `texg`: its derivatives are given (R407). -/
def texgArgs (f : RForm) (p : State) (t : TRef) : List Word := sampleArgs f p ((srcRegs p t f.c 4).map BitVec.toNat) 0 t

/-- `tex` with one executing thread: the check of its quad, then the sample. -/
theorem exec_tex (h : IssuesTo (.tex f) .normal s g b t p) : exec (.tex f) s = .next (
    if b.checked && !(p.thread t).holds 3 && partnerMissing p g t then trapAt p t ⟨0x17, 0, 0, false, 0⟩
    else finishWith t (sampleLane (.tex f) f (texArgs f p) p t)) := by
  rw [exec_group h rfl]
  dsimp only
  cases hheld : (p.thread t).holds 3 with
  | true =>
    simp only [List.filter_cons, List.filter_nil, hheld, Bool.not_true, Bool.and_false, Bool.false_and, Bool.false_eq_true,
      if_false, List.any_nil]
    exact congrArg Host.Outcome.next (eachLane_standing h.standing _)
  | false =>
    simp only [List.filter_cons, List.filter_nil, hheld, Bool.not_false, Bool.and_true, Bool.false_eq_true, if_true,
      if_false, List.any_cons, List.any_nil, Bool.or_false]
    refine congrArg Host.Outcome.next (ite_congr rfl (fun _ => rfl) fun _ => eachLane_standing h.standing _)

theorem exec_texg (h : IssuesTo (.texg f) .normal s g b t p) :
    exec (.texg f) s = .next (finishWith t (sampleLane (.texg f) f (texgArgs f p) p t)) := exec_lane h rfl

/-- A sampling instruction past the check of its quad runs its lane function on the operands it issued with. -/
theorem exec_sample {e : Instr × List Nat × Nat}
    (he : e ∈ [(Instr.tex f, laneDerivs p f t, srcVal p t .f32 f.c), (.texg f, (srcRegs p t f.c 4).map BitVec.toNat, 0)])
    (h : IssuesTo e.1 .normal s g b t p)
    (hquad : e.1 = .tex f → (b.checked && !(p.thread t).holds 3 && partnerMissing p g t) = false) :
    exec e.1 s = .next (finishWith t (sampleLane e.1 f (sampleArgs f p e.2.1 e.2.2) p t)) := by
  simp only [List.mem_cons, List.not_mem_nil, or_false] at he
  obtain rfl | rfl := he
  · rw [exec_tex h, if_neg (Bool.eq_false_iff.mp (hquad rfl)),
      sampleLane_congr (args := texArgs f p) (args' := sampleArgs f p (laneDerivs p f t) (srcVal p t .f32 f.c)) rfl]
  · rw [exec_texg h, sampleLane_congr (args := texgArgs f p) (args' := sampleArgs f p ((srcRegs p t f.c 4).map BitVec.toNat) 0) rfl]

theorem exec_texq_traps (h : IssuesTo (.texq f) .normal s g b t p) {e : Trap}
    (he : texOf (.texq f) (srcRegs p t f.b 4) = .error e) : exec (.texq f) s = .next (trapAt p t e) := by
  rw [exec_lane h rfl, he, finishWith_trap]

theorem exec_texq_answers (h : IssuesTo (.texq f) .normal s g b t p) (hx : texOf (.texq f) (srcRegs p t f.b 4) = .ok x) :
    exec (.texq f) s = .next (advance (setV p t f.dst.num.toNat (d (if x.levels ≤ srcVal p t .n32 f.a then 0
      else x.levelW (srcVal p t .n32 f.a) + 2 ^ 16 * x.levelH (srcVal p t .n32 f.a)))) t) := by
  rw [exec_lane h rfl, hx, finishWith_done]

theorem exec_brick (h : IssuesTo (.brick f) .normal s g b t p) :
    exec (.brick f) s = .next (finishWith t (brickLane f p p t)) := exec_lane h rfl

/-- The operands that a `brick` goes on with: its own as it issues, or those a fetch held (R165). -/
def brickArgs (f : RForm) (p : State) (t : TRef) : List Word := runArgs p t (srcRegs p t f.b 2 ++ srcRegs p t f.a 3)

theorem brickLane_traps {e : Trap} (h : blockVa (pair (wAt (brickArgs f p t) 0) (wAt (brickArgs f p t) 1)) 64 = some e) :
    brickLane f p p t = (p, .trap e) := by
  unfold brickArgs at h
  simp only [brickLane, List.flatten_cons, List.flatten_nil, List.append_nil, h]

theorem brickLane_samples {v : Nat} {s2 : State} {r1 : Nat} {r2 : List Nat} {grid : Grid}
    (h : blockVa (pair (wAt (brickArgs f p t) 0) (wAt (brickArgs f p t) 1)) 64 = none) (hroom : (p.thread t).ld < 63)
    (hread : logged t (cachedRead .const t) (beginRun p t 0 (brickArgs f p t))
      (pair (wAt (brickArgs f p t) 0) (wAt (brickArgs f p t) 1)).toNat 64 = (s1, .ok v))
    (hgrid : gridOf v 0 = .ok grid)
    (hpoint : brickPoint grid (logged t (engineRead t)) (logged t (cachedRead .brick t)) s1
      ((((brickArgs f p t).drop 2).take 3).map BitVec.toNat) = (s2, .ok (r1, r2))) :
    finishWith t (brickLane f p p t) = lineLoad p (endRun s2 t) t .brick f.dst.num.toNat ((r1 :: r2).map d) := by
  unfold brickArgs at h hread hpoint
  simp only [brickLane, List.flatten_cons, List.flatten_nil, List.append_nil, h, counterFull_of_lt hroom,
    Bool.false_eq_true, if_false, Fetch.bind, hread, hgrid, hpoint, ranLane, finishWith_fetched]

end

/-- Settles O27: each instruction's descriptor check, then its run as a load. -/
theorem texturesAndBricksSample : Obligations.TexturesAndBricksSample := by
  intro f s p g b t k
  refine ⟨fun h hc hfresh hmiss => ?_, fun e he h hquad => ?_, fun h => ?_, fun h => ?_⟩
  · rw [exec_tex h, if_pos (by simp [hc, hfresh, hmiss])]
  · intro args
    have hargs : runArgs p t (sampleArgs f p e.2.1 e.2.2 t) = args := rfl
    rw [exec_sample he h hquad]
    refine ⟨fun x hx => ?_, fun x hx => ⟨fun hfull => ?_, fun hroom s1 c hsample => ?_⟩⟩
    · rw [sampleLane_traps (hargs ▸ hx), finishWith_trap]
    · rw [sampleLane_full (hargs ▸ hx) hfull, finishWith_stay]
    · rw [sampleLane_samples hargs hx hroom hsample]
  · exact ⟨fun x hx => exec_texq_traps h hx, fun x hx => exec_texq_answers h hx⟩
  · intro args va
    rw [exec_brick h]
    refine ⟨fun x hx => ?_, fun hx hroom s1 v s2 r1 r2 grid hread hgrid hpoint => ?_⟩
    · rw [brickLane_traps hx, finishWith_trap]
    · rw [brickLane_samples hx hroom hread hgrid hpoint]

end Sys2Proof.Machine
end

section
/-! PROOFS. Render and depth targets and task queues (R181-R183, R188-R190, R412-R417). -/

namespace Sys2Proof.Machine

/-! ### Targets -/

section
variable {f : RForm} {s p s1 : State} {g : Issue} {b : Block} {t : TRef} {i : Instr} {x : Target} {va : Nat}

theorem exec_rtw (h : IssuesTo (.rtw f) .normal s g b t p) : exec (.rtw f) s = .next (finishWith t (rtwLane f p t)) :=
  exec_lane h rfl

theorem rtwLane_traps {e : Trap} (h : targetOf (.rtw f) false (srcRegs p t f.c 4) = .error e) :
    rtwLane f p t = (p, .trap e) := by
  simp only [rtwLane, h]

section
variable (h : targetOf (.rtw f) false (srcRegs p t f.c 4) = .ok x)
include h

theorem rtwLane_outside (hpx : x.pixel (pixelBytes x.format) (wAt (srcRegs p t f.a 2) 0).toNat
    (wAt (srcRegs p t f.a 2) 1).toNat = none) : rtwLane f p t = (p, .done) := by
  simp only [rtwLane, h, hpx]

theorem rtwLane_writes (hpx : x.pixel (pixelBytes x.format) (wAt (srcRegs p t f.a 2) 0).toNat
      (wAt (srcRegs p t f.a 2) 1).toNat = some va)
    (hroom : (p.thread t).st < 63) (hend : va + pixelBytes x.format ≤ 2 ^ 57)
    (htouch : rasterTouch p t (threadReq p t 1 false) (va / 128 * 128) = (s1, .ok ()))
    (hraster : rasterRoom s1 (waveCore t.wave) (threadReq p t 1 false).asid (threadReq p t 1 false).agen
      (va / 128 * 128) = true) :
    rtwLane f p t = (pendStore (rasterWrite s1 t (threadReq p t 1 false) (va / 128 * 128)
      (byteMask (va % 128) (pixelBytes x.format))
      (linePut (va % 128) (colourBytes x.format ((srcRegs p t f.b 4).map BitVec.toNat)))) t 4 false, .done) := by
  simp only [rtwLane, h, hpx, counterFull_of_lt hroom, Bool.false_eq_true, if_false, Nat.not_lt_of_le hend, Mem.bind, htouch,
    hraster, if_true]
  rfl

end

section
variable {new : State → TRef → Option (Nat × Nat)}

theorem depthLane_traps {e : Trap} (h : targetOf i true (srcRegs p t f.c 4) = .error e) :
    depthLane i f new p t = (p, .trap e) := by
  simp only [depthLane, h]

variable (h : targetOf i true (srcRegs p t f.c 4) = .ok x)
include h

theorem depthLane_nothing (hno : x.pixel 8 (wAt (srcRegs p t f.a 2) 0).toNat (wAt (srcRegs p t f.a 2) 1).toNat = none ∨
    new p t = none) : depthLane i f new p t = begun t (endRegion p t, .done) := by
  obtain hpx | hnew := hno
  · simp only [depthLane, h, hpx]
  · cases hpx : x.pixel 8 (wAt (srcRegs p t f.a 2) 0).toNat (wAt (srcRegs p t f.a 2) 1).toNat <;>
      simp only [depthLane, h, hnew, hpx]

variable {depth word : Nat}
  (hpx : x.pixel 8 (wAt (srcRegs p t f.a 2) 0).toNat (wAt (srcRegs p t f.a 2) 1).toNat = some va)
  (hnew : new p t = some (depth, word)) (hroom : (p.thread t).st < 63) (hend : va + 8 ≤ 2 ^ 57)
include hpx hnew hroom hend

theorem depthLane_refused (hdepth : depthOk depth = false) :
    depthLane i f new p t = begun t (pendStore (endRegion p t) t 4 false, .done) := by
  simp only [depthLane, h, hpx, hnew, counterFull_of_lt hroom, Bool.false_eq_true, if_false, Nat.not_lt_of_le hend, hdepth,
    Bool.not_false, if_true]

theorem depthLane_updates (hdepth : depthOk depth = true)
    (hupd : depthUpdate (endRegion p t) (threadReq (endRegion p t) t 2 false) va depth word = (s1, .ok ())) :
    depthLane i f new p t = begun t (pendStore s1 t 4 false, .done) := by
  simp only [depthLane, h, hpx, hnew, counterFull_of_lt hroom, Bool.false_eq_true, if_false, Nat.not_lt_of_le hend, hdepth,
    Bool.not_true, hupd]

end

/-- The pair that a `zt` writes (R414). -/
def ztPair (f : RForm) (p : State) (t : TRef) : Option (Nat × Nat) :=
  some ((wAt (srcRegs p t f.b 2) 0).toNat, (wAt (srcRegs p t f.b 2) 1).toNat)

/-- The pair that a `vbw` writes, if its record is one of a hit (R414). -/
def vbwPair (f : RForm) (p : State) (t : TRef) : Option (Nat × Nat) :=
  if bits (wAt (srcRegs p t f.b 8) 0) 3 0 = 1 then
    some ((wAt (srcRegs p t f.b 8) 1).toNat, hitWord (srcRegs p t f.b 8)) else none

theorem exec_zt (h : IssuesTo (.zt f) .normal s g b t p) :
    exec (.zt f) s = .next (finishWith t (depthLane (.zt f) f (ztPair f) p t)) := exec_lane h rfl

theorem exec_vbw (h : IssuesTo (.vbw f) .normal s g b t p) :
    exec (.vbw f) s = .next (finishWith t (depthLane (.vbw f) f (vbwPair f) p t)) := exec_lane h rfl

/-- Both write their pair by one lane function. -/
theorem exec_depth {e : Instr × Option (Nat × Nat)} (he : e ∈ [(Instr.zt f, ztPair f p t), (.vbw f, vbwPair f p t)])
    (h : IssuesTo e.1 .normal s g b t p) :
    ∃ new : State → TRef → Option (Nat × Nat), new p t = e.2 ∧
      exec e.1 s = .next (finishWith t (depthLane e.1 f new p t)) := by
  simp only [List.mem_cons, List.not_mem_nil, or_false] at he
  obtain rfl | rfl := he
  · exact ⟨ztPair f, rfl, exec_zt h⟩
  · exact ⟨vbwPair f, rfl, exec_vbw h⟩

theorem exec_covq (h : IssuesTo (.covq f) .normal s g b t p) : exec (.covq f) s = .next (finishWith t (covqLane f p t)) :=
  exec_lane h rfl

theorem covqLane_traps {e : Trap} (h : targetOf (.covq f) true (srcRegs p t f.c 4) = .error e) :
    covqLane f p t = (p, .trap e) := by
  simp only [covqLane, h]

section
variable (h : targetOf (.covq f) true (srcRegs p t f.c 4) = .ok x) (hroom : (p.thread t).ld < 63)
include h hroom

theorem covqLane_outside (hpx : x.pixel 8 (8 * (wAt (srcRegs p t f.a 2) 0).toNat)
    (8 * (wAt (srcRegs p t f.a 2) 1).toNat) = none) :
    covqLane f p t = (loadResult p t 4 0 f.dst.num.toNat (toWords 2 0), .done) := by
  simp only [covqLane, h, hpx, counterFull_of_lt hroom, Bool.false_eq_true, if_false]

theorem covqLane_reads {ps : List Nat} (hpx : x.pixel 8 (8 * (wAt (srcRegs p t f.a 2) 0).toNat)
      (8 * (wAt (srcRegs p t f.a 2) 1).toNat) = some va) (hend : va + 512 ≤ 2 ^ 57)
    (hread : tilePairs p (threadReq p t 0 true) va = (s1, .ok ps)) :
    covqLane f p t = (loadResult s1 t 4 0 f.dst.num.toNat
      (toWords 2 (maskBits (ps.map fun v => b32Lt (v % 2 ^ 32) (srcWord p t f.b).toNat))), .done) := by
  simp only [covqLane, h, hpx, counterFull_of_lt hroom, Bool.false_eq_true, if_false, Nat.not_lt_of_le hend, hread]

end

/-- A target's failing descriptor traps each of the four before anything else (R412). -/
theorem target_traps {e : Instr × Bool} (he : e ∈ [(Instr.rtw f, false), (.zt f, true), (.vbw f, true), (.covq f, true)])
    (h : IssuesTo e.1 .normal s g b t p) {y : Trap} (hy : targetOf e.1 e.2 (srcRegs p t f.c 4) = .error y) :
    exec e.1 s = .next (trapAt p t y) := by
  simp only [List.mem_cons, List.not_mem_nil, or_false] at he
  obtain rfl | rfl | rfl | rfl := he
  · rw [exec_rtw h, rtwLane_traps hy, finishWith_trap]
  · rw [exec_zt h, depthLane_traps hy, finishWith_trap]
  · rw [exec_vbw h, depthLane_traps hy, finishWith_trap]
  · rw [exec_covq h, covqLane_traps hy, finishWith_trap]

end

/-! ### Task queues -/

section
variable {f : SForm} {s p s1 s2 : State} {g : Issue} {b : Block} {t : TRef} {i : Instr} {rel : Option RelTag}

theorem exec_emit (h : IssuesTo (.emit f) .normal s g b t p) : exec (.emit f) s = .next (finishWith t (emitLane f p t)) :=
  exec_lane h rfl

theorem emitLane_traps {x : Trap} (h : blockVa (q (rawSrc p t .b64 f.a)) 64 = some x) : emitLane f p t = (p, .trap x) := by
  simp only [emitLane, h]

theorem emitLane_appends {took : Bool} (h : blockVa (q (rawSrc p t .b64 f.a)) 64 = none)
    (hrel : doRelease (endRegion p t) t .device = (s1, .ok rel))
    (hpush : pushRecord (illegal (.emit f)) s1 (threadReq s1 t 2 false) (q (rawSrc p t .b64 f.a)).toNat
      ((srcRegs p t f.b 16).flatMap fun w => toBytes 4 w.toNat) = (s2, .ok took)) :
    emitLane f p t = begun t (setV s2 t f.dst.num.toNat (if took then 0 else 1), .done) := by
  simp only [emitLane, h, hrel, hpush]

section
variable {got empty : State → TRef → State × Lane}

theorem popTask_traps {x : Trap} (h : blockVa (q (rawSrc p t .b64 f.a)) 64 = some x) :
    popTask i f got empty p t = (p, .trap x) := by
  simp only [popTask, h]

theorem popTask_pops {r : Option (List Byte)} (h : blockVa (q (rawSrc p t .b64 f.a)) 64 = none)
    (hpop : popRecord (illegal i) (endRegion p t) (threadReq (endRegion p t) t 2 false) (q (rawSrc p t .b64 f.a)).toNat =
      (s1, .ok r)) :
    popTask i f got empty p t =
      r.elim (empty s1 t) fun bs => got (setVs (doAcquireAll s1 t) t f.dst.num.toNat (toWords 16 (ofBytes bs))) t := by
  cases r <;> simp only [popTask, h, hpop, Option.elim]

end

theorem exec_taskpop (h : IssuesTo (.taskpop f) .normal s g b t p) : exec (.taskpop f) s = .next (finishWith t
    (popTask (.taskpop f) f (fun s t => begun t (s, .done)) (fun s _ => (s, .stay .retest)) p t)) := exec_lane h rfl

theorem exec_taskpopTry (h : IssuesTo (.taskpopTry f) .normal s g b t p) : exec (.taskpopTry f) s = .next (finishWith t
    (popTask (.taskpopTry f) f (fun s t => begun t (setC s t f.b.num.toNat true, .done))
      (fun s t => begun t (setC s t f.b.num.toNat false, .done)) p t)) := exec_lane h rfl

theorem queue_traps (hi : i ∈ [Instr.emit f, .taskpop f, .taskpopTry f]) (h : IssuesTo i .normal s g b t p) {x : Trap}
    (hx : blockVa (q (rawSrc p t .b64 f.a)) 64 = some x) : exec i s = .next (trapAt p t x) := by
  simp only [List.mem_cons, List.not_mem_nil, or_false] at hi
  obtain rfl | rfl | rfl := hi
  · rw [exec_emit h, emitLane_traps hx, finishWith_trap]
  · rw [exec_taskpop h, popTask_traps hx, finishWith_trap]
  · rw [exec_taskpopTry h, popTask_traps hx, finishWith_trap]

end

/-- Settles O28: each target's or queue's checks, then its update. -/
theorem targetsAndTaskQueuesRun : Obligations.TargetsAndTaskQueuesRun := by
  refine ⟨?_, ?_⟩
  · intro f s p g b t k px py s0
    refine ⟨fun e he h x hx => target_traps he h hx, fun h x hx => ?_, fun e he h x hx => ?_, fun h x hx hroom => ?_⟩
    · intro n
      rw [exec_rtw h]
      refine ⟨fun hpx => ?_, ?_⟩
      · rw [rtwLane_outside hx hpx, finishWith_done]
      · intro va s1 hpx hroom hend r line htouch hraster v
        rw [rtwLane_writes hx hpx hroom hend htouch hraster, finishWith_done]
    · obtain ⟨new, hnew, hrun⟩ := exec_depth he h
      rw [hrun]
      refine ⟨fun hno => ?_, fun va depth word hpx hpair hroom hend => ⟨fun hdepth => ?_, fun hdepth s1 hupd => ?_⟩⟩
      · rw [depthLane_nothing hx (hno.imp_right hnew.trans), begun_done]
      · rw [depthLane_refused hx hpx (hnew.trans hpair) hroom hend hdepth, begun_done]
      · rw [depthLane_updates hx hpx (hnew.trans hpair) hroom hend hdepth hupd, begun_done]
    · intro give
      rw [exec_covq h]
      refine ⟨fun hpx => ?_, fun va s1 ps hpx hend hread => ?_⟩
      · rw [covqLane_outside hx hroom hpx, finishWith_done]
      · rw [covqLane_reads hx hroom hpx hend hread, finishWith_done]
  · intro f s p g b t va s0 dst
    refine ⟨fun i hi h x hx => queue_traps hi h hx, fun hva => ⟨fun h s1 rel s2 took hrel hpush => ?_, ?_⟩⟩
    · rw [exec_emit h, emitLane_appends hva hrel hpush, begun_done]
    · intro i hi h s1 got hpop taken
      refine ⟨fun hi => ?_, fun hi => ?_⟩
      · subst hi
        rw [exec_taskpop h, popTask_pops hva hpop]
        cases got <;> rfl
      · subst hi
        rw [exec_taskpopTry h, popTask_pops hva hpop]
        cases got <;> rfl

end Sys2Proof.Machine
end

section
/-! PROOFS. The marcher, the traversal unit, beams and the tile pre-pass (R154-R165, R173-R177, R199, R419-R426). -/

namespace Sys2Proof.Machine

/-! ### The marcher -/

section
variable {f : RForm} {s p s1 : State} {g : Issue} {b : Block} {t : TRef}

/-- The operands of a `march`: the ray, then the image and its parameters (R419). -/
def marchArgs (f : RForm) (p : State) (t : TRef) : List Word := runArgs p t (srcRegs p t f.a 8 ++ srcRegs p t f.b 4)

/-- Whether a thread may start a run of its own: it has a context, or its core has one (R159). -/
def marchFits (p : State) (t : TRef) : Prop :=
  (p.thread t).march ≠ none ∨ (p.thread t).holds 1 = true ∨ marchContexts p (waveCore t.wave) < 64

theorem exec_march (h : IssuesTo (.march f) .normal s g b t p) :
    exec (.march f) s = .next (finishWith t (marchLane f b p t)) := exec_lane h rfl

theorem marchLane_refused (h : imageField ((marchArgs f p t).drop 8) = true ∨ marchField ((marchArgs f p t).drop 8) = true) :
    marchLane f b p t = (p, .trap (illegal (.march f))) := by
  unfold marchArgs at h
  simp only [marchLane, List.flatten_cons, List.flatten_nil, List.append_nil, Bool.or_eq_true, h, if_true]

section
variable (himage : imageField ((marchArgs f p t).drop 8) = false) (hmarch : marchField ((marchArgs f p t).drop 8) = false)
include himage hmarch

theorem marchLane_traps {x : Trap} (hx : imageCheck p b ((marchArgs f p t).drop 8) = some x) :
    marchLane f b p t = (p, .trap x) := by
  unfold marchArgs at himage hmarch hx
  simp only [marchLane, List.flatten_cons, List.flatten_nil, List.append_nil, himage, hmarch, Bool.or_self,
    Bool.false_eq_true, if_false, hx]

variable (hnone : imageCheck p b ((marchArgs f p t).drop 8) = none) (hroom : (p.thread t).ld < 63)
include hnone hroom

theorem marchLane_waits (hctx : (p.thread t).march = none) (hheld : (p.thread t).holds 1 = false)
    (hfull : 64 ≤ marchContexts p (waveCore t.wave)) : marchLane f b p t = (p, .stay .recheck) := by
  unfold marchArgs at himage hmarch hnone
  simp [marchLane, himage, hmarch, hnone, counterFull_of_lt hroom, hctx, hheld, hfull]

theorem marchLane_runs {x : MarchEnd} (hfits : marchFits p t)
    (hrun : marchRun (imageIO b t ((marchArgs f p t).drop 8)) ((marchArgs f p t).take 8) ((marchArgs f p t).drop 8)
      (beginRun p t 1 (marchArgs f p t)) = (s1, .ok x)) :
    marchLane f b p t = (startMarch (endRun s1 t) t f.dst.num.toNat none x, .done) := by
  have hgo : ((p.thread t).march.isNone && !(p.thread t).holds 1 && decide (marchContexts p (waveCore t.wave) ≥ 64)) = false := by
    obtain h | h | h := hfits
    · simp [h]
    · simp [h]
    · simp [Nat.not_le_of_lt h]
  unfold marchArgs at himage hmarch hnone hrun
  simp only [marchLane, List.flatten_cons, List.flatten_nil, List.append_nil, himage, hmarch, Bool.or_self,
    Bool.false_eq_true, if_false, hnone, counterFull_of_lt hroom, hgo, ranLane_ok hrun]

end

theorem exec_opqret (h : IssuesTo (.opqret f) .normal s g b t p) :
    exec (.opqret f) s = .next (finishWith t (opqretLane f b p t)) := exec_lane h rfl

theorem opqretLane_refused (h : ((p.thread t).march.all fun c => c.mode != opqretMode f.xf) = true) :
    opqretLane f b p t = (p, .trap (illegal (.opqret f))) := by
  cases hm : (p.thread t).march with
  | none => simp only [opqretLane, hm]
  | some c =>
    have hmode : c.mode ≠ opqretMode f.xf := by simpa [hm] using h
    simp only [opqretLane, hm, hmode, ne_eq, not_false_eq_true, if_true]

theorem opqretLane_runs {c : MarchCtx} {x : MarchEnd} (hm : (p.thread t).march = some c) (hmode : c.mode = opqretMode f.xf)
    (hroom : (p.thread t).ld < 63)
    (hrun : marchResume (imageIO b t c.params) c (runArgs p t (srcRegs p t f.a (opqretRegs f.xf).1))
      (beginRun p t 1 (runArgs p t (srcRegs p t f.a (opqretRegs f.xf).1))) = (s1, .ok x)) :
    opqretLane f b p t = (startMarch (endRun s1 t) t f.dst.num.toNat (some c) x, .done) := by
  simp only [opqretLane, hm, hmode, ne_eq, not_true_eq_false, if_false, counterFull_of_lt hroom, Bool.false_eq_true,
    ranLane_ok hrun]

/-- A read of a march's record waits for the thread's runs (R420). -/
theorem mhitLane_waits {read : State → TRef → MarchRec → State × Lane} (h : (p.thread t).marchRuns ≠ []) :
    mhitLane read p t = (p, .stay .recheck) := if_pos h

theorem mhitLane_reads {read : State → TRef → MarchRec → State × Lane} (h : (p.thread t).marchRuns = []) :
    mhitLane read p t = read p t (p.thread t).marchRec := if_neg (not_not_intro h)

theorem mhit_waits {i : Instr} (hi : i ∈ [Instr.mhit f, .mhitCo f]) (h : IssuesTo i .normal s g b t p)
    (hruns : (p.thread t).marchRuns ≠ []) : exec i s = .next (setWait p t .recheck) := by
  simp only [List.mem_cons, List.not_mem_nil, or_false] at hi
  obtain rfl | rfl := hi <;> rw [exec_lane h rfl, mhitLane_waits hruns, finishWith_stay]

/-! ### The tile pre-pass -/

/-- The operands of a `bcprune`: the image and its room, then the box (R422). -/
def pruneArgs (f : RForm) (p : State) (t : TRef) : List Word := runArgs p t (srcRegs p t f.a 4 ++ srcRegs p t f.b 6)

/-- The box of a `bcprune`, axis by axis (R162). -/
def pruneBox (v : List Word) : List SVal :=
  (List.range 3).map fun i => SVal.iv (Iv.read ⟨(wAt v i).toNat, (wAt v (3 + i)).toNat⟩)

theorem exec_bcprune (h : IssuesTo (.bcprune f) .normal s g b t p) :
    exec (.bcprune f) s = .next (finishWith t (bcpruneLane f b p t)) := exec_lane h rfl

theorem bcpruneLane_refused (h : pruneField ((pruneArgs f p t).take 4) = true) :
    bcpruneLane f b p t = (p, .trap (illegal (.bcprune f))) := by
  unfold pruneArgs at h
  simp only [bcpruneLane, List.flatten_cons, List.flatten_nil, List.append_nil, h, if_true]

section
variable (hfield : pruneField ((pruneArgs f p t).take 4) = false)
include hfield

theorem bcpruneLane_traps {x : Trap} (hx : pruneCheck p b ((pruneArgs f p t).take 4) = some x) :
    bcpruneLane f b p t = (p, .trap x) := by
  unfold pruneArgs at hfield hx
  simp only [bcpruneLane, List.flatten_cons, List.flatten_nil, List.append_nil, hfield, Bool.false_eq_true, if_false, hx]

variable {status n : Nat} {out : Option (List Byte)} (hnone : pruneCheck p b ((pruneArgs f p t).take 4) = none)
  (hrun : pruneImage (imageIO b t ((pruneArgs f p t).take 4)) (bits (wAt ((pruneArgs f p t).take 4) 3) 16 0)
    (pruneBox ((pruneArgs f p t).drop 4)) (beginRun (endRegion p t) t 0 (pruneArgs f p t)) = (s1, .ok (status, n, out)))
include hnone hrun

theorem bcpruneLane_stored {s3 : State}
    (hstore : pruneStore (endRun s1 t) t b ((pruneArgs f p t).take 4) out = (s3, none)) :
    bcpruneLane f b p t = begun t (setVs s3 t f.dst.num.toNat [d status, d n], .done) := by
  unfold pruneArgs at hfield hnone hrun hstore
  unfold pruneBox at hrun
  simp only [bcpruneLane, List.flatten_cons, List.flatten_nil, List.append_nil, hfield, Bool.false_eq_true, if_false, hnone,
    ranLane_ok hrun, hstore]

theorem bcpruneLane_overflows {s3 : State} {x : Trap}
    (hstore : pruneStore (endRun s1 t) t b ((pruneArgs f p t).take 4) out = (s3, some x)) :
    bcpruneLane f b p t = (s3, .trap x) := by
  unfold pruneArgs at hfield hnone hrun hstore
  unfold pruneBox at hrun
  simp only [bcpruneLane, List.flatten_cons, List.flatten_nil, List.append_nil, hfield, Bool.false_eq_true, if_false, hnone,
    ranLane_ok hrun, hstore]

end

theorem pruneStore_nothing {k : List Word} : pruneStore s t b k none = (s, none) := by
  unfold pruneStore
  split
  · next h _ => exact absurd h (by simp)
  · rfl

theorem pruneStore_image {k : List Word} {bs : List Byte} {place : Place}
    (hplace : prunePlace b (wAt k 2).toNat (bits (wAt k 3) 16 0) = some place) :
    pruneStore s t b k (some bs) = placeWrite s t place bs := by
  simp only [pruneStore, hplace]

end

/-- Settles O29: each instruction's parameter checks, then its run, its record or its image. -/
theorem marchesRun : Obligations.MarchesRun := by
  refine ⟨⟨?_, ?_⟩, ?_⟩
  · intro f s p g b t th dst
    refine ⟨?_, fun h => ?_⟩
    · intro h args k
      rw [exec_march h]
      refine ⟨fun hbad => ?_, fun himage hmarch => ⟨fun x hx => ?_, fun hnone hroom => ⟨fun hctx hheld hfull => ?_,
        fun hfits s1 x hrun => ?_⟩⟩⟩
      · rw [marchLane_refused hbad, finishWith_trap]
      · rw [marchLane_traps himage hmarch hx, finishWith_trap]
      · rw [marchLane_waits himage hmarch hnone hroom hctx hheld hfull, finishWith_stay]
      · rw [marchLane_runs himage hmarch hnone hroom hfits hrun, finishWith_done]
    · rw [exec_opqret h]
      refine ⟨fun hno => ?_, ?_⟩
      · rw [opqretLane_refused hno, finishWith_trap]
      · intro c s1 x hm hmode hroom args hrun
        rw [opqretLane_runs hm hmode hroom hrun, finishWith_done]
  · intro f s p g b t r w0
    refine ⟨fun i hi h hruns => mhit_waits hi h hruns, fun hruns => ⟨fun h => ?_, fun h => ?_⟩⟩
    · rw [exec_lane h rfl, mhitLane_reads hruns, finishWith_done]
    · rw [exec_lane h rfl, mhitLane_reads hruns]
      refine ⟨fun hno => ?_, fun hyes => ?_⟩
      · rw [if_pos hno, finishWith_trap]
      · rw [if_neg (not_not_intro hyes), finishWith_done]
  · intro f s p g b t h args k v box
    rw [exec_bcprune h]
    refine ⟨fun hbad => ?_, fun hfield => ⟨fun x hx => ?_, ?_⟩⟩
    · rw [bcpruneLane_refused hbad, finishWith_trap]
    · rw [bcpruneLane_traps hfield hx, finishWith_trap]
    · intro hnone s1 status n out hrun done s2
      refine ⟨fun hout => ?_, fun bs place hout hplace => ⟨fun s3 hwrite => ?_, fun s3 x hwrite => ?_⟩⟩
      · rw [bcpruneLane_stored hfield hnone hrun (hout ▸ pruneStore_nothing), begun_done]
      · rw [bcpruneLane_stored hfield hnone hrun (hout ▸ (pruneStore_image hplace).trans hwrite), begun_done]
      · rw [bcpruneLane_overflows hfield hnone hrun (hout ▸ (pruneStore_image hplace).trans hwrite), finishWith_trap]

end Sys2Proof.Machine
end

section
/-! PROOFS. The traversal unit, its records, and beams (R173-R177, R184-R187, R423-R426). -/

namespace Sys2Proof.Machine

/-! ### `trace` -/

section
variable {f : RForm} {s p s1 : State} {g : Issue} {b : Block} {t : TRef} {x : TravEnd}

/-- The operands of a `trace`: the ray, then its parameters (R423). -/
def traceArgs (f : RForm) (p : State) (t : TRef) : List Word := runArgs p t (srcRegs p t f.a 8 ++ srcRegs p t f.b 4)

theorem exec_trace (h : IssuesTo (.trace f) .normal s g b t p) :
    exec (.trace f) s = .next (finishWith t (traceLane f p t)) := exec_lane h rfl

theorem traceLane_refused (h : bits (wAt ((traceArgs f p t).drop 8) 2) 31 13 ≠ 0 ∨ wAt ((traceArgs f p t).drop 8) 3 ≠ 0 ∨
      ((wAt ((traceArgs f p t).drop 8) 2).getLsbD 11 = true ∧ (p.thread t).trav = none)) :
    traceLane f p t = (p, .trap (illegal (.trace f))) := by
  unfold traceArgs at h
  have hbad := h.imp_right fun h => h.imp_right fun h => (Bool.and_eq_true _ _).mpr ⟨h.1, Option.isNone_iff_eq_none.mpr h.2⟩
  simp only [traceLane, List.flatten_cons, List.flatten_nil, List.append_nil]
  exact if_pos hbad

section
variable (hzero : bits (wAt ((traceArgs f p t).drop 8) 2) 31 13 = 0) (hlast : wAt ((traceArgs f p t).drop 8) 3 = 0)
include hzero hlast

section
variable (hfresh : (wAt ((traceArgs f p t).drop 8) 2).getLsbD 11 = false)
include hfresh

theorem traceLane_beyond (h : bits (wAt ((traceArgs f p t).drop 8) 1) 31 25 ≠ 0) :
    traceLane f p t = (p, .trap ⟨0x0B, 0, 0, false, 0⟩) := by
  unfold traceArgs at hzero hlast hfresh h
  simp only [traceLane, List.flatten_cons, List.flatten_nil, List.append_nil, hzero, hlast, hfresh, h, ne_eq,
    not_true_eq_false, not_false_eq_true, Bool.false_and, Bool.false_eq_true, or_self, if_false, Bool.not_false,
    decide_true, Bool.and_self, if_true]
  rfl

variable (hlow : bits (wAt ((traceArgs f p t).drop 8) 1) 31 25 = 0) (hroom : (p.thread t).ld < 63)
include hlow hroom

/-- A fresh `trace` past its checks: a context, then the traversal. -/
theorem traceLane_fresh : traceLane f p t =
    if (p.thread t).trav.isNone && !(p.thread t).holds 2 && decide (travContexts p (waveCore t.wave) ≥ 64) then
      (p, .stay .recheck)
    else
      ranLane t (traceRun (logged t (engineRead t)) ((traceArgs f p t).take 8) ((traceArgs f p t).drop 8)
        (beginRun p t 2 (traceArgs f p t))) fun s1 x => (startTrace s1 t f.dst.num.toNat none x, .done) := by
  unfold traceArgs at hzero hlast hfresh hlow ⊢
  simp only [traceLane, List.flatten_cons, List.flatten_nil, List.append_nil, hzero, hlast, hfresh, hlow, ne_eq,
    not_true_eq_false, Bool.false_and, Bool.false_eq_true, or_self, if_false, Bool.not_false, decide_false, Bool.and_false,
    counterFull_of_lt hroom]

theorem traceLane_waits (hctx : (p.thread t).trav = none) (hheld : (p.thread t).holds 2 = false)
    (hfull : 64 ≤ travContexts p (waveCore t.wave)) : traceLane f p t = (p, .stay .recheck) := by
  rw [traceLane_fresh hzero hlast hfresh hlow hroom]
  exact if_pos (by simp [hctx, hheld, hfull])

theorem traceLane_starts
    (hfits : (p.thread t).trav ≠ none ∨ (p.thread t).holds 2 = true ∨ travContexts p (waveCore t.wave) < 64)
    (hrun : traceRun (logged t (engineRead t)) ((traceArgs f p t).take 8) ((traceArgs f p t).drop 8)
      (beginRun p t 2 (traceArgs f p t)) = (s1, .ok x)) :
    traceLane f p t = (startTrace (endRun s1 t) t f.dst.num.toNat none x, .done) := by
  have hgo : ¬((p.thread t).trav.isNone && !(p.thread t).holds 2 && decide (travContexts p (waveCore t.wave) ≥ 64)) = true := by
    obtain h | h | h := hfits
    · simp [h]
    · simp [h]
    · simp [Nat.not_le_of_lt h]
  rw [traceLane_fresh hzero hlast hfresh hlow hroom, if_neg hgo, ranLane_ok hrun]

end

/-- A resumed `trace` goes on from its candidate, committed or not (R176). -/
theorem traceLane_resumes {c : TravCtx} (hresume : (wAt ((traceArgs f p t).drop 8) 2).getLsbD 11 = true)
    (hctx : (p.thread t).trav = some c) (hroom : (p.thread t).ld < 63)
    (hrun : travLoop (logged t (engineRead t)) travFuel (beginRun p t 2 (traceArgs f p t))
      (if (wAt ((traceArgs f p t).drop 8) 2).getLsbD 12 then c.commit (wAt ((traceArgs f p t).take 8) 7) else c) .pop =
        (s1, .ok x)) :
    traceLane f p t = (startTrace (endRun s1 t) t f.dst.num.toNat (some c) x, .done) := by
  unfold traceArgs at hzero hlast hresume hrun
  simp only [traceLane, List.flatten_cons, List.flatten_nil, List.append_nil, hzero, hlast, hresume, hctx, ne_eq,
    not_true_eq_false, Option.isNone_some, Bool.and_false, Bool.false_eq_true, or_self, if_false, Bool.not_true,
    Bool.false_and, counterFull_of_lt hroom, ranLane_ok hrun]

end

end

/-- Settles O30: the checks of `trace` in their order, then a fresh traversal or the resumed one. -/
theorem traversalsRun : Obligations.TraversalsRun := by
  intro f s p g b t h args ray k read s0 th resume dst
  rw [exec_trace h]
  refine ⟨fun hbad => ?_, fun hzero hlast hfresh => ⟨fun hhigh => ?_, fun hlow hroom => ⟨fun hctx hheld hfull => ?_,
    fun hfits s1 x hrun => ?_⟩⟩, fun c hzero hlast hresume hctx hroom s1 x hrun => ?_⟩
  · rw [traceLane_refused hbad, finishWith_trap]
  · rw [traceLane_beyond hzero hlast hfresh hhigh, finishWith_trap]
  · rw [traceLane_waits hzero hlast hfresh hlow hroom hctx hheld hfull, finishWith_stay]
  · rw [traceLane_starts hzero hlast hfresh hlow hroom hfits hrun, finishWith_done]
  · rw [traceLane_resumes hzero hlast hresume hctx hroom hrun, finishWith_done]

/-! ### Records, the stack and beams -/

section
variable {f : RForm} {s p s1 : State} {g : Issue} {b : Block} {t : TRef}

/-- A read of a traversal's record waits for the thread's runs (R424). -/
theorem thitLane_waits {read : State → TRef → HitRec → State × Lane} (h : (p.thread t).travRuns ≠ []) :
    thitLane read p t = (p, .stay .recheck) := if_pos h

theorem thitLane_reads {read : State → TRef → HitRec → State × Lane} (h : (p.thread t).travRuns = []) :
    thitLane read p t = read p t (p.thread t).hitRec := if_neg (not_not_intro h)

theorem thit_waits {i : Instr} (hi : i ∈ [Instr.thit f, .thitRay f]) (h : IssuesTo i .normal s g b t p)
    (hruns : (p.thread t).travRuns ≠ []) : exec i s = .next (setWait p t .recheck) := by
  simp only [List.mem_cons, List.not_mem_nil, or_false] at hi
  obtain rfl | rfl := hi <;> rw [exec_lane h rfl, thitLane_waits hruns, finishWith_stay]

theorem exec_tstack (h : IssuesTo (.tstack f) .normal s g b t p) :
    exec (.tstack f) s = .next (finishWith t (tstackLane f p t)) := exec_lane h rfl

theorem tstackLane_refused (h : (p.thread t).trav = none ∨ 3 < srcVal p t .n32 f.a) :
    tstackLane f p t = (p, .trap (illegal (.tstack f))) := by
  cases hc : (p.thread t).trav with
  | none => simp only [tstackLane, hc]
  | some c =>
    have hbig : 3 < srcVal p t .n32 f.a := h.resolve_left (by simp [hc])
    simp only [tstackLane, hc, hbig, if_true]

theorem tstackLane_reads {c : TravCtx} (hc : (p.thread t).trav = some c) (hn : srcVal p t .n32 f.a ≤ 3) :
    let first := c.stack.length + (if c.dropped then 16 else 0) + 2 ^ 8 * c.level + 2 ^ 16 * min c.restarts 65535
    let second := sumOf ((List.range 16).map fun m => 4 ^ m * (c.trail.getD (16 * srcVal p t .n32 f.a + m) 0 % 4))
    tstackLane f p t = (setVs p t f.dst.num.toNat [d first, d second], .done) := by
  intro first second
  rw [tstackLane, hc]
  exact if_neg (Nat.not_lt_of_le hn)

theorem exec_beam (h : IssuesTo (.beam f) .normal s g b t p) :
    exec (.beam f) s = .next (finishWith t (beamLane f b p t)) := exec_lane h rfl

theorem beamLane_traps {x : Trap} (h : blockVa (q (rawSrc p t .b64 f.a)) 128 = some x) :
    beamLane f b p t = (p, .trap x) := by
  simp only [beamLane, h]

/-- A beam as its unit holds it, walked or waiting for its turn (R187). -/
def beamOfRun (f : RForm) (p : State) (b : Block) (t : TRef) (status queue : Nat) (records : List (List Byte)) : Beam :=
  { t := t, block := b.id, dst := some f.dst.num.toNat, va := q (rawSrc p t .b64 f.a), pc := (p.thread t).pc
    bad := illegal (.beam f), walked := true, queue := q queue, asid := b.asid, agen := b.agen, part := b.part
    pending := records, retry := none, status := status, fin := false, hold := none, owed := none, genItem := b.genItem }

/-- A beam joins those of its quad. -/
def withBeam (b : Block) (s : State) (e : Beam) : State :=
  { s with beams := s.beams.upd [] (coreQuad b.core) (· ++ [e]) }

section
variable {status queue : Nat} {records : List (List Byte)} (hva : blockVa (q (rawSrc p t .b64 f.a)) 128 = none)
  (hroom : (p.thread t).ld < 63)
  (hrun : beamRun (illegal (.beam f)) (threadReq (endRegion p t) t 0 false) (q (rawSrc p t .b64 f.a)).toNat (endRegion p t) =
    (s1, .ok (status, queue, records)))
include hva hroom hrun

theorem beamLane_first (hhead : headBeam p (coreQuad b.core) = none) : beamLane f b p t =
    begun t (loadResult (withBeam b s1 (beamOfRun f p b t status queue records)) t 4 3 f.dst.num.toNat [0], .done) := by
  simp only [beamLane, hva, counterFull_of_lt hroom, Bool.false_eq_true, if_false, hrun, hhead, Option.isNone_none, if_true]
  rfl

theorem beamLane_behind (hhead : headBeam p (coreQuad b.core) ≠ none) : beamLane f b p t =
    begun t (loadResult (withBeam b (endRegion p t)
      { beamOfRun f p b t status queue records with walked := false, queue := 0, pending := [], status := 0 })
      t 4 3 f.dst.num.toNat [0], .done) := by
  simp only [beamLane, hva, counterFull_of_lt hroom, Bool.false_eq_true, if_false, hrun, Option.isNone_iff_eq_none, hhead]
  rfl

end

end

/-- Settles O31: a record once the thread's runs are over, the candidate's stack, and a beam by its quad's head. -/
theorem hitsAndBeamsRun : Obligations.HitsAndBeamsRun := by
  intro f s p g b t r dst
  refine ⟨fun i hi h hruns => thit_waits hi h hruns, fun hruns => ⟨fun h => ?_, fun h => ?_⟩, ?_, ?_⟩
  · rw [exec_lane h rfl, thitLane_reads hruns, finishWith_done]
  · rw [exec_lane h rfl, thitLane_reads hruns]
    refine ⟨fun hno => ?_, fun hyes => ?_⟩
    · rw [if_pos hno, finishWith_trap]
    · rw [if_neg (not_not_intro hyes), finishWith_done]
  · intro h n
    rw [exec_tstack h]
    refine ⟨fun hbad => ?_, ?_⟩
    · rw [tstackLane_refused hbad, finishWith_trap]
    · intro c hc hn first second
      rw [tstackLane_reads hc hn, finishWith_done]
  · intro h va
    rw [exec_beam h]
    refine ⟨fun x hx => ?_, ?_⟩
    · rw [beamLane_traps hx, finishWith_trap]
    · intro hva hroom s1 status queue records s0 hrun e queued
      refine ⟨fun hhead => ?_, fun hhead => ?_⟩
      · rw [beamLane_first hva hroom hrun hhead, begun_done]
        rfl
      · rw [beamLane_behind hva hroom hrun hhead, begun_done]
        rfl

end Sys2Proof.Machine
end

section
/-! PROOFS. Control and status registers, the return from a handler, services and markers (R227, R265, R266, R427-R430,
R477). -/

namespace Sys2Proof.Machine

/-! ### Control and status registers -/

/-- The registers that an access reaches: the eight, of which a 64-bit access reaches those of 64 bits (R265, R427). -/
def csrKnown (n : Nat) (wide : Bool) : Prop := n < 8 ∧ (wide = true → n = 2 ∨ n = 4 ∨ n = 5 ∨ n = 7)

section
variable {i : Instr} {n : Nat} {wide : Bool}

theorem csrTrap_beyond (h : 0x100 ≤ n) : csrTrap i n wide = some ⟨0x0B, 0, 0, false, 0⟩ := if_pos h

theorem csr_refused_iff : (8 ≤ n ∨ (wide ∧ [0, 1, 3, 6].contains n)) ↔ ¬csrKnown n wide := by
  simp only [csrKnown, List.contains_eq_mem, List.mem_cons, List.not_mem_nil, or_false, decide_eq_true_eq]
  constructor
  · rintro (h | ⟨hw, h⟩) ⟨hlt, himp⟩
    · omega
    · have := himp hw
      omega
  · intro h
    by_cases hlt : n < 8
    · have hw : wide = true := Decidable.byContradiction fun hno => h ⟨hlt, fun hyes => absurd hyes hno⟩
      have hno : ¬(n = 2 ∨ n = 4 ∨ n = 5 ∨ n = 7) := fun hyes => h ⟨hlt, fun _ => hyes⟩
      exact .inr ⟨hw, by omega⟩
    · exact .inl (by omega)

theorem csrTrap_unknown (hlow : n < 0x100) (h : ¬csrKnown n wide) : csrTrap i n wide = some (illegal i) :=
  (if_neg (Nat.not_le_of_lt hlow)).trans (if_pos (csr_refused_iff.mpr h))

theorem csrTrap_known (h : csrKnown n wide) : csrTrap i n wide = none :=
  (if_neg (by have := h.1; omega)).trans (if_neg fun hbad => csr_refused_iff.mp hbad h)

theorem badFmode_iff (v : BitVec 64) : badFmode v = true ↔ bits v 31 4 ≠ 0 ∨ bits v 2 0 = 0 ∨ bits v 2 0 = 7 := by
  simp [badFmode, or_assoc]

end

section
variable {f : IForm} {s p : State} {g : Issue} {b : Block} {t : TRef}

theorem exec_csrr (h : IssuesTo (.csrr f) .normal s g b t p) :
    exec (.csrr f) s = .next (finishWith t (csrrLane f p t)) := exec_lane h rfl

theorem exec_csrw (h : IssuesTo (.csrw f) .normal s g b t p) :
    exec (.csrw f) s = .next (finishWith t (csrwLane f p t)) := exec_lane h rfl

theorem csr_traps {i : Instr} (hi : i ∈ [Instr.csrr f, .csrw f]) (h : IssuesTo i .normal s g b t p) {x : Trap}
    (hx : csrTrap i (csrNum f) f.h.typ.is64 = some x) : exec i s = .next (trapAt p t x) := by
  simp only [List.mem_cons, List.not_mem_nil, or_false] at hi
  obtain rfl | rfl := hi
  · rw [exec_csrr h, csrrLane, hx, finishWith_trap]
  · rw [exec_csrw h, csrwLane, hx, finishWith_trap]

variable (hknown : csrKnown (csrNum f) f.h.typ.is64)
include hknown

theorem csrrLane_reads : csrrLane f p t =
    (setVs p t f.dst.num.toNat (toWords f.h.typ.regs ((p.thread t).csr (csrNum f)).toNat), .done) := by
  rw [csrrLane, csrTrap_known hknown]

theorem csrwLane_eq : csrwLane f p t =
    if csrNum f = 0 ∧ badFmode (q (rawSrc p t f.h.typ f.a)) = true then (p, .trap (illegal (.csrw f)))
    else (p.modThread t fun x => x.setCsr (csrNum f) f.h.typ.is64 (q (rawSrc p t f.h.typ f.a)), .done) := by
  rw [csrwLane, csrTrap_known hknown]

end

/-- Settles O32: the number's check, then the read or the write. -/
theorem controlRegistersRun : Obligations.ControlRegistersRun := by
  intro f s p g b t n wide v known
  refine ⟨fun i hi h => ⟨fun hbeyond => ?_, fun hlow hno => ?_⟩, fun hknown => ⟨fun h => ?_, fun h =>
    ⟨fun hz hbad => ?_, fun hgood => ?_⟩⟩⟩
  · exact csr_traps hi h (csrTrap_beyond hbeyond)
  · exact csr_traps hi h (csrTrap_unknown hlow hno)
  · rw [exec_csrr h, csrrLane_reads hknown, finishWith_done]
    rfl
  · rw [exec_csrw h, csrwLane_eq hknown, if_pos ⟨hz, (badFmode_iff _).mpr hbad⟩, finishWith_trap]
  · have hno : ¬(csrNum f = 0 ∧ badFmode v = true) := by
      rintro ⟨hz, hbad⟩
      obtain hnz | ⟨hhigh, h0, h7⟩ := hgood
      · exact hnz hz
      · exact ((badFmode_iff v).mp hbad).elim (fun hne => hne hhigh) fun h => h.elim h0 h7
    rw [exec_csrw h, csrwLane_eq hknown, if_neg hno, finishWith_done]
    rfl

/-! ### The return from a handler -/

section
variable {f : RForm} {s p : State} {g : Issue} {b : Block} {t : TRef}

theorem exec_tret (h : IssuesTo (.tret f) .normal s g b t p) :
    exec (.tret f) s = .next (finishWith t (tretLane f p t)) := exec_lane h rfl

theorem tretLane_outside (h : (p.thread t).handler = none) : tretLane f p t = (p, .trap (illegal (.tret f))) :=
  if_pos (Option.isNone_iff_eq_none.mpr h)

variable (hin : (p.thread t).handler ≠ none)
include hin

theorem tret_in_handler : ¬((p.thread t).handler.isNone = true) := fun h => hin (Option.isNone_iff_eq_none.mp h)

theorem tretLane_beyond (h : bits (p.thread t).tepc 63 57 ≠ 0) : tretLane f p t = (p, .trap ⟨0x0B, 0, 0, false, 0⟩) :=
  (if_neg (tret_in_handler hin)).trans (if_pos h)

variable (hlow : bits (p.thread t).tepc 63 57 = 0)
include hlow

theorem tretLane_no_slot (h : slotOffset (p.thread t).tepc = false) :
    tretLane f p t = (p, .trap ⟨0x03, 0, 0, false, 0⟩) :=
  (if_neg (tret_in_handler hin)).trans ((if_neg (not_not_intro hlow)).trans (if_pos (by rw [h]; rfl)))

theorem tretLane_returns (h : slotOffset (p.thread t).tepc = true) :
    tretLane f p t = (p.modThread t leaveHandler, .moved) :=
  (if_neg (tret_in_handler hin)).trans ((if_neg (not_not_intro hlow)).trans (if_neg (by rw [h]; decide)))

end

/-- A thread that leaves its handler (R266, R428). -/
theorem leaveHandler_eq (y : Thread) : leaveHandler y =
    { y with handler := none, e := y.tcause.getLsbD 31, pc := y.tepc, entry := .none
             bupdAt := y.bupdAt.filter fun w => w.1 = y.tepc } := by
  have hfilter : (match y.bupdAt with | some p => if p.1 = y.tepc then some p else none | none => none) =
      y.bupdAt.filter fun w => w.1 = y.tepc := by
    cases y.bupdAt with
    | none => rfl
    | some w => simp [Option.filter]
  rw [← hfilter]
  rfl

/-- Settles O33: the checks of `tret` in their order, and the handler left. -/
theorem handlersReturn : Obligations.HandlersReturn := by
  intro f s p g b t h x
  rw [exec_tret h]
  refine ⟨fun hout => ?_, fun hin => ⟨fun hbeyond => ?_, fun hlow hno => ?_, fun hlow hslot => ?_⟩⟩
  · rw [tretLane_outside hout, finishWith_trap]
  · rw [tretLane_beyond hin hbeyond, finishWith_trap]
  · rw [tretLane_no_slot hin hlow hno, finishWith_trap]
  · rw [tretLane_returns hin hlow hslot, finishWith_moved, funext leaveHandler_eq]

/-! ### Services and markers -/

section
variable {f : IForm} {s p s1 : State} {g : Issue} {b : Block} {t : TRef} {rel : Option RelTag}

theorem exec_svc (h : IssuesTo (.svc f) .normal s g b t p) (hrel : doRelease (endRegion p t) t .system = (s1, .ok rel)) :
    exec (.svc f) s = .next (finishWith t (postCall s1 t b f (q (rawSrc p t .b64 f.a)))) := by
  rw [exec_lane h rfl, svcLane, hrel]

theorem exec_trc (h : IssuesTo (.trc f) .normal s g b t p) :
    exec (.trc f) s = .next (advance (traceMarker p t b (bits f.imm 15 0) (srcWord p t f.a)) t) := exec_lane h rfl

end

/-- Settles O34: a call goes by the room of its ring; a marker is one lane function. -/
theorem servicesAndMarkersRun : Obligations.ServicesAndMarkersRun := by
  intro f s p g b t
  refine ⟨?_, exec_trc⟩
  intro h s1 rel hrel y arg
  rw [exec_svc h hrel]
  refine ⟨fun hfull => ?_, ?_⟩
  · exact exec_finish rfl (if_pos hfull)
  · intro hroom record j s2 s3
    exact exec_finish rfl (if_neg (Bool.eq_false_iff.mp hroom))

end Sys2Proof.Machine
end

section
/-! PROOFS. What the device does by itself: waits that end, owed traps, stamped items and illegal words (R21-R42, R133,
R195-R202, R243, R262). -/

namespace Sys2Proof.Machine

/-- What an event's own function answers is what the event does. -/
theorem exec_event {i : Instr} {s a a' : State} (he : exec i s = .next a) (h : a = a') : exec i s = .next a' := h ▸ he

/-! ### Waits that end -/

section
variable {s : State} {w l : Nat} {b : Block}

theorem ageingBonus_ages (hw : (s.waves.find? w).isSome = true) (h : 512 ≤ (s.wave w).waited) :
    exec (.ageingBonus w) s = .next (s.modWave w fun x => { x with bonus := min 7 (x.bonus + 1), waited := 0 }) :=
  exec_event rfl (if_pos ⟨hw, h⟩)

theorem joinTimeout_releases (ha : s.alive ⟨w, l⟩ = true) (hw : (s.thread ⟨w, l⟩).wait = some (.join 0)) :
    exec (.joinTimeout w l) s = .next (releaseTogether s (joinedWith s ⟨w, l⟩)) := exec_event rfl (if_pos ⟨ha, hw⟩)

theorem sleepExpire_goes_on (ha : s.alive ⟨w, l⟩ = true) (hw : (s.thread ⟨w, l⟩).wait = some (.cycles 0)) :
    exec (.sleepExpire w l) s = .next (advance (clearWait s ⟨w, l⟩) ⟨w, l⟩) := exec_event rfl (if_pos ⟨ha, hw⟩)

theorem waitcWake_completes {dst : Nat} {cs : List (BitVec 64)} {all : Bool} {n : Option Nat} (ha : s.alive ⟨w, l⟩ = true)
    (hw : (s.thread ⟨w, l⟩).wait = some (.waitc dst cs all n)) (hb : s.threadBlock? ⟨w, l⟩ = some b)
    (hmet : condMet cs.length all (condBits s ⟨w, l⟩ b cs) = true) :
    exec (.waitcWake w l) s = .next (advance (clearWait (finishWaitc s ⟨w, l⟩ b dst cs false) ⟨w, l⟩) ⟨w, l⟩) := by
  refine exec_event rfl ?_
  simp only [hw, hb, ha, hmet, and_self, if_true]

theorem waitcTimeout_completes {dst : Nat} {cs : List (BitVec 64)} {all : Bool} {m : Nat} (ha : s.alive ⟨w, l⟩ = true)
    (hw : (s.thread ⟨w, l⟩).wait = some (.waitc dst cs all (some m))) (hb : s.threadBlock? ⟨w, l⟩ = some b)
    (hm : m ≤ s.tick.toNat) :
    exec (.waitcTimeout w l) s = .next (advance (clearWait (finishWaitc s ⟨w, l⟩ b dst cs true) ⟨w, l⟩) ⟨w, l⟩) := by
  refine exec_event rfl ?_
  simp only [hw, hb, ha, hm, and_self, if_true]

theorem counterRoom_eq {c : Nat} (hw : (s.thread ⟨w, l⟩).wait = some (.counterRoom c)) : exec (.counterRoom w l) s =
    .next (if counterOf (s.thread ⟨w, l⟩) c < 63 then clearWait s ⟨w, l⟩ else s) := by
  refine exec_event rfl ?_
  simp only [hw]

theorem trackerEntryFree_wakes {core k : Nat} (h : trackerFull s core k = false) : exec (.trackerEntryFree core k) s =
    .next ((laneSetThreads s (2 * core) ++ laneSetThreads s (2 * core + 1)).foldl (fun s t =>
      if (s.thread t).wait = some (.trackerRoom k) then clearWait s t else s) s) := by
  refine exec_event rfl ((if_neg (Bool.eq_false_iff.mp h)).trans ?_)
  simp

theorem implicitAcquire_grants {u : TRef} {n k : Nat} (hu : u ∈ waveThreads s w)
    (hw : (s.thread u).wait = some (.ext n k true)) :
    exec (.implicitAcquire w) s = .next (grantExt s (waveLaneSet w)) :=
  exec_event rfl (if_pos (List.any_eq_true.mpr ⟨u, hu, by rw [hw]⟩))

end

/-- Settles O35: each wait's event, on the condition that ends it. -/
theorem waitsEnd : Obligations.WaitsEnd := by
  intro s w l t
  refine ⟨fun ls => rfl, ageingBonus_ages, fun ha => ⟨joinTimeout_releases ha, sleepExpire_goes_on ha,
    fun dst cs all n b hw hb => ⟨waitcWake_completes ha hw hb, fun m hm => ?_⟩⟩, fun c hw => ⟨fun hroom => ?_,
    fun hfull => ?_⟩, fun core k => trackerEntryFree_wakes, fun ls => rfl, fun u hu n k hw => implicitAcquire_grants hu hw⟩
  · subst hm
    exact waitcTimeout_completes ha hw hb
  · rw [counterRoom_eq hw, if_pos hroom]
  · rw [counterRoom_eq hw, if_neg (Nat.not_lt_of_le hfull)]

/-! ### Owed traps, items, and words and lines that are refused -/

section
variable {s : State} {w l : Nat} {b : Block}

theorem matrixTrapDelivery_traps {x : MxTrap} {rest : List MxTrap} (ha : s.alive ⟨w, l⟩ = true)
    (hx : (s.thread ⟨w, l⟩).mxTraps = x :: rest) :
    exec (.matrixTrapDelivery w l) s = .next (effects (s.modThread ⟨w, l⟩ fun y => { y with mxTraps := rest })
      [.trap ⟨w, l⟩ ⟨x.code, x.pc, q (x.cv + 2 ^ 16 * x.seq), true, 0⟩ (s.thread ⟨w, l⟩).pc]) := by
  refine exec_event rfl ?_
  simp only [ha, Bool.not_true, Bool.false_eq_true, if_false, hx]

section
variable (hb : s.threadBlock? ⟨w, l⟩ = some b) (ha : s.alive ⟨w, l⟩ = true) (hfree : (s.thread ⟨w, l⟩).stamp = .free)
  (hhalt : b.halted = false)
include hb ha hfree hhalt

/-- A sub-item of the thread's cluster comes first (R202). -/
theorem stampItem_second {y : Template} (hy : openSecond s b = some y) : exec (.stampItem w l) s = .next (stampThread
    ((s.modTpl y.id fun y => { y with next := y.next + 1, live := y.live + 1 }).modLaunch b.launch fun l =>
      { l with itemsLive := l.itemsLive + 1 }) ⟨w, l⟩ y y.next) := by
  refine exec_event rfl ?_
  simp only [hb, ha, hfree, hhalt, Bool.not_true, Bool.false_eq_true, ne_eq, not_true_eq_false, or_self, if_false, hy]

variable {lc : Launch} (hnone : openSecond s b = none) (hlc : s.launch? b.launch = some lc)
include hnone hlc

theorem stampItem_next {i : Nat} {y : Template} (hi : nextItem s b lc ⟨w, l⟩ = some i) (hy : lc.tpl.bind s.tpl? = some y) :
    exec (.stampItem w l) s = .next (stampThread
      ((s.modLaunch b.launch fun l => { l with itemNext := l.itemNext + 1, itemsLive := l.itemsLive + 1 }).modThread ⟨w, l⟩
        fun x => { x with taken := x.taken + 1 }) ⟨w, l⟩ y i) := by
  refine exec_event rfl ?_
  simp only [hb, ha, hfree, hhalt, Bool.not_true, Bool.false_eq_true, ne_eq, not_true_eq_false, or_self, if_false, hnone,
    hlc, hi, hy]

theorem stampItem_ends (hi : nextItem s b lc ⟨w, l⟩ = none) : exec (.stampItem w l) s = .next (endThread s ⟨w, l⟩) := by
  refine exec_event rfl ?_
  simp only [hb, ha, hfree, hhalt, Bool.not_true, Bool.false_eq_true, ne_eq, not_true_eq_false, or_self, if_false, hnone,
    hlc, hi]

end

theorem templateBankEntryFree_wakes {core : Nat} (h : bankFree s core = true) : exec (.templateBankEntryFree core) s =
    .next ((s.blocks.flatMap fun b => if (clusterCores s b).contains core then blockAlive s b else []).foldl
      (fun s t => if (s.thread t).wait = some .bankEntry then clearWait s t else s) s) := exec_event rfl (if_pos h)

theorem rawWho_eq (op : Nat) : rawWho op = if op ∈ [0x01, 0x02, 0x03, 0x04, 0x06] then .guarded
    else if 0x66 ≤ op ∧ op ≤ 0x69 then .all else if 0xB0 ≤ op ∧ op ≤ 0xB5 then .matrix else .normal := by
  simp only [rawWho, List.contains_iff_mem]

theorem illegalInstruction_traps {g : Issue} {w0 w1 : BitVec 32} (hg : s.cur = some g) (hb : s.waveBlock? g.wave = some b) :
    let go (t : TRef) : Bool := executes s b (rawHead w0) (rawWho (bits w0 7 0)) t
    exec (.illegalInstruction w0 w1) s = .next (((groupThreads s g).filter go).foldl
      (fun s t => trapAt s t ⟨0x01, w0.zeroExtend 64, w1.zeroExtend 64, false, 0⟩)
      (((groupThreads s g).filter fun t => !go t).foldl advance s)) := by
  refine exec_event rfl ?_
  simp only [hg, Option.bind_some, hb, Option.map_some]

theorem illegalLine_traps {g : Issue} {failed : BitVec 6} (hg : s.cur = some g) :
    exec (.illegalLine failed) s = .next ((groupThreads s g).foldl
      (fun s t => trapAt s t ⟨0x02, q (g.pc.toNat / 64 * 64), failed.zeroExtend 64, false, 0⟩) s) := by
  refine exec_event rfl ?_
  simp only [hg]

end

/-- Settles O36: each event, on the state that it acts in. -/
theorem owedTrapsAndItems : Obligations.OwedTrapsAndItems := by
  intro s w l t
  refine ⟨fun x rest ha hx => matrixTrapDelivery_traps ha hx, fun b hb ha hfree hhalt =>
    ⟨fun y hy => stampItem_second hb ha hfree hhalt hy, fun lc hnone hlc =>
      ⟨fun i y hi hy => stampItem_next hb ha hfree hhalt hnone hlc hi hy, stampItem_ends hb ha hfree hhalt hnone hlc⟩⟩,
    fun core => templateBankEntryFree_wakes, ?_, fun g failed hg => illegalLine_traps hg⟩
  intro g b w0 w1 hg hb op who go
  have hgo : go = fun t => executes s b (rawHead w0) (rawWho (bits w0 7 0)) t := by
    rw [rawWho_eq]; rfl
  rw [hgo]
  exact illegalInstruction_traps hg hb

end Sys2Proof.Machine
end

section
/-! PROOFS. Completions: loads, stores, write-backs, units, messages, samples, matrix operations, copy requests and fills
(R38, R96, R118-R136, R154, R174, R187, R210, R211, R377, R385, R487, R506, R518, R534, R537). -/

namespace Sys2Proof.Machine

/-! ### Loads, stores and lines -/

section
variable {s s1 : State} {i : Nat}

theorem loadComplete_returns {l : PendLoad} (hl : s.loads[i]? = some l) (hlive : l.live = false) (hunit : l.unit = 0)
    (hnear : l.stranded s = false) : exec (.loadComplete i) s = .next (retireLoads
      { writeLoad s l with loads := (writeLoad s l).loads.modify i fun x => { x with live := true, regs := [] } } l.t) := by
  refine exec_event rfl ?_
  simp only [hl, hlive, hunit, hnear, Bool.false_eq_true, ne_eq, not_true_eq_false, or_self, if_false]

theorem loadComplete_stranded {l : PendLoad} (hl : s.loads[i]? = some l) (hunit : l.unit = 0) (hfar : l.stranded s = true) :
    exec (.loadComplete i) s = .next (if l.since.any fun n => n + 10000 ≤ s.tick.toNat then refuseLoad s l else s) := by
  have hlive : l.live = false := by
    simp only [PendLoad.stranded, Bool.and_eq_true, Bool.not_eq_true'] at hfar
    exact hfar.1
  refine exec_event rfl ?_
  simp only [hl, hlive, hunit, hfar, Bool.false_eq_true, ne_eq, not_true_eq_false, or_self, if_false, if_true]

theorem storePerformed_performs {p : PendStore} (hp : s.stores[i]? = some p) (hfin : p.fin = false)
    (hbuf : p.buffered = false) : exec (.storePerformed i) s =
      .next (retireStores { s with stores := s.stores.modify i fun x => { x with fin := true } } p.t) := by
  refine exec_event rfl ?_
  simp only [hp, hfin, hbuf, Bool.false_eq_true, or_self, if_false]

theorem homeBankWriteJudged_judges {y x : WriteBack} (hy : s.wbs[i]? = some y) :
    let same (x : WriteBack) : Bool := x.core == y.core && x.asid == y.asid && x.agen == y.agen && x.va == y.va
    s.wbs.find? same = some x →
    exec (.homeBankWriteJudged i) s = .next (judgeWb { s with wbs := dropFirst same s.wbs } x) := by
  intro same hx
  refine exec_event rfl ?_
  simp only [hy]
  rw [hx]

theorem csmLineToDram_writes {l : CsmLine} {clean : Bool} (hl : s.csm[i]? = some l) (hw : writeLineBack s l = (s1, clean)) :
    exec (.csmLineToDram i) s =
      .next (if clean then { s1 with csm := s1.csm.filter fun x => !x.is l.asid l.agen l.va } else s1) := by
  refine exec_event rfl ?_
  simp only [hl, hw]

end

/-! ### Units, messages and samples -/

theorem modThread_congr {s : State} {t : TRef} {f g : Thread → Thread} (h : f (s.thread t) = g (s.thread t)) :
    s.modThread t f = s.modThread t g := by
  unfold State.modThread
  rw [h]

theorem marchStops_eq {x : Thread} {r : MarchRun} {rest : List MarchRun} (hr : x.marchRuns = r :: rest) :
    x.marchStops r = { x with marchRuns := rest, marchRec := r.left, march := r.next.orElse fun _ => x.march
                              unitsWere := (x.marchStops r).unitsWere } := by
  unfold Thread.marchStops
  rw [hr, List.drop_one, List.tail_cons]

theorem travStops_eq {x : Thread} {r : TravRun} {rest : List TravRun} (hr : x.travRuns = r :: rest) :
    x.travStops r = { x with travRuns := rest, hitRec := r.left, trav := r.next.orElse fun _ => x.trav
                             unitsWere := (x.travStops r).unitsWere } := by
  unfold Thread.travStops
  rw [hr, List.drop_one, List.tail_cons]

section
variable {s s1 : State} {w l : Nat}

theorem marchStop_stops {r : MarchRun} {rest : List MarchRun} (hr : (s.thread ⟨w, l⟩).marchRuns = r :: rest)
    (hrun : runsHalted s ⟨w, l⟩ = false) : exec (.marchStop w l) s =
      .next (unitDone (s.modThread ⟨w, l⟩ fun x => x.marchStops r) ⟨w, l⟩ 1 (wAt r.left.words 0)) := by
  refine exec_event rfl ?_
  simp only [hr, hrun, Bool.false_eq_true, if_false]

theorem traversalStop_stops {r : TravRun} {rest : List TravRun} (hr : (s.thread ⟨w, l⟩).travRuns = r :: rest)
    (hrun : runsHalted s ⟨w, l⟩ = false) : exec (.traversalStop w l) s =
      .next (unitDone (s.modThread ⟨w, l⟩ fun x => x.travStops r) ⟨w, l⟩ 2 (wAt r.left.words 0)) := by
  refine exec_event rfl ?_
  simp only [hr, hrun, Bool.false_eq_true, if_false]

theorem marchStop_halted (h : runsHalted s ⟨w, l⟩ = true) : exec (.marchStop w l) s = .next s := by
  refine exec_event rfl ?_
  dsimp only
  split
  · rfl
  · exact if_pos h

theorem traversalStop_halted (h : runsHalted s ⟨w, l⟩ = true) : exec (.traversalStop w l) s = .next s := by
  refine exec_event rfl ?_
  dsimp only
  split
  · rfl
  · exact if_pos h

end

section
variable {s s1 : State} {quad core i : Nat} {e : Beam}

section
variable (he : headBeam s quad = some e)
include he

theorem beamComplete_owed {x : Trap} (hx : e.owed = some x) :
    exec (.beamComplete quad) s = .next (beamTrap s quad e x) := by
  have hready : beamReady e = true := by unfold beamReady; rw [hx]; rfl
  refine exec_event rfl ?_
  simp only [he, hready, Bool.not_true, Bool.false_eq_true, if_false, hx]

theorem beamQueueRetryExpire_completes {n : Nat} (hn : e.retry = some n) (ht : n + 4096 ≤ s.tick.toNat) :
    exec (.beamQueueRetryExpire quad) s = .next (completeBeam s quad { e with pending := [], status := 1 }) := by
  refine exec_event rfl ?_
  simp only [he, hn, ht, if_true]

variable (hready : beamReady e = true) (howed : e.owed = none)
include hready howed

theorem beamComplete_walks (hw : e.walked = false) : exec (.beamComplete quad) s = .next (walkBeam s quad e) := by
  refine exec_event rfl ?_
  simp only [he, hready, howed, hw, Bool.not_true, Bool.false_eq_true, if_false, Bool.not_false, if_true]

theorem beamComplete_completes (hw : e.walked = true)
    (hq : queueRecords e.bad (beamReq s e 2) e.queue.toNat (e.pending.length + 1) s e.pending = (s1, [], none)) :
    exec (.beamComplete quad) s = .next (completeBeam s1 quad { e with pending := [] }) := by
  refine exec_event rfl ?_
  simp only [he, hready, howed, hw, Bool.not_true, Bool.false_eq_true, if_false, hq]

end

theorem messageArrival_delivers {m : Message} {n : Nat} {r : Receive}
    (hm : s.messages.find? (fun m => m.dest == core) = some m) (hcore : core < 65536)
    (hr : receiveFor (({ s with messages := dropFirst (fun x => x.id == m.id) s.messages } : State).core core) m = some (n, r)) :
    exec (.messageArrival core) s = .next (acceptMessage
      (deliver { s with messages := dropFirst (fun x => x.id == m.id) s.messages } core n r m) m) := by
  refine exec_event rfl ?_
  simp only [hm, Nat.not_le_of_lt hcore, if_false]
  rw [hr]

theorem peerAccessTimeout_traps {h : PeerHold} {since : Nat} (hh : s.peerHolds[i]? = some h)
    (ht : h.tick + 10000 ≤ s.tick.toNat) (hw : (s.thread h.t).wait = some (.peer since)) (ha : s.alive h.t = true) :
    exec (.peerAccessTimeout i) s =
      .next (trapAt { s with peerHolds := s.peerHolds.eraseIdx i } h.t ⟨0x0B, 0, 0, false, 0⟩) := by
  have hw' : (({ s with peerHolds := s.peerHolds.eraseIdx i } : State).thread h.t).wait = some (.peer since) := hw
  refine exec_event rfl ?_
  simp only [hh, ht, if_true]
  rw [hw']
  exact if_pos ha

theorem memorySample_ends {e : Sample}
    (he : (s.part (corePart s core)).trace.samples.find? (fun e => e.core == core) = some e) (hdone : e.waits s = false) :
    let p := corePart s core
    let s1 := modTrace s p fun u => { u with samples := dropFirst (fun x => x.core == core) u.samples }
    let r := finishSample s1 e.body
    exec (.memorySample core) s = .next (if (r.1.part p).trace.opened then postTrace r.1 p r.2 else r.1) := by
  intro p s1 r
  have hdue : sampleDue s core = some e := by
    unfold sampleDue
    rw [he]
    simp [Option.filter, hdone]
  refine exec_event rfl ?_
  dsimp only
  rw [hdue]

end

/-- Settles O37: each completion's own function, on the entry that completes. -/
theorem memoryAndUnitsFinish : Obligations.MemoryAndUnitsFinish := by
  refine ⟨fun s i => ⟨?_, fun l hl hunit hfar => loadComplete_stranded hl hunit hfar,
    fun p hp hfin hbuf => storePerformed_performs hp hfin hbuf, fun y x hy => homeBankWriteJudged_judges hy,
    fun l s1 clean hl hw => csmLineToDram_writes hl hw⟩, fun s w l => ⟨fun r rest hr hrun => ?_, fun r rest hr hrun => ?_,
    fun h => ⟨marchStop_halted h, traversalStop_halted h⟩, fun quad e he => ⟨fun x hx => beamComplete_owed he hx,
      fun hw hready howed => ⟨fun s1 x hrun => ?_, fun s1 status queue records hrun => ?_⟩,
      fun s1 hw hready howed hq => beamComplete_completes he hready howed hw hq,
      fun n hn ht => beamQueueRetryExpire_completes he hn ht⟩,
    fun core m n r hm hcore hr => messageArrival_delivers hm hcore hr,
    fun i h since hh ht hw ha => peerAccessTimeout_traps hh ht hw ha, fun core e he hdone => memorySample_ends he hdone⟩⟩
  · intro l hl hlive hunit hnear s1
    exact loadComplete_returns hl hlive hunit hnear
  · refine (marchStop_stops hr hrun).trans (congrArg (fun s => Host.Outcome.next (unitDone s _ _ _)) (modThread_congr ?_))
    exact marchStops_eq hr
  · refine (traversalStop_stops hr hrun).trans (congrArg (fun s => Host.Outcome.next (unitDone s _ _ _)) (modThread_congr ?_))
    exact travStops_eq hr
  · rw [beamComplete_walks he hready howed hw, walkBeam, hrun]
  · rw [beamComplete_walks he hready howed hw, walkBeam, hrun]

/-! ### Matrix operations -/

section
variable {s s1 : State} {core arr n : Nat} {b : Block} {op op1 : MxOp} {rest : List MxOp}

theorem matrixStateClear_clears (h : (s.core core).mx.clear = true) : exec (.matrixStateClear core) s =
    .next (modMatrix s core fun m =>
      { m with clear := false, arrays := m.arrays.map fun a => { MxArray.init with queue := a.queue, gen := a.gen } }) :=
  exec_event rfl (if_pos h)

theorem matrixHolderFree_wakes (h : (s.core core).mx.holder = none) : exec (.matrixHolderFree core) s =
    .next (((s.blocks.filter fun b => b.core == core).flatMap (blockAlive s)).foldl
      (fun s t => if (s.thread t).wait = some .matrixHolder then clearWait s t else s) s) :=
  exec_event rfl (if_pos (by rw [h]; rfl))

section
variable {e : Nat × MxOp} (he : (s.core core).mx.waiting.find? (fun e => e.1 == arr) = some e) (hb : mxHolder s core = some b)
  (hclear : (s.core core).mx.clear = false) (hroom : (mxArray s core arr).queue.length < 8)
include he hb hclear hroom

theorem matrixQueueRoom_enters (hheld : e.2.held = false) : exec (.matrixQueueRoom core arr) s =
    .next (enterQueue (modMatrix s core fun m => { m with waiting := dropFirst (fun x => x.1 == arr) m.waiting }) b arr e.2) := by
  refine exec_event rfl ?_
  simp only [he, hb, hclear, Nat.not_le_of_lt hroom, hheld, Bool.false_eq_true, or_self, if_false, Bool.not_false, if_true]

theorem matrixQueueRoom_signs {t : TRef} {pc : BitVec 64} (hheld : e.2.held = true)
    (hlast : e.2.signers.getLast? = some (t, pc, n)) :
    let s1 := modMatrix s core fun m => { m with waiting := dropFirst (fun x => x.1 == arr) m.waiting }
    exec (.matrixQueueRoom core arr) s =
      .next (if s1.alive t = true ∧ (s1.thread t).wait = some .matrixQueue then lastSigns s1 b arr e.2 t pc else s1) := by
  intro s1
  refine exec_event rfl ?_
  simp only [he, hb, hclear, Nat.not_le_of_lt hroom, hheld, hlast, Bool.false_eq_true, or_self, if_false, Bool.not_true]
  rfl

end

theorem matrixOperationStart_starts (hq : (mxArray s core arr).queue = op :: rest) (hb : mxHolder s core = some b)
    (hstarted : op.started = false) (hclear : (s.core core).mx.clear = false) (hhalt : b.halted = false)
    (hcycle : op.cycle < s.cycle) (hready : streamReady s b op = some n) (hrun : startOp s b arr op n = (s1, op1)) :
    exec (.matrixOperationStart core arr) s = .next (setHead s1 core arr op1) := by
  refine exec_event rfl ?_
  simp only [hq, hb, hstarted, hclear, hhalt, Nat.not_le_of_lt hcycle, hready, hrun, Bool.false_eq_true, or_self, if_false]

theorem headComplete_iff (hq : (mxArray s core arr).queue = op :: rest) : headComplete s core arr = true ↔
    op.done = true ∧ ∀ b, mxHolder s core = some b → op.opcode ≠ 4 ∨ lastCounted s b op = true := by
  unfold headComplete
  cases hb : mxHolder s core <;> simp [hq]

theorem completeOp_completes (hq : (mxArray s core arr).queue = op :: rest) (hdone : headComplete s core arr = true) :
    let s1 := op.signers.foldl (countMatrix op) (modArray s core arr fun a => { a with queue := a.queue.drop 1 })
    completeOp core arr s = match (s1.core core).mx.holder.bind (tryBlockEnd s1) with
      | some (s2, e) => effects s2 e
      | none => s1 := by
  intro s1
  unfold completeOp
  simp only [hq, hdone, Bool.not_true, Bool.false_eq_true, if_false]
  rfl

end

/-- Settles O38: each event's own function, on the operation that stands first. -/
theorem matrixOperationsProceed : Obligations.MatrixOperationsProceed := by
  refine fun s core arr => ⟨matrixStateClear_clears, matrixHolderFree_wakes, fun e b he hb hclear hroom => ?_,
    fun op rest b n s1 op1 hq hb hstarted hclear hhalt hcycle hready hrun =>
      matrixOperationStart_starts hq hb hstarted hclear hhalt hcycle hready hrun,
    fun op rest hq => ⟨fun _ _ _ => rfl, fun hdone hlast => ?_⟩⟩
  · exact ⟨matrixQueueRoom_enters he hb hclear hroom, fun t pc n hheld hl => matrixQueueRoom_signs he hb hclear hroom hheld hl⟩
  · intro s1
    have hhead := (headComplete_iff hq).mpr ⟨hdone, fun b hb => hlast.imp id fun h => h b hb⟩
    exact exec_event (a := completeOp core arr s) rfl (completeOp_completes hq hhead)

/-! ### Copy requests and fills -/

section
variable {s : State} {n : Nat}

theorem copyRequestStart_starts {r : CopyReq} (h : startable s n = some r) :
    exec (.copyRequestStart n) s = .next (modReq s n r.seq fun x => { x with started := true }) := by
  refine exec_event rfl ?_
  simp only [h]

theorem copyPieceWritten_moves {r : CopyReq} (h : (s.ctx n).reqs.find? (canMove s) = some r)
    (hok : s.failedEngines.contains (ctxEngine s n) = false) : exec (.copyPieceWritten n) s = .next (pieceStep s r) := by
  refine exec_event rfl ?_
  simp only [h]
  exact if_neg (Bool.eq_false_iff.mp hok)

theorem copyRequestRetire_retires {r : CopyReq} (h : (s.ctx n).reqs.find? (fun r => !r.retired) = some r)
    (hfin : r.fin = true) :
    let s1 := match r.error with
      | some e => postFault s r.part (copyRecord s r e)
      | none => s
    exec (.copyRequestRetire n) s = .next (settleCp (modReq (moveTimeline s1 n r.seq r.error.isSome) n r.seq fun x =>
      { x with retired := true }) r.t r.block) := by
  intro s1
  refine exec_event rfl ?_
  simp only [retireCtx, h, hfin, Bool.not_true, Bool.false_eq_true, if_false]
  rfl

/-- Any value picks an element of a list that is not empty. -/
theorem exists_getElem?_mod {α : Type} {l : List α} (h : l ≠ []) (v : Nat) : ∃ x ∈ l, l[v % l.length]? = some x :=
  have hlt := Nat.mod_lt v (List.length_pos_iff.mpr h)
  ⟨_, List.getElem_mem hlt, List.getElem?_eq_getElem hlt⟩

theorem generatorBind_binds {f : Fill} {r : Region}
    (h : (queuedFills s n).find? (fun e => generatorSlots s n e.1 e.2 != []) = some (f, r)) :
    ∃ e ∈ generatorSlots s n f r, exec (.generatorBind n) s = .next (bindGenerator s.fresh.2 f r e.1 e.2) := by
  have hfree : generatorSlots s n f r ≠ [] := by simpa using List.find?_some h
  obtain ⟨e, hmem, he⟩ := exists_getElem?_mod hfree s.fresh.1.toNat
  refine ⟨e, hmem, exec_event rfl ?_⟩
  simp only [h]
  rw [he]

theorem fillTimeout_fails {f : Fill} {b : Block} {r : Region} (hf : fillOfGen s n = some f) (hb : s.block? n = some b)
    (hr : region? s f.part f.region = some r) (hlimit : r.timeout ≠ 0) (hend : b.fillendAt = none)
    (hdue : f.bindTick + r.timeout ≤ s.tick.toNat) : ∃ pc,
    exec (.fillTimeout n) s = .next (effects (s.modBlock n fun x => { x with faulted := true })
      (.failFill f.part f.region f.block 0x0E 0xFF pc :: endBlockThreads s n)) := by
  refine ⟨((blockAlive s b).head?.map fun t => (s.thread t).pc).getD 0, exec_event rfl ?_⟩
  simp only [hf, hb, hr]
  cases blockAlive s b with
  | nil => exact if_pos ⟨hlimit, hend, hdue⟩
  | cons t ts => exact if_pos ⟨hlimit, hend, hdue⟩

theorem generatorMatrixPreempt_displaces {f : Fill} {r : Region}
    (h : (queuedFills s n).find? (matrixLate s n) = some (f, r)) (hsome : displaceable s n ≠ []) :
    ∃ b ∈ displaceable s n, exec (.generatorMatrixPreempt n) s =
      .next (haltCoord (modFill s.fresh.2 f.part f.region f.block fun x => { x with waitTick := s.tick.toNat })
        b.launch b.coord false) := by
  obtain ⟨b, hmem, hb⟩ := exists_getElem?_mod hsome s.fresh.1.toNat
  refine ⟨b, hmem, exec_event rfl ?_⟩
  simp only [h]
  rw [hb]

end

/-- Settles O39: each event's own function, on the request or fill it is for. -/
theorem enginesProceed : Obligations.EnginesProceed :=
  fun _ _ => ⟨fun _ h => copyRequestStart_starts h, fun _ h hok => copyPieceWritten_moves h hok,
    fun _ h hfin => copyRequestRetire_retires h hfin, fun _ _ h => generatorBind_binds h,
    fun _ _ _ hf hb hr hlimit hend hdue => fillTimeout_fails hf hb hr hlimit hend hdue,
    fun _ _ h hsome => generatorMatrixPreempt_displaces h hsome⟩

end Sys2Proof.Machine
end

section
/-! PROOFS. Queues, admission and binders (R459, R461-R464, R467, R468, R470-R474, R477). -/

namespace Sys2Proof.Machine

/-! ### Queues and admission -/

section
variable {s : State} {p i : Nat} {v : BitVec 64}

/-- The queue's tail is the value that was written. -/
def tailWritten (s : State) (p i : Nat) (v : BitVec 64) : State :=
  modQueue s p i fun x => { x with tail := v.extractLsb' 0 16 }

theorem qtailWrite_rings
    (h : (launchQueue (tailWritten s p i v) p i).pending ≤ 2 ^ (launchQueue (tailWritten s p i v) p i).sz - 1) :
    exec (.qtailWrite p i v) s = .next (tailWritten s p i v) :=
  exec_event rfl (if_pos h)

theorem qtailWrite_stops
    (h : 2 ^ (launchQueue (tailWritten s p i v) p i).sz - 1 < (launchQueue (tailWritten s p i v) p i).pending) :
    exec (.qtailWrite p i v) s =
      .next (cutQueue (modQueue (tailWritten s p i v) p i fun x => { x with err := true, en := false }) p i 2) :=
  exec_event rfl (if_neg (Nat.not_le_of_lt h))

section
variable (hhold : (launchQueue s p i).hold = none)
  (hnone : ((queueLaunches s p i).any fun l => l.state == .validated) = false)
include hhold hnone

theorem launchSubmit_validates {va : BitVec 64} (hptr : (launchQueue s p i).ptr = some va) :
    exec (.launchSubmit p i) s = .next (validate s p i va) := by
  refine exec_event rfl ?_
  simp only [hhold, hnone, hptr, Option.isSome_none, Bool.false_eq_true, or_self, if_false]

theorem launchSubmit_reads (hptr : (launchQueue s p i).ptr = none) (hen : (launchQueue s p i).en = true)
    (herr : (launchQueue s p i).err = false) (hpend : (launchQueue s p i).head ≠ (launchQueue s p i).tail) :
    exec (.launchSubmit p i) s = .next (readEntry s p i) := by
  refine exec_event rfl ?_
  simp only [hhold, hnone, hptr, hen, herr, Option.isSome_none, Bool.false_eq_true, or_self, if_false, Bool.not_false]
  exact if_pos ⟨trivial, trivial, hpend⟩

end

/-- A launch is admitted under the next sequence, at its queue's cap. -/
def admitted (s : State) (h : Nat) (l : Launch) : State :=
  let n := nextSeq s l.part
  let prio := min l.d.prio (launchQueue s l.part l.queue).pcap
  (s.modLaunch h fun l => { l with state := .admitted, prio := prio, admSeq := n, admTick := s.tick.toNat }).modPart
    l.part fun p => { p with admitSeq := (n + 1) % 2 ^ 29 }

section
variable {h : Nat} {l : Launch} (hl : s.launch? h = some l) (hstate : l.state = .validated) (hwait : waitMet s l.d = true)
  (hswap : (s.part l.part).swapped = false)
include hl hstate hwait hswap

theorem launchAdmit_admits (hmode : (s.part l.part).mode = 0) : exec (.launchAdmit h) s = .next (admitted s h l) := by
  refine exec_event rfl ?_
  simp only [hl]
  refine (if_neg ?_).trans (if_pos hmode)
  simp [hstate, hwait, hswap, hmode]

theorem launchAdmit_records (hmode : (s.part l.part).mode ≠ 0) (hroom : (s.part l.part).eventsFull = false)
    (hnone : (s.part l.part).events = []) : exec (.launchAdmit h) s =
      .next (writeEvent (admitted s h l) l.part (eventRecord 1 l.queue h
        (nextSeq s l.part + 2 ^ 29 * min l.d.prio (launchQueue s l.part l.queue).pcap) l.descVa)) := by
  refine exec_event rfl ?_
  simp only [hl]
  refine (if_neg ?_).trans (if_neg hmode)
  simp [hstate, hwait, hswap, hroom, hnone]

end

end

/-- Settles O40: each event's own function, on the queue or launch it is for. -/
theorem launchesAreQueuedAndAdmitted : Obligations.LaunchesAreQueuedAndAdmitted := by
  intro s p i v s1
  refine ⟨qtailWrite_rings, qtailWrite_stops, ?_, ?_, fun h l hl hstate hwait hswap => ?_, ?_⟩
  · intro s1
    exact exec_event rfl rfl
  · intro x hhold hnone
    exact ⟨fun va => launchSubmit_validates hhold hnone, launchSubmit_reads hhold hnone⟩
  · exact ⟨launchAdmit_admits hl hstate hwait hswap, launchAdmit_records hl hstate hwait hswap⟩
  · intro s1
    exact exec_event rfl rfl

/-! ### The arbiter's commit -/

/-- A launch of two clusters of one block each, of which cluster (1, 0, 0) is bound. -/
def halfBoundLaunch : Launch :=
  { handle := 0, part := 0, queue := 0, descVa := 0
    d := { flags := 0, stages := 1, prio := 0, entries := [0, 0, 0, 0], grid := (2, 1, 1), bpc := 1, shape := (32, 1, 1), waves := 1
           pregrant := 0, scratch := 0, wayMask := 0, cvs := 0, fifos := 0, argVa := 0, argBytes := 0, latency := 0, schedVa := 0
           segBytes := 0, pin := 0xFFFFFFFF, compCtx := 0xFFFF, compVal := 0, waitCtx := 0xFFFF, waitVal := 0, items := 0
           chan := [0, 0, 0] }
    asid := 0, agen := 0, state := .admitted, prio := 0, admSeq := 0, admTick := 0, bonus := 0, bound := [((1, 0, 0), 0, 0)]
    endedBlocks := 0, lifeSum := 0, lifeCount := 0, faulted := false, itemNext := 0, itemsLive := 0, tpl := none
    prologueLost := false, sched := 0, shares := [], boundaries := 0, busySum := [0], epochs := [], ring := [], raced := [] }

/-- The arbiter's reservation of cluster (0, 0, 0): lane slot 1 of core 0. -/
def firstReservation : Reservation :=
  ⟨0, ⟨0, 0, 0b10, 0, 0, 0, (0, 0, 0), 0, 0, claimTag halfBoundLaunch⟩, 0, 0, 0⟩

/-- The bound block of cluster (1, 0, 0): lane slot 0 of core 0. -/
def secondBlock : Block :=
  boundBlock State.reset halfBoundLaunch ⟨0, { firstReservation.r with slots := 0b1, coord := (1, 0, 0) }, 0, 0, 0⟩

/-- A drain of cluster (1, 0, 0) is under way on core 0 (R497), where cluster (0, 0, 0) is reserved and not committed. -/
def drainingState : State :=
  ({ State.reset with launches := [(0, halfBoundLaunch)], blocks := [secondBlock], nextBlock := 1
                      reservations := [firstReservation] } : State).modPart 0 fun p =>
    { p with mode := 0, preempts := [⟨0, (1, 0, 0), 1, [0]⟩] }

/-- The drain closes the reservation's core, though no slot of it is reserved for generators. -/
theorem drainingState_closed : closedTo drainingState 0 halfBoundLaunch firstReservation = true ∧
    firstReservation.r.slotList.any (reservedSlot drainingState 0 firstReservation.core) = false := by decide +kernel

theorem drainingState_move : nextRecord drainingState 0 = none ∧
    arbiterMove drainingState 0 = some (.commit halfBoundLaunch firstReservation) := by decide +kernel

/-- The arbiter gives the reservation back: no block is bound. -/
theorem drainingState_commit : exec (.bindCommit 0) drainingState =
    .next { dropReservation drainingState firstReservation with backoffs := [] } := by
  obtain ⟨hring, hmove⟩ := drainingState_move
  refine exec_event rfl ?_
  rw [hring, arbiterCommit, hmove]
  simp only [drainingState_closed.1, if_true]
  rfl

/-- Refutes O41: the statement's arbiter commits a reservation unless one of its slots is reserved for generators, but the
model's also gives back one whose core a drain has closed since (R497), as in `drainingState`. -/
theorem not_bindersProceed : ¬ Obligations.BindersProceed := by
  intro h
  obtain ⟨-, -, -, -, -, harbiter, -⟩ := h drainingState 0 0
  obtain ⟨hring, hmove⟩ := drainingState_move
  have hcommit := (harbiter hring).2 halfBoundLaunch firstReservation hmove
  rw [drainingState_commit, drainingState_closed.2] at hcommit
  have hblocks := congrArg State.nextBlock (Host.Outcome.next.inj hcommit)
  exact absurd hblocks (by decide +kernel)

end Sys2Proof.Machine
end

section
/-! PROOFS. The pager's commands, and the saving and restoring of state (R139, R478, R479, R484-R500). -/

namespace Sys2Proof.Machine

/-! ### Commands -/

section
variable {s : State} {p : Nat}

theorem command_refuses {check : Option Nat} {run : State → State} {e : Nat} (h : check = some e) :
    command s p check run = .next (endCommand s p e) := by
  subst h
  rfl

theorem command_runs {check : Option Nat} {run : State → State} (h : check = none) :
    command s p check run = .next (endCommand (run s) p 0) := by
  subst h
  rfl

theorem exec_ends {i : Instr} {a a' : State} {e : Nat} (he : exec i s = .next (endCommand a p e)) (h : a = a') :
    exec i s = .next (endCommand a' p e) := h ▸ he

/-- Where a requester that waits on a fault stands (R490). -/
def faultWaiter (f : PageFault) (w : Option Wait) : Option (BitVec 64) :=
  (w.bind pageWait).bind fun e => if e.1 = f.id then some e.2 else none

/-- A copy request that waits on a fault of its partition has failed (R490). -/
def failRequest (p : Nat) (f : PageFault) (r : CopyReq) : CopyReq :=
  if r.part = p then (faultWaiter f r.parked).elim r fun va =>
    { r with error := r.error.orElse fun _ => some (0x0A, va, 0), dead := true, parked := none } else r

theorem failPage_eq (s : State) (p : Nat) (f : PageFault) :
    let s1 := { s with pageFaults := s.pageFaults.filter (· != f) }
    let s2 := freeHolds s1 (fun b _ w => b.part == p && (faultWaiter f (some w)).isSome) (some (simpleTrap 0x0A))
    let s3 := modReqs s2 (failRequest p f)
    let s4 := modQueues s3 p fun x => if x.hold = some f.id then
      { x with hold := none, lost := x.lost || !x.table, lostTable := x.lostTable || x.table } else x
    let s5 := (s4.csm.filter (heldLine p f)).foldl
      (fun s l => dropRecord s 9 l.part 0xFFFF l.asid l.agen l.va l.dirty) s4
    let s6 := { s5 with csm := s5.csm.filter fun l => !heldLine p f l }
    failPage s p f = effects s6 ((partThreads s6 p).filterMap fun t =>
      (faultWaiter f (s6.thread t).wait).map fun pc => .trap t (simpleTrap 0x0A) pc) := by
  unfold failPage
  extract_lets s1 s2 s3 s4 s5 s6 on s1' req queue s2' s3' lost s4' s5'
  have hon : on = faultWaiter f := funext fun w => by
    dsimp only [on, faultWaiter]
    cases w.bind pageWait <;> rfl
  have hreq : req = failRequest p f := funext fun r => by
    dsimp only [req, failRequest]
    rw [hon]
    cases faultWaiter f r.parked <;> rfl
  clear_value req
  subst hreq
  clear_value on
  subst hon
  rfl

theorem unresolvable_fails {f : PageFault}
    (h : s.pageFaults.find? (fun f => f.id == pgArg s p 0 && faultWaited s p f) = some f) :
    exec (.unresolvable p) s = .next (endCommand (failPage s p f) p 0) := by
  have he : exec (.unresolvable p) s = execUnresolvable p s := rfl
  rw [he, execUnresolvable, h]
  rfl

theorem unresolvable_refuses (h : s.pageFaults.find? (fun f => f.id == pgArg s p 0 && faultWaited s p f) = none) :
    exec (.unresolvable p) s = .next (endCommand s p 2) := by
  have he : exec (.unresolvable p) s = execUnresolvable p s := rfl
  rw [he, execUnresolvable, h]
  rfl

theorem fillGo_refuses (h : fillingCheck s p = none) : exec (.fillGo p) s = .next (endCommand s p 2) := by
  have he : exec (.fillGo p) s = execFillGo p s := rfl
  rw [he, execFillGo, h]
  rfl

theorem fillFail_refuses (h : fillingCheck s p = none) : exec (.fillFail p) s = .next (endCommand s p 2) := by
  have he : exec (.fillFail p) s = execFillFail p s := rfl
  rw [he, execFillFail, h]
  rfl

section
variable {f : Fill} (h : fillingCheck s p = some f)
include h

theorem fillGo_eq : exec (.fillGo p) s = command s p (if f.queued ∨ f.gen.isSome then some 2 else none) fun s =>
    { s with fills := (s.fills.filter fun x => x != f) ++ [{ f with queued := true, order := s.seq, waitTick := s.tick.toNat }]
             seq := s.seq + 1 } := by
  have he : exec (.fillGo p) s = execFillGo p s := rfl
  rw [he, execFillGo, h]

theorem fillFail_fails : exec (.fillFail p) s = .next (endCommand (effects s (.failFill p f.region f.block 0x0E
    (BitVec.ofNat 8 (pgArg s p 2)) 0 :: (f.gen.map (endBlockThreads s)).getD [])) p 0) := by
  have he : exec (.fillFail p) s = execFillFail p s := rfl
  rw [he, execFillFail, h]
  cases hg : f.gen <;> simp only [hg] <;> rfl

end

theorem endLaunch_outside (hh : 4096 ≤ pgArg s p 0) : exec (.endLaunch p) s = .next (endCommand s p 2) := by
  have he : exec (.endLaunch p) s = execEndLaunch p s := rfl
  rw [he, execEndLaunch]
  simp only [hh, if_true]
  exact command_refuses rfl

theorem endLaunch_far {l : Launch} (hh : pgArg s p 0 < 4096) (hl : s.launch? (pgArg s p 0) = some l) :
    exec (.endLaunch p) s = command s p (if l.part = p then none else some 3) fun s => discardLaunch s (pgArg s p 0) := by
  have he : exec (.endLaunch p) s = execEndLaunch p s := rfl
  rw [he, execEndLaunch]
  simp only [Nat.not_le_of_lt hh, if_false, hl] <;> rfl

theorem endLaunch_unknown (hh : pgArg s p 0 < 4096) (hl : s.launch? (pgArg s p 0) = none) :
    exec (.endLaunch p) s = .next (endCommand s p 3) := by
  have he : exec (.endLaunch p) s = execEndLaunch p s := rfl
  rw [he, execEndLaunch]
  simp only [Nat.not_le_of_lt hh, if_false, hl]
  rfl

/-- A launch of another partition, or none: the command leaves error 3. -/
theorem endLaunch_refuses (hh : pgArg s p 0 < 4096)
    (hl : (s.launch? (pgArg s p 0)).all (fun l => l.part != p) = true) :
    exec (.endLaunch p) s = .next (endCommand s p 3) := by
  cases hfind : s.launch? (pgArg s p 0) with
  | none => exact endLaunch_unknown hh hfind
  | some l =>
    have hpart : l.part ≠ p := by simpa [hfind] using hl
    exact (endLaunch_far hh hfind).trans (command_refuses (if_neg hpart))

theorem clearTimelineError_eq {check : Option Nat}
    (h : (if 1024 ≤ pgArg s p 0 then some 2 else if !ctxAllowed s p (pgArg s p 0) then some 3 else none) = check) :
    exec (.clearTimelineError p) s = command s p check fun s1 =>
      s1.modCtx (pgArg s p 0) fun x => { x with counter := q (x.counter.toNat % 2 ^ 63) } := by
  subst h
  rfl

theorem swapIn_restores (h : poolUsed s p ≤ 2 * (s.part p).shways) :
    let s1 := s.modPart p fun x => { x with swapped := false }
    let mine (i : Image) : Bool := i.swapped && i.written && (s1.launch? i.launch).any fun l => l.part == p
    exec (.partitionSwapIn p) s = .next (endCommand ((s1.images.filter mine).foldl swapInImage s1) p 0) := by
  intro s1 mine
  refine exec_ends (Eq.trans (b := execPartitionSwapIn p s) rfl (command_runs (if_neg (Nat.not_lt_of_le h)))) ?_
  refine congrArg (fun g => List.foldl swapInImage s1 (s1.images.filter g)) (funext fun i => ?_)
  refine congrArg (fun b => i.swapped && i.written && b) ?_
  have hl : s1.launch? i.launch = s.launch? i.launch := rfl
  rw [hl]
  cases s.launch? i.launch <;> rfl

theorem swapOut_refuses
    (h : granulesFree s p < sumOf ((residentCoords s p).map fun c => imageGranules s (coordBlocks s c.1 c.2))) :
    exec (.partitionSwapOut p) s = .next (endCommand s p 4) := (if_pos h :)

theorem swapOut_saves
    (h : sumOf ((residentCoords s p).map fun c => imageGranules s (coordBlocks s c.1 c.2)) ≤ granulesFree s p) :
    let s1 := (s.blocks.filter fun b => b.gen && b.part == p).foldl flushGenerator s
    let s2 := (residentCoords s p).foldl (fun s c => haltCoord s c.1 c.2 true) s1
    exec (.partitionSwapOut p) s =
      .next (endSwap (s2.modPart p fun x => { x with swapped := true, pgerr := 0, pgbusy := true }) p) :=
  (if_neg (Nat.not_lt_of_le h) :)

end

/-- Settles O42: each command's own function, by the check of its arguments. -/
theorem pagerCommandsRun : Obligations.PagerCommandsRun := by
  intro s p done
  refine ⟨rfl, ?_, fun f hf => ?_, unresolvable_refuses, ?_, fun h => ?_, fun h => ?_, fun h => ?_,
    fun h => ?_, fun f h => ⟨fun hq hg => ?_, fun hq => ?_, fillFail_fails h⟩, ?_, fun hc ho => ?_, fun hc => ?_,
    fun hc ho => ?_, ?_, ?_⟩
  · exact rfl
  · exact exec_ends (unresolvable_fails hf) (failPage_eq s p f)
  · simp only [List.mem_cons, List.not_mem_nil, or_false]
    rintro e (rfl | rfl | rfl) err herr
    · exact Eq.trans (b := execTlbInvalidate p s) rfl (command_refuses herr)
    · exact Eq.trans (b := execRangeWriteBack p s) rfl (command_refuses herr)
    · exact Eq.trans (b := execGenerationBump p s) rfl (command_refuses herr)
  · exact Eq.trans (b := execTlbInvalidate p s) rfl (command_runs h)
  · refine exec_ends (Eq.trans (b := execRangeWriteBack p s) rfl (command_runs h)) ?_
    refine congrArg (fun g => List.foldl g _ _) (funext fun s => funext fun l => ?_)
    cases hw : peekWalk s l.asid l.va with
    | leaf pa n w x => simp only [hw, if_true]
    | absent n e => simp only [hw, Bool.false_eq_true, if_false]
  · exact Eq.trans (b := execGenerationBump p s) rfl (command_runs h)
  · simp only [List.mem_cons, List.not_mem_nil, or_false]
    rintro i (rfl | rfl)
    · exact fillGo_refuses h
    · exact fillFail_refuses h
  · exact (fillGo_eq h).trans (command_runs (if_neg (by simp [hq, hg])))
  · exact (fillGo_eq h).trans (command_refuses (if_pos (by simpa [Option.isSome_iff_ne_none] using hq)))
  · intro h
    exact ⟨endLaunch_outside, endLaunch_refuses,
      fun l hh hl hp => (endLaunch_far hh hl).trans (command_runs (if_pos hp))⟩
  · exact (clearTimelineError_eq ((if_neg (Nat.not_le_of_lt hc)).trans (if_neg (by simp [ho])))).trans (command_runs rfl)
  · exact (clearTimelineError_eq (if_pos hc)).trans (command_refuses rfl)
  · exact (clearTimelineError_eq ((if_neg (Nat.not_le_of_lt hc)).trans (if_pos (by simp [ho])))).trans (command_refuses rfl)
  · intro s1 mine
    exact ⟨swapIn_restores,
      fun h => Eq.trans (b := execPartitionSwapIn p s) rfl (command_refuses (if_pos h))⟩
  · exact ⟨swapOut_refuses, swapOut_saves⟩

/-! ### The fault ring, the CSM and regions -/

section
variable {s s1 : State} {p : Nat} {v : BitVec 64}

theorem raiseMsix_zero (host : Bool) : raiseMsix s p 0 host =
    if host then s.modPart p fun x => { x with msix := x.msix ||| 1 } else s := rfl

theorem faultRecordWrite_writes {r : BitVec 512} {rest : List (BitVec 512)} (hfull : (s.part p).faultsFull = false)
    (hr : (s.part p).faults = r :: rest) :
    let s1 := ringWrite s p ((s.part p).fqbase.toNat + 64 * (s.part p).fqtail) (toBytes 64 r.toNat)
    let s2 := raiseMsix (s1.modPart p fun x => { x with faults := rest, fqtail := (x.fqtail + 1) % 256 }) p 0 (s.part p).pghost
    exec (.faultRecordWrite p) s = .next (effects s2 (((partThreads s2 p).filter fun t =>
      (s2.thread t).wait == some .halted && haltedBy s2 t r).map Eff.ended)) := by
  intro s1 s2
  refine exec_event rfl ?_
  unfold writeFault
  simp only [hfull, hr, Bool.false_eq_true, if_false]
  rfl

theorem csmDivisionWrite_divides
    (h : (divisionOk (sliceCount s p) (bits v 25 16) (bits v 9 0) && !anyAdmitted s p) = true) :
    exec (.csmDivisionWrite p v) s =
      .next (trimCsm (s.modPart p fun x => { x with shways := bits v 25 16, winways := bits v 9 0 }) p) := by
  obtain ⟨hok, hnone⟩ := Bool.and_eq_true_iff.mp h
  have hfree : anyAdmitted s p = false := by simpa using hnone
  refine exec_event rfl (if_neg ?_)
  rw [hok, hfree]
  decide

theorem csmDivisionWrite_refuses
    (h : (divisionOk (sliceCount s p) (bits v 25 16) (bits v 9 0) && !anyAdmitted s p) = false) :
    exec (.csmDivisionWrite p v) s = .next (s.modPart p fun x => { x with pgerr := 2 }) := by
  refine exec_event rfl (if_pos ?_)
  rcases Bool.and_eq_false_iff.mp h with hbad | hadm
  · exact .inl (by rw [hbad]; rfl)
  · exact .inr (by simpa using hadm)

section
variable {x : Nat} (hv : v.toNat % 64 = 0) (hread : readVal s (agentReq s p (s.part p).mgmtAsid 5) v.toNat 64 = (s1, .ok x))
include hv hread

theorem regionRegister_registers
    (hok : regionOk s1 p (s.part p).rgsel (regionOf (BitVec.ofNat 512 x) (s.part p).mgmtAsid) = true) :
    let i := (s.part p).rgsel
    let r := regionOf (BitVec.ofNat 512 x) (s.part p).mgmtAsid
    exec (.regionRegister p v) s = .next (clearTables (s1.modPart p fun y =>
      { y with rgref := false, regions := y.regions.put i r, rgdesc := y.rgdesc.set 0 i v }) p r) := by
  intro i r
  refine exec_event rfl ?_
  simp only [hv, hread, ne_eq, not_true_eq_false, if_false]
  exact if_pos hok

theorem regionRegister_refuses
    (hbad : regionOk s1 p (s.part p).rgsel (regionOf (BitVec.ofNat 512 x) (s.part p).mgmtAsid) = false) :
    exec (.regionRegister p v) s = .next (s1.modPart p fun y => { y with rgref := true }) := by
  refine exec_event rfl ?_
  simp only [hv, hread, ne_eq, not_true_eq_false, if_false]
  exact if_neg (Bool.eq_false_iff.mp hbad)

end

theorem regionUnregister_removes
    (h : (region? s p (s.part p).rgsel).all (fun r => !regionFilling r) = true) :
    exec (.regionUnregister p) s = .next (s.modPart p fun y =>
      { y with rgref := false, regions := y.regions.del (s.part p).rgsel, rgdesc := y.rgdesc.del (s.part p).rgsel }) := by
  refine exec_event rfl (if_neg ?_)
  cases hr : region? s p (s.part p).rgsel with
  | none => simp
  | some r =>
    have hfill : regionFilling r = false := by simpa [hr] using h
    simp [hfill]

end

/-! ### Pre-emption, images and restores -/

section
variable {s : State} {p : Nat} {v : BitVec 64} (hbusy : preBusy s p = false) (hgood : requestError s p v = none)
include hbusy hgood

theorem preempt_refuses
    (h : applyAll (preRequest v) (namedCores s (preRequest v)) (coveredCoords s (preRequest v)) s [] = none) :
    preempt s p v = s.modPart p fun x => { x with pgerr := 2 } := by
  unfold preempt
  simp only [hbusy, hgood, h, Bool.false_eq_true, if_false]

theorem preempt_applies {s1 : State} {done : List (PreReq × Bool)}
    (h : applyAll (preRequest v) (namedCores s (preRequest v)) (coveredCoords s (preRequest v)) s [] = some (s1, done)) :
    let o := takenOption s1 (done.map fun e => e.1.opt)
    preempt s p v = o.1.modPart p fun x =>
      { x with preempts := done.map Prod.fst, propt := o.2, prmet := done.all fun e => e.2 } := by
  intro o
  unfold preempt
  simp only [hbusy, hgood, h, Bool.false_eq_true, if_false]
  rfl

end

theorem exec_preempt {s : State} {p : Nat} {v : BitVec 64} : ∀ e ∈ [(Instr.preemptAutomatic p v, 0), (.preemptDrain p v, 1),
    (.preemptSave p v, 2), (.preemptFlush p v, 3)], (preRequest v).directive = e.2 → exec e.1 s = .next (preempt s p v) := by
  simp only [List.mem_cons, List.not_mem_nil, or_false]
  rintro e (rfl | rfl | rfl | rfl) hd
  · exact exec_event rfl (if_pos hd)
  · exact exec_event rfl (if_pos hd)
  · exact exec_event rfl (if_pos hd)
  · exact exec_event rfl (if_pos hd)

section
variable {s : State} {i : Nat} {im : Image} (him : s.images[i]? = some im)
include him

theorem haltComplete_written (h : im.written = true) : exec (.haltComplete i) s = .next s := by
  refine exec_event rfl ?_
  unfold completeSave
  simp only [him, h, if_true]

theorem restore_restores {places : List (Block × Block)} (hw : im.written = true) (hswap : im.swapped = false)
    (hplaces : placesFor s im = some places)
    (hfree : (places.all fun e => (s.core e.2.core).mx.holder.all (· == e.2.id) || !im.matrix.any fun m => m.1 == e.1.id) = true) :
    exec (.restore i) s = .next (restoreImage s i im places) := by
  refine exec_event rfl ?_
  simp only [him, hw, hswap, hplaces, Bool.not_true, Bool.false_eq_true, or_self, if_false]
  exact if_pos hfree

end

/-- Settles O43: each command's own function, on the record, region, request or image it is for. -/
theorem stateIsSavedAndRestored : Obligations.StateIsSavedAndRestored := by
  refine fun s p v => ⟨fun r rest hfull hr => faultRecordWrite_writes hfull hr, ?_,
    ⟨csmDivisionWrite_divides, csmDivisionWrite_refuses⟩,
    fun s1 x hv hread => ⟨regionRegister_registers hv hread, regionRegister_refuses hv hread⟩, regionUnregister_removes,
    fun e he => ?_, fun i im him => ⟨haltComplete_written him, fun _ => rfl, fun places => restore_restores him⟩⟩
  · intro s1
    exact exec_event rfl rfl
  · intro r hd hbusy hgood
    have hexec := exec_preempt (s := s) e he hd
    exact ⟨fun h => hexec.trans (congrArg Host.Outcome.next (preempt_refuses hbusy hgood h)),
      fun s1 done h => hexec.trans (congrArg Host.Outcome.next (preempt_applies hbusy hgood h))⟩

end Sys2Proof.Machine
end

section
/-! PROOFS. The mailbox: how a command is refused, and what each answers (R507-R511). -/

namespace Sys2Proof.Machine

/-! ### Serving a command -/

section
variable {s s1 : State} {fn st : Nat} {names : Bool} {run : State → State × Nat × List Byte} {r : List Byte}

theorem serve_stops (h : requestCheck s fn = some st) : serve fn run s = .next (reply s fn st []) := by
  unfold serve
  rw [h]

theorem serve_runs (h : requestCheck s fn = none) (hr : run s = (s1, st, r)) : serve fn run s = .next (reply s1 fn st r) := by
  unfold serve
  simp only [h, hr]

theorem serveManagement_runs (h : requestCheck s fn = none) (hfn : fn = 0) (hr : run s = (s1, st, r)) :
    serveManagement fn names run s = .next (reply s1 fn st r) := serve_runs h ((if_pos hfn).trans hr)

theorem serveManagement_refuses (h : requestCheck s fn = none) (hfn : fn ≠ 0) : serveManagement fn names run s =
    .next (reply s fn (if names ∧ (mbArg s fn 1).toNat ≠ fn - 1 then 3 else 1) []) := serve_runs h (if_neg hfn)

theorem requestCheck_bad (h : s.bootOk = false) : requestCheck s fn = some 6 := if_pos (by rw [h]; rfl)

theorem requestCheck_reserved (hb : s.bootOk = true) (h : bits (mbArg s fn 0) 63 8 ≠ 0) : requestCheck s fn = some 2 :=
  (if_neg (by rw [hb]; decide)).trans (if_pos h)

theorem requestCheck_good (hb : s.bootOk = true) (h : bits (mbArg s fn 0) 63 8 = 0) : requestCheck s fn = none :=
  (if_neg (by rw [hb]; decide)).trans (if_neg (not_not_intro h))

theorem served {a : Out} (ha : a = serveManagement fn names run s) : ∃ run, a = serve fn run s := ⟨_, ha⟩

/-- Every mailbox command is served: it goes through the checks of its request first. -/
theorem exec_mailbox : ∀ i ∈ [Instr.readIdentity fn, .attest fn, .setQuadMap fn, .setContexts fn, .allocateAsid fn, .freeAsid fn,
    .setPageTableRoot fn, .updateStage fn, .updateCommit fn, .mailboxUnknown fn], ∃ run, exec i s = serve fn run s := by
  simp only [List.mem_cons, List.not_mem_nil, or_false]
  rintro i (rfl | rfl | rfl | rfl | rfl | rfl | rfl | rfl | rfl | rfl)
  · exact ⟨_, Eq.trans (b := execReadIdentity fn s) rfl rfl⟩
  · exact ⟨_, Eq.trans (b := execAttest fn s) rfl rfl⟩
  · exact served (Eq.trans (b := execSetQuadMap fn s) rfl rfl)
  · exact served (Eq.trans (b := execSetContexts fn s) rfl rfl)
  · exact ⟨_, Eq.trans (b := execAllocateAsid fn s) rfl rfl⟩
  · exact ⟨_, Eq.trans (b := execFreeAsid fn s) rfl rfl⟩
  · exact ⟨_, Eq.trans (b := execSetPageTableRoot fn s) rfl rfl⟩
  · exact served (Eq.trans (b := execUpdateStage fn s) rfl rfl)
  · exact served (Eq.trans (b := execUpdateCommit fn s) rfl rfl)
  · exact ⟨_, Eq.trans (b := execMailboxUnknown fn s) rfl rfl⟩

end

/-! ### Commands of function 0 -/

section
variable {s : State} {fn : Nat} (hok : requestCheck s fn = none)
include hok

section
variable (hfn : fn ≠ 0)
include hfn

theorem setQuadMap_refuses : exec (.setQuadMap fn) s = .next (reply s fn 1 []) :=
  Eq.trans (b := execSetQuadMap fn s) rfl ((serveManagement_refuses hok hfn).trans (by simp))

theorem management_refuses : ∀ i ∈ [Instr.setContexts fn, .updateStage fn, .updateCommit fn],
    exec i s = .next (reply s fn (if (mbArg s fn 1).toNat = fn - 1 then 1 else 3) []) := by
  have hst : (if (true : Bool) = true ∧ (mbArg s fn 1).toNat ≠ fn - 1 then 3 else 1) = if (mbArg s fn 1).toNat = fn - 1 then 1 else 3 := by
    by_cases h : (mbArg s fn 1).toNat = fn - 1 <;> simp [h]
  intro i hi
  rw [← hst]
  simp only [List.mem_cons, List.not_mem_nil, or_false] at hi
  rcases hi with rfl | rfl | rfl
  · exact Eq.trans (b := execSetContexts fn s) rfl (serveManagement_refuses hok hfn)
  · exact Eq.trans (b := execUpdateStage fn s) rfl (serveManagement_refuses hok hfn)
  · exact Eq.trans (b := execUpdateCommit fn s) rfl (serveManagement_refuses hok hfn)

end

variable (hfn : fn = 0)
include hfn

theorem setQuadMap_sets (h : mapStatus s (mapArg s fn) = 0) : exec (.setQuadMap fn) s =
    .next (reply (extendConfig { s with quadMap := mapTable (mapArg s fn) }) fn 0 []) :=
  Eq.trans (b := execSetQuadMap fn s) rfl (serveManagement_runs hok hfn (by simp only [h]))

theorem setQuadMap_keeps (h : mapStatus s (mapArg s fn) ≠ 0) : exec (.setQuadMap fn) s =
    .next (reply s fn (mapStatus s (mapArg s fn)) []) := by
  refine Eq.trans (b := execSetQuadMap fn s) rfl (serveManagement_runs hok hfn ?_)
  cases hst : mapStatus s (mapArg s fn) with
  | zero => exact absurd hst h
  | succ n => simp only [hst]

theorem updateStage_eq :
    let image := physBytes s (mbArg s fn 2).toNat (mbArg s fn 3).toNat
    exec (.updateStage fn) s = .next
      (if decide ((mbArg s fn 1).toNat < 8) && physOk s (mbArg s fn 2).toNat (mbArg s fn 3).toNat then
        reply (s.modPart (mbArg s fn 1).toNat fun x => { x with staged := some ⟨image, sha384 image⟩ }) fn 0 []
      else reply s fn 2 []) := by
  intro image
  split
  next h =>
    obtain ⟨hp, hphys⟩ := Bool.and_eq_true_iff.mp h
    refine Eq.trans (b := execUpdateStage fn s) rfl (serveManagement_runs hok hfn (if_neg ?_))
    simp [hphys, of_decide_eq_true hp]
  next h =>
    refine Eq.trans (b := execUpdateStage fn s) rfl (serveManagement_runs hok hfn (if_pos ?_))
    simpa [Decidable.or_iff_not_imp_left] using h

section
variable (hp : (mbArg s fn 1).toNat < 8)
include hp

theorem updateCommit_commits {y : Staged} (hy : (s.part (mbArg s fn 1).toNat).staged = some y)
    (hfree : anyAdmitted s (mbArg s fn 1).toNat = false ∨ (s.part (mbArg s fn 1).toNat).swapped = true) :
    exec (.updateCommit fn) s = .next (reply (startImage (measureImage (stopContext s (mbArg s fn 1).toNat)
      (mbArg s fn 1).toNat y.digest) (mbArg s fn 1).toNat y.image) fn 0 []) := by
  refine Eq.trans (b := execUpdateCommit fn s) rfl (serveManagement_runs hok hfn ?_)
  simp only [Nat.not_le_of_lt hp, if_false, hy]
  refine if_neg ?_
  rcases hfree with h | h <;> simp [h]

theorem updateCommit_waits (hy : (s.part (mbArg s fn 1).toNat).staged ≠ none) (hadm : anyAdmitted s (mbArg s fn 1).toNat = true)
    (hswap : (s.part (mbArg s fn 1).toNat).swapped = false) : exec (.updateCommit fn) s = .next (reply s fn 4 []) := by
  obtain ⟨y, hy⟩ := Option.ne_none_iff_exists'.mp hy
  refine Eq.trans (b := execUpdateCommit fn s) rfl (serveManagement_runs hok hfn ?_)
  simp only [Nat.not_le_of_lt hp, if_false, hy]
  exact if_pos ⟨hadm, by rw [hswap]; rfl⟩

end

theorem updateCommit_refuses (h : 8 ≤ (mbArg s fn 1).toNat ∨ (s.part (mbArg s fn 1).toNat).staged = none) :
    exec (.updateCommit fn) s = .next (reply s fn 2 []) := by
  refine Eq.trans (b := execUpdateCommit fn s) rfl (serveManagement_runs hok hfn ?_)
  by_cases hp : 8 ≤ (mbArg s fn 1).toNat
  · simp only [hp, if_true]
  · simp only [hp, if_false, h.resolve_left hp]

end

/-! ### Address spaces -/

section
variable {s : State} {fn : Nat} (hok : requestCheck s fn = none)
include hok

theorem allocateAsid_full (h : freeAsidOf s = none) : exec (.allocateAsid fn) s = .next (reply s fn 5 []) :=
  Eq.trans (b := execAllocateAsid fn s) rfl (serve_runs hok (by simp only [h]))

theorem allocateAsid_allocates {n : Nat} (h : freeAsidOf s = some n) : exec (.allocateAsid fn) s = .next (reply
    { setAsid s n (liveEntry (asidEntry s n)) with asidOwner := s.asidOwner.set 0 n fn } fn 0 (toBytes 8 n)) :=
  Eq.trans (b := execAllocateAsid fn s) rfl (serve_runs hok (by simp only [h]))

theorem asidCommand_refuses {st : Nat} (h : asidArgStatus s fn = some st) :
    ∀ i ∈ [Instr.freeAsid fn, .setPageTableRoot fn], exec i s = .next (reply s fn st []) := by
  simp only [List.mem_cons, List.not_mem_nil, or_false]
  rintro i (rfl | rfl)
  · exact Eq.trans (b := execFreeAsid fn s) rfl (serve_runs hok (by simp only [h]))
  · exact Eq.trans (b := execSetPageTableRoot fn s) rfl (serve_runs hok (by simp only [h]))

variable (hasid : asidArgStatus s fn = none)
include hasid

theorem freeAsid_eq :
    let a := (mbArg s fn 1).toNat
    exec (.freeAsid fn) s = .next (if (s.launches.map Prod.snd).any fun l => l.asid == a && l.state == .admitted then
        reply s fn 4 []
      else reply { setAsid s a (asidEntry s a &&& ~~~1#128) with asidOwner := s.asidOwner.set 0 a 0 } fn 0 []) := by
  intro a
  split
  next h => exact Eq.trans (b := execFreeAsid fn s) rfl (serve_runs hok (by simp only [hasid]; exact if_pos h))
  next h => exact Eq.trans (b := execFreeAsid fn s) rfl (serve_runs hok (by simp only [hasid]; exact if_neg h))

theorem setPageTableRoot_refuses (h : ¬ ((mbArg s fn 2).toNat % 4096 = 0 ∧ (mbArg s fn 2).toNat < 2 ^ 52)) :
    exec (.setPageTableRoot fn) s = .next (reply s fn 2 []) := by
  refine Eq.trans (b := execSetPageTableRoot fn s) rfl (serve_runs hok ?_)
  simp only [hasid]
  exact if_pos (by omega)

theorem setPageTableRoot_sets (halign : (mbArg s fn 2).toNat % 4096 = 0) (hlt : (mbArg s fn 2).toNat < 2 ^ 52) :
    let e := asidEntry s (mbArg s fn 1).toNat
    let word := bits e 63 52 * 2 ^ 52 + (mbArg s fn 2).toNat + bits e 11 0
    exec (.setPageTableRoot fn) s = .next
      (reply (setAsid s (mbArg s fn 1).toNat (BitVec.ofNat 128 (word + 2 ^ 64 * bits e 127 64))) fn 0 []) := by
  intro e word
  refine Eq.trans (b := execSetPageTableRoot fn s) rfl (serve_runs hok ?_)
  simp only [hasid]
  exact if_neg (by omega)

end

/-! ### Context ranges -/

section
variable {s : State} {fn : Nat} (hok : requestCheck s fn = none) (hfn : fn = 0)
include hok hfn

theorem setContexts_refuses (h : 8 ≤ (mbArg s fn 1).toNat ∨ 1024 < (mbArg s fn 2).toNat + (mbArg s fn 3).toNat ∨
    1023 < (mbArg s fn 2).toNat ∨ 1023 < (mbArg s fn 3).toNat) : exec (.setContexts fn) s = .next (reply s fn 2 []) :=
  Eq.trans (b := execSetContexts fn s) rfl (serveManagement_runs hok hfn (if_pos h))

theorem setContexts_sets (hp : (mbArg s fn 1).toNat < 8) (hsum : (mbArg s fn 2).toNat + (mbArg s fn 3).toNat ≤ 1024)
    (hbase : (mbArg s fn 2).toNat ≤ 1023) (hn : (mbArg s fn 3).toNat ≤ 1023) : exec (.setContexts fn) s =
      .next (if anyAdmitted s (mbArg s fn 1).toNat then reply s fn 4 []
        else reply (clearIssued (s.modPart (mbArg s fn 1).toNat fun x =>
          { x with ctxbase := (mbArg s fn 2).toNat, ctxcnt := (mbArg s fn 3).toNat })
          (mbArg s fn 2).toNat (mbArg s fn 3).toNat) fn 0 []) := by
  have hgood : ¬ (8 ≤ (mbArg s fn 1).toNat ∨ 1024 < (mbArg s fn 2).toNat + (mbArg s fn 3).toNat ∨
    1023 < (mbArg s fn 2).toNat ∨ 1023 < (mbArg s fn 3).toNat) := by omega
  split
  next h => exact Eq.trans (b := execSetContexts fn s) rfl (serveManagement_runs hok hfn ((if_neg hgood).trans (if_pos h)))
  next h => exact Eq.trans (b := execSetContexts fn s) rfl (serveManagement_runs hok hfn ((if_neg hgood).trans (if_neg h)))

end

/-- Settles O44: a request is checked, then its command answers by its arguments. -/
theorem mailboxCommandsRun : Obligations.MailboxCommandsRun := by
  intro s fn a all
  refine ⟨fun hb i hi => ?_, fun hb hw i hi => ?_, fun hb hw => ?_⟩
  · obtain ⟨run, hrun⟩ := exec_mailbox (s := s) i hi
    exact hrun.trans (serve_stops (requestCheck_bad hb))
  · obtain ⟨run, hrun⟩ := exec_mailbox (s := s) i hi
    exact hrun.trans (serve_stops (requestCheck_reserved hb hw))
  · have hok := requestCheck_good hb hw
    refine ⟨Eq.trans (b := execMailboxUnknown fn s) rfl (serve_runs hok rfl),
      Eq.trans (b := execReadIdentity fn s) rfl (serve_runs hok rfl),
      Eq.trans (b := execAttest fn s) rfl (serve_runs hok rfl),
      fun hfn => ⟨setQuadMap_refuses hok hfn, management_refuses hok hfn⟩,
      fun hfn => ⟨?_, setContexts_refuses hok hfn, setContexts_sets hok hfn, updateStage_eq hok hfn,
        fun y hp hy hfree => updateCommit_commits hok hfn hp hy hfree,
        fun hp hy hadm hswap => updateCommit_waits hok hfn hp hy hadm hswap, updateCommit_refuses hok hfn⟩,
      allocateAsid_full hok, fun n => allocateAsid_allocates hok, fun st => asidCommand_refuses hok,
      fun hasid => ⟨freeAsid_eq hok hasid, setPageTableRoot_refuses hok hasid, setPageTableRoot_sets hok hasid⟩⟩
    intro m st
    by_cases hst : mapStatus s m = 0
    · exact (setQuadMap_sets hok hfn hst).trans (congrArg Host.Outcome.next (if_pos hst).symm)
    · exact (setQuadMap_keeps hok hfn hst).trans (congrArg Host.Outcome.next (if_neg hst).symm)

end Sys2Proof.Machine
end

section
/-! PROOFS. Trace sessions: when one opens (R530). -/

namespace Sys2Proof.Machine

theorem traceSessionOpen_refuses {s : State} {p : Nat} (h : sextantLive s p = false) :
    exec (.traceSessionOpen p) s = .next s := exec_event rfl (if_pos (.inr (by rw [h]; rfl)))

/-- Before boot no Sextant context is live, and no session is open. -/
theorem reset_without_session :
    sextantLive State.reset 0 = false ∧ (State.reset.part 0).trace.opened = false := by decide +kernel

/-- Refutes O45: the statement opens a session wherever none is open, but the model opens one for a live Sextant context
alone (R530). At reset none is live, and TRCTL's OPEN stays 0. -/
theorem not_platformEventsHappen : ¬ Obligations.PlatformEventsHappen := by
  intro h
  obtain ⟨-, -, -, -, -, -, -, -, -, -, -, hopen, -⟩ := h State.reset 0 0 0
  obtain ⟨hlive, hclosed⟩ := reset_without_session
  have hnext := hopen hclosed
  rw [traceSessionOpen_refuses hlive] at hnext
  have hopened := congrArg (fun s => (s.part 0).trace.opened) (Host.Outcome.next.inj hnext)
  exact absurd hopened (by decide +kernel)

end Sys2Proof.Machine
end

section
/-! PROOFS. Writes of the management registers, and failures and their recovery (R5, R459, R478, R494, R504, R515-R520,
R523, R529, R530). -/

namespace Sys2Proof.Machine

/-! ### Where a write goes -/

section
variable {s : State} {p n : Nat} {v : BitVec 64}

theorem registerWrite_trace (hp : p < 8) (hn : 0x1000 ≤ n) :
    exec (.registerWrite p n v) s = .next (writeTraceUnit s p (n - 0x1000) v) :=
  exec_event rfl ((if_pos hn).trans (if_pos hp))

theorem registerWrite_foreignTrace (hp : 8 ≤ p) (hn : 0x1000 ≤ n) : exec (.registerWrite p n v) s = .next s :=
  exec_event rfl ((if_pos hn).trans (if_neg (by omega)))

theorem registerWrite_power (hp : 8 ≤ p) : exec (.registerWrite p 0x300 v) s = .next (writePowerLimit s v) :=
  exec_event rfl (if_pos hp)

section
variable (hn : n < 0x1000)
include hn

theorem registerWrite_peer (hp : 8 ≤ p) (hlo : 0x400 ≤ n) (hhi : n < 0x5FE) (heven : n % 2 = 0) :
    exec (.registerWrite p n v) s = .next (writePeer s ((n - 0x400) / 2) v) :=
  exec_event rfl ((if_neg (by omega)).trans ((if_pos ⟨hlo, hhi⟩).trans (if_pos ⟨hp, heven⟩)))

theorem registerWrite_foreignPeer (hp : p < 8) (hlo : 0x400 ≤ n) (hhi : n < 0x5FE) :
    exec (.registerWrite p n v) s = .next s :=
  exec_event rfl ((if_neg (by omega)).trans ((if_pos ⟨hlo, hhi⟩).trans (if_neg (by omega))))

variable (hpeer : ¬ (0x400 ≤ n ∧ n < 0x5FE))
include hpeer

theorem registerWrite_mailbox (hlo : 0x200 ≤ n) (hhi : n < 0x280) :
    exec (.registerWrite p n v) s = .next (writeMailbox s (windowOf p) (n - 0x200) v) :=
  exec_event rfl ((if_neg (by omega)).trans ((if_neg hpeer).trans (if_pos ⟨hlo, hhi⟩)))

variable (hmail : ¬ (0x200 ≤ n ∧ n < 0x280))
include hmail

variable (hpower : n ≠ 0x300)
include hpower

theorem registerWrite_foreign (hp : 8 ≤ p) : exec (.registerWrite p n v) s = .next s :=
  exec_event rfl ((if_neg (by omega)).trans ((if_neg hpeer).trans ((if_neg hmail).trans ((if_neg hpower).trans (if_pos hp)))))

theorem registerWrite_csr (hp : p < 8) : exec (.registerWrite p n v) s = .next
    (if 0x180 ≤ n ∧ n < 0x1A0 then writePagerCsr s p n v
      else if 0x100 ≤ n ∧ n < 0x120 then writeSchedulingCsr s p n v else s) :=
  exec_event rfl ((if_neg (by omega)).trans ((if_neg hpeer).trans ((if_neg hmail).trans
    ((if_neg hpower).trans (if_neg (by omega))))))

end

theorem registerWrite_pager (hp : p < 8) (hlo : 0x180 ≤ n) (hhi : n < 0x1A0) :
    exec (.registerWrite p n v) s = .next (writePagerCsr s p n v) :=
  (registerWrite_csr (by omega) (by omega) (by omega) (by omega) hp).trans (congrArg _ (if_pos ⟨hlo, hhi⟩))

theorem registerWrite_scheduling (hp : p < 8) (hlo : 0x100 ≤ n) (hhi : n < 0x120) :
    exec (.registerWrite p n v) s = .next (writeSchedulingCsr s p n v) :=
  (registerWrite_csr (by omega) (by omega) (by omega) (by omega) hp).trans
    (congrArg _ ((if_neg (by omega)).trans (if_pos ⟨hlo, hhi⟩)))

/-- A number that no register has changes nothing, in any window. -/
theorem registerWrite_unassigned (hn : n < 0x100 ∨ (0x280 ≤ n ∧ n < 0x300) ∨ (0x300 < n ∧ n < 0x400) ∨ (0x5FE ≤ n ∧ n < 0x1000)) :
    exec (.registerWrite p n v) s = .next s := by
  rcases Nat.lt_or_ge p 8 with hp | hp
  · exact (registerWrite_csr (by omega) (by omega) (by omega) (by omega) hp).trans
      (congrArg _ ((if_neg (by omega)).trans (if_neg (by omega))))
  · exact registerWrite_foreign (by omega) (by omega) (by omega) (by omega) hp

end

/-! ### Registers that reach a unit or a command -/

section
variable {s : State} {p : Nat} {v : BitVec 64}

/-- A write that runs a unit's function goes on with what that answers. -/
theorem next_goOn {o : Out} {t : State} (h : o = .next t) : .next (goOn s o) = o := by
  subst h
  rfl

theorem exec_unitRegister (hp : p < 8) : ∀ e ∈ [(0x100, Instr.binderModeWrite p v), (0x101, .generatorReserveWrite p v),
    (0x103, .bindRingWrite p (bits v 6 0)), (0x106, .eventRingHeadWrite p v), (0x10B, .qtailWrite p (s.part p).qsel v),
    (0x10F, .serviceAnswer p (bits v 7 0)), (0x181, .faultQueueHeadWrite p v), (0x18A, .csmDivisionWrite p v),
    (0x1018, .traceRingHeadWrite p v)], exec (.registerWrite p e.1 v) s = exec e.2 s := by
  simp only [List.mem_cons, List.not_mem_nil, or_false]
  rintro e (rfl | rfl | rfl | rfl | rfl | rfl | rfl | rfl | rfl)
  · exact (registerWrite_scheduling (n := 0x100) hp (by decide) (by decide)).trans rfl
  · exact (registerWrite_scheduling (n := 0x101) hp (by decide) (by decide)).trans rfl
  · exact (registerWrite_scheduling (n := 0x103) hp (by decide) (by decide)).trans rfl
  · exact (registerWrite_scheduling (n := 0x106) hp (by decide) (by decide)).trans rfl
  · exact (registerWrite_scheduling (n := 0x10B) hp (by decide) (by decide)).trans rfl
  · exact (registerWrite_scheduling (n := 0x10F) hp (by decide) (by decide)).trans rfl
  · exact (registerWrite_pager (n := 0x181) hp (by decide) (by decide)).trans rfl
  · exact (registerWrite_pager (n := 0x18A) hp (by decide) (by decide)).trans rfl
  · exact (registerWrite_trace (n := 0x1018) hp (by decide)).trans rfl

theorem exec_regionRegister (hp : p < 8) : exec (.registerWrite p 0x190 v) s =
    if v = 0 then exec (.regionUnregister p) s else exec (.regionRegister p v) s := by
  have hw : exec (.registerWrite p 0x190 v) s =
      .next (goOn s (if v = 0 then execRegionUnregister p s else execRegionRegister p v s)) :=
    (registerWrite_pager hp (by decide) (by decide)).trans rfl
  rw [hw]
  by_cases hv : v = 0
  · rw [if_pos hv, if_pos hv]
    exact next_goOn rfl
  · rw [if_neg hv, if_neg hv]
    exact next_goOn rfl

theorem exec_pgcmd_busy (hp : p < 8) (h : (s.part p).pgbusy = true) : exec (.registerWrite p 0x185 v) s = .next s :=
  (registerWrite_pager hp (by decide) (by decide)).trans (congrArg _ (if_pos h))

/-- Every pager command goes on. -/
theorem pagerCommand_next : ∀ i ∈ [Instr.replay p, .unresolvable p, .tlbInvalidate p, .rangeWriteBack p, .generationBump p,
    .fillGo p, .fillFail p, .endLaunch p, .clearTimelineError p, .partitionSwapOut p, .partitionSwapIn p],
    ∃ t, exec i s = .next t := by
  simp only [List.mem_cons, List.not_mem_nil, or_false]
  rintro i (rfl | rfl | rfl | rfl | rfl | rfl | rfl | rfl | rfl | rfl | rfl)
  · exact ⟨_, rfl⟩
  · cases h : s.pageFaults.find? fun f => f.id == pgArg s p 0 && faultWaited s p f with
    | none => exact ⟨_, unresolvable_refuses h⟩
    | some f => exact ⟨_, unresolvable_fails h⟩
  · exact ⟨_, rfl⟩
  · exact ⟨_, rfl⟩
  · exact ⟨_, rfl⟩
  · cases h : fillingCheck s p with
    | none => exact ⟨_, fillGo_refuses h⟩
    | some f => exact ⟨_, (fillGo_eq h).trans rfl⟩
  · cases h : fillingCheck s p with
    | none => exact ⟨_, fillFail_refuses h⟩
    | some f => exact ⟨_, fillFail_fails h⟩
  · exact ⟨_, rfl⟩
  · exact ⟨_, rfl⟩
  · rcases Nat.lt_or_ge (granulesFree s p) (sumOf ((residentCoords s p).map fun c => imageGranules s (coordBlocks s c.1 c.2)))
      with h | h
    · exact ⟨_, swapOut_refuses h⟩
    · exact ⟨_, swapOut_saves h⟩
  · exact ⟨_, rfl⟩

/-- PGCMD's code names a command, which runs with PGBUSY set. -/
theorem exec_pgcmd {code : Nat} {i : Instr} (hp : p < 8) (h : (s.part p).pgbusy = false) (hc : bits v 7 0 = code)
    (hrun : startCommand s p code = if (s.part p).pgbusy then s else
      goOn (s.modPart p fun x => { x with pgbusy := true }) (exec i (s.modPart p fun x => { x with pgbusy := true })))
    (hnext : ∃ t, exec i (s.modPart p fun x => { x with pgbusy := true }) = .next t) :
    exec (.registerWrite p 0x185 v) s = exec i (s.modPart p fun x => { x with pgbusy := true }) := by
  obtain ⟨t, ht⟩ := hnext
  have hw : exec (.registerWrite p 0x185 v) s = .next (startCommand s p (bits v 7 0)) :=
    (registerWrite_pager hp (by decide) (by decide)).trans rfl
  rw [hw, hc, hrun, if_neg (Bool.eq_false_iff.mp h)]
  exact next_goOn ht

theorem exec_pagerRegister (hp : p < 8) (h : (s.part p).pgbusy = false) : ∀ e ∈ [(1, Instr.replay p), (2, .unresolvable p),
    (3, .tlbInvalidate p), (4, .rangeWriteBack p), (5, .generationBump p), (6, .fillGo p), (7, .fillFail p), (8, .endLaunch p),
    (9, .clearTimelineError p), (10, .partitionSwapOut p), (11, .partitionSwapIn p)], bits v 7 0 = e.1 →
    exec (.registerWrite p 0x185 v) s = exec e.2 (s.modPart p fun x => { x with pgbusy := true }) := by
  intro e he hc
  have hnext := pagerCommand_next (s := s.modPart p fun x => { x with pgbusy := true }) (p := p) e.2
    (List.mem_map_of_mem (f := Prod.snd) he)
  refine exec_pgcmd hp h hc ?_ hnext
  simp only [List.mem_cons, List.not_mem_nil, or_false] at he
  rcases he with rfl | rfl | rfl | rfl | rfl | rfl | rfl | rfl | rfl | rfl | rfl
  · exact rfl
  · exact rfl
  · exact rfl
  · exact rfl
  · exact rfl
  · exact rfl
  · exact rfl
  · exact rfl
  · exact rfl
  · exact rfl
  · exact rfl

end

/-! ### Failures and recoveries -/

section
variable {s : State} {p n : Nat} {bad : Bool}

theorem quadFailure_unmapped (h : quadEnabled s n = false) : exec (.quadFailure n bad) s = .next s :=
  exec_event rfl (if_pos (by rw [h]; rfl))

theorem quadFailure_recovers (h : quadEnabled s n = true) :
    let old := physQuad s n
    let s1 := (s.blocks.filter fun b => b.gen && coreQuad b.core == old).foldl flushGenerator s
    let cs := quadCoords s1 old
    let r2 := someOf bad s1 cs
    let s3 := endLaunches (interrupted r2.1 (r2.2.map fun c => c.1)) (r2.2.map fun c => c.1).eraseDups
    let kept := cs.filter fun c => (s3.launch? c.1).isSome
    let halted := kept.foldl
      (fun s c => if (coordBlocks s c.1 c.2).any (·.halted) then s else haltCoord s c.1 c.2 false) s3
    let s4 := iterWhile (fun s => (s.images.findIdx? fun i => !i.written && kept.contains (i.launch, i.coord)).map
      (completeSave s)) (halted.images.length + 1) halted
    let r5 := someOf bad s4 (quadDirty s4 old)
    let s6 := writeBackQuad old (loseLines old r5.2 r5.1)
    let r7 := someOf bad s6 (s6.csm.filter fun l => l.dirty != 0 && homeQuad s6 l == old)
    let s8 := { r7.1 with csm := r7.1.csm.filter fun l => !r7.2.contains l }
    let asids := r5.2.map (fun l => l.asid) ++ r7.2.map (fun l => l.asid)
    let victims := ((s8.launches.map Prod.snd).filter fun l => asids.contains l.asid).map fun l => l.handle
    let s9 := evacuate (endLaunches (if r2.2 = [] then interrupted s8 victims else s8) victims) old
    exec (.quadFailure n bad) s = .next (remapQuad (if spareQuads s9 = [] then s9 else keepPlaces kept s9) n) :=
  exec_event rfl (if_neg (by rw [h]; decide))

theorem routerFailure_unmapped (h : quadEnabled s n = false) : exec (.routerFailure n) s = .next s :=
  exec_event rfl (if_pos (by rw [h]; rfl))

theorem routerFailure_remaps (h : quadEnabled s n = true) :
    let old := physQuad s n
    let gens := s.blocks.filter fun b => b.gen && coreQuad b.core == old
    let bs := s.blocks.filter fun b => !b.gen && coreQuad b.core == old
    let s1 := interrupted (loseQuad old s) (bs.map fun b => b.launch)
    let s2 := bs.foldl killBlock (gens.foldl killGenerator s1)
    exec (.routerFailure n) s = .next (remapQuad { s2 with
      failedRouters := s2.failedRouters ++ [old], health := { s2.health with detour := satInc s2.health.detour } } n) :=
  exec_event rfl (if_neg (by rw [h]; decide))

section
variable {s1 : State} {target : Nat}
  (hs1 : s1 = { s with failedEngines := if s.failedEngines.contains n then s.failedEngines else s.failedEngines ++ [n] })
include hs1

theorem copyEngineFailure_stops (h : healthyEngine s1 target = none) : exec (.copyEngineFailure n target) s = .next s1 := by
  subst hs1
  refine exec_event rfl ?_
  dsimp only
  rw [h]

theorem copyEngineFailure_moves {e : Nat} (h : healthyEngine s1 target = some e) :
    let cs := (List.range 1024).filter fun c => ctxEngine s1 c == n
    let s2 := cs.foldl (fun s c => s.modCtx c fun x => { x with engine := some e, reqs := x.reqs.map CopyReq.resumed }) s1
    exec (.copyEngineFailure n target) s =
      .next { s2 with health := { s2.health with engmv := d (min 0xFFFFFFFF (s2.health.engmv.toNat + cs.length)) } } := by
  subst hs1
  intro cs s2
  refine exec_event rfl ?_
  dsimp only
  rw [h]

end

theorem backgroundScrub_reads (h : s.bad.contains (n / 32) = false) : exec (.backgroundScrub n) s =
    .next (if s.fresh.1.getLsbD 0 then countCorrected s.fresh.2 n else s.fresh.2) :=
  exec_event rfl (if_neg (Bool.eq_false_iff.mp h))

theorem backgroundScrub_reports (h : s.bad.contains (n / 32) = true) : exec (.backgroundScrub n) s = .next (
    (somePart s).2.elim (somePart s).1 fun p => errorRecord (somePart s).1 p 4 0 0 (.memory (n / 32 * 32)) 0 none) := by
  refine exec_event rfl ((if_pos h).trans ?_)
  rcases somePart s with ⟨s1, _ | q⟩ <;> rfl

theorem channelRetirement_keeps {tier : Nat} (h : s.retired.contains (tier, n) = true ∨ 48 ≤ n ∨ (tier ≠ 1 ∧ tier ≠ 2)) :
    exec (.channelRetirement tier n) s = .next (closeChannels s) := exec_event rfl (if_pos h)

theorem channelRetirement_retires {tier : Nat} (hnew : s.retired.contains (tier, n) = false) (hn : n < 48)
    (htier : tier = 1 ∨ tier = 2) :
    let bit : BitVec 48 := 1#48 <<< n
    let h := s.health
    let s1 := { s with
      retired := s.retired ++ [(tier, n)]
      health := { h with ret1 := if tier = 1 then h.ret1 ||| bit else h.ret1
                         ret2 := if tier = 2 then h.ret2 ||| bit else h.ret2 } }
    let s2 := (somePart s1).1.fresh.2
    let s3 := { s2 with health := { s2.health with uncor := d (min 0xFFFFFFFF (s2.health.uncor.toNat + 1)) } }
    let word := q (tier - 1 + 2 ^ 8 * ((somePart s1).1.fresh.1.toNat % 5) + 2 ^ 16 * n + 2 ^ 24 * 2
      + 2 ^ 32 * (h.corr.get 0 (48 * (tier - 1) + n)).toNat)
    exec (.channelRetirement tier n) s = .next (closeChannels ((somePart s1).2.elim s3 fun p =>
      postFault s3 p (record (header s 11 0 0xFFFF 0 0xFFFF 0 ++ [word, 0, 0, 0, Config.eccSyndrome 0])))) := by
  intro bit h s1 s2 s3 word
  refine exec_event rfl ((if_neg ?_).trans ?_)
  · rw [hnew]
    rintro (hold | hbig | ⟨hone, htwo⟩)
    · exact Bool.false_ne_true hold
    · omega
    · omega
  · dsimp only [s3, s2, word]
    rcases somePart s1 with ⟨s', _ | q⟩ <;> rfl

section
variable {core l : Nat} (hserve : serveCore s p true (4 * (partQuads s p).getD (n / 4) 0 + n % 4) = some (core, l))
include hserve

theorem virtualCoreAlternation_alternates (hn : n / 4 < (partQuads s p).length)
    (hvirt : quadEnabled s ((4 * (partQuads s p).getD (n / 4) 0 + n % 4) / 4) = false) :
    let own := servedCoords s core (· == n)
    let cs := if own = [] then servedCoords s core (· != n) else own
    let away (s : State) (c : Nat × Nat × Nat × Nat) : State :=
      let s1 := haltCoord s c.1 c.2 false
      { s1 with images := mapIf (fun i => i.launch == c.1 && i.coord == c.2) (fun i => { i with yields := true }) s1.images }
    exec (.virtualCoreAlternation p n) s = .next (cs.foldl (fun s c =>
      if imageGranules s (coordBlocks s c.1 c.2) ≤ granulesFree s p then away s c else s) s) := by
  intro own cs away
  refine exec_event rfl ?_
  unfold alternate
  simp only [hserve, hn, hvirt, decide_true, Bool.not_false, Bool.and_self, if_true]
  simp only [decide_eq_true_eq]
  rfl

theorem virtualCoreAlternation_real
    (h : (partQuads s p).length ≤ n / 4 ∨ quadEnabled s ((4 * (partQuads s p).getD (n / 4) 0 + n % 4) / 4) = true) :
    exec (.virtualCoreAlternation p n) s = .next s := by
  refine exec_event rfl ?_
  unfold alternate
  simp only [hserve]
  refine if_neg ?_
  rcases h with h | h
  · simp [Nat.not_lt_of_le h]
  · simp only [h, Bool.not_true, Bool.and_false, Bool.false_eq_true, not_false_eq_true]

end

theorem virtualCoreAlternation_unserved (h : serveCore s p true (4 * (partQuads s p).getD (n / 4) 0 + n % 4) = none) :
    exec (.virtualCoreAlternation p n) s = .next s := by
  refine exec_event rfl ?_
  unfold alternate
  simp only [h]

end

/-! ### Registers of function 0 -/

section
variable {s : State} {n : Nat} {v : BitVec 64}

theorem writePeer_eq (hn : n < 255) : writePeer s n v =
    if v.getLsbD 0 = true ∧ bits v 16 1 = 0 then s
    else { s with peers := s.peers.put n ⟨v.extractLsb' 32 32, v.extractLsb' 1 16, v.getLsbD 0⟩ } := by
  unfold writePeer
  by_cases h : v.getLsbD 0 = true ∧ bits v 16 1 = 0
  · rw [if_pos h, if_neg (by simp [h.1, h.2])]
  · rw [if_neg h]
    refine if_pos ⟨hn, ?_⟩
    simpa [Decidable.or_iff_not_imp_left] using h

end

/-- Settles O46: where each write goes, and each failure's own function on its cases. -/
theorem failuresAndRegistersAreHandled : Obligations.FailuresAndRegistersAreHandled := by
  intro s p n v
  refine ⟨fun hp => ?_, fun hp => ⟨fun hn => ?_, registerWrite_power hp, fun hn => ?_⟩, registerWrite_unassigned,
    fun bad => quadFailure_unmapped, fun bad h => quadFailure_recovers h, routerFailure_unmapped, routerFailure_remaps,
    fun target => ?_, backgroundScrub_reads, backgroundScrub_reports, fun tier => channelRetirement_keeps,
    fun tier => channelRetirement_retires, ?_⟩
  · have csr (n : Nat) (hlo : 0x100 ≤ n) (hhi : n < 0x120) := registerWrite_scheduling (s := s) (v := v) hp hlo hhi
    have pager (n : Nat) (hlo : 0x180 ≤ n) (hhi : n < 0x1A0) := registerWrite_pager (s := s) (v := v) hp hlo hhi
    refine ⟨csr 0x102 (by decide) (by decide), csr 0x104 (by decide) (by decide), csr 0x105 (by decide) (by decide),
      csr 0x107 (by decide) (by decide), csr 0x10C (by decide) (by decide), csr 0x10E (by decide) (by decide),
      pager 0x180 (by decide) (by decide), pager 0x182 (by decide) (by decide), pager 0x183 (by decide) (by decide),
      pager 0x18B (by decide) (by decide), pager 0x18F (by decide) (by decide), exec_unitRegister hp, exec_regionRegister hp,
      exec_pgcmd_busy hp, exec_pagerRegister hp, fun hlo hhi => ?_, fun hlo hhi => ?_⟩
    · refine (registerWrite_mailbox (by omega) (by omega) hlo (by omega)).trans (congrArg _ ?_)
      rw [windowOf, if_pos hp]
      exact if_pos (by omega)
    · exact registerWrite_foreignPeer (by omega) hp hlo hhi
  · refine (registerWrite_peer (by omega) hp (by omega) (by omega) (by omega)).trans (congrArg _ ?_)
    rw [show (0x400 + 2 * n - 0x400) / 2 = n by omega]
    exact writePeer_eq hn
  · rcases hn with hn | hn
    · exact registerWrite_foreign (by omega) (by omega) (by omega) (by omega) hp
    · exact registerWrite_foreignTrace hp hn
  · intro s1 healthy
    exact ⟨copyEngineFailure_stops (s1 := s1) rfl, fun e h => copyEngineFailure_moves (s1 := s1) rfl h⟩
  · intro named
    refine ⟨fun hn hvirt core l hserve => virtualCoreAlternation_alternates hserve hn hvirt, fun h => ?_⟩
    cases hserve : serveCore s p true named with
    | none => exact virtualCoreAlternation_unserved hserve
    | some e =>
      refine virtualCoreAlternation_real hserve (h.imp id fun h => h.resolve_right ?_)
      simp [hserve]

end Sys2Proof.Machine
end

section
/-! PROOFS. The frame of the scratch store: what the end of a region, a write of scratch and the waking of byte barriers'
waiters leave alone (R57, R67, R107). -/

namespace Sys2Proof.Machine

/-! ### What a step leaves of memory -/

/-- Memory, the CSM and every core's scratch are as they were. -/
structure MemoryKept (s s' : State) : Prop where
  mem     : s'.mem = s.mem
  csm     : s'.csm = s.csm
  scratch : ∀ c, (s'.core c).scratch = (s.core c).scratch

namespace MemoryKept

theorem refl (s : State) : MemoryKept s s := ⟨rfl, rfl, fun _ => rfl⟩

theorem trans {s s1 s2 : State} (h : MemoryKept s s1) (h' : MemoryKept s1 s2) : MemoryKept s s2 :=
  ⟨h'.mem.trans h.mem, h'.csm.trans h.csm, fun c => (h'.scratch c).trans (h.scratch c)⟩

theorem foldl {α : Type} {f : State → α → State} (hf : ∀ s x, MemoryKept s (f s x)) (l : List α) (s : State) :
    MemoryKept s (l.foldl f s) := by
  induction l generalizing s with
  | nil => exact refl s
  | cons x l ih => exact (hf s x).trans (ih _)

theorem modThread (s : State) (t : TRef) (f : Thread → Thread) : MemoryKept s (s.modThread t f) :=
  ⟨rfl, rfl, fun _ => rfl⟩

theorem advance (s : State) (t : TRef) : MemoryKept s (advance s t) := modThread s t _

theorem clearWait (s : State) (t : TRef) : MemoryKept s (clearWait s t) := modThread s t _

theorem beginRegion (s : State) (t : TRef) (pc : BitVec 64) : MemoryKept s (beginRegion s t pc) :=
  ⟨rfl, rfl, fun _ => rfl⟩

theorem pendStore (s : State) (t : TRef) (n : Nat) (away : Bool) : MemoryKept s (pendStore s t n away) :=
  ⟨rfl, rfl, fun _ => rfl⟩

end MemoryKept

theorem setLines_scratch (s : State) (core : Nat) (k : Cache) (l : List Line) (c : Nat) :
    ((setLines s core k l).core c).scratch = (s.core c).scratch := by
  rw [setLines, core_modCore]
  split
  · next h => rw [h]; cases k <;> rfl
  · rfl

theorem memoryKept_setLines (s : State) (core : Nat) (k : Cache) (l : List Line) : MemoryKept s (setLines s core k l) :=
  ⟨rfl, rfl, setLines_scratch s core k l⟩

/-! ### The end of a region -/

/-- Caches, write-backs and counted stores may change; the rest of the state, scratch with it, is as it was. -/
structure CachesOnly (s s' : State) : Prop where
  rest    : s' = { s with cores := s'.cores, wbs := s'.wbs, stores := s'.stores }
  scratch : ∀ c, (s'.core c).scratch = (s.core c).scratch

namespace CachesOnly

theorem refl (s : State) : CachesOnly s s := ⟨rfl, fun _ => rfl⟩

theorem trans {s s1 s2 : State} (h : CachesOnly s s1) (h' : CachesOnly s1 s2) : CachesOnly s s2 :=
  ⟨by rw [h'.rest, h.rest], fun c => (h'.scratch c).trans (h.scratch c)⟩

theorem foldl {α : Type} {f : State → α → State} (hf : ∀ s x, CachesOnly s (f s x)) (l : List α) (s : State) :
    CachesOnly s (l.foldl f s) := by
  induction l generalizing s with
  | nil => exact refl s
  | cons x l ih => exact (hf s x).trans (ih _)

end CachesOnly

theorem cachesOnly_setLines (s : State) (core : Nat) (k : Cache) (l : List Line) : CachesOnly s (setLines s core k l) :=
  ⟨rfl, setLines_scratch s core k l⟩

theorem cachesOnly_commitLine (core part : Nat) (k : Cache) (s : State) (l : Line) :
    CachesOnly s (commitLine core part k s l) := by
  unfold commitLine
  dsimp only
  split
  · exact cachesOnly_setLines ..
  · split
    · exact ⟨rfl, setLines_scratch s core k _⟩
    · exact cachesOnly_setLines ..

theorem cachesOnly_settleOwner (s : State) (t : TRef) (n : Nat) : CachesOnly s (settleOwner s t n) := by
  unfold settleOwner
  split
  · exact .refl s
  · exact ⟨rfl, fun _ => rfl⟩

theorem cachesOnly_commitSpec (s : State) (t : TRef) : CachesOnly s (commitSpec s t) :=
  ((CachesOnly.foldl (cachesOnly_commitLine _ _ _) _ _).trans (.foldl (cachesOnly_commitLine _ _ _) _ _)).trans
    (cachesOnly_settleOwner ..)

theorem memoryKept_endRegion (s : State) (t : TRef) : MemoryKept s (endRegion s t) := by
  have h := cachesOnly_commitSpec s t
  have hmem : (commitSpec s t).mem = s.mem := by rw [h.rest]
  have hcsm : (commitSpec s t).csm = s.csm := by rw [h.rest]
  exact ⟨hmem, hcsm, h.scratch⟩

/-! ### Threads that wait on a byte barrier -/

/-- A bound thread waits on a byte barrier. -/
def Bowaits (s : State) (u : TRef) (dst off : Nat) : Prop :=
  s.bound u = true ∧ (s.thread u).wait = some (.bowait dst off)

/-- Blocks are as they were, and no thread waits on a byte barrier that did not. -/
structure NoNewBowait (s s' : State) : Prop where
  blocks : s'.blocks = s.blocks
  waits  : ∀ u dst off, Bowaits s' u dst off → Bowaits s u dst off

namespace NoNewBowait

theorem trans {s s1 s2 : State} (h : NoNewBowait s s1) (h' : NoNewBowait s1 s2) : NoNewBowait s s2 :=
  ⟨h'.blocks.trans h.blocks, fun u d o hu => h.waits u d o (h'.waits u d o hu)⟩

/-- The update of a thread that does not wait, and still does not. -/
theorem modThread {s : State} {t : TRef} {f : Thread → Thread} (h : (f (s.thread t)).wait = none) :
    NoNewBowait s (s.modThread t f) := by
  refine ⟨rfl, fun u dst off ⟨hb, hw⟩ => ?_⟩
  rw [thread_modThread] at hw
  split at hw
  · rw [h] at hw; cases hw
  · next hne =>
    rw [bound_modThread, Bool.or_eq_true] at hb
    exact ⟨hb.resolve_left fun e => hne (by simpa using e), hw⟩

end NoNewBowait

theorem mem_waveThreads (s : State) (w : Nat) (u : TRef) : u ∈ waveThreads s w ↔ u.wave = w ∧ s.bound u = true := by
  have key : ∀ (l : Table Thread) (i : Nat), (∃ x, (i, x) ∈ l) ↔ (Table.find? l i).isSome = true := by
    intro l i
    induction l with
    | nil => simp [Table.find?]
    | cons e l ih =>
      obtain ⟨j, y⟩ := e
      by_cases hij : j = i
      · subst hij; simp only [Table.find?, if_true, Option.isSome_some, iff_true]; exact ⟨y, List.mem_cons_self⟩
      · have hji : i ≠ j := fun h => hij h.symm
        simp [Table.find?, hij, hji, ← ih]
  rw [bound_iff, ← key, waveThreads, List.mem_map]
  constructor
  · rintro ⟨⟨i, x⟩, hx, rfl⟩; exact ⟨rfl, x, hx⟩
  · rintro ⟨rfl, x, hx⟩; exact ⟨(u.lane, x), hx, rfl⟩

theorem mem_blockThreads (s : State) (b : Block) (u : TRef) :
    u ∈ blockThreads s b ↔ u.wave ∈ b.waves ∧ s.bound u = true := by
  simp only [blockThreads, List.mem_flatMap, mem_waveThreads]
  exact ⟨fun ⟨_, hw, hwave, hb⟩ => ⟨hwave ▸ hw, hb⟩, fun ⟨hw, hb⟩ => ⟨u.wave, hw, rfl, hb⟩⟩

/-- The waiters words of a block, by the threads that wait. -/
theorem waitersWord_of_noNew {s s' : State} (h : NoNewBowait s s') {o c x : Nat} (hw : waitersWord s' o c x) :
    waitersWord s o c x := by
  obtain ⟨b, u, dst, off, hb, hc, hu, hwait, hx⟩ := hw
  obtain ⟨hwave, hbound⟩ := (mem_blockThreads ..).mp hu
  obtain ⟨hbound, hwait⟩ := h.waits u dst off ⟨hbound, hwait⟩
  refine ⟨b, u, dst, off, ?_, hc, (mem_blockThreads ..).mpr ⟨hwave, hbound⟩, hwait, hx⟩
  rwa [State.block?, h.blocks] at hb

theorem wait_of_standing {s : State} {g : Issue} {t : TRef} (h : standing s g t = true) : (s.thread t).wait = none := by
  simp only [standing, Bool.and_eq_true, Option.isNone_iff_eq_none] at h
  exact h.2

/-! ### Byte barriers that a store completes -/

/-- What waking some waiters of a block's byte barriers leaves: memory and the CSM, and of scratch every byte but the
waiters words of those who waited. -/
structure Woken (s0 : State) (b : Block) (s : State) : Prop where
  mem   : s.mem = s0.mem
  csm   : s.csm = s0.csm
  waits : ∀ u dst off, (s.thread u).wait = some (.bowait dst off) → (s0.thread u).wait = some (.bowait dst off)
  bytes : ∀ c x, (¬∃ u dst off, b.core = c ∧ u ∈ blockThreads s0 b ∧ (s0.thread u).wait = some (.bowait dst off) ∧
      b.scratchOff + off + 8 ≤ x ∧ x < b.scratchOff + off + 12) →
    Memory.byte (s.core c).scratch x = Memory.byte (s0.core c).scratch x

theorem raceAcquireAll_eq (s : State) (bid : Nat) : ∃ bs, raceAcquireAll s bid = { s with blocks := bs } := by
  unfold raceAcquireAll
  split
  · exact ⟨_, rfl⟩
  · exact ⟨_, rfl⟩

theorem length_toBytes (n x : Nat) : (toBytes n x).length = n := by
  induction n generalizing x with
  | zero => rfl
  | succ n ih => rw [toBytes, List.length_cons, ih]

theorem byte_scratchWrite_other (s : State) {core a c x : Nat} {bs : List Byte}
    (h : ¬(c = core ∧ a ≤ x ∧ x < a + bs.length)) :
    Memory.byte ((scratchWrite s core a bs).core c).scratch x = Memory.byte (s.core c).scratch x := by
  rw [scratch_scratchWrite]
  split
  · next hc => rw [byte_scratchPut, if_neg fun hx => h ⟨hc, hx⟩, hc]
  · rfl

theorem edgeAcquire_block_eq (s : State) (t : TRef) : ∃ bs, edgeAcquire s t .block = { s with blocks := bs } :=
  raceAcquireAll_eq s _

theorem wait_modThread_same {s : State} {t : TRef} {f : Thread → Thread} (h : (f (s.thread t)).wait = (s.thread t).wait)
    (u : TRef) : ((s.modThread t f).thread u).wait = (s.thread u).wait := by
  rw [thread_modThread]
  split
  · next e => rw [h, e]
  · rfl

theorem wait_setV (s : State) (t u : TRef) (n : Nat) (w : Word) : ((setV s t n w).thread u).wait = (s.thread u).wait := by
  have h : (setV s t n w).thread u =
      (s.modThread t fun x => { x with v := x.v.set 0 n w, mapped := x.mapped &&& ~~~(1#256 <<< n) }).thread u := rfl
  rw [h]
  exact wait_modThread_same rfl u

theorem memoryKept_setV (s : State) (t : TRef) (n : Nat) (w : Word) : MemoryKept s (setV s t n w) :=
  ⟨setV_mem .., setV_csm .., fun c => by simp only [State.core, setV_cores]⟩

/-- A thread that goes on with a word in its register, as it wakes. -/
def wokenUp (s : State) (t : TRef) (dst : Nat) (w : Word) : State := advance (clearWait (setV s t dst w) t) t

theorem memoryKept_wokenUp (s : State) (t : TRef) (dst : Nat) (w : Word) : MemoryKept s (wokenUp s t dst w) :=
  ((memoryKept_setV s t dst w).trans (.clearWait _ t)).trans (.advance _ t)

/-- A thread that wakes waits no more; the others are as they were. -/
theorem wait_wokenUp (s : State) (t u : TRef) (dst : Nat) (w : Word) :
    ((wokenUp s t dst w).thread u).wait = if u = t then none else (s.thread u).wait := by
  rw [wokenUp, advance, wait_modThread_same (by rfl), clearWait, thread_modThread, ← wait_setV s t u dst w]
  split <;> rfl

theorem Woken.wake {s0 s : State} {b : Block} {t : TRef} {dst off : Nat} (h : Woken s0 b s) (ht : t ∈ blockThreads s0 b)
    (hw : (s.thread t).wait = some (.bowait dst off)) : Woken s0 b (wakeBowait s b t dst off) := by
  obtain ⟨s1, w, bs, hr, hs1⟩ : ∃ s1 w bs, wakeBowait s b t dst off = { wokenUp s1 t dst w with blocks := bs } ∧
      s1 = setOwnWord s b (off + 8) (ownWord s b (off + 8) - 1) := by
    obtain ⟨bs, hbs⟩ := edgeAcquire_block_eq (wokenUp (setOwnWord s b (off + 8) (ownWord s b (off + 8) - 1)) t dst
      (ownWord (setOwnWord s b (off + 8) (ownWord s b (off + 8) - 1)) b (off + 4))) t
    exact ⟨_, _, bs, hbs, rfl⟩
  have hkept := memoryKept_wokenUp s1 t dst w
  have hmem : s1.mem = s.mem := by rw [hs1]; rfl
  have hcsm : s1.csm = s.csm := by rw [hs1]; rfl
  have hwait (u : TRef) : (s1.thread u).wait = (s.thread u).wait := by rw [hs1]; rfl
  rw [hr]
  refine ⟨hkept.mem.trans (hmem.trans h.mem), hkept.csm.trans (hcsm.trans h.csm),
    fun u dst' off' hu => h.waits u dst' off' ?_, fun c x hx => ?_⟩
  · have hu' := (wait_wokenUp s1 t u dst w).symm.trans hu
    split at hu'
    · cases hu'
    · exact (hwait u).symm.trans hu'
  · refine (congrArg (Memory.byte · x) (hkept.scratch c)).trans (Eq.trans ?_ (h.bytes c x hx))
    rw [hs1]
    refine byte_scratchWrite_other s fun ⟨hc, hlo, hhi⟩ => hx ⟨t, dst, off, hc.symm, ht, h.waits _ _ _ hw, ?_, ?_⟩
    · omega
    · rw [length_toBytes] at hhi; omega

/-- One thread of the block: a waiter whose barrier holds zero wakes. -/
def wakeOne (b : Block) (s : State) (t : TRef) : State :=
  match (s.thread t).wait with
  | some (.bowait dst off) => if ownWord s b off = 0 then wakeBowait s b t dst off else s
  | _ => s

theorem Woken.wakeOne {s0 s : State} {b : Block} {t : TRef} (h : Woken s0 b s) (ht : t ∈ blockThreads s0 b) :
    Woken s0 b (wakeOne b s t) := by
  unfold Machine.wakeOne
  split
  · next hw =>
    split
    · exact h.wake ht hw
    · exact h
  · exact h

theorem woken_foldl {s0 : State} {b : Block} (l : List TRef) (hl : ∀ t ∈ l, t ∈ blockThreads s0 b) {s : State}
    (h : Woken s0 b s) : Woken s0 b (l.foldl (wakeOne b) s) := by
  induction l generalizing s with
  | nil => exact h
  | cons t l ih => exact ih (fun u hu => hl u (List.mem_cons_of_mem t hu)) (h.wakeOne (hl t List.mem_cons_self))

theorem wakeBarriers_none {s : State} {o : Nat} (h : s.block? o = none) : wakeBarriers s o = s := by
  simp only [wakeBarriers, h]

theorem wakeBarriers_some {s : State} {o : Nat} {b : Block} (h : s.block? o = some b) :
    wakeBarriers s o = (blockThreads s b).foldl (wakeOne b) s := by
  simp only [wakeBarriers, h]; rfl

/-- Waking the waiters of a block leaves memory, the CSM, and of scratch every byte but their waiters words (R67). -/
theorem wakeBarriers_keeps (s : State) (o : Nat) : (wakeBarriers s o).mem = s.mem ∧ (wakeBarriers s o).csm = s.csm ∧
    ∀ c x, ¬waitersWord s o c x →
      Memory.byte ((wakeBarriers s o).core c).scratch x = Memory.byte (s.core c).scratch x := by
  cases h : s.block? o with
  | none => rw [wakeBarriers_none h]; exact ⟨rfl, rfl, fun _ _ _ => rfl⟩
  | some b =>
    rw [wakeBarriers_some h]
    obtain ⟨hmem, hcsm, -, hbytes⟩ :=
      woken_foldl (blockThreads s b) (fun _ ht => ht) (⟨rfl, rfl, fun _ _ _ hu => hu, fun _ _ _ => rfl⟩ : Woken s b s)
    exact ⟨hmem, hcsm, fun c x hx => hbytes c x fun ⟨u, dst, off, hw⟩ => hx ⟨b, u, dst, off, h, hw⟩⟩

/-! ### The state at issue -/

theorem memoryKept_passed (s : State) (g : Issue) (b : Block) (i : Instr) (who : Who) : MemoryKept s (passed s g b i who) :=
  .foldl (fun s u => .advance s u) _ s

/-! ### The scratch store -/

theorem noNewBowait_beginRegion {s : State} {t : TRef} (pc : BitVec 64) (ht : (s.thread t).wait = none) :
    NoNewBowait s (beginRegion s t pc) := by
  have htick : NoNewBowait s s.tickSeq.2 := ⟨rfl, fun _ _ _ h => h⟩
  have hr : beginRegion s t pc = s.tickSeq.2.modThread t fun x => { x with regionPc := pc, regionSeq := s.seq } := rfl
  exact hr ▸ htick.trans (.modThread ht)

theorem noNewBowait_endRegion {s : State} {t : TRef} (ht : (s.thread t).wait = none) : NoNewBowait s (endRegion s t) := by
  have h := cachesOnly_commitSpec s t
  have hblocks : (commitSpec s t).blocks = s.blocks := by rw [h.rest]
  have hwaves : (commitSpec s t).waves = s.waves := by rw [h.rest]
  have hthread (u : TRef) : (commitSpec s t).thread u = s.thread u := by simp only [State.thread, State.wave, hwaves]
  have hbound (u : TRef) : (commitSpec s t).bound u = s.bound u := by simp only [State.bound, hwaves]
  have hcommit : NoNewBowait s (commitSpec s t) :=
    ⟨hblocks, fun u dst off ⟨hb, hw⟩ => ⟨hbound u ▸ hb, hthread u ▸ hw⟩⟩
  exact hcommit.trans (noNewBowait_beginRegion _ ((congrArg Thread.wait (hthread t)).trans ht))

/-- The write of a scratch store leaves every other byte, but the waiters words of the barriers it completes. -/
theorem stl_keeps {f : MForm} {s p r : State} {g : Issue} {b : Block} {t : TRef} {core a owner : Nat}
    (h : IssuesTo (.stl f) .normal s g b t p) (hrel : isRelease f.ord = false)
    (hplace : localPlace p b (localAddr p t f) (accSize f) = some (.scratch core a owner))
    (hr : exec (.stl f) s = .next r) (hroom : (p.thread t).st < 63) (hal : (localAddr p t f).toNat % accSize f = 0) :
    r.mem = s.mem ∧ r.csm = s.csm ∧
    ∀ c x, ¬(c = core ∧ a ≤ x ∧ x < a + accSize f) → ¬waitersWord p owner c x →
      Memory.byte (r.core c).scratch x = Memory.byte (s.core c).scratch x := by
  have hp : MemoryKept s p := h.past ▸ memoryKept_passed ..
  have hend : MemoryKept s (endRegion p t) := hp.trans (memoryKept_endRegion p t)
  have hnew : NoNewBowait p (endRegion p t) := noNewBowait_endRegion (wait_of_standing h.standing)
  obtain ⟨q, hq⟩ : ∃ q, scratchWrite (endRegion p t) core a (toBytes (accSize f) (storeVal p t f)) = q := ⟨_, rfl⟩
  have hwrite : placeWrite (endRegion p t) t (.scratch core a owner) (toBytes (accSize f) (storeVal p t f)) =
      (wakeBarriers q owner, none) := by rw [← hq]; rfl
  rw [exec_lane h exec_stl, localWrite_writes hroom hplace hal (by rw [hrel]; rfl) hwrite, begun_done] at hr
  obtain rfl := Host.Outcome.next.inj hr
  have hfin : MemoryKept (wakeBarriers q owner) (nextRegion (pendStore (wakeBarriers q owner) t 7 false) t) :=
    ((MemoryKept.pendStore ..).trans (.beginRegion ..)).trans (.advance ..)
  obtain ⟨hmem, hcsm, hbytes⟩ := wakeBarriers_keeps q owner
  have hqmem : q.mem = (endRegion p t).mem := by rw [← hq]; rfl
  have hqcsm : q.csm = (endRegion p t).csm := by rw [← hq]; rfl
  have hqnew : NoNewBowait (endRegion p t) q := by rw [← hq]; exact ⟨rfl, fun _ _ _ h => h⟩
  refine ⟨(hfin.mem.trans (hmem.trans hqmem)).trans hend.mem, (hfin.csm.trans (hcsm.trans hqcsm)).trans hend.csm,
    fun c x hx hw => ?_⟩
  rw [hfin.scratch c, hbytes c x fun hword => hw (waitersWord_of_noNew (hnew.trans hqnew) hword), ← hq,
    byte_scratchWrite_other _ (by rwa [length_toBytes]), hend.scratch c]

end Sys2Proof.Machine
end

section
/-! PROOFS. The frame of the stores: what a plain store of the generic or the tile path leaves of its cache and of all
others (R62, R71, R107), and the statement of both frames. -/

namespace Sys2Proof.Machine

/-! ### Bytes of a line -/

theorem expandMask_succ (n m : Nat) :
    expandMask (n + 1) m = if m.testBit n then expandMask n m + 255 * 256 ^ n else expandMask n m := by
  simp only [expandMask, List.range_succ, List.foldl_append, List.foldl_cons, List.foldl_nil]

theorem expandMask_lt (n m : Nat) : expandMask n m < 2 ^ (8 * n) := by
  induction n with
  | zero => simp [expandMask]
  | succ n ih =>
    have hp : (2 : Nat) ^ (8 * (n + 1)) = 256 * 2 ^ (8 * n) := by
      rw [Nat.mul_add, Nat.pow_add, Nat.mul_comm]
    have h256 : (256 : Nat) ^ n = 2 ^ (8 * n) := by rw [Nat.pow_mul]
    rw [expandMask_succ, hp]
    split <;> omega

/-- A byte mask widened has bit `8 n + i` set where the mask has bit `n`. -/
theorem testBit_expandMask (m n i : Nat) (hi : i < 8) (k : Nat) :
    (expandMask k m).testBit (8 * n + i) = (decide (n < k) && m.testBit n) := by
  induction k with
  | zero => simp [expandMask]
  | succ k ih =>
    have hlt := expandMask_lt k m
    have h256 : (256 : Nat) ^ k = 2 ^ (8 * k) := by rw [Nat.pow_mul]
    have hsum : expandMask k m + 255 * 256 ^ k = 2 ^ (8 * k) * 255 + expandMask k m := by rw [h256]; omega
    rw [expandMask_succ]
    obtain hn | hn | hn : n < k ∨ n = k ∨ k < n := by omega
    · have hj : 8 * n + i < 8 * k := by omega
      have hn' : n < k + 1 := by omega
      split
      · rw [hsum, Nat.testBit_two_pow_mul_add _ hlt, if_pos hj, ih]; simp [hn, hn']
      · rw [ih]; simp [hn, hn']
    · subst hn
      have hj : ¬8 * n + i < 8 * n := by omega
      split
      · next hm =>
        rw [hsum, Nat.testBit_two_pow_mul_add _ hlt, if_neg hj, Nat.add_sub_cancel_left]
        have h255 : (255 : Nat).testBit i = true := by
          rw [show (255 : Nat) = 2 ^ 8 - 1 from rfl, Nat.testBit_two_pow_sub_one]; simpa using hi
        simp [h255, hm]
      · next hm => rw [ih]; simp [hm]
    · have hj : 8 * (k + 1) ≤ 8 * n + i := by omega
      have hzero (x : Nat) (hx : x < 2 ^ (8 * (k + 1))) : x.testBit (8 * n + i) = false :=
        Nat.testBit_lt_two_pow (Nat.lt_of_lt_of_le hx (Nat.pow_le_pow_right (by decide) hj))
      rw [← expandMask_succ, hzero _ (expandMask_lt ..)]
      simp [show ¬n < k + 1 by omega]

theorem lineGet_byte (l : BitVec 1024) (n : Nat) : BitVec.ofNat 8 (lineGet l n 1) = l.extractLsb' (8 * n) 8 := by
  apply BitVec.eq_of_toNat_eq
  rw [lineGet, BitVec.toNat_ofNat, BitVec.extractLsb'_toNat, Nat.shiftRight_eq_div_pow, Nat.pow_mul]
  simp

/-- A byte outside the mask is the old one. -/
theorem byte_mergeBytes_other {mask : BitVec 128} {n : Nat} (hn : n < 128) (hm : mask.getLsbD n = false)
    (new old : BitVec 1024) :
    BitVec.ofNat 8 (lineGet (mergeBytes mask new old) n 1) = BitVec.ofNat 8 (lineGet old n 1) := by
  rw [lineGet_byte, lineGet_byte]
  apply BitVec.eq_of_getLsbD_eq
  intro i hi
  have hbit : (BitVec.ofNat 1024 (expandMask 128 mask.toNat)).getLsbD (8 * n + i) = false := by
    rw [BitVec.getLsbD_ofNat, testBit_expandMask _ _ _ hi, BitVec.testBit_toNat, hm]; simp
  have hlt : 8 * n + i < 1024 := by omega
  have hbit' := (BitVec.getLsbD_eq_getElem hlt).symm.trans hbit
  simp [mergeBytes, hbit', hlt, hi]

/-! ### The lines of a cache under a store -/

/-- A line but for its retention hint. -/
def Line.noHint (l : Line) : Line := { l with ret := .short }

/-- The line of an address with a thread's speculative bytes over it, or the line itself (`none`). -/
def lineOf (ls : List Line) (asid agen va : Nat) (sp : Option TRef) : Option Line := ls.find? fun l => l.is asid agen va sp

/-- The byte that a line holds under a mask of its own. -/
def Line.byteIf (mask : Line → BitVec 128) (n : Nat) (l : Option Line) : Option Byte :=
  (l.filter fun l => (mask l).getLsbD n).map fun l => BitVec.ofNat 8 (lineGet l.val n 1)

/-- Lines that only the retention hint of one address's may tell from others. -/
structure Hinted (asid agen va : Nat) (ls ls' : List Line) : Prop where
  away  : ∀ l ∈ ls', l.at asid agen va = false → l ∈ ls
  here  : ∀ l ∈ ls', l.at asid agen va = true → ∃ l0 ∈ ls, l = { l0 with ret := l.ret }
  found : ∀ sp, (lineOf ls' asid agen va sp).map Line.noHint = (lineOf ls asid agen va sp).map Line.noHint

/-- Lines among which a thread's own line of an address has taken the masked bytes; others may have left. -/
structure Took (t : TRef) (asid agen va : Nat) (m : BitVec 128) (ls ls' : List Line) : Prop where
  away  : ∀ l ∈ ls', l.at asid agen va = false → l ∈ ls
  here  : ∀ l ∈ ls', l.at asid agen va = true → l.spec ≠ some t → l ∈ ls
  found : ∀ sp, sp ≠ some t → lineOf ls' asid agen va sp = lineOf ls asid agen va sp
  own   : ∀ n, n < 128 → m.getLsbD n = false →
    Line.byteIf Line.dirty n (lineOf ls' asid agen va (some t)) = Line.byteIf Line.dirty n (lineOf ls asid agen va (some t))

theorem Line.is_at {l : Line} {asid agen va : Nat} {sp : Option TRef} (h : l.is asid agen va sp = true) :
    l.at asid agen va = true := by
  simp only [Line.is, Bool.and_eq_true] at h
  simpa [Line.at] using h.1

theorem Line.is_spec {l : Line} {asid agen va : Nat} {sp : Option TRef} (h : l.is asid agen va sp = true) : l.spec = sp := by
  simp only [Line.is, Bool.and_eq_true, beq_iff_eq] at h
  exact h.2

theorem Line.is_eq {l : Line} {asid agen va : Nat} (h : l.at asid agen va = true) (sp : Option TRef) :
    l.is asid agen va sp = (l.spec == sp) := by
  have : l.is asid agen va sp = (l.at asid agen va && (l.spec == sp)) := rfl
  rw [this, h, Bool.true_and]

theorem Line.is_of_away {l : Line} {asid agen va : Nat} (h : l.at asid agen va = false) (sp : Option TRef) :
    l.is asid agen va sp = false := by
  have : l.is asid agen va sp = (l.at asid agen va && (l.spec == sp)) := rfl
  rw [this, h, Bool.false_and]

section
variable {t : TRef} {asid agen va : Nat} {m : BitVec 128} {ls : List Line}

theorem Hinted.refl (asid agen va : Nat) (ls : List Line) : Hinted asid agen va ls ls :=
  ⟨fun _ h _ => h, fun l h _ => ⟨l, h, rfl⟩, fun _ => rfl⟩

/-- The line of an address moved to the front with a hint. -/
theorem hinted_used (ret : Ret) : Hinted asid agen va ls
    (((ls.filter fun x => x.at asid agen va).map fun x => { x with ret := ret }) ++ ls.filter fun x => !x.at asid agen va) where
  away l hl hat := by
    rcases List.mem_append.mp hl with hl | hl
    · obtain ⟨x, hx, rfl⟩ := List.mem_map.mp hl
      exact absurd (List.mem_filter.mp hx).2 (by simpa [Line.at] using hat)
    · exact (List.mem_filter.mp hl).1
  here l hl hat := by
    rcases List.mem_append.mp hl with hl | hl
    · obtain ⟨x, hx, rfl⟩ := List.mem_map.mp hl
      exact ⟨x, (List.mem_filter.mp hx).1, rfl⟩
    · exact absurd hat (by simpa using (List.mem_filter.mp hl).2)
  found sp := by
    have hback : (ls.filter fun x => !x.at asid agen va).find? (fun l => l.is asid agen va sp) = none := by
      refine List.find?_eq_none.mpr fun x hx => ?_
      rw [Line.is_of_away (by simpa using (List.mem_filter.mp hx).2)]; simp
    have hp : (fun x : Line => decide (x.at asid agen va = true ∧ x.is asid agen va sp = true)) =
        fun x => x.is asid agen va sp := by
      funext x
      cases h : x.is asid agen va sp with
      | false => simp
      | true => simp [Line.is_at h]
    have hfront : ((ls.filter fun x => x.at asid agen va).map fun x => { x with ret := ret }).find?
        (fun l => l.is asid agen va sp) = (lineOf ls asid agen va sp).map fun x => { x with ret := ret } := by
      rw [List.find?_map, List.find?_filter]
      exact congrArg _ (congrArg (fun p => ls.find? p) hp)
    rw [lineOf, List.find?_append, hback, Option.or_none, hfront, Option.map_map]
    rfl

/-- A fresh line holds no byte outside what is stored in it. -/
theorem byteIf_stored {l : Line} {n : Nat} (hd : l.dirty = m) (hn : m.getLsbD n = false) :
    Line.byteIf Line.dirty n (some l) = none := by
  simp [Line.byteIf, hd, hn]

/-- The thread's own line takes bytes. -/
theorem took_mapIf {l l1 : Line} (hl : lineOf ls asid agen va (some t) = some l) (h1 : l1.is asid agen va (some t) = true)
    (hown : ∀ n, n < 128 → m.getLsbD n = false → Line.byteIf Line.dirty n (some l1) = Line.byteIf Line.dirty n (some l)) :
    Took t asid agen va m ls (mapIf (·.is asid agen va (some t)) (fun _ => l1) ls) := by
  have hcomp (sp : Option TRef) : ((fun l => l.is asid agen va sp) ∘ fun x => if x.is asid agen va (some t) then l1 else x) =
      fun l => l.is asid agen va sp := by
    funext x
    simp only [Function.comp]
    split
    · next hx => rw [Line.is_eq (Line.is_at h1), Line.is_eq (Line.is_at hx), Line.is_spec h1, Line.is_spec hx]
    · rfl
  have hfind (sp : Option TRef) : lineOf (mapIf (·.is asid agen va (some t)) (fun _ => l1) ls) asid agen va sp =
      (lineOf ls asid agen va sp).map fun x => if x.is asid agen va (some t) then l1 else x := by
    rw [lineOf, mapIf, List.find?_map, hcomp]; rfl
  have hmem (x : Line) (hx : x ∈ mapIf (·.is asid agen va (some t)) (fun _ => l1) ls) : x ∈ ls ∨ x = l1 := by
    obtain ⟨y, hy, rfl⟩ := List.mem_map.mp hx
    split
    · exact .inr rfl
    · exact .inl hy
  refine ⟨fun x hx hat => (hmem x hx).resolve_right ?_, fun x hx _ hsp => (hmem x hx).resolve_right ?_, fun sp hsp => ?_,
    fun n hn hm => ?_⟩
  · rintro rfl; rw [Line.is_at h1] at hat; cases hat
  · rintro rfl; exact hsp (Line.is_spec h1)
  · rw [hfind]
    cases hf : lineOf ls asid agen va sp with
    | none => rfl
    | some y =>
      have hy : y.spec = sp := Line.is_spec (List.find?_some (p := fun l : Line => l.is asid agen va sp) hf)
      have hno : ¬y.is asid agen va (some t) = true := fun h => hsp (hy.symm.trans (Line.is_spec h))
      simp [hno]
  · have hl' := List.find?_some (p := fun l : Line => l.is asid agen va (some t)) hl
    rw [hfind, hl]
    simpa [hl'] using hown n hn hm

/-- A new line of the thread's is put among lines that may lose some of other addresses. -/
theorem took_new {l1 : Line} {front back : List Line} (hnone : lineOf ls asid agen va (some t) = none)
    (h1 : l1.is asid agen va (some t) = true) (hd : l1.dirty = m) (hsub : ∀ x ∈ front ++ back, x ∈ ls)
    (hfind : ∀ sp, lineOf (front ++ back) asid agen va sp = lineOf ls asid agen va sp) :
    Took t asid agen va m ls (front ++ l1 :: back) := by
  have hmem (x : Line) (hx : x ∈ front ++ l1 :: back) : x ∈ ls ∨ x = l1 := by
    rcases List.mem_append.mp hx with hx | hx
    · exact .inl (hsub x (List.mem_append_left _ hx))
    · rcases List.mem_cons.mp hx with rfl | hx
      · exact .inr rfl
      · exact .inl (hsub x (List.mem_append_right _ hx))
  have hother (sp : Option TRef) (hsp : sp ≠ some t) : l1.is asid agen va sp = false := by
    rw [Line.is_eq (Line.is_at h1), Line.is_spec h1]; simpa using fun h => hsp h.symm
  refine ⟨fun x hx hat => (hmem x hx).resolve_right ?_, fun x hx _ hsp => (hmem x hx).resolve_right ?_, fun sp hsp => ?_,
    fun n hn hm => ?_⟩
  · rintro rfl; rw [Line.is_at h1] at hat; cases hat
  · rintro rfl; exact hsp (Line.is_spec h1)
  · rw [← hfind sp, lineOf, lineOf, List.find?_append, List.find?_cons, hother sp hsp, List.find?_append]
  · have hfront : front.find? (fun l => l.is asid agen va (some t)) = none := by
      have h := (hfind (some t)).trans hnone
      rw [lineOf, List.find?_append, Option.or_eq_none_iff] at h
      exact h.1
    have hnew : lineOf (front ++ l1 :: back) asid agen va (some t) = some l1 := by
      rw [lineOf, List.find?_append, hfront, List.find?_cons, h1, Option.none_or]
    rw [hnew, hnone, byteIf_stored hd hm]; rfl

end

/-! ### One cache -/

/-- Memory and every line are as they were, but those of one cache. -/
structure OneCache (core : Nat) (k : Cache) (s s' : State) : Prop extends MemoryKept s s' where
  others : ∀ c k', c ≠ core ∨ k' ≠ k → lines s' c k' = lines s c k'

namespace OneCache

theorem refl (core : Nat) (k : Cache) (s : State) : OneCache core k s s := ⟨.refl s, fun _ _ _ => rfl⟩

theorem trans {core : Nat} {k : Cache} {s s1 s2 : State} (h : OneCache core k s s1) (h' : OneCache core k s1 s2) :
    OneCache core k s s2 :=
  ⟨h.toMemoryKept.trans h'.toMemoryKept, fun c k' hne => (h'.others c k' hne).trans (h.others c k' hne)⟩

end OneCache

theorem Core.lines_setLines (c : Core) (k k' : Cache) (l : List Line) :
    (c.setLines k l).lines k' = if k' = k then l else c.lines k' := by
  cases k <;> cases k' <;> rfl

@[simp] theorem lines_setLines (s : State) (core : Nat) (k : Cache) (l : List Line) :
    lines (setLines s core k l) core k = l := by
  rw [lines, setLines, core_modCore, if_pos rfl, Core.lines_setLines, if_pos rfl]

theorem lines_setLines_other (s : State) {core c : Nat} {k k' : Cache} (l : List Line) (h : c ≠ core ∨ k' ≠ k) :
    lines (setLines s core k l) c k' = lines s c k' := by
  rw [lines, setLines, core_modCore]
  split
  · next hc => rw [Core.lines_setLines, if_neg (h.resolve_left (not_not_intro hc)), hc]; rfl
  · rfl

theorem oneCache_setLines (s : State) (core : Nat) (k : Cache) (l : List Line) : OneCache core k s (setLines s core k l) :=
  ⟨memoryKept_setLines s core k l, fun _ _ h => lines_setLines_other s l h⟩

/-- Write-backs of dirty lines that a cache held are what is added. -/
def Sends (core : Nat) (k : Cache) (s s' : State) : Prop :=
  ∃ sent, s'.wbs = s.wbs ++ sent ∧
    ∀ w ∈ sent, ∃ v ∈ lines s core k, v.dirty ≠ 0 ∧ w = lineWb core (corePart s core) (cacheTracker k) v

theorem sends_none {core : Nat} {k : Cache} {s s' : State} (h : s'.wbs = s.wbs) : Sends core k s s' :=
  ⟨[], by rw [h, List.append_nil], fun _ hw => absurd hw List.not_mem_nil⟩

/-- An access with a hint touches only the hints and the order of its address's lines. -/
theorem useLine_keeps (s : State) (core : Nat) (k : Cache) (asid agen va : Nat) (ret : Ret) :
    OneCache core k s (useLine s core k asid agen va ret) ∧ (useLine s core k asid agen va ret).wbs = s.wbs ∧
    Hinted asid agen va (lines s core k) (lines (useLine s core k asid agen va ret) core k) := by
  unfold useLine
  split
  · exact ⟨.refl core k s, rfl, .refl ..⟩
  · refine ⟨oneCache_setLines .., rfl, ?_⟩
    rw [lines_setLines]
    exact hinted_used ret

theorem argMin_mem {α : Type} {f : α → Nat} {l : List α} {x : α} (h : argMin f l = some x) : x ∈ l := by
  induction l generalizing x with
  | nil => cases h
  | cons y l ih =>
    rw [argMin] at h
    cases hl : argMin f l with
    | none => rw [hl] at h; cases h; exact List.mem_cons_self
    | some z =>
      rw [hl] at h
      dsimp only at h
      split at h
      · cases h; exact List.mem_cons_of_mem y (ih hl)
      · cases h; exact List.mem_cons_self

/-- A line goes for a new one of an address only where no line of that address stands. -/
theorem slotFor_evict {s : State} {core : Nat} {k : Cache} {asid agen va : Nat} {v : Line}
    (h : slotFor s core k asid agen va = .evict v) :
    v ∈ lines s core k ∧ ∀ x ∈ lines s core k, x.at asid agen va = false := by
  unfold slotFor at h
  dsimp only at h
  split at h
  · cases h
  · next hnone =>
    refine ⟨?_, fun x hx => by simpa using List.find?_eq_none.mp hnone x hx⟩
    split at h
    · cases h
    · split at h
      · next hmin =>
        cases h
        exact (List.mem_filter.mp (List.mem_filter.mp (List.mem_reverse.mp (argMin_mem hmin))).1).1
      · cases h
  · next hnone =>
    refine ⟨?_, fun x hx => by simpa using List.find?_eq_none.mp hnone x hx⟩
    split at h
    · cases h
    · split at h
      · cases h
      · split at h
        · next hfind => cases h; exact List.mem_reverse.mp (List.mem_of_find?_eq_some hfind)
        · cases h

theorem lineOf_none {ls : List Line} {asid agen va : Nat} (h : ∀ x ∈ ls, x.at asid agen va = false) (sp : Option TRef) :
    lineOf ls asid agen va sp = none :=
  List.find?_eq_none.mpr fun x hx => by rw [Line.is_of_away (h x hx)]; simp

/-- A new line of a thread's takes a place, if there is one. -/
theorem placeLine_keeps {s : State} {core : Nat} {k : Cache} {t : TRef} {l : Line} {m : BitVec 128} (hsp : l.spec = some t)
    (hd : l.dirty = m) (hnone : lineOf (lines s core k) l.asid l.agen l.va (some t) = none) :
    OneCache core k s (placeLine s core k l) ∧ Sends core k s (placeLine s core k l) ∧
    Took t l.asid l.agen l.va m (lines s core k) (lines (placeLine s core k l) core k) := by
  have his (w : Nat) : ({ l with way := w } : Line).is l.asid l.agen l.va (some t) = true := by simp [Line.is, hsp]
  cases hslot : slotFor s core k l.asid l.agen l.va with
  | full =>
    have hr : placeLine s core k l = s := by simp only [placeLine, hslot]
    rw [hr]
    exact ⟨.refl core k s, sends_none rfl, fun _ h _ => h, fun _ h _ _ => h, fun _ _ => rfl, fun _ _ _ => rfl⟩
  | way w =>
    have hr : placeLine s core k l = setLines s core k ({ l with way := w } :: lines s core k) := by
      simp only [placeLine, hslot]
    rw [hr, lines_setLines]
    exact ⟨oneCache_setLines .., sends_none rfl,
      took_new (front := []) hnone (his w) hd (fun _ h => h) fun _ => rfl⟩
  | evict v =>
    obtain ⟨hv, haway⟩ := slotFor_evict hslot
    obtain ⟨ls, hls⟩ : ∃ ls, ls = { l with way := v.way } :: (lines s core k).filter fun x => !x.is v.asid v.agen v.va none :=
      ⟨_, rfl⟩
    have hrest : Took t l.asid l.agen l.va m (lines s core k) ls := hls ▸
      took_new (front := []) hnone (his v.way) hd (fun _ h => (List.mem_filter.mp h).1) fun sp => by
        rw [lineOf_none haway, List.nil_append, lineOf_none fun x hx => haway x (List.mem_filter.mp hx).1]
    have hone := oneCache_setLines s core k ls
    by_cases hdirty : v.dirty = 0
    · have hr : placeLine s core k l = setLines s core k ls := by simp only [placeLine, hslot, hdirty, if_true, hls]
      rw [hr, lines_setLines]
      exact ⟨hone, sends_none rfl, hrest⟩
    · have hr : placeLine s core k l = { setLines s core k ls with
          wbs := s.wbs ++ [lineWb core (corePart s core) (cacheTracker k) v] } := by
        simp only [placeLine, hslot, if_neg hdirty, hls]; rfl
      have hlines : lines (placeLine s core k l) core k = ls := by rw [hr]; exact lines_setLines s core k ls
      rw [hlines]
      refine ⟨?_, ⟨_, by rw [hr], fun w hw => ?_⟩, hrest⟩
      · rw [hr]; exact ⟨⟨hone.mem, hone.csm, hone.scratch⟩, hone.others⟩
      · rw [List.mem_singleton.mp hw]
        exact ⟨v, hv, hdirty, rfl⟩

/-- A store's bytes taken by a cache: its lines of one address take them in the thread's own line, and otherwise change but
in their hints. -/
structure Stores (core : Nat) (k : Cache) (t : TRef) (asid agen va : Nat) (m : BitVec 128) (s s' : State) : Prop
    extends OneCache core k s s' where
  sends : Sends core k s s'
  lines : ∃ ls, Took t asid agen va m (lines s core k) ls ∧ Hinted asid agen va ls (Machine.lines s' core k)

section
variable {s s1 : State} {core : Nat} {k : Cache} {t : TRef} {asid agen va : Nat} {m : BitVec 128}

theorem stores_used (hone : OneCache core k s s1) (hsend : Sends core k s s1)
    (htook : Took t asid agen va m (lines s core k) (lines s1 core k)) (ret : Ret) :
    Stores core k t asid agen va m s (useLine s1 core k asid agen va ret) := by
  obtain ⟨huse, hwbs, hhint⟩ := useLine_keeps s1 core k asid agen va ret
  obtain ⟨sent, hsent, hw⟩ := hsend
  exact ⟨hone.trans huse, ⟨sent, hwbs.trans hsent, hw⟩, _, htook, hhint⟩

end

theorem took_putBefore {t : TRef} {asid agen va : Nat} {m : BitVec 128} {ls : List Line} {l : Line}
    (hnone : lineOf ls asid agen va (some t) = none) (h1 : l.is asid agen va (some t) = true) (hd : l.dirty = m) :
    Took t asid agen va m ls (putBefore (·.at asid agen va) l ls) :=
  took_new hnone h1 hd (fun _ hx => by rwa [List.takeWhile_append_dropWhile] at hx)
    fun _ => by rw [List.takeWhile_append_dropWhile]

/-- The line of a thread's own speculative bytes that a store to a new one makes. -/
def ownLine (s : State) (p : Path) (r : Req) (va : Nat) : Line :=
  { newLine r.asid r.agen va with ret := p.ret, spec := some p.t, bypass := leavesCore s p r va }

/-- Where the thread has no line of the address yet, a new one takes the bytes: before the line that is there, for a bypass
store that hits, or in a place of its own. -/
theorem cacheWrite_new {s s' : State} {p : Path} {r : Req} {va : Nat} {m : BitVec 128} {val : BitVec 1024}
    (hnone : lineOf (lines s p.core p.cache) r.asid r.agen va (some p.t) = none)
    (h : cacheWrite s p r va m val = (s', .ok ())) :
    (∃ b : Line, s' = setLines s p.core p.cache (putBefore (·.at r.asid r.agen va)
        { (ownLine s p r va).store p m val with way := b.way, ret := b.ret } (lines s p.core p.cache))) ∨
      s' = useLine (placeLine s p.core p.cache ((ownLine s p r va).store p m val)) p.core p.cache r.asid r.agen va p.ret := by
  have hno : (lines s p.core p.cache).find? (fun l => l.is r.asid r.agen va (some p.t)) = none := hnone
  unfold cacheWrite at h
  simp only [hno] at h
  generalize victimEntry s p.core p.cache r.asid r.agen va + (if leavesCore s p r va then 1 else 0) = entries at h
  split at h
  · cases (Prod.mk.inj h).2
  split at h
  · cases (Prod.mk.inj h).2
  split at h
  · next b _ _ => exact .inl ⟨b, (Prod.mk.inj h).1.symm⟩
  · exact .inr (Prod.mk.inj h).1.symm

theorem byteIf_store_other {l l1 : Line} {p : Path} {m : BitVec 128} {val : BitVec 1024} {n : Nat} (hn : n < 128)
    (hm : m.getLsbD n = false) (hd : l1.dirty = (l.store p m val).dirty) (hv : l1.val = (l.store p m val).val) :
    Line.byteIf Line.dirty n (some l1) = Line.byteIf Line.dirty n (some l) := by
  have hbit : l1.dirty.getLsbD n = l.dirty.getLsbD n := by simp [hd, Line.store, hm]
  have hbyte : BitVec.ofNat 8 (lineGet l1.val n 1) = BitVec.ofNat 8 (lineGet l.val n 1) := by
    rw [hv]; exact byte_mergeBytes_other hn hm val l.val
  cases hb : l.dirty.getLsbD n <;> simp [Line.byteIf, Option.filter, hbit, hb, hbyte]

/-- Where the thread has a line of the address, that takes the bytes. -/
theorem cacheWrite_own {s s' : State} {p : Path} {r : Req} {va : Nat} {m : BitVec 128} {val : BitVec 1024} {l : Line}
    (hl : lineOf (lines s p.core p.cache) r.asid r.agen va (some p.t) = some l)
    (h : cacheWrite s p r va m val = (s', .ok ())) :
    s' = useLine (setLines s p.core p.cache (mapIf (·.is r.asid r.agen va (some p.t))
      (fun _ => { l.store p m val with bypass := l.bypass && p.ret == .bypass }) (lines s p.core p.cache)))
      p.core p.cache r.asid r.agen va p.ret := by
  have hsome : (lines s p.core p.cache).find? (fun l => l.is r.asid r.agen va (some p.t)) = some l := hl
  unfold cacheWrite at h
  simp only [hsome] at h
  exact (Prod.mk.inj h).1.symm

/-- What a cache leaves that holds a store's bytes (R62, R71, R107). -/
theorem cacheWrite_stores {s s' : State} {p : Path} {r : Req} {va : Nat} {m : BitVec 128} {val : BitVec 1024}
    (h : cacheWrite s p r va m val = (s', .ok ())) : Stores p.core p.cache p.t r.asid r.agen va m s s' := by
  cases hl : lineOf (lines s p.core p.cache) r.asid r.agen va (some p.t) with
  | some l =>
    have hown : l.is r.asid r.agen va (some p.t) = true :=
      List.find?_some (p := fun l : Line => l.is r.asid r.agen va (some p.t)) hl
    rw [cacheWrite_own hl h]
    refine stores_used (oneCache_setLines ..) (sends_none rfl) ?_ p.ret
    rw [lines_setLines]
    exact took_mapIf hl hown fun n hn hm => byteIf_store_other (p := p) (val := val) hn hm rfl rfl
  | none =>
    have hdirty : ((ownLine s p r va).store p m val).dirty = m := BitVec.zero_or
    rcases cacheWrite_new hl h with ⟨b, rfl⟩ | rfl
    · refine ⟨oneCache_setLines .., sends_none rfl, _, ?_, .refl ..⟩
      rw [lines_setLines]
      exact took_putBefore hl (by simp [ownLine, newLine, Line.store, Line.is]) hdirty
    · obtain ⟨hone, hsend, htook⟩ := placeLine_keeps (s := s) (core := p.core) (k := p.cache)
        (l := (ownLine s p r va).store p m val) rfl hdirty hl
      exact stores_used hone hsend htook p.ret

/-! ### Steps that leave the caches -/

/-- Memory, every cache's lines, the write-backs and the map of quads are as they were. -/
structure CachesKept (s s' : State) : Prop extends MemoryKept s s' where
  lines   : ∀ c k, lines s' c k = lines s c k
  wbs     : s'.wbs = s.wbs
  quadMap : s'.quadMap = s.quadMap
  remap   : s'.remap = s.remap

namespace CachesKept

theorem refl (s : State) : CachesKept s s := ⟨.refl s, fun _ _ => rfl, rfl, rfl, rfl⟩

theorem trans {s s1 s2 : State} (h : CachesKept s s1) (h' : CachesKept s1 s2) : CachesKept s s2 :=
  ⟨h.toMemoryKept.trans h'.toMemoryKept, fun c k => (h'.lines c k).trans (h.lines c k), h'.wbs.trans h.wbs,
    h'.quadMap.trans h.quadMap, h'.remap.trans h.remap⟩

theorem foldl {α : Type} {f : State → α → State} (hf : ∀ s x, CachesKept s (f s x)) (l : List α) (s : State) :
    CachesKept s (l.foldl f s) := by
  induction l generalizing s with
  | nil => exact refl s
  | cons x l ih => exact (hf s x).trans (ih _)

theorem modThread (s : State) (t : TRef) (f : Thread → Thread) : CachesKept s (s.modThread t f) :=
  ⟨.modThread s t f, fun _ _ => rfl, rfl, rfl, rfl⟩

theorem advance (s : State) (t : TRef) : CachesKept s (advance s t) := modThread s t _

theorem pendStore (s : State) (t : TRef) (n : Nat) (away : Bool) : CachesKept s (pendStore s t n away) :=
  ⟨.pendStore s t n away, fun _ _ => rfl, rfl, rfl, rfl⟩

theorem modPart (s : State) (p : Nat) (f : Part → Part) : CachesKept s (s.modPart p f) :=
  ⟨⟨rfl, rfl, fun _ => rfl⟩, fun _ _ => rfl, rfl, rfl, rfl⟩

theorem putRaceLine (s : State) (l : RaceLine) : CachesKept s (putRaceLine s l) :=
  ⟨⟨rfl, rfl, fun _ => rfl⟩, fun _ _ => rfl, rfl, rfl, rfl⟩

theorem modLaunch (s : State) (n : Nat) (f : Launch → Launch) : CachesKept s (s.modLaunch n f) :=
  ⟨⟨rfl, rfl, fun _ => rfl⟩, fun _ _ => rfl, rfl, rfl, rfl⟩

theorem loads (s : State) (l : List PendLoad) : CachesKept s { s with loads := l } :=
  ⟨⟨rfl, rfl, fun _ => rfl⟩, fun _ _ => rfl, rfl, rfl, rfl⟩

theorem stores (s : State) (l : List PendStore) : CachesKept s { s with stores := l } :=
  ⟨⟨rfl, rfl, fun _ => rfl⟩, fun _ _ => rfl, rfl, rfl, rfl⟩

theorem passed (s : State) (g : Issue) (b : Block) (i : Instr) (who : Who) : CachesKept s (passed s g b i who) :=
  foldl (fun s u => advance s u) _ s

/-- The count of a core's samples is none of its lines. -/
theorem samples (s : State) (core n : Nat) : CachesKept s (s.modCore core fun c => { c with samples := n }) := by
  refine ⟨⟨rfl, rfl, fun c => ?_⟩, fun c k => ?_, rfl, rfl, rfl⟩
  · rw [core_modCore]; split
    · next h => rw [h]
    · rfl
  · simp only [Machine.lines, core_modCore]; split
    · next h => rw [h]; cases k <;> rfl
    · rfl

theorem corePart {s s' : State} (h : CachesKept s s') (core : Nat) : corePart s' core = corePart s core := by
  simp only [Machine.corePart, physQuad, quadPart, h.quadMap, h.remap]

end CachesKept

theorem joinWaiters_stops (s : State) (p i b cap : Nat) (w : Option Waiter) : (joinWaiters s p i b cap w).2 ≠ .ok () := by
  unfold joinWaiters
  split
  · split
    · nofun
    · split <;> nofun
  · nofun

theorem ite_stops {c : Prop} [Decidable c] {s : State} {e : Miss} {x : Mem Unit} (hx : x.2 ≠ .ok ()) :
    (if c then Mem.fail s e else x).2 ≠ .ok () := by
  split
  · nofun
  · exact hx

/-- A touch that lets its access go on leaves the caches. -/
theorem touch_keeps {s s' : State} {r : Req} {va : Nat} (h : touch s r va = (s', .ok ())) : CachesKept s s' := by
  unfold touch at h
  split at h
  · exact (Prod.mk.inj h).1 ▸ .refl s
  · next i reg b _ =>
    dsimp only at h
    split at h
    · exact (Prod.mk.inj h).1 ▸ .refl s
    · split at h
      · obtain rfl := (Prod.mk.inj h).1
        exact ⟨⟨rfl, rfl, fun _ => rfl⟩, fun _ _ => rfl, rfl, rfl, rfl⟩
      · cases (Prod.mk.inj h).2
      · exact absurd (congrArg Prod.snd h) (ite_stops (joinWaiters_stops _ _ _ _ _ _))
      · split at h
        · split at h
          · cases (Prod.mk.inj h).2
          · cases (Prod.mk.inj h).2
        · cases (Prod.mk.inj h).2

theorem storeTouch_keeps {s s' : State} {core line : Nat} {k : Cache} {t : TRef} {r : Req}
    (h : storeTouch s core k t r line = (s', .ok ())) : CachesKept s s' := by
  unfold storeTouch at h
  dsimp only at h
  split at h
  · exact (Prod.mk.inj h).1 ▸ .refl s
  · exact touch_keeps h

theorem raceGranule_keeps (s : State) (t : TRef) (k : RaceKind) (b : Block) (line g : Nat) (full : BitVec 128) :
    CachesKept s (raceGranule s t k b line g full) := by
  unfold raceGranule
  dsimp only
  split
  · exact .refl s
  · next i l _ =>
    generalize (if k.released = true then Table.get 0 b.clocks i else Table.get 0 l.epochs i) = epoch
    split
    · exact .putRaceLine ..
    · split
      · exact .putRaceLine ..
      · exact ((CachesKept.modLaunch ..).trans (.modPart ..)).trans (.putRaceLine ..)

theorem raceAccess_keeps {s s' : State} {t : TRef} {k : RaceKind} {line : Nat} {m : BitVec 128}
    (h : raceAccess s t k line m = (s', .ok ())) : CachesKept s s' := by
  unfold raceAccess at h
  split at h
  · exact (Prod.mk.inj h).1 ▸ .refl s
  · next b _ =>
    split at h
    · exact (Prod.mk.inj h).1 ▸ .refl s
    · dsimp only at h
      split at h
      · cases (Prod.mk.inj h).2
      · exact (Prod.mk.inj h).1 ▸ .foldl (fun s g => raceGranule_keeps s t k b line g m) _ s

theorem raceOn_keeps {s s' : State} {k : Cache} {t : TRef} {write released : Bool} {acquire : Option Scope} {line : Nat}
    {m : BitVec 128} (h : raceOn k s t write acquire released line m = (s', .ok ())) : CachesKept s s' := by
  unfold raceOn at h
  dsimp only at h
  split at h
  · exact raceAccess_keeps h
  · exact (Prod.mk.inj h).1 ▸ .refl s

theorem startSample_keeps (access : Nat) (place : State → TRef → BitVec 64 × Nat) (s : State) (g : Issue) (b : Block)
    (r : State) (t : TRef) : CachesKept r (startSample access place s g b r t) := by
  unfold startSample
  dsimp only
  split
  · exact .modThread ..
  · split
    · refine CachesKept.trans ?_ (.modPart ..)
      split
      · exact (CachesKept.modThread ..).trans (.loads ..)
      · exact (CachesKept.modThread ..).trans (.stores ..)
    · exact .modThread ..

theorem askPeers_keeps (place : State → TRef → BitVec 64 × Nat) (s : State) (g : Issue) (ts : List TRef) (r : State) :
    CachesKept r (askPeers place s g ts r) := by
  unfold askPeers
  split
  · exact .refl r
  · refine .foldl (fun r t => ?_) ts r
    split
    · exact .loads ..
    · exact .refl r

/-- The sampler leaves the caches. -/
theorem sampledAt_keeps (access : Nat) (place : State → TRef → BitVec 64 × Nat) (p : State) (g : Issue) (b : Block) (t : TRef)
    (r : State) : CachesKept r (sampledAt access place p g b t r) := by
  unfold sampledAt sampled
  dsimp only
  split
  · exact askPeers_keeps ..
  · refine (askPeers_keeps place p g [t] r).trans ?_
    split
    · exact (CachesKept.samples ..).trans (.foldl (fun s u => startSample_keeps access place p g b s u) _ _)
    · exact .samples ..

/-! ### The frame of a plain store -/

theorem Stores.around {s s1 s2 r : State} {core : Nat} {k : Cache} {t : TRef} {asid agen va : Nat} {m : BitVec 128}
    (h : CachesKept s s1) (hs : Stores core k t asid agen va m s1 s2) (h' : CachesKept s2 r) :
    Stores core k t asid agen va m s r := by
  obtain ⟨hone, ⟨sent, hsent, hw⟩, hlines⟩ := hs
  refine ⟨⟨(h.toMemoryKept.trans hone.toMemoryKept).trans h'.toMemoryKept, fun c k' hne => ?_⟩, ⟨sent, ?_, ?_⟩, ?_⟩
  · rw [h'.lines, hone.others c k' hne, h.lines]
  · rw [h'.wbs, hsent, h.wbs]
  · rwa [h.lines, h.corePart] at hw
  · rwa [h.lines, ← h'.lines] at hlines

theorem byteIf_noHint {f : Line → BitVec 128} (hf : ∀ l, f l.noHint = f l) {n : Nat} {o o' : Option Line}
    (h : o'.map Line.noHint = o.map Line.noHint) : Line.byteIf f n o' = Line.byteIf f n o := by
  have key (o : Option Line) : Line.byteIf f n (o.map Line.noHint) = Line.byteIf f n o := by
    cases o with
    | none => rfl
    | some l =>
      have hval : l.noHint.val = l.val := rfl
      cases hb : (f l).getLsbD n <;> simp [Line.byteIf, Option.filter, hf, hb, hval]
  rw [← key o', h, key o]

/-- A thread's byte in a cache is its own line's, or else the line's. -/
theorem coreByte_eq (s : State) (core : Nat) (k : Cache) (u : TRef) (asid agen line n : Nat) :
    coreByte s core k u asid agen line n =
      (Line.byteIf Line.dirty n (lineOf (lines s core k) asid agen line (some u))).or
        (Line.byteIf Line.valid n (lineOf (lines s core k) asid agen line none)) := by
  simp only [coreByte, Line.byteIf, lineOf]
  cases h : Option.filter (fun l : Line => l.dirty.getLsbD n)
    ((lines s core k).find? fun l => l.is asid agen line (some u)) <;> rfl

theorem Stores.coreByte_other {s r : State} {core : Nat} {k : Cache} {t u : TRef} {asid agen va n : Nat} {m : BitVec 128}
    (h : Stores core k t asid agen va m s r) (hn : n < 128) (hu : u ≠ t ∨ m.getLsbD n = false) :
    coreByte r core k u asid agen va n = coreByte s core k u asid agen va n := by
  obtain ⟨ls, htook, hhint⟩ := h.lines
  have hbase : Line.byteIf Line.valid n (lineOf (Machine.lines r core k) asid agen va none) =
      Line.byteIf Line.valid n (lineOf (Machine.lines s core k) asid agen va none) := by
    rw [byteIf_noHint (fun _ => rfl) (hhint.found none), htook.found none nofun]
  have hown : Line.byteIf Line.dirty n (lineOf (Machine.lines r core k) asid agen va (some u)) =
      Line.byteIf Line.dirty n (lineOf (Machine.lines s core k) asid agen va (some u)) := by
    rw [byteIf_noHint (fun _ => rfl) (hhint.found (some u))]
    by_cases hut : u = t
    · rw [hut]; exact htook.own n hn (hu.resolve_left (not_not_intro hut))
    · rw [htook.found (some u) fun e => hut (Option.some.inj e)]
  rw [coreByte_eq, coreByte_eq, hown, hbase]

theorem Stores.away {s r : State} {core : Nat} {k : Cache} {t : TRef} {asid agen va : Nat} {m : BitVec 128}
    (h : Stores core k t asid agen va m s r) {l : Line} (hl : l ∈ Machine.lines r core k) (hat : l.at asid agen va = false) :
    l ∈ Machine.lines s core k := by
  obtain ⟨ls, htook, hhint⟩ := h.lines
  exact htook.away l (hhint.away l hl hat) hat

theorem Stores.here {s r : State} {core : Nat} {k : Cache} {t : TRef} {asid agen va : Nat} {m : BitVec 128}
    (h : Stores core k t asid agen va m s r) {l : Line} (hl : l ∈ Machine.lines r core k) (hat : l.at asid agen va = true)
    (hsp : l.spec ≠ some t) : ∃ l0 ∈ Machine.lines s core k, l = { l0 with ret := l.ret } := by
  obtain ⟨ls, htook, hhint⟩ := h.lines
  obtain ⟨l0, hl0, he⟩ := hhint.here l hl hat
  have hat0 : l0.at asid agen va = true := by rw [he] at hat; exact hat
  have hsp0 : l0.spec ≠ some t := by rw [he] at hsp; exact hsp
  exact ⟨l0, htook.here l0 hl0 hat0 hsp0, he⟩

/-- Settles O60: the scratch store by its one write and the waiters it wakes, the plain store by what its cache does. -/
theorem storesLeaveOtherBytes : Obligations.StoresLeaveOtherBytes := by
  refine ⟨?_, ?_⟩
  · intro f s p r g b t core a owner h hrel hplace hr hroom hal
    exact stl_keeps h hrel hplace hr hroom hal
  · intro f s p s1 s2 s3 r g b t i k hi h hroom hrel core ea line m q hlow hal htouch hwrite hrace hr
    obtain ⟨away, haway⟩ : ∃ away, leavesCore p ⟨core, k, t, f.ret⟩ q line = away := ⟨_, rfl⟩
    have hrun := exec_sampled_done h (exec_store hi) (lane := fun _ => pathWrite k f)
      ((pathWrite_plain hroom (genericTrap_none hlow hal) hrel).trans (plainStore_done rfl rfl rfl haway htouch hwrite hrace))
    obtain rfl := Host.Outcome.next.inj (hrun.symm.trans hr)
    have hstart : CachesKept s s1 := (h.past ▸ CachesKept.passed ..).trans (storeTouch_keeps htouch)
    have hend : CachesKept s2 (sampledAt 1 (storePlace k f) p g b t (advance (pendStore s3 t (if away then 5 else 4) away) t)) :=
      (((raceOn_keeps hrace).trans (.pendStore ..)).trans (.advance ..)).trans (sampledAt_keeps ..)
    have hst := Stores.around hstart (cacheWrite_stores hwrite) hend
    exact ⟨hst.mem, hst.scratch, congrArg _ hst.csm, hst.others, fun _ hl hat => hst.away hl hat,
      fun _ hl hat hsp => hst.here hl hat hsp, fun _ _ hn hu => hst.coreByte_other hn hu, hst.sends⟩

end Sys2Proof.Machine
end
